-- ==== Sys2Proof/Word.lean ====
section
/-!
DEFINITION. The plainest types: bytes, words, and sparse tables. (Their operations stand in
`Sys2Proof.Machine.Tab` and `Sys2Proof.Machine.Bytes`.)
-/

namespace Sys2Proof

/-- One byte of memory, of a slot or of a payload. -/
abbrev Byte := BitVec 8

/-- A list of bytes in ascending address order (00 R8: little-endian for every multi-byte field). -/
abbrev Bytes := List Byte

/-- An FP32 bit pattern (05 R108). -/
abbrev F32 := BitVec 32

/-- A sparse table: entries of (key, value), keys strictly rising. -/
abbrev Tab (α : Type) := List (Nat × α)

end Sys2Proof
end

