-- ==== Sys2Proof/Syntax.lean ====
section
/-!
DEFINITION. The block's commands: one constructor of `Instr` per row of spec/opcode_table.json, and the operand types
they carry. A row that the shepherd takes up names its mailbox (the request stands in that mailbox's ring, 02 R29); a
row of a received frame names its port (the frame stands at the head of that port's ingress buffer, 13 R307), where 64 names
the management port (11 R250); a row of
an engine's bundle names its paddock (the bundle stands in instruction memory at the pc, 04 R80); a row of a timed
happening carries the instant `t` in ns at which it happens (log entries 2 to 5).
-/

namespace Sys2Proof

/-- The path on which a CSR access or a doorbell reaches the CSR block (02 R28, R31, R42). -/
inductive Path where
  /-- an Eruno session of the part: index and generation -/
  | session (i : BitVec 16) (gen : BitVec 16)
  /-- the 10GBASE-R management port -/
  | mgmt
  /-- the I3C interface -/
  | i3c
deriving DecidableEq, Repr

/-- Where a CSR_READ comes from: the Eruno frame at the head of a port, of which 64 is the management port (11 R250), or the
management path or I3C with its fields. -/
inductive CsrReadSource where
  | port (q : Fin 65)
  | direct (path : Path) (addr : BitVec 32) (len : Nat)
deriving DecidableEq, Repr

/-- Where a CSR_WRITE comes from, as `CsrReadSource`, with the bytes written. -/
inductive CsrWriteSource where
  | port (q : Fin 65)
  | direct (path : Path) (addr : BitVec 32) (data : Bytes)
deriving DecidableEq, Repr

/-- Where a coherence message comes from: the Eruno frame at the head of a port, or a paddock's line cache (14 R327). -/
inductive CohSource where
  | port (q : Fin 64)
  | paddock (p : Fin 16)
deriving DecidableEq, Repr

/-- A role (02 R42): 0x02 operator, 0x03 installer, 0x04 maker. -/
inductive Role where
  | operator
  | installer
  | maker
deriving DecidableEq, Repr

/-- The 32-byte Eruno header's fields and the frame's payload and ICV (12 R274). -/
structure Eruno where
  version : BitVec 4 := 1
  hops : BitVec 4 := 15
  opcode : BitVec 8 := 0
  flags : BitVec 16 := 0
  dst : BitVec 24 := 0
  src : BitVec 24 := 0
  session : BitVec 32 := 0
  seq : BitVec 32 := 0
  tag : BitVec 16 := 0
  status : BitVec 16 := 0
  load : BitVec 8 := 0
  subop : BitVec 8 := 0
  operand : BitVec 64 := 0
  payload : Bytes := []
  icv : BitVec 128 := 0
deriving DecidableEq, Repr

/-- The opcodes of RoCEv2 packets that 12 R301 names; `unsupported` is any other opcode of the reliable connected
service, `otherService` a packet of an absent service. -/
inductive RoceOp where
  | sendFirst | sendMiddle | sendLast | sendOnly
  | writeFirst | writeMiddle | writeLast | writeOnly
  | readRequest | compareSwap | fetchAdd
  | readResponse | ack | atomicAck
  | cnp | unsupported | otherService
deriving DecidableEq, Repr

/-- The content of an acknowledgement (12 R301 to R303). -/
inductive Syndrome where
  | ack
  | rnrNak (timer : Nat)
  | nakSequence | nakInvalidRequest | nakRemoteAccess | nakRemoteOperational
deriving DecidableEq, Repr

/-- A RoCEv2 packet: BTH fields, RETH or AtomicETH fields, AETH, payload (12 R301). -/
structure Roce where
  op : RoceOp := .otherService
  destQp : BitVec 24 := 0
  psn : BitVec 24 := 0
  va : Nat := 0
  rkey : BitVec 32 := 0
  dmaLen : Nat := 0
  swapAdd : BitVec 64 := 0
  compare : BitVec 64 := 0
  syndrome : Syndrome := .ack
  payload : Bytes := []
deriving DecidableEq, Repr

/-- The fields of the reliable-link TLV of an LLDPDU (11 R256). -/
structure LinkTlv where
  version : Nat
  relMode : Nat
  bufferKib : Nat := 0
  replayNs : Nat := 0
  ackDelayNs : Nat := 0
deriving DecidableEq, Repr

/-- The PTP messages of 07 R163. -/
inductive PtpKind where
  | sync | followUp | delayReq | delayResp | pdelayReq | pdelayResp | pdelayRespFollowUp | announce
  | management | signaling
deriving DecidableEq, Repr

/-- A PTP message's fields that the part uses (07 R163, R164); times in ns. -/
structure Ptp where
  kind : PtpKind
  domain : Nat := 0
  seqId : BitVec 16 := 0
  twoStep : Bool := false
  /-- origin, receive or response timestamp carried by the message, in 2^-16 ns: what is below 1 ns goes in correctionField -/
  stamp : Int := 0
  correction : Int := 0
  source : BitVec 80 := 0
  requester : BitVec 80 := 0
  /-- Announce: priority1, clockClass, accuracy, variance, priority2 as one number in BMCA order, then the grandmaster -/
  quality : Nat := 0
  grandmaster : BitVec 64 := 0
  stepsRemoved : Nat := 0
deriving DecidableEq, Repr

/-- What a frame carries (12 R273; 11 R249, R258; 13 R307): of an LLDPDU the bytes of the reliable-link TLV, where it has one; of a
PFC frame the classes that it names and the quanta of each class. -/
inductive FrameBody where
  | eruno (e : Eruno)
  | roce (r : Roce)
  | lldp (tlv : Option Bytes)
  | ptp (m : Ptp)
  | pfc (classes : BitVec 8) (quanta : List (BitVec 16))
  | pause
  | linkControl
  | other
deriving DecidableEq, Repr

/-- An Ethernet frame: its bytes from the destination address to the FCS, its Ethernet, VLAN, IP and UDP fields, and its body. `ecn`
is the ECN field of RFC 3168, `ident` the identification, flags and fragment offset of IPv4. -/
structure Frame where
  len : Nat
  ecn : BitVec 2 := 2
  dscp : BitVec 6 := 0
  ttl : BitVec 8 := 0
  ipDst : BitVec 128 := 0
  ipSrc : BitVec 128 := 0
  ipv6 : Bool := false
  ident : BitVec 32 := 0
  ipSum : BitVec 16 := 0
  udpSum : BitVec 16 := 0
  udpPort : BitVec 16 := 0
  udpSrc : BitVec 16 := 0
  vlan : Option (BitVec 12) := none
  pcp : BitVec 3 := 0
  ethDst : BitVec 48 := 0
  ethSrc : BitVec 48 := 0
  body : FrameBody
deriving DecidableEq, Repr

/-- A frame of an ECN-capable transport (RFC 3168). -/
def Frame.ect (f : Frame) : Bool := f.ecn != 0
/-- A frame marked CE (RFC 3168). -/
def Frame.ce (f : Frame) : Bool := f.ecn == 3

/-- The fields of the link tag of 11 R259. -/
structure LinkTag where
  seq : BitVec 16 := 0
  ack : BitVec 16 := 0
  seqValid : Bool := false
  ackValid : Bool := false
  nak : Bool := false
  replay : Bool := false
  init : Bool := false
deriving DecidableEq, Repr

/-- A frame as it arrives at a port: the six preamble bytes between the start character and the SFD, which hold the link tag of a
tagged frame, and whether the FCS checks (11 R259, R260). -/
structure RxFrame where
  preamble : Bytes
  fcsGood : Bool := true
  frame : Frame
deriving DecidableEq, Repr

/-- What a stack reports with a line access (09 R219 to R227): the symbols found wrong with the XOR of each, the slices
reported uncorrected, the dies reported failed, and whether a command-address parity error came with it. -/
structure LineObs where
  errs : List (Nat × Byte) := []
  uncorrected : BitVec 16 := 0
  diesFailed : BitVec 16 := 0
  caParity : Bool := false
deriving DecidableEq, Repr

/-- The arrays of 17 R388. -/
inductive ArrayKind where
  | paddockStore | queryRows | vectorRegisters | accumulator | instructionMemory
  | replayBuffer | ingressBuffer | tallyEntry | tallyTransaction | shepherdSram
deriving DecidableEq, Repr

/-- What the pins and the PUF say at a start instant (16 R363, R374). -/
structure StartEnv where
  bootSrc : Bool := false
  pufSeed : Bytes := []
deriving DecidableEq, Repr

/-- What the stacks report at the end of bring-up (09 R208, R209): the stack rails (stack; 0 VDDQ, 1 VDDC, 2 VPP;
measured mV) that differ from their targets, and per stack the failing lanes with their error counts and the stack's total. -/
structure BringUpEnv where
  rails : List (Nat × Nat × Nat) := []
  lanes : List (Nat × Nat × Nat) := []
  totals : List (Nat × Nat) := []
deriving DecidableEq, Repr

/-- The block's commands: the rows of spec/opcode_table.json in their order. -/
inductive Instr where
  /-- DEVICE_STATUS (R60): Mailbox command that returns DEVICE_ID, BOOT_EPOCH, DEVICE_MODE, the layout epoch and the open job number. -/
  | deviceStatus (m : Fin 1029)
  /-- ROLE_CHALLENGE (R42): Mailbox command that returns a 32-byte nonce for the role claimed, valid for 10 s and one use. -/
  | roleChallenge (m : Fin 1029)
  /-- ROLE_PROVE (R42): Mailbox command that checks an ML-DSA-65 signature over the nonce and opens a role session bound to the channel. -/
  | roleProve (m : Fin 1029)
  /-- ROLE_END (R43): Mailbox command that ends the issuing role session. -/
  | roleEnd (m : Fin 1029)
  /-- SET_ACCT_PERIOD (R57): Operator command that stages a new accounting period, committed at the next boundary of the old period. -/
  | setAcctPeriod (m : Fin 1029)
  /-- MAILBOX_RESET (R446): Command that answers every later request of the mailbox with BUSY, moves REQ_CI and RSP_PI to REQ_PI and releases every argument range. -/
  | mailboxReset (m : Fin 1029)
  /-- CONTEXT_CREATE (R345): Operator command that takes a context from NONE to ACTIVE, starts its lease and empties its mailbox rings. -/
  | contextCreate (m : Fin 1029)
  /-- CONTEXT_DESTROY (R347): Operator command that takes a context to ENDING and runs the ending steps, with COMPLETION once every extent is FREE. -/
  | contextDestroy (m : Fin 1029)
  /-- CONTEXT_STATUS (R361): Command that returns a context's state, extents held, lease length and time to expiry. -/
  | contextStatus (m : Fin 1029)
  /-- LEASE_SET (R345): Operator command that sets a context's lease length and restarts the lease, returning a LAPSED context to ACTIVE. -/
  | leaseSet (m : Fin 1029)
  /-- LEASE_RENEW (R350): Command that restarts an ACTIVE context's lease if the boot epoch it names is current, and otherwise returns LEASE_EXPIRED. -/
  | leaseRenew (m : Fin 1029)
  /-- TRANSLATION_FLUSH (R361): Tenant command that withdraws host translations of one session or of every session of the context and completes once they are drained. -/
  | translationFlush (m : Fin 1029)
  /-- TRANSLATION_FLUSH_DONE (R358): The drain of a TRANSLATION_FLUSH ends and its COMPLETION is written. -/
  | translationFlushDone (t : Nat) (c : Fin 1024) (i : BitVec 16)
  /-- LIMITS_SET (R361): Operator command that sets a context's sync-object and extent limits. -/
  | limitsSet (m : Fin 1029)
  /-- SEGMENT_SET (R72): Tenant command that checks and stages a segment's flags, base and extent list for a segment slot. -/
  | segmentSet (m : Fin 1029)
  /-- SEGMENT_CLEAR (R73): Tenant command that stages the removal of the segment in a slot. -/
  | segmentClear (m : Fin 1029)
  /-- SEGMENT_QUERY (R71): Command that returns a slot's live segment and its extent list. -/
  | segmentQuery (m : Fin 1029)
  /-- EXTENT_GRANT (R349): Operator command that grants a range of FREE extents to a context and returns their generations. -/
  | extentGrant (m : Fin 1029)
  /-- EXTENT_REVOKE (R351): Operator command that takes every extent of a fully GRANTED range to REVOKING and stages their fences. -/
  | extentRevoke (m : Fin 1029)
  /-- EXTENT_STATUS (R362): Command that returns an extent's state, generation, owner and time of last change. -/
  | extentStatus (m : Fin 1029)
  /-- EXTENT_LIST (R362): Command that lists a context's extents with their generations and states. -/
  | extentList (m : Fin 1029)
  /-- SCHED_LOAD (R175): Tenant command that starts copying a schedule image into the schedule store and returns PENDING. -/
  | schedLoad (m : Fin 1029)
  /-- SCHED_LOAD_DONE (R175): The copied image has been checked in order and the load completes as LOADED or with the first failing status. -/
  | schedLoadDone (t : Nat) (c : Fin 1024)
  /-- SCHED_ADMIT (R174): Operator command that checks and admits a privileged schedule's REFRESH, RESERVE and GATES sections. -/
  | schedAdmit (m : Fin 1029)
  /-- SCHED_ARM (R176): Command that checks the arm conditions and starts arming a schedule, returning PENDING. -/
  | schedArm (m : Fin 1029)
  /-- ARMING_COMPLETE (R177): Arming finishes: the schedule becomes ARMED and, with a bellwether, READY records are sent. -/
  | armingComplete (t : Nat) (n : Fin 64)
  /-- SCHED_DISARM (R182): Command that returns an ARMED schedule to LOADED before its start latches. -/
  | schedDisarm (m : Fin 1029)
  /-- SCHED_ABORT (R183): Command that stops an ARMED or RUNNING schedule with reason 0x01. -/
  | schedAbort (m : Fin 1029)
  /-- SCHED_UNLOAD (R182): Command that removes a LOADED, ENDED or STOPPED schedule and frees its number. -/
  | schedUnload (m : Fin 1029)
  /-- SCHED_STATUS (R200): Command that returns a schedule's state, T0, stop reason, fault and late occurrences. -/
  | schedStatus (m : Fin 1029)
  /-- SYNC_ALLOC (R189): Tenant command that claims a range of free sync objects for its context within its limit. -/
  | syncAlloc (m : Fin 1029)
  /-- SYNC_FREE (R189): Tenant command that frees a range of its sync objects unless a loaded schedule declares one. -/
  | syncFree (m : Fin 1029)
  /-- SYNC_OP_READ (R200): SYNC_OP with operation 0, which returns the value of a sync object. -/
  | syncOpRead (m : Fin 1029)
  /-- SYNC_OP_SIGNAL (R190): SYNC_OP with operation 1, which adds an amount to a sync object, saturating. -/
  | syncOpSignal (m : Fin 1029)
  /-- SYNC_OP_RESET (R190): SYNC_OP with operation 2, which sets a sync object to 0. -/
  | syncOpReset (m : Fin 1029)
  /-- SEQ_ASSIGN (R198): Tenant command that assigns a range of free sequence-table entries to its context with N = 0. -/
  | seqAssign (m : Fin 1029)
  /-- SEQ_RELEASE (R198): Tenant command that frees sequence entries of its context unless a loaded schedule declares one. -/
  | seqRelease (m : Fin 1029)
  /-- SEQ_READ (R198): Command that returns the committed length N of a sequence. -/
  | seqRead (m : Fin 1029)
  /-- CLOCK_STATUS (R200): Command that returns the clock state, source, last offset and error estimate. -/
  | clockStatus (m : Fin 1029)
  /-- PORT_CONFIG (R253): Installer command that sets a quad's mode, ports and polarity, holds its lanes in reset for 1 ms and retrains them. -/
  | portConfig (m : Fin 1029)
  /-- PORT_STATUS (R269): Command that returns a quad's state and each port's link state and replay counts. -/
  | portStatus (m : Fin 1029)
  /-- QUAD_RESET (R253): Command that retrains a quad in its present mode and discards its replay buffer. -/
  | quadReset (m : Fin 1029)
  /-- LINK_PARAMS_SET (R265): Installer command that sets REPLAY_TIMER, ACK_DELAY and LINK_LOSS_TIME for named ports. -/
  | linkParamsSet (m : Fin 1029)
  /-- TIME_CONFIG (R271): Installer command that sets the time configuration of R168, refused while a schedule is ARMED or RUNNING. -/
  | timeConfig (m : Fin 1029)
  /-- LOCAL_ID_SET (R305): Installer command that sets ERUNO_PORT and the local endpoint IDs and addresses. -/
  | localIdSet (m : Fin 1029)
  /-- ENDPOINT_SET (R295): Installer command that writes endpoint table entries while no job is open. -/
  | endpointSet (m : Fin 1029)
  /-- ENDPOINT_CLEAR (R305): Installer command that removes an endpoint table entry while no job is open. -/
  | endpointClear (m : Fin 1029)
  /-- FORWARD_SET (R296): Installer command that writes forwarding table entries while no job is open. -/
  | forwardSet (m : Fin 1029)
  /-- FORWARD_CLEAR (R305): Installer command that removes a forwarding table entry while no job is open. -/
  | forwardClear (m : Fin 1029)
  /-- TABLE_READ (R305): Command that returns entries of the local, endpoint or forwarding table. -/
  | tableRead (m : Fin 1029)
  /-- SESSION_ASSIGN (R287): Operator command that assigns a range of session indices to a context, taking them to CLOSED. -/
  | sessionAssign (m : Fin 1029)
  /-- SESSION_RELEASE (R287): Operator command that returns CLOSED sessions to UNASSIGNED. -/
  | sessionRelease (m : Fin 1029)
  /-- SESSION_OPEN (R287): Command that opens a session, directly for standard class or into KEYING for private class, incrementing its generation. -/
  | sessionOpen (m : Fin 1029)
  /-- SESSION_CLOSE (R288): Command that closes a session, failing its outstanding requests with FAULT and erasing its keys. -/
  | sessionClose (m : Fin 1029)
  /-- SESSION_STATUS (R305): Command that returns a session's state, class, window and counts. -/
  | sessionStatus (m : Fin 1029)
  /-- PEER_KEY_SET (R292): Tenant command that enrols an ML-DSA-65 peer key in one of its context's 16 slots. -/
  | peerKeySet (m : Fin 1029)
  /-- QP_ASSIGN (R302): Operator command that assigns a range of RoCEv2 queue pair numbers to a context. -/
  | qpAssign (m : Fin 1029)
  /-- QP_OPEN (R305): Tenant command that opens a queue pair with its path, keys and PSNs, as a mailbox queue pair if selected. -/
  | qpOpen (m : Fin 1029)
  /-- QP_CLOSE (R305): Command that closes a queue pair. -/
  | qpClose (m : Fin 1029)
  /-- QP_STATUS (R305): Command that returns a queue pair's state, PSNs, NAKs and CNPs. -/
  | qpStatus (m : Fin 1029)
  /-- METER_SET (R321): Operator command that stages a context or endpoint meter's settings. -/
  | meterSet (m : Fin 1029)
  /-- METER_STATUS (R323): Command that returns a meter's tokens and colour counts. -/
  | meterStatus (m : Fin 1029)
  /-- SHAPER_SET (R315): Installer command that stages a port class's shaper, ECN threshold and quantum. -/
  | shaperSet (m : Fin 1029)
  /-- GATE_SET (R319): Installer command that validates and stages a port's gate list. -/
  | gateSet (m : Fin 1029)
  /-- CLASS_MAP_SET (R313): Installer command that stages the DSCP of each class and the colour map. -/
  | classMapSet (m : Fin 1029)
  /-- TC_STATUS (R323): Command that returns a port class's queue, pause, gate and shaper state and counts. -/
  | tcStatus (m : Fin 1029)
  /-- AGENT_LIMIT_SET (R326): Operator command that sets a context's limit on remote coherent agents. -/
  | agentLimitSet (m : Fin 1029)
  /-- AGENT_REGISTER (R326): Tenant command that registers a remote agent on a session with its geometry and slot mask and starts its lease. -/
  | agentRegister (m : Fin 1029)
  /-- AGENT_DEREGISTER (R340): Tenant command that declares its agent dead with cause 0x01 and resolves it. -/
  | agentDeregister (m : Fin 1029)
  /-- AGENT_RENEW (R326): Tenant command that restarts an agent's lease. -/
  | agentRenew (m : Fin 1029)
  /-- AGENT_STATUS (R344): Command that returns an agent's registration, geometry, entries and counts. -/
  | agentStatus (m : Fin 1029)
  /-- LOST_OWNED_READ (R344): Command that returns the LOST_OWNED count of a context's segment slot. -/
  | lostOwnedRead (m : Fin 1029)
  /-- STACK_STATUS (R230): Command that returns a stack's state, bad dies, temperature, flags and error counts. -/
  | stackStatus (m : Fin 1029)
  /-- STACK_PROFILE_READ (R230): Command that returns a stack profile from the accepted or package-record copy, with the set digest. -/
  | stackProfileRead (m : Fin 1029)
  /-- STACK_PROFILE_ACCEPT (R207): Installer command that accepts the package record's profile set by digest and sets IDLE_CLOSE, applied at the next start. -/
  | stackProfileAccept (m : Fin 1029)
  /-- MEM_POLICY_SET (R228): Operator command that stages BG_SHARE, SCRUB_PERIOD, error thresholds and COMBINE_IDLE for all stack controllers. -/
  | memPolicySet (m : Fin 1029)
  /-- STACK_FLAGS_CLEAR (R231): Operator command that clears named flags of a stack. -/
  | stackFlagsClear (m : Fin 1029)
  /-- STACK_DIAG_READ (R231): Maker command that returns a line's stored symbols, decode outcome and dies, refused for granted extents. -/
  | stackDiagRead (m : Fin 1029)
  /-- STACK_FAIL (R238): Operator command that fences a SERVING stack for failure declaration, refused if it would lead to Lost without ACCEPT_LOSS. -/
  | stackFail (m : Fin 1029)
  /-- REBUILD_STATUS (R245): Command that returns the layout state, failed stacks, watermark and rebuild mode. -/
  | rebuildStatus (m : Fin 1029)
  /-- REBUILD_CONTROL (R240): Operator command that sets the rebuild mode of stack f to paced, hold or unpaced. -/
  | rebuildControl (m : Fin 1029)
  /-- COUNTER_ENABLE (R412): Operator command that stages enabling or disabling of a counter group for a range of instances. -/
  | counterEnable (m : Fin 1029)
  /-- COUNTER_READ (R411): Command that returns one counter block with its latched period. -/
  | counterRead (m : Fin 1029)
  /-- TRACE_SET (R413): Operator command that stages a trace stream's source, type mask and destination, or disables it. -/
  | traceSet (m : Fin 1029)
  /-- TRACE_READ (R420): Command that returns records of a region-slice stream, advancing its read index with ADVANCE. -/
  | traceRead (m : Fin 1029)
  /-- TRACE_STATUS (R420): Command that returns a stream's state and record, drop and LOSS counts. -/
  | traceStatus (m : Fin 1029)
  /-- STAGE_OPEN (R378): Command that opens the single staging transfer for an image or record, bound to the role session. -/
  | stageOpen (m : Fin 1029)
  /-- STAGE_WRITE (R378): Command that adds a chunk to the staging transfer at the last offset written. -/
  | stageWrite (m : Fin 1029)
  /-- STAGE_COMMIT (R378): Command that checks the staged image or record and starts the audit record and flash write. -/
  | stageCommit (m : Fin 1029)
  /-- STAGE_COMMIT_DONE (R379): The flash write of a committed image or record ends and its COMPLETION is written. -/
  | stageCommitDone (t : Nat) (flashOk : Bool)
  /-- STAGE_ABORT (R378): Command that ends the staging transfer without writing. -/
  | stageAbort (m : Fin 1029)
  /-- RECORD_READ (R383): Command that returns part of the firmware image, package record or installer record. -/
  | recordRead (m : Fin 1029)
  /-- ATTEST (R376): Tenant command that returns an identity-signed report of firmware, records, audit chain and its context's schedules. -/
  | attest (m : Fin 1029)
  /-- AUDIT_READ (R50): Operator command that returns audit records with the CHAIN preceding the first. -/
  | auditRead (m : Fin 1029)
  /-- IDENTITY_ENROL (R375): Maker command that returns the identity public key and PUF helper data when no valid package record exists. -/
  | identityEnrol (m : Fin 1029)
  /-- JOB_OPEN (R299): Operator command that opens a job, freezing table, profile and port width changes. -/
  | jobOpen (m : Fin 1029)
  /-- JOB_CLOSE (R299): Operator command that closes the open job. -/
  | jobClose (m : Fin 1029)
  /-- JOB_STATUS (R305): Command that returns the job state and number. -/
  | jobStatus (m : Fin 1029)
  /-- ERROR_LOG_READ (R404): Command that returns error log records from retention SRAM or the flash copy. -/
  | errorLogRead (m : Fin 1029)
  /-- DUMP_READ (R404): Command that returns part of the crash dump from retention SRAM or flash. -/
  | dumpRead (m : Fin 1029)
  /-- FAULT_STATUS (R404): Command that returns error log sequence numbers, ALERT_STATUS and dump state. -/
  | faultStatus (m : Fin 1029)
  /-- ALERT_CLEAR (R403): Operator command that clears ALERT_STATUS bits [1:0]. -/
  | alertClear (m : Fin 1029)
  /-- ENGINE_RESET (R390): Operator command that starts an engine reset of a paddock with cause 0x03. -/
  | engineReset (m : Fin 1029)
  /-- ENGINE_RESET_DONE (R391): Every unit of the reset engine is idle and no old-generation request remains; ENGINE_RESET is reported. -/
  | engineResetDone (t : Nat) (p : Fin 16)
  /-- DEVICE_RESET (R404): Operator command that orders a warm device reset, with a dump if DUMP is set. -/
  | deviceReset (m : Fin 1029)
  /-- WATCHDOG_SET (R392): Operator command that stages the progress watchdog period. -/
  | watchdogSet (m : Fin 1029)
  /-- REQ_PI_WRITE (R32): Doorbell write to REQ_PI, accepted if within 256 of REQ_PI and RSP_CI, else refused with BAD_DOORBELL. -/
  | reqPiWrite (m : Fin 1029) (path : Path) (v : BitVec 16)
  /-- RSP_CI_WRITE (R34): Host write of RSP_CI, consuming responses and releasing their argument ranges. -/
  | rspCiWrite (m : Fin 1029) (path : Path) (v : BitVec 16)
  /-- EVQ_CI_WRITE (R41): Host write of EVQ_CI, freeing event slots so held COMPLETIONs and the EVQ_OVERFLOW record can be written. -/
  | evqCiWrite (m : Fin 1029) (path : Path) (v : BitVec 16)
  /-- EVQ_ENABLE_WRITE (R41): Write of EVQ_ENABLE that suppresses or resumes event records, freeing objects of suppressed COMPLETIONs. -/
  | evqEnableWrite (m : Fin 1029) (path : Path) (v : BitVec 32)
  /-- BAD_DOORBELL_CLEAR (R11): W1C write that clears BAD_DOORBELL unless hardware sets it in the same cycle. -/
  | badDoorbellClear (m : Fin 1029) (path : Path) (hwSets : Bool)
  /-- EVQ_OVERFLOW_CLEAR (R11): W1C write that clears EVQ_OVERFLOW unless hardware sets it in the same cycle. -/
  | evqOverflowClear (m : Fin 1029) (path : Path) (hwSets : Bool)
  /-- CLUSTER_TIME_LO_READ (R31): Read of CLUSTER_TIME_LO that latches cluster time [63:32] into CLUSTER_TIME_HI. -/
  | clusterTimeLoRead (path : Path)
  /-- CSR_WRITE (R29): Eruno CSR_WRITE of CSR space, writing RW bytes of registers without behaviour of their own and refused on disallowed paths. -/
  | csrWrite (src : CsrWriteSource)
  /-- CSR_READ (R281): Eruno CSR_READ request that returns CSR bytes on an allowed path. -/
  | csrRead (src : CsrReadSource)
  /-- ACCOUNTING_PERIOD_BOUNDARY (R54): Cluster time reaches a whole multiple of the accounting period; staged changes commit and counters latch. -/
  | accountingPeriodBoundary (t : Nat)
  /-- NOP (R81): Slot operation 0x00 that does nothing. -/
  | opNop (p : Fin 16)
  /-- HALT (R88): Control operation that ends issue on the paddock. -/
  | opHalt (p : Fin 16)
  /-- BR (R88): Control operation that branches by a signed bundle offset, ending loops whose body it leaves. -/
  | opBr (p : Fin 16)
  /-- LOOP (R88): Control operation that pushes a loop level with a body length and count. -/
  | opLoop (p : Fin 16)
  /-- ADD (R88): Scalar add modulo 2^64. -/
  | opAdd (p : Fin 16)
  /-- ADDI (R88): Scalar add of a signed immediate. -/
  | opAddi (p : Fin 16)
  /-- SUB (R88): Scalar subtract. -/
  | opSub (p : Fin 16)
  /-- MUL (R88): Scalar multiply, low 64 bits. -/
  | opMul (p : Fin 16)
  /-- AND (R88): Scalar bitwise AND. -/
  | opAnd (p : Fin 16)
  /-- OR (R88): Scalar bitwise OR. -/
  | opOr (p : Fin 16)
  /-- XOR (R88): Scalar bitwise XOR. -/
  | opXor (p : Fin 16)
  /-- SHL (R88): Scalar left shift. -/
  | opShl (p : Fin 16)
  /-- SHR (R88): Scalar logical right shift. -/
  | opShr (p : Fin 16)
  /-- SRA (R88): Scalar arithmetic right shift. -/
  | opSra (p : Fin 16)
  /-- LI (R88): Loads a sign-extended immediate into a scalar register. -/
  | opLi (p : Fin 16)
  /-- LIH (R88): Loads an immediate into the high half of a scalar register. -/
  | opLih (p : Fin 16)
  /-- CMP (R88): Sets a predicate from a comparison of two scalar registers. -/
  | opCmp (p : Fin 16)
  /-- CMPI (R88): Sets a predicate from a comparison with an immediate. -/
  | opCmpi (p : Fin 16)
  /-- PLOG (R88): Sets a predicate from a logical operation on two predicates. -/
  | opPlog (p : Fin 16)
  /-- ASET (R88): Sets an address register and its space from a scalar register. -/
  | opAset (p : Fin 16)
  /-- AADD (R88): Adds a scalar register to an address register. -/
  | opAadd (p : Fin 16)
  /-- AADDI (R88): Adds a signed immediate to an address register. -/
  | opAaddi (p : Fin 16)
  /-- AGET (R88): Copies an address register value into a scalar register. -/
  | opAget (p : Fin 16)
  /-- LDS (R88): Loads 8 aligned store bytes into a scalar register. -/
  | opLds (p : Fin 16)
  /-- STS (R88): Stores a scalar register to 8 aligned store bytes. -/
  | opSts (p : Fin 16)
  /-- MVSTAT (R88): Reads a mover's last status and done count into a scalar register. -/
  | opMvstat (p : Fin 16)
  /-- WAIT_TIME (R88): Bundle held until the fold's cluster time reaches the trigger's current instant, then issued. -/
  | opWaitTime (p : Fin 16)
  /-- WAIT_SYNC (R88): Bundle held until a sync object reaches a threshold, then issued. -/
  | opWaitSync (p : Fin 16)
  /-- WAIT_MOVER (R88): Bundle held until a mover's done count reaches a value, then issued. -/
  | opWaitMover (p : Fin 16)
  /-- WAIT_UNIT (R88): Bundle held until the named units are idle, then issued. -/
  | opWaitUnit (p : Fin 16)
  /-- SIGNAL (R88): Control operation that adds an amount to an owned sync object. -/
  | opSignal (p : Fin 16)
  /-- SYNC_RESET (R88): Control operation that sets an owned sync object to 0. -/
  | opSyncReset (p : Fin 16)
  /-- DONE (R186): Closes the current occurrence of a trigger and advances its counter, stalling if the previous occurrence has not ended. -/
  | opDone (p : Fin 16)
  /-- OVL (R101): Starts an overlay copying bundles of the paddock's stream into instruction memory. -/
  | opOvl (p : Fin 16)
  /-- OVERLAY_COMPLETE (R101): An overlay fetch finishes and its target bundles become issuable. -/
  | overlayComplete (p : Fin 16)
  /-- OVL_WAIT (R88): Bundle held until every overlay is complete, then issued. -/
  | opOvlWait (p : Fin 16)
  /-- TRACE (R88): Writes a periscope user record if the context's trace is enabled. -/
  | opTrace (p : Fin 16)
  /-- MV_ISSUE (R89): Queues the descriptor at a store address on a mover, checking its fields and ownership. -/
  | opMvIssue (p : Fin 16)
  /-- MV_ISSUEX (R89): Queues a descriptor with SRC and DST replaced from address registers. -/
  | opMvIssuex (p : Fin 16)
  /-- MOVER_DESCRIPTOR_COMPLETE (R93): A mover descriptor completes: done count advances, status recorded, sync signalled on OK or the engine faults. -/
  | moverDescriptorComplete (t : Nat) (p : Fin 16) (mv : Fin 4)
  /-- PR_QLOAD (R96): Loads query-row elements from the store in a format. -/
  | opPrQload (p : Fin 16)
  /-- PR_PASS (R99): Starts a matrix pass of a weight tile from a mover stream against query rows into the accumulator. -/
  | opPrPass (p : Fin 16)
  /-- PRISM_PASS_COMPLETE (R105): A pass's last accumulator entry is written, or the pass ends on a failed stream. -/
  | prismPassComplete (t : Nat) (p : Fin 16)
  /-- PR_CLR (R96): Sets a range of accumulator entries to +0. -/
  | opPrClr (p : Fin 16)
  /-- ATTEND (R145): Lens walk mode 0x0 that walks this paddock's key/value tiles and writes a partial per row. -/
  | opAttend (p : Fin 16)
  /-- APPEND (R151): Lens walk mode 0x1 that writes tokens to positions N onward of the K and V ranges. -/
  | opAppend (p : Fin 16)
  /-- MERGE (R148): Lens walk mode 0x2 that folds partial blocks in list order, optionally writing normalised output. -/
  | opMerge (p : Fin 16)
  /-- SETLEN (R154): Lens walk mode 0x3 that sets or adds to the committed length N of a sequence. -/
  | opSetlen (p : Fin 16)
  /-- LENS_WALK_COMPLETE (R155): A Lens walk finishes, writes STATUS and its partial, and faults the engine on error with ON_ERROR 0. -/
  | lensWalkComplete (t : Nat) (p : Fin 16)
  /-- VLD (R100): Loads 512 elements from the store into a vector register as FP32. -/
  | opVld (p : Fin 16)
  /-- VST (R100): Stores a vector register to the store in a format with nearest-even or seeded rounding. -/
  | opVst (p : Fin 16)
  /-- VACC (R100): Reads 512 accumulator entries into a vector register. -/
  | opVacc (p : Fin 16)
  /-- VACCW (R100): Writes a vector register into 512 accumulator entries. -/
  | opVaccw (p : Fin 16)
  /-- VMOVQ (R100): Writes a vector register into query-row elements in a format. -/
  | opVmovq (p : Fin 16)
  /-- VADD (R100): Lane-wise FP32 add. -/
  | opVadd (p : Fin 16)
  /-- VSUB (R100): Lane-wise FP32 subtract. -/
  | opVsub (p : Fin 16)
  /-- VMUL (R100): Lane-wise FP32 multiply. -/
  | opVmul (p : Fin 16)
  /-- VFMA (R100): Lane-wise fused multiply-add with one rounding. -/
  | opVfma (p : Fin 16)
  /-- VMAX (R100): Lane-wise maximum. -/
  | opVmax (p : Fin 16)
  /-- VMIN (R100): Lane-wise minimum. -/
  | opVmin (p : Fin 16)
  /-- VBCAST (R100): Broadcasts a scalar FP32 value to every lane. -/
  | opVbcast (p : Fin 16)
  /-- VSETI (R100): Sets every lane to an immediate FP32 value. -/
  | opVseti (p : Fin 16)
  /-- VREDSUM (R119): Sums 512 lanes in the fixed pairwise order into a scalar register. -/
  | opVredsum (p : Fin 16)
  /-- VREDMAX (R119): Takes the maximum of 512 lanes into a scalar register. -/
  | opVredmax (p : Fin 16)
  /-- VEXP2 (R120): Computes 2^x per lane. -/
  | opVexp2 (p : Fin 16)
  /-- VLOG2 (R120): Computes log2 x per lane. -/
  | opVlog2 (p : Fin 16)
  /-- VRCP (R120): Computes 1/x per lane. -/
  | opVrcp (p : Fin 16)
  /-- VRSQRT (R120): Computes 1/sqrt(x) per lane. -/
  | opVrsqrt (p : Fin 16)
  /-- VSILU (R120): Computes x times sigmoid(x) per lane by the fixed sequence. -/
  | opVsilu (p : Fin 16)
  /-- VSIGM (R120): Computes sigmoid(x) per lane by the fixed sequence. -/
  | opVsigm (p : Fin 16)
  /-- VROPE (R100): Applies rotary encoding to lane pairs. -/
  | opVrope (p : Fin 16)
  /-- VTOPK (R100): Merges 512 values with indices into a top-k list. -/
  | opVtopk (p : Fin 16)
  /-- PROGRAM_END (R182): Every paddock of a RUNNING schedule has halted and gone idle, and the schedule becomes ENDED. -/
  | programEnd (t : Nat) (n : Fin 64)
  /-- START_LATCH (R178): Cluster time reaches T0 − 2 µs: the start latches, or an unfinished arming reports LATE. -/
  | startLatch (t : Nat) (n : Fin 64)
  /-- T0_REACHED (R178): T0 is reached: windows, reservations and gate lists take effect and each paddock issues bundle 0. -/
  | t0Reached (t : Nat) (n : Fin 64)
  /-- DEADLINE_EXPIRY (R187): An occurrence has not ended by its deadline instant; it is late and aborts or continues as ACTION says. -/
  | deadlineExpiry (t : Nat) (p : Fin 16) (x : BitVec 16)
  /-- RELEASE_WAIT_EXPIRY (R179): An ARMED schedule with no T0 reaches RELEASE_WAIT and becomes STOPPED, a bellwether sending ABORT records. -/
  | releaseWaitExpiry (t : Nat) (n : Fin 64)
  /-- READY_RECORD_EXPIRY (R179): A held READY record whose tag no armed schedule matched within RELEASE_WAIT is discarded. -/
  | readyRecordExpiry (t : Nat) (tag : BitVec 64)
  /-- START_RECORD_READY (R193): A READY start record arrives and is held by tag or counted toward DEVICES. -/
  | startRecordReady (q : Fin 64)
  /-- START_RECORD_RELEASE (R181): A RELEASE start record arrives and, if accepted, sets the schedule's T0. -/
  | startRecordRelease (q : Fin 64)
  /-- START_RECORD_ABORT (R181): An ABORT start record arrives and, if accepted, stops the schedule with reason 0x05. -/
  | startRecordAbort (q : Fin 64)
  /-- READ (R277): Eruno READ request checked under R281 and served from the pool. -/
  | read (q : Fin 64)
  /-- WRITE (R277): Eruno WRITE request checked and written to the pool. -/
  | write (q : Fin 64)
  /-- WRITE_STASH (R339): Eruno WRITE_STASH that writes the pool and then offers the line to a target agent. -/
  | writeStash (q : Fin 64)
  /-- ATOMIC_ADD (R278): Eruno ATOMIC with SUBOP 0x00, adding modulo 2^64 and returning the old value. -/
  | atomicAdd (q : Fin 64)
  /-- ATOMIC_COMPARE_SWAP (R278): Eruno ATOMIC with SUBOP 0x01, swapping if the held value equals compare. -/
  | atomicCompareSwap (q : Fin 64)
  /-- ATOMIC_MIN_UNSIGNED (R278): Eruno ATOMIC with SUBOP 0x02, unsigned minimum. -/
  | atomicMinUnsigned (q : Fin 64)
  /-- ATOMIC_MAX_UNSIGNED (R278): Eruno ATOMIC with SUBOP 0x03, unsigned maximum. -/
  | atomicMaxUnsigned (q : Fin 64)
  /-- ATOMIC_MIN_SIGNED (R278): Eruno ATOMIC with SUBOP 0x04, signed minimum. -/
  | atomicMinSigned (q : Fin 64)
  /-- ATOMIC_MAX_SIGNED (R278): Eruno ATOMIC with SUBOP 0x05, signed maximum. -/
  | atomicMaxSigned (q : Fin 64)
  /-- SIGNAL_FRAME (R192): Eruno SIGNAL arriving at the part, applied to a sync object of the session's context. -/
  | signalFrame (q : Fin 64)
  /-- SCHED_FRAME (R192): Eruno SCHED_FRAME arriving, written into a receive range of an armed or running paddock and signalling its sync object. -/
  | schedFrame (q : Fin 64)
  /-- MAILBOX (R33): Eruno MAILBOX operation that claims a range and slot and enqueues a request indivisibly. -/
  | mailbox (q : Fin 65)
  /-- INVALIDATE (R358): Eruno INVALIDATE that withdraws the session's overlapping translations. -/
  | invalidate (q : Fin 64)
  /-- INVALIDATE_DRAINED (R358): Every request issued under a withdrawn translation has completed or timed out, and the INVALIDATE is answered. -/
  | invalidateDrained (t : Nat) (s : BitVec 16) (tag : BitVec 16)
  /-- KEY_EXCHANGE_PHASE_1 (R290): Phase 1 KEY_EXCHANGE request arriving at a responder in KEYING, verified and answered with phase 2. -/
  | keyExchangePhase1 (q : Fin 64)
  /-- KEY_EXCHANGE_PHASE_2 (R290): Phase 2 KEY_EXCHANGE response arriving at the part as initiator, verified and followed by phase 3. -/
  | keyExchangePhase2 (q : Fin 64)
  /-- KEY_EXCHANGE_PHASE_3 (R291): Encrypted phase 3 confirmation that completes the exchange and opens the session. -/
  | keyExchangePhase3 (q : Fin 64)
  /-- KEY_WAIT_EXPIRY (R287): A KEYING session reaches KEY_WAIT and returns to CLOSED with TIMEOUT. -/
  | keyWaitExpiry (t : Nat) (s : BitVec 16)
  /-- OPCODE_ONLY_A_PART_SENDS (R451): Request of an opcode only a part sends, such as TRANSLATE or a snoop, refused with DENIED or discarded. -/
  | opcodeOnlyAPartSends (q : Fin 64)
  /-- TRACE_FRAME (R451): TRACE frame arriving at the part, refused and discarded since NO_RESPONSE is set. -/
  | traceFrame (q : Fin 64)
  /-- UNDEFINED_ERUNO_OPCODE (R451): Eruno request with an undefined OPCODE, answered BAD_ARG at check 6. -/
  | undefinedErunoOpcode (q : Fin 64)
  /-- ERUNO_SEGMENT (R275): A segment of a segmented request or response arrives and is added to its reassembly. -/
  | erunoSegment (q : Fin 65)
  /-- REASSEMBLY_TIMEOUT (R275): A reassembly incomplete 1 ms after its first segment is discarded. -/
  | reassemblyTimeout (t : Nat) (s : BitVec 16) (seq : BitVec 32)
  /-- ERUNO_RESPONSE (R281): Response arriving at the part, matched by session and tag to an outstanding request. -/
  | erunoResponse (q : Fin 64)
  /-- TRANSLATE_RESPONSE (R357): Answer to a mover's TRANSLATE that fills the translation cache or sends PAGE_REQUEST. -/
  | translateResponse (q : Fin 64)
  /-- PAGE_REQUEST_RESPONSE (R94): Answer to PAGE_REQUEST that resumes a suspended host move or completes it with FAULT. -/
  | pageRequestResponse (q : Fin 64)
  /-- ERUNO_REQUEST_TIMEOUT (R285): A request the part issued has no response within the session's TIMEOUT and completes with TIMEOUT. -/
  | erunoRequestTimeout (t : Nat) (s : BitVec 16) (tag : BitVec 16)
  /-- FORWARD (R298): Eruno frame for another endpoint, forwarded on its table entry or discarded. -/
  | forward (q : Fin 64)
  /-- RD_SHARED (R335): Agent request for a line in shared state, served by the home. -/
  | rdShared (src : CohSource)
  /-- RD_OWN (R335): Agent request for a line in modified state, snooping holders. -/
  | rdOwn (src : CohSource)
  /-- UPGRADE (R335): Agent request to upgrade a shared line to ownership. -/
  | upgrade (src : CohSource)
  /-- WB (R335): Agent write-back of an owned line, written or discarded and answered WB_ACK. -/
  | wb (src : CohSource)
  /-- COMP_ACK (R336): Grantee's acknowledgement that closes a home transaction. -/
  | compAck (src : CohSource)
  /-- RSP_I (R336): Snoop answer that the agent holds nothing; its entry is dropped. -/
  | rspI (src : CohSource)
  /-- RSP_S (R336): Snoop answer that the agent keeps the line shared. -/
  | rspS (src : CohSource)
  /-- RSP_DATA_I (R336): Snoop answer with data, the agent giving up the line. -/
  | rspDataI (src : CohSource)
  /-- RSP_DATA_S (R336): Snoop answer with data, the agent keeping the line shared. -/
  | rspDataS (src : CohSource)
  /-- ACCEPT (R336): Stash answer accepting the line into a named way. -/
  | accept (src : CohSource)
  /-- DECLINE (R336): Stash answer declining the offered line. -/
  | decline (src : CohSource)
  /-- HOME_MEMORY_DATA_IN (R336): The home's memory read returns, with the last snoop answer in, and the grant or non-caching access completes. -/
  | homeMemoryDataIn (t : Nat) (line : Nat)
  /-- COMP_ACK_TIMEOUT (R336): No COMP_ACK within the grantee's TIMEOUT; the transaction closes keeping its entry. -/
  | compAckTimeout (t : Nat) (line : Nat)
  /-- SNOOP_TIMEOUT (R336): A snoop is unanswered within the agent's TIMEOUT and the agent is declared dead. -/
  | snoopTimeout (t : Nat) (line : Nat) (a : Fin 80)
  /-- AGENT_RESOLUTION_DONE (R342): Forced resolution of an agent finishes and AGENT_DEAD is written. -/
  | agentResolutionDone (t : Nat) (a : Fin 80)
  /-- STASH_OFFER_TIMEOUT (R336): A stash offer unanswered within the target's TIMEOUT is taken as DECLINE. -/
  | stashOfferTimeout (t : Nat) (line : Nat)
  /-- AGENT_LEASE_EXPIRY (R326): An agent's lease ends without AGENT_RENEW and it is declared dead with cause 0x02. -/
  | agentLeaseExpiry (t : Nat) (a : Fin 64)
  /-- DATA_S (R337): Shared grant arriving at a paddock line cache, which sends COMP_ACK. -/
  | dataS (p : Fin 16)
  /-- DATA_E (R337): Exclusive grant arriving at a paddock line cache. -/
  | dataE (p : Fin 16)
  /-- DATA_M (R337): Modified grant with data arriving at a paddock line cache. -/
  | dataM (p : Fin 16)
  /-- GRANT_M (R337): Ownership grant without data arriving at a paddock line cache. -/
  | grantM (p : Fin 16)
  /-- WB_ACK (R337): Write-back acknowledgement arriving at a paddock line cache. -/
  | wbAck (p : Fin 16)
  /-- SNP_SHARED (R337): Shared snoop arriving at a paddock line cache, answered by state. -/
  | snpShared (p : Fin 16)
  /-- SNP_INV (R337): Invalidating snoop arriving at a paddock line cache. -/
  | snpInv (p : Fin 16)
  /-- STASH_FILL (R337): Stash offer arriving at a paddock line cache, accepted into a free or clean way or declined. -/
  | stashFill (p : Fin 16)
  /-- LINK_FRAME_RECEIVE (R261): A frame arrives on a reliable port and its tag, acknowledgement and sequence are handled. -/
  | linkFrameReceive (t : Nat) (q : Fin 65) (f : RxFrame)
  /-- LLDPDU (R256): LLDP frame arriving with the reliable-link TLV, establishing agreement. -/
  | lldpdu (q : Fin 65)
  /-- INIT_SEND_TIMER (R257): Every 1 µs after agreement, a link control frame with INIT is sent. -/
  | initSendTimer (t : Nat) (q : Fin 64)
  /-- ACK_DELAY_EXPIRY (R261): ACK_DELAY passes with an acknowledgement owed and a link control frame carries it. -/
  | ackDelayExpiry (t : Nat) (q : Fin 64)
  /-- REPLAY_TIMER_EXPIRY (R262): REPLAY_TIMER expires with frames outstanding and replay restarts from oldest. -/
  | replayTimerExpiry (t : Nat) (q : Fin 64)
  /-- EGRESS_FRAME_BOUNDARY (R317): At a frame boundary the port sends the first eligible item in priority order. -/
  | egressFrameBoundary (t : Nat) (q : Fin 65)
  /-- PCS_LOCK_LOST (R266): A lane of a port loses block or alignment-marker lock. -/
  | pcsLockLost (t : Nat) (q : Fin 65)
  /-- LINK_LOSS_TIME_EXPIRY (R266): Lock loss or acknowledgement stall lasts LINK_LOSS_TIME and the port goes DOWN, discarding its frames. -/
  | linkLossTimeExpiry (t : Nat) (q : Fin 65)
  /-- PORT_TRAINED (R252): A port completes auto-negotiation, training and lock, entering NEGOTIATING or UP. -/
  | portTrained (t : Nat) (q : Fin 65)
  /-- NEGOTIATION_TIMEOUT (R255): 0.5 s in NEGOTIATING without agreement takes REL_MODE 1 to UP or reports a refusal. -/
  | negotiationTimeout (t : Nat) (q : Fin 64)
  /-- DOWN_RETRAIN_TIMER (R255): After 10 ms in DOWN the port starts training again. -/
  | downRetrainTimer (t : Nat) (q : Fin 65)
  /-- QUAD_RESET_HOLD_END (R254): The 1 ms reset hold of a quad ends and it enters TRAINING. -/
  | quadResetHoldEnd (t : Nat) (k : Fin 16)
  /-- TRAIN_LIMIT_EXPIRY (R252): TRAIN_LIMIT passes; the quad goes ACTIVE and an untrained required port fails the start. -/
  | trainLimitExpiry (t : Nat) (k : Fin 16)
  /-- PFC_FRAME (R309): Received PFC frame pausing the named classes for its quanta. -/
  | pfcFrame (q : Fin 64)
  /-- PFC_PAUSE_EXPIRY (R309): A class's PFC pause quanta run out and the class resumes. -/
  | pfcPauseExpiry (t : Nat) (q : Fin 64) (tc : Fin 8)
  /-- PFC_XOFF_REPEAT (R307): Half the pause time passes with a class above XON and the XOFF frame is repeated. -/
  | pfcXoffRepeat (t : Nat) (q : Fin 64) (tc : Fin 8)
  /-- PAUSE_FRAME (R249): Classic PAUSE frame received, counted and ignored. -/
  | pauseFrame (q : Fin 64)
  /-- RDMA_WRITE_FIRST (R302): RoCEv2 RDMA WRITE First packet checked and written. -/
  | rdmaWriteFirst (q : Fin 64)
  /-- RDMA_WRITE_MIDDLE (R302): RoCEv2 RDMA WRITE Middle packet checked and written. -/
  | rdmaWriteMiddle (q : Fin 64)
  /-- RDMA_WRITE_LAST (R302): RoCEv2 RDMA WRITE Last packet checked and written. -/
  | rdmaWriteLast (q : Fin 64)
  /-- RDMA_WRITE_ONLY (R302): RoCEv2 RDMA WRITE Only packet checked and written. -/
  | rdmaWriteOnly (q : Fin 64)
  /-- RDMA_READ_REQUEST (R302): RoCEv2 RDMA READ Request checked and answered with READ responses. -/
  | rdmaReadRequest (q : Fin 64)
  /-- COMPARE_SWAP (R301): RoCEv2 Compare&Swap executed indivisibly. -/
  | compareSwap (q : Fin 64)
  /-- FETCH_ADD (R301): RoCEv2 Fetch&Add executed indivisibly. -/
  | fetchAdd (q : Fin 64)
  /-- SEND_FIRST (R303): RoCEv2 SEND First on a mailbox queue pair. -/
  | sendFirst (q : Fin 64)
  /-- SEND_MIDDLE (R303): RoCEv2 SEND Middle on a mailbox queue pair. -/
  | sendMiddle (q : Fin 64)
  /-- SEND_LAST (R303): RoCEv2 SEND Last that completes a mailbox message and enqueues it. -/
  | sendLast (q : Fin 64)
  /-- SEND_ONLY (R303): RoCEv2 SEND Only carrying a whole mailbox message. -/
  | sendOnly (q : Fin 64)
  /-- ROCE_UNSUPPORTED_PACKET (R301): RoCEv2 packet of an unsupported service or opcode, discarded or answered NAK Invalid Request. -/
  | roceUnsupportedPacket (q : Fin 64)
  /-- ROCE_ACK (R301): ACK received for the part's response SENDs on a mailbox queue pair. -/
  | roceAck (q : Fin 64)
  /-- ROCE_NAK (R303): NAK or RNR NAK received for the part's SENDs, retried or taking the queue pair to error. -/
  | roceNak (q : Fin 64)
  /-- ROCE_ACK_TIMEOUT (R301): The part's requester ACK timeout of 4.19 ms expires and it retransmits. -/
  | roceAckTimeout (t : Nat) (qp : Fin 16384)
  /-- CNP (R304): Congestion notification received, halving the queue pair's send rate. -/
  | cnp (q : Fin 64)
  /-- CNP_RATE_RECOVERY (R304): 55 µs without a CNP raise a queue pair's rate by one eighth of the port rate. -/
  | cnpRateRecovery (t : Nat) (qp : Fin 16384)
  /-- SHAPER_REFILL (R315): At each whole 1,000 ns of cluster time the shapers add RATE/8 bytes, capped at BURST. -/
  | shaperRefill (t : Nat)
  /-- GATE_ENTRY_BOUNDARY (R320): A gate list moves to its next entry, opening and closing class windows. -/
  | gateEntryBoundary (t : Nat) (q : Fin 64) (ofSchedule : Bool)
  /-- SYNC (R163): PTP Sync message received and timestamped. -/
  | sync (q : Fin 64)
  /-- FOLLOW_UP (R163): PTP Follow_Up received, completing an offset sample for the servo and clock states. -/
  | followUp (q : Fin 64)
  /-- DELAY_REQ (R163): PTP Delay_Req received by a time-transmitter port. -/
  | delayReq (q : Fin 64)
  /-- DELAY_RESP (R163): PTP Delay_Resp received, completing an end-to-end delay measurement. -/
  | delayResp (q : Fin 64)
  /-- PDELAY_REQ (R163): PTP Pdelay_Req received and answered. -/
  | pdelayReq (q : Fin 64)
  /-- PDELAY_RESP (R163): PTP Pdelay_Resp received. -/
  | pdelayResp (q : Fin 64)
  /-- PDELAY_RESP_FOLLOW_UP (R163): PTP Pdelay_Resp_Follow_Up received, completing a peer delay measurement. -/
  | pdelayRespFollowUp (q : Fin 64)
  /-- ANNOUNCE (R163): PTP Announce received and handled by the BMCA. -/
  | announce (q : Fin 64)
  /-- PTP_MANAGEMENT_SIGNALING (R163): PTP Management or Signaling message, counted and discarded. -/
  | ptpManagementSignaling (q : Fin 64)
  /-- SYNC_TRANSMIT_TIMER (R168): A transmitter port's Sync interval passes and Sync is sent. -/
  | syncTransmitTimer (t : Nat) (q : Fin 64)
  /-- PDELAY_REQ_TIMER (R168): The Pdelay_Req interval passes and a peer delay request is sent. -/
  | pdelayReqTimer (t : Nat) (q : Fin 64)
  /-- ANNOUNCE_TIMEOUT (R165): ANNOUNCE_TIMEOUT intervals pass without Announce and the clock leaves ACQUIRING or LOCKED. -/
  | announceTimeout (t : Nat)
  /-- SAMPLE_TIMEOUT (R165): Four sample intervals pass without a qualified sample and the clock leaves ACQUIRING or LOCKED. -/
  | sampleTimeout (t : Nat)
  /-- HOLDOVER_BOUND_EXCEEDED (R165): The holdover error estimate exceeds HOLDOVER_BOUND and the clock becomes FREE. -/
  | holdoverBoundExceeded (t : Nat)
  /-- TIME_PPS_IN_EDGE (R164): Rising edge on TIME_PPS_IN, timestamped as a phase sample. -/
  | timePpsInEdge (t : Nat)
  /-- PPS_OUT_EDGE (R167): Cluster time plus PPS_OUT_DELAY reaches a whole second and TIME_PPS_OUT rises. -/
  | ppsOutEdge (t : Nat)
  /-- TIME_REF_IN_QUALIFIED (R433): TIME_REF_IN has been present 16 s within 50 ppb while LOCKED and becomes qualified. -/
  | timeRefInQualified (t : Nat)
  /-- TIME_REF_IN_LOST (R433): TIME_REF_IN is absent for 10 µs or departs in frequency and loses qualification. -/
  | timeRefInLost (t : Nat)
  /-- REFRESH_TICK (R210): A PC's refresh interval passes, its owed count rises, and it refreshes or postpones. -/
  | refreshTick (t : Nat) (st : Fin 16) (pc : Fin 64) (demandWaits : Bool)
  /-- REFRESH_IDLE_ISSUE (R211): A PC without class 1 or 2 requests for 16 MCLK issues postponed refreshes. -/
  | refreshIdleIssue (t : Nat) (st : Fin 16) (pc : Fin 64)
  /-- REFRESH_WINDOW_OPEN (R212): A REFRESH window opens and the PC issues owed refreshes that fit. -/
  | refreshWindowOpen (t : Nat) (st : Fin 16) (pc : Fin 64)
  /-- REFRESH_PRE_T0 (R212): At T0 − 20 µs, PCs of REFRESH stacks begin refreshing at every opportunity. -/
  | refreshPreT0 (t : Nat) (st : Fin 16)
  /-- RESERVE_INTERVAL_START (R195): A RESERVE interval begins and the schedule's engines take class 1 priority. -/
  | reserveIntervalStart (t : Nat) (st : Fin 16)
  /-- IDLE_CLOSE_EXPIRY (R215): A bank's row is idle for IDLE_CLOSE MCLK and is closed. -/
  | idleCloseExpiry (t : Nat) (st : Fin 16) (pc : Fin 64) (bank : Fin 64)
  /-- TEMPERATURE_READ (R210): Every 1 ms the stack case temperatures are read, halving or restoring the refresh interval. -/
  | temperatureRead (t : Nat) (temps : List Int)
  /-- DIE_TEMPERATURE_READ (R438): Every 1 ms the die sensors are read and the THERMAL alert bit follows. -/
  | dieTemperatureRead (t : Nat) (temps : List Int)
  /-- STACK_ACCESS_COMPLETE (R222): A stack controller completes a line access and acts on the decode outcome. -/
  | stackAccessComplete (t : Nat) (st : Fin 16) (line : Nat) (obs : LineObs)
  /-- MODE_REGISTER_READ_TIMEOUT (R227): No answer to a mode-register read for 10 ms is a PHY fault. -/
  | modeRegisterReadTimeout (t : Nat) (st : Fin 16)
  /-- STACK_RAIL_OUT_OF_TARGET (R227): A stack rail outside ±5 % for 1 ms is a PHY fault on each stack of its fold. -/
  | stackRailOutOfTarget (t : Nat) (fold : Fin 4)
  /-- STACK_FAILURE_DECLARATION (R236): The shepherd declares a fenced stack failed, records it, changes the layout state and may start rebuild. -/
  | stackFailureDeclaration (t : Nat) (st : Fin 16)
  /-- PATROL_SCRUB_READ (R225): The patrol scrub reads its next line in class 3 and decodes it. -/
  | patrolScrubRead (t : Nat) (st : Fin 16) (obs : LineObs)
  /-- REPAIR_WRITE (R223): A queued repair write reads, corrects and rewrites its line indivisibly. -/
  | repairWrite (t : Nat) (st : Fin 16)
  /-- COMBINE_IDLE_EXPIRY (R234): A combining entry unwritten for COMBINE_IDLE closes, applying its parity delta. -/
  | combineIdleExpiry (t : Nat) (st : Fin 16) (stripe : Nat)
  /-- REBUILD_SLOT_START (R240): SPACING after the previous slot, the rebuild takes the next stripe's locks. -/
  | rebuildSlotStart (t : Nat)
  /-- REBUILD_SLOT_COMPLETE (R239): A stripe's spare writes are accepted, the watermark advances and the locks are released. -/
  | rebuildSlotComplete (t : Nat)
  /-- LEASE_WARNING_TIMER (R350): A quarter of a context's lease remains and LEASE_WARNING is written. -/
  | leaseWarningTimer (t : Nat) (c : Fin 1024)
  /-- LEASE_EXPIRY (R350): A context's lease elapses; it becomes LAPSED and every GRANTED extent is revoked. -/
  | leaseExpiry (t : Nat) (c : Fin 1024)
  /-- FENCE_DRAINED (R351): Every in-flight request on a fenced extent has completed and the extent enters CLEARING. -/
  | fenceDrained (t : Nat) (e : Nat)
  /-- FENCE_DRAIN_TIMEOUT (R352): 1 ms after the boundary, unaccepted requests on the extent are discarded and their engines reset. -/
  | fenceDrainTimeout (t : Nat) (e : Nat)
  /-- CLEARING_COMPLETE (R354): The last zero line of a clearing is accepted; the extent is FREE and its revocation completes. -/
  | clearingComplete (t : Nat) (e : Nat)
  /-- ROLE_SESSION_IDLE_TIMEOUT (R43): A role session without a command for 600 s ends. -/
  | roleSessionIdleTimeout (t : Nat) (id : BitVec 32)
  /-- AUTH_LOCKOUT_EXPIRY (R44): The 60 s authentication lock of a role ends. -/
  | authLockoutExpiry (t : Nat) (r : Role)
  /-- TRACE_FLUSH_TIMER (R416): 10 µs after the oldest pending record, a trace write or TRACE frame leaves. -/
  | traceFlushTimer (t : Nat) (n : Fin 16)
  /-- PROGRESS_WATCHDOG_EXPIRY (R392): An engine issues no bundle for the watchdog period and an engine reset with cause 0x01 begins. -/
  | progressWatchdogExpiry (t : Nat) (p : Fin 16)
  /-- FAULTED_ENGINE_NOT_IDLE (R388): A faulted engine is not idle 5 ms after its fault and is reset with cause 0x05. -/
  | faultedEngineNotIdle (t : Nat) (p : Fin 16)
  /-- ESCALATION (R394): An engine reset not complete after 5 ms makes the shepherd order a device reset with reason 0x06. -/
  | escalation (t : Nat) (p : Fin 16)
  /-- HEARTBEAT_EXPIRY (R393): The 50 ms shepherd heartbeat watchdog expires and the device resets with reason 0x05. -/
  | heartbeatExpiry (t : Nat)
  /-- ARRAY_UE (R388): An uncorrectable array word is detected and its array's outcome is applied and logged. -/
  | arrayUe (t : Nat) (array : ArrayKind) (unit : Nat) (word : Nat)
  /-- RESET_N_FALL (R389): RESET_N low for 1 µs: cold reset without dump, clearing the error log ring and dump area. -/
  | resetNFall (t : Nat)
  /-- WARM_RST_N_FALL (R430): WARM_RST_N low for 1 µs: warm reset with freeze and dump. -/
  | warmRstNFall (t : Nat)
  /-- PWR_GOOD_FALL (R430): PWR_GOOD falls with RESET_N high and acts as RESET_N without a dump. -/
  | pwrGoodFall (t : Nat)
  /-- VDD_AON_LOSS (R363): Standby power is lost and the always-on domain loses its contents. -/
  | vddAonLoss (t : Nat)
  /-- DUMP_UNIT_TIMEOUT (R396): A unit does not answer a scan request within 100 µs and is recorded as no answer. -/
  | dumpUnitTimeout (t : Nat) (unit : BitVec 8)
  /-- DUMP_TIMER_EXPIRY (R396): 20 ms after the freeze the dump ends, recording unread units as not reached. -/
  | dumpTimerExpiry (t : Nat)
  /-- DUMP_COMPLETE (R395): The dump ends and the reset is asserted and released, the release being the start instant. -/
  | dumpComplete (t : Nat)
  /-- START (R363): A start begins: BOOT_SRC sampled, counter read and incremented, BOOT_EPOCH incremented, boot ROM checks run. -/
  | start (t : Nat) (env : StartEnv)
  /-- STACK_BRING_UP_DONE (R208): Stack bring-up, delay check and fill end and the stacks are in service, or the delay check fails the start. -/
  | stackBringUpDone (t : Nat) (env : BringUpEnv)
  /-- READY_POINT (R365): Stacks and required ports are ready; counter cleared, DEVICE_MODE in service, waiting commands taken up. -/
  | readyPoint (t : Nat)
  /-- START_LIMIT_EXPIRY (R364): 4 s pass without the ready point and the start fails. -/
  | startLimitExpiry (t : Nat)
  /-- DUMP_COPY_DONE (R399): The held dump has been copied to flash and the dump area is free. -/
  | dumpCopyDone (t : Nat)
  /-- THERMAL_TRIP (R439): A die sensor reads 115 °C for 10 µs; THERMTRIP_N falls and everything outside the always-on domain is held in reset. -/
  | thermalTrip (t : Nat) (fold : Fin 4)
  /-- REFCLK_ETH_LOSS (R435): Loss of a REFCLK_ETH takes its two quads' ports down. -/
  | refclkEthLoss (t : Nat) (k : Fin 8)
  /-- REFCLK_MEM_LOSS (R435): Loss of a REFCLK_MEM stops its fold's stack controllers and orders a device reset with dump. -/
  | refclkMemLoss (t : Nat) (fold : Fin 4)
  /-- REFCLK_SYS_LOSS (R435): Loss of REFCLK_SYS stops the folds and shepherd until the heartbeat resets the device. -/
  | refclkSysLoss (t : Nat)
  /-- UNDEFINED_MAILBOX_OPCODE (R59): The shepherd takes up a request slot whose OPCODE no chapter defines and answers it with BAD_OPCODE. -/
  | undefinedMailboxOpcode (m : Fin 1029)
  /-- PCS_LOCK_REGAINED (R266): A port's lanes regain block or alignment-marker lock before LINK_LOSS_TIME, which cancels the pending loss with no state change. -/
  | pcsLockRegained (t : Nat) (q : Fin 65)
  /-- LLDP_TRANSMIT_TIMER (R256): A port's LLDP transmit interval passes and it sends an LLDPDU carrying the reliable-link TLV. -/
  | lldpTransmitTimer (t : Nat) (q : Fin 65)
  /-- ANNOUNCE_TRANSMIT_TIMER (R163): The Announce interval of a time-transmitter port passes and an Announce message is sent. -/
  | announceTransmitTimer (t : Nat) (q : Fin 64)
  /-- DELAY_REQ_TRANSMIT_TIMER (R163): A time-receiver port using end-to-end delay sends a timestamped Delay_Req when its interval passes. -/
  | delayReqTransmitTimer (t : Nat) (q : Fin 64)
  /-- TIME_PPS_OUT_FALL (R167): PPS_OUT_WIDTH after its rising edge, TIME_PPS_OUT falls. -/
  | timePpsOutFall (t : Nat)
  /-- START_RECORD_COPY_TIMER (R179): 1 µs after the previous copy, the start logic sends the next of COPIES READY, RELEASE or ABORT records. -/
  | startRecordCopyTimer (t : Nat)
  /-- RNR_RETRY_TIMER_EXPIRY (R303): The RNR timer of a response SEND on a mailbox queue pair expires and the part retries it, or after the retry count moves the queue pair to error. -/
  | rnrRetryTimerExpiry (t : Nat) (qp : Fin 16384)
  /-- ORDERED_DEVICE_RESET (R404): A device reset ordered by DEVICE_RESET, by a failed start or by the firmware on REFCLK_MEM loss takes effect within 10 ms: the part freezes, dumps if due, and releases into a start. -/
  | orderedDeviceReset (t : Nat)
deriving DecidableEq, Repr

end Sys2Proof
end

