-- ==== Sys2Proof/Machine/State.lean ====
section
/-!
DEFINITION. The part's state as plain data: everything spec/ gives the machine, the queue of waiting commands, and
`State.reset`. Times are in ns of the model's own uptime `State.now` unless a field says cluster time. Sparse tables
list what differs from their default; the accessors of the Machine files name each default.
-/

namespace Sys2Proof.Machine

open Sys2Proof

/-- Sparse memory: (address, byte), addresses strictly rising, no listed byte 0 (an unlisted address reads 0). -/
abbrev Memory := List Host.Cell

/-- The memory's canonical form. -/
def Memory.wf (m : Memory) : Bool :=
  (m.map Prod.fst).Pairwise (· < ·) && m.all (fun c => c.2 != 0)

/-! ### Mailboxes (chapter 02) -/

/-- The range of the extended argument buffer a request owns until its response is consumed, and the channel binding it
arrived on (02 R34, R42). -/
structure Range where
  index : BitVec 16
  off : Nat
  len : Nat
  binding : BitVec 32
  /-- the mailbox queue pair that it came on, where it came on one (12 R303) -/
  qp : Option Nat := none
deriving DecidableEq, Repr

/-- An event record (02 R39). -/
structure Event where
  code : Nat
  tag : BitVec 16 := 0
  status : Nat := 0
  objType : Nat
  objId : Nat
  time : Nat := 0
  data : Bytes := []
deriving DecidableEq, Repr

/-- A mailbox page (02 R29, R30): control registers, and the bytes of offsets 0x1000 to 0xFFFF. -/
structure Page where
  reqPi : BitVec 16 := 0
  reqCi : BitVec 16 := 0
  rspPi : BitVec 16 := 0
  rspCi : BitVec 16 := 0
  evqPi : BitVec 16 := 0
  evqCi : BitVec 16 := 0
  badDoorbell : Bool := false
  evqOverflow : Bool := false
  evqEnable : Bool := true
  badDoorbellCnt : BitVec 32 := 0
  evqLostCnt : BitVec 32 := 0
  /-- event counter of LOCKED (00 R11) -/
  lockedCnt : BitVec 32 := 0
  mem : Memory := []
  ranges : List Range := []
  /-- COMPLETION records held until the event queue has space, each with the number of its command (02 R41) -/
  held : List (Nat × Event) := []
  /-- events dropped since the last EVQ_OVERFLOW record, and the cluster time of the first -/
  dropped : Nat := 0
  firstDrop : Nat := 0
deriving DecidableEq, Repr

/-- An open role session (02 R42, R43). -/
structure RoleSession where
  id : BitVec 32
  role : Role
  keyIndex : Nat
  key : Bytes
  binding : BitVec 32
  counter : BitVec 32
  lastCommand : Nat
deriving DecidableEq, Repr

/-- An issued nonce: valid for 10 s and one use (02 R42). -/
structure Nonce where
  role : Role
  binding : BitVec 32
  value : BitVec 256
  issued : Nat
deriving DecidableEq, Repr

/-- A role's failed ROLE_PROVE times within the last 60 s, and the end of its lock (02 R44). -/
structure RoleAuth where
  fails : List Nat := []
  lockUntil : Option Nat := none
deriving DecidableEq, Repr

/-- Authentication: open sessions, nonces, and each role's failures. -/
structure Auth where
  sessions : List RoleSession := []
  nonces : List Nonce := []
  operator : RoleAuth := {}
  installer : RoleAuth := {}
  maker : RoleAuth := {}
deriving DecidableEq, Repr

/-- An audit record (02 R48). -/
structure AuditRec where
  seq : Nat
  time : Nat
  bootEpoch : BitVec 32
  opcode : BitVec 16
  role : Nat
  key : Nat
  mailbox : BitVec 16
  status : Nat
  argDigest : BitVec 256
  chain : BitVec 256
deriving DecidableEq, Repr

/-- A command that answered PENDING and whose COMPLETION is still due (02 R38), with its object (02 R51, R52) and what a
second audit record needs (02 R49). -/
structure Pending where
  objType : Nat
  objId : Nat
  mailbox : Nat
  tag : BitVec 16
  opcode : BitVec 16
  /-- what further commands find BUSY: `span` objects of a kind from a number on, or the setting that has no object type -/
  lock : Nat × Nat := (0, 0)
  span : Nat := 1
  /-- the number of its command among those taken up, by which the model tells commands with one TAG apart -/
  id : Nat := 0
  role : Option Role := none
  keyIndex : Nat := 0
  binding : BitVec 32 := 0
  digest : BitVec 256 := 0
deriving DecidableEq, Repr

/-! ### Segments, contexts, extents (chapters 03, 15) -/

/-- An entry of a segment's extent list (03 R68, R72, R74). -/
structure SegEntry where
  extent : Nat
  gen : BitVec 8
  void : Bool := false
deriving DecidableEq, Repr

/-- A valid segment (03 R68, R69). -/
structure Segment where
  flags : BitVec 8
  base : Nat
  list : List SegEntry
deriving DecidableEq, Repr

/-- The states of a context (15 R345). -/
inductive CtxState where
  | none | active | lapsed | ending
deriving DecidableEq, Repr

/-- A context (15 R345 to R350), its live segment slots (03 R68), its agent limit (14 R326), its LOST_OWNED counts
(14 R344), its peer keys (12 R292) and its SYNC_SATURATED flag with its event counter (07 R190). -/
structure Ctx where
  st : CtxState := .none
  leaseMs : Nat := 0
  leaseStart : Nat := 0
  warned : Bool := false
  /-- the step of 15 R347 that an ending has reached: 1 or 6 -/
  ending : Nat := 0
  syncLimit : Nat := 0
  extentLimit : Nat := 0
  agentLimit : Nat := 0
  segs : Tab Segment := []
  lostOwned : Tab Nat := []
  peerKeys : Tab Bytes := []
  syncSaturated : Bool := false
  syncSaturatedCnt : Nat := 0
deriving DecidableEq, Repr

/-- The states of an extent (15 R348). -/
inductive ExtentState where
  | free | granted | revoking | fenced | clearing
deriving DecidableEq, Repr

/-- A tenant extent (15 R348, R351 to R354). `fencedAt` is the uptime of its fence's commit boundary. -/
structure Extent where
  st : ExtentState := .free
  gen : BitVec 8 := 0
  owner : Nat := 0xFFFF
  changed : Nat := 0
  cause : Nat := 0
  fencedAt : Nat := 0
deriving DecidableEq, Repr

/-- An EXTENT_REVOKE still pending: the first extent of its range and the count (15 R362). -/
structure Revocation where
  first : Nat
  count : Nat
deriving DecidableEq, Repr

/-! ### Schedules, sync objects, sequences, time (chapters 06, 07) -/

/-- A sync object: free or owned, and its counter (07 R189, R190). -/
structure SyncObj where
  owner : Option Nat := none
  value : BitVec 32 := 0
deriving DecidableEq, Repr

/-- A sequence-table entry: its owner and its committed length N (06 R138). -/
structure SeqEntry where
  owner : Option Nat := none
  n : Nat := 0
deriving DecidableEq, Repr

/-- The states of a schedule (07 R182). -/
inductive SchedState where
  | loaded | armed | running | ended | stopped
deriving DecidableEq, Repr

/-- A loaded schedule (07 R169 to R188): its image's bytes, its state, and what arming, starting and stopping keep. -/
structure Sched where
  ctx : Nat
  /-- the copy that the shepherd has checked (07 R175) -/
  image : Bytes
  /-- where the image stands in the schedule store: ranges by offset and length, one after another (03 R67) -/
  place : List (Nat × Nat) := []
  st : SchedState := .loaded
  admitted : Bool := false
  t0 : Option Nat := none
  tweak : BitVec 64 := 0
  /-- arming under way since SCHED_ARM was taken up (07 R177) -/
  arming : Bool := false
  armedAt : Nat := 0
  latched : Bool := false
  startedAt : Nat := 0
  reason : Nat := 0
  paddock : Nat := 0xFF
  bundle : Nat := 0
  fault : Nat := 0
  status : Nat := 0
  late : Nat := 0
  /-- device indices counted as READY on a bellwether (07 R179) -/
  ready : List Nat := []
  /-- by paddock × 65536 + trigger: the accounting period of its last SCHEDULE_LATE event (07 R188) -/
  lateEvents : Tab Nat := []
deriving DecidableEq, Repr

/-- A SCHED_LOAD under way (07 R175). -/
structure Load where
  ctx : Nat
  tag : BitVec 16
  va : Nat
  len : Nat
  mailbox : Nat
  /-- the number of its command among those taken up -/
  cmd : Nat := 0
deriving DecidableEq, Repr

/-- A READY record held by its tag (07 R179, R193). -/
structure ReadyRec where
  tag : BitVec 64
  sender : Nat
  session : BitVec 32
  since : Nat
deriving DecidableEq, Repr

/-- Copies of a start record still to be sent, 1 µs apart (07 R179): kind 1 READY, 2 RELEASE, 3 ABORT. -/
structure StartCopy where
  sched : Nat
  session : BitVec 32
  kind : Nat
  sender : Nat
  tag : BitVec 64
  t0 : Nat
  reason : Nat
  left : Nat
  last : Nat
deriving DecidableEq, Repr

/-- The clock states of 07 R165. -/
inductive ClockState where
  | free | acquiring | locked | holdover
deriving DecidableEq, Repr

/-- The time configuration of 07 R168. -/
structure TimeConfig where
  mode : Nat := 0
  timePort : BitVec 8 := 0xFF
  backupPort : BitVec 8 := 0xFF
  transmitPorts : BitVec 64 := 0
  ptpDomain : Nat := 0
  portConfig : Nat := 0
  transport : Nat := 0
  logSync : Int := -4
  logPdelay : Int := 0
  announceTimeout : Nat := 3
  lockBound : Nat := 10
  outlier : Nat := 200
  holdoverBound : Nat := 25
  slewMax : Nat := 50
  domainOffset : BitVec 64 := 0
  secondsAtPps : Nat := 0
  ppsInDelay : Nat := 0
  ppsOutDelay : Nat := 0
  ppsOutWidth : Nat := 100000
  asymmetry : Tab Int := []
deriving DecidableEq, Repr

/-- Cluster time and its discipline (07 R160 to R168; 19 R433): the four fold counters, the common 32-bit fraction, the
increment per FCLK in 2^-32 ns, the clock state and the counts that move it, and TIME_PPS_OUT. -/
structure Clock where
  fold0 : BitVec 64 := 0
  fold1 : BitVec 64 := 0
  fold2 : BitVec 64 := 0
  fold3 : BitVec 64 := 0
  fraction : BitVec 32 := 0
  increment : Nat := 2684354560
  st : ClockState := .free
  since : Nat := 0
  config : TimeConfig := {}
  onBackup : Bool := false
  /-- in 2^-16 ns -/
  lastOffset : Int := 0
  good : Nat := 0
  outliers : Nat := 0
  lastQualified : Nat := 0
  lastAnnounce : Nat := 0
  ppsSeen : Bool := false
  ppsSecond : Nat := 0
  /-- the last whole second and offset that PTP gave, for mode 3 -/
  ptpOffset : Option Int := none
  grandmaster : BitVec 64 := 0
  gmQuality : Nat := 0
  stepsRemoved : Nat := 0
  /-- the PTP port from which the time port takes its Announce, and so its Sync -/
  parent : BitVec 80 := 0
  refQualified : Bool := false
  /-- the error estimate of HOLDOVER, in 10^-9 ns: what has grown up to an uptime -/
  errGrown : Nat := 0
  errSince : Nat := 0
  ppsOut : Bool := false
  ppsOutSince : Nat := 0
  /-- the whole second of the last rising edge of TIME_PPS_OUT -/
  ppsOutSecond : Nat := 0
deriving DecidableEq, Repr

/-- The best Announce of another clock on a port, with when it came (07 R163): quality, grandmaster, steps removed, sender. -/
structure Foreign where
  quality : Nat
  grandmaster : BitVec 64
  stepsRemoved : Nat
  source : BitVec 80
  at_ : Nat
deriving DecidableEq, Repr

/-- A port's PTP measurement under way (07 R163, R164): the Sync waiting for its Follow_Up, the delay exchanges, the mean
path delay, sequence numbers, the time of each transmit timer, and the best Announce on the port. Times of PTP are in 2^-16 ns. -/
structure PtpPort where
  syncSeq : Option (BitVec 16) := none
  syncRx : Int := 0
  syncCorrection : Int := 0
  delaySeq : BitVec 16 := 0
  delayTx : Option Int := none
  syncRecv : Int := 0
  syncOrigin : Int := 0
  pdelaySeq : BitVec 16 := 0
  pdelayTx : Option Int := none
  pdelayRx : Int := 0
  pdelayPeerRx : Int := 0
  pdelayWaitFollow : Bool := false
  meanDelay : Int := 0
  syncTxSeq : BitVec 16 := 0
  announceSeq : BitVec 16 := 0
  lastSyncTx : Nat := 0
  lastPdelayTx : Nat := 0
  lastAnnounceTx : Nat := 0
  lastDelayTx : Nat := 0
  foreign : Option Foreign := none
deriving DecidableEq, Repr

/-! ### Engines (chapters 04 to 06) -/

/-- An address register: a 48-bit value and a space bit (04 R84). -/
structure AReg where
  value : BitVec 48 := 0
  space : Bool := false
deriving DecidableEq, Repr

/-- A loop level (04 R84, R88): first bundle of the body, last bundle of the body, iterations remaining. -/
structure LoopLevel where
  first : Nat
  last : Nat
  remaining : BitVec 64
deriving DecidableEq, Repr

/-- A mover descriptor in a queue (04 R89, R90), the occurrence it belongs to (07 R186), and the progress of a host or
cached move (04 R94; 14 R327): bytes done, whether its page lookup is under way, faults in succession. -/
structure Desc where
  kind : Nat
  flags : BitVec 8
  step : Nat
  length : Nat
  rows : Nat
  src : Nat
  dst : Nat
  srcStride : Int
  dstStride : Int
  session : BitVec 32
  sync : Nat
  syncAdd : Nat
  tgtPaddock : Nat
  stashAgent : Nat
  tgtSync : Nat
  tgtSyncAdd : Nat
  occurrence : Nat := 0
  done : Nat := 0
  /-- 0 idle, 1 TRANSLATE outstanding, 2 PAGE_REQUEST outstanding, 3 READ or WRITE outstanding, 4 all bytes moved, 5 a PAGE_REQUEST
  waits for the session's window (12 R280, R293) -/
  phase : Nat := 0
  /-- when the suspension for a PAGE_REQUEST began (04 R94, R95) -/
  asked : Nat := 0
  faults : Nat := 0
  /-- the status of the failed request that is first in address order so far, and its address (04 R92) -/
  failed : Nat := 0
  failedAt : Nat := 0
deriving DecidableEq, Repr

/-- A mover (04 R84, R89, R449): its queue, the descriptor in execution first; done count and last status; and the bytes
of its Prism stream with the status of a failure that waits in it. -/
structure Mover where
  queue : List Desc := []
  done : BitVec 32 := 0
  status : BitVec 16 := 0
  stream : Bytes := []
  streamFail : Option Nat := none
deriving DecidableEq, Repr

/-- A matrix pass running or queued on Prism (04 R96, R99), with the query rows and the accumulator file as its bundle read
them (04 R82). -/
structure Pass where
  mover : Nat
  row : Nat
  rows : Nat
  wfmt : Nat
  qfmt : Nat
  acc : Nat
  n : Nat
  k : Nat
  accumulate : Bool
  q : List Bytes := []
  acc0 : Tab F32 := []
deriving DecidableEq, Repr

/-- A Lens walk running or queued on Prism (06 R140, R155): the descriptor's store address, the bundle of its PR.LENS, its
descriptor's bytes, the query rows and, with CONTINUE, the accumulator file as its bundle read them (04 R82), and from its start
on the N it read, the rounding counter of its first seal (05 R128), and an APPEND's progress: requests done, the tail read for a
seal, and seals made. -/
structure Walk where
  addr : Nat
  bundle : Nat
  desc : Bytes
  q : List Bytes := []
  acc0 : Tab F32 := []
  started : Bool := false
  n : Nat := 0
  ctr : Nat := 0
  done : Nat := 0
  tail : Bytes := []
  seals : Nat := 0
deriving DecidableEq, Repr

/-- An operation running or queued on Prism (04 R96). -/
inductive PrismOp where
  | pass (x : Pass)
  | lens (x : Walk)
deriving DecidableEq, Repr

/-- An overlay in progress: target bundle, source bundle, count (04 R101). -/
structure Overlay where
  target : Nat
  source : Nat
  count : Nat
deriving DecidableEq, Repr

/-- A trigger's occurrence counter and its occurrences that have not ended: number, descriptors outstanding, whether its
DONE has issued, whether it was found late (07 R185 to R188). -/
structure Occ where
  k : Nat := 0
  open_ : List (Nat × Nat × Bool × Bool) := []
deriving DecidableEq, Repr

/-- An engine fault (04 R102). -/
structure EngineFault where
  code : Nat
  bundle : Nat
  status : Nat := 0
  time : Nat := 0
deriving DecidableEq, Repr

/-- An engine reset under way, with the schedule that was on the paddock and its context (17 R390, R391). -/
structure EngineReset where
  cause : Nat
  extent : Nat := 0xFFFF
  array : Nat := 0xFF
  since : Nat
  sched : Option Nat := none
  ctx : Option Nat := none
deriving DecidableEq, Repr

/-- The states of a way of a paddock line cache (14 R337). -/
inductive LineState where
  | s | e | m | isD | imD | smA | miA | iiA
deriving DecidableEq, Repr

/-- A way of a paddock line cache that is not in I: the line's context-virtual address, its state, its data, WBs sent
again (14 R337), and the extent that its data came from (14 R338). -/
structure Way where
  va : Nat
  st : LineState
  extent : Option Nat := none
  data : Bytes := []
  retries : Nat := 0
deriving DecidableEq, Repr

/-- An engine (04 R84): its schedule, issue state, registers, units and store. -/
structure Engine where
  /-- the schedule armed or running on the paddock (04 R87) -/
  sched : Option Nat := none
  /-- the sequencer issues bundles -/
  issuing : Bool := false
  halted : Bool := false
  fault : Option EngineFault := none
  pc : Nat := 0
  imem : Tab (BitVec 512) := []
  sregs : Tab (BitVec 64) := []
  aregs : Tab AReg := []
  vregs : Tab (List F32) := []
  qrows : Memory := []
  qlen : Tab Nat := []
  acc : Tab F32 := []
  /-- Q and D of the partial that a walk last wrote at each accumulator entry (06 R146, R148) -/
  partials : Tab (Nat × Nat) := []
  preds : Tab Bool := []
  loops : List LoopLevel := []
  movers : Tab Mover := []
  /-- Prism's operations, the running one first -/
  prism : List PrismOp := []
  overlays : List Overlay := []
  roundCtr : Nat := 0
  triggers : Tab Occ := []
  partition : Nat := 0
  store : Memory := []
  lastCtx : Option Nat := none
  lastIssue : Nat := 0
  reset : Option EngineReset := none
  ways : Tab Way := []
  /-- lines that the home refused the line cache, with the status, until the mover that asked sees it (14 R337) -/
  refusedLines : List (Nat × Nat) := []
deriving DecidableEq, Repr

/-! ### Stacks, parity, rebuild (chapters 03, 09, 10) -/

/-- The error state of a stored line: symbols whose stored value differs from the codeword by an XOR (09 R220), and
whether the line holds the unrebuildable mark (10 R239). -/
structure LineErr where
  errs : List (Nat × Byte) := []
  mark : Bool := false
deriving DecidableEq, Repr

/-- The states of a stack (10 R237). -/
inductive StackState where
  | serving | fenced | rebuilding | rebuilt | failedNoSpare | lost
deriving DecidableEq, Repr

/-- An open row of one bank of a line group (09 R204, R215): the row, the time of its last access, and the PCs of the
group on which it is open. -/
structure OpenRow where
  row : Nat
  last : Nat
  pcs : BitVec 16 := 0xFFFF
deriving DecidableEq, Repr

/-- A combining entry (10 R234): its stripe, the pending delta by byte of the parity unit, the mask of line-rows, the
time of its last write, and the highest class of the writes that it holds. -/
structure Combine where
  stripe : Nat
  delta : Memory := []
  mask : BitVec 32 := 0
  last : Nat := 0
  cls : Nat := 3
deriving DecidableEq, Repr

/-- A RESERVE interval under way on a stack (07 R195; 09 R216): its schedule, the uptime at which it ends, its SHARE, and the bytes
that class 1 has moved in a 1,024-MCLK interval, by its number. -/
structure Reserve where
  sched : Nat
  ends : Nat
  share : Nat
  slot : Nat := 0
  used : Nat := 0
deriving DecidableEq, Repr

/-- What a pass of the patrol has found (09 R225): lines corrected, reconstructed and lost. -/
structure ScrubCounts where
  corrected : Nat := 0
  reconstructed : Nat := 0
  lost : Nat := 0
deriving DecidableEq, Repr

/-- A stack controller (09 R203 to R230; 10 R234, R236). -/
structure Stack where
  st : StackState := .serving
  inService : Bool := false
  /-- the controller's clock runs (19 R435) -/
  clocked : Bool := true
  cause : Nat := 0
  /-- the uptime of its fence (10 R236) -/
  fencedAt : Nat := 0
  caseTemp : Int := 0
  flags : BitVec 8 := 0
  flagCnts : Tab Nat := []
  badDies : BitVec 16 := 0
  /-- the slices that the stack last reported uncorrected, by burst of four lines (09 R219) -/
  uncorrected : Tab (BitVec 16) := []
  /-- the case temperature has reached HOT_TEMP and not fallen 3 °C below it (09 R210) -/
  hot : Bool := false
  owed : Tab Nat := []
  lastTick : Tab Nat := []
  /-- the PCs whose present interval began hot (09 R210, R229) -/
  tickHot : BitVec 64 := 0
  owedMax : Nat := 0
  forced : Nat := 0
  refreshes : Nat := 0
  corrected : Nat := 0
  reconstructed : Nat := 0
  mediaErrors : Nat := 0
  mediaEvents : Nat := 0
  scrubAddr : Nat := 0
  /-- when the pass under way began, and when the last one ended; the counts of both (09 R225) -/
  scrubStart : Option Nat := none
  scrubDone : Option Nat := none
  scrubCount : ScrubCounts := {}
  scrubLatched : ScrubCounts := {}
  dieErrs : Tab Nat := []
  ueErrs : Tab Nat := []
  caErrs : Tab Nat := []
  repairs : List Nat := []
  repairsDropped : Nat := 0
  rows : Tab OpenRow := []
  refreshEnd : Tab Nat := []
  lastDemand : Tab Nat := []
  preT0 : Bool := false
  reserved : Option Reserve := none
  combining : List Combine := []
deriving DecidableEq, Repr

/-- The layout states of 03 R75. -/
inductive LayoutState where
  | whole | rebuilding | rebuilt | retired | lost
deriving DecidableEq, Repr

/-- Placement (03 R75, R76): the layout state, the failed stacks in the order of their declaration, the watermark and the
layout epoch. -/
structure Layout where
  st : LayoutState := .whole
  f : Option Nat := none
  g : Option Nat := none
  h : Option Nat := none
  w : Nat := 0
  epoch : BitVec 8 := 1
deriving DecidableEq, Repr

/-- The rebuild sequencer (10 R239, R240): mode, start of the rebuild, start of the last slot, whether a slot holds its
stripe's locks, whether a write that met them has had the slot's stripe settled, lines marked, and those marked before the slot
(10 R246). -/
structure Rebuild where
  mode : Nat := 0
  since : Nat := 0
  lastSlot : Option Nat := none
  inSlot : Bool := false
  settled : Bool := false
  marked : Nat := 0
  markedBefore : Nat := 0
deriving DecidableEq, Repr

/-- The memory policy of 09 R228 and 10 R234. -/
structure Policy where
  bgShare : Nat := 20
  scrubPeriod : Nat := 24
  dieBadLines : Nat := 0
  dieLimit : Nat := 1
  ueLimit : Nat := 256
  caParityLimit : Nat := 16
  combineIdle : Nat := 8000
deriving DecidableEq, Repr

/-! ### Transports (chapter 12) -/

/-- A local endpoint ID (12 R272). -/
structure LocalId where
  id : BitVec 24
  ipv6 : Bool
  ip : BitVec 128
deriving DecidableEq, Repr

/-- An endpoint table entry (12 R295), keyed by its ID. -/
structure Endpoint where
  flags : BitVec 8
  vlan : BitVec 16
  udpPort : BitVec 16
  ip : BitVec 128
deriving DecidableEq, Repr

/-- A forwarding table entry (12 R296), keyed by its ID. -/
structure Forward where
  port : BitVec 8
  nextHop : BitVec 48
  flags : BitVec 8
deriving DecidableEq, Repr

/-- The states of a session (12 R287). -/
inductive SessState where
  | unassigned | closed | keying | opened
deriving DecidableEq, Repr

/-- The keys of a private-class session (12 R291). -/
structure SessKeys where
  keyIn : BitVec 256 := 0
  keyOut : BitVec 256 := 0
  saltIn : BitVec 32 := 0
  saltOut : BitVec 32 := 0
deriving DecidableEq, Repr

/-- A session (12 R280 to R293). -/
structure Session where
  st : SessState := .unassigned
  ctx : Option Nat := none
  priv : Bool := false
  initiate : Bool := false
  gen : BitVec 16 := 0
  peer : BitVec 24 := 0
  localIdx : Nat := 0
  peerSession : BitVec 32 := 0
  timeoutNs : Nat := 50000
  window : Nat := 1
  w : Nat := 1
  lastCut : Option Nat := none
  cleanResponses : Nat := 0
  nextSeq : BitVec 32 := 0
  nextTag : BitVec 16 := 0
  issued : Nat := 0
  /-- highest accepted SEQ and the accepted SEQs among the 1,024 ending at it -/
  h : Option (BitVec 32) := none
  seen : List (BitVec 32) := []
  timeouts : Nat := 0
  discarded : Nat := 0
  peerKeySlot : Nat := 0
  keyDeadline : Nat := 0
  keys : Option SessKeys := none
  /-- the phase 1 payload of an exchange under way, and the number of the initiator's own ML-KEM secret -/
  phase1 : Bytes := []
  kemSeed : Nat := 0
deriving DecidableEq, Repr

/-- What a request that the part issued is for (12 R285); a host move's READ or WRITE with the page that it was issued under. -/
inductive OutKind where
  | hostRead (p mv : Nat) (store : Nat) (len : Nat) (page log2 : Nat)
  | hostWrite (p mv : Nat) (len : Nat) (page log2 : Nat)
  | translate (p mv : Nat) (page : Nat) (write : Bool)
  | pageRequest (p mv : Nat) (page : Nat)
  | keyExchange
  | snoop (agent : Nat) (line : Nat)
  | stashOffer (agent : Nat) (line : Nat)
deriving DecidableEq, Repr

/-- A request that the part issued and that has no response yet (12 R280, R285). -/
structure Outstanding where
  session : Nat
  tag : BitVec 16
  seq : BitVec 32
  kind : OutKind
  issuedAt : Nat
  /-- an INVALIDATE has withdrawn the translation it was issued under, or the page it asks for (15 R358, R359) -/
  withdrawn : Bool := false
deriving DecidableEq, Repr

/-- A reassembly of a segmented request or response (12 R275). -/
structure Reasm where
  session : Nat
  seq : BitVec 32
  first : Eruno
  total : Nat
  data : Memory
  have_ : List (Nat × Nat)
  since : Nat
  /-- a segment came marked CE (12 R293) -/
  ce : Bool := false
deriving DecidableEq, Repr

/-- The job of 12 R299. -/
structure Job where
  isOpen : Bool := false
  number : BitVec 32 := 0
  changed : Nat := 0
deriving DecidableEq, Repr

/-- The states of a queue pair that QP_STATUS reports (12 R305). -/
inductive QpState where
  | closed | ready | error
deriving DecidableEq, Repr

/-- A packet of a SEND of the part on a mailbox queue pair, kept until it is acknowledged (12 R303). -/
structure QpSend where
  psn : BitVec 24
  op : RoceOp
  bytes : Bytes
  /-- the request index whose range is released when this packet is sent -/
  index : Option (BitVec 16) := none
  sentAt : Option Nat := none
deriving DecidableEq, Repr

/-- A queue pair (12 R301 to R305). -/
structure Qp where
  ctx : Option Nat := none
  st : QpState := .closed
  mailbox : Bool := false
  ipv6 : Bool := false
  events : Bool := false
  mtuLog : Nat := 0
  port : Nat := 0
  localIdx : Nat := 0
  rkey : BitVec 32 := 0
  remoteQp : BitVec 24 := 0
  sendPsn : BitVec 24 := 0
  expectedPsn : BitVec 24 := 0
  mac : BitVec 48 := 0
  ip : BitVec 128 := 0
  naks : Nat := 0
  cnps : Nat := 0
  rate : Nat := 0
  lastCnpSent : Option Nat := none
  lastCnp : Nat := 0
  /-- an RDMA WRITE message under way: next address and bytes left -/
  write : Option (Nat × Nat) := none
  /-- a SEND message under way -/
  recv : Option Bytes := none
  /-- a NAK for a sequence error has been sent since the last expected packet (12 R301) -/
  nakOut : Bool := false
  /-- the last 16 atomic results, by PSN -/
  atomics : List (BitVec 24 × BitVec 64) := []
  sends : List QpSend := []
  retries : Nat := 0
  rnrRetries : Nat := 0
  rnrUntil : Option Nat := none
  /-- when its rate lets the next packet leave (12 R304) -/
  nextAt : Nat := 0
  /-- answers that wait for that rate: READ responses, and what must not pass them (12 R301, R304) -/
  waiting : List Roce := []
deriving DecidableEq, Repr

/-! ### Coherence (chapter 14) -/

/-- A registered agent (14 R324 to R327). -/
structure Agent where
  ctx : Nat
  session : Nat
  mask : BitVec 8
  n : Nat
  ways : Nat
  leaseMs : Nat
  leaseStart : Nat
  snoops : Nat := 0
  stale : Nat := 0
  /-- declared dead with this cause, its resolution still to be reported (14 R340 to R342) -/
  dead : Option Nat := none
  deadO : Nat := 0
  deadS : Nat := 0
deriving DecidableEq, Repr

/-- A valid tally entry: the data line number and whether the line is owned (14 R328). -/
structure TallyEntry where
  line : Nat
  owned : Bool
deriving DecidableEq, Repr

/-- What a home transaction serves (14 R334, R335). -/
inductive TxnKind where
  | rdShared | rdOwn | upgrade
  | read (id : Nat) | write (id : Nat)
deriving DecidableEq, Repr

/-- The phases of 14 R336: SNP, ACK and STH. -/
inductive Phase where
  | snp | ack | sth
deriving DecidableEq, Repr

/-- An open transaction of the home on one line (14 R334 to R336). -/
structure Txn where
  line : Nat
  va : Nat
  kind : TxnKind
  /-- the OPCODE of the agent's request, which its answer repeats -/
  opcode : Nat := 0x10
  agent : Nat := 0
  way : Nat := 0
  seq : BitVec 32 := 0
  tag : BitVec 16 := 0
  port : Nat := 0
  phase : Phase := .snp
  awaited : List Nat := []
  /-- the request came marked CE (12 R293), and with SCHEDULED set (12 R274) -/
  echo : Bool := false
  scheduled : Bool := false
  /-- agents whose snoop or offer waits for their session's window (12 R280) -/
  unsent : List Nat := []
  memIn : Bool := false
  /-- the tally slice's memory read is needed -/
  needMem : Bool := true
  data : Option Bytes := none
  since : Nat := 0
deriving DecidableEq, Repr

/-- Who made a non-caching request to a coherent segment (14 R334). -/
inductive NcOwner where
  | eruno (port session : Nat) (e : Eruno)
  | roce (port qp : Nat) (r : Roce)
  | mover (p mv : Nat)
  | lens (p : Nat)
  /-- a SCHED_LOAD, by the number of its command among those taken up (07 R175) -/
  | load (cmd : Nat)
deriving DecidableEq, Repr

/-- A non-caching request to a coherent segment (14 R334, R335): its range of context-virtual addresses, the data lines
still to be served, the bytes to write or the bytes read so far, an ATOMIC's SUBOP, a stash target, and the first status
other than OK. A mover's, Lens's or load's request with no line left waits to be collected. -/
structure NcReq where
  id : Nat
  ctx : Nat
  owner : NcOwner
  isWrite : Bool
  va : Nat
  len : Nat
  lines : List Nat
  data : Bytes := []
  atomic : Option Nat := none
  stash : Option Nat := none
  failed : Nat := 0
  /-- where in the range the first line that failed begins -/
  failedAt : Nat := 0
deriving DecidableEq, Repr

/-- A coherence request that waits because a transaction is open on its line (14 R334). -/
structure CohReq where
  line : Nat
  va : Nat
  opcode : Nat
  agent : Nat
  way : Nat
  seq : BitVec 32 := 0
  tag : BitVec 16 := 0
  port : Nat := 0
  data : Bytes := []
  nc : Option Nat := none
  /-- the request came marked CE (12 R293), and with SCHEDULED set (12 R274) -/
  echo : Bool := false
  scheduled : Bool := false
deriving DecidableEq, Repr

/-- A coherence message between the home and a paddock line cache, carried over the crossbar (14 R327, R331). -/
structure XMsg where
  toHome : Bool
  paddock : Nat
  opcode : Nat
  subop : Nat
  va : Nat
  way : Nat
  /-- the data line that a grant or an offer of the home carries (14 R338) -/
  line : Nat := 0
  status : Nat := 0
  data : Bytes := []
deriving DecidableEq, Repr

/-! ### Host translation (chapter 15) -/

/-- A translation cache entry (15 R356). -/
structure XEntry where
  ctx : Nat
  session : Nat
  gen : BitVec 16
  va : Nat
  pa : Nat
  log2 : Nat
  canRead : Bool
  canWrite : Bool
  lastUse : Nat := 0
deriving DecidableEq, Repr

/-- A drain that waits for requests issued under withdrawn translations: an INVALIDATE to answer, or a
TRANSLATION_FLUSH (15 R358, R361). -/
structure Drain where
  session : Nat
  tag : BitVec 16
  seq : BitVec 32
  flushCtx : Option Nat := none
  /-- the number of the TRANSLATION_FLUSH among the commands taken up -/
  cmd : Nat := 0
  requests : List (Nat × BitVec 16)
  /-- the port at which the INVALIDATE came in, and whether it came marked CE (12 R293, R294) -/
  port : Nat := 0
  echo : Bool := false
deriving DecidableEq, Repr

/-! ### Ports and traffic control (chapters 11, 13) -/

/-- The states of a port quad (11 R254). -/
inductive QuadState where
  | off | training | active | resetting | paired
deriving DecidableEq, Repr

/-- A quad's state and configuration (11 R247, R254, R270). -/
structure Quad where
  st : QuadState := .off
  mode : Nat := 0
  an : Bool := false
  polarity : BitVec 8 := 0
  since : Nat := 0
  configured : Nat := 0
deriving DecidableEq, Repr

/-- The states of a port's link (11 R255). -/
inductive LinkState where
  | down | training | negotiating | up | reliable
deriving DecidableEq, Repr

/-- A frame in a class queue; a forwarded one still counts at the port it came in on, with the length it came with (13 R307), and a
mover's row waits for its frame to leave (04 R91, R448); the port's timestamp when it was queued, of a PTP message (07 R164). -/
structure Queued where
  frame : Frame
  origin : Option (Nat × Nat) := none
  mover : Option (Nat × Nat) := none
  stamp : Int := 0
deriving DecidableEq, Repr

/-- What SHAPER_SET sets (13 R315, R316, R323). -/
structure ShaperSet where
  shaped : Bool
  overhead : Nat
  rate : Nat
  burst : Nat
  ecnThresh : Nat
  quantum : Nat
deriving DecidableEq, Repr

/-- One class of one port: shaper (tokens in eighths of a byte), queue and PFC (13 R306 to R317). -/
structure PortClass where
  queue : List Queued := []
  shaped : Bool := false
  rate : Nat := 0
  burst : Nat := 0
  overhead : Nat := 20
  tokens : Int := 0
  ecnThresh : Nat := 65536
  quantum : Nat := 0
  deficit : Nat := 0
  pausedUntil : Option Nat := none
  occupied : Nat := 0
  xoff : Bool := false
  xoffAt : Nat := 0
  sent : Nat := 0
  ceMarks : Nat := 0
  limitDiscards : Nat := 0
  overlongDiscards : Nat := 0
  /-- the head has been found held by a gate -/
  gateHeld : Bool := false
  /-- SHAPER_SET committed at a boundary, to be applied at the first refill at or after it (13 R321) -/
  next : Option (Nat × ShaperSet) := none
deriving DecidableEq, Repr

/-- A gate list on a port (13 R318, R320): covered classes, base, cycle, entries (duration, open mask), and the entry the
list stands in. -/
structure GateList where
  covered : BitVec 8
  base : Nat
  cycle : Nat
  entries : List (Nat × BitVec 8)
  entry : Nat := 0
  sched : Option Nat := none
deriving DecidableEq, Repr

/-- A frame kept in a replay buffer, with its sequence number (11 R262). -/
structure Kept where
  seq : BitVec 16
  frame : Frame
deriving DecidableEq, Repr

/-- A received frame in the ingress buffer with the cluster time of its arrival in 2^-16 ns (13 R307; 07 R164). -/
structure RxItem where
  frame : Frame
  stamp : Int
  /-- reassembled from segments that have passed the checks of frames (12 R275, R281) -/
  opened : Bool := false
  /-- its number in the order in which frames arrived at the part (12 R283) -/
  arrived : Nat := 0
deriving DecidableEq, Repr

/-- A port (11 R247 to R267; 13 R306 to R320); port 64 is the management port (11 R250). -/
structure Port where
  maxFrame : Nat := 9216
  relMode : Nat := 0
  required : Bool := false
  link : LinkState := .down
  cause : Nat := 0
  since : Nat := 0
  refusalReported : Bool := false
  replayTimer : Nat := 4000
  ackDelay : Nat := 100
  lossTime : Nat := 2000000
  /-- the port has sent its TLV, and the peer's has come (11 R256); INITs sent; INIT sending on; a good tagged frame has come
  (11 R257) -/
  tlvSent : Bool := false
  tlvPeer : Bool := false
  initSent : Nat := 0
  initOn : Bool := false
  lastInit : Option Nat := none
  peerSeen : Bool := false
  oldest : BitVec 16 := 0
  next : BitVec 16 := 0
  rp : BitVec 16 := 0
  expected : BitVec 16 := 0
  kept : List Kept := []
  /-- the expected number of the last NAK and when another for it may leave; the instants at which ACK_DELAY,
  REPLAY_TIMER, and LINK_LOSS_TIME for want of progress and of lock, expire (11 R261, R262, R265, R266) -/
  nakSent : Option (BitVec 16 × Nat) := none
  oweAck : Option Nat := none
  timer : Option Nat := none
  progress : Option Nat := none
  lockLost : Option Nat := none
  replays : Nat := 0
  discardedDown : Nat := 0
  control : List LinkTag := []
  rx : List RxItem := []
  classes : Tab PortClass := []
  drr : Nat := 0
  gates : Option GateList := none
  schedGates : Option GateList := none
deriving DecidableEq, Repr

/-- A meter (13 R310 to R314): tokens in 1/8000 of a byte, which is what 1 MB/s gives in 0.125 ns; the FCLK of the last refill. -/
structure Meter where
  enabled : Bool := false
  twoRate : Bool := false
  aware : Bool := false
  throttle : Bool := false
  cir : Nat := 0
  cbs : Nat := 0
  eir : Nat := 0
  ebs : Nat := 0
  committed : Int := 0
  excess : Int := 0
  refilled : Nat := 0
  green : Nat := 0
  yellow : Nat := 0
  red : Nat := 0
deriving DecidableEq, Repr

/-- The class map (13 R306, R313): DSCP per class and the colours of the 64 DSCP values (0 green, 1 yellow, 2 red). -/
structure ClassMap where
  dscp : List (BitVec 6) := [26, 10, 18, 20, 22, 46, 48, 16]
  colours : Tab Nat := []
deriving DecidableEq, Repr

/-! ### Start-up, faults, dump (chapters 16, 17) -/

/-- A persistent-state copy (16 R370). -/
structure PState where
  seq : Nat
  bootEpoch : BitVec 32
  layout : Layout
  checks : Bool := true
deriving DecidableEq, Repr

/-- An error log record (17 R385). -/
structure ErrRec where
  seq : Nat
  bootEpoch : BitVec 32
  time : Nat
  code : Nat
  cls : Nat
  unit : Nat
  status : Nat := 0
  suppressed : Nat := 0
  data : Bytes := []
deriving DecidableEq, Repr

/-- The crash dump's header fields and directory (17 R398): per unit its state (0 answered, 1 no answer, 2 not reached). -/
structure Dump where
  first : Nat
  bootEpoch : BitVec 32
  time : Nat
  reason : Nat
  errorSeq : Nat
  units : List (Nat × Nat) := []
  /-- the content bytes that the model gives, by unit ID × 2^24 + content offset; the others are free values of draw `draw` -/
  bytes : Memory := []
  draw : Nat := 0
deriving DecidableEq, Repr

/-- The state of the dump area (17 R399): 0 none, 1 held, 2 copied. -/
inductive DumpHeld where
  | none | held | copied
deriving DecidableEq, Repr

/-- A device reset that is ordered, or whose dump is being taken (17 R395, R404): the start reason it carries, whether a
dump is due, the unit read first, the uptime of the order, the SEQ of the record that caused it, and whether a command
ordered it (16 R381). -/
structure ResetOrder where
  reason : Nat
  dump : Bool
  first : Nat := 0x10
  at_ : Nat
  errorSeq : Nat
  command : Bool := false
deriving DecidableEq, Repr

/-- The always-on domain and retention SRAM (01 R24; 12 R286; 16 R363, R368; 17 R387, R393, R395; 19 R440). -/
structure Aon where
  startFailures : Nat := 0
  bootEpoch : BitVec 32 := 0
  lastCause : Nat := 0
  lastUnit : Nat := 0xFF
  tripFold : Nat := 0xF
  tripCount : Nat := 0
  /-- standby power has been lost since the last start -/
  vddLost : Bool := true
  /-- session generations reached, and where every other index stands (12 R286) -/
  sessGens : Tab (BitVec 16) := []
  genBase : BitVec 16 := 1
  errLog : List ErrRec := []
  errSeq : Nat := 0
  overwritten : Nat := 0
  dump : Option Dump := none
  dumpHeld : DumpHeld := .none
  /-- a dump has been taken since the last start -/
  dumpNew : Bool := false
  ordered : Option ResetOrder := none
  /-- the folds are frozen and a dump is being taken, since when (17 R395, R396) -/
  dumping : Option Nat := none
  /-- units that have not answered the dump under way (17 R396) -/
  noAnswer : List Nat := []
  /-- the start reason that the next start carries -/
  nextReason : Nat := 2
  dumpSkipped : Option (BitVec 32) := none
deriving DecidableEq, Repr

/-- A flash area of a signed record or image: erased, or its bytes (16 R369). A write that was cut short leaves it torn, and
its bytes are free values of draw `torn` (16 R382; log entry 37). -/
structure Area where
  present : Bool := false
  bytes : Memory := []
  len : Nat := 0
  torn : Option Nat := none
deriving DecidableEq, Repr

/-- The flash device (16 R369, R370; 02 R48; 09 R207): its header, and its areas. -/
structure Flash where
  magic : BitVec 32 := 0x4C465154
  layoutVersion : BitVec 16 := 1
  stateA : Option PState := none
  stateB : Option PState := none
  package : Area := {}
  installer : Area := {}
  firmware : Area := {}
  accepted : Area := {}
  /-- the maker signature of the accepted set (16 R369) -/
  acceptedSig : Bytes := []
  idleClose : Nat := 32
  audit : List AuditRec := []
  auditNext : Nat := 0
  auditChain : BitVec 256 := 0
  /-- CHAIN of the record before the oldest held (02 R50) -/
  auditBase : BitVec 256 := 0
  errCopy : List ErrRec := []
  dumpCopy : Option Dump := none
  /-- the outcome that the flash device gives to a write (02 R49) -/
  writeOk : Bool := true
deriving DecidableEq, Repr

/-- The staging transfer (16 R378). -/
structure Staging where
  kind : Nat
  length : Nat
  bytes : Memory := []
  held : Nat := 0
  opener : BitVec 32
  committing : Bool := false
  /-- the commit's own number among the commands taken up (`Pending.id`) -/
  commitId : Nat := 0
  /-- the outcome of its flash write, once that has ended (16 R378: the transfer ends with its commit's COMPLETION) -/
  written : Option Bool := none
deriving DecidableEq, Repr

/-- DEVICE_MODE[3:0] of 02 R31: 1 starting, 2 in service, 3 minimal mode, 4 resetting. -/
inductive Mode where
  | starting | inService | minimal | resetting
deriving DecidableEq, Repr

/-- Device-wide registers (02 R31, R57; 16 R364, R368; 17 R392, R403; 19 R438, R440). -/
structure Dev where
  mode : Mode := .resetting
  reason : Nat := 0
  startAt : Nat := 0
  stacksReady : Bool := false
  fwVersion : BitVec 32 := 0
  acctPeriod : Nat := 1000000
  lastBoundary : Nat := 0
  /-- cluster time of the last shaper refill (13 R315) -/
  lastRefill : Nat := 0
  timeHiLatch : BitVec 32 := 0
  watchdogUs : Nat := 2000
  /-- ALERT_STATUS bits [1:0]; the other bits follow their conditions; the event counter of each bit -/
  alert0 : Bool := false
  alert1 : Bool := false
  alertCnts : Tab Nat := []
  dieMax : Int := 0
  stackMax : Int := 0
  /-- when the die sensors and the stacks' case temperatures were last read (19 R437) -/
  dieReadAt : Option Nat := none
  stackReadAt : Option Nat := none
  /-- the copy of the persistent state that was last written before the ready point or since: true for copy A, and when (16 R370, R382) -/
  persisting : Option (Bool × Nat) := none
  dieTemps : Tab Int := []
  /-- functional clocks stopped (17 R395; 19 R435, R439) -/
  clocksStopped : Bool := false
  suppressed : Tab Nat := []
  written : Tab Nat := []
  suppressedTotal : Nat := 0
  /-- the records, the image and the profile copy as this start read and verified them -/
  package : Area := {}
  installer : Area := {}
  image : Area := {}
  profile : Area := {}
  idleClose : Nat := 32
  /-- the identity public key, and the PUF reading that this start took (16 R374) -/
  identityKey : Bytes := []
  puf : Bytes := []
  /-- the layout epoch before this start, where this start raised it (03 R79) -/
  oldEpoch : Option (BitVec 8) := none
  erunoPort : BitVec 16 := 47334
  macBase : BitVec 48 := 0
  /-- the management port's MAC and its address (16 R373, R380) -/
  mgmtMac : BitVec 48 := 0
  mgmtId : LocalId := { id := 1, ipv6 := false, ip := 0xA9FE0010 }
  cnpInterval : Nat := 50000
deriving DecidableEq, Repr

/-- The pins of 19 R430, R434, R439 that are not derived from other state. -/
structure Pins where
  resetN : Bool := false
  warmRstN : Bool := true
  pwrGood : Bool := false
  bootSrc : Bool := false
  thermtripN : Bool := true
deriving DecidableEq, Repr

/-! ### Counters and trace (chapter 18) -/

/-- A counter block (18 R406 to R412). -/
structure CounterBlk where
  enabled : Bool := false
  valid : Bool := false
  whole : Bool := false
  periodStart : Nat := 0
  periodEnd : Nat := 0
  opened : Nat := 0
  live : Tab Nat := []
  latched : Tab Nat := []
deriving DecidableEq, Repr

/-- A trace record (18 R414). -/
structure TraceRec where
  type : Nat
  source : Nat
  flags : Nat
  ctx : Nat
  seq : Nat
  time : Nat
  data : Bytes
  /-- when it entered its stream's queue (18 R416) -/
  at_ : Nat := 0
deriving DecidableEq, Repr

/-- The states of a trace stream that TRACE_STATUS reports (18 R420). -/
inductive StreamState where
  | off | running | stopped
deriving DecidableEq, Repr

/-- A trace stream (18 R413 to R418). -/
structure Stream where
  st : StreamState := .off
  toSession : Bool := false
  source : Nat := 0xFFFF
  mask : BitVec 32 := 0
  session : Nat := 0
  sliceOff : Nat := 0
  sliceSize : Nat := 0
  writeIdx : Nat := 0
  readIdx : Nat := 0
  queue : List TraceRec := []
  oldest : Nat := 0
  newest : Nat := 0
  seq : Nat := 0
  written : Nat := 0
  drops : Nat := 0
  dropsTotal : Nat := 0
  firstDrop : Nat := 0
  lastDrop : Nat := 0
  losses : Nat := 0
  lossEventPeriod : Option Nat := none
deriving DecidableEq, Repr

/-- A change staged for a boundary (02 R54). -/
inductive Change where
  | period (ns : Nat)
  | segment (ctx slot : Nat) (seg : Option Segment)
  | policy (p : Policy)
  | watchdog (us : Nat)
  | fence (extent : Nat)
  | meter (endpoint : Bool) (id : Nat) (isWrite : Bool) (m : Meter)
  | shaper (port cls : Nat) (setting : ShaperSet)
  | gate (port : Nat) (list : Option GateList)
  | classMap (m : ClassMap)
  /-- `but` names the contexts that have ended since it was staged (15 R347) -/
  | counters (group first count : Nat) (enable : Bool) (but : List Nat := [])
  | trace (stream : Nat) (setting : Option Stream)
deriving DecidableEq, Repr

/-- A staged change, the cluster time from which a boundary takes it (02 R55), and the command whose COMPLETION it owes. -/
structure Staged where
  at_ : Nat
  change : Change
  owes : Option Pending
deriving DecidableEq, Repr

/-- The build of the package (00 R2). -/
inductive Build where
  | h4 | h3
deriving DecidableEq, Repr

/-- A frame that has left the part: its port and its six preamble bytes, which hold its tag where it has one (the model's own
record of the wire, log entry 12). -/
structure Sent where
  port : Nat
  preamble : Bytes
  frame : Frame
deriving DecidableEq, Repr

/-- The part. -/
structure State where
  /-- commands waiting, first in, first out -/
  pending : List Instr := []
  build : Build := .h4
  now : Nat := 0
  clock : Clock := {}
  pins : Pins := {}
  aon : Aon := {}
  flash : Flash := {}
  dev : Dev := {}
  pages : Tab Page := []
  lastServed : Nat := 1028
  /-- how many commands have been taken up (the model's own field) -/
  taken : Nat := 0
  auth : Auth := {}
  pendings : List Pending := []
  staged : List Staged := []
  pool : Memory := []
  lines : Tab LineErr := []
  stks : Tab Stack := []
  layout : Layout := {}
  rebuild : Rebuild := {}
  policy : Policy := {}
  ctxs : Tab Ctx := []
  extents : Tab Extent := []
  revocations : List Revocation := []
  sync : Tab SyncObj := []
  seqs : Tab SeqEntry := []
  scheds : Tab Sched := []
  loads : List Load := []
  readyHeld : List ReadyRec := []
  startCopies : List StartCopy := []
  engines : Tab Engine := []
  locals : List LocalId := []
  endpoints : Tab Endpoint := []
  forwards : Tab Forward := []
  sessions : Tab Session := []
  outstanding : List Outstanding := []
  reasms : List Reasm := []
  job : Job := {}
  qps : Tab Qp := []
  agents : Tab Agent := []
  tally : Tab TallyEntry := []
  txns : List Txn := []
  cohQueue : List CohReq := []
  ncReqs : List NcReq := []
  xbar : List XMsg := []
  xcache : List XEntry := []
  drains : List Drain := []
  meters : Tab Meter := []
  epMeters : Tab Meter := []
  classMap : ClassMap := {}
  quads : Tab Quad := []
  ports : Tab Port := []
  ptp : Tab PtpPort := []
  staging : Option Staging := none
  counters : Tab CounterBlk := []
  streams : Tab Stream := []
  /-- counts of discarded and refused frames and other device counts, by number (`Sys2Proof.Machine.Count`) -/
  counts : Tab Nat := []
  /-- frames that have arrived at the part so far (12 R283) -/
  arrivals : Nat := 0
  /-- frames that have left the part, newest last (the model's own field) -/
  wire : List Sent := []
  /-- how many free values have been drawn (the model's own field) -/
  free : Nat := 0
deriving DecidableEq, Repr

/-- The part right after a cold reset: RESET_N low, nothing started, flash as delivered (03 R76: epoch 0x01, Whole). -/
def State.reset : State := {}

/-- Why the machine stops with a fault. -/
inductive Fault where
  /-- Raised by TEMPERATURE_READ and DIE_TEMPERATURE_READ when a sensor reads below 0 °C: 19 R442 calls the behaviour
  outside the limits of 19 R437 undefined and gives no effect there. Safe: the model stops where the part may go on. -/
  | outsideLimits
deriving DecidableEq, Repr

/-- Why a command has no meaning. -/
inductive Refusal where
  /-- Raised by `exec` for a command whose meaning is not written yet. Safe. -/
  | notModelled (mnemonic : String)
deriving DecidableEq, Repr

end Sys2Proof.Machine
end

