-- ==== Sys2Proof/Machine/Tab.lean ====
section
/-!
DEFINITION. Operations on sparse tables and on sparse memory. Every one is structurally recursive.
-/

namespace Sys2Proof.Machine

open Sys2Proof

variable {α : Type}

/-- The entry at a key. -/
def tget? : Tab α → Nat → Option α
  | [], _ => none
  | (k, v) :: r, a => if a = k then some v else tget? r a

/-- The entry at a key, or a default. -/
def tgetD (t : Tab α) (d : α) (a : Nat) : α := (tget? t a).getD d

/-- Sets the entry at a key. -/
def tput : Tab α → Nat → α → Tab α
  | [], a, x => [(a, x)]
  | (k, v) :: r, a, x =>
    if a < k then (a, x) :: (k, v) :: r
    else if a = k then (a, x) :: r
    else (k, v) :: tput r a x

/-- Removes the entry at a key. -/
def tdel (t : Tab α) (a : Nat) : Tab α := t.filter (fun e => e.1 != a)

/-- Changes the entry at a key, where an absent one counts as the default. -/
def tupd (t : Tab α) (d : α) (a : Nat) (f : α → α) : Tab α := tput t a (f (tgetD t d a))

/-- Changes every entry by its key. -/
def tmap (t : Tab α) (f : Nat → α → α) : Tab α := t.map (fun e => (e.1, f e.1 e.2))

/-- Keeps the entries that pass a test. -/
def tfilter (t : Tab α) (f : Nat → α → Bool) : Tab α := t.filter (fun e => f e.1 e.2)

/-- The keys whose entries pass a test. -/
def tkeys (t : Tab α) (f : Nat → α → Bool) : List Nat := (t.filter (fun e => f e.1 e.2)).map Prod.fst

/-- The first key whose entry passes a test. -/
def tfind (t : Tab α) (f : Nat → α → Bool) : Option Nat := (t.find? (fun e => f e.1 e.2)).map Prod.fst

/-- One byte of memory. -/
def mread (m : Memory) (a : Nat) : Byte := tgetD m 0 a

/-- Writes one byte; writing 0 removes the entry. -/
def mwrite (m : Memory) (a : Nat) (b : Byte) : Memory := if b = 0 then tdel m a else tput m a b

/-- `n` bytes from an address upward. -/
def mreadN (m : Memory) (a : Nat) : Nat → Bytes
  | 0 => []
  | n + 1 => mread m a :: mreadN m (a + 1) n

/-- Writes bytes from an address upward. -/
def mwriteN (m : Memory) : Nat → Bytes → Memory
  | _, [] => m
  | a, b :: r => mwriteN (mwrite m a b) (a + 1) r

/-- The memory without the bytes of [lo, hi). -/
def mclear (m : Memory) (lo hi : Nat) : Memory := m.filter (fun c => c.1 < lo || hi ≤ c.1)

/-- The bytes of [lo, hi) alone. -/
def mslice (m : Memory) (lo hi : Nat) : Memory := m.filter (fun c => lo ≤ c.1 && c.1 < hi)

end Sys2Proof.Machine
end

