-- ==== Sys2Proof/Machine/Bytes.lean ====
section
/-!
DEFINITION. Byte order (00 R8: little-endian), fields of byte strings, signs, and small arithmetic.
-/

namespace Sys2Proof.Machine

open Sys2Proof

/-- The number that bytes spell, least significant first. -/
def leNat : Bytes → Nat
  | [] => 0
  | b :: r => b.toNat + 256 * leNat r

/-- `k` bytes of a number, least significant first. -/
def natLe (n : Nat) : Nat → Bytes
  | 0 => []
  | k + 1 => BitVec.ofNat 8 n :: natLe (n / 256) k

/-- The number in bytes [off, off + k) of a byte string. -/
def field (b : Bytes) (off k : Nat) : Nat := leNat ((b.drop off).take k)

/-- The signed number in bytes [off, off + k), two's complement. -/
def sfield (b : Bytes) (off k : Nat) : Int :=
  let n := field b off k
  if n < 2 ^ (8 * k - 1) then n else (n : Int) - 2 ^ (8 * k)

/-- Bytes [lo, hi] of a byte string are all 0. -/
def zeroAt (b : Bytes) (lo hi : Nat) : Bool := ((b.drop lo).take (hi + 1 - lo)).all (· == 0)

/-- Bit `i` of a number. -/
def bit (n i : Nat) : Bool := n / 2 ^ i % 2 == 1

/-- A number with its bits where a Bool is set. -/
def b2n (b : Bool) (i : Nat) : Nat := if b then 2 ^ i else 0

/-- The signed value of a number taken as `k` bits. -/
def signed (n k : Nat) : Int := if n % 2 ^ k < 2 ^ (k - 1) then (n % 2 ^ k : Nat) else ((n % 2 ^ k : Nat) : Int) - 2 ^ k

/-- A signed value as `k` bits. -/
def unsigned (i : Int) (k : Nat) : Nat := (i % (2 ^ k : Int)).toNat

/-- Division rounded up; 0 divides to 0. -/
def ceilDiv (a b : Nat) : Nat := if b = 0 then 0 else (a + b - 1) / b

/-- A number rounded up to a multiple of `k`. -/
def roundUp (a k : Nat) : Nat := ceilDiv a k * k

/-- A byte string cut or padded with zeros to a length. -/
def padTo (b : Bytes) (n : Nat) : Bytes := (b ++ List.replicate (n - b.length) 0).take n

/-- A byte string with a field written at an offset. -/
def putBytes (b : Bytes) (off : Nat) (x : Bytes) : Bytes := b.take off ++ x ++ b.drop (off + x.length)

/-- A byte string with a number written at an offset in `k` bytes. -/
def putNat (b : Bytes) (off k n : Nat) : Bytes := putBytes b off (natLe n k)

/-- Byte-wise XOR. -/
def xorBytes (a b : Bytes) : Bytes := List.zipWith (· ^^^ ·) a b

/-- [a, b) and [c, d) share a number. -/
def overlaps (a b c d : Nat) : Bool := a < d && c < b

/-- The numbers from `a` upward, `n` of them. -/
def rangeFrom (a : Nat) : Nat → List Nat
  | 0 => []
  | n + 1 => a :: rangeFrom (a + 1) n

/-- Folds a function over [a, a + n). -/
def foldRange {σ : Type} (a n : Nat) (s : σ) (f : σ → Nat → σ) : σ := (rangeFrom a n).foldl f s

/-- Does any two elements of a list agree. -/
def hasDup [DecidableEq α] : List α → Bool
  | [] => false
  | x :: r => r.contains x || hasDup r

end Sys2Proof.Machine
end

