-- ==== Sys2Proof/Machine/Access.lean ====
section
/-!
DEFINITION. The accessors of the state's tables: each names the default that an unlisted entry reads as.
-/

namespace Sys2Proof.Machine

open Sys2Proof

/-- Mailbox page `m`. -/
def State.page (s : State) (m : Nat) : Page := tgetD s.pages {} m
/-- Changes mailbox page `m`. -/
def State.updPage (s : State) (m : Nat) (f : Page → Page) : State := { s with pages := tupd s.pages {} m f }
/-- Context `c`. -/
def State.ctx (s : State) (c : Nat) : Ctx := tgetD s.ctxs {} c
/-- Changes context `c`. -/
def State.updCtx (s : State) (c : Nat) (f : Ctx → Ctx) : State := { s with ctxs := tupd s.ctxs {} c f }
/-- Extent `e`. -/
def State.extent (s : State) (e : Nat) : Extent := tgetD s.extents {} e
/-- Changes extent `e`. -/
def State.updExtent (s : State) (e : Nat) (f : Extent → Extent) : State := { s with extents := tupd s.extents {} e f }
/-- Sync object `i`. -/
def State.syncObj (s : State) (i : Nat) : SyncObj := tgetD s.sync {} i
/-- Changes sync object `i`. -/
def State.updSync (s : State) (i : Nat) (f : SyncObj → SyncObj) : State := { s with sync := tupd s.sync {} i f }
/-- Sequence-table entry `i`. -/
def State.seqEntry (s : State) (i : Nat) : SeqEntry := tgetD s.seqs {} i
/-- Changes sequence-table entry `i`. -/
def State.updSeq (s : State) (i : Nat) (f : SeqEntry → SeqEntry) : State := { s with seqs := tupd s.seqs {} i f }
/-- Schedule `n`, where one is loaded. -/
def State.sched? (s : State) (n : Nat) : Option Sched := tget? s.scheds n
/-- Changes schedule `n`, where one is loaded. -/
def State.updSched (s : State) (n : Nat) (f : Sched → Sched) : State :=
  match tget? s.scheds n with
  | some x => { s with scheds := tput s.scheds n (f x) }
  | none => s
/-- The engine of paddock `p`. -/
def State.engine (s : State) (p : Nat) : Engine := tgetD s.engines {} p
/-- Changes the engine of paddock `p`. -/
def State.updEngine (s : State) (p : Nat) (f : Engine → Engine) : State := { s with engines := tupd s.engines {} p f }
/-- Stack controller `k`. -/
def State.stack (s : State) (k : Nat) : Stack := tgetD s.stks {} k
/-- Changes stack controller `k`. -/
def State.updStack (s : State) (k : Nat) (f : Stack → Stack) : State := { s with stks := tupd s.stks {} k f }
/-- Session `i`. -/
def State.session (s : State) (i : Nat) : Session := tgetD s.sessions {} i
/-- Changes session `i`. -/
def State.updSession (s : State) (i : Nat) (f : Session → Session) : State := { s with sessions := tupd s.sessions {} i f }
/-- Queue pair `q`. -/
def State.qp (s : State) (q : Nat) : Qp := tgetD s.qps {} q
/-- Changes queue pair `q`. -/
def State.updQp (s : State) (q : Nat) (f : Qp → Qp) : State := { s with qps := tupd s.qps {} q f }
/-- Agent `a`, where one is registered: 0 to 63 remote, 64 + p the line cache of paddock `p` (14 R325). -/
def State.agent? (s : State) (a : Nat) : Option Agent := tget? s.agents a
/-- Changes agent `a`, where one is registered. -/
def State.updAgent (s : State) (a : Nat) (f : Agent → Agent) : State :=
  match tget? s.agents a with
  | some x => { s with agents := tput s.agents a (f x) }
  | none => s
/-- Port `q` by its port index (11 R247). -/
def State.port (s : State) (q : Nat) : Port := tgetD s.ports {} q
/-- Changes port `q`. -/
def State.updPort (s : State) (q : Nat) (f : Port → Port) : State := { s with ports := tupd s.ports {} q f }
/-- Quad `k`. -/
def State.quad (s : State) (k : Nat) : Quad := tgetD s.quads {} k
/-- Changes quad `k`. -/
def State.updQuad (s : State) (k : Nat) (f : Quad → Quad) : State := { s with quads := tupd s.quads {} k f }
/-- Class `c` of a port. -/
def Port.cls (q : Port) (c : Nat) : PortClass := tgetD q.classes {} c
/-- Changes class `c` of a port. -/
def Port.updCls (q : Port) (c : Nat) (f : PortClass → PortClass) : Port := { q with classes := tupd q.classes {} c f }
/-- The PTP measurement of port `q`. -/
def State.ptpPort (s : State) (q : Nat) : PtpPort := tgetD s.ptp {} q
/-- Changes the PTP measurement of port `q`. -/
def State.updPtp (s : State) (q : Nat) (f : PtpPort → PtpPort) : State := { s with ptp := tupd s.ptp {} q f }
/-- Trace stream `n`. -/
def State.stream (s : State) (n : Nat) : Stream := tgetD s.streams {} n
/-- Changes trace stream `n`. -/
def State.updStream (s : State) (n : Nat) (f : Stream → Stream) : State := { s with streams := tupd s.streams {} n f }
/-- Changes the always-on domain. -/
def State.updAon (s : State) (f : Aon → Aon) : State := { s with aon := f s.aon }
/-- Changes the device-wide registers. -/
def State.updDev (s : State) (f : Dev → Dev) : State := { s with dev := f s.dev }
/-- Changes flash. -/
def State.updFlash (s : State) (f : Flash → Flash) : State := { s with flash := f s.flash }
/-- Changes the cluster clock. -/
def State.updClock (s : State) (f : Clock → Clock) : State := { s with clock := f s.clock }
/-- Adds to one of the device counts. -/
def State.addCount (s : State) (i n : Nat) : State := { s with counts := tupd s.counts 0 i (· + n) }

/-- DEVICE_ID (00 R3). -/
def State.deviceId (s : State) : Nat :=
  match s.build with
  | .h4 => 0x00B41600
  | .h3 => 0x00B31600

/-- Folds a function over the keys of a table. -/
def foldKeys {σ : Type} (ks : List Nat) (s : σ) (f : σ → Nat → σ) : σ := ks.foldl f s

end Sys2Proof.Machine
end

