-- ==== Sys2Proof/Machine/Float.lean ====
section
/-!
DEFINITION. FP32 arithmetic (05 R108, R112 to R120): exact values as integers times powers of two, one rounding at the
end. exp2 and log2 are computed in fixed point far beyond the precision of the result (log entry 14).
-/

namespace Sys2Proof.Machine

open Sys2Proof

/-- An exact value: NaN, an infinity, or a signed integer times a power of two. -/
inductive Fv where
  | nan
  | inf (neg : Bool)
  | fin (neg : Bool) (m : Nat) (e : Int)
deriving DecidableEq, Repr

/-- `n / 2^sh` to the nearest integer, ties to even (05 R113). -/
def rneShift (n sh : Nat) : Nat :=
  let q := n / 2 ^ sh
  let r := 2 * (n % 2 ^ sh)
  if r > 2 ^ sh || (r == 2 ^ sh && q % 2 == 1) then q + 1 else q

/-- `n / 2^sh` rounded by the draw `z` (05 R129). -/
def srShift (z : Nat) (n sh : Nat) : Nat :=
  let q := n / 2 ^ sh
  let r := n % 2 ^ sh
  if z < r * 2 ^ 32 / 2 ^ sh then q + 1 else q

/-- `n × 2^e` as `m × 2^q`, with at most `p` significant bits and `q` at least `qmin`, by a rounding of shifts. -/
def quantize (round : Nat → Nat → Nat) (p : Nat) (qmin : Int) (n : Nat) (e : Int) : Nat × Int :=
  let q := max (e + (n.log2 + 1 : Nat) - p) qmin
  if q ≤ e then (n * 2 ^ (e - q).toNat, q) else (round n (q - e).toNat, q)

/-- The sign bit of an FP32. -/
def signBit (neg : Bool) : F32 := if neg then 0x80000000 else 0

/-- The canonical NaN (05 R112, R117, R118). -/
def canonNan : F32 := 0x7FC00000

/-- An infinity. -/
def infBits (neg : Bool) : F32 := signBit neg ||| 0x7F800000

/-- The FP32 nearest to a value, ties to even; subnormals kept (05 R118). -/
def toF32 : Fv → F32
  | .nan => canonNan
  | .inf neg => infBits neg
  | .fin neg n e =>
    if n = 0 then signBit neg else
    let (m, q) := quantize rneShift 24 (-149) n e
    let (m, q) := if m = 2 ^ 24 then (2 ^ 23, q + 1) else (m, q)
    if m < 2 ^ 23 then signBit neg ||| BitVec.ofNat 32 m
    else if q ≥ 105 then infBits neg
    else signBit neg ||| BitVec.ofNat 32 ((q + 150).toNat * 2 ^ 23 + (m - 2 ^ 23))

/-- The exact value of an FP32. -/
def ofF32 (x : F32) : Fv :=
  let neg := x.msb
  let ex : Nat := x.toNat / 2 ^ 23 % 256
  let m : Nat := x.toNat % 2 ^ 23
  if ex = 255 then (if m = 0 then .inf neg else .nan)
  else if ex = 0 then .fin neg m (-149)
  else .fin neg (2 ^ 23 + m) ((ex : Int) - 150)

/-- The signed integer of a finite value at the exponent `e0`, which is not above its own. -/
def atExp (neg : Bool) (m : Nat) (e e0 : Int) : Int :=
  let v : Int := ((m * 2 ^ (e - e0).toNat : Nat) : Int)
  if neg then -v else v

/-- The exact sum; an exact zero is +0 unless both are −0. -/
def addFv : Fv → Fv → Fv
  | .nan, _ => .nan
  | _, .nan => .nan
  | .inf a, .inf b => if a = b then .inf a else .nan
  | .inf a, _ => .inf a
  | _, .inf b => .inf b
  | .fin a m e, .fin b n f =>
    let e0 := min e f
    let v := atExp a m e e0 + atExp b n f e0
    if v = 0 then .fin (a && b && m = 0 && n = 0) 0 0 else .fin (v < 0) v.natAbs e0

/-- The exact product. DESIGN CHOICE: a product of zero has the sign of the two signs, with an integer or MXINT8 element too (log entry
125). -/
def mulFv : Fv → Fv → Fv
  | .nan, _ => .nan
  | _, .nan => .nan
  | .inf a, .inf b => .inf (a != b)
  | .inf a, .fin b n _ => if n = 0 then .nan else .inf (a != b)
  | .fin a m _, .inf b => if m = 0 then .nan else .inf (a != b)
  | .fin a m e, .fin b n f => .fin (a != b) (m * n) (e + f)

/-- The negation. -/
def negF (x : F32) : F32 := x ^^^ 0x80000000

/-- VADD (05 R118). -/
def addF (x y : F32) : F32 := toF32 (addFv (ofF32 x) (ofF32 y))
/-- VSUB (05 R118). -/
def subF (x y : F32) : F32 := addF x (negF y)
/-- VMUL (05 R118). -/
def mulF (x y : F32) : F32 := toF32 (mulFv (ofF32 x) (ofF32 y))
/-- VFMA: x × y + z, rounded once (05 R118). -/
def fmaF (x y z : F32) : F32 := toF32 (addFv (mulFv (ofF32 x) (ofF32 y)) (ofF32 z))

/-- The order of VMAX: −0 below +0, no NaN (05 R118). -/
def ltF (x y : F32) : Bool :=
  let key (v : F32) : Int := if v.msb then -(Int.ofNat (v.toNat % 2 ^ 31)) - 1 else Int.ofNat v.toNat
  key x < key y

/-- The value is a NaN. -/
def isNanF (x : F32) : Bool := x.toNat % 2 ^ 31 > 0x7F800000

/-- VMAX (05 R118). -/
def maxF (x y : F32) : F32 :=
  match isNanF x, isNanF y with
  | true, true => canonNan
  | true, false => y
  | false, true => x
  | false, false => if ltF x y then y else x

/-- VMIN (05 R118). -/
def minF (x y : F32) : F32 :=
  match isNanF x, isNanF y with
  | true, true => canonNan
  | true, false => y
  | false, true => x
  | false, false => if ltF y x then y else x

/-- Prism's treatment of a result: a subnormal becomes a zero of its sign (05 R117). -/
def flushF (x : F32) : F32 := if x.toNat / 2 ^ 23 % 256 = 0 then x &&& 0x80000000 else x

/-- Prism's add (05 R116, R117). -/
def addP (x y : F32) : F32 := flushF (addF (flushF x) (flushF y))
/-- Prism's product of a weight and a query element, and its scaling (05 R115, R117). -/
def mulP (x y : F32) : F32 := flushF (mulF x y)

/-- Sums of neighbours. -/
def pairUp (f : F32 → F32 → F32) : List F32 → List F32
  | x :: y :: r => f x y :: pairUp f r
  | l => l

/-- `k` levels of the pairwise order (05 R116, R119). -/
def pairLevels (f : F32 → F32 → F32) : Nat → List F32 → List F32
  | 0, l => l
  | k + 1, l => pairLevels f k (pairUp f l)

/-- VREDSUM over 512 lanes (05 R119). -/
def redSum (l : List F32) : F32 := (pairLevels addF 9 l).headD 0
/-- VREDMAX over 512 lanes (05 R119). -/
def redMax (l : List F32) : F32 := (pairLevels maxF 9 l).headD 0

/-! ### Special functions (05 R120) -/

/-- The fixed-point precision of the special functions, in bits. -/
def fixP : Nat := 256

/-- ln 2 in units of 2^−256. -/
def ln2Fix : Nat := 80260960185991308862233904206310070533990667611589946606122867505419956976171

/-- Terms y^k / k! from the term `t` for k, `n` of them, in fixed point. -/
def expTerms (y : Nat) : Nat → Nat → Nat → Nat
  | 0, _, _ => 0
  | n + 1, k, t => t + expTerms y n (k + 1) (t * y / 2 ^ fixP / (k + 1))

/-- 2^f for the fraction f = n / 2^256, in fixed point. -/
def exp2Fix (n : Nat) : Nat := expTerms (n * ln2Fix / 2 ^ fixP) 64 0 (2 ^ fixP)

/-- A result known to be inexact: below the last computed bit stands a nonzero rest. -/
def sticky (neg : Bool) (m : Nat) (e : Int) : Fv := .fin neg (2 * m + 1) (e - 1)

/-- VEXP2 (05 R120). -/
def exp2F (x : F32) : F32 :=
  match ofF32 x with
  | .nan => canonNan
  | .inf neg => if neg then 0 else infBits false
  | .fin neg m e =>
    if m = 0 then 0x3F800000
    else if (m.log2 : Int) + e ≥ 8 then (if neg then 0 else infBits false)
    else
      let w := e + fixP
      let n : Int := if neg then -(m : Int) else m
      let v := if w ≥ 0 then n * (2 ^ w.toNat : Nat) else n / (2 ^ (-w).toNat : Nat)
      let i := v / (2 ^ fixP : Nat)
      if e ≥ 0 || m % 2 ^ (-e).toNat == 0 then toF32 (.fin false 1 i)
      else toF32 (sticky false (exp2Fix (v % (2 ^ fixP : Nat)).toNat) (i - fixP))

/-- Terms z^(2k+1) / (2k+1), `n` of them, with `t` the odd power that comes next and `z2` the square of z. -/
def atanhTerms (z2 : Nat) : Nat → Nat → Nat → Nat
  | 0, _, _ => 0
  | n + 1, d, t => t / d + atanhTerms z2 n (d + 2) (t * z2 / 2 ^ fixP)

/-- log2 of m / 2^k in [1, 2), in fixed point. -/
def log2Fix (m k : Nat) : Nat :=
  let z := (m - 2 ^ k) * 2 ^ fixP / (m + 2 ^ k)
  2 * atanhTerms (z * z / 2 ^ fixP) 90 1 z * 2 ^ fixP / ln2Fix

/-- VLOG2 (05 R120). -/
def log2F (x : F32) : F32 :=
  match ofF32 x with
  | .nan => canonNan
  | .inf neg => if neg then canonNan else infBits false
  | .fin neg m e =>
    if m = 0 then infBits true
    else if neg then canonNan
    else
      let k := m.log2
      let i : Int := e + k
      if m = 2 ^ k then toF32 (.fin (i < 0) i.natAbs 0)
      else
        let v := i * (2 ^ fixP : Nat) + (log2Fix m k : Nat)
        if v < 0 then toF32 (sticky true (v.natAbs - 1) (-(fixP : Int))) else toF32 (sticky false v.natAbs (-(fixP : Int)))

/-- VRCP (05 R120). -/
def rcpF (x : F32) : F32 :=
  match ofF32 x with
  | .nan => canonNan
  | .inf neg => signBit neg
  | .fin neg m e =>
    if m = 0 then infBits neg
    else
      let q := 2 ^ 80 / m
      toF32 (if 2 ^ 80 % m = 0 then .fin neg q (-e - 80) else sticky neg q (-e - 80))

/-- The integer square root, one bit at a time from bit `b − 1`. -/
def isqrtFrom (n : Nat) : Nat → Nat → Nat
  | 0, r => r
  | b + 1, r => let t := r + 2 ^ b; isqrtFrom n b (if t * t ≤ n then t else r)

/-- VRSQRT (05 R120). -/
def rsqrtF (x : F32) : F32 :=
  match ofF32 x with
  | .nan => canonNan
  | .inf neg => if neg then canonNan else 0
  | .fin neg m e =>
    if m = 0 then infBits neg
    else if neg then canonNan
    else
      let (m, e) := if e % 2 = 0 then (m, e) else (2 * m, e - 1)
      let y := 2 ^ 160 / m
      let r := isqrtFrom y 80 0
      toF32 (if r * r * m = 2 ^ 160 then .fin false r (-e / 2 - 80) else sticky false r (-e / 2 - 80))

/-- VSIGM (05 R120). -/
def sigmF (x : F32) : F32 := rcpF (addF 0x3F800000 (exp2F (mulF (negF x) 0x3FB8AA3B)))
/-- VSILU (05 R120). -/
def siluF (x : F32) : F32 := mulF x (sigmF x)

end Sys2Proof.Machine
end

