-- ==== Sys2Proof/Machine/Formats.lean ====
section
/-!
DEFINITION. The format codes, their elements, conversions to and from FP32, seeded stochastic rounding, the Prism tree
and KVC4 (05 R107 to R129).
-/

namespace Sys2Proof.Machine

open Sys2Proof

/-- Bits of an element of a format code; 0 where the code is reserved or names no element (05 R107). -/
def fmtBits : Nat → Nat
  | 0x0 | 0x1 | 0x2 | 0x3 | 0x7 | 0x8 => 8
  | 0x4 | 0x5 => 6
  | 0x6 | 0x9 | 0xC => 4
  | 0xA | 0xB => 16
  | 0xE | 0xF => 32
  | _ => 0

/-- The formats with block scales (05 R107, R114). -/
def fmtScaled (f : Nat) : Bool := 2 ≤ f && f ≤ 7
/-- Prism weight formats (05 R107). -/
def fmtWeight (f : Nat) : Bool := f ≤ 0xB
/-- Query-row formats (05 R107). -/
def fmtQuery (f : Nat) : Bool := [0x0, 0x1, 0x8, 0xA, 0xB].contains f
/-- The formats of VLD and VST (05 R107). -/
def fmtVector (f : Nat) : Bool := [0x0, 0x1, 0x8, 0xA, 0xB, 0xE, 0xF].contains f
/-- The formats of VMOVQ (05 R107). -/
def fmtVmovq (f : Nat) : Bool := [0x0, 0x1, 0x8, 0xA, 0xB].contains f
/-- The formats of Lens keys and values (05 R107). -/
def fmtLens (f : Nat) : Bool := [0x0, 0x1, 0xA, 0xB, 0xC].contains f

/-- The exact value of a floating-point code with `eb` exponent bits, `mb` mantissa bits and a bias, all codes finite. -/
def smallFloat (eb mb : Nat) (bias : Int) (c : Nat) : Fv :=
  let neg := bit c (eb + mb)
  let ex := c / 2 ^ mb % 2 ^ eb
  let m := c % 2 ^ mb
  if ex = 0 then .fin neg m (1 - bias - mb) else .fin neg (2 ^ mb + m) (ex - bias - mb)

/-- As `smallFloat`, with the top exponent field for infinities and NaNs. -/
def ieeeFloat (eb mb : Nat) (bias : Int) (c : Nat) : Fv :=
  if c / 2 ^ mb % 2 ^ eb = 2 ^ eb - 1 then (if c % 2 ^ mb = 0 then .inf (bit c (eb + mb)) else .nan)
  else smallFloat eb mb bias c

/-- An integer times a power of two. -/
def intFv (i : Int) (e : Int) : Fv := .fin (i < 0) i.natAbs e

/-- The exact value of an element code, without a block scale (05 R108, R109). -/
def elemFv (fmt c : Nat) : Fv :=
  match fmt with
  | 0x0 | 0x2 => if c % 128 = 0x7F then .nan else smallFloat 4 3 7 c
  | 0x1 | 0x3 => ieeeFloat 5 2 15 c
  | 0x4 => smallFloat 3 2 3 c
  | 0x5 => smallFloat 2 3 1 c
  | 0x6 | 0xC => smallFloat 2 1 1 c
  | 0x7 => intFv (signed c 8) (-6)
  | 0x8 => intFv (signed c 8) 0
  | 0x9 => intFv (signed c 4) 0
  | 0xA => ieeeFloat 8 7 127 c
  | 0xB => ieeeFloat 5 10 15 c
  | 0xE => intFv (signed c 32) 0
  | 0xF => ofF32 (BitVec.ofNat 32 c)
  | _ => .nan

/-- The FP32 of an element code (05 R112). -/
def elemF (fmt c : Nat) : F32 := toF32 (elemFv fmt c)

/-- The FP32 of an E8M0 scale (05 R109); 2^−127 is subnormal and kept exact here. -/
def scaleFv (c : Nat) : Fv := if c = 0xFF then .nan else .fin false 1 ((c : Int) - 127)

/-- The code of element `i` in a row's bytes (05 R110). -/
def elemCode (bits : Nat) (row : Bytes) (i : Nat) : Nat :=
  match bits with
  | 4 => (row.getD (i / 2) 0).toNat / 16 ^ (i % 2) % 16
  | 6 => field row (3 * (i / 4)) 3 / 2 ^ (6 * (i % 4)) % 64
  | b => field row (b / 8 * i) (b / 8)

/-- `n` elements of a row as FP32. -/
def rowF (fmt : Nat) (row : Bytes) (n : Nat) : List F32 :=
  (List.range n).map (fun i => elemF fmt (elemCode (fmtBits fmt) row i))

/-- A rounding to a narrow floating-point code: mantissa bits, exponent of the subnormals' last place, largest finite
value as an integer and exponent, the code of the largest finite value, and that of a result beyond it (05 R113). DESIGN CHOICE: a
stochastic rounding beyond the largest finite value goes between the steps of an unbounded exponent (log entry 125). -/
def narrow (round : Nat → Nat → Nat) (mb : Nat) (qmin : Int) (maxM : Nat) (maxQ : Int) (signAt beyond : Nat) (neg : Bool)
    (m : Nat) (e : Int) : Nat :=
  let s := b2n neg signAt
  if m = 0 then s else
  let (r, q) := quantize round (mb + 1) qmin m e
  let (r, q) := if r = 2 ^ (mb + 1) then (2 ^ mb, q + 1) else (r, q)
  if q > maxQ || (q == maxQ && r > maxM) then s + beyond
  else if r < 2 ^ mb then s + r
  else s + (q - qmin + 1).toNat * 2 ^ mb + (r - 2 ^ mb)

/-- A value rounded to an integer of `k` bits, saturated (05 R113). -/
def narrowInt (round : Nat → Nat → Nat) (k : Nat) (neg : Bool) (m : Nat) (e : Int) : Nat :=
  let (r, q) := quantize round (m.log2 + 400) 0 m e
  let v : Int := (r * 2 ^ q.toNat : Nat)
  let v := if neg then -v else v
  unsigned (max (-(2 ^ (k - 1) : Nat)) (min v ((2 ^ (k - 1) : Nat) - 1))) k

/-- An FP32 in a target format (05 R113). -/
def toElem (round : Nat → Nat → Nat) (fmt : Nat) (x : F32) : Nat :=
  match fmt, ofF32 x with
  | 0x0, .nan => 0x7F
  | 0x0, .inf n => b2n n 7 + 0x7E
  | 0x0, .fin n m e => narrow round 3 (-9) 14 5 7 0x7E n m e
  | 0x1, .nan => 0x7F
  | 0x1, .inf n => b2n n 7 + 0x7C
  | 0x1, .fin n m e => narrow round 2 (-16) 7 13 7 0x7B n m e
  | 0x6, .fin n m e => narrow round 1 (-1) 3 1 3 0x7 n m e
  | 0x6, _ => 0
  | 0xA, .nan => 0x7FC0
  | 0xA, .inf n => b2n n 15 + 0x7F80
  | 0xA, .fin n m e => narrow round 7 (-133) 255 120 15 0x7F80 n m e
  | 0xB, .nan => 0x7E00
  | 0xB, .inf n => b2n n 15 + 0x7C00
  | 0xB, .fin n m e => narrow round 10 (-24) 2047 5 15 0x7C00 n m e
  | 0x8, .nan => 0
  | 0x8, .inf n => if n then 0x80 else 0x7F
  | 0x8, .fin n m e => narrowInt round 8 n m e
  | 0xE, .nan => 0
  | 0xE, .inf n => if n then 0x80000000 else 0x7FFFFFFF
  | 0xE, .fin n m e => narrowInt round 32 n m e
  | _, .nan => canonNan.toNat
  | _, _ => x.toNat

/-- The draw of seeded stochastic rounding (05 R127). -/
def srWord (key : BitVec 64) (p n j : Nat) : Nat :=
  let w := key ^^^ BitVec.ofNat 64 (p * 2 ^ 60) ^^^ BitVec.ofNat 64 (n % 2 ^ 47 * 2 ^ 13) ^^^ BitVec.ofNat 64 j
  let w := w + 0x9E3779B97F4A7C15
  let w := (w ^^^ (w >>> 30)) * 0xBF58476D1CE4E5B9
  let w := (w ^^^ (w >>> 27)) * 0x94D049BB133111EB
  let w := w ^^^ (w >>> 31)
  w.toNat / 2 ^ 32

/-- The bytes of codes of one width, in the placement of 05 R110 (4 bits, or whole bytes). -/
def packElems (bits : Nat) (cs : List Nat) : Bytes :=
  match bits with
  | 4 => (List.range ((cs.length + 1) / 2)).map (fun i => BitVec.ofNat 8 (cs.getD (2 * i) 0 % 16 + 16 * (cs.getD (2 * i + 1) 0 % 16)))
  | b => cs.flatMap (fun c => natLe c (b / 8))

/-- Scales the nodes at level 5: node `b` by its block's scale, where its block lies below K (05 R116, R117). -/
def scaleNodes (scales : List Nat) (first blocks : Nat) (l : List F32) : List F32 :=
  l.zipIdx.map (fun x => if first + x.2 < blocks then flushF (toF32 (mulFv (ofF32 x.1) (scaleFv (scales.getD (first + x.2) 0)))) else x.1)

/-- The tree of 05 R116 over 2^`levels` lanes: five levels, the block scales where the format has them, the rest. -/
def prismTree (levels : Nat) (scaled : Bool) (scales : List Nat) (first blocks : Nat) (l : List F32) : F32 :=
  let at5 := pairLevels addP (min 5 levels) l
  let at5 := if scaled && 5 ≤ levels then scaleNodes scales first blocks at5 else at5
  (pairLevels addP (levels - 5) at5).headD 0

/-- Products of weights and query elements, filled with +0 to a number of lanes (05 R115, R116). -/
def products (lanes : Nat) (w x : List F32) : List F32 :=
  let p := List.zipWith mulP w x
  p ++ List.replicate (lanes - p.length) 0

/-- The largest magnitude of a block as an exact value; none where an element is NaN or infinite (05 R124). -/
def maxMag : List F32 → Option F32
  | [] => some 0
  | x :: r =>
    match maxMag r with
    | none => none
    | some m =>
      let a := x &&& 0x7FFFFFFF
      if a.toNat ≥ 0x7F800000 then none else some (if m.toNat < a.toNat then a else m)

/-- The E8M0 scale of a block by its largest magnitude, not zero (05 R124). -/
def kvcScale (m : F32) : Nat :=
  match ofF32 m with
  | .fin _ n e => ((n.log2 : Int) + e - 2 + 127).toNat
  | _ => 0xFF

/-- A block of residuals: its scale and its FP4 codes; `round j` is the rounding of the block's element `j` (05 R124). -/
def kvcBlock (round : Nat → Nat → Nat → Nat) (r : List F32) : Nat × List Nat :=
  match maxMag r with
  | none => (0xFF, r.map (fun _ => 0))
  | some m =>
    if m = 0 then (0, r.map (fun _ => 0))
    else
      let s := kvcScale m
      (s, r.zipIdx.map (fun x =>
        match ofF32 x.1 with
        | .fin n a e => narrow (round x.2) 1 (-1) 3 1 3 0x7 n a (e + 127 - s)
        | _ => 0))

end Sys2Proof.Machine
end

