-- ==== Sys2Proof/Machine/Operands.lean ====
section
/-!
DEFINITION. Bundles and their slots: the field layout, the opcode tables with the fields that each operation uses, the check
of a bundle at load, and mover descriptors (04 R80 to R83, R88 to R90, R96, R97, R100, R448).
-/

namespace Sys2Proof.Machine

open Sys2Proof

/-- The fields of a slot (04 R81). -/
structure Slot where
  op : Nat
  pred : Nat
  pneg : Bool
  res : Nat
  d : Nat
  a : Nat
  b : Nat
  c : Nat
  x : Nat
  imm : Nat
  imm2 : Nat
deriving DecidableEq, Repr

/-- Bits [lo + n − 1 : lo] of a number. -/
def bitsAt (w lo n : Nat) : Nat := w / 2 ^ lo % 2 ^ n

/-- The slot of a 128-bit value (04 R81). -/
def slotOf (w : Nat) : Slot :=
  { op := bitsAt w 0 8, pred := bitsAt w 8 3, pneg := bit w 11, res := bitsAt w 12 4, d := bitsAt w 16 8, a := bitsAt w 24 8, b := bitsAt w 32 8
    c := bitsAt w 40 8, x := bitsAt w 48 16, imm := bitsAt w 64 32, imm2 := bitsAt w 96 32 }

/-- Slot `k` of a bundle (04 R80). -/
def bundleSlot (w : BitVec 512) (k : Nat) : Slot := slotOf (bitsAt w.toNat (128 * k) 128)

/-- The fields of a slot fit their widths (04 R81). -/
def Slot.wf (x : Slot) : Bool :=
  x.op < 256 && x.pred < 8 && x.res < 16 && x.d < 256 && x.a < 256 && x.b < 256 && x.c < 256 && x.x < 65536 && x.imm < 2 ^ 32 && x.imm2 < 2 ^ 32

/-- The 128-bit value of a slot (04 R81). -/
def Slot.word (x : Slot) : Nat :=
  x.op + x.pred * 2 ^ 8 + b2n x.pneg 11 + x.res * 2 ^ 12 + x.d * 2 ^ 16 + x.a * 2 ^ 24 + x.b * 2 ^ 32 + x.c * 2 ^ 40 + x.x * 2 ^ 48
    + x.imm * 2 ^ 64 + x.imm2 * 2 ^ 96

/-- The bundle of four slots (04 R80). -/
def bundleOf (x0 x1 x2 x3 : Slot) : BitVec 512 :=
  BitVec.ofNat 512 (x0.word + x1.word * 2 ^ 128 + x2.word * 2 ^ 256 + x3.word * 2 ^ 384)

/-- IMM as a signed value. -/
def Slot.simm (x : Slot) : Int := signed x.imm 32

/-- The operations of the four slots (04 R88, R89, R96, R100). -/
inductive Op where
  | nop
  | halt | br | loop | add | addi | sub | mul | and | or | xor | shl | shr | sra | li | lih | cmp | cmpi | plog
  | aset | aadd | aaddi | aget | lds | sts | mvstat | waitTime | waitSync | waitMover | waitUnit | signal | syncReset | done
  | ovl | ovlWait | trace
  | mvIssue | mvIssuex
  | prQload | prPass | prLens | prClr
  | vld | vst | vacc | vaccw | vmovq | vadd | vsub | vmul | vfma | vmax | vmin | vbcast | vseti | vredsum | vredmax
  | vexp2 | vlog2 | vrcp | vrsqrt | vsilu | vsigm | vrope | vtopk
deriving DecidableEq, Repr

/-- Control opcodes (04 R88). -/
def ctrlOp : Nat → Option Op
  | 0x00 => some .nop | 0x01 => some .halt | 0x02 => some .br | 0x03 => some .loop
  | 0x08 => some .add | 0x09 => some .addi | 0x0A => some .sub | 0x0B => some .mul | 0x0C => some .and | 0x0D => some .or
  | 0x0E => some .xor | 0x0F => some .shl | 0x10 => some .shr | 0x11 => some .sra | 0x12 => some .li | 0x13 => some .lih
  | 0x18 => some .cmp | 0x19 => some .cmpi | 0x1A => some .plog
  | 0x20 => some .aset | 0x21 => some .aadd | 0x22 => some .aaddi | 0x23 => some .aget | 0x24 => some .lds | 0x25 => some .sts
  | 0x26 => some .mvstat
  | 0x30 => some .waitTime | 0x31 => some .waitSync | 0x32 => some .waitMover | 0x33 => some .waitUnit | 0x34 => some .signal
  | 0x35 => some .syncReset | 0x36 => some .done | 0x38 => some .ovl | 0x39 => some .ovlWait | 0x3A => some .trace
  | _ => none

/-- Mover opcodes (04 R89). -/
def moverOp : Nat → Option Op
  | 0x00 => some .nop | 0x01 => some .mvIssue | 0x02 => some .mvIssuex
  | _ => none

/-- Prism opcodes (04 R96). -/
def prismOp : Nat → Option Op
  | 0x00 => some .nop | 0x01 => some .prQload | 0x02 => some .prPass | 0x03 => some .prLens | 0x04 => some .prClr
  | _ => none

/-- Vector opcodes (04 R100). -/
def vectorOp : Nat → Option Op
  | 0x00 => some .nop | 0x01 => some .vld | 0x02 => some .vst | 0x03 => some .vacc | 0x04 => some .vaccw | 0x05 => some .vmovq
  | 0x08 => some .vadd | 0x09 => some .vsub | 0x0A => some .vmul | 0x0B => some .vfma | 0x0C => some .vmax | 0x0D => some .vmin
  | 0x0E => some .vbcast | 0x0F => some .vseti | 0x14 => some .vredsum | 0x15 => some .vredmax
  | 0x18 => some .vexp2 | 0x19 => some .vlog2 | 0x1A => some .vrcp | 0x1B => some .vrsqrt | 0x1C => some .vsilu | 0x1D => some .vsigm
  | 0x20 => some .vrope | 0x21 => some .vtopk
  | _ => none

/-- The operation of a slot's opcode. -/
def opOf : Nat → Nat → Option Op
  | 0, c => ctrlOp c
  | 1, c => moverOp c
  | 2, c => prismOp c
  | _, c => vectorOp c

/-- The register files (04 R84), and the movers. -/
inductive RegFile where
  | s | a | v | q | p | m
deriving DecidableEq, Repr

/-- Registers of a file. -/
def RegFile.size : RegFile → Nat
  | .s => 64 | .a => 32 | .v => 32 | .q => 16 | .p => 8 | .m => 4

/-- The fields that an operation may name. -/
inductive Fld where
  | d | a | b | c | x | imm | imm2
deriving DecidableEq, Repr

/-- The value of a field. -/
def Slot.get (x : Slot) : Fld → Nat
  | .d => x.d | .a => x.a | .b => x.b | .c => x.c | .x => x.x | .imm => x.imm | .imm2 => x.imm2

/-- What an operation does with a field: a value, a register read, written, or read and written. -/
inductive Use where
  | val
  | rd (f : RegFile)
  | wr (f : RegFile)
  | rw (f : RegFile)
deriving DecidableEq, Repr

/-- sD := sA op sB. -/
def usesAlu : List (Fld × Use) := [(.d, .wr .s), (.a, .rd .s), (.b, .rd .s)]
/-- vD := vA op vB. -/
def usesV2 : List (Fld × Use) := [(.d, .wr .v), (.a, .rd .v), (.b, .rd .v)]
/-- vD := op vA. -/
def usesV1 : List (Fld × Use) := [(.d, .wr .v), (.a, .rd .v)]

/-- The fields of each operation, in the tables' order (04 R88, R89, R96, R100). -/
def Op.uses : Op → List (Fld × Use)
  | .nop | .halt | .ovlWait => []
  | .br => [(.imm, .val)]
  | .loop => [(.a, .rd .s), (.c, .val), (.imm, .val), (.imm2, .val)]
  | .add | .sub | .mul | .and | .or | .xor | .shl | .shr | .sra => usesAlu
  | .addi => [(.d, .wr .s), (.a, .rd .s), (.imm, .val)]
  | .li => [(.d, .wr .s), (.imm, .val)]
  | .lih => [(.d, .rw .s), (.imm, .val)]
  | .cmp => [(.d, .wr .p), (.a, .rd .s), (.b, .rd .s), (.c, .val)]
  | .cmpi => [(.d, .wr .p), (.a, .rd .s), (.c, .val), (.imm, .val)]
  | .plog => [(.d, .wr .p), (.a, .rd .p), (.b, .rd .p), (.c, .val)]
  | .aset => [(.d, .wr .a), (.a, .rd .s), (.c, .val)]
  | .aadd => [(.d, .wr .a), (.a, .rd .a), (.b, .rd .s)]
  | .aaddi => [(.d, .wr .a), (.a, .rd .a), (.imm, .val)]
  | .aget => [(.d, .wr .s), (.a, .rd .a)]
  | .lds => [(.d, .wr .s), (.a, .rd .a), (.imm, .val)]
  | .sts => [(.a, .rd .a), (.b, .rd .s), (.imm, .val)]
  | .mvstat => [(.d, .wr .s), (.a, .rd .m)]
  | .waitTime | .syncReset | .done => [(.x, .val)]
  | .waitSync => [(.x, .val), (.a, .rd .s), (.c, .val), (.imm, .val)]
  | .waitMover => [(.a, .rd .m), (.imm, .val)]
  | .waitUnit => [(.c, .val)]
  | .signal => [(.x, .val), (.imm, .val)]
  | .ovl => [(.x, .val), (.imm, .val), (.imm2, .val)]
  | .trace => [(.x, .val), (.a, .rd .s)]
  | .mvIssue => [(.d, .rd .m), (.a, .rd .a)]
  | .mvIssuex => [(.d, .rd .m), (.a, .rd .a), (.b, .rd .a), (.c, .rd .a)]
  | .prQload => [(.d, .rw .q), (.a, .rd .a), (.c, .val), (.imm, .val), (.imm2, .val)]
  | .prPass => [(.d, .rd .m), (.a, .rd .q), (.b, .val), (.c, .val), (.x, .val), (.imm, .val), (.imm2, .val)]
  | .prLens => [(.a, .rd .a)]
  | .prClr => [(.x, .val), (.imm, .val)]
  | .vld => [(.d, .wr .v), (.a, .rd .a), (.c, .val), (.imm, .val)]
  | .vst => [(.a, .rd .a), (.b, .rd .v), (.c, .val), (.d, .val), (.imm, .val)]
  | .vacc => [(.d, .wr .v), (.x, .val)]
  | .vaccw => [(.a, .rd .v), (.x, .val)]
  | .vmovq => [(.d, .rw .q), (.a, .rd .v), (.b, .val), (.c, .val), (.imm, .val)]
  | .vadd | .vsub | .vmul | .vmax | .vmin => usesV2
  | .vfma | .vrope => [(.d, .wr .v), (.a, .rd .v), (.b, .rd .v), (.c, .rd .v)]
  | .vbcast => [(.d, .wr .v), (.a, .rd .s)]
  | .vseti => [(.d, .wr .v), (.imm, .val)]
  | .vredsum | .vredmax => [(.d, .wr .s), (.a, .rd .v)]
  | .vexp2 | .vlog2 | .vrcp | .vrsqrt | .vsilu | .vsigm => usesV1
  | .vtopk => [(.d, .rw .v), (.a, .rd .v), (.b, .rd .s), (.c, .val)]

/-- A field that names no register in this use: A of LOOP and WAIT_SYNC with C = 0, and 0xFF in MV.ISSUEX (04 R88, R89). -/
def Op.noReg (o : Op) (x : Slot) (f : Fld) : Bool :=
  match o, f with
  | .loop, .a | .waitSync, .a => x.c != 1
  | .mvIssuex, .b => x.b == 0xFF
  | .mvIssuex, .c => x.c == 0xFF
  | _, _ => false

/-- The registers that an operation writes. -/
def Op.writes (o : Op) (x : Slot) : List (RegFile × Nat) :=
  o.uses.filterMap (fun u => match u.2 with | .wr f | .rw f => some (f, x.get u.1) | _ => none)

/-- The bytes of an element of an instruction's format. -/
def fmtBytes (f n : Nat) : Nat := fmtBits f * n / 8

/-- The query formats that a weight format accepts (04 R97). -/
def passFormats (w q : Nat) : Bool :=
  match w with
  | 0x0 | 0x1 | 0x2 | 0x3 | 0x4 | 0x5 | 0x6 => q == 0x0 || q == 0x1 || q == 0xA || q == 0xB
  | 0x7 | 0x8 | 0x9 => q == 0x8
  | 0xA | 0xB => q == 0xA || q == 0xB
  | _ => false

/-- The values that an operation accepts (04 R83, R88, R96, R97, R100, R101; 05 R107); `triggers` is the length of the
paddock's trigger table (07 R185). -/
def Op.valuesOk (o : Op) (x : Slot) (triggers : Nat) : Bool :=
  match o with
  | .loop => x.c ≤ 1 && 1 ≤ x.imm && x.imm ≤ 4096
  | .cmp | .cmpi => x.c ≤ 5
  | .plog => x.c ≤ 3
  | .aset | .waitSync => x.c ≤ 1
  | .waitUnit => x.c ≤ 7
  | .waitTime | .done => x.x < triggers
  | .ovl => 1 ≤ x.imm2 && x.imm2 + x.x ≤ 16384
  | .prQload => fmtQuery x.c && x.imm != 0 && x.imm % 32 == 0 && x.imm2 % 32 == 0
  | .prPass =>
    passFormats (x.c % 16) (x.c / 16) && 1 ≤ x.b && x.b ≤ 16 && x.a + x.b ≤ 16 && 1 ≤ x.imm && x.imm ≤ 65536
      && x.imm2 % 65536 != 0 && x.imm2 % 32 == 0 && x.imm2 < 2 ^ 17
  | .vld => fmtVector x.c
  | .vst => fmtVector x.c && x.d ≤ 1
  | .vmovq => fmtVmovq x.c && x.b ≤ 1
  | .vtopk => 1 ≤ x.c && x.c ≤ 64
  | _ => true

/-- Every field of a slot. -/
def allFlds : List Fld := [.d, .a, .b, .c, .x, .imm, .imm2]

/-- One slot passes the load-time check but for what it writes (04 R83). -/
def slotOk (k : Nat) (x : Slot) (triggers : Nat) : Bool :=
  match opOf k x.op with
  | none => false
  | some o =>
    x.res == 0
      && allFlds.all (fun f => x.get f == 0 || o.uses.any (fun u => u.1 == f))
      && o.uses.all (fun u => match u.2 with | .val => true | .rd f | .wr f | .rw f => o.noReg x u.1 || x.get u.1 < f.size)
      && o.valuesOk x triggers

/-- The registers that a bundle's slots write, in slot order. -/
def bundleWrites (w : BitVec 512) : List (RegFile × Nat) :=
  (List.range 4).flatMap (fun k => match opOf k (bundleSlot w k).op with | some o => o.writes (bundleSlot w k) | none => [])

/-- A bundle passes the load-time check (04 R83). -/
def bundleOk (w : BitVec 512) (triggers : Nat) : Bool :=
  (List.range 4).all (fun k => slotOk k (bundleSlot w k) triggers) && !hasDup (bundleWrites w)

/-- An operation of a bundle with its slot. -/
structure Placed where
  op : Op
  x : Slot
deriving DecidableEq, Repr

/-- The operations of a bundle in slot order; an opcode that no loaded image holds counts as a NOP. -/
def bundleOps (w : BitVec 512) : List Placed :=
  (List.range 4).map (fun k => { op := (opOf k (bundleSlot w k).op).getD .nop, x := bundleSlot w k })

/-! ### Mover descriptors (04 R89, R90, R448) -/

/-- The descriptor of 64 bytes (04 R90). -/
def descOf (b : Bytes) : Desc :=
  { kind := field b 0 1, flags := BitVec.ofNat 8 (field b 1 1), step := field b 2 2, length := field b 4 4, rows := field b 8 4, src := field b 12 8
    dst := field b 20 8, srcStride := sfield b 28 8, dstStride := sfield b 36 8, session := BitVec.ofNat 32 (field b 44 4), sync := field b 48 2
    syncAdd := field b 50 2, tgtPaddock := field b 52 1, stashAgent := field b 53 1, tgtSync := field b 54 2, tgtSyncAdd := field b 56 2 }

/-- ON_ERROR. -/
def Desc.onError (d : Desc) : Bool := d.flags.getLsbD 0
/-- CACHED. -/
def Desc.cached (d : Desc) : Bool := d.flags.getLsbD 1
/-- STASH. -/
def Desc.stash (d : Desc) : Bool := d.flags.getLsbD 2
/-- SIGNAL. -/
def Desc.signal (d : Desc) : Bool := d.flags.getLsbD 3

/-- The fields of a descriptor are in range: the DESCRIPTOR fault (04 R90, R102, R448; 07 R185). `triggers` is the length of
the paddock's trigger table. -/
def descOk (b : Bytes) (d : Desc) (triggers : Nat) : Bool :=
  1 ≤ d.kind && d.kind ≤ 9 && d.flags.toNat < 16 && zeroAt b 58 63
    && 1 ≤ d.length && d.length ≤ 2 ^ 30 && 1 ≤ d.rows && d.rows ≤ 65536
    && (d.kind != 6 || d.length ≤ 8192) && (d.kind != 7 || d.length == 8)
    && (!d.signal || d.syncAdd != 0) && (d.step == 0xFFFF || d.step < triggers)
    && (!(d.kind == 5 || d.kind == 6) || d.tgtPaddock < 16)

/-- The source is the paddock's own store. -/
def Desc.fromStore (d : Desc) : Bool := [2, 4, 5, 6, 7, 9].contains d.kind
/-- The destination is a paddock's store: the own one, or that of TGT_PADDOCK. -/
def Desc.toStore (d : Desc) : Bool := [1, 5, 8].contains d.kind
/-- The source is the pool. -/
def Desc.fromPool (d : Desc) : Bool := d.kind == 1 || d.kind == 3
/-- The destination is the pool. -/
def Desc.toPool (d : Desc) : Bool := d.kind == 2

/-- The start of row `r` at a side. -/
def rowStart (base : Nat) (stride : Int) (r : Nat) : Int := (base : Int) + stride * r

/-- Every row of a side lies in [0, limit). -/
def rowsWithin (base : Nat) (stride : Int) (rows len limit : Nat) : Bool :=
  let last := rowStart base stride (rows - 1)
  0 ≤ min (base : Int) last && max (base : Int) last + len ≤ limit

/-- A part of a row of a host move that lies in one 4 KiB host page: the page's number, the row, the offset in it, the bytes. -/
structure HostPiece where
  page : Int
  row : Nat
  off : Nat
  len : Nat
deriving DecidableEq, Repr

/-- The parts of row `r` of a host move, page by page. -/
def Desc.rowPieces (d : Desc) (r : Nat) : List HostPiece :=
  let a := if d.kind = 8 then rowStart d.src d.srcStride r else rowStart d.dst d.dstStride r
  (List.range (((a + d.length - 1) / 4096 - a / 4096).toNat + 1)).map (fun (k : Nat) =>
    let page := a / 4096 + k
    let lo := max a (page * 4096)
    { page := page, row := r, off := (lo - a).toNat, len := (min (a + d.length) (page * 4096 + 4096) - lo).toNat })

/-- The parts of every row of a host move in ascending order of their host pages (04 R94); the parts of one page stand in row
order (DESIGN CHOICE, log entry 120). -/
def Desc.pieces (d : Desc) : List HostPiece :=
  ((List.range d.rows).flatMap d.rowPieces).insertionSort (fun x y => x.page ≤ y.page)

/-- The place of byte `n` of a list of parts: its row, its offset there, and the bytes left in its part. -/
def pieceAt : List HostPiece → Nat → Nat × Nat × Nat
  | [], _ => (0, 0, 0)
  | x :: l, n => if n < x.len then (x.row, x.off + n, x.len - n) else pieceAt l (n - x.len)

/-- The order of a descriptor's rows is that of its addresses; a host move whose rows fall back or overlap goes by host pages
(04 R94). -/
def Desc.byRows (d : Desc) : Bool := d.kind < 8 || d.rows ≤ 1 || (d.length : Int) ≤ (if d.kind = 8 then d.srcStride else d.dstStride)

/-- Where a descriptor in execution has come to: the row, the offset in it, and the bytes still to do there. -/
def Desc.place (d : Desc) : Nat × Nat × Nat :=
  if d.byRows then (d.done / d.length, d.done % d.length, d.length - d.done % d.length) else pieceAt d.pieces d.done

/-- The row that a descriptor in execution has come to. -/
def Desc.rowNo (d : Desc) : Nat := d.place.1
/-- The offset in that row. -/
def Desc.off (d : Desc) : Nat := d.place.2.1
/-- Bytes still to do there. -/
def Desc.left (d : Desc) : Nat := d.place.2.2
/-- Bytes of all rows. -/
def Desc.total (d : Desc) : Nat := d.rows * d.length
/-- The source address it has come to, modulo 2^64. -/
def Desc.srcAt (d : Desc) : Nat := unsigned (rowStart d.src d.srcStride d.rowNo + d.off) 64
/-- The destination address it has come to, modulo 2^64. -/
def Desc.dstAt (d : Desc) : Nat := unsigned (rowStart d.dst d.dstStride d.rowNo + d.off) 64
/-- The host address that a host move has come to. -/
def Desc.hostAt (d : Desc) : Nat := if d.kind = 8 then d.srcAt else d.dstAt
/-- The address of the present request, by which 04 R92 orders the requests of a descriptor. -/
def Desc.reqAt (d : Desc) : Nat := if d.kind ≥ 8 then d.hostAt else if d.toPool || d.kind = 5 then d.dstAt else d.srcAt
/-- The present request has a status: of those that are not OK the first in address order is kept (04 R92). -/
def Desc.meets (d : Desc) (status : Nat) : Desc :=
  if status = 0 || (d.failed != 0 && d.failedAt ≤ d.reqAt) then d else { d with failed := status, failedAt := d.reqAt }

end Sys2Proof.Machine
end

