-- ==== Sys2Proof/Config.lean ====
section
/-!
DEFINITION. What spec/ leaves open: constants without a body, of which nothing can be proved. Each is named in the
assumption log. Cryptographic functions stand here because spec/ names them and gives their results to other standards.
-/

namespace Sys2Proof.Config

/-- The value of a nonce that ROLE_CHALLENGE returns (02 R42 gives its length alone); log entry 6. -/
opaque nonce : Nat → BitVec 256

/-- A choice that spec/ leaves to the part, by draw: which of the free numbers or ways it takes; log entry 24. -/
opaque choice : Nat → Nat

/-- The code of a decode outcome in STACK_DIAG_READ's results, by outcome: none, corrected, reconstructed, failed (09 R230 gives
none); log entry 17. -/
opaque diagCode : Nat → Byte

/-- The time in ns that the shadow writes of a staged change take (02 R55); log entry 5. -/
opaque shadowWriteNs : Nat → Nat

/-- How long the write of the persistent state that begins at an uptime takes, in ns (16 R370, R382; log entry 121). -/
opaque persistNs : Nat → Nat

/-- The servo's correction of the increment, in 2^-32 ns (07 R160, R165 give its resolution and its bound); log entry 33. -/
opaque servo : Nat → Int

/-- The error estimate that CLOCK_STATUS reports outside HOLDOVER (07 R165, R200 give no value there); log entry 33. -/
opaque clockError : Nat → Nat

/-- The part's PTP clockIdentity (07 R163 names IEEE 1588-2019 alone); log entry 34. -/
opaque clockIdentity : BitVec 64

/-- The priorities and quality that the part announces while it follows no grandmaster, in BMCA order (07 R163); log entry 34. -/
opaque ownQuality : Nat

/-- A port's delay mechanism is peer delay, not end-to-end (07 R163 lets each port have either); log entry 34. -/
opaque peerDelay : Nat → Bool

/-- A port sends two-step, not one-step (07 R163 lets each port have either); log entry 34. -/
opaque twoStep : Nat → Bool

/-- A content byte of a dump's section that 17 R397 does not place, by draw, unit ID and content offset; log entry 35. -/
opaque dumpByte : Nat → Nat → Nat → Byte

/-- A byte of the reserved region that its reader asks for and whose line cannot be read, by draw and offset in what is read (03 R67, 04
R101 and 18 R420 give none); log entry 55. -/
opaque lostByte : Nat → Nat → Byte

/-- Units read when the dump's timer ends it (17 R396 bounds the answers, and not each of them); log entry 35. -/
opaque dumpProgress : Nat → Nat

/-- The action byte of an ARRAY_UE record, by array code (17 R386 gives it no code); log entry 36. -/
opaque arrayAction : Nat → Byte

/-- A byte of a flash area whose write was cut short, by draw and offset (16 R382); log entry 37. -/
opaque tornByte : Nat → Nat → Byte

/-- The IP destination of an endpoint ID that has no endpoint entry (12 R297 takes it from the entry); log entry 38. -/
opaque unknownAddress : BitVec 24 → BitVec 128

/-- The IP TTL or hop limit of frames that the part originates, which spec/ does not state; log entry 80. -/
opaque originTtl : BitVec 8

/-- The UDP source port of a queue pair's packets, which spec/ does not state; log entry 80. -/
opaque roceSource : Nat → BitVec 16

/-- The UDP source port of PTP messages, which spec/ does not state; log entry 80. -/
opaque ptpSource : BitVec 16

/-- The IP source address of PTP messages, which spec/ does not state; log entry 80. -/
opaque ptpAddress : BitVec 128

/-- Identification, flags and fragment offset of an IPv4 frame that the part originates at an instant, which spec/ does not state; log
entry 80. -/
opaque ipIdent : Nat → BitVec 32

/-- The UDP checksum of a RoCEv2 or PTP frame that the part originates at an instant, which 12 R272 states for Eruno alone; log entry
80. -/
opaque otherSum : Nat → BitVec 16

/-- Sixteenths to which the class 2 queue of a stack controller is full at an instant, whose size spec/ does not state (12 R294); log
entry 63. -/
opaque classTwoFill : Nat → Nat → Nat

/-- Bits [31:16] of MVSTAT's result, which 04 R88 does not state, from the done count and the status; log entry 13. -/
opaque mvstatHigh : BitVec 32 → BitVec 16 → BitVec 16

/-- Bits [63:32] of VREDMAX's result, which 04 R100 does not state, from the lanes; log entry 13. -/
opaque redMaxHigh : List (BitVec 32) → BitVec 32

/-- SHAKE256 with the given number of output bytes (02 R48; 12 R290, R291); log entry 7. -/
opaque shake256 : Bytes → Nat → Bytes

/-- SHAKE256 with 256-bit output as a number, byte 0 least significant (02 R48); log entry 7. -/
opaque hash256 : Bytes → BitVec 256

/-- ML-DSA-65 verification of a signature over a message under a key (02 R42); log entry 7. -/
opaque mldsaVerify : Bytes → Bytes → Bytes → Bool

/-- The maker signature kept with an accepted stack profile set verifies for the set under a maker key: key, set, signature (16
R369 names the signature, and spec/ not the bytes that it covers); log entry 100. -/
opaque setSigned : Bytes → Bytes → Bytes → Bool

/-- The part's own ML-DSA-65 signature over a message with its identity key (16 R376; 12 R290); log entry 7. -/
opaque mldsaSign : Bytes → Bytes → Bytes

/-- The ML-DSA-65 public key that 16 R374 derives from a PUF seed and helper data; log entry 7. -/
opaque identityOf : Bytes → Bytes → Bytes

/-- The helper data that IDENTITY_ENROL returns for a PUF reading (16 R375); log entry 7. -/
opaque pufHelper : Bytes → Bytes

/-- Sundoth's root ML-DSA-65 public key (16 R371, R372); log entry 7. -/
opaque rootKey : Bytes

/-- An ML-KEM-768 encapsulation key from a free number (12 R290); log entry 7. -/
opaque mlkemKey : Nat → Bytes

/-- ML-KEM-768 encapsulation: ciphertext and shared secret, from a key and a free number (12 R290); log entry 7. -/
opaque mlkemEncaps : Bytes → Nat → Bytes × Bytes

/-- ML-KEM-768 decapsulation of a ciphertext under the key of a free number; none where it fails (12 R290); log entry 7. -/
opaque mlkemDecaps : Nat → Bytes → Option Bytes

/-- AES-256-GCM: key, nonce, additional data and plaintext to ciphertext and tag (12 R291); log entry 7. -/
opaque gcmSeal : BitVec 256 → Bytes → Bytes → Bytes → Bytes × BitVec 128

/-- AES-256-GCM opening: key, nonce, additional data, ciphertext and tag; none where the tag fails (12 R291); log entry 7. -/
opaque gcmOpen : BitVec 256 → Bytes → Bytes → Bytes → BitVec 128 → Option Bytes

end Sys2Proof.Config
end

