-- ==== Sys2Proof/Machine/Time.lean ====
section
/-!
DEFINITION. Time: the model's uptime in ns and the four cluster-time counters, which add the increment on every cycle of
FCLK (07 R160; 01 R22, R23). Log entry 2.
-/

namespace Sys2Proof.Machine

open Sys2Proof

/-- Microseconds in ns. -/
def usNs (n : Nat) : Nat := n * 1000
/-- Milliseconds in ns. -/
def msNs (n : Nat) : Nat := n * 1000000
/-- Seconds in ns. -/
def secNs (n : Nat) : Nat := n * 1000000000

/-- FCLK cycles in the first `t` ns, at 1.6 GHz (01 R22). -/
def fclks (t : Nat) : Nat := t * 8 / 5

/-- The functional clocks run (16 R363; 17 R395; 19 R435, R439). -/
def State.clocked (s : State) : Bool := !s.dev.clocksStopped && s.dev.mode != .resetting

/-- The counters after `n` cycles of FCLK. -/
def Clock.run (c : Clock) (n : Nat) : Clock :=
  let total := c.fraction.toNat + c.increment * n
  let add := BitVec.ofNat 64 (total / 2 ^ 32)
  { c with fold0 := c.fold0 + add, fold1 := c.fold1 + add, fold2 := c.fold2 + add, fold3 := c.fold3 + add
           fraction := BitVec.ofNat 32 total }

/-- Time moves to `t`, never backward. -/
def advance (s : State) (t : Nat) : State :=
  let t' := max s.now t
  let s' := { s with now := t' }
  if s.clocked then s'.updClock (·.run (fclks t' - fclks s.now)) else s'

/-- Cluster time of fold 0 in ns. -/
def State.ct (s : State) : Nat := s.clock.fold0.toNat

/-- Cluster time of a fold in ns. -/
def State.ctFold (s : State) (f : Nat) : Nat :=
  match f with
  | 0 => s.clock.fold0.toNat
  | 1 => s.clock.fold1.toNat
  | 2 => s.clock.fold2.toNat
  | _ => s.clock.fold3.toNat

/-- Cluster time of a paddock's fold in ns (00 R8: fold f owns paddocks and quads 4f to 4f+3). -/
def State.ctOf (s : State) (p : Nat) : Nat := s.ctFold (p / 4)

/-- The timestamp that a port takes: its fold's counter with the fraction, in 2^-16 ns (00 R8; 07 R164). -/
def State.stampOf (s : State) (q : Nat) : Nat := s.ctFold (q / 16) * 65536 + s.clock.fraction.toNat / 65536

/-- One nanosecond passes (log entry 2). -/
def idle (s : State) : State := advance s (s.now + 1)

/-- A timed happening: the clock moves to `t`, and then the happening acts where it is due. -/
def timed (t : Nat) (s : State) (due : State → Bool) (act : State → State) : Host.Outcome State Fault Refusal :=
  let s' := advance s t
  .next (if due s' then act s' else s')

/-- A timed happening in what runs on the functional clocks: none while they stand (17 R395; 19 R435, R439). -/
def ticking (t : Nat) (s : State) (due : State → Bool) (act : State → State) : Host.Outcome State Fault Refusal :=
  timed t s (fun s => s.clocked && due s) act

end Sys2Proof.Machine
end

