-- ==== Sys2Proof/Machine/Records.lean ====
section
/-!
DEFINITION. The signed image and records of flash: their fields and their validity (16 R369 to R375).
-/

namespace Sys2Proof.Machine

open Sys2Proof

/-- Bytes [off, off + n) of an area. -/
def Area.at_ (a : Area) (off n : Nat) : Bytes :=
  match a.torn with
  | none => mreadN a.bytes off n
  | some d => (rangeFrom off n).map (Config.tornByte d)

/-- An area holds an item whose write ended. -/
def Area.written (a : Area) : Bool := a.present && a.torn.isNone
/-- The number in bytes [off, off + n) of an area. -/
def Area.num (a : Area) (off n : Nat) : Nat := leNat (a.at_ off n)
/-- The whole of an area. -/
def Area.whole (a : Area) : Bytes := a.at_ 0 a.len
/-- An area of the given bytes. -/
def Area.of (b : Bytes) : Area := { present := true, bytes := mwriteN [] 0 b, len := b.length }

/-- DEVICE_ID.BUILD (00 R3). -/
def State.buildCode (s : State) : Nat := match s.build with | .h4 => 4 | .h3 => 3
/-- Bytes of a stack profile (16 R372). -/
def State.profileSize (s : State) : Nat := match s.build with | .h4 => 6016 | .h3 => 3072
/-- LENGTH of a package record (16 R372). -/
def State.packageLen (s : State) : Nat := match s.build with | .h4 => 119533 | .h3 => 72429
/-- LENGTH of an installer record (16 R373). -/
def installerLen : Nat := 17189
/-- Bytes of a staged firmware image at most: header and body (16 R371). -/
def imageMax : Nat := 6144 + 3145728

/-- How a check of a staged or stored item fails: a signature or digest, or something else (16 R378). -/
inductive Verdict where
  | good | integrity | bad
deriving DecidableEq, Repr

/-- The first failure of a list of checks. -/
def verdictOf : List (Bool × Verdict) → Verdict
  | [] => .good
  | (ok, v) :: r => if ok then verdictOf r else v

/-- MIN_FW_VERSION of a package record. -/
def packageMinFw (p : Area) : Nat := p.num 12 4
/-- SIGNATURE of a package record: the maker's (16 R372). -/
def packageSignature (s : State) (p : Area) : Bytes := p.at_ (s.packageLen - 3309) 3309
/-- SERIAL of a package record. -/
def packageSerial (p : Area) : Bytes := p.at_ 28 8
/-- MAC_BASE of a package record. -/
def packageMac (p : Area) : Nat := p.num 16 6
/-- MAKER_CERT[i] of a package record. -/
def makerCert (p : Area) (i : Nat) : Bytes := p.at_ (64 + 5264 * i) 5264
/-- The maker key of a MAKER_CERT. -/
def certKey (c : Bytes) : Bytes := c.take 1952
/-- A MAKER_CERT verifies under Sundoth's root (16 R372). -/
def certGood (c : Bytes) : Bool := Config.mldsaVerify Config.rootKey (c.take 1952) ((c.drop 1952).take 3309)
/-- The stack profiles of a package record, in site order. -/
def packageProfiles (s : State) (p : Area) : Bytes := p.at_ 19968 (16 * s.profileSize)
/-- The profile of a site in a profile set. -/
def siteProfile (s : State) (set : Bytes) (k : Nat) : Bytes := (set.drop (k * s.profileSize)).take s.profileSize

/-- The stack profile set meets 09 R206: a check supplied by the profile's own file. -/
abbrev ProfileCheck := State → Bytes → Bool

/-- A package record's validity (16 R372), with the reason it fails. -/
def packageVerdict (prof : ProfileCheck) (s : State) (p : Area) : Verdict :=
  let keys := p.num 7 1
  let signer := p.num 8 1
  verdictOf [
    (p.written && p.num 0 4 == 0x52505154 && p.num 4 2 == 1 && p.num 6 1 == s.buildCode, .bad),
    ((keys == 1 || keys == 2) && signer < keys && p.num 24 4 == s.packageLen && p.len == s.packageLen, .bad),
    ((List.range keys).all (fun i => certGood (makerCert p i)), .integrity),
    (Config.mldsaVerify (certKey (makerCert p signer)) (p.at_ 0 (s.packageLen - 3309)) (packageSignature s p), .integrity),
    (prof s (packageProfiles s p), .bad)]

/-- A firmware image's validity under a package record (16 R371), with the reason it fails. -/
def imageVerdict (s : State) (pkg : Area) (a : Area) : Verdict :=
  let body := a.num 12 4
  verdictOf [
    (a.written && a.num 0 4 == 0x57465154 && a.num 4 2 == 1, .bad),
    (1 ≤ body && body ≤ 3145728 && a.len == 6144 + body && a.num 16 4 < body, .bad),
    (bit (a.num 20 1) (match s.build with | .h3 => 0 | .h4 => 1), .bad),
    (packageMinFw pkg ≤ a.num 8 4, .bad),
    (Config.shake256 (a.at_ 64 1952) 32 == Config.shake256 Config.rootKey 32, .integrity),
    (Config.shake256 (a.at_ 6144 body) 32 == a.at_ 24 32, .integrity),
    (Config.mldsaVerify (a.at_ 64 1952) (a.at_ 0 2016) (a.at_ 2016 3309), .integrity)]

/-- The checks of 11 R270 on the bytes [63:20] of a PORT_CONFIG slot: supplied by the port's own file. -/
abbrev QuadCheck := Nat → Bytes → Bool

/-- A local ID entry as LOCAL_ID_SET and an installer record carry it (12 R305; 16 R373). -/
def localIdOf (b : Bytes) : LocalId := { id := BitVec.ofNat 24 (field b 0 3), ipv6 := bit (field b 3 1) 0, ip := BitVec.ofNat 128 (field b 8 16) }

/-- QUAD[q] of an installer record. -/
def recordQuad (a : Area) (q : Nat) : Bytes := a.at_ (13136 + 44 * q) 44

/-- An installer record's validity under a package record (16 R373), with the reason it fails. -/
def installerVerdict (quads : QuadCheck) (pkg : Area) (a : Area) : Verdict :=
  verdictOf [
    (a.written && a.num 0 4 == 0x52495154 && a.num 4 2 == 1 && a.num 8 4 == installerLen && a.len == installerLen, .bad),
    (a.at_ 16 8 == packageSerial pkg && a.num 24 1 ≤ 4 && a.num 25 1 < pkg.num 7 1, .bad),
    (Config.mldsaVerify (certKey (makerCert pkg (a.num 25 1))) (a.at_ 64 1952 ++ packageSerial pkg) (a.at_ 2016 3309), .integrity),
    (Config.mldsaVerify (a.at_ 64 1952) (a.at_ 0 13880) (a.at_ 13880 3309), .integrity),
    ((List.range 16).all (fun q => quads q (recordQuad a q)), .bad)]

/-- The keys enrolled for a role, in index order (02 R45): those of the records that this start verified. -/
def State.keysOf (s : State) : Role → List Bytes
  | .maker => if s.dev.package.present then (List.range (s.dev.package.num 7 1)).map (fun i => certKey (makerCert s.dev.package i)) else []
  | .installer => if s.dev.installer.present then [s.dev.installer.at_ 64 1952] else []
  | .operator =>
    if s.dev.installer.present then (List.range (s.dev.installer.num 24 1)).map (fun i => s.dev.installer.at_ (5328 + 1952 * i) 1952) else []

end Sys2Proof.Machine
end

