-- ==== Sys2Proof/Machine/Flags.lean ====
section
/-!
DEFINITION. Status flags with their event counters (00 R11), the error log (17 R384 to R387), ALERT_STATUS (17 R403),
and the counter groups (18 R406 to R412).
-/

namespace Sys2Proof.Machine

open Sys2Proof

/-- A W1C flag after a write: a 1 clears it unless hardware sets it in the same cycle (00 R9, R11). -/
def w1c (flag clear hwSets : Bool) : Bool := hwSets || (flag && !clear)

/-- Records of the retention ring (17 R387). -/
def errRing : Nat := 4096

/-- Sets a bit of ALERT_STATUS [1:0] and counts the setting (17 R403; 00 R11). -/
def setAlert (s : State) (i : Nat) : State :=
  s.updDev (fun d => { d with alert0 := d.alert0 || i == 0, alert1 := d.alert1 || i == 1, alertCnts := tupd d.alertCnts 0 i (· + 1) })

/-- Appends a record to the retention ring. -/
def pushErr (a : Aon) (r : ErrRec) : Aon :=
  { a with errSeq := a.errSeq + 1, errLog := (if a.errLog.length ≥ errRing then a.errLog.drop 1 else a.errLog) ++ [r]
           overwritten := if a.errLog.length ≥ errRing then a.overwritten + 1 else a.overwritten }

/-- Writes an error log record, or counts it as suppressed (17 R385, R387, R403). -/
def logError (s : State) (code cls unit : Nat) (data : Bytes) (status : Nat := 0) : State :=
  let key := code * 256 + unit
  if cls != 4 && tgetD s.dev.written 0 key ≥ 64 then
    s.updDev (fun d => { d with suppressed := tupd d.suppressed 0 key (· + 1), suppressedTotal := d.suppressedTotal + 1 })
  else
    let r : ErrRec := { seq := s.aon.errSeq, bootEpoch := s.aon.bootEpoch, time := s.ct, code := code, cls := cls, unit := unit
                        status := status, suppressed := tgetD s.dev.suppressed 0 key, data := data }
    let s := s.updAon (pushErr · r)
    let s := s.updDev (fun d => { d with written := tupd d.written 0 key (· + 1), suppressed := tdel d.suppressed key })
    if cls = 3 then setAlert s 0 else s

/-- An error log record's 128 bytes (17 R385). -/
def ErrRec.bytes (r : ErrRec) : Bytes :=
  natLe r.seq 4 ++ natLe r.bootEpoch.toNat 4 ++ natLe r.time 8 ++ natLe r.code 2 ++ natLe r.cls 1 ++ natLe r.unit 1
    ++ natLe r.status 2 ++ natLe r.suppressed 2 ++ natLe 0 8 ++ padTo r.data 96

/-- THERMAL: a die junction above 105 °C or a stack case above 95 °C (19 R438). -/
def State.thermal (s : State) : Bool := s.dev.dieMax > 105 || s.dev.stackMax > 95

/-- ALERT_STATUS (17 R403). -/
def State.alertStatus (s : State) : Nat :=
  b2n s.dev.alert0 0 + b2n s.dev.alert1 1 + b2n (s.stks.any (fun e => e.2.st != .serving)) 2
    + b2n (s.dev.mode == .minimal) 3 + b2n (s.aon.dumpHeld == .held) 4 + b2n s.thermal 5

/-- The level of ALERT_N: low while any bit of ALERT_STATUS is set (17 R403). -/
def State.alertN (s : State) : Bool := s.alertStatus == 0

/-- Counts the settings of ALERT_STATUS [5:2] between two states: each of these bits follows its condition (00 R11; 17 R403). -/
def countAlerts (old s : State) : State :=
  (List.range 4).foldl (fun s i =>
    if bit s.alertStatus (i + 2) && !bit old.alertStatus (i + 2) then
      s.updDev (fun d => { d with alertCnts := tupd d.alertCnts 0 (i + 2) (· + 1) }) else s) s

/-! ### Counter groups -/

/-- The counter groups (18 R408). -/
inductive Group where
  | engine | stack | port | device | context | schedule | session
deriving DecidableEq, Repr

/-- A group's code (18 R408). -/
def Group.code : Group → Nat
  | .engine => 1 | .stack => 2 | .port => 3 | .device => 4 | .context => 5 | .schedule => 6 | .session => 7

/-- The key of a group's instance in `State.counters`. -/
def Group.key (g : Group) (i : Nat) : Nat := g.code * 2 ^ 20 + i

/-- The key that holds whether a group is enabled for a context (18 R412: groups 0x6 and 0x7 name a context). -/
def Group.ctxKey (g : Group) (c : Nat) : Nat := (g.code + 8) * 2 ^ 20 + c

/-- A counter block by its key. -/
def State.block (s : State) (k : Nat) : CounterBlk := tgetD s.counters {} k

/-- Changes a counter block. -/
def State.updBlock (s : State) (k : Nat) (f : CounterBlk → CounterBlk) : State := { s with counters := tupd s.counters {} k f }

/-- Where a counter stops (18 R406). -/
def counterMax : Nat := 2 ^ 64 - 1

/-- Adds to a counter of an enabled block, saturating (18 R406). -/
def bump (s : State) (g : Group) (i idx n : Nat) : State :=
  match tget? s.counters (g.key i) with
  | none => s
  | some b =>
    if b.enabled then { s with counters := tput s.counters (g.key i) { b with live := tupd b.live 0 idx (fun v => min (v + n) counterMax) } }
    else s

/-- Raises a counter that holds a maximum (18 R408: counter 3 of SCHEDULE). -/
def bumpMax (s : State) (g : Group) (i idx n : Nat) : State :=
  match tget? s.counters (g.key i) with
  | none => s
  | some b =>
    if b.enabled then { s with counters := tput s.counters (g.key i) { b with live := tupd b.live 0 idx (max n) } } else s

/-- A block at a boundary: an enabled one latches its period and starts again at 0 (18 R406, R409). -/
def CounterBlk.latch (b : CounterBlk) (at_ : Nat) : CounterBlk :=
  if b.enabled then { b with latched := b.live, live := [], valid := b.whole, whole := true, periodStart := b.opened, periodEnd := at_, opened := at_ }
  else b

/-- A block that COUNTER_ENABLE switches at a boundary (18 R412). -/
def CounterBlk.switch (b : CounterBlk) (on : Bool) (at_ : Nat) : CounterBlk :=
  if on then { b with enabled := true, valid := false, whole := true, live := [], opened := at_ }
  else { b with enabled := false, live := [] }

/-- Zeroes the block of an instance that a command gives to a context, and clears VALID (18 R412). -/
def zeroBlock (s : State) (g : Group) (i c : Nat) : State :=
  let on := if g = .context then (s.block (g.key i)).enabled else (s.block (g.ctxKey c)).enabled
  s.updBlock (g.key i) (fun _ => { enabled := on, opened := s.dev.lastBoundary })

/-- A counter block's bytes, header and `n` counters (18 R408, R409). -/
def blockBytes (s : State) (g : Group) (i size : Nat) : Bytes :=
  let b := s.block (g.key i)
  padTo (natLe i 2 ++ natLe g.code 1 ++ natLe (b2n b.enabled 0 + b2n b.valid 1) 1 ++ natLe 0 4 ++ natLe b.periodStart 8 ++ natLe b.periodEnd 8
    ++ natLe 0 8 ++ (List.range ((size - 32) / 16)).flatMap (fun k => natLe (tgetD b.latched 0 k) 8 ++ natLe (tgetD b.live 0 k) 8)) size

/-- The counts that `State.counts` keeps: discards and refusals that spec/ counts outside the counter groups. -/
inductive Count where
  /-- 12 R273: frames with a bad ICRC, checksum, header or address -/
  | badFrame
  /-- 12 R281: frames discarded by check -/
  | discarded
  /-- 07 R193: start records discarded -/
  | startDiscard
  /-- 07 R192: SIGNAL and SCHED_FRAME refused -/
  | refusedFrame
  /-- 12 R275: reassemblies discarded -/
  | reasmDiscard
  /-- 11 R249: PAUSE frames ignored -/
  | pauseIgnored
  /-- 11 R261: link frames with an acknowledgement outside what is outstanding -/
  | badAck
  /-- 11 R260: frames with a bad tag or FCS -/
  | badTag
  /-- 11 R249: overlong frames -/
  | overlong
  /-- 12 R298: frames not forwarded -/
  | forwardDiscard
  /-- 13 R307: frames discarded at the ingress limit -/
  | ingressLimit
  /-- 07 R163: PTP Management and Signaling messages -/
  | ptpDiscard
  /-- 14 R332, R334: coherence messages discarded -/
  | cohDiscard
  /-- 12 R301: RoCEv2 packets discarded -/
  | roceDiscard
  /-- 17 R388: frames lost to an uncorrectable ingress buffer word -/
  | ingressUe
  /-- 15 R356: translations issued on behalf of nothing any more -/
  | staleResponse
deriving DecidableEq, Repr

/-- The number of a count. -/
def Count.ix : Count → Nat
  | .badFrame => 0 | .discarded => 1 | .startDiscard => 2 | .refusedFrame => 3 | .reasmDiscard => 4 | .pauseIgnored => 5
  | .badAck => 6 | .badTag => 7 | .overlong => 8 | .forwardDiscard => 9 | .ingressLimit => 10 | .ptpDiscard => 11
  | .cohDiscard => 12 | .roceDiscard => 13 | .ingressUe => 14 | .staleResponse => 15

/-- Counts a happening. -/
def tally (s : State) (c : Count) : State := s.addCount c.ix 1

end Sys2Proof.Machine
end

