-- ==== Sys2Proof/Machine/Ops.lean ====
section
/-!
DEFINITION. The mailbox protocol (02 R28 to R60): events, the audit log, taking a request up, its checks, its response,
and completion. A command is described by a `Cmd` and run by `serve`.
-/

namespace Sys2Proof.Machine

open Sys2Proof

/-! ### Status codes (02 R58) -/

/-- OK. -/
abbrev stOk : Nat := 0x0000
/-- PENDING. -/
abbrev stPending : Nat := 0x0001
/-- BAD_OPCODE. -/
abbrev stBadOpcode : Nat := 0x0101
/-- BAD_ARG. -/
abbrev stBadArg : Nat := 0x0102
/-- BAD_STATE. -/
abbrev stBadState : Nat := 0x0103
/-- BUSY. -/
abbrev stBusy : Nat := 0x0104
/-- DENIED. -/
abbrev stDenied : Nat := 0x0105
/-- NO_RESOURCE. -/
abbrev stNoResource : Nat := 0x0106
/-- EPOCH_MISMATCH. -/
abbrev stEpoch : Nat := 0x0107
/-- TIMEOUT. -/
abbrev stTimeout : Nat := 0x0108
/-- MEDIA_ERROR. -/
abbrev stMedia : Nat := 0x0109
/-- REVOKED. -/
abbrev stRevoked : Nat := 0x010A
/-- LEASE_EXPIRED. -/
abbrev stLease : Nat := 0x010B
/-- FAULT. -/
abbrev stFault : Nat := 0x010C
/-- LATE. -/
abbrev stLate : Nat := 0x010D
/-- MINIMAL_MODE. -/
abbrev stMinimal : Nat := 0x010E
/-- INTEGRITY. -/
abbrev stIntegrity : Nat := 0x010F
/-- THROTTLED. -/
abbrev stThrottled : Nat := 0x0110

/-! ### Mailboxes (02 R28) -/

/-- The mailbox of a role. -/
def roleMailbox : Role → Nat
  | .operator => 0
  | .installer => 1
  | .maker => 2

/-- A role's code (02 R48, R60). -/
def roleCode : Role → Nat
  | .operator => 2
  | .installer => 3
  | .maker => 4

/-- The role of a code. -/
def roleOfCode : Nat → Option Role
  | 2 => some .operator
  | 3 => some .installer
  | 4 => some .maker
  | _ => none

/-- KIND of a mailbox (02 R30). -/
def mailboxKind (m : Nat) : Nat :=
  match m with
  | 0 => 2 | 1 => 3 | 2 => 4 | 3 => 5 | 4 => 6 | _ => 1

/-- OWNER of a mailbox (02 R30). -/
def mailboxOwner (m : Nat) : Nat := m - 5

/-- The mailbox of context `c`. -/
def ctxMailbox (c : Nat) : Nat := 5 + c

/-- Bytes of the extended argument buffer (02 R29). -/
def xbufLen : Nat := 20480

/-! ### Events (02 R39 to R41) -/

/-- An event record's 32 bytes. -/
def Event.bytes (e : Event) : Bytes :=
  natLe e.code 2 ++ natLe e.tag.toNat 2 ++ natLe e.status 2 ++ natLe e.objType 2 ++ natLe e.time 8 ++ natLe e.objId 4 ++ padTo e.data 12

/-- EVQ_PI − EVQ_CI has not reached 255. -/
def Page.evqRoom (p : Page) : Bool := (p.evqPi - p.evqCi).toNat < 255

/-- Writes a record at EVQ_PI. -/
def Page.putEvent (p : Page) (e : Event) : Page :=
  { p with mem := mwriteN p.mem (0x9000 + 32 * (p.evqPi.toNat % 256)) e.bytes, evqPi := p.evqPi + 1 }

/-- The EVQ_OVERFLOW record (02 R41, R52). -/
def Page.overflowRec (p : Page) (time : Nat) : Event :=
  { code := 0xFF, objType := 0x0A, objId := 0, time := time, data := natLe p.dropped 4 ++ natLe p.firstDrop 8 }

/-- Writes the EVQ_OVERFLOW record that is due, where there is room. -/
def Page.flushOverflow (p : Page) (time : Nat) : Page :=
  if p.dropped > 0 && p.evqRoom then { p.putEvent (p.overflowRec time) with dropped := 0 } else p

/-- Writes an event, or drops it (02 R41). -/
def Page.post (p : Page) (e : Event) : Page :=
  if !p.evqEnable then p else
  let p := p.flushOverflow e.time
  if p.evqRoom then p.putEvent e
  else { p with evqOverflow := true, evqLostCnt := p.evqLostCnt + 1, dropped := p.dropped + 1
                firstDrop := if p.dropped = 0 then e.time else p.firstDrop }

/-! ### SENDs of the part on mailbox queue pairs (12 R303) -/

/-- Path MTU of a queue pair: log2 − 8 is kept (12 R301, R305). -/
def Qp.mtu (x : Qp) : Nat := 2 ^ (8 + x.mtuLog)

/-- The packets of a SEND from a PSN: `n` bounds those after the first. -/
def cutSends (mtu : Nat) (index : Option (BitVec 16)) : Nat → Bool → BitVec 24 → Bytes → List QpSend
  | 0, _, _, _ => []
  | n + 1, first, psn, b =>
    if b.length ≤ mtu then [{ psn := psn, op := if first then .sendOnly else .sendLast, bytes := b, index := index }]
    else { psn := psn, op := if first then .sendFirst else .sendMiddle, bytes := b.take mtu } :: cutSends mtu index n false (psn + 1) (b.drop mtu)

/-- A SEND joins those of a mailbox queue pair. -/
def queueSend (s : State) (n : Nat) (b : Bytes) (index : Option (BitVec 16)) : State :=
  let x := s.qp n
  if x.st != .ready || !x.mailbox then s else
  let ps := cutSends x.mtu index (b.length / x.mtu + 1) true x.sendPsn b
  s.updQp n (fun x => { x with sends := x.sends ++ ps, sendPsn := x.sendPsn + BitVec.ofNat 24 ps.length })

/-- The event records from EVQ_PI `i` upward go out on the context's queue pairs that have EVENTS set. -/
def sendEvents (s : State) (m : Nat) (i : BitVec 16) : State :=
  if m < 5 then s else
  let p := s.page m
  let recs := (List.range (p.evqPi - i).toNat).map (fun k => mreadN p.mem (0x9000 + 32 * ((i.toNat + k) % 256)) 32)
  foldKeys (tkeys s.qps (fun _ x => x.ctx == some (m - 5) && x.events && x.mailbox)) s (fun s n => recs.foldl (fun s r => queueSend s n r none) s)

/-- Posts an event, other than a COMPLETION, to a mailbox. -/
def postEvent (s : State) (m code objType objId : Nat) (data : Bytes) (status : Nat := 0) : State :=
  sendEvents (s.updPage m (·.post { code := code, status := status, objType := objType, objId := objId, time := s.ct, data := data })) m (s.page m).evqPi

/-- The transfer ends with the COMPLETION of its commit, and with it the keys of an installer record that was written take effect
(16 R378, R379). -/
def endCommit (s : State) (id : Nat) : State :=
  match s.staging with
  | some g =>
    if g.committing && g.commitId == id then
      { s with staging := none, dev := if g.kind = 3 && g.written == some true then { s.dev with installer := s.flash.installer } else s.dev }
    else s
  | none => s

/-- Removes a pending command: its object is free again (02 R38). -/
def dropPending (s : State) (p : Pending) : State := { s with pendings := s.pendings.erase p }

/-- What ends with a pending command's COMPLETION: the transfer of a STAGE_COMMIT. -/
def endPending (s : State) (p : Pending) : State := if p.opcode == 0x0A03 then endCommit s p.id else s

/-- The COMPLETION event of a pending command. -/
def completionOf (p : Pending) (status time : Nat) (data : Bytes) : Event :=
  { code := 1, tag := p.tag, status := status, objType := p.objType, objId := p.objId, time := time, data := data }

/-- Writes a COMPLETION, or holds it while the queue is full, the object staying BUSY (02 R41). -/
def postCompletion (s : State) (p : Pending) (status time : Nat) (data : Bytes) : State :=
  let pg := s.page p.mailbox
  if !pg.evqEnable then dropPending s p else
  let pg := pg.flushOverflow time
  let e := completionOf p status time data
  let i := (s.page p.mailbox).evqPi
  if pg.evqRoom then dropPending (sendEvents (s.updPage p.mailbox (fun _ => pg.putEvent e)) p.mailbox i) p
  else
    let s := s.updPage p.mailbox (fun _ => { pg with held := pg.held ++ [(p.id, e)] })
    if s.pendings.contains p then s else { s with pendings := s.pendings ++ [p] }

/-- A held COMPLETION belongs to a pending command. -/
def heldOf (h : Nat × Event) (p : Pending) : Bool := p.id == h.1

/-- A pending command has ended: its COMPLETION is only held for room (02 R41). -/
def isHeld (s : State) (p : Pending) : Bool := (s.page p.mailbox).held.any (fun h => heldOf h p)

/-- A pending command that has not ended. -/
def pendingOf (s : State) (f : Pending → Bool) : Option Pending := s.pendings.find? (fun p => f p && !isHeld s p)

/-- The command of a held record is free. -/
def freeHeld (s : State) (h : Nat × Event) : State := (s.pendings.filter (heldOf h)).foldl (fun s p => endPending (dropPending s p) p) s

/-- Writes held records while there is room; each frees its object. -/
def flushHeld (s : State) (m : Nat) : List (Nat × Event) → State
  | [] => s.updPage m (fun p => { p with held := [] })
  | h :: r =>
    if (s.page m).evqRoom then flushHeld (freeHeld (s.updPage m (·.putEvent h.2)) h) m r
    else s.updPage m (fun p => { p with held := h :: r })

/-- Event space has returned: EVQ_OVERFLOW first, then held COMPLETIONs (02 R41). -/
def drainEvents (s : State) (m : Nat) : State :=
  if (s.page m).evqEnable then
    let i := (s.page m).evqPi
    let s := s.updPage m (·.flushOverflow s.ct)
    sendEvents (flushHeld s m (s.page m).held) m i
  else s

/-! ### The audit log (02 R48, R49) -/

/-- Bytes [63:0] of an audit record. -/
def AuditRec.head (r : AuditRec) : Bytes :=
  natLe r.seq 8 ++ natLe r.time 8 ++ natLe r.bootEpoch.toNat 4 ++ natLe r.opcode.toNat 2 ++ natLe r.role 1 ++ natLe r.key 1
    ++ natLe r.mailbox.toNat 2 ++ natLe r.status 2 ++ natLe 0 4 ++ natLe r.argDigest.toNat 32

/-- An audit record's 128 bytes. -/
def AuditRec.bytes (r : AuditRec) : Bytes := r.head ++ natLe r.chain.toNat 32 ++ natLe 0 32

/-- MAILBOX of an audit record: KIND, and the path by the channel binding. -/
def auditMailbox (m : Nat) (binding : BitVec 32) : BitVec 16 :=
  BitVec.ofNat 16 (mailboxKind m + 256 * (if binding = 0xFFFF0005 then 5 else if binding = 0xFFFF0006 then 6 else 1))

/-- Records the audit log holds. -/
def auditMax : Nat := 65536

/-- Writes an audit record. -/
def auditWrite (s : State) (m : Nat) (binding : BitVec 32) (opcode : BitVec 16) (role key status : Nat) (digest : BitVec 256) : State :=
  let r : AuditRec := { seq := s.flash.auditNext, time := s.ct, bootEpoch := s.aon.bootEpoch, opcode := opcode, role := role, key := key
                        mailbox := auditMailbox m binding, status := status, argDigest := digest, chain := 0 }
  let r := { r with chain := Config.hash256 (natLe s.flash.auditChain.toNat 32 ++ r.head) }
  let s := bump s .device 0 11 1
  s.updFlash (fun f =>
    { f with auditNext := f.auditNext + 1, auditChain := r.chain
             auditBase := if f.audit.length ≥ auditMax then (f.audit.head?.map (·.chain)).getD 0 else f.auditBase
             audit := (if f.audit.length ≥ auditMax then f.audit.drop 1 else f.audit) ++ [r] })

/-- A pending command ends: a role command's second audit record (02 R49), then its COMPLETION (02 R38). 02 R49 says what a
failed flash write does to a command's first record alone; DESIGN CHOICE: this record is written whatever Flash.writeOk says
(log entry 88). -/
def finish (s : State) (p : Pending) (status time : Nat) (data : Bytes := []) : State :=
  let s := match p.role with
    | some r => auditWrite s p.mailbox p.binding p.opcode (roleCode r) p.keyIndex status p.digest
    | none => s
  let s := postCompletion s p status time data
  if isHeld s p then s else endPending s p

/-! ### Requests and replies (02 R36, R37) -/

/-- The party that issues a command (00 R6). -/
inductive Party where
  | nobody
  | tenant (c : Nat)
  | role (r : Role)
deriving DecidableEq, Repr

/-- A request taken up: its mailbox, index, slot, extended arguments, channel binding, bytes of its range, issuer, and the
pending entry its COMPLETION would end. `serial` is its number among the commands taken up. -/
structure Req where
  m : Nat
  serial : Nat := 0
  index : BitVec 16
  slot : Bytes
  xarg : Bytes
  binding : BitVec 32
  room : Nat
  party : Party := .nobody
  keyIndex : Nat := 0
  owes : Pending := { objType := 0x0A, objId := 0, mailbox := 0, tag := 0, opcode := 0 }
deriving DecidableEq, Repr

/-- `k` bytes of a request's slot at byte `off`. -/
def Req.arg (q : Req) (off k : Nat) : Nat := field q.slot off k
/-- OPCODE. -/
def Req.opcode (q : Req) : Nat := q.arg 0 2
/-- TAG. -/
def Req.tag (q : Req) : BitVec 16 := BitVec.ofNat 16 (q.arg 2 2)
/-- FLAGS [0]. -/
def Req.notify (q : Req) : Bool := bit (q.arg 4 2) 0
/-- FLAGS [1]. -/
def Req.validateOnly (q : Req) : Bool := bit (q.arg 4 2) 1
/-- XARG_LEN. -/
def Req.xargLen (q : Req) : Nat := q.arg 6 2
/-- XARG_OFF. -/
def Req.xargOff (q : Req) : Nat := q.arg 8 2
/-- XRES_ROOM. -/
def Req.xresRoom (q : Req) : Nat := q.arg 10 2
/-- ROLE_SESSION. -/
def Req.roleSession (q : Req) : BitVec 32 := BitVec.ofNat 32 (q.arg 12 4)
/-- ROLE_COUNTER. -/
def Req.roleCounter (q : Req) : BitVec 32 := BitVec.ofNat 32 (q.arg 16 4)
/-- The context of a tenant's request. -/
def Req.ctx? (q : Req) : Option Nat := match q.party with | .tenant c => some c | _ => none
/-- The digest of slot and extended arguments (02 R48). -/
def Req.digest (q : Req) : BitVec 256 := Config.hash256 (q.slot ++ q.xarg)

/-- The first faulty byte of the slot: a byte of ARGS that the command does not lay out and that is not 0, or a field that
`bad` marks (02 R37, R47 check 5). -/
def Req.firstBad (q : Req) (used : List (Nat × Nat)) (bad : List (Nat × Bool)) : Option Nat :=
  let a := (rangeFrom 20 44).filter (fun b => q.slot.getD b 0 != 0 && !used.any (fun u => u.1 ≤ b && b < u.1 + u.2))
  (a ++ (bad.filter (·.2)).map (·.1)).min?

/-- What a command's body answers. -/
inductive Reply where
  /-- a status, a DETAIL, and no effect -/
  | fail (status detail : Nat)
  /-- a failure that leaves an effect (ROLE_PROVE, 02 R43, R44) -/
  | failed (s : State) (status : Nat)
  /-- OK: the new state, RESULTS, extended results -/
  | done (s : State) (res : Bytes) (xres : Bytes)
  /-- PENDING: the new state, RESULTS -/
  | pend (s : State) (res : Bytes)

/-- BAD_ARG at a byte of the slot from byte 20 (02 R37). -/
def badAt (b : Nat) (index : Nat := 0) : Reply := .fail stBadArg (b - 20 + index % 2 ^ 14 * 2 ^ 16)
/-- BAD_ARG at a byte of the extended arguments, or of the item the command names. -/
def badX (b : Nat) (index : Nat := 0) : Reply := .fail stBadArg (b + index % 2 ^ 14 * 2 ^ 16 + 2 ^ 30)
/-- BAD_ARG at a byte of the slot from byte 0. -/
def badSlot (b : Nat) : Reply := .fail stBadArg (b + 2 ^ 31)
/-- BAD_STATE of an object. -/
def badState (type state : Nat) : Reply := .fail stBadState (state + 256 * type)
/-- DENIED. -/
def denied : Reply := .fail stDenied 0
/-- BUSY. -/
def busy : Reply := .fail stBusy 0
/-- NO_RESOURCE. -/
def noResource : Reply := .fail stNoResource 0
/-- One item that does not fit in the range (02 R34). -/
def noRoom : Reply := badSlot 10

/-- Two commands name an object in common (02 R38). -/
def Pending.meets (p o : Pending) : Bool := p.lock.1 == o.lock.1 && p.lock.2 < o.lock.2 + o.span && o.lock.2 < p.lock.2 + p.span

/-- The description of a command (02 R46, R47). -/
structure Cmd where
  op : Nat
  issuers : Party → Bool
  /-- accepted before authentication (02 R60) -/
  isOpen : Bool := false
  /-- offered in minimal mode (16 R380) -/
  minimal : Bool := false
  /-- changes state under a role (02 R49) -/
  changes : Req → Bool := fun _ => false
  /-- the object named (02 R52) -/
  obj : Req → Nat × Nat := fun _ => (0x0A, 0)
  /-- what a pending command keeps BUSY, where that is not the object or the command's own setting -/
  lock : Req → Option (Nat × Nat) := fun _ => none
  /-- how many objects from the one named on the command names -/
  span : Req → Nat := fun _ => 1
  /-- a pending command keeps this one out (02 R38) -/
  blocked : Req → State → Bool := fun q s => s.pendings.any (fun p => p.meets q.owes)
  /-- changes nothing: its results come under VALIDATE_ONLY too (02 R36); log entry 44 -/
  query : Bool := false
  /-- this row's form of the opcode -/
  form : Req → Bool := fun _ => true
  body : Req → State → Reply
  /-- the command changes nothing in this state, and writes no audit record (02 R49) -/
  idle : Req → State → Bool := fun q s => match body q s with | .done t _ _ => t == s | _ => false
  /-- the events that bear on the object named and are due at this instant, which are taken up first (02 R53) -/
  before : Req → State → State := fun _ s => s
  /-- what follows the response -/
  after : Req → State → State := fun _ s => s

/-! ### Taking a request up (02 R35, R444) -/

/-- A mailbox with a request waiting. -/
def Page.waiting (p : Page) : Bool := p.reqCi != p.reqPi

/-- The shepherd takes commands up from mailbox `m` in the present mode. -/
def servesMailbox (s : State) (m : Nat) : Bool :=
  !s.dev.clocksStopped && (match s.dev.mode with
    | .inService => true
    | .minimal => m == 3 || m == 4
    | _ => false)

/-- The mailbox whose turn it is. -/
def turn (s : State) : Option Nat :=
  let ks := tkeys s.pages (fun m p => p.waiting && servesMailbox s m)
  match ks.find? (fun m => s.lastServed < m) with
  | some m => some m
  | none => ks.head?

/-- The range of a request in its page. -/
def Page.rangeOf (p : Page) (i : BitVec 16) : Option Range := p.ranges.find? (fun r => r.index == i)

/-- The request at the head of mailbox `m`. -/
def Page.head (p : Page) (m : Nat) : Req :=
  let slot := mreadN p.mem (0x1000 + 64 * (p.reqCi.toNat % 256)) 64
  let off := field slot 8 2
  let len := field slot 6 2
  let room := roundUp (max len (field slot 10 2)) 8
  { m := m, index := p.reqCi, slot := slot, xarg := mreadN p.mem (0xB000 + off) (min len (xbufLen - off))
    binding := ((p.rangeOf p.reqCi).map (·.binding)).getD 0, room := min room (xbufLen - off) }

/-- The request that the shepherd takes up next from mailbox `m`, where it is that mailbox's turn. -/
def headOf (s : State) (m : Nat) : Option Req := if turn s = some m then some { (s.page m).head m with serial := s.taken } else none

/-- A session's idle limit (02 R43). -/
def roleIdle : Nat := secNs 600

/-- Ends a role session: its staging transfer closes, and a device stream that was sent to its session stops (16 R378;
18 R418). -/
def endRoleSession (s : State) (id : BitVec 32) : State :=
  match s.auth.sessions.find? (fun r => r.id == id) with
  | none => s
  | some r =>
    let left := s.auth.sessions.filter (fun r => r.id != id)
    let bound := left.any (fun o => o.role == .operator && o.binding == r.binding)
    { s with auth := { s.auth with sessions := left }
             staging := match s.staging with
               | some g => if g.opener == id && !g.committing then none else s.staging
               | none => none
             streams := if r.role == .operator && !bound then
                 tmap s.streams (fun _ x => if x.toSession && x.source = 0xFFFF && x.session = r.binding.toNat % 65536 && x.st == .running then { x with st := .stopped } else x)
               else s.streams }

/-- The key that opened a role session still serves: it is enrolled, or, for the maker role while no package record is
valid, it came with its certificate (16 R375). -/
def keyServes (s : State) (r : RoleSession) : Bool :=
  (s.keysOf r.role).contains r.key || (r.role == .maker && !s.dev.package.present)

/-- A session whose key has been removed ends at the next command that it issues, which is DENIED (02 R45). -/
def keyRemoved (s : State) (q : Req) : Bool :=
  q.m < 5 && s.auth.sessions.any (fun r => r.id == q.roleSession && r.binding == q.binding && !keyServes s r)

/-- Check 4 of 02 R47: the role session, its path and its counter; at the instant of its idle timeout the session has ended
(02 R43, R53). -/
def checkSession (s : State) (q : Req) : Option RoleSession × State :=
  match s.auth.sessions.find? (fun r => r.id == q.roleSession) with
  | none => (none, s)
  | some r =>
    if s.now - r.lastCommand ≥ roleIdle then (none, endRoleSession s r.id)
    else if r.binding != q.binding || (q.m < 3 && roleMailbox r.role != q.m) || q.roleCounter.toNat ≤ r.counter.toNat then (none, s)
    else
      let r' := { r with counter := q.roleCounter, lastCommand := s.now }
      (some r', { s with auth := { s.auth with sessions := s.auth.sessions.map (fun x => if x.id == r.id then r' else x) } })

/-- Who issues a request, before its session is checked: a context's tenant, a mailbox's role, or the role of the session
named on the management and I3C mailboxes. -/
def partyOf (s : State) (q : Req) : Party :=
  match q.m with
  | 0 => .role .operator
  | 1 => .role .installer
  | 2 => .role .maker
  | 3 | 4 => match s.auth.sessions.find? (fun r => r.id == q.roleSession) with
    | some r => .role r.role
    | none => .nobody
  | m => .tenant (m - 5)

/-- A party that holds a role. -/
def Party.isRole : Party → Bool
  | .role _ => true
  | _ => false

/-- Checks 3 and 4 of 02 R47; the request with its issuer. -/
def authorise (s : State) (c : Cmd) (q : Req) : Option Req × State :=
  if c.isOpen && q.m < 5 && q.roleSession = 0 then (some q, s) else
  if keyRemoved s q then (none, endRoleSession s q.roleSession) else
  let p := partyOf s q
  if !(c.issuers p || (s.dev.mode == .minimal && c.op == 0x0B15 && p.isRole)) then (none, s)
  else match p with
    | .role _ =>
      match checkSession s q with
      | (some r, s') => (some { q with party := p, keyIndex := r.keyIndex }, s')
      | (none, s') => (none, s')
    | _ => (some { q with party := p }, s)

/-- The part of check 5 that every request passes (02 R36, R47). -/
def slotFault (q : Req) : Option Reply :=
  if q.arg 4 2 ≥ 4 then some (badSlot 4)
  else if q.xargLen > xbufLen then some (badSlot 6)
  else if q.xargOff % 8 != 0 || q.xargOff + q.xargLen > xbufLen then some (badSlot 8)
  else if q.xresRoom > xbufLen then some (badSlot 10)
  else if q.xargOff + q.xresRoom > xbufLen then some (badSlot 8)
  else if q.m ≥ 5 && q.roleSession != 0 then some (badSlot 12)
  else none

/-- The request leaves its ring. -/
def takeUp (s : State) (q : Req) : State :=
  let s := { s with lastServed := q.m, taken := s.taken + 1 }
  bump (s.updPage q.m (fun p => { p with reqCi := p.reqCi + 1 })) .device 0 10 1

/-- Writes a response (02 R34, R35, R37). -/
def respond (s : State) (q : Req) (status detail : Nat) (res xres : Bytes) : State :=
  let x := xres.take q.room
  let slot := padTo (natLe status 2 ++ natLe q.tag.toNat 2 ++ natLe q.index.toNat 2 ++ natLe x.length 2 ++ natLe detail 4 ++ res) 64
  let n := ((s.page q.m).rangeOf q.index).bind (·.qp)
  let s := s.updPage q.m (fun p =>
    { p with mem := mwriteN (mwriteN p.mem (0xB000 + q.xargOff) x) (0x5000 + 64 * (q.index.toNat % 256)) slot, rspPi := q.index + 1 })
  match n with
  | some n => queueSend s n (slot ++ x) (some q.index)
  | none => s

/-- Writes the COMPLETION that NOTIFY asks for with an immediate status (02 R36). -/
def notifyDone (s : State) (q : Req) (status : Nat) : State :=
  if q.notify && status != stPending then postCompletion s q.owes status s.ct [] else s

/-- A response with its NOTIFY. -/
def closeWith (s : State) (q : Req) (status detail : Nat) (res xres : Bytes) : State :=
  notifyDone (respond s q status detail res xres) q status

/-- The effect of a body that answered OK or PENDING. -/
def effectOf (q : Req) : Reply → State → State
  | .done s res xres, _ => closeWith s q stOk 0 res xres
  | .pend s res, _ => closeWith { s with pendings := s.pendings ++ [q.owes] } q stPending 0 res []
  | .fail st d, s => closeWith s q st d [] []
  | .failed s st, _ => closeWith s q st 0 [] []

/-- The status that a reply gives. -/
def Reply.status : Reply → Nat
  | .fail st _ => st
  | .failed _ st => st
  | .done _ _ _ => stOk
  | .pend _ _ => stPending

/-- A reply is OK or PENDING. -/
def Reply.good (r : Reply) : Bool := r.status == stOk || r.status == stPending

/-- Runs a command's body on the checked request: BUSY (02 R38), which comes before a want of resources (02 R47), VALIDATE_ONLY
(02 R36), the audit record (02 R49), the effect, the response. -/
def conclude (c : Cmd) (q : Req) (s : State) : State :=
  let r := c.body q s
  if !r.good then
    (match r with
      | .failed _ st => if q.validateOnly then closeWith s q st 0 [] [] else effectOf q r s
      | _ => if r.status == stNoResource && c.blocked q s then closeWith s q stBusy 0 [] [] else effectOf q r s)
  else if c.blocked q s then closeWith s q stBusy 0 [] []
  else if q.validateOnly && !c.query then closeWith s q r.status 0 [] []
  else if c.changes q && q.party.isRole && !c.idle q s then
    if s.flash.writeOk then
      let s := auditWrite s q.m q.binding (BitVec.ofNat 16 q.opcode) (match q.party with | .role r => roleCode r | _ => 0) q.keyIndex r.status q.digest
      c.after q (effectOf q (c.body q s) s)
    else closeWith s q stFault 0 [] []
  else c.after q (effectOf q r s)

/-- The pending entry that a command's COMPLETION would end. -/
def owesOf (c : Cmd) (q : Req) : Pending :=
  let o := c.obj q
  { objType := o.1, objId := o.2, mailbox := q.m, tag := q.tag, opcode := BitVec.ofNat 16 q.opcode, lock := (c.lock q).getD (if o.1 = 0x0A then (0x1000 + q.opcode, 0) else o)
    span := c.span q, id := q.serial
    role := if c.changes q then (match q.party with | .role r => some r | _ => none) else none
    keyIndex := q.keyIndex, binding := q.binding, digest := if c.changes q then q.digest else 0 }

/-- The checks of 02 R47 in their order, then the command. -/
def answer (c : Cmd) (q : Req) (s : State) : State :=
  let q := { q with owes := owesOf c q }
  let s := takeUp (c.before q s) q
  if s.dev.mode == .minimal && !c.minimal then closeWith s q stMinimal 0 [] []
  else match authorise s c q with
    | (none, s') => closeWith s' q stDenied 0 [] []
    | (some q', s') =>
      let q' := { q' with owes := owesOf c q' }
      match slotFault q' with
      | some r => effectOf q' r s'
      | none => conclude c q' s'

/-- The shepherd takes up a command of this kind from mailbox `m`, where one stands at the head of the mailbox whose turn
it is; otherwise nothing happens (log entry 3). -/
def serve (m : Nat) (c : Cmd) (s : State) : Host.Outcome State Fault Refusal :=
  .next (match headOf s m with
    | some q => if q.opcode == c.op && c.form q then answer c q s else s
    | none => s)

/-! ### Issuers (02 R46) -/

/-- Every role. -/
def anyRole : Party → Bool
  | .role _ => true
  | _ => false
/-- The operator. -/
def operatorOnly : Party → Bool
  | .role .operator => true
  | _ => false
/-- The installer. -/
def installerOnly : Party → Bool
  | .role .installer => true
  | _ => false
/-- The maker. -/
def makerOnly : Party → Bool
  | .role .maker => true
  | _ => false
/-- A tenant. -/
def tenantOnly : Party → Bool
  | .tenant _ => true
  | _ => false
/-- The operator and tenants. -/
def operatorTenant (p : Party) : Bool := operatorOnly p || tenantOnly p
/-- The operator and the installer. -/
def operatorInstaller (p : Party) : Bool := operatorOnly p || installerOnly p

/-! ### Choices of the part -/

/-- One of several that spec/ leaves the choice of to the part, by draw (log entry 24). -/
def pick (draw : Nat) (l : List Nat) : Option Nat := l[Config.choice draw % l.length]?

/-- The draw has been used. -/
def drawn (s : State) : State := { s with free := s.free + 1 }

/-! ### Staged changes (02 R54, R55) -/

/-- A change of the accounting period that waits for its boundary: the boundary and the new period. -/
def stagedPeriod (s : State) : Option (Nat × Nat) :=
  s.staged.findSome? (fun x => match x.change with | .period ns => some (roundUp x.at_ s.dev.acctPeriod, ns) | _ => none)

/-- The first boundary at or after cluster time `t`: of the new period after the boundary at which a staged one commits
(02 R57). -/
def boundaryFrom (s : State) (t : Nat) : Nat :=
  match stagedPeriod s with
  | some (b, ns) => if t ≤ b then roundUp t s.dev.acctPeriod else roundUp t ns
  | none => roundUp t s.dev.acctPeriod

/-- The first instant of a boundary that a change can join, whose shadow writes begin now: they finish 20 µs before it (02 R55).
The change joins the first boundary from then on, of whatever period is live by then (02 R57). -/
def joinBoundary (s : State) : Nat := s.ct + Config.shadowWriteNs s.free + usNs 20

/-- Stages changes for one boundary; the command that waits for them is owed a COMPLETION with the first. -/
def stageAll (s : State) (cs : List Change) (owes : Option Pending) : State :=
  { s with staged := s.staged ++ cs.zipIdx.map (fun c => { at_ := joinBoundary s, change := c.1, owes := if c.2 = 0 then owes else none })
           free := s.free + 1 }

/-- Stages a change for its boundary, with the command that waits for it. -/
def stage (s : State) (c : Change) (owes : Option Pending) : State := stageAll s [c] owes

/-! ### Device events (02 R40, R46) -/

/-- Posts an event to the queues of roles. -/
def postRoles (s : State) (roles : List Role) (code objType objId : Nat) (data : Bytes) (status : Nat := 0) : State :=
  roles.foldl (fun s r => postEvent s (roleMailbox r) code objType objId data status) s

/-- Posts an event to a context's queue. -/
def postCtx (s : State) (c code objType objId : Nat) (data : Bytes) (status : Nat := 0) : State :=
  postEvent s (ctxMailbox c) code objType objId data status

end Sys2Proof.Machine
end

