-- ==== Sys2Proof/Machine/Trace.lean ====
section
/-!
DEFINITION. The periscope's streams: accepting records, drops and LOSS records (18 R413 to R418). Writing them out stands
with the counters and trace commands.
-/

namespace Sys2Proof.Machine

open Sys2Proof

/-- Records a stream's queue holds (18 R417). -/
def traceQueue : Nat := 1024

/-- Slots of a region slice (18 R416). -/
def Stream.slotCount (x : Stream) : Nat := x.sliceSize / 32

/-- Records in a region slice (18 R416). -/
def Stream.heldRecs (x : Stream) : Nat := if x.slotCount = 0 then 0 else (x.writeIdx + x.slotCount - x.readIdx) % x.slotCount

/-- The stream has space for another record: in its queue, and, for a region slice, in the slice (18 R417). -/
def Stream.room (x : Stream) (n : Nat) : Bool :=
  x.queue.length + n ≤ traceQueue && (x.toSession || x.heldRecs + x.queue.length + n < x.slotCount)

/-- A record takes the stream's next SEQ (18 R414). -/
def Stream.put (x : Stream) (r : TraceRec) : Stream :=
  { x with queue := x.queue ++ [{ r with seq := x.seq % 65536, flags := if x.source = 0xFFFF then 1 else 0 }], seq := x.seq + 1, written := x.written + 1 }

/-- A record enters the stream's queue at an uptime. -/
def Stream.enter (x : Stream) (r : TraceRec) (now : Nat) : Stream :=
  { x.put { r with at_ := now } with oldest := if x.queue.isEmpty then now else x.oldest, newest := now }

/-- The LOSS record of a stream's drops (18 R414). -/
def Stream.lossRec (x : Stream) : TraceRec :=
  { type := 0xF, source := 0x90, flags := 0, ctx := x.source, seq := 0, time := x.lastDrop, data := natLe x.firstDrop 8 ++ natLe x.drops 4 ++ natLe 0 4 }

/-- A record dropped (18 R417). -/
def Stream.drop (x : Stream) (time : Nat) : Stream :=
  { x with drops := x.drops + 1, dropsTotal := x.dropsTotal + 1, firstDrop := if x.drops = 0 then time else x.firstDrop, lastDrop := time }

/-- The owner's queue of a stream: the operator's, or its context's (18 R417). -/
def Stream.owner (x : Stream) : Nat := if x.source = 0xFFFF then 0 else ctxMailbox x.source

/-- Writes the LOSS record that is due once there is space for it, and its TRACE_LOSS event, at most one per accounting period (18 R417). -/
def writeLoss (s : State) (n : Nat) : State :=
  let x := s.stream n
  if x.drops = 0 || !x.room 1 then s else
  let data := natLe x.firstDrop 8 ++ natLe x.drops 4
  let s := if x.lossEventPeriod = some s.dev.lastBoundary then s else postEvent s x.owner 0xF 0x09 n data
  s.updStream n (fun x => { x.enter x.lossRec s.now with drops := 0, losses := x.losses + 1, lossEventPeriod := some s.dev.lastBoundary })

/-- Records of a full write to a region slice (18 R416). -/
def fullWrite : Nat := 128

/-- A record enters a stream that has space, or is dropped. -/
def Stream.takeOrDrop (x : Stream) (r : TraceRec) (now : Nat) : Stream := if x.room 1 then x.enter r now else x.drop r.time

/-- A running stream takes a record, or drops it, after the LOSS that is due; a stopped one drops it (18 R417 to R419). -/
def streamTake (s : State) (n : Nat) (r : TraceRec) : State :=
  match (s.stream n).st with
  | .off => s
  | .stopped => s.updStream n (·.drop r.time)
  | .running => (writeLoss s n).updStream n (fun x => if x.drops = 0 then x.takeOrDrop r s.now else x.drop r.time)

/-- The record types whose records enter context streams (18 R414). -/
def contextTypes : List Nat := [1, 2, 3, 4, 5, 7, 0xF]

/-- A stream selects a record of a type and context (18 R413, R414). -/
def Stream.selects (x : Stream) (type : Nat) (ctx : Option Nat) : Bool :=
  bit x.mask.toNat type && (x.source == 0xFFFF || (ctx == some x.source && contextTypes.contains type))

/-- A context's trace is enabled for a record type (18 R413). -/
def traceEnabled (s : State) (type : Nat) (ctx : Option Nat) : Bool :=
  s.streams.any (fun e => e.2.st == StreamState.running && ctx == some e.2.source && bit e.2.mask.toNat type)

/-- A record goes to every stream that selects it; USER, LATE and REFRESH_FORCED are written only where the context's trace
is enabled (18 R413). -/
def trace (s : State) (type unit : Nat) (ctx : Option Nat) (time : Nat) (data : Bytes) : State :=
  if 1 ≤ type && type ≤ 3 && ctx.isSome && !traceEnabled s type ctx then s else
  let r : TraceRec := { type := type, source := unit, flags := 0, ctx := ctx.getD 0xFFFF, seq := 0, time := time, data := padTo data 16 }
  foldKeys (tkeys s.streams (fun _ x => x.selects type ctx)) s (fun s n => streamTake s n r)

/-- A trace record's 32 bytes (18 R414). -/
def TraceRec.bytes (r : TraceRec) : Bytes :=
  natLe r.type 2 ++ natLe r.source 1 ++ natLe r.flags 1 ++ natLe r.ctx 2 ++ natLe r.seq 2 ++ natLe r.time 8 ++ padTo r.data 16

end Sys2Proof.Machine
end

