-- ==== Sys2Proof/Machine/Address.lean ====
section
/-!
DEFINITION. The address function, placement, the line map, and the segment check (03 R61 to R75; 09 R203, R204).
-/

namespace Sys2Proof.Machine

open Sys2Proof

/-- Stripes of the build (03 R61). -/
def State.stripes (s : State) : Nat := match s.build with | .h4 => 33554432 | .h3 => 12582912
/-- Tenant extents of the build (00 R1; 03 R66). -/
def State.tenantExtents (s : State) : Nat := match s.build with | .h4 => 1776 | .h3 => 656
/-- Bytes of data space (03). -/
def State.dataSpace (s : State) : Nat := s.stripes * 57344
/-- RB, the base of the reserved region (03 R67). -/
def State.reservedBase (s : State) : Nat := s.tenantExtents * 2 ^ 30

/-- Stripe of a data address. -/
def stripeOf (a : Nat) : Nat := a / 4096 / 14
/-- Data unit of a data address in its stripe. -/
def unitOf (a : Nat) : Nat := a / 4096 % 14
/-- Parity stack of a stripe (03 R62). -/
def parityHome (st : Nat) : Nat := st % 16
/-- Spare stack of a stripe (03 R62). -/
def spareStack (st : Nat) : Nat := (st + 1) % 16
/-- Stack of data unit `k` of a stripe (03 R62). -/
def dataHome (st k : Nat) : Nat := (st + 2 + k) % 16
/-- Stack-local address of a data address (03 R62). -/
def localOf (a : Nat) : Nat := stripeOf a * 4096 + a % 4096
/-- The key of a stack byte or line in `State.pool` and `State.lines`. -/
def phys (t l : Nat) : Nat := t * 2 ^ 40 + l

/-- What a stack unit holds (03 R63). -/
inductive Content where
  | parity (st : Nat)
  | spare (st : Nat)
  | data (st k : Nat)
deriving DecidableEq, Repr

/-- The content of a stack byte (03 R63). -/
def contentOf (t l : Nat) : Content :=
  let st := l / 4096
  if t = parityHome st then .parity st
  else if t = spareStack st then .spare st
  else .data st ((t + 16 - st % 16 + 14) % 16)

/-- The first data address of data unit `k` of a stripe. -/
def unitAddr (st k : Nat) : Nat := (st * 14 + k) * 4096

/-- Placement of a unit of stripe `st` whose home is `t` (03 R75). -/
def placed (s : State) (st t : Nat) : Nat :=
  if s.layout.f = some t && s.layout.st != .whole && (s.layout.st != .rebuilding || st < s.layout.w) then spareStack st else t

/-- The stack is in service (10 R235, R237). -/
def stackServes (s : State) (t : Nat) : Bool := (s.stack t).st == .serving && (s.stack t).inService

/-- The stack is in service and its controller's clock runs (19 R435). -/
def controllerRuns (s : State) (t : Nat) : Bool := stackServes s t && (s.stack t).clocked

/-- A unit whose home is `t` is present: its stack serves, and where that is the spare, it holds rebuilt data (10 R235). -/
def unitPresent (s : State) (st t : Nat) : Bool :=
  let p := placed s st t
  stackServes s p && (p == t || st < s.layout.w)

/-- Every stack controller's clock runs. -/
def stacksClocked (s : State) : Bool := s.stks.all (fun e => e.2.clocked)

/-- The stacks that an access to data unit `k` of a stripe asks for its lines: the one that serves the unit, else every stack that
could reconstruct it; a write also asks the parity home (10 R233, R235). -/
def askedStacks (s : State) (isWrite : Bool) (st k : Nat) : List Nat :=
  (if unitPresent s st (dataHome st k) then [placed s st (dataHome st k)] else List.range 16)
    ++ (if isWrite then [placed s st (parityHome st)] else [])

/-- An access waits for a stack controller whose clock has stopped: such a controller takes nothing and answers nothing (19 R435).
The reset that the firmware then orders ends the wait. -/
def accessHeld (s : State) (isWrite : Bool) (pieces : List (Nat × Nat)) : Bool :=
  !stacksClocked s && pieces.any (fun x => (List.range (x.2 / 4096 + 2)).any (fun i =>
    let u := x.1 / 4096 + i
    u * 4096 < x.1 + x.2 && (askedStacks s isWrite (u / 14) (u % 14)).any (fun t => !(s.stack t).clocked)))

/-! ### The line map (09 R203, R204) -/

/-- Line groups G. -/
def State.lineGroups (s : State) : Nat := match s.build with | .h4 => 4 | .h3 => 2
/-- Banks B. -/
def State.banks (s : State) : Nat := match s.build with | .h4 => 64 | .h3 => 48
/-- Dies of a stack. -/
def State.dies (s : State) : Nat := match s.build with | .h4 => 16 | .h3 => 12
/-- PCs of a stack. -/
def State.pcs (s : State) : Nat := match s.build with | .h4 => 64 | .h3 => 32

/-- The line group of a stack-local address. -/
def groupOf (s : State) (l : Nat) : Nat := l / 4096 % s.lineGroups
/-- The line number within its group. -/
def lgOf (s : State) (l : Nat) : Nat := l / 4096 / s.lineGroups * 32 + l % 4096 / 128
/-- The bank. -/
def bankOf (s : State) (l : Nat) : Nat := lgOf s l / 128 % s.banks
/-- The row. -/
def rowOf (s : State) (l : Nat) : Nat := lgOf s l / (128 * s.banks)
/-- The die of slice `i`. -/
def dieOf (s : State) (l i : Nat) : Nat := (i + 4 * bankOf s l) % s.dies

/-! ### The controllers' clocks and the rebuild's stripe -/

/-- PIN_RATE in Mb/s of the profile set applied at this start (09 R205). -/
def pinRate (s : State) (t : Nat) : Nat := s.dev.profile.num (t * s.profileSize + 4) 4
/-- `n` cycles of MCLK in ns, rounded up (01 R22: MCLK is the pin rate divided by 8). -/
def mclkNs (s : State) (t n : Nat) : Nat := ceilDiv (n * 8000) (pinRate s t)

/-- The lowest stripe from `w` on that the rebuild of `f` does not skip (10 R239): the next to be rebuilt. -/
def skipSpare (f w : Nat) : Nat := if spareStack w = f then w + 1 else w
/-- The stripe of the rebuild's present or next slot (10 R239). -/
def slotStripe (s : State) (f : Nat) : Nat := skipSpare f s.layout.w

/-! ### The segment check (03 R68 to R70) -/

/-- The entry of a segment that covers an address. -/
def Segment.holds (g : Segment) (va : Nat) : Bool := g.base ≤ va && va < g.base + g.list.length * 2 ^ 30

/-- The valid segment of a context that covers an address, with its slot. -/
def segmentAt (s : State) (c va : Nat) : Option (Nat × Segment) := (s.ctx c).segs.find? (fun e => e.2.holds va)

/-- The extent's fence has closed (15 R351). -/
def fenced (s : State) (e : Nat) : Bool := (s.extent e).st == .fenced || (s.extent e).st == .clearing

/-- A segment entry answers REVOKED (03 R70). -/
def entryRevoked (s : State) (x : SegEntry) : Bool := x.void || x.gen != (s.extent x.extent).gen || fenced s x.extent

/-- The pieces of [v, e) in a segment, one per extent; none where an entry answers REVOKED. `n` bounds the extents. -/
def piecesOf (s : State) (g : Segment) (e : Nat) : Nat → Nat → Option (List (Nat × Nat))
  | 0, _ => some []
  | n + 1, v =>
    if v ≥ e then some [] else
    let j := (v - g.base) / 2 ^ 30
    match g.list[j]? with
    | none => some []
    | some x =>
      if entryRevoked s x then none else
      let k := min e (g.base + (j + 1) * 2 ^ 30) - v
      (piecesOf s g e n (v + k)).map ((x.extent * 2 ^ 30 + (v - g.base) % 2 ^ 30, k) :: ·)

/-- The segment check's answer: the pieces, or a status. -/
inductive Checked where
  | ok (pieces : List (Nat × Nat)) (slot : Nat) (seg : Segment)
  | no (status : Nat)

/-- READ. -/
def needRead : Nat := 0x01
/-- WRITE. -/
def needWrite : Nat := 0x02
/-- ATOMIC. -/
def needAtomic : Nat := 0x04
/-- FABRIC. -/
def needFabric : Nat := 0x10
/-- ENGINE. -/
def needEngine : Nat := 0x20

/-- The segment check of a request (03 R70). -/
def segCheck (s : State) (c va len need : Nat) : Checked :=
  if len = 0 || va + len > 2 ^ 48 then .no stDenied else
  match segmentAt s c va with
  | none => .no stDenied
  | some (slot, g) =>
    if va + len > g.base + g.list.length * 2 ^ 30 then .no stDenied
    else if need &&& g.flags.toNat != need then .no stDenied
    else match piecesOf s g (va + len) (len / 2 ^ 30 + 2) va with
      | none => .no stRevoked
      | some ps => .ok ps slot g

/-- The segment's flag COHERENT (03 R69). -/
def Segment.coherent (g : Segment) : Bool := g.flags.getLsbD 3

/-- Counts a segment check's refusal (18 R408: DEVICE 8, 9; CONTEXT 5, 6). -/
def countRefusal (s : State) (c status : Nat) : State :=
  if status = stDenied then bump (bump s .device 0 8 1) .context c 5 1
  else if status = stRevoked then bump (bump s .device 0 9 1) .context c 6 1
  else s

/-- The extent of a data address, where it is a tenant's. -/
def extentAt (s : State) (a : Nat) : Option Nat := if a < s.reservedBase then some (a / 2 ^ 30) else none

/-- The context that holds a granted extent. -/
def extentHolder (s : State) (e : Nat) : Option Nat :=
  match (s.extent e).st with
  | .granted | .revoking => some (s.extent e).owner
  | _ => none

end Sys2Proof.Machine
end

