-- ==== Sys2Proof/Machine/Pool.lean ====
section
/-!
DEFINITION. Lines: the outer code's outcomes, reconstruction, parity and write combining, and the reads and writes of data
space that every requester shares (03 R64, R65; 09 R218 to R227; 10 R232 to R236). Bytes that the code corrects are held
as written; a line's errors stand beside it as symbol patterns (log entry 16).
-/

namespace Sys2Proof.Machine

open Sys2Proof

/-- Bytes of a line (03 R64). -/
def lineLen : Nat := 128

/-- Who accesses a line, for its class (09 R216): background, or demand, perhaps by an engine of a schedule; an access that serves a
request has the class that the request has taken at its own controller. -/
structure Access where
  background : Bool := false
  sched : Option Nat := none
  cls : Option Nat := none
deriving DecidableEq, Repr

/-- Demand access. -/
def demand : Access := {}
/-- Background access. -/
def background : Access := { background := true }

/-- The number of a stack's 1,024-MCLK interval (09 R216). -/
def busInterval (s : State) (t : Nat) : Nat := s.now / max 1 (mclkNs s t 1024)

/-- Bytes that class 1 has moved in the present interval. -/
def Reserve.usedIn (r : Reserve) (slot : Nat) : Nat := if r.slot = slot then r.used else 0

/-- The class an access takes on a stack (09 R216): 1 for an engine of the schedule whose RESERVE interval runs, up to SHARE / 128 of
the data-bus cycles of the 1,024-MCLK interval, in which a PC moves 32 bytes each; else 2; 3 in the background. Requests act one
at a time in the order in which they arrive, so that the orders within a class are timing. -/
def classOf (s : State) (t : Nat) (a : Access) : Nat :=
  if a.background then 3
  else if a.cls.isSome then a.cls.getD 2
  else if (s.stack t).reserved.any (fun r => a.sched == some r.sched && s.now < r.ends
      && r.usedIn (busInterval s t) + lineLen ≤ r.share * 256 * s.pcs) then 1 else 2

/-- The accesses that serve a request to a line of stack `t`, which take its class on every stack (09 R216). -/
def Access.serving (s : State) (t : Nat) (a : Access) : Access := { a with cls := some (classOf s t a) }

/-- Time since `start` counted in buckets of `len` ns: sums the last `n` buckets of die or stack `i`. -/
def bucketSum (b : Tab Nat) (i now len n : Nat) : Nat :=
  (List.range n).foldl (fun a k => if k ≤ now / len then a + tgetD b 0 (i * 2 ^ 40 + (now / len - k)) else a) 0

/-- Adds to the present bucket. -/
def bucketAdd (b : Tab Nat) (i now len n : Nat) : Tab Nat := tupd b 0 (i * 2 ^ 40 + now / len) (· + n)

/-- The lines' errors. -/
def lineErr (s : State) (t l : Nat) : LineErr := tgetD s.lines {} (phys t l)

/-- The stored bytes of a line, as the code corrects them. -/
def lineBytes (s : State) (t l : Nat) : Bytes := mreadN s.pool (phys t l) lineLen

/-- The slice of a symbol (09 R204, R220). -/
def sliceOf (sym : Nat) : Nat := if sym < 128 then sym / 8 else sym - 128

/-- The burst of four lines that a stack-local address lies in (09 R204, R219). -/
def burstOf (l : Nat) : Nat := l / 512

/-- The stack reports the slices that its inner code leaves uncorrected in a line's burst (09 R219); the report stands until the next one,
or until a line of the burst is written (DESIGN CHOICE, log entry 109). -/
def reportSlices (s : State) (t l : Nat) (mask : BitVec 16) : State :=
  s.updStack t (fun x => { x with uncorrected := if mask = 0 then tdel x.uncorrected (burstOf l) else tput x.uncorrected (burstOf l) mask })

/-- Slices erased on a line: those the stack reports uncorrected in its burst, and those on bad dies (09 R219, R221). -/
def erasedSlices (s : State) (t l : Nat) : List Nat :=
  (List.range 16).filter (fun i => (tgetD (s.stack t).uncorrected 0 (burstOf l)).getLsbD i || (s.stack t).badDies.getLsbD (dieOf s l i))

/-- The outcome of decoding a line (09 R221, R222). -/
inductive Decoded where
  | clean | corrected | beyond
deriving DecidableEq, Repr

/-- Decodes a line's error pattern (09 R221; 10 R239 for the mark). -/
def decodeErr (e : LineErr) (erased : List Nat) : Decoded :=
  let t := (e.errs.filter (fun x => !erased.contains (sliceOf x.1))).length
  if e.mark then .beyond
  else if e.errs.isEmpty && 9 * erased.length ≤ 16 then .clean
  else if 2 * t + 9 * erased.length ≤ 16 then .corrected
  else .beyond

/-- Decodes a stored line. -/
def decodeLine (s : State) (t l : Nat) : Decoded := decodeErr (lineErr s t l) (erasedSlices s t l)

/-- A unit's line can be a source: its unit is present and it decodes (10 R235). -/
def sourceOk (s : State) (st home j : Nat) : Bool :=
  unitPresent s st home && decodeLine s (placed s st home) (st * 4096 + 128 * j) != .beyond

/-- The bytes of a unit's line `j`. -/
def unitLine (s : State) (st home j : Nat) : Bytes := lineBytes s (placed s st home) (st * 4096 + 128 * j)

/-- The combining entry of a stripe (10 R234). -/
def combineOf (s : State) (st : Nat) : Option Combine := (s.stack (parityHome st)).combining.find? (fun c => c.stripe == st)

/-- The pending delta of a line-row. -/
def pendingDelta (s : State) (st j : Nat) : Bytes :=
  match combineOf s st with
  | some c => mreadN c.delta (128 * j) lineLen
  | none => List.replicate lineLen 0

/-- XOR of the lines `j` of some data units. -/
def xorUnits (s : State) (st j : Nat) (ks : List Nat) : Bytes :=
  ks.foldl (fun a k => xorBytes a (unitLine s st (dataHome st k) j)) (List.replicate lineLen 0)

/-- The data units of a stripe but one. -/
def otherUnits (k : Nat) : List Nat := (List.range 14).filter (· != k)

/-- Line `j` of data unit `k` reconstructed from the 13 others and parity with its pending delta (10 R235). -/
def reconstructData (s : State) (st k j : Nat) : Option Bytes :=
  if (otherUnits k).all (fun i => sourceOk s st (dataHome st i) j) && sourceOk s st (parityHome st) j then
    some (xorBytes (xorUnits s st j (otherUnits k)) (xorBytes (unitLine s st (parityHome st) j) (pendingDelta s st j)))
  else none

/-- The stored parity line reconstructed from the data and the pending delta (10 R232). -/
def reconstructParity (s : State) (st j : Nat) : Option Bytes :=
  if (List.range 14).all (fun i => sourceOk s st (dataHome st i) j) then
    some (xorBytes (xorUnits s st j (List.range 14)) (pendingDelta s st j))
  else none

/-! ### Counts, events and fencing -/

/-- Combining entries whose parity unit becomes absent are discarded (10 R234). -/
def discardCombining (s : State) (t : Nat) : State :=
  foldKeys (List.range 16) s (fun s k =>
    if (s.stack k).combining.any (fun c => placed s c.stripe (parityHome c.stripe) == t) then
      s.updStack k (fun x => { x with combining := x.combining.filter (fun c => placed s c.stripe (parityHome c.stripe) != t) })
    else s)

/-- Sets a flag of a stack and counts the setting (09 R227, R230; 00 R11). -/
def setStackFlag (s : State) (t i : Nat) : State :=
  s.updStack t (fun x => { x with flags := x.flags ||| BitVec.ofNat 8 (2 ^ i), flagCnts := tupd x.flagCnts 0 i (· + 1) })

/-- Fences a stack for failure declaration (09 R227; 10 R236, R237): causes 1 DIE_BAD, 2 UE_RATE, 3 PHY_FAULT, 4 operator. -/
def fenceStack (s : State) (t cause : Nat) : State :=
  if (s.stack t).st != .serving then s
  else countAlerts s (discardCombining (s.updStack t (fun x => { x with st := .fenced, cause := cause, fencedAt := s.now })) t)

/-- A condition of 09 R227: its flag, and the fence. -/
def stackCondition (s : State) (t cause : Nat) : State := fenceStack (setStackFlag s t (cause + 1)) t cause

/-- The bad dies of a stack. -/
def badDieCount (x : Stack) : Nat := ((List.range 16).filter (fun i => x.badDies.getLsbD i)).length

/-- Marks dies bad and acts on DIE_LIMIT (09 R226, R227). -/
def markDies (s : State) (t : Nat) (mask : BitVec 16) : State :=
  let new := mask &&& ~~~(s.stack t).badDies
  if new = 0 then s else
  let s := s.updStack t (fun x => { x with badDies := x.badDies ||| new })
  if badDieCount (s.stack t) > s.policy.dieLimit then stackCondition s t 1 else s

/-- Counts a line's symbol errors against the dies that held them (09 R222, R226). -/
def countDies (s : State) (t l : Nat) (e : LineErr) : State :=
  let dies := (e.errs.map (fun x => dieOf s l (sliceOf x.1))).dedup
  let s := s.updStack t (fun x => { x with dieErrs := dies.foldl (fun b d => bucketAdd b d s.now (secNs 3600) 1) x.dieErrs })
  let bad := dies.filter (fun d => bucketSum (s.stack t).dieErrs d s.now (secNs 3600) 24 > s.policy.dieBadLines)
  markDies s t (bad.foldl (fun m d => m ||| BitVec.ofNat 16 (2 ^ d)) 0)

/-- Counts a line beyond the outer code (09 R227). -/
def countUe (s : State) (t : Nat) : State :=
  let s := s.updStack t (fun x => { x with ueErrs := bucketAdd x.ueErrs 0 s.now (secNs 60) 1 })
  if bucketSum (s.stack t).ueErrs 0 s.now (secNs 60) 60 > s.policy.ueLimit then stackCondition s t 2 else s

/-- Queues a repair write (09 R222, R223). -/
def queueRepair (s : State) (t l : Nat) : State :=
  let q := (s.stack t).repairs
  if q.contains l then s
  else if q.length ≥ 256 then
    bump (setStackFlag (s.updStack t (fun x => { x with repairsDropped := x.repairsDropped + 1 })) t 5) .stack t 11 1
  else s.updStack t (fun x => { x with repairs := x.repairs ++ [l] })

/-- The unit that a stored line belongs to is present (10 R235): its stack serves, and a spare holds rebuilt data. -/
def ownUnitPresent (s : State) (t l : Nat) : Bool :=
  stackServes s t && (match contentOf t l with | .spare st => s.layout.f.isSome && st < s.layout.w | _ => true)

/-- The slice mask of 09 R224. -/
def sliceMask (s : State) (t l : Nat) : Nat :=
  if ownUnitPresent s t l then
    let m := (erasedSlices s t l).foldl (fun a i => a + 2 ^ i) 0
    if m = 0 then 0xFFFF else m
  else 0xFFFF

/-- DATA of MEDIA_ERROR and LINE_RECONSTRUCTED (09 R224; 17 R386): kind 1 data, 2 parity, 3 spare. -/
def mediaData (s : State) (kind t l : Nat) : Bytes :=
  natLe kind 1 ++ natLe (sliceMask s t l) 2 ++ natLe l 6 ++ natLe (bankOf s l) 1 ++ natLe (rowOf s l) 2

/-- Unit kind of a stack's line: 3 where the stack is the stripe's spare. -/
def kindOf (t l : Nat) : Nat :=
  match contentOf t l with
  | .parity _ => 2
  | .spare _ => 3
  | .data _ _ => 1

/-- The data address of a stored line, where it holds data: through placement for a spare. -/
def addrOfLine (s : State) (t l : Nat) : Option Nat :=
  match contentOf t l with
  | .data st k => some (unitAddr st k + l % 4096)
  | .parity _ => none
  | .spare st =>
    match s.layout.f with
    | some f => match contentOf f l with
      | .data _ k => if placed s st f == t then some (unitAddr st k + l % 4096) else none
      | _ => none
    | none => none

/-- The line could not be reconstructed (09 R222, R224): counters, event, error log, trace. -/
def mediaFailed (s : State) (t l : Nat) : State :=
  let d := mediaData s (kindOf t l) t l
  let holder := (addrOfLine s t l).bind (fun a => (extentAt s a).bind (extentHolder s))
  let s := bump (s.updStack t (fun x => { x with mediaErrors := x.mediaErrors + 1 })) .stack t 9 1
  let s := if (s.stack t).mediaEvents < 64 then
      let s := s.updStack t (fun x => { x with mediaEvents := x.mediaEvents + 1 })
      let s := postEvent s 0 8 0x07 t d stMedia
      match holder with | some c => postCtx s c 8 0x07 t d stMedia | none => s
    else s
  let s := logError s 0x20 2 (0x20 + t) d stMedia
  trace s 5 (0x20 + t) holder s.ct (d ++ natLe t 1)

/-- A line was served by reconstruction (09 R222). -/
def lineReconstructed (s : State) (t l : Nat) : State :=
  let s := bump (s.updStack t (fun x => { x with reconstructed := x.reconstructed + 1 })) .stack t 8 1
  logError s 0x10 1 (0x20 + t) (mediaData s (kindOf t l) t l)

/-- A line was corrected (09 R222). -/
def lineCorrected (s : State) (t l : Nat) : State :=
  let s := bump (s.updStack t (fun x => { x with corrected := x.corrected + 1 })) .stack t 7 1
  countDies (queueRepair s t l) t l (lineErr s t l)

/-! ### Rows (09 R215) -/

/-- An access to a line in a class: row hit or miss, the row left open, the last demand of the line group. -/
def touchClass (s : State) (t l cls : Nat) : State :=
  let key := groupOf s l * 64 + bankOf s l
  let hit := match tget? (s.stack t).rows key with
    | some r => r.row == rowOf s l && r.pcs == 0xFFFF
    | none => false
  let s := bump s .stack t (if hit then 5 else 6) 1
  let s := bump s .stack t (cls - 1) lineLen
  s.updStack t (fun x =>
    { x with rows := if s.dev.idleClose = 0 then tdel x.rows key else tput x.rows key { row := rowOf s l, last := s.now }
             lastDemand := if cls = 3 then x.lastDemand else tput x.lastDemand (groupOf s l) s.now
             reserved := if cls = 1 then x.reserved.map (fun r => { r with slot := busInterval s t, used := r.usedIn (busInterval s t) + lineLen }) else x.reserved })

/-- An access to a line, in the class of its requester. -/
def touchRow (s : State) (t l : Nat) (a : Access) : State := touchClass s t l (classOf s t a)

/-! ### Storing lines, and repairs (09 R218, R222, R223) -/

/-- Stores a line: a fresh codeword (09 R222); a queued repair of it is dropped (09 R223). -/
def storeLine (s : State) (t l : Nat) (b : Bytes) : State :=
  let s := reportSlices { s with pool := mwriteN s.pool (phys t l) b, lines := tdel s.lines (phys t l) } t l 0
  if (s.stack t).repairs.contains l then s.updStack t (fun x => { x with repairs := x.repairs.erase l }) else s

/-- A repair write of a line that decodes (09 R223). -/
def rewriteLine (s : State) (acc : Access) (t l : Nat) : State := storeLine (bump (touchRow s t l acc) .stack t 10 1) t l (lineBytes s t l)

/-- A repair that is queued for a line goes before a later access to it, in that access's class, where the line decodes (09 R218). -/
def settleRepair (s : State) (acc : Access) (t l : Nat) : State :=
  if (s.stack t).repairs.contains l && decodeLine s t l != .beyond then rewriteLine s acc t l else s

/-! ### Source reads (09 R216, R222; 10 R235) -/

/-- A source line is read and decoded, in the class of the request that it serves; its data are `unitLine`. A repair that waits
for a source beyond its code could be made from the very line served alone, and stays queued. -/
def sourceRead (a : Access) (st j : Nat) (s : State) (home : Nat) : State :=
  let t := placed s st home
  let l := st * 4096 + 128 * j
  let s := touchRow (settleRepair s a t l) t l a
  match decodeLine s t l with
  | .clean => s
  | .corrected => lineCorrected s t l
  | .beyond => countUe s t

/-- The homes of a stripe's data units and parity unit but one. -/
def otherHomes (st home : Nat) : List Nat := ((List.range 14).map (dataHome st) ++ [parityHome st]).filter (· != home)

/-- The source reads of a reconstruction of a unit's line: none where a second unit of the stripe is absent. -/
def readSources (s : State) (a : Access) (st home j : Nat) : State :=
  if (otherHomes st home).all (unitPresent s st) then (otherHomes st home).foldl (sourceRead a st j) s else s

/-- The reconstruction of a stored line from the rest of its stripe (10 R235). -/
def reconstructLine (s : State) (t l : Nat) : Option Bytes :=
  let j := l % 4096 / 128
  match contentOf t l with
  | .data st k => reconstructData s st k j
  | .parity st => reconstructParity s st j
  | .spare st =>
    match s.layout.f with
    | some f =>
      if st < s.layout.w then
        match contentOf f l with
        | .data _ k => reconstructData s st k j
        | .parity _ => reconstructParity s st j
        | .spare _ => none
      else none
    | none => none

/-- The source reads of that reconstruction. -/
def lineSources (s : State) (acc : Access) (t l : Nat) : State :=
  match contentOf t l with
  | .data st _ | .parity st => readSources s acc st t (l % 4096 / 128)
  | .spare st => match s.layout.f with
    | some f => if placed s st f == t then readSources s acc st f (l % 4096 / 128) else s
    | none => s

/-- A repair write at its line (09 R222, R223). -/
def repairLine (s : State) (acc : Access) (t l : Nat) : State :=
  if decodeLine s t l != .beyond then rewriteLine s acc t l else
  let s := bump (touchRow s t l acc) .stack t 10 1
  if (lineErr s t l).mark then s else
  let r := lineSources s acc t l
  match reconstructLine s t l with
  | some b => storeLine r t l b
  | none => r

/-- A repair queued for a line is made before a later access to it, in that access's class (09 R218). -/
def repairFirst (s : State) (acc : Access) (t l : Nat) : State :=
  if (s.stack t).repairs.contains l then repairLine (s.updStack t (fun x => { x with repairs := x.repairs.erase l })) acc t l else s

/-! ### Reading lines -/

/-- A data line as a read serves it (09 R222; 10 R235): its bytes, or none for MEDIA_ERROR. -/
def readLine (s : State) (acc : Access) (addr : Nat) : Option Bytes × State :=
  let st := stripeOf addr
  let k := unitOf addr
  let j := addr % 4096 / 128
  let home := dataHome st k
  let t := placed s st home
  let l := st * 4096 + 128 * j
  let acc := acc.serving s t
  if unitPresent s st home then
    let s := touchRow (repairFirst s acc t l) t l acc
    match decodeLine s t l with
    | .clean => (some (lineBytes s t l), s)
    | .corrected => (some (lineBytes s t l), lineCorrected s t l)
    | .beyond =>
      let s := countUe s t
      if (lineErr s t l).mark then (none, mediaFailed s t l) else
      let r := readSources s acc st home j
      match reconstructData s st k j with
      | some b => (some b, queueRepair (lineReconstructed r t l) t l)
      | none => (none, mediaFailed r t l)
  else
    let r := readSources s acc st home j
    match reconstructData s st k j with
    | some b => (some b, lineReconstructed r t l)
    | none => (none, mediaFailed r t l)

/-- Reads `n` lines from a line address: all bytes, or none where any line failed. Every line is accessed. -/
def readLines (s : State) (acc : Access) : Nat → Nat → Option Bytes × State
  | _, 0 => (some [], s)
  | a, n + 1 =>
    let (x, s) := readLine s acc a
    let (y, s) := readLines s acc (a + 128) n
    (match x, y with | some x, some y => some (x ++ y) | _, _ => none, s)

/-- Lines covered by [a, a + n). -/
def lineSpan (a n : Nat) : Nat := if n = 0 then 0 else (a + n - 1) / 128 - a / 128 + 1

/-- Reads bytes of data space. -/
def readData (s : State) (acc : Access) (a n : Nat) : Option Bytes × State :=
  let (x, s) := readLines s acc (a / 128 * 128) (lineSpan a n)
  (x.map (fun b => (b.drop (a % 128)).take n), s)

/-- Reads the pieces of a checked request. -/
def readPieces (s : State) (acc : Access) : List (Nat × Nat) → Option Bytes × State
  | [] => (some [], s)
  | (a, n) :: r =>
    let (x, s) := readData s acc a n
    let (y, s) := readPieces s acc r
    (match x, y with | some x, some y => some (x ++ y) | _, _ => none, s)

/-! ### Writing lines -/

/-- Closes one line-row of an entry: reads the parity line, with the outcomes of every read, XORs the delta in, and writes it (10
R234; 09 R222). A parity line that cannot be read, or bears the mark, is left as stored (10 R235). -/
def closeRow (s : State) (c : Combine) (j : Nat) : State :=
  if !c.mask.getLsbD j then s else
  let t := placed s c.stripe (parityHome c.stripe)
  let l := c.stripe * 4096 + 128 * j
  let delta := mreadN c.delta (128 * j) lineLen
  let acc : Access := { background := c.cls = 3, cls := some c.cls }
  let s := touchClass (settleRepair s acc t l) t l c.cls
  match decodeLine s t l with
  | .clean => storeLine s t l (xorBytes (lineBytes s t l) delta)
  | .corrected => storeLine (lineCorrected s t l) t l (xorBytes (lineBytes s t l) delta)
  | .beyond =>
    let s := countUe s t
    if (lineErr s t l).mark then mediaFailed s t l else
    let r := readSources s acc c.stripe (parityHome c.stripe) j
    match reconstructParity s c.stripe j with
    | some b => storeLine (lineReconstructed r t l) t l (xorBytes b delta)
    | none => mediaFailed r t l

/-- Closes the combining entry of a stripe (10 R234). -/
def closeCombine (s : State) (st : Nat) : State :=
  match combineOf s st with
  | none => s
  | some c =>
    let s := if unitPresent s st (parityHome st) then foldKeys (List.range 32) s (fun s j => closeRow s c j) else s
    let s := bump s .stack (parityHome st) 12 1
    s.updStack (parityHome st) (fun x => { x with combining := x.combining.filter (fun e => e.stripe != st) })

/-! ### The stripe in its rebuild slot (10 R239, R246) -/

/-- Writes the unrebuildable mark (10 R239). -/
def writeMark (s : State) (t l : Nat) : State :=
  { s with pool := mwriteN s.pool (phys t l) (List.replicate lineLen 0), lines := tput s.lines (phys t l) { mark := true } }

/-- Line `j` of stripe `st` on its spare. -/
def rebuildLine (s : State) (f st j : Nat) : State :=
  let v := match contentOf f (st * 4096) with
    | .data _ k => reconstructData s st k j
    | _ => reconstructParity s st j
  let l := st * 4096 + 128 * j
  let s := readSources s background st f j
  let s := touchRow s (spareStack st) l background
  match v with
  | some b => storeLine s (spareStack st) l b
  | none =>
    let s := writeMark s (spareStack st) l
    { s with rebuild := { s.rebuild with marked := s.rebuild.marked + 1 } }

/-- A stripe's spare lines are written, and the watermark moves on (10 R239). -/
def rebuildStripe (s : State) (f st : Nat) : State :=
  let before := s.rebuild.marked
  let s := foldRange 0 32 (closeCombine s st) (fun s j => rebuildLine s f st j)
  { s with layout := { s.layout with w := st + 1 }, rebuild := { s.rebuild with markedBefore := before } }

/-- The failed stack whose rebuild holds the locks of a stripe. -/
def lockedFor (s : State) (st : Nat) : Option Nat :=
  s.layout.f.filter (fun f => s.layout.st == .rebuilding && s.rebuild.inSlot && !s.rebuild.settled && slotStripe s f == st && stackServes s (spareStack st))

/-- A write to a stripe in its rebuild slot waits for the locks, and goes where the new watermark places it (10 R246): the slot's
effect comes before the write's, which the model lets both act at the write (log entry 40). -/
def settleSlot (s : State) (st : Nat) : State :=
  match lockedFor s st with
  | some f => let s := rebuildStripe s f st; { s with rebuild := { s.rebuild with settled := true } }
  | none => s

/-! ### Parity (10 R233, R234) -/

/-- Combining entries of a controller (10 R234). -/
def combineMax : Nat := 32

/-- The stripe of the least recently written entry. -/
def oldestCombine : List Combine → Option Combine
  | [] => none
  | c :: r => match oldestCombine r with
    | some d => if d.last < c.last then some d else some c
    | none => some c

/-- Adds a delta to a line-row's combining entry, opening one, and reusing the least recently written (10 R234). -/
def addDelta (s : State) (st j cls : Nat) (delta : Bytes) : State :=
  let p := parityHome st
  let s := if (combineOf s st).isNone && (s.stack p).combining.length ≥ combineMax then
      (match oldestCombine (s.stack p).combining with | some c => closeCombine s c.stripe | none => s)
    else s
  let c := (combineOf s st).getD { stripe := st }
  let c' := { c with delta := mwriteN c.delta (128 * j) (xorBytes (mreadN c.delta (128 * j) lineLen) delta)
                     mask := c.mask ||| BitVec.ofNat 32 (2 ^ j), last := s.now, cls := min c.cls cls }
  s.updStack p (fun x => { x with combining := x.combining.filter (fun e => e.stripe != st) ++ [c'] })

/-- Forgets the pending delta of a line-row whose parity line is written whole. -/
def clearDelta (s : State) (st j : Nat) : State :=
  match combineOf s st with
  | none => s
  | some _ => s.updStack (parityHome st) (fun x => { x with combining := x.combining.map (fun e =>
      if e.stripe == st then { e with delta := mclear e.delta (128 * j) (128 * j + 128), mask := e.mask &&& ~~~(BitVec.ofNat 32 (2 ^ j)) } else e) })

/-- Writes a parity line whole, in the class of the write that it serves (09 R216). -/
def storeParity (s : State) (acc : Access) (st j : Nat) (b : Bytes) : State :=
  let t := placed s st (parityHome st)
  let l := st * 4096 + 128 * j
  clearDelta (storeLine (touchRow s t l acc) t l b) st j

/-- Parity by write-through: the XOR of the other 13 data lines, which are read, with the new line, where parity is present
and the other lines decode (10 R233). -/
def writeThrough (s : State) (acc : Access) (st k j : Nat) (b : Bytes) : State :=
  if unitPresent s st (parityHome st) && (otherUnits k).all (fun i => unitPresent s st (dataHome st i)) then
    let r := (otherUnits k).foldl (fun r i => sourceRead acc st j r (dataHome st i)) s
    if (otherUnits k).all (fun i => sourceOk s st (dataHome st i) j) then storeParity r acc st j (xorBytes (xorUnits s st j (otherUnits k)) b) else r
  else s

/-- A whole-line write (10 R233). -/
def writeLine (s : State) (acc : Access) (addr : Nat) (b : Bytes) : State :=
  let st := stripeOf addr
  let s := settleSlot s st
  let k := unitOf addr
  let j := addr % 4096 / 128
  let home := dataHome st k
  let t := placed s st home
  let l := st * 4096 + 128 * j
  let acc := acc.serving s t
  if unitPresent s st home then
    let s := touchRow s t l acc
    let old := if decodeLine s t l != .beyond then some (lineBytes s t l)
      else if (lineErr s t l).mark then none else reconstructData s st k j
    match old with
    | some o =>
      let s := if unitPresent s st (parityHome st) then addDelta s st j (classOf s t acc) (xorBytes o b) else s
      storeLine s t l b
    | none => storeLine (writeThrough s acc st k j b) t l b
  else writeThrough s acc st k j b

/-- A queued repair of a line is dropped (09 R223). -/
def dropRepair (s : State) (t l : Nat) : State :=
  if (s.stack t).repairs.contains l then s.updStack t (fun x => { x with repairs := x.repairs.erase l }) else s

/-- A write to part of a line: read, merge, write (03 R65; 09 R222); a repair that is queued for the line is dropped (09 R223).
False for MEDIA_ERROR: of an absent unit at once (10 R235), with the event and the record of a failed line (log entry 110). -/
def writePart (s : State) (acc : Access) (addr off : Nat) (b : Bytes) : Bool × State :=
  let st := stripeOf addr
  let home := dataHome st (unitOf addr)
  let s := settleSlot s st
  if !unitPresent s st home then (false, mediaFailed s (placed s st home) (localOf addr / 128 * 128)) else
  match readLine (dropRepair s (placed s st home) (localOf addr / 128 * 128)) acc addr with
  | (some o, s) => (true, writeLine s acc addr (putBytes o off b))
  | (none, s) => (false, s)

/-- Writes the bytes of a range that lie in one line and goes on: `n` lines from the line of `a`. -/
def writeLines (s : State) (acc : Access) : Nat → Nat → Bytes → Bool × State
  | 0, _, _ => (true, s)
  | n + 1, a, b =>
    let off := a % 128
    let m := min (128 - off) b.length
    let (ok, s) := if m = 128 then (true, writeLine s acc a (b.take 128)) else writePart s acc (a - off) off (b.take m)
    let (ok', s) := writeLines s acc n (a + m) (b.drop m)
    (ok && ok', s)

/-- A stripe written whole by one request: its 14 units, then its parity unit, in the class that the request has at the home of its first
unit (10 R233; DESIGN CHOICE, log entry 122). -/
def writeStripe (s : State) (acc : Access) (st : Nat) (b : Bytes) : State :=
  let s := settleSlot s st
  let line (k j : Nat) := (b.drop (k * 4096 + 128 * j)).take 128
  let served := acc.serving s (placed s st (dataHome st 0))
  let s := foldKeys (List.range 14) s (fun s k => foldKeys (List.range 32) s (fun s j =>
    let home := dataHome st k
    if unitPresent s st home then storeLine (touchRow s (placed s st home) (st * 4096 + 128 * j) acc) (placed s st home) (st * 4096 + 128 * j) (line k j) else s))
  if unitPresent s st (parityHome st) then
    foldKeys (List.range 32) s (fun s j => storeParity s served st j ((List.range 14).foldl (fun a k => xorBytes a (line k j)) (List.replicate 128 0)))
  else s

/-- Writes bytes of data space: whole stripes as such, the rest by lines; `n` bounds the parts. -/
def writeParts (s : State) (acc : Access) : Nat → Nat → Bytes → Bool × State
  | 0, _, _ => (true, s)
  | n + 1, a, b =>
    if b.isEmpty then (true, s)
    else if a % 57344 = 0 && b.length ≥ 57344 then
      writeParts (writeStripe s acc (a / 57344) (b.take 57344)) acc n (a + 57344) (b.drop 57344)
    else
      let m := if a % 57344 = 0 then b.length else min b.length (57344 - a % 57344)
      let (ok, s) := writeLines s acc (lineSpan a m) a (b.take m)
      let (ok', s) := writeParts s acc n (a + m) (b.drop m)
      (ok && ok', s)

/-- Writes bytes of data space; false where a line answered MEDIA_ERROR (09 R222). -/
def writeData (s : State) (acc : Access) (a : Nat) (b : Bytes) : Bool × State := writeParts s acc (b.length / 57344 + 3) a b

/-- Writes the pieces of a checked request. -/
def writePieces (s : State) (acc : Access) : List (Nat × Nat) → Bytes → Bool × State
  | [], _ => (true, s)
  | (a, n) :: r, b =>
    let (ok, s) := writeData s acc a (b.take n)
    let (ok', s) := writePieces s acc r (b.drop n)
    (ok && ok', s)

end Sys2Proof.Machine
end

