-- ==== Sys2Proof/Machine/Mailbox.lean ====
section
/-!
DEFINITION. Session and device commands and the mailbox page's registers (02 R28 to R60, R444, R446).
-/

namespace Sys2Proof.Machine

open Sys2Proof

/-- A query: no pending command keeps it out (log entry 15). -/
def neverBlocked : Req → State → Bool := fun _ _ => false
/-- A command that always changes state. -/
def always : Req → Bool := fun _ => true

/-- DEVICE_MODE: mode and start reason (02 R31). -/
def State.deviceMode (s : State) : Nat :=
  (match s.dev.mode with | .starting => 1 | .inService => 2 | .minimal => 3 | .resetting => 4) + s.dev.reason * 256

/-! ### DEVICE_STATUS, SET_ACCT_PERIOD, MAILBOX_RESET, undefined opcodes -/

/-- DEVICE_STATUS (02 R60). -/
def cmdDeviceStatus : Cmd where
  op := 0x0101
  issuers := fun p => anyRole p || tenantOnly p
  isOpen := true
  minimal := true
  blocked := neverBlocked
  query := true
  body := fun q s => match q.firstBad [] [] with
    | some b => badAt b
    | none => .done s (natLe s.deviceId 4 ++ natLe s.aon.bootEpoch.toNat 4 ++ natLe s.deviceMode 4 ++ natLe s.layout.epoch.toNat 1 ++ natLe 0 3
        ++ natLe (if s.job.isOpen then s.job.number.toNat else 0) 4) []

/-- DEVICE_STATUS. -/
def execDeviceStatus (m : Fin 1029) (s : State) : Host.Outcome State Fault Refusal := serve m cmdDeviceStatus s

/-- SET_ACCT_PERIOD (02 R57, R60). -/
def cmdSetAcctPeriod : Cmd where
  op := 0x0105
  issuers := operatorOnly
  changes := always
  body := fun q s =>
    let ns := q.arg 20 8
    match q.firstBad [(20, 8)] [(20, !(100000 ≤ ns && ns ≤ 10000000000))] with
    | some b => badAt b
    | none => .pend (stage s (.period ns) (some q.owes)) []

/-- SET_ACCT_PERIOD. -/
def execSetAcctPeriod (m : Fin 1029) (s : State) : Host.Outcome State Fault Refusal := serve m cmdSetAcctPeriod s

/-- A BUSY response to the request in the slot of index `i` (02 R446 step 2). -/
def busySlot (p : Page) (i : BitVec 16) : Bytes :=
  padTo (natLe stBusy 2 ++ mreadN p.mem (0x1000 + 64 * (i.toNat % 256) + 2) 2 ++ natLe i.toNat 2) 64

/-- Answers `n` requests from index `i` with BUSY. -/
def answerBusy (p : Page) : Nat → BitVec 16 → Page
  | 0, _ => p
  | n + 1, i => answerBusy { p with mem := mwriteN p.mem (0x5000 + 64 * (i.toNat % 256)) (busySlot p i) } n (i + 1)

/-- Steps 2 to 4 of MAILBOX_RESET (02 R446), after its own response at index `i`. -/
def resetPage (p : Page) (i : BitVec 16) : Page :=
  { answerBusy p (p.reqPi - i - 1).toNat (i + 1) with reqCi := p.reqPi, rspPi := p.reqPi, ranges := [] }

/-- MAILBOX_RESET (02 R446). -/
def cmdMailboxReset : Cmd where
  op := 0x0106
  issuers := fun p => anyRole p || tenantOnly p
  minimal := true
  changes := always
  blocked := neverBlocked
  body := fun q s => match q.firstBad [] [] with
    | some b => badAt b
    | none => .done s [] []
  idle := fun _ _ => false
  after := fun q s =>
    let p := s.page q.m
    let later := p.ranges.filter (fun r => 1 ≤ (r.index - q.index).toNat && (r.index - q.index).toNat ≤ (p.reqPi - q.index - 1).toNat)
    later.foldl (fun s r => match r.qp with | some n => queueSend s n (busySlot p r.index) none | none => s) (s.updPage q.m (resetPage · q.index))

/-- MAILBOX_RESET. -/
def execMailboxReset (m : Fin 1029) (s : State) : Host.Outcome State Fault Refusal := serve m cmdMailboxReset s

/-! ### Roles -/

/-- The failures and lock of a role. -/
def Auth.role (a : Auth) : Role → RoleAuth
  | .operator => a.operator
  | .installer => a.installer
  | .maker => a.maker

/-- Changes the failures and lock of a role. -/
def Auth.setRole (a : Auth) (r : Role) (x : RoleAuth) : Auth :=
  match r with
  | .operator => { a with operator := x }
  | .installer => { a with installer := x }
  | .maker => { a with maker := x }

/-- A role's authentication is locked (02 R44). -/
def roleLocked (s : State) (r : Role) : Bool :=
  match (s.auth.role r).lockUntil with
  | some t => s.now < t
  | none => false

/-- LOCKED of a page: a role that it serves is locked (02 R30, R44). -/
def pageLocked (s : State) (m : Nat) : Bool :=
  match m with
  | 0 => roleLocked s .operator
  | 1 => roleLocked s .installer
  | 2 => roleLocked s .maker
  | 3 | 4 => roleLocked s .operator || roleLocked s .installer || roleLocked s .maker
  | _ => false

/-- ROLE_CHALLENGE (02 R42, R44). -/
def cmdRoleChallenge : Cmd where
  op := 0x0102
  issuers := anyRole
  isOpen := true
  minimal := true
  blocked := neverBlocked
  body := fun q s => match roleOfCode (q.arg 20 1), q.firstBad [(20, 1)] [(20, (roleOfCode (q.arg 20 1)).isNone)] with
    | _, some b => badAt b
    | none, _ => badAt 20
    | some r, none =>
      if roleLocked s r then denied else
      let n : Nonce := { role := r, binding := q.binding, value := Config.nonce s.free, issued := s.now }
      let keep := s.auth.nonces.filter (fun x => !(x.role == r && x.binding == q.binding))
      .done { s with auth := { s.auth with nonces := keep ++ [n] }, free := s.free + 1 } (natLe n.value.toNat 32) []

/-- ROLE_CHALLENGE. -/
def execRoleChallenge (m : Fin 1029) (s : State) : Host.Outcome State Fault Refusal := serve m cmdRoleChallenge s

/-- The byte string that ROLE_PROVE's signature covers (02 R42). -/
def proofMessage (s : State) (n : Nonce) : Bytes :=
  natLe n.value.toNat 32 ++ natLe s.deviceId 4 ++ natLe s.aon.bootEpoch.toNat 4 ++ natLe (roleCode n.role) 1 ++ natLe n.binding.toNat 4

/-- The key that a ROLE_PROVE verifies under, with its index: an enrolled key of the role; for the maker role, while no
package record is valid, the key of a MAKER_CERT that follows the signature (16 R375). DESIGN CHOICE: of other lengths of
extended arguments, bytes after the signature are ignored and a short one does not verify (log entry 89). -/
def provenKey (s : State) (r : Role) (msg xarg : Bytes) : Option (Nat × Bytes) :=
  let sig := xarg.take 3309
  let cert := (xarg.drop 3309).take 5264
  let keys := if r == .maker && !s.dev.package.present then (if xarg.length = 3309 + 5264 && certGood cert then [certKey cert] else []) else s.keysOf r
  (keys.zipIdx.find? (fun k => Config.mldsaVerify k.1 msg sig)).map (fun k => (k.2, k.1))

/-- Sessions a role may hold (02 R43). -/
def roleSessions : Nat := 8

/-- The sessions of a role. -/
def openSessions (s : State) (r : Role) : Nat := (s.auth.sessions.filter (fun x => x.role == r && s.now - x.lastCommand < roleIdle)).length

/-- A lockout shows on every page that serves the role (02 R44; 00 R11). -/
def countLocked (s : State) (r : Role) : State :=
  foldKeys [roleMailbox r, 3, 4] s (fun s m => s.updPage m (fun p => { p with lockedCnt := p.lockedCnt + 1 }))

/-- A failed ROLE_PROVE: its audit record, the count of failures, and the lockout with a record of its own (02 R44, R49). No
key authenticated and the lockout is no command: DESIGN CHOICE: both records carry KEY 0 and STATUS DENIED, and both are written
whatever Flash.writeOk says (log entry 88). -/
def proveFailed (q : Req) (r : Role) (s : State) : State :=
  let rec_ (s : State) := auditWrite s q.m q.binding (BitVec.ofNat 16 q.opcode) (roleCode r) 0 stDenied q.digest
  let a := s.auth.role r
  let fails := a.fails.filter (fun t => s.now - t < secNs 60) ++ [s.now]
  let s := rec_ s
  if fails.length ≥ 3 then rec_ { countLocked s r with auth := s.auth.setRole r { fails := [], lockUntil := some (s.now + secNs 60) } }
  else { s with auth := s.auth.setRole r { a with fails := fails } }

/-- The number of a new role session: the part's choice among those that are not 0 and not in use (02 R42). -/
def sessionId (s : State) : BitVec 32 :=
  let c := BitVec.ofNat 32 (Config.choice s.free)
  (((List.range (s.auth.sessions.length + 2)).map (fun i => c + BitVec.ofNat 32 i)).find? (fun x => x != 0 && !s.auth.sessions.any (·.id == x))).getD 1

/-- ROLE_PROVE (02 R42 to R44). -/
def cmdRoleProve : Cmd where
  op := 0x0103
  issuers := anyRole
  isOpen := true
  minimal := true
  blocked := neverBlocked
  body := fun q s => match roleOfCode (q.arg 20 1), q.firstBad [(20, 1)] [(20, (roleOfCode (q.arg 20 1)).isNone)] with
    | _, some b => badAt b
    | none, _ => badAt 20
    | some r, none =>
      let n := s.auth.nonces.find? (fun x => x.role == r && x.binding == q.binding)
      let s := { s with auth := { s.auth with nonces := s.auth.nonces.filter (fun x => !(x.role == r && x.binding == q.binding)) } }
      if roleLocked s r then .failed s stDenied
      else if openSessions s r ≥ roleSessions then .failed s stNoResource
      else match n.bind (fun n => if s.now - n.issued ≤ secNs 10 then provenKey s r (proofMessage s n) q.xarg else none) with
        | none => .failed (proveFailed q r s) stDenied
        | some (i, key) =>
          let x : RoleSession := { id := sessionId s, role := r, keyIndex := i, key := key, binding := q.binding, counter := 0, lastCommand := s.now }
          .done { drawn s with auth := { s.auth with sessions := s.auth.sessions ++ [x] } } (natLe x.id.toNat 4 ++ natLe i 1) []

/-- ROLE_PROVE. -/
def execRoleProve (m : Fin 1029) (s : State) : Host.Outcome State Fault Refusal := serve m cmdRoleProve s

/-- ROLE_END (02 R43). -/
def cmdRoleEnd : Cmd where
  op := 0x0104
  issuers := anyRole
  minimal := true
  changes := always
  blocked := neverBlocked
  body := fun q s => match q.firstBad [] [] with
    | some b => badAt b
    | none => .done (endRoleSession s q.roleSession) [] []

/-- ROLE_END. -/
def execRoleEnd (m : Fin 1029) (s : State) : Host.Outcome State Fault Refusal := serve m cmdRoleEnd s

/-- ROLE_SESSION_IDLE_TIMEOUT (02 R43). -/
def execRoleSessionIdleTimeout (t : Nat) (id : BitVec 32) (s : State) : Host.Outcome State Fault Refusal :=
  ticking t s (fun s => s.auth.sessions.any (fun r => r.id == id && s.now - r.lastCommand ≥ roleIdle)) (endRoleSession · id)

/-- AUTH_LOCKOUT_EXPIRY (02 R44). -/
def execAuthLockoutExpiry (t : Nat) (r : Role) (s : State) : Host.Outcome State Fault Refusal :=
  ticking t s (fun s => match (s.auth.role r).lockUntil with | some u => u ≤ s.now | none => false)
    (fun s => { s with auth := s.auth.setRole r { s.auth.role r with lockUntil := none } })

/-! ### Paths and registers of a page -/

/-- The channel binding of a path (02 R42). -/
def pathBinding : Path → BitVec 32
  | .session i gen => gen ++ i
  | .mgmt => 0xFFFF0005
  | .i3c => 0xFFFF0006

/-- A session that is open with this generation. -/
def sessionOpen (s : State) (i gen : BitVec 16) : Bool :=
  (s.session i.toNat).st == .opened && (s.session i.toNat).gen == gen

/-- The management port's link carries frames (11 R250, R255). -/
def mgmtUp (s : State) : Bool := let l := (s.port 64).link; l == .negotiating || l == .up || l == .reliable

/-- The path reaches the mailbox page (02 R28, R31): a role page under a role session bound to the path. -/
def pathAllows (s : State) (path : Path) (m : Nat) : Bool :=
  match path with
  | .mgmt => m == 3 && s.clocked && mgmtUp s
  | .i3c => m == 4 && s.clocked
  | .session i gen =>
    s.clocked && sessionOpen s i gen &&
      (if m < 3 then (s.session i.toNat).priv && s.auth.sessions.any (fun r => r.binding == (pathBinding path) && roleMailbox r.role == m)
       else m ≥ 5 && (s.session i.toNat).ctx == some (m - 5) && (s.ctx (m - 5)).st != .none)

/-- The path reads byte `off` of the page: as `pathAllows`; and, before a role session is bound, of a role page the response slot
of a request of its own that stands there unconsumed, and nothing else, so that a party reads the answer to its ROLE_CHALLENGE and
its ROLE_PROVE (log entry 32). -/
def pathReads (s : State) (path : Path) (m off : Nat) : Bool :=
  pathAllows s path m || (match path with
    | .session i gen => s.clocked && sessionOpen s i gen && m < 3 && (s.session i.toNat).priv
        && (s.page m).ranges.any (fun r => r.binding == pathBinding path && off / 64 * 64 == 0x5000 + 64 * (r.index.toNat % 256))
    | _ => false)

/-- A doorbell value passes both tests of 02 R32. -/
def Page.doorbellOk (p : Page) (v : BitVec 16) : Bool := (v - p.reqPi).toNat ≤ 256 && (v - p.rspCi).toNat ≤ 256

/-- The range that the slot of index `i` names (02 R34). -/
def Page.slotRange (p : Page) (i : BitVec 16) (binding : BitVec 32) : Range :=
  let a := 0x1000 + 64 * (i.toNat % 256)
  { index := i, off := leNat (mreadN p.mem (a + 8) 2), binding := binding
    len := roundUp (max (leNat (mreadN p.mem (a + 6) 2)) (leNat (mreadN p.mem (a + 10) 2))) 8 }

/-- The ranges of `n` requests from index `i`. -/
def Page.slotRanges (p : Page) (binding : BitVec 32) : Nat → BitVec 16 → List Range
  | 0, _ => []
  | n + 1, i => p.slotRange i binding :: Page.slotRanges p binding n (i + 1)

/-- A doorbell write (02 R32). -/
def Page.doorbell (p : Page) (v : BitVec 16) (binding : BitVec 32) : Page :=
  if p.doorbellOk v then { p with reqPi := v, ranges := p.ranges ++ p.slotRanges binding (v - p.reqPi).toNat p.reqPi }
  else { p with badDoorbell := true, badDoorbellCnt := p.badDoorbellCnt + 1 }

/-- RSP_CI = v has passed index `i` (02 R34). -/
def passed (v i : BitVec 16) : Bool := v != i && (v - i).toNat ≤ 0x8000

/-- A write of RSP_CI: responses before it are consumed, and their ranges released (02 R34). -/
def Page.consume (p : Page) (v : BitVec 16) : Page := { p with rspCi := v, ranges := p.ranges.filter (fun r => !passed v r.index) }

/-- EVQ_ENABLE set or cleared; clearing frees the objects of held COMPLETIONs (02 R41). DESIGN CHOICE: drops counted before
EVQ_ENABLE was cleared are still reported by an EVQ_OVERFLOW record once it is set again (log entry 90). -/
def setEvqEnable (s : State) (m : Nat) (on : Bool) : State :=
  let p := s.page m
  let s := s.updPage m (fun p => { p with evqEnable := on, held := if on then p.held else [] })
  if on then s else p.held.foldl freeHeld s

/-- Where a path reaches a page, the write acts; otherwise it is DENIED and changes nothing (02 R31). -/
def pageWrite (m : Nat) (path : Path) (s : State) (act : State → State) : Host.Outcome State Fault Refusal :=
  .next (if pathAllows s path m then act s else s)

/-- REQ_PI_WRITE (02 R32). -/
def execReqPiWrite (m : Fin 1029) (path : Path) (v : BitVec 16) (s : State) : Host.Outcome State Fault Refusal :=
  pageWrite m path s (fun s => s.updPage m (·.doorbell v (pathBinding path)))

/-- RSP_CI_WRITE (02 R34). -/
def execRspCiWrite (m : Fin 1029) (path : Path) (v : BitVec 16) (s : State) : Host.Outcome State Fault Refusal :=
  pageWrite m path s (fun s => s.updPage m (·.consume v))

/-- EVQ_CI_WRITE (02 R41). -/
def execEvqCiWrite (m : Fin 1029) (path : Path) (v : BitVec 16) (s : State) : Host.Outcome State Fault Refusal :=
  pageWrite m path s (fun s => drainEvents (s.updPage m (fun p => { p with evqCi := v })) m)

/-- EVQ_ENABLE_WRITE (02 R41). -/
def execEvqEnableWrite (m : Fin 1029) (path : Path) (v : BitVec 32) (s : State) : Host.Outcome State Fault Refusal :=
  pageWrite m path s (fun s => setEvqEnable s m (bit v.toNat 0))

/-- BAD_DOORBELL after a W1C write of 1 (00 R11). -/
def Page.clearBadDoorbell (p : Page) (hwSets : Bool) : Page :=
  { p with badDoorbell := w1c p.badDoorbell true hwSets, badDoorbellCnt := if hwSets then p.badDoorbellCnt + 1 else p.badDoorbellCnt }

/-- BAD_DOORBELL_CLEAR (00 R11; 02 R30). -/
def execBadDoorbellClear (m : Fin 1029) (path : Path) (hwSets : Bool) (s : State) : Host.Outcome State Fault Refusal :=
  pageWrite m path s (fun s => s.updPage m (·.clearBadDoorbell hwSets))

/-- EVQ_OVERFLOW after a W1C write of 1 (00 R11). -/
def Page.clearOverflow (p : Page) (hwSets : Bool) : Page :=
  { p with evqOverflow := w1c p.evqOverflow true hwSets, evqLostCnt := if hwSets then p.evqLostCnt + 1 else p.evqLostCnt }

/-- EVQ_OVERFLOW_CLEAR (00 R11; 02 R30). -/
def execEvqOverflowClear (m : Fin 1029) (path : Path) (hwSets : Bool) (s : State) : Host.Outcome State Fault Refusal :=
  pageWrite m path s (fun s => s.updPage m (·.clearOverflow hwSets))

/-- Latches cluster time [63:32] of fold 0 into CLUSTER_TIME_HI (02 R31). -/
def latchTimeHi (s : State) : State := s.updDev (fun d => { d with timeHiLatch := BitVec.ofNat 32 (s.ct / 2 ^ 32) })

/-- The identity page is reached through every path: an open session, the management port or I3C (02 R31). -/
def identityReached (s : State) : Path → Bool
  | .session i gen => s.clocked && sessionOpen s i gen
  | _ => s.clocked

/-- CLUSTER_TIME_LO_READ (02 R31). -/
def execClusterTimeLoRead (path : Path) (s : State) : Host.Outcome State Fault Refusal :=
  .next (if identityReached s path then latchTimeHi s else s)

/-- The control registers of a page, as bytes from offset 0 (02 R30). -/
def pageRegs (s : State) (m : Nat) : Bytes :=
  let p := s.page m
  natLe (mailboxOwner m) 2 ++ natLe (mailboxKind m) 1 ++ natLe 0 5
    ++ natLe p.reqPi.toNat 4 ++ natLe p.reqCi.toNat 4 ++ natLe p.rspPi.toNat 4 ++ natLe p.rspCi.toNat 4 ++ natLe p.evqPi.toNat 4 ++ natLe p.evqCi.toNat 4
    ++ natLe (b2n p.badDoorbell 0 + b2n p.evqOverflow 1 + b2n (pageLocked s m) 2) 4 ++ natLe (b2n p.evqEnable 0) 4
    ++ natLe p.badDoorbellCnt.toNat 4 ++ natLe p.evqLostCnt.toNat 4 ++ natLe s.aon.bootEpoch.toNat 4

/-- START_INFO (16 R368). -/
def State.startInfo (s : State) : Nat := s.aon.lastCause + s.aon.startFailures % 16 * 256 + s.aon.lastUnit * 65536

/-- THERMAL_INFO (19 R440). -/
def State.thermalInfo (s : State) : Nat :=
  unsigned s.dev.dieMax 8 + unsigned s.dev.stackMax 8 * 256 + s.aon.tripFold * 65536 + s.aon.tripCount * 2 ^ 24

/-- The identity page, as bytes from offset 0 (02 R31; 16 R368; 19 R440). -/
def identityRegs (s : State) : Bytes :=
  natLe s.deviceId 4 ++ natLe s.aon.bootEpoch.toNat 4 ++ natLe s.deviceMode 4 ++ natLe 0 4 ++ natLe s.ct 4 ++ natLe s.dev.timeHiLatch.toNat 4
    ++ natLe s.dev.fwVersion.toNat 4 ++ natLe 0 4 ++ natLe s.dev.acctPeriod 8 ++ natLe s.startInfo 4 ++ natLe 0 4 ++ natLe s.thermalInfo 4

/-- One byte of a mailbox page as a CSR read returns it (02 R29, R30). -/
def pageByte (s : State) (m off : Nat) : Byte :=
  if off < 0x1000 then (pageRegs s m).getD off 0 else mread (s.page m).mem off

/-- One byte of a page written, where it is RW and has no behaviour of its own (02 R29). -/
def pageByteWrite (p : Page) (off : Nat) (b : Byte) : Page :=
  if (0x1000 ≤ off && off < 0x5000) || (0xB000 ≤ off && off < 0x10000) then { p with mem := mwrite p.mem off b } else p

/-- Bytes of a page written, from an offset. -/
def pageBytesWrite (p : Page) (off : Nat) : Bytes → Page
  | [] => p
  | b :: r => pageBytesWrite (pageByteWrite p off b) (off + 1) r

/-- A register of a page written by a CSR write that covers [off, off + data.length): its value, with bytes outside the write
as they were (02 R30). -/
def coveredReg (s : State) (m off : Nat) (data : Bytes) (reg k : Nat) : Option Nat :=
  if overlaps off (off + data.length) reg (reg + k) then
    some (leNat ((List.range k).map (fun i => if off ≤ reg + i && reg + i < off + data.length then data.getD (reg + i - off) 0 else (pageRegs s m).getD (reg + i) 0)))
  else none

/-- Applies an action where a register is covered. -/
def onReg (s : State) (v : Option Nat) (act : State → Nat → State) : State := match v with | some n => act s n | none => s

/-- A CSR write to a mailbox page (02 R29, R30). DESIGN CHOICE: the registers that one write covers act in this order: the W1C
flags, so that a setting by the same write stays (00 R11), RSP_CI, REQ_PI, EVQ_CI, EVQ_ENABLE (log entry 91). -/
def writePage (s : State) (m : Nat) (binding : BitVec 32) (off : Nat) (data : Bytes) : State :=
  let reg (r k : Nat) := coveredReg s m off data r k
  let flags := if off ≤ 0x20 && 0x20 < off + data.length then (data.getD (0x20 - off) 0).toNat else 0
  let s := s.updPage m (pageBytesWrite · off data)
  let s := if bit flags 0 then s.updPage m (·.clearBadDoorbell false) else s
  let s := if bit flags 1 then s.updPage m (·.clearOverflow false) else s
  let s := onReg s (reg 0x14 2) (fun s v => s.updPage m (·.consume (BitVec.ofNat 16 v)))
  let s := onReg s (reg 0x08 2) (fun s v => s.updPage m (·.doorbell (BitVec.ofNat 16 v) binding))
  let s := onReg s (reg 0x1C 2) (fun s v => drainEvents (s.updPage m (fun p => { p with evqCi := BitVec.ofNat 16 v })) m)
  onReg s (reg 0x24 1) (fun s v => setEvqEnable s m (bit v 0))

end Sys2Proof.Machine
end

