-- ==== Sys2Proof/Machine/Ports.lean ====
section
/-!
DEFINITION. Quads and ports, the ingress buffer, the class queues, and a port's link state (11 R247 to R258, R264 to R267;
13 R306 to R309), with the port commands of 11 R269.
-/

namespace Sys2Proof

open Machine

/-! ### The IP header (12 R272, R298) -/

/-- A ones' complement sum of 16-bit words, by RFC 1071. -/
def onesSum (ws : List Nat) : Nat :=
  let n := ws.foldl (· + ·) 0
  let n := n % 65536 + n / 65536
  n % 65536 + n / 65536

/-- The 16-bit words of bytes in network order; an odd last byte is the high one. -/
def netWords : Bytes → List Nat
  | a :: b :: r => (a.toNat * 256 + b.toNat) :: netWords r
  | [a] => [a.toNat * 256]
  | [] => []

/-- Bytes of a frame's IP packet. -/
def Frame.ipLength (f : Frame) : Nat := f.len - 18 - (if f.vlan.isSome then 4 else 0)

/-- The checksum of a frame's IPv4 header, by RFC 791; IPv6 has none. -/
def Frame.headerSum (f : Frame) : BitVec 16 :=
  if f.ipv6 then 0 else
  BitVec.ofNat 16 (65535 - onesSum ([0x4500 + f.dscp.toNat * 4 + f.ecn.toNat, f.ipLength, f.ident.toNat % 65536, f.ident.toNat / 65536, f.ttl.toNat * 256 + 17]
    ++ netWords (natLe f.ipSrc.toNat 4) ++ netWords (natLe f.ipDst.toNat 4)))

/-- A frame with its IPv4 header checksum. -/
def Frame.withSum (f : Frame) : Frame := { f with ipSum := f.headerSum }

/-- A frame whose IP header was that of `old`, with its checksum updated: by the sum's difference, so that a checksum that did not
hold still does not (RFC 1624). -/
def Frame.refresh (f old : Frame) : Frame :=
  if f.ipv6 then f else
  { f with ipSum := BitVec.ofNat 16 (65535 - onesSum [65535 - old.ipSum.toNat, old.headerSum.toNat, 65535 - f.headerSum.toNat]) }

/-! ### The link tag (11 R259) -/

/-- A byte into CRC-8, most significant bit first: polynomial x^8 + x^2 + x + 1. -/
def crcByte (c : Nat) (b : Byte) : Nat := (List.range 8).foldl (fun c _ => if c ≥ 128 then (c * 2 % 256) ^^^ 7 else c * 2) (c ^^^ b.toNat)

/-- CRC-8 of bytes, from 0xFF. -/
def crc8 (b : Bytes) : Nat := b.foldl crcByte 0xFF

/-- Bytes [4:0] of a tag. -/
def LinkTag.head (t : LinkTag) : Bytes :=
  natLe t.seq.toNat 2 ++ natLe t.ack.toNat 2 ++ natLe (b2n t.seqValid 0 + b2n t.ackValid 1 + b2n t.nak 2 + b2n t.replay 3 + b2n t.init 4 + 128) 1

/-- The six bytes of a tag. -/
def LinkTag.bytes (t : LinkTag) : Bytes := t.head ++ natLe (crc8 t.head) 1

/-- A frame arrived with a tag. -/
def RxFrame.tagged (f : RxFrame) : Bool := bit (field f.preamble 4 1) 7

/-- The tag's CRC-8 checks. -/
def RxFrame.crcGood (f : RxFrame) : Bool := crc8 (f.preamble.take 5) == field f.preamble 5 1

/-- The fields of a frame's tag. -/
def RxFrame.tag (f : RxFrame) : LinkTag :=
  let k := field f.preamble 4 1
  { seq := BitVec.ofNat 16 (field f.preamble 0 2), ack := BitVec.ofNat 16 (field f.preamble 2 2), seqValid := bit k 0, ackValid := bit k 1, nak := bit k 2
    replay := bit k 3, init := bit k 4 }

/-- The six preamble bytes of a frame that leaves: its tag, or those of a standard preamble. -/
def preambleOf (t : Option LinkTag) : Bytes :=
  match t with
  | some t => t.bytes
  | none => List.replicate 6 0x55

end Sys2Proof

namespace Sys2Proof.Machine

open Sys2Proof

/-! ### Modes (11 R247, R264) -/

/-- Ports of a mode. -/
def modePorts : Nat → Nat
  | 1 | 4 | 9 => 1
  | 2 | 5 => 2
  | 3 | 6 | 7 | 8 => 4
  | _ => 0

/-- Rate of each port of a mode, in Gb/s: bits per ns. -/
def modeRate : Nat → Nat
  | 1 | 9 => 800
  | 2 | 4 => 400
  | 3 | 5 => 200
  | 6 => 100
  | 7 => 25
  | 8 => 10
  | _ => 0

/-- The management port's number in the model (11 R250). -/
def mgmtPort : Nat := 64

/-- Port `q` exists in its quad's mode; the management port always does. -/
def portExists (s : State) (q : Nat) : Bool := q = mgmtPort || q % 4 < modePorts (s.quad (q / 4)).mode

/-- The rate of port `q`. -/
def portRate (s : State) (q : Nat) : Nat := if q = mgmtPort then 10 else modeRate (s.quad (q / 4)).mode

/-- A port's share of its quad's 512 KiB buffers (11 R264; 13 R307). -/
def portShare (s : State) (q : Nat) : Nat := 524288 / max 1 (modePorts (s.quad (q / 4)).mode)

/-- The ports of quad `k`. -/
def quadPorts (s : State) (k : Nat) : List Nat := rangeFrom (4 * k) (modePorts (s.quad k).mode)

/-- A quad's state code (11 R254). -/
def QuadState.code : QuadState → Nat
  | .off => 1 | .training => 2 | .active => 3 | .resetting => 4 | .paired => 5

/-- A link state's code (11 R255). -/
def LinkState.code : LinkState → Nat
  | .down => 0 | .training => 1 | .negotiating => 2 | .up => 3 | .reliable => 4

/-! ### Classes (13 R306) -/

/-- A coherence response or COMP_ACK: TC4 (14 R331). -/
def tc4 (e : Eruno) : Bool := e.opcode == 0x14 || e.flags.getLsbD 0

/-- The class of an Eruno frame (12 R276; 14 R331). -/
def erunoClass (e : Eruno) : Nat :=
  let op := e.opcode.toNat
  if 0x10 ≤ op && op ≤ 0x2F then (if tc4 e then 4 else if 0x18 ≤ op && op ≤ 0x1A then 3 else 2)
  else if op = 0x31 then 5
  else if op = 0x30 then (if e.flags.getLsbD 4 then 5 else 1)
  else if op = 0x32 || op = 0x33 || op = 0x34 || op = 0x38 || op = 0x39 then 7
  else 1

/-- The class of a frame; none for MAC control and link control frames. -/
def tcOf (f : Frame) : Option Nat :=
  match f.body with
  | .eruno e => some (erunoClass e)
  | .roce _ => some 0
  | .lldp _ => some 7
  | .ptp _ => some 6
  | .other => some 7
  | .pfc _ _ | .pause | .linkControl => none

/-- A frame that is sequenced in RELIABLE (11 R260). -/
def sequenced (f : Frame) : Bool :=
  match f.body with
  | .eruno _ | .roce _ | .other => true
  | .lldp _ | .ptp _ | .pfc _ _ | .pause | .linkControl => false

/-! ### Sending (11 R259, R260) -/

/-- The tag of an unsequenced frame of a port (11 R257, R260). -/
def Port.tag (p : Port) : LinkTag := { ack := if p.link = .reliable then p.expected else 0, ackValid := p.link == .reliable }

/-- A frame leaves port `q` (18 R408 PORT 2, 3); a tag sent in RELIABLE meets every acknowledgement owed (11 R261). -/
def emit (s : State) (q : Nat) (tag : Option LinkTag) (f : Frame) : State :=
  let s := bump (bump s .port q 2 1) .port q 3 f.len
  let s := if tag.any (·.ackValid) then s.updPort q (fun p => { p with oweAck := none }) else s
  { s with wire := s.wire ++ [{ port := q, preamble := preambleOf tag, frame := f }] }

/-- The tag of an unsequenced frame: tagged in RELIABLE alone (11 R259). -/
def Port.plainTag (p : Port) : Option LinkTag := if p.link = .reliable then some p.tag else none

/-- The MAC address of port `q`: the base of the installer record that this start verified, since a record committed later takes effect
at the next start, and the port index; the management port's own (12 R272; 16 R373, R379, R380). -/
def portMac (s : State) (q : Nat) : BitVec 48 := if q = mgmtPort then s.dev.mgmtMac else s.dev.macBase + BitVec.ofNat 48 q

/-- A MAC control frame of port `q`, to the address that IEEE 802.3 gives such frames. -/
def macFrame (s : State) (q : Nat) (body : FrameBody) : Frame := { len := 64, ecn := 0, ethDst := 0x0180C2000001, ethSrc := portMac s q, body := body }

/-- A MAC control frame of the part: it leaves at once, unsequenced (log entry 22). -/
def sendMac (s : State) (q : Nat) (body : FrameBody) : State := emit s q (s.port q).plainTag (macFrame s q body)

/-- The link control frame of port `q` that carries a tag (11 R258). -/
def controlFrame (s : State) (q : Nat) : Frame := { len := 64, ecn := 0, ethDst := 0x0180C200000E, ethSrc := portMac s q, body := .linkControl }

/-! ### The ingress buffer (13 R307, R308) -/

/-- Bytes that class `c` may occupy at port `q`, and bytes that it does: TC0, TC6 and TC7 share one limit. -/
def classLimit (s : State) (q c : Nat) : Nat := portShare s q * (if 1 ≤ c && c ≤ 5 then 18 else 10) / 100
/-- Bytes counted against the limit of class `c`. -/
def classHeld (p : Port) (c : Nat) : Nat :=
  if 1 ≤ c && c ≤ 5 then (p.cls c).occupied else (p.cls 0).occupied + (p.cls 6).occupied + (p.cls 7).occupied
/-- Occupancy at which XOFF is sent. -/
def xoffAt (s : State) (q : Nat) : Nat := ceilDiv (portShare s q * 10) 100
/-- Occupancy at which XON is sent. -/
def xonAt (s : State) (q : Nat) : Nat := portShare s q * 6 / 100

/-- A port carries standard or reliable Ethernet (11 R255). -/
def Port.running (p : Port) : Bool := p.link == .up || p.link == .reliable

/-- The PFC frame that names one class. -/
def pfcOf (c quanta : Nat) : FrameBody := .pfc (BitVec.ofNat 8 (2 ^ c)) ((List.replicate 8 0).set c (BitVec.ofNat 16 quanta))

/-- Sends a PFC frame for a class, where the port carries such frames (11 R255, R257; 13 R307; 18 R408 PORT 8). -/
def sendPfc (s : State) (q c quanta : Nat) : State :=
  if !(s.port q).running then s else
  let s := sendMac s q (pfcOf c quanta)
  if quanta = 0 then s else bump s .port q 8 1

/-- A class reaches XOFF: PFC with quanta 0xFFFF. -/
def checkXoff (s : State) (q c : Nat) : State :=
  let x := (s.port q).cls c
  if 1 ≤ c && c ≤ 5 && !x.xoff && x.occupied ≥ xoffAt s q then
    sendPfc (s.updPort q (·.updCls c (fun x => { x with xoff := true, xoffAt := s.now }))) q c 0xFFFF
  else s

/-- A class falls to XON: PFC with quanta 0. -/
def checkXon (s : State) (q c : Nat) : State :=
  let x := (s.port q).cls c
  if x.xoff && x.occupied ≤ xonAt s q then sendPfc (s.updPort q (·.updCls c (fun x => { x with xoff := false }))) q c 0 else s

/-- A frame leaves the ingress buffer of port `q`. -/
def releaseIngress (s : State) (q : Nat) (f : Frame) : State :=
  match tcOf f with
  | some c => checkXon (s.updPort q (·.updCls c (fun x => { x with occupied := x.occupied - f.len }))) q c
  | none => s

/-- A frame that came in at port `o.1` with `o.2` bytes leaves the part (13 R307). -/
def releaseOrigin (s : State) (o : Option (Nat × Nat)) (f : Frame) : State :=
  match o with
  | some (q, n) => releaseIngress s q { f with len := n }
  | none => s

/-- A frame finds its class at the limit (13 R308). -/
def atLimit (s : State) (q : Nat) (f : Frame) : Bool :=
  q != mgmtPort && match tcOf f with
  | some c => classHeld (s.port q) c + f.len > classLimit s q c
  | none => false

/-- Counts a discard at the ingress limit. -/
def countLimit (s : State) (q : Nat) (f : Frame) : State :=
  let s := bump (tally s .ingressLimit) .port q 10 1
  match tcOf f with
  | some c => s.updPort q (·.updCls c (fun x => { x with limitDiscards := x.limitDiscards + 1 }))
  | none => s

/-- A received frame goes into the ingress buffer, with the cluster time of its arrival and its number. -/
def intoRx (s : State) (q : Nat) (f : Frame) : State :=
  let s := { s.updPort q (fun p => { p with rx := p.rx ++ [{ frame := f, stamp := s.stampOf q, arrived := s.arrivals + 1 }] }) with arrivals := s.arrivals + 1 }
  match tcOf f with
  | some c => checkXoff (s.updPort q (·.updCls c (fun x => { x with occupied := x.occupied + f.len }))) q c
  | none => s

/-- A local address or endpoint ID of the part (12 R272). -/
def localAddress (s : State) (ip : BitVec 128) : Bool := s.locals.any (fun l => l.ip == ip)
/-- A local endpoint ID. -/
def localEndpoint (s : State) (id : BitVec 24) : Bool := s.locals.any (fun l => l.id == id)

/-- The requests that the management port answers: CSR_READ, CSR_WRITE and MAILBOX, addressed to its own endpoint ID (16 R380). -/
def mgmtRequest (s : State) (f : Frame) (e : Eruno) : Bool :=
  f.udpPort == s.dev.erunoPort && e.version == 1 && e.dst == s.dev.mgmtId.id && f.ipDst == s.dev.mgmtId.ip && !e.flags.getLsbD 0
    && (e.opcode == 0x32 || e.opcode == 0x33 || e.opcode == 0x34)

/-- Delivery at the management port: LLDP and the requests that it answers are taken up, PFC and PAUSE are ignored, no frame is
forwarded, and any other is discarded (11 R250; 16 R380; log entry 114). -/
def deliverMgmt (s : State) (f : Frame) : State :=
  match f.body with
  | .lldp _ => intoRx s mgmtPort f
  | .eruno e => if mgmtRequest s f e then intoRx s mgmtPort f else tally s .badFrame
  | .pfc _ _ | .pause => tally s .pauseIgnored
  | _ => tally s .badFrame

/-- Delivery of a good frame: MAX_FRAME (11 R249) and the first row of 12 R273 that matches. -/
def deliver (s : State) (q : Nat) (f : Frame) : State :=
  if f.len > (s.port q).maxFrame then
    let s := bump (tally s .overlong) .port q 11 1
    match tcOf f with
    | some c => s.updPort q (·.updCls c (fun x => { x with overlongDiscards := x.overlongDiscards + 1 }))
    | none => s
  else if q = mgmtPort then deliverMgmt s f
  else match f.body with
    | .lldp _ | .ptp _ | .pfc _ _ | .pause => intoRx s q f
    | .linkControl => s
    | .roce _ => if f.udpPort.toNat == 4791 && localAddress s f.ipDst then intoRx s q f else tally s .badFrame
    | .eruno e => if f.udpPort == s.dev.erunoPort && e.version == 1 then intoRx s q f else tally s .badFrame
    | .other => tally s .badFrame

/-- Two frames of one flow, which the part takes up in their order of arrival (12 R283): requests of one session, responses of one
session, packets of one queue pair. DEDUCED: a COMP_ACK does not wait behind a request of its session that waits for its slice,
since it is never queued (14 R334; log entry 63); nor does a further segment of an earlier message wait behind a request with FENCE,
which waits for that message (12 R283). -/
def sameFlow (a b : Frame) : Bool :=
  match a.body, b.body with
  | .eruno x, .eruno y => x.session == y.session && x.dst == y.dst && tc4 x == tc4 y && !(x.flags.getLsbD 5 && y.flags.getLsbD 8 && y.operand.toNat % 65536 != 0)
  | .roce x, .roce y => x.destQp == y.destQp
  | _, _ => false

/-- The first frame of a kind that no earlier frame of its flow stands before, and the rest. -/
def takeFirst (want : RxItem → Bool) : List RxItem → List RxItem → Option (RxItem × List RxItem)
  | _, [] => none
  | seen, x :: r =>
    if want x && !seen.any (fun y => sameFlow y.frame x.frame) then some (x, seen ++ r)
    else takeFirst want (seen ++ [x]) r

/-- A frame of a flow arrived earlier at another port and still waits there (12 R283). -/
def earlierElsewhere (s : State) (q : Nat) (x : RxItem) : Bool :=
  s.ports.any (fun p => p.1 != q && p.2.rx.any (fun y => y.arrived < x.arrived && sameFlow y.frame x.frame))

/-- The first frame at port `q` of a kind that no earlier frame of its flow stands before at any port, and the rest. -/
def takeFrame (s : State) (q : Nat) (want : Frame → Bool) : Option (RxItem × List RxItem) :=
  takeFirst (fun x => want x.frame && !earlierElsewhere s q x) [] (s.port q).rx

/-- A row of a received frame: the first frame of the row's kind at port `q` that is due is handled; with none, nothing
happens. The frame leaves the ingress buffer unless it is forwarded. -/
def onFrame (s : State) (q : Nat) (want : Frame → Bool) (act : State → RxItem → State) : Host.Outcome State Fault Refusal :=
  .next (if s.clocked then
      match takeFrame s q want with
      | some (x, r) => act (releaseIngress (s.updPort q (fun p => { p with rx := r })) q x.frame) x
      | none => s
    else s)

/-! ### Class queues -/

/-- A port that takes frames for its class queues: every state but DOWN and TRAINING (11 R255; 12 R300). -/
def Port.carries (p : Port) : Bool := p.link == .negotiating || p.link == .up || p.link == .reliable

/-! ### Timestamps of PTP messages (07 R162, R164; 11 R259) -/

/-- Nanoseconds in the unit of PTP times, 2^-16 ns. -/
def ptpNs (n : Int) : Int := n * 65536

/-- The PTP identity of a port: clockIdentity and port number. -/
def portIdentity (q : Nat) : BitVec 80 := Config.clockIdentity ++ BitVec.ofNat 16 (q + 1)

/-- A timestamp at a port in the domain's time, in 2^-16 ns: the fold's counter and DOMAIN_OFFSET, less the port's asymmetry
(07 R162, R164). -/
def ptpStamp (s : State) (q : Nat) (t : Int) : Int := t + ptpNs s.clock.config.domainOffset.toNat - ptpNs (tgetD s.clock.config.asymmetry 0 q)

/-- The timestamp now. -/
def ptpNow (s : State) (q : Nat) : Int := ptpStamp s q (s.stampOf q)

/-- The event message of the part leaves port `q`, `d` after it was queued, with its timestamp now: a one-step Sync carries it, a one-step
Pdelay_Resp has the time it waited in its correction, and a request is held to have left now (07 R164; 11 R259, R268). -/
def stampLeaving (s : State) (q : Nat) (d : Int) (x : Ptp) : State × Ptp :=
  match x.kind with
  | .sync => (s, if x.twoStep then x else { x with stamp := x.stamp + d })
  | .pdelayResp => (s, if x.twoStep then x else { x with correction := x.correction + d })
  | .delayReq => (s.updPtp q (fun p => if p.delaySeq == x.seqId then { p with delayTx := p.delayTx.map (· + d) } else p), x)
  | .pdelayReq => (s.updPtp q (fun p => if p.pdelaySeq == x.seqId then { p with pdelayTx := p.pdelayTx.map (· + d) } else p), x)
  | _ => (s, x)

/-- A queued message is the Follow_Up that carries the timestamp of an event message. -/
def followsUp (x y : Ptp) : Bool :=
  x.twoStep && y.seqId == x.seqId && y.requester == x.requester && ((x.kind == .sync && y.kind == .followUp) || (x.kind == .pdelayResp && y.kind == .pdelayRespFollowUp))

/-- A queued frame after an event message has left, `d` after it was queued: its Follow_Up carries the timestamp of its leaving. -/
def Queued.follow (h : Queued) (x : Ptp) (d : Int) : Queued :=
  match h.frame.body with
  | .ptp y => if followsUp x y then { h with frame := { h.frame with body := .ptp { y with stamp := y.stamp + d } } } else h
  | _ => h

/-- A queued frame leaves port `q`: a PTP event message of the part is timestamped as it leaves (07 R164; 11 R259, R268). -/
def leave (s : State) (q c : Nat) (h : Queued) : State × Frame :=
  match h.frame.body with
  | .ptp x =>
    if x.source != portIdentity q then (s, h.frame) else
    let d := ptpNow s q - h.stamp
    let (s, y) := stampLeaving s q d x
    (s.updPort q (·.updCls c (fun k => { k with queue := k.queue.map (·.follow x d) })), { h.frame with body := .ptp y })
  | _ => (s, h.frame)

/-- Queues a frame on port `q`; a port that is down discards it (12 R300). -/
def enqueue (s : State) (q c : Nat) (f : Frame) (origin : Option (Nat × Nat) := none) : State :=
  if (s.port q).carries then s.updPort q (·.updCls c (fun x => { x with queue := x.queue ++ [{ frame := f, origin := origin, stamp := match f.body with | .ptp _ => ptpNow s q | _ => 0 }] }))
  else releaseOrigin s origin f

/-- Bytes in a class queue. -/
def PortClass.bytes (x : PortClass) : Nat := x.queue.foldl (fun n e => n + e.frame.len) 0

/-! ### Link states (11 R255, R266, R267) -/

/-- DATA of a LINK_STATE event. -/
def linkData (p : Port) (q : Nat) (new old : LinkState) (cause : Nat) : Bytes :=
  natLe q 1 ++ natLe new.code 1 ++ natLe old.code 1 ++ natLe cause 1 ++ natLe p.replays 4 ++ natLe p.discardedDown 4

/-- Reports a LINK_STATE (11 R267; 18 R414). The management port's link is counted in no quad, and has none to report (11 R250). -/
def reportLink (s : State) (q : Nat) (new old : LinkState) (cause : Nat) : State :=
  if q = mgmtPort then s else
  let d := linkData (s.port q) q new old cause
  let s := postRoles s [.installer, .operator] 0xC 4 (q / 4) d
  trace s 6 (0x30 + q / 4) none s.ct (d ++ natLe (q / 4) 1)

/-- A port's link enters another state. -/
def setLink (s : State) (q : Nat) (new : LinkState) (cause : Nat) : State :=
  let old := (s.port q).link
  let s := s.updPort q (fun p => { p with link := new, cause := cause, since := s.now, refusalReported := false })
  reportLink s q new old cause

/-- A port's sequence state, void (11 R257, R266). -/
def Port.voidLink (p : Port) : Port :=
  { p with tlvSent := false, tlvPeer := false, initSent := 0, initOn := false, lastInit := none, peerSeen := false, oldest := 0, next := 0, rp := 0, expected := 0
           kept := [], nakSent := none, oweAck := none, timer := none, progress := none, lockLost := none, control := [] }

/-- Frames queued in the classes of a port. -/
def Port.queued (p : Port) : List Queued := p.classes.flatMap (fun e => e.2.queue)

/-- A mover's frame is discarded before it has left: its descriptor fails with FAULT (04 R448). -/
def failMover (s : State) (p mv : Nat) : State :=
  s.updEngine p (fun e => { e with movers := tupd e.movers {} mv (fun m => { m with queue := match m.queue with
    | d :: r => { d with failed := if d.failed = 0 then 0x010C else d.failed } :: r
    | [] => [] }) })

/-- A port goes down: its replay buffer share and every queued frame are discarded and counted (11 R266). -/
def portDown (s : State) (q cause : Nat) : State :=
  let p := s.port q
  if p.link = .down then s else
  let lost := p.kept.length + p.queued.length
  let s := s.updPort q (fun p => { p.voidLink with discardedDown := lost, classes := tmap p.classes (fun _ x => { x with queue := [], deficit := 0, gateHeld := false }) })
  let s := p.queued.foldl (fun s x => releaseOrigin s x.origin x.frame) s
  let s := p.queued.foldl (fun s x => match x.mover with | some m => failMover s m.1 m.2 | none => s) s
  setLink s q .down cause

/-- A port starts training (11 R255, R267 cause 0x08). -/
def portTrain (s : State) (q : Nat) : State := if (s.port q).link = .down then setLink s q .training 8 else s

/-! ### Quads (11 R253, R254) -/

/-- Sets a quad's state. -/
def setQuad (s : State) (k : Nat) (st : QuadState) : State := s.updQuad k (fun x => { x with st := st, since := s.now })

/-- Every port of a quad goes down with cause 0x05. -/
def quadDown (s : State) (k : Nat) : State := foldKeys (rangeFrom (4 * k) 4) s (fun s q => portDown s q 5)

/-- A quad enters RESETTING (11 R253). -/
def quadReset (s : State) (k : Nat) : State := (setQuad (quadDown s k) k .resetting).updQuad k (fun x => { x with configured := s.now })

/-- The error log record of a quad reset: 1 by command, 2 for a replay buffer error (17 R386). -/
def logQuadReset (s : State) (k cause : Nat) : State := logError s 0x34 3 (0x30 + k) (natLe k 1 ++ natLe cause 1)

/-- The bytes [63:20] of a PORT_CONFIG as a faulty byte of the slot, if one is (11 R249, R270). -/
def quadFault (b : Bytes) : Option Nat :=
  let quad := field b 0 1
  let mode := field b 1 1
  let n := modePorts mode
  let port (i : Nat) : List (Nat × Bool) :=
    let o := 4 + 8 * i
    let mf := field b o 2
    [(20 + o, if i < n then !(1518 ≤ mf && mf ≤ 9216) else mf != 0), (22 + o, if i < n then field b (o + 2) 1 > 2 else field b (o + 2) 1 != 0)
      , (23 + o, !zeroAt b (o + 3) (o + 7))]
  let checks := [(20, quad > 15 || (mode = 9 && quad % 2 = 1)), (21, mode > 9), (22, field b 2 1 > 1), (23, field b 3 1 != 0)]
    ++ (List.range 4).flatMap port ++ [(57, mode != 9 && field b 37 1 != 0), (58, !zeroAt b 38 43)]
  (checks.filter (·.2)).head?.map (·.1)

/-- `quadFault` as the check of an installer record's QUAD[q] (16 R373). -/
def quadCheck : QuadCheck := fun q b => (quadFault b).isNone && field b 0 1 == q

/-- Sets the ports of a quad from the bytes [63:20] of a PORT_CONFIG. -/
def setPorts (s : State) (k : Nat) (b : Bytes) : State :=
  foldRange 0 4 s (fun s n => s.updPort (4 * k + n) (fun p =>
    { p with maxFrame := if n < modePorts (field b 1 1) then field b (4 + 8 * n) 2 else 9216, relMode := field b (6 + 8 * n) 1 }))

/-- Configures a quad from the bytes [63:20] of a PORT_CONFIG, and enters RESETTING, or OFF (11 R253, R254). -/
def configureQuad (s : State) (b : Bytes) : State :=
  let k := field b 0 1
  let mode := field b 1 1
  let old := s.quad k
  let s := if mode = 9 then
      (if (s.quad (k + 1)).st = .paired then s else setQuad (quadDown s (k + 1)) (k + 1) .paired).updQuad (k + 1)
        (fun x => { x with mode := 0, polarity := BitVec.ofNat 8 (field b 37 1) })
    else if old.mode = 9 then setQuad s (k + 1) .off else s
  let s := quadDown s k
  let s := s.updQuad k (fun x => { x with mode := mode, an := bit (field b 2 1) 0, polarity := BitVec.ofNat 8 (field b 36 1) })
  let s := setPorts s k b
  if mode = 0 then (if old.st = .off then s else setQuad s k .off) else quadReset s k

/-- What PORT_CONFIG answers in the quads' states (11 R254). -/
def quadRefusal (s : State) (k mode : Nat) : Option Reply :=
  let st := (s.quad k).st
  if st = .paired then some (badState 4 5)
  else if st = .resetting || (mode = 9 && (s.quad (k + 1)).st = .resetting) then some busy
  else none

/-- PORT_CONFIG (11 R253, R254, R269, R270). -/
def cmdPortConfig : Cmd where
  op := 0x0501
  issuers := installerOnly
  changes := always
  body := fun q s =>
    let b := q.slot.drop 20
    match quadFault b with
    | some i => badAt i
    | none =>
      if s.job.isOpen then busy else
      match quadRefusal s (field b 0 1) (field b 1 1) with
      | some r => r
      | none => .done (configureQuad s b) [] []

/-- Frames outstanding on a port. -/
def Port.outstanding (p : Port) : Nat := (p.next - p.oldest).toNat

/-- PORT_STATUS (11 R269). -/
def cmdPortStatus : Cmd where
  op := 0x0502
  issuers := operatorInstaller
  blocked := neverBlocked
  query := true
  body := fun q s =>
    let k := q.arg 20 1
    match q.firstBad [(20, 1)] [(20, k > 15)] with
    | some b => badAt b
    | none =>
      let x := s.quad k
      let port (n : Nat) : Bytes :=
        let p := s.port (4 * k + n)
        natLe p.link.code 1 ++ natLe p.cause 1 ++ natLe p.outstanding 2 ++ natLe p.replays 4
      .done s (natLe x.st.code 1 ++ natLe x.mode 1 ++ natLe 0 2 ++ (List.range 4).flatMap port ++ natLe ((s.now - x.since) / 1000000) 4) []

/-- PORT_STATUS. -/
def execPortStatus (m : Fin 1029) (s : State) : Host.Outcome State Fault Refusal := serve m cmdPortStatus s

/-- QUAD_RESET (11 R253, R254). -/
def cmdQuadReset : Cmd where
  op := 0x0503
  issuers := operatorInstaller
  changes := always
  body := fun q s =>
    let k := q.arg 20 1
    match q.firstBad [(20, 1)] [(20, k > 15)] with
    | some b => badAt b
    | none => match (s.quad k).st with
      | .training | .active => .done (logQuadReset (quadReset s k) k 1) [] []
      | .resetting => busy
      | st => badState 4 st.code

/-- The ports of a mask of port indices. -/
def maskPorts (n : Nat) : List Nat := (List.range 64).filter (bit n ·)

/-- LINK_PARAMS_SET (11 R265, R269). -/
def cmdLinkParamsSet : Cmd where
  op := 0x0504
  issuers := installerOnly
  changes := always
  body := fun q s =>
    let replay := q.arg 30 4
    let ack := q.arg 34 2
    let loss := q.arg 36 4
    match q.firstBad [(22, 18)] [(30, !(1000 ≤ replay && replay ≤ 100000) || replay * 2 > loss * 1000), (34, ack > 2000 || ack * 2 ≥ replay)
        , (36, !(10 ≤ loss && loss ≤ 100000))] with
    | some b => badAt b
    | none => .done (foldKeys (maskPorts (q.arg 22 8)) s (fun s p => s.updPort p (fun x => { x with replayTimer := replay, ackDelay := ack, lossTime := loss * 1000 }))) [] []

/-- LINK_PARAMS_SET. -/
def execLinkParamsSet (m : Fin 1029) (s : State) : Host.Outcome State Fault Refusal := serve m cmdLinkParamsSet s

/-! ### Events of quads and ports -/

/-- PORT_TRAINED (11 R252, R255). -/
def portTrained (s : State) (q : Nat) : State :=
  let s := setLink s q (if (s.port q).relMode ≥ 1 then .negotiating else .up) 1
  if q != mgmtPort && (s.quad (q / 4)).st = .training && (quadPorts s (q / 4)).all (fun i => (s.port i).carries) then setQuad s (q / 4) .active else s

/-- PORT_TRAINED. -/
def execPortTrained (t : Nat) (q : Fin 65) (s : State) : Host.Outcome State Fault Refusal :=
  timed t s (fun s => s.clocked && portExists s q && (s.port q).link == .training) (portTrained · q)

/-- 0.5 s in NEGOTIATING without agreement: cause 0x07, once, where the port insists; UP otherwise (11 R255). -/
def refuseNegotiation (s : State) (q : Nat) : State :=
  if (s.port q).relMode = 2 then
    (reportLink s q .negotiating .negotiating 7).updPort q (fun p => { p with refusalReported := true, cause := 7 })
  else setLink s q .up 6

/-- DOWN_RETRAIN_TIMER: 10 ms in DOWN (11 R255). -/
def execDownRetrainTimer (t : Nat) (q : Fin 65) (s : State) : Host.Outcome State Fault Refusal :=
  ticking t s (fun s => portExists s q && (s.port q).link == .down && (s.port q).since + msNs 10 ≤ s.now
      && (q = mgmtPort || (s.quad (q / 4)).st == .training || (s.quad (q / 4)).st == .active)) (portTrain · q)

/-- QUAD_RESET_HOLD_END: 1 ms in RESETTING (11 R254). -/
def execQuadResetHoldEnd (t : Nat) (k : Fin 16) (s : State) : Host.Outcome State Fault Refusal :=
  ticking t s (fun s => (s.quad k).st == .resetting && (s.quad k).since + msNs 1 ≤ s.now)
    (fun s => foldKeys (quadPorts s k) (setQuad s k .training) portTrain)

/-- PCS_LOCK_LOST (11 R266). -/
def execPcsLockLost (t : Nat) (q : Fin 65) (s : State) : Host.Outcome State Fault Refusal :=
  ticking t s (fun s => (s.port q).carries && (s.port q).lockLost.isNone) (fun s => s.updPort q (fun p => { p with lockLost := some (s.now + p.lossTime) }))

/-- PCS_LOCK_REGAINED (11 R266, R268). -/
def execPcsLockRegained (t : Nat) (q : Fin 65) (s : State) : Host.Outcome State Fault Refusal :=
  ticking t s (fun s => (s.port q).lockLost.isSome) (fun s => s.updPort q (fun p => { p with lockLost := none }))

/-- An instant that has come. -/
def reached (s : State) (t : Option Nat) : Bool := match t with | some u => u ≤ s.now | none => false

/-- The acknowledgement stall of 11 R266 has lasted LINK_LOSS_TIME. -/
def stalled (s : State) (q : Nat) : Bool :=
  (s.port q).link == .reliable && (s.port q).oldest != (s.port q).next && reached s (s.port q).progress

end Sys2Proof.Machine
end

