-- ==== Sys2Proof/Machine/Link.lean ====
section
/-!
DEFINITION. The reliable link: entering it, receiving, acknowledging and replay (11 R256 to R263, R268).
-/

namespace Sys2Proof

open Machine

/-! ### The reliable-link TLV (11 R256) -/

/-- The 20 bytes of a reliable-link TLV: the TLV header and the OUI in LLDP byte order, the information string little-endian. -/
def LinkTlv.bytes (x : LinkTlv) : Bytes :=
  [0xFE, 0x12, 0x6A, 0xD0, 0x73, 0x01] ++ natLe x.version 1 ++ natLe x.relMode 1 ++ natLe x.bufferKib 2 ++ natLe x.replayNs 4 ++ natLe x.ackDelayNs 2 ++ natLe 0 4

/-- The fields of a reliable-link TLV; none for bytes that are no such TLV. -/
def readTlv (b : Bytes) : Option LinkTlv :=
  if b.length = 20 && b.take 6 = [0xFE, 0x12, 0x6A, 0xD0, 0x73, 0x01] then
    some { version := field b 6 1, relMode := field b 7 1, bufferKib := field b 8 2, replayNs := field b 10 4, ackDelayNs := field b 14 2 }
  else none

end Sys2Proof

namespace Sys2Proof.Machine

open Sys2Proof

/-! ### Agreement (11 R256) -/

/-- Agreement holds: both ends have sent a TLV of VERSION 0x01 and REL_MODE of at least 1; the port's own counts only then. -/
def Port.agrees (p : Port) : Bool := p.tlvSent && p.tlvPeer

/-- A TLV of the port or its peer has gone out; with agreement the port sends INIT (11 R257). -/
def Port.hear (p : Port) (f : Port → Port) : Port := let p' := f p; if p'.agrees && !p.agrees then { p' with initOn := true } else p'

/-! ### Entering reliable mode (11 R257) -/

/-- Queues a link control frame whose tag has these flags. -/
def control (s : State) (q : Nat) (tag : LinkTag) : State := s.updPort q (fun p => { p with control := p.control ++ [tag] })

/-- A port that has sent an INIT and received a good tagged frame enters RELIABLE. -/
def tryReliable (s : State) (q : Nat) : State :=
  let p := s.port q
  if p.link = .negotiating && p.agrees && p.initSent ≥ 1 && p.peerSeen then
    let s := s.updPort q (fun p => { p with oldest := 0, next := 0, rp := 0, expected := 0, kept := [], replays := 0, nakSent := none
                                            oweAck := none, timer := none, progress := none })
    control (setLink s q .reliable 2) q {}
  else s

/-- LLDPDU: the peer's TLV counts toward agreement in NEGOTIATING (11 R256); a port in UP ignores it. -/
def takeLldp (s : State) (q : Nat) (tlv : Option Bytes) : State :=
  match tlv.bind readTlv with
  | some x =>
    if (s.port q).link = .negotiating && x.version = 1 && x.relMode ≥ 1 then s.updPort q (·.hear (fun p => { p with tlvPeer := true })) else s
  | none => s

/-- An LLDP frame. -/
def isLldp (f : Frame) : Bool := match f.body with | .lldp _ => true | _ => false

/-- LLDPDU. -/
def execLldpdu (q : Fin 65) (s : State) : Host.Outcome State Fault Refusal :=
  onFrame s q isLldp (fun s x => match x.frame.body with | .lldp tlv => takeLldp s q tlv | _ => s)

/-- The LLDPDU of a port, with its reliable-link TLV (11 R256); the management port has no reliable mode and sends none (11 R250). -/
def lldpFrame (s : State) (q : Nat) : Frame :=
  let p := s.port q
  let x : LinkTlv := { version := 1, relMode := p.relMode, bufferKib := portShare s q / 1024, replayNs := p.replayTimer, ackDelayNs := p.ackDelay }
  { len := 64, ecn := 0, ethDst := 0x0180C200000E, ethSrc := portMac s q, body := .lldp (if q = mgmtPort then none else some x.bytes) }

/-- LLDP_TRANSMIT_TIMER (11 R256); the interval is 802.1AB's own (log entry 2). -/
def execLldpTransmitTimer (t : Nat) (q : Fin 65) (s : State) : Host.Outcome State Fault Refusal :=
  timed t s (fun s => s.clocked && (s.port q).carries) (fun s => enqueue s q 7 (lldpFrame s q))

/-- INIT_SEND_TIMER (11 R257): 1 µs apart. -/
def execInitSendTimer (t : Nat) (q : Fin 64) (s : State) : Host.Outcome State Fault Refusal :=
  ticking t s (fun s => (s.port q).initOn && (match (s.port q).lastInit with | some u => u + usNs 1 ≤ s.now | none => true))
    (fun s => control (s.updPort q (fun p => { p with lastInit := some s.now })) q { init := true })

/-! ### Acknowledgement, NAK and replay (11 R261, R262) -/

/-- nak() of 11 R261. -/
def nak (s : State) (q : Nat) : State :=
  let p := s.port q
  let quiet := match p.nakSent with | some (e, u) => e == p.expected && s.now < u | none => false
  if quiet then s else
  let s := s.updPort q (fun p => { p with nakSent := some (p.expected, s.now + p.replayTimer) })
  bump (control s q { nak := true }) .port q 5 1

/-- owe_ack() of 11 R261; with ACK_DELAY 0, at once (11 R265). -/
def oweAck (s : State) (q : Nat) : State :=
  let p := s.port q
  if p.ackDelay = 0 then control s q {}
  else if p.oweAck.isSome then s
  else s.updPort q (fun p => { p with oweAck := some (s.now + p.ackDelay) })

/-- ACK_DELAY_EXPIRY (11 R261). -/
def execAckDelayExpiry (t : Nat) (q : Fin 64) (s : State) : Host.Outcome State Fault Refusal :=
  ticking t s (fun s => (s.port q).link == .reliable && reached s (s.port q).oweAck)
    (fun s => control (s.updPort q (fun p => { p with oweAck := none })) q {})

/-- Replay starts from `oldest`. -/
def startReplay (s : State) (q : Nat) : State :=
  bump (s.updPort q (fun p => { p with rp := p.oldest, timer := some (s.now + p.replayTimer), replays := p.replays + 1 })) .port q 7 1

/-- REPLAY_TIMER_EXPIRY (11 R262 on_timer). -/
def execReplayTimerExpiry (t : Nat) (q : Fin 64) (s : State) : Host.Outcome State Fault Refusal :=
  ticking t s (fun s => (s.port q).link == .reliable && (s.port q).oldest != (s.port q).next && reached s (s.port q).timer) (startReplay · q)

/-- Releases the frames before `a`, which become acknowledged (11 R262). -/
def Port.release (p : Port) (now : Nat) (a : BitVec 16) : Port :=
  let kept := p.kept.filter (fun k => !((k.seq - p.oldest).toNat < (a - p.oldest).toNat))
  let empty := a == p.next
  let p := { p with kept := kept, oldest := a, timer := if empty then none else some (now + p.replayTimer), progress := if empty then none else some (now + p.lossTime) }
  if (p.rp - p.oldest).toNat > (p.next - p.oldest).toNat then { p with rp := p.oldest } else p

/-- on_ack() of 11 R262. -/
def onAck (s : State) (q : Nat) (a : BitVec 16) (isNak : Bool) : State :=
  let p := s.port q
  let s := if isNak then bump s .port q 6 1 else s
  if (a - p.oldest).toNat > (p.next - p.oldest).toNat then tally s .badAck else
  let s := if a != p.oldest then s.updPort q (·.release s.now a) else s
  if isNak && (s.port q).rp != (s.port q).oldest then startReplay s q else s

/-- A frame with a bad FCS or tag is counted (18 R408 PORT 4). -/
def countBad (s : State) (q : Nat) : State := bump (tally s .badTag) .port q 4 1

/-- A port stops sending INIT, and drops one that waits to be sent (11 R257). -/
def stopInit (s : State) (q : Nat) : State := s.updPort q (fun p => { p with initOn := false, control := p.control.filter (fun t => !t.init) })

/-- receive() of 11 R261; a sequenced frame at the ingress limit is handled as one with a bad FCS (13 R308). -/
def receiveReliable (s : State) (q : Nat) (f : RxFrame) : State :=
  if !f.tagged || !f.crcGood then
    if f.fcsGood && !sequenced f.frame then countBad s q else countBad (nak s q) q
  else if !f.fcsGood then countBad (if f.tag.seqValid then nak s q else s) q
  else
    let limited := f.frame.len ≤ (s.port q).maxFrame && atLimit s q f.frame
    let d := (f.tag.seq - (s.port q).expected).toNat
    if limited && f.tag.seqValid then countLimit (nak s q) q f.frame
    else
      let s := if f.tag.ackValid then onAck (stopInit s q) q f.tag.ack f.tag.nak else s
      if !f.tag.seqValid then (if limited then countLimit s q f.frame else deliver s q f.frame)
      else if d = 0 then oweAck ((deliver s q f.frame).updPort q (fun p => { p with expected := p.expected + 1 })) q
      else if d < 32768 then nak s q
      else oweAck s q

/-- A frame that reaches a port in NEGOTIATING: LLDP and link control frames alone are accepted, and a good tagged frame of
any kind counts toward RELIABLE (11 R255, R257). -/
def receiveNegotiating (s : State) (q : Nat) (f : RxFrame) : State :=
  if !f.fcsGood || (f.tagged && !f.crcGood) then countBad s q else
  let s := if f.tagged then s.updPort q (fun p => { p with peerSeen := true }) else s
  let s := if f.tagged && f.tag.ackValid && (s.port q).initSent ≥ 1 then stopInit s q else s
  let s := if !isLldp f.frame then s else if atLimit s q f.frame then countLimit s q f.frame else deliver s q f.frame
  tryReliable s q

/-- A frame that reaches a port in UP: standard Ethernet (11 R255; 13 R308). -/
def receiveUp (s : State) (q : Nat) (f : RxFrame) : State :=
  if !f.fcsGood then countBad s q
  else if f.frame.len ≤ (s.port q).maxFrame && atLimit s q f.frame then countLimit s q f.frame
  else deliver s q f.frame

/-- A frame arrives at a port. -/
def receiveFrame (s : State) (q : Nat) (f : RxFrame) : State :=
  let s' := bump (bump s .port q 0 1) .port q 1 f.frame.len
  match (s.port q).link with
  | .reliable => receiveReliable s' q f
  | .negotiating => receiveNegotiating s' q f
  | .up => receiveUp s' q f
  | .down | .training => s

/-- LINK_FRAME_RECEIVE (11 R261). -/
def execLinkFrameReceive (t : Nat) (q : Fin 65) (f : RxFrame) (s : State) : Host.Outcome State Fault Refusal :=
  timed t s (fun s => s.clocked) (fun s => receiveFrame s q f)

end Sys2Proof.Machine
end

