-- ==== Sys2Proof/Machine/Profile.lean ====
section
/-!
DEFINITION. Stack profiles (09 R205 to R207) and the outer code's check symbols (09 R220).
-/

namespace Sys2Proof.Machine

open Sys2Proof

/-- The number in bytes [off, off + n) of a profile. -/
abbrev profNum (p : Bytes) (off n : Nat) : Nat := field p off n

/-- A delay byte plus a trim byte lies from 0 to 255 steps. -/
def delayOk (p : Bytes) (lane trim : Nat) : Bool :=
  let v : Int := (profNum p lane 1 : Int) + sfield p trim 1
  0 ≤ v && v ≤ 255

/-- Every lane's delay plus its PC's trim lies from 0 to 255 steps; the offset of the first that does not (09 R206): the
command-address lanes, which the part drives, with the write trim (DEDUCED, log entry 101), then the data and sideband lanes. -/
def laneFault (npc : Nat) (p : Bytes) : Option Nat :=
  match (List.range (16 * npc)).find? (fun c => !delayOk p (128 + 4 * npc + c) (128 + 4 * (c / 16) + 1)) with
  | some c => some (128 + 4 * npc + c)
  | none => (List.range (36 * npc)).findSome? (fun k =>
    let trim := 128 + 4 * (k / 36)
    let off := 128 + 20 * npc + 2 * k
    if !delayOk p off trim then some off else if !delayOk p (off + 1) (trim + 1) then some (off + 1) else none)

/-- The byte offset of a profile's first fault (09 R205, R206). -/
def profileFault (s : State) (site : Nat) (p : Bytes) : Option Nat :=
  let npc := s.pcs
  let checks : List (Bool × Nat) := [
    (profNum p 0 2 == 1, 0), (profNum p 2 1 == s.buildCode, 2), (profNum p 3 1 == site, 3),
    (profNum p 4 4 ≤ (match s.build with | .h4 => 8000 | .h3 => 9600), 4), (zeroAt p 8 31, 8), (zeroAt p 56 95, 56),
    (1000 ≤ profNum p 96 2 && profNum p 96 2 ≤ 15600, 96), (100 ≤ profNum p 98 2 && profNum p 98 2 ≤ 1000, 98),
    (70 ≤ profNum p 100 1 && profNum p 100 1 ≤ 95, 100), (profNum p 101 1 ≤ 15, 101), (zeroAt p 103 111, 103), (zeroAt p 118 127, 118)]
  match checks.find? (fun c => !c.1) with
  | some c => some c.2
  | none =>
    match (List.range npc).find? (fun i => !zeroAt p (128 + 4 * i + 2) (128 + 4 * i + 3)) with
    | some i => some (128 + 4 * i + 2)
    | none => laneFault npc p

/-- The first fault of a profile set: its offset and its site (09 R206). -/
def setFault (s : State) (set : Bytes) : Option (Nat × Nat) :=
  if set.length != 16 * s.profileSize then some (0, 0) else
  match (List.range 16).findSome? (fun k => (profileFault s k (siteProfile s set k)).map (·, k)) with
  | some x => some x
  | none => (List.range 16).findSome? (fun k =>
      [112, 114, 116].findSome? (fun off =>
        if profNum (siteProfile s set k) off 2 != profNum (siteProfile s set (k / 4 * 4)) off 2 then some (off, k) else none))

/-- The profile set applied at this start. -/
def appliedProfile (s : State) (t : Nat) : Bytes := siteProfile s s.dev.profile.whole t
/-- T_REFI in ns (09 R205). -/
def tRefi (s : State) (t : Nat) : Nat := s.dev.profile.num (t * s.profileSize + 96) 2
/-- T_RFC in ns (09 R205). -/
def tRfc (s : State) (t : Nat) : Nat := s.dev.profile.num (t * s.profileSize + 98) 2
/-- HOT_TEMP in °C (09 R205). -/
def hotTemp (s : State) (t : Nat) : Nat := s.dev.profile.num (t * s.profileSize + 100) 1
/-- The accepted profile copy of a stack in flash, which SCHED_ADMIT judges by (09 R214, R450). -/
def acceptedNum (s : State) (t off n : Nat) : Nat := s.flash.accepted.num (t * s.profileSize + off) n

/-! ### RS(144,128) (09 R220) -/

/-- Multiplication in GF(2^8) with x^8 + x^4 + x^3 + x^2 + 1, `n` bits of the second factor to go. -/
def gfMulFrom : Nat → Nat → Nat → Nat → Nat
  | 0, _, _, acc => acc
  | n + 1, a, b, acc =>
    let a2 := 2 * a
    gfMulFrom n (if a2 ≥ 256 then a2 ^^^ 0x11D else a2) (b / 2) (if b % 2 = 1 then acc ^^^ a else acc)

/-- Multiplication in GF(2^8). -/
def gfMul (a b : Nat) : Nat := gfMulFrom 8 a b 0

/-- A polynomial, highest coefficient first, times (x − r). -/
def polyTimes (p : List Nat) (r : Nat) : List Nat := List.zipWith (· ^^^ ·) (p ++ [0]) (0 :: p.map (gfMul r))

/-- The generator's coefficients, highest first, from roots α^i on. -/
def generatorFrom : Nat → Nat → List Nat → List Nat
  | 0, _, p => p
  | n + 1, r, p => generatorFrom n (gfMul r 2) (polyTimes p r)

/-- The generator (x − α^0) … (x − α^15). -/
def rsGenerator : List Nat := generatorFrom 16 1 [1]

/-- Remainder of the data polynomial times x^16, symbol 0 the highest coefficient. -/
def rsRemainder (g : List Nat) : List Nat → List Nat → List Nat
  | r, [] => r
  | r, d :: ds =>
    let fb := d ^^^ r.headD 0
    rsRemainder g (List.zipWith (· ^^^ ·) (r.drop 1 ++ [0]) (g.map (gfMul fb))) ds

/-- The 144 symbols of a codeword. -/
def codeword (b : Bytes) : Bytes := b ++ (rsRemainder (rsGenerator.drop 1) (List.replicate 16 0) (b.map (·.toNat))).map (BitVec.ofNat 8)

/-- The symbols stored for a line: the codeword with its errors, or the unrebuildable mark (10 R239). -/
def storedSymbols (s : State) (t l : Nat) : Bytes :=
  if (lineErr s t l).mark then List.replicate 128 0 ++ List.replicate 16 0xA5
  else (lineErr s t l).errs.foldl (fun c e => c.set e.1 (c.getD e.1 0 ^^^ e.2)) (codeword (lineBytes s t l))

end Sys2Proof.Machine
end

