-- ==== Sys2Proof/Machine/Stack.lean ====
section
/-!
DEFINITION. Stack controllers: their commands, access outcomes, patrol scrub and repair writes (09 R215 to R231).
-/

namespace Sys2Proof.Machine

open Sys2Proof

/-- The code of a stack state (10 R237). -/
def StackState.code : StackState → Nat
  | .serving => 1 | .fenced => 2 | .rebuilding => 3 | .rebuilt => 4 | .failedNoSpare => 5 | .lost => 6

/-- The stack that a command names in byte 20. -/
def stackObj (q : Req) : Nat × Nat := (0x07, q.arg 20 1)

/-- STACK_STATUS (09 R230). -/
def cmdStackStatus : Cmd where
  op := 0x0801
  issuers := anyRole
  obj := fun _ => (0x0A, 0)
  blocked := neverBlocked
  query := true
  body := fun q s =>
    let t := q.arg 20 1
    match q.firstBad [(20, 1)] [(20, t > 15)] with
    | some b => badAt b
    | none =>
      let x := s.stack t
      let age := match x.scrubDone with | some d => (s.now - d) / secNs 1 | none => 0
      .done s (natLe x.st.code 1 ++ natLe 0 1 ++ natLe x.badDies.toNat 2 ++ natLe (unsigned x.caseTemp 8) 1 ++ natLe x.flags.toNat 1 ++ natLe x.owedMax 1
        ++ natLe 0 1 ++ natLe x.forced 4 ++ natLe x.corrected 4 ++ natLe x.reconstructed 4 ++ natLe x.mediaErrors 4 ++ natLe x.scrubAddr 8 ++ natLe age 4) []

/-- STACK_STATUS. -/
def execStackStatus (m : Fin 1029) (s : State) : Host.Outcome State Fault Refusal := serve m cmdStackStatus s

/-- The digest of a profile set (09 R205). -/
def setDigest (set : Bytes) : Bytes := Config.shake256 set 32

/-- STACK_PROFILE_READ (09 R230). -/
def cmdStackProfileRead : Cmd where
  op := 0x0802
  issuers := fun p => installerOnly p || makerOnly p
  blocked := neverBlocked
  query := true
  body := fun q s =>
    let t := q.arg 20 1
    let copy := q.arg 21 1
    match q.firstBad [(20, 2)] [(20, t > 15), (21, copy > 1)] with
    | some b => badAt b
    | none =>
      let set := if copy = 0 then s.flash.accepted.at_ 0 (16 * s.profileSize) else packageProfiles s s.dev.package
      if q.room < s.profileSize then noRoom else .done s (setDigest set) (siteProfile s set t)

/-- STACK_PROFILE_READ. -/
def execStackProfileRead (m : Fin 1029) (s : State) : Host.Outcome State Fault Refusal := serve m cmdStackProfileRead s

/-- STACK_PROFILE_ACCEPT (09 R206, R207, R215, R231). -/
def cmdStackProfileAccept : Cmd where
  op := 0x0803
  issuers := installerOnly
  changes := always
  body := fun q s =>
    let set := packageProfiles s s.dev.package
    match q.firstBad [(20, 2)] [(20, q.arg 20 2 > 1023)] with
    | some b => badAt b
    | none =>
      if q.xargLen != 32 then badSlot 6
      else if !s.dev.package.present || setDigest set != q.xarg then badX 0
      else match setFault s set with
        | some (off, site) => badX off site
        | none =>
          if s.job.isOpen then busy
          else .done (s.updFlash (fun f => { f with accepted := Area.of set, acceptedSig := packageSignature s s.dev.package, idleClose := q.arg 20 2 })) [] []

/-- STACK_PROFILE_ACCEPT. -/
def execStackProfileAccept (m : Fin 1029) (s : State) : Host.Outcome State Fault Refusal := serve m cmdStackProfileAccept s

/-- MEM_POLICY_SET (09 R228, R230). -/
def cmdMemPolicySet : Cmd where
  op := 0x0804
  issuers := operatorOnly
  changes := always
  body := fun q s =>
    let p : Policy := { bgShare := q.arg 20 1, scrubPeriod := q.arg 21 2, dieBadLines := q.arg 23 4, dieLimit := q.arg 27 1, ueLimit := q.arg 28 2
                        caParityLimit := q.arg 30 1, combineIdle := q.arg 31 4 }
    match q.firstBad [(20, 15)] [(20, !(5 ≤ p.bgShare && p.bgShare ≤ 50)), (21, p.scrubPeriod > 720), (27, p.dieLimit > 1), (28, p.ueLimit < 1)
        , (30, p.caParityLimit < 1), (31, !(1000 ≤ p.combineIdle && p.combineIdle ≤ 1000000))] with
    | some b => badAt b
    | none => .pend (stage s (.policy p) (some q.owes)) []

/-- MEM_POLICY_SET. -/
def execMemPolicySet (m : Fin 1029) (s : State) : Host.Outcome State Fault Refusal := serve m cmdMemPolicySet s

/-- The largest owed count of a stack's PCs now. -/
def Stack.owedNow (x : Stack) : Nat := x.owed.foldl (fun a e => max a e.2) 0

/-- Clears flags of a stack; the largest owed count starts again (09 R230, R231). -/
def Stack.clearFlags (x : Stack) (mask : Nat) : Stack := { x with flags := x.flags &&& ~~~(BitVec.ofNat 8 mask), owedMax := x.owedNow }

/-- STACK_FLAGS_CLEAR (09 R230, R231). -/
def cmdStackFlagsClear : Cmd where
  op := 0x0805
  issuers := operatorOnly
  changes := always
  lock := fun q => some (stackObj q)
  body := fun q s =>
    match q.firstBad [(20, 2)] [(20, q.arg 20 1 > 15), (21, q.arg 21 1 ≥ 64)] with
    | some b => badAt b
    | none => .done (s.updStack (q.arg 20 1) (·.clearFlags (q.arg 21 1))) [] []

/-- STACK_FLAGS_CLEAR. -/
def execStackFlagsClear (m : Fin 1029) (s : State) : Host.Outcome State Fault Refusal := serve m cmdStackFlagsClear s

/-- A data address lies in a granted extent. -/
def addrGranted (s : State) (a : Nat) : Bool := (extentAt s a).any (fun e => (extentHolder s e).isSome)

/-- A stripe holds a unit of a granted extent. -/
def stripeGranted (s : State) (st : Nat) : Bool := (List.range 14).any (fun k => addrGranted s (unitAddr st k))

/-- STACK_DIAG_READ is refused for a line (09 R231). -/
def diagDenied (s : State) (t l : Nat) : Bool :=
  match contentOf t l with
  | .parity st => stripeGranted s st
  | .spare st => (placed s st (parityHome st) == t && stripeGranted s st) || (addrOfLine s t l).any (addrGranted s)
  | .data _ _ => (addrOfLine s t l).any (addrGranted s)

/-- The decode outcome that STACK_DIAG_READ reports: 0 no error, 1 corrected, 2 reconstructed, 3 failed; the byte that says so
is open (09 R222, R230; log entry 17). -/
def diagOutcome (s : State) (t l : Nat) : Nat :=
  match decodeLine s t l with
  | .clean => 0
  | .corrected => 1
  | .beyond => if (lineErr s t l).mark || (reconstructLine s t l).isNone then 3 else 2

/-- STACK_DIAG_READ (09 R230, R231). -/
def cmdStackDiagRead : Cmd where
  op := 0x0806
  issuers := makerOnly
  changes := always
  blocked := neverBlocked
  body := fun q s =>
    let t := q.arg 20 1
    let l := q.arg 22 6
    match q.firstBad [(20, 1), (22, 6)] [(20, t > 15), (22, l % 128 != 0 || l ≥ s.stripes * 4096)] with
    | some b => badAt b
    | none =>
      if q.room < 161 then noRoom
      else if diagDenied s t l then denied
      else .done s [] (storedSymbols s t l ++ [Config.diagCode (diagOutcome s t l)] ++ (List.range 16).flatMap (fun i => natLe (dieOf s l i) 1))

/-- STACK_DIAG_READ. -/
def execStackDiagRead (m : Fin 1029) (s : State) : Host.Outcome State Fault Refusal := serve m cmdStackDiagRead s

/-! ### Accesses -/

/-- Acts on the outcome of decoding a line (09 R219 to R227). -/
def decodeAct (s : State) (acc : Access) (t l : Nat) : State :=
  match decodeLine s t l with
  | .clean => s
  | .corrected => lineCorrected s t l
  | .beyond =>
    let s := countUe s t
    if (lineErr s t l).mark then mediaFailed s t l
    else
      let r := lineSources s acc t l
      match reconstructLine s t l with
      | some _ => queueRepair (lineReconstructed r t l) t l
      | none => mediaFailed r t l

/-- A line's errors as a stack shows them; positions outside the codeword and zero patterns are none. -/
def setErrs (s : State) (t l : Nat) (errs : List (Nat × Byte)) : State :=
  let e := errs.filter (fun x => x.1 < 144 && x.2 != 0)
  let old := lineErr s t l
  if e.isEmpty && !old.mark then { s with lines := tdel s.lines (phys t l) }
  else { s with lines := tput s.lines (phys t l) { old with errs := e } }

/-- Command-address parity errors (09 R227). -/
def countCa (s : State) (t : Nat) : State :=
  let s := s.updStack t (fun x => { x with caErrs := bucketAdd x.caErrs 0 s.now (secNs 1) 1 })
  if bucketSum (s.stack t).caErrs 0 s.now (secNs 1) 1 > s.policy.caParityLimit then stackCondition s t 3 else s

/-- What a stack reports with a line: failed dies, parity errors, the line's errors (09 R219, R226, R227). -/
def observe (s : State) (t l : Nat) (o : LineObs) : State :=
  let s := reportSlices (setErrs s t l o.errs) t l o.uncorrected
  let s := markDies s t o.diesFailed
  if o.caParity then countCa s t else s

/-- A line address of a stack that serves and whose controller runs. -/
def lineServed (s : State) (t l : Nat) : Bool := l % 128 == 0 && l < s.stripes * 4096 && controllerRuns s t

/-- STACK_ACCESS_COMPLETE (09 R222). -/
def execStackAccessComplete (t : Nat) (st : Fin 16) (line : Nat) (obs : LineObs) (s : State) : Host.Outcome State Fault Refusal :=
  ticking t s (fun s => lineServed s st line) (fun s => decodeAct (observe (touchRow (repairFirst s demand st line) st line demand) st line obs) demand st line)

/-- MODE_REGISTER_READ_TIMEOUT (09 R227). -/
def execModeRegisterReadTimeout (t : Nat) (st : Fin 16) (s : State) : Host.Outcome State Fault Refusal :=
  ticking t s (fun s => (s.stack st).inService && (s.stack st).clocked) (fun s => stackCondition s st 3)

/-- STACK_RAIL_OUT_OF_TARGET (09 R227): the fold's four stacks, in ascending order. -/
def execStackRailOutOfTarget (t : Nat) (fold : Fin 4) (s : State) : Host.Outcome State Fault Refusal :=
  timed t s (·.clocked) (fun s => foldKeys (rangeFrom (4 * fold) 4) s (fun s k => if (s.stack k).inService && (s.stack k).clocked then stackCondition s k 3 else s))

/-- A spare unit that holds no rebuilt data (09 R225). -/
def emptySpare (s : State) (t l : Nat) : Bool :=
  match contentOf t l with
  | .spare st => s.layout.f.isNone || !(st < s.layout.w)
  | _ => false

/-- The patrol moves to its next line; at the end a pass is complete (09 R225). -/
def scrubAdvance (s : State) (x : Stack) : Stack :=
  let x := { x with scrubStart := if x.scrubAddr = 0 then some s.now else x.scrubStart }
  if x.scrubAddr + 128 ≥ s.stripes * 4096 then { x with scrubAddr := 0, scrubDone := some s.now, scrubLatched := x.scrubCount, scrubCount := {} }
  else { x with scrubAddr := x.scrubAddr + 128 }

/-- The patrol may read its next line: a pass begins no sooner than SCRUB_PERIOD after the one before it began (09 R225; within a
pass the pace is open, log entry 111). -/
def scrubDue (s : State) (x : Stack) : Bool :=
  s.policy.scrubPeriod != 0 && (x.scrubAddr != 0 || x.scrubStart.all (fun u => u + secNs (3600 * s.policy.scrubPeriod) ≤ s.now))

/-- A pass's counts after a line, by the outcome that reading it gave (09 R222, R225). -/
def ScrubCounts.after (c : ScrubCounts) (found : Decoded) (lost : Bool) : ScrubCounts :=
  match found with
  | .clean => c
  | .corrected => { c with corrected := c.corrected + 1 }
  | .beyond => if lost then { c with lost := c.lost + 1 } else { c with reconstructed := c.reconstructed + 1 }

/-- PATROL_SCRUB_READ (09 R225). -/
def execPatrolScrubRead (t : Nat) (st : Fin 16) (obs : LineObs) (s : State) : Host.Outcome State Fault Refusal :=
  ticking t s (fun s => controllerRuns s st && scrubDue s (s.stack st)) (fun s =>
    let l := (s.stack st).scrubAddr
    let s := observe (touchRow (repairFirst s background st l) st l background) st l obs
    let found := decodeLine s st l
    let lost := (lineErr s st l).mark || (reconstructLine s st l).isNone
    let s := if found == .beyond && emptySpare s st l then storeLine (countUe s st) st l (List.replicate 128 0) else decodeAct s background st l
    s.updStack st (fun x => scrubAdvance s { x with scrubCount := x.scrubCount.after found lost }))

/-- REPAIR_WRITE (09 R223). -/
def execRepairWrite (t : Nat) (st : Fin 16) (s : State) : Host.Outcome State Fault Refusal :=
  ticking t s (fun s => controllerRuns s st && !(s.stack st).repairs.isEmpty) (fun s =>
    match (s.stack st).repairs with
    | [] => s
    | l :: r => repairLine (s.updStack st (fun x => { x with repairs := r })) background st l)

/-- Closes a row on one PC (09 R215). -/
def closeRowOn (x : Stack) (key pcInGroup : Nat) : Stack :=
  match tget? x.rows key with
  | some r =>
    let pcs := r.pcs &&& ~~~(BitVec.ofNat 16 (2 ^ pcInGroup))
    { x with rows := if pcs = 0 then tdel x.rows key else tput x.rows key { r with pcs := pcs } }
  | none => x

/-- IDLE_CLOSE_EXPIRY (09 R215). -/
def execIdleCloseExpiry (t : Nat) (st : Fin 16) (pc : Fin 64) (bank : Fin 64) (s : State) : Host.Outcome State Fault Refusal :=
  let key : Nat := pc.val / 16 * 64 + bank.val
  ticking t s (fun s => match tget? (s.stack st).rows key with
      | some r => (s.stack st).clocked && r.last + mclkNs s st s.dev.idleClose ≤ s.now
      | none => false)
    (fun s => s.updStack st (closeRowOn · key (pc.val % 16)))

end Sys2Proof.Machine
end

