-- ==== Sys2Proof/Machine/Segments.lean ====
section
/-!
DEFINITION. Segment commands (03 R71 to R74).
-/

namespace Sys2Proof.Machine

open Sys2Proof

/-- The tenant's context of a request; 0 where a role issued it. -/
def Req.tenant (q : Req) : Nat := match q.party with | .tenant c => c | _ => 0

/-- The staged change of a segment slot, where one exists: what the slot will hold. -/
def stagedSegment (s : State) (c slot : Nat) : Option (Option Segment) :=
  s.staged.findSome? (fun x => match x.change with
    | .segment c' slot' seg => if c' == c && slot' == slot then some seg else none
    | _ => none)

/-- What a slot holds once every staged change has committed (03 R72). -/
def segmentAfter (s : State) (c slot : Nat) : Option Segment :=
  match stagedSegment s c slot with
  | some x => x
  | none => tget? (s.ctx c).segs slot

/-- The other slots' segments as they will stand. -/
def otherSegments (s : State) (c slot : Nat) : List Segment :=
  ((List.range 8).filter (· != slot)).filterMap (segmentAfter s c)

/-- An extent is the context's: GRANTED, or REVOKING, which stays GRANTED in effect (15 R351). -/
def extentOf (s : State) (c e : Nat) : Bool := extentHolder s e == some c

/-- The entries of a SEGMENT_SET (03 R72). -/
def segEntries (x : Bytes) (n : Nat) : List SegEntry :=
  (List.range n).map (fun j => { extent := field x (4 * j) 2, gen := BitVec.ofNat 8 (field x (4 * j + 2) 1) })

/-- Check 1 of 03 R72 on the entries: an extent out of range, or a reserved byte. -/
def entryRangeFault (s : State) (x : Bytes) (n : Nat) : Option (Nat × Nat) :=
  (List.range n).findSome? (fun j =>
    if field x (4 * j) 2 ≥ s.tenantExtents then some (4 * j, j) else if field x (4 * j + 3) 1 != 0 then some (4 * j + 3, j) else none)

/-- Check 3 of 03 R72 on the entries: an extent twice in the context, or a generation that is not current. -/
def entryFault (s : State) (others : List Segment) : List SegEntry → Nat → List Nat → Option (Nat × Nat)
  | [], _, _ => none
  | x :: r, j, seen =>
    if seen.contains x.extent || others.any (fun g => g.list.any (fun y => !y.void && y.extent == x.extent)) then some (4 * j, j)
    else if x.gen != (s.extent x.extent).gen then some (4 * j + 2, j)
    else entryFault s others r (j + 1) (x.extent :: seen)

/-- Two segments overlap. -/
def segOverlap (base n : Nat) (g : Segment) : Bool := overlaps base (base + n * 2 ^ 30) g.base (g.base + g.list.length * 2 ^ 30)

/-- An agent is registered on a segment slot: by its mask, a paddock's line cache on every coherent segment (14 R326, R327). -/
def agentOn (s : State) (c slot : Nat) : Bool :=
  s.agents.any (fun a => a.2.ctx == c && (if a.1 < 64 then a.2.mask.getLsbD slot else (tget? (s.ctx c).segs slot).any (·.coherent)))

/-- The segment slot as what a command keeps BUSY (03 R73). -/
def slotLock (q : Req) : Option (Nat × Nat) := some (0x0B00, q.tenant * 8 + q.arg 20 1)

/-- An entry names an extent of the context under the generation that it had before its fence: its generation is judged, and not whose the
extent is (15 R355). -/
def staleEntry (s : State) (c : Nat) (e : SegEntry) : Bool :=
  let x := s.extent e.extent
  (x.st == .fenced || x.st == .clearing) && x.owner == c && e.gen != x.gen

/-- SEGMENT_SET (03 R72, R73). -/
def cmdSegmentSet : Cmd where
  op := 0x0301
  issuers := tenantOnly
  obj := fun q => (0x0B, q.arg 20 1)
  lock := slotLock
  body := fun q s =>
    let c := q.tenant
    let slot := q.arg 20 1
    let flags := q.arg 21 1
    let n := q.arg 22 2
    let base := q.arg 24 8
    match q.firstBad [(20, 12)] [(20, slot > 7), (21, flags ≥ 64 || (bit flags 2 && !bit flags 1)), (22, !(1 ≤ n && n ≤ 256))
        , (24, base % 2 ^ 30 != 0 || base ≥ 2 ^ 48 || base + n * 2 ^ 30 > 2 ^ 48)] with
    | some b => badAt b
    | none =>
      if q.xargLen != 4 * n then badSlot 6 else
      match entryRangeFault s q.xarg n with
      | some (b, j) => badX b j
      | none =>
        let es := segEntries q.xarg n
        if es.any (fun e => !extentOf s c e.extent && !staleEntry s c e) then denied else
        let others := otherSegments s c slot
        if others.any (segOverlap base n) then badAt 24 else
        match entryFault s others es 0 [] with
        | some (b, j) => badX b j
        | none =>
          let was := match tget? (s.ctx c).segs slot with | some g => g.coherent | none => false
          if was != bit flags 3 && agentOn s c slot then busy
          else .pend (stage s (.segment c slot (some { flags := BitVec.ofNat 8 flags, base := base, list := es })) (some q.owes)) []

/-- SEGMENT_SET. -/
def execSegmentSet (m : Fin 1029) (s : State) : Host.Outcome State Fault Refusal := serve m cmdSegmentSet s

/-- SEGMENT_CLEAR (03 R71, R73). -/
def cmdSegmentClear : Cmd where
  op := 0x0302
  issuers := tenantOnly
  obj := fun q => (0x0B, q.arg 20 1)
  lock := slotLock
  body := fun q s =>
    let c := q.tenant
    let slot := q.arg 20 1
    match q.firstBad [(20, 1)] [(20, slot > 7)] with
    | some b => badAt b
    | none => match tget? (s.ctx c).segs slot with
      | none => if (stagedSegment s c slot).isSome then busy else badAt 20
      | some g =>
        if g.coherent && agentOn s c slot then busy
        else .pend (stage s (.segment c slot none) (some q.owes)) []

/-- SEGMENT_CLEAR. -/
def execSegmentClear (m : Fin 1029) (s : State) : Host.Outcome State Fault Refusal := serve m cmdSegmentClear s

/-- An entry as SEGMENT_QUERY returns it. -/
def SegEntry.bytes (x : SegEntry) : Bytes := natLe x.extent 2 ++ natLe x.gen.toNat 1 ++ natLe 0 1

/-- SEGMENT_QUERY (03 R71). -/
def cmdSegmentQuery : Cmd where
  op := 0x0303
  issuers := tenantOnly
  blocked := neverBlocked
  query := true
  body := fun q s =>
    let c := q.tenant
    let slot := q.arg 20 1
    match q.firstBad [(20, 1)] [(20, slot > 7)] with
    | some b => badAt b
    | none =>
      let staged := b2n (stagedSegment s c slot).isSome 0
      match tget? (s.ctx c).segs slot with
      | none => .done s (natLe 0 12 ++ natLe staged 1) []
      | some g => .done s (natLe 1 1 ++ natLe g.flags.toNat 1 ++ natLe g.list.length 2 ++ natLe g.base 8 ++ natLe staged 1)
          ((g.list.take (q.room / 4)).flatMap (·.bytes))

/-- SEGMENT_QUERY. -/
def execSegmentQuery (m : Fin 1029) (s : State) : Host.Outcome State Fault Refusal := serve m cmdSegmentQuery s

/-- A segment commits: an entry whose extent has left the context is void from the start (03 R74; 15 R355). -/
def commitSegment (s : State) (c slot : Nat) (seg : Option Segment) : State :=
  s.updCtx c (fun x => { x with lostOwned := tdel x.lostOwned slot, segs := match seg with
    | none => tdel x.segs slot
    | some g => tput x.segs slot { g with list := g.list.map (fun e => { e with void := e.void || !extentOf s c e.extent || e.gen != (s.extent e.extent).gen }) } })

end Sys2Proof.Machine
end

