-- ==== Sys2Proof/Machine/Traffic.lean ====
section
/-!
DEFINITION. Traffic control: meters, shapers, gates, the egress order, PFC received, and the commands of 13 R323.
-/

namespace Sys2Proof.Machine

open Sys2Proof

/-! ### Meters (13 R310 to R314) -/

/-- A colour. -/
inductive Colour where
  | green | yellow | red
deriving DecidableEq, Repr

/-- A colour's number; the worse of two is the larger. -/
def Colour.code : Colour → Nat
  | .green => 0 | .yellow => 1 | .red => 2

/-- The colour of a number. -/
def colourOf : Nat → Colour
  | 0 => .green
  | 1 => .yellow
  | _ => .red

/-- The worse of two colours. -/
def Colour.worse (a b : Colour) : Colour := if a.code < b.code then b else a

/-- Tokens of a byte: an FCLK of 0.625 ns adds 5 tokens for each MB/s (01 R22; 13 R312). -/
def byteTokens : Nat := 8000

/-- The bucket's floor, −2^31 bytes. -/
def bucketFloor : Int := -(2 ^ 31 * (byteTokens : Int))

/-- A meter's buckets as the refills at every FCLK up to an uptime leave them (13 R312; RFC 2697, RFC 2698). -/
def Meter.refill (m : Meter) (now : Nat) : Meter :=
  let n := fclks now - m.refilled
  let cbs : Int := m.cbs * byteTokens
  let ebs : Int := m.ebs * byteTokens
  let total : Int := m.committed + m.cir * 5 * n
  if m.twoRate then { m with committed := min cbs total, excess := min ebs (m.excess + m.eir * 5 * n), refilled := fclks now }
  else { m with committed := min cbs total, excess := if total > cbs then min ebs (m.excess + (total - cbs)) else m.excess, refilled := fclks now }

/-- The size against which a bucket is tested (13 R312). -/
def Meter.test (b bucket : Nat) : Int := (min b bucket : Nat) * byteTokens

/-- The colour that a refilled meter gives a request of `b` bytes of an arriving colour, by RFC 2697 or RFC 2698 (13 R312,
R313). -/
def Meter.judge (m : Meter) (b : Nat) (arriving : Colour) : Colour :=
  let c := if m.aware then arriving else .green
  let fitsC := m.committed ≥ Meter.test b m.cbs
  if m.twoRate then
    if c = .red || m.excess < Meter.test b m.ebs then .red
    else if c = .yellow || !fitsC then .yellow else .green
  else if c = .green && fitsC then .green
  else if c != .red && m.excess ≥ b * byteTokens then .yellow
  else .red

/-- A meter after a request of `b` bytes that it judged green or yellow. -/
def Meter.take (m : Meter) (b : Nat) (c : Colour) : Meter :=
  let less (x : Int) : Int := max bucketFloor (x - b * byteTokens)
  match c, m.twoRate with
  | .green, false => { m with committed := less m.committed }
  | .green, true => { m with committed := less m.committed, excess := less m.excess }
  | .yellow, _ => { m with excess := less m.excess }
  | .red, _ => m

/-- A meter counts its colour (13 R323). -/
def Meter.count (m : Meter) (c : Colour) : Meter :=
  match c with
  | .green => { m with green := m.green + 1 }
  | .yellow => { m with yellow := m.yellow + 1 }
  | .red => { m with red := m.red + 1 }

/-- The key of a meter: its context or endpoint ID, and its direction. -/
def meterKey (id : Nat) (isWrite : Bool) : Nat := id * 2 + (if isWrite then 1 else 0)

/-- A meter, refilled, where it is enabled. -/
def meterAt (s : State) (tab : Tab Meter) (k : Nat) : Option Meter := ((tget? tab k).filter (·.enabled)).map (·.refill s.now)

/-- BUCKET of LOAD (12 R294): the committed tokens of the most drained meter that governed a request, in sixteenths. -/
def bucketFill (s : State) (src : Option Nat) (ctx : Option Nat) (isWrite : Bool) : Nat :=
  let fill (m : Meter) : Nat := min 15 ((max 0 m.committed).toNat * 16 / (max 1 m.cbs * byteTokens))
  let ms := [src.bind (fun i => meterAt s s.epMeters (meterKey i isWrite)), ctx.bind (fun i => meterAt s s.meters (meterKey i isWrite))]
  (ms.filterMap (·.map fill)).foldl min 15

/-- A meter with new settings: its contents are kept and capped at the new sizes, and its counts kept (13 R321). -/
def Meter.resize (o m : Meter) (now : Nat) : Meter :=
  let cap (x : Int) (b : Nat) : Int := min x (b * byteTokens)
  { m with committed := cap o.committed m.cbs, excess := cap o.excess m.ebs, refilled := fclks now, green := o.green, yellow := o.yellow, red := o.red }

/-- A METER_SET commits (13 R321). A meter that has never been set starts full, as RFC 2697 and RFC 2698 begin; a disabled one takes no
refills and keeps its contents. An endpoint meter disabled in both directions frees its slot (13 R323). -/
def commitMeter (s : State) (endpoint : Bool) (id : Nat) (isWrite : Bool) (m : Meter) : State :=
  let tab := if endpoint then s.epMeters else s.meters
  let k := meterKey id isWrite
  let m' := match tget? tab k with
    | some o => (if o.enabled then o.refill s.now else o).resize m s.now
    | none => { m with committed := m.cbs * byteTokens, excess := m.ebs * byteTokens, refilled := fclks s.now }
  let tab := tput tab k m'
  let off (w : Bool) : Bool := !(tget? tab (meterKey id w)).any (·.enabled)
  let tab := if endpoint && off false && off true then tdel (tdel tab (meterKey id false)) (meterKey id true) else tab
  if endpoint then { s with epMeters := tab } else { s with meters := tab }

/-- The outcome of the meters: the colour, the red action THROTTLE, and the state. -/
structure Metered where
  colour : Colour
  throttle : Bool
  s : State

/-- Meter changes whose boundary has come commit before a request at its instant is judged (13 R321, R322). -/
def dueMeters (s : State) : State :=
  s.staged.foldl (fun s x => match x.change with
    | .meter endpoint id isWrite m => if x.at_ ≤ s.ct && boundaryFrom s x.at_ ≤ s.ct then commitMeter s endpoint id isWrite m else s
    | _ => s) s

/-- Judges a request: endpoint meter first, context meter second, the worse colour; red takes no tokens (13 R314). -/
def meterRequest (s : State) (src : Option Nat) (ctx : Option Nat) (dscp : BitVec 6) (isWrite : Bool) (bytes : Nat) : Metered :=
  let arriving := colourOf (tgetD s.classMap.colours 0 dscp.toNat)
  let s := dueMeters s
  let ek := src.map (meterKey · isWrite)
  let ck := ctx.map (meterKey · isWrite)
  let e := ek.bind (meterAt s s.epMeters)
  let c := ck.bind (meterAt s s.meters)
  let ec := (e.map (·.judge bytes arriving)).getD .green
  let cc := (c.map (·.judge bytes arriving)).getD .green
  let all := ec.worse cc
  let put (tab : Tab Meter) (k : Option Nat) (m : Option Meter) (own : Colour) : Tab Meter :=
    match k, m with
    | some k, some m => tput tab k ((if all = .red then m else m.take bytes own).count own)
    | _, _ => tab
  let s := { s with epMeters := put s.epMeters ek e ec, meters := put s.meters ck c cc }
  let s := match ctx with | some x => bump s .context x (8 + all.code) 1 | none => s
  { colour := all, throttle := if ec = .red then e.any (·.throttle) else c.any (·.throttle), s := s }

/-- Slots of endpoint meters. -/
def endpointSlots : Nat := 4096

/-- The endpoint IDs that hold a slot, staged ones included. -/
def slotIds (s : State) : List Nat :=
  let staged := s.staged.filterMap (fun x => match x.change with | .meter true id _ m => if m.enabled then some id else none | _ => none)
  ((tkeys s.epMeters (fun _ _ => true)).map (· / 2) ++ staged).dedup

/-- The meter that METER_SET describes. -/
def meterOf (q : Req) : Meter :=
  let f := q.arg 25 1
  { enabled := bit f 0, twoRate := bit f 1, aware := bit f 2, throttle := bit f 3, cir := q.arg 28 4, cbs := q.arg 32 4, eir := q.arg 36 4, ebs := q.arg 40 4 }

/-- The ranges of 13 R323 on a meter's fields. -/
def meterFaults (q : Req) : List (Nat × Bool) :=
  let m := meterOf q
  let size (b : Nat) : Bool := !(16384 ≤ b && b ≤ 2 ^ 31)
  [(20, q.arg 20 1 > 1), (21, q.arg 20 1 = 0 && q.arg 21 3 > 1023), (24, q.arg 24 1 > 1), (25, q.arg 25 1 > 15), (28, m.cir > 1600000), (32, size m.cbs)
    , (36, m.eir > 1600000 || (m.twoRate && m.eir < m.cir)), (40, size m.ebs)]

/-- METER_SET (13 R321, R323). -/
def cmdMeterSet : Cmd where
  op := 0x0601
  issuers := operatorOnly
  changes := always
  lock := fun q => some (0x1601, q.arg 20 4 * 2 + q.arg 24 1)
  body := fun q s =>
    match q.firstBad [(20, 6), (28, 16)] (meterFaults q) with
    | some b => badAt b
    | none =>
      let ep := q.arg 20 1 = 1
      let id := q.arg 21 3
      let m := meterOf q
      if ep && m.enabled && (slotIds s).length ≥ endpointSlots && !(slotIds s).contains id then noResource
      else .pend (stage s (.meter ep id (q.arg 24 1 = 1) m) (some q.owes)) []

/-- METER_SET. -/
def execMeterSet (m : Fin 1029) (s : State) : Host.Outcome State Fault Refusal := serve m cmdMeterSet s

/-- METER_STATUS (13 R323). -/
def cmdMeterStatus : Cmd where
  op := 0x0602
  issuers := operatorTenant
  blocked := neverBlocked
  query := true
  body := fun q s =>
    let ep := q.arg 20 1 = 1
    let id := q.arg 21 3
    match q.firstBad [(20, 5)] [(20, q.arg 20 1 > 1), (21, q.arg 20 1 = 0 && id > 1023), (24, q.arg 24 1 > 1)] with
    | some b => badAt b
    | none =>
      if q.ctx?.any (fun c => ep || c != id) then denied else
      let o := tgetD (if ep then s.epMeters else s.meters) {} (meterKey id (q.arg 24 1 = 1))
      let m := if o.enabled then o.refill s.now else o
      .done s (natLe (unsigned (m.committed / byteTokens) 32) 4 ++ natLe (unsigned (m.excess / byteTokens) 32) 4 ++ natLe m.green 8 ++ natLe m.yellow 8 ++ natLe m.red 8) []

/-- METER_STATUS. -/
def execMeterStatus (m : Fin 1029) (s : State) : Host.Outcome State Fault Refusal := serve m cmdMeterStatus s

/-! ### Shapers (13 R315, R321) -/

/-- The default quantum of a class (13 R306). -/
def defaultQuantum (c : Nat) : Nat := if c = 7 then 2048 else 9216

/-- The quantum of a class. -/
def PortClass.round (x : PortClass) (c : Nat) : Nat := if x.quantum = 0 then defaultQuantum c else x.quantum

/-- A SHAPER_SET commits at a boundary: the quantum at once, the rest at the first refill at or after it (13 R321). -/
def commitShaper (s : State) (q c at_ : Nat) (x : ShaperSet) : State :=
  s.updPort q (·.updCls c (fun k => { k with next := some (at_, x), quantum := x.quantum }))

/-- `n` refills of a class's shaper at its present RATE and BURST. -/
def PortClass.add (k : PortClass) (n : Nat) : PortClass := if k.shaped && n ≥ 1 then { k with tokens := min (k.tokens + k.rate * n) (k.burst * 8) } else k

/-- The refills of a class's shaper at whole multiples of 1,000 ns of cluster time after number `m` and up to number `n`: those before
the boundary of a committed change with the old settings, the others with the new ones, under whose BURST the bucket is capped (13
R315, R321, R322). -/
def PortClass.refill (k : PortClass) (m n : Nat) : PortClass :=
  match k.next with
  | some (at_, x) =>
    let i := ceilDiv at_ 1000
    if i ≤ n then
      let k := k.add (i - 1 - m)
      PortClass.add { k with shaped := x.shaped, overhead := x.overhead, rate := x.rate, burst := x.burst, ecnThresh := x.ecnThresh, next := none
                             tokens := min k.tokens (x.burst * 8) } (n - max m (i - 1))
    else k.add (n - m)
  | none => k.add (n - m)

/-- Shaper changes whose boundary has come commit before a refill at its instant (13 R322). -/
def dueShapers (s : State) : State :=
  s.staged.foldl (fun s x => match x.change with
    | .shaper q c v => if x.at_ ≤ s.ct && boundaryFrom s x.at_ ≤ s.ct then commitShaper s q c (boundaryFrom s x.at_) v else s
    | _ => s) s

/-- SHAPER_REFILL (13 R315): at each whole 1,000 ns of cluster time, each shaper adds RATE ÷ 8 bytes. -/
def execShaperRefill (t : Nat) (s : State) : Host.Outcome State Fault Refusal :=
  timed t s (fun s => s.clocked && s.dev.lastRefill / 1000 < s.ct / 1000)
    (fun s =>
      let s := dueShapers s
      { s with ports := tmap s.ports (fun _ p => { p with classes := tmap p.classes (fun _ k => k.refill (s.dev.lastRefill / 1000) (s.ct / 1000)) })
               dev := { s.dev with lastRefill := s.ct } })

/-- SHAPER_SET (13 R315, R316, R323). -/
def cmdShaperSet : Cmd where
  op := 0x0603
  issuers := installerOnly
  changes := always
  lock := fun q => some (0x1603, q.arg 20 2)
  body := fun q s =>
    let c := q.arg 21 1
    let rate := q.arg 24 4
    let burst := q.arg 28 4
    let ecn := q.arg 32 4
    match q.firstBad [(20, 20)] [(20, q.arg 20 1 > 63), (21, c > 7), (22, q.arg 22 1 > 63), (23, q.arg 23 1 > 1), (24, !(1 ≤ rate && rate ≤ 800000))
        , (28, !(1024 ≤ burst && burst ≤ 16777216)), (32, !(4096 ≤ ecn && ecn ≤ 1048576)), (36, c != 0 && c != 1 && c != 7 && q.arg 36 4 != 0)] with
    | some b => badAt b
    | none => .pend (stage s (.shaper (q.arg 20 1) c { shaped := bit (q.arg 23 1) 0, overhead := q.arg 22 1, rate := rate, burst := burst, ecnThresh := ecn, quantum := q.arg 36 4 }) (some q.owes)) []

/-- SHAPER_SET. -/
def execShaperSet (m : Fin 1029) (s : State) : Host.Outcome State Fault Refusal := serve m cmdShaperSet s

/-! ### Gate lists (13 R318 to R320) -/

/-- The entries of a gate list's bytes. -/
def gateEntries (b : Bytes) (n : Nat) : List (Nat × BitVec 8) := (List.range n).map (fun i => (field b (8 + 8 * i) 4, BitVec.ofNat 8 (field b (12 + 8 * i) 1)))

/-- The first faulty byte of a gate list that covers the given classes (13 R319), if one is. -/
def gateFault (b : Bytes) (covered : BitVec 8) : Option Nat :=
  let cycle := field b 0 4
  let n := field b 4 2
  let es := gateEntries b n
  let closed (c : Nat) : Bool := covered.getLsbD c && (if c = 6 then es.any (fun e => !e.2.getLsbD 6) else !es.any (fun e => e.2.getLsbD c))
  if !(1000 ≤ cycle && cycle ≤ 1000000000) then some 0
  else if !(1 ≤ n && n ≤ 256) then some 4
  else if field b 6 2 != 0 then some 6
  else match (List.range n).find? (fun i => field b (8 + 8 * i) 4 < 100) with
    | some i => some (8 + 8 * i)
    | none => match (List.range n).find? (fun i => !zeroAt b (13 + 8 * i) (15 + 8 * i)) with
      | some i => some (13 + 8 * i)
      | none =>
        if es.foldl (fun a e => a + e.1) 0 != cycle then some 0
        else if (List.range 8).any closed then some 12
        else none

/-- The gate list that bytes spell. -/
def gateList (b : Bytes) (covered : BitVec 8) (base : Nat) (sched : Option Nat := none) : GateList :=
  { covered := covered, base := base, cycle := field b 0 4, entries := gateEntries b (field b 4 2), sched := sched }

/-- The entry that covers a position of the cycle, with the time left in it. -/
def entryAt : List (Nat × BitVec 8) → Nat → Nat → Nat × Nat
  | [], _, i => (i, 0)
  | e :: r, pos, i => if pos < e.1 then (i, e.1 - pos) else entryAt r (pos - e.1) (i + 1)

/-- The position in the cycle at cluster time `ct` (13 R320). -/
def GateList.pos (g : GateList) (ct : Nat) : Nat := (((ct : Int) - g.base) % (max 1 g.cycle : Nat)).toNat

/-- A gate list with its entry as cluster time gives it. -/
def GateList.sync (g : GateList) (ct : Nat) : GateList := { g with entry := (entryAt g.entries (g.pos ct) 0).1 }

/-- The gate lists of a port stand where cluster time puts them. -/
def syncGates (s : State) (q : Nat) : State :=
  s.updPort q (fun p => { p with gates := p.gates.map (·.sync s.ct), schedGates := p.schedGates.map (·.sync s.ct) })

/-- The list that governs a class of a port: a RUNNING schedule's, else the installer's (13 R318, R323). -/
def Port.gateOf (p : Port) (c : Nat) : Option GateList :=
  match p.schedGates.filter (fun g => g.covered.getLsbD c) with
  | some g => some g
  | none => p.gates.filter (fun g => g.covered.getLsbD c)

/-- A class's gate is open. -/
def Port.gateOpen (p : Port) (c : Nat) : Bool :=
  match p.gateOf c with
  | some g => ((g.entries[g.entry]?).map (fun e => e.2.getLsbD c)).getD true
  | none => true

/-- The durations of the leading entries of a list in which a class is open. -/
def openRun (c : Nat) : List (Nat × BitVec 8) → Nat
  | [] => 0
  | e :: r => if e.2.getLsbD c then e.1 + openRun c r else 0

/-- A class is open in every entry. -/
def GateList.alwaysOpen (g : GateList) (c : Nat) : Bool := g.entries.all (fun e => e.2.getLsbD c)

/-- The time left in the current window of a class; none where it never closes. -/
def GateList.windowLeft (g : GateList) (c ct : Nat) : Option Nat :=
  if g.alwaysOpen c then none else
  let (i, left) := entryAt g.entries (g.pos ct) 0
  if ((g.entries[i]?).map (fun e => e.2.getLsbD c)).getD false then some (left + openRun c (g.entries.drop (i + 1) ++ g.entries.take i)) else some 0

/-- The longest window of a class; none where it never closes. -/
def GateList.longest (g : GateList) (c : Nat) : Option Nat :=
  if g.alwaysOpen c then none
  else some ((List.range g.entries.length).foldl (fun m i => max m (openRun c (g.entries.drop i ++ g.entries.take i))) 0)

/-- A frame's wire time fits in a time, at a rate in bits per ns (13 R320). -/
def wireFits (len rate : Nat) : Option Nat → Bool
  | none => true
  | some left => (len + 20) * 8 ≤ left * rate

/-- GATE_ENTRY_BOUNDARY (13 R320): the list moves to the entry that cluster time gives. -/
def execGateEntryBoundary (t : Nat) (q : Fin 64) (ofSchedule : Bool) (s : State) : Host.Outcome State Fault Refusal :=
  timed t s (fun s => s.clocked && ((if ofSchedule then (s.port q).schedGates else (s.port q).gates).any (fun g => g.sync s.ct != g)))
    (fun s => s.updPort q (fun p => if ofSchedule then { p with schedGates := p.schedGates.map (·.sync s.ct) } else { p with gates := p.gates.map (·.sync s.ct) }))

/-- A GATE_SET commits, at the position that cluster time gives (13 R321). -/
def commitGates (s : State) (q : Nat) (g : Option GateList) : State := s.updPort q (fun p => { p with gates := g.map (·.sync s.ct) })

/-- GATE_SET (13 R319, R323). -/
def cmdGateSet : Cmd where
  op := 0x0604
  issuers := installerOnly
  changes := always
  lock := fun q => some (0x1604, q.arg 20 1)
  body := fun q s =>
    let covered := BitVec.ofNat 8 (q.arg 21 1)
    match q.firstBad [(20, 2), (24, 8)] [(20, q.arg 20 1 > 63)] with
    | some b => badAt b
    | none =>
      if covered = 0 then (if q.xargLen != 0 then badSlot 6 else .pend (stage s (.gate (q.arg 20 1) none) (some q.owes)) [])
      else if q.xargLen < 16 || q.xargLen != 8 + 8 * field q.xarg 4 2 then badSlot 6
      else match gateFault q.xarg covered with
        | some b => badX b
        | none => .pend (stage s (.gate (q.arg 20 1) (some (gateList q.xarg covered (q.arg 24 8)))) (some q.owes)) []

/-- GATE_SET. -/
def execGateSet (m : Fin 1029) (s : State) : Host.Outcome State Fault Refusal := serve m cmdGateSet s

/-! ### The class map (13 R313) -/

/-- The colour of a DSCP in a colour map of 16 bytes. -/
def mapColour (b : Bytes) (d : Nat) : Nat := field b (8 + d / 4) 1 / 4 ^ (d % 4) % 4

/-- CLASS_MAP_SET (13 R313, R323). -/
def cmdClassMapSet : Cmd where
  op := 0x0605
  issuers := installerOnly
  changes := always
  body := fun q s =>
    let b := q.xarg
    match q.firstBad [] [] with
    | some i => badAt i
    | none =>
      if q.xargLen != 24 then badSlot 6 else
      match (List.range 8).find? (fun c => field b c 1 > 63) with
      | some c => badX c
      | none => match (List.range 64).find? (fun d => mapColour b d = 3) with
        | some d => badX (8 + d / 4)
        | none =>
          let m : ClassMap := { dscp := (List.range 8).map (fun c => BitVec.ofNat 6 (field b c 1))
                                colours := ((List.range 64).filter (fun d => mapColour b d != 0)).map (fun d => (d, mapColour b d)) }
          .pend (stage s (.classMap m) (some q.owes)) []

/-- CLASS_MAP_SET. -/
def execClassMapSet (m : Fin 1029) (s : State) : Host.Outcome State Fault Refusal := serve m cmdClassMapSet s

/-- The DSCP of frames that the part originates in a class. -/
def dscpOf (s : State) (c : Nat) : BitVec 6 := s.classMap.dscp.getD c 0

/-! ### PFC received (13 R309) -/

/-- The ns that `quanta` of 512 bit times last at a port. -/
def quantaNs (s : State) (q quanta : Nat) : Nat := ceilDiv (quanta * 512) (portRate s q)

/-- A PFC frame pauses the classes TC1 to TC5 that it names, each for its quanta; one that names TC0, TC6 or TC7 is counted and
ignored (13 R309). -/
def takePfc (s : State) (q : Nat) (classes : BitVec 8) (quanta : List (BitVec 16)) : State :=
  let s := bump s .port q 9 1
  if classes &&& 0xC1 != 0 then tally s .pauseIgnored else
  foldRange 1 5 s (fun s c => if classes.getLsbD c then
      let n := (quanta.getD c 0).toNat
      s.updPort q (·.updCls c (fun x => { x with pausedUntil := if n = 0 then none else some (s.now + quantaNs s q n) })) else s)

/-- PFC_FRAME. -/
def execPfcFrame (q : Fin 64) (s : State) : Host.Outcome State Fault Refusal :=
  onFrame s q (fun f => match f.body with | .pfc _ _ => true | _ => false) (fun s x => match x.frame.body with | .pfc c n => takePfc s q c n | _ => s)

/-- PAUSE_FRAME: counted and ignored (11 R249). -/
def execPauseFrame (q : Fin 64) (s : State) : Host.Outcome State Fault Refusal := onFrame s q (fun f => f.body == .pause) (fun s _ => tally s .pauseIgnored)

/-- PFC_PAUSE_EXPIRY (13 R309). -/
def execPfcPauseExpiry (t : Nat) (q : Fin 64) (tc : Fin 8) (s : State) : Host.Outcome State Fault Refusal :=
  ticking t s (fun s => reached s ((s.port q).cls tc).pausedUntil) (fun s => s.updPort q (·.updCls tc (fun x => { x with pausedUntil := none })))

/-- PFC_XOFF_REPEAT: every half pause time while the class stays above XON (13 R307). -/
def execPfcXoffRepeat (t : Nat) (q : Fin 64) (tc : Fin 8) (s : State) : Host.Outcome State Fault Refusal :=
  ticking t s (fun s => (s.port q).running && ((s.port q).cls tc).xoff && ((s.port q).cls tc).occupied > xonAt s q && ((s.port q).cls tc).xoffAt + quantaNs s q 0xFFFF / 2 ≤ s.now)
    (fun s => sendPfc (s.updPort q (·.updCls tc (fun x => { x with xoffAt := s.now }))) q tc 0xFFFF)

/-! ### Egress (13 R315 to R317; 11 R262, R264) -/

/-- Bytes of the replay buffer that frames occupy: each length rounded up to 64 (11 R264). -/
def Port.keptBytes (p : Port) : Nat := p.kept.foldl (fun n k => n + roundUp k.frame.len 64) 0

/-- room(f), and fewer than 8,192 frames outstanding (11 R262 to R264). -/
def replayRoom (s : State) (q : Nat) (f : Frame) : Bool :=
  let p := s.port q
  p.link != .reliable || !sequenced f || (p.keptBytes + roundUp f.len 64 ≤ portShare s q && p.outstanding < 8192)

/-- The head of a class is held by its gate alone. -/
def gateHolds (s : State) (q c : Nat) (f : Frame) : Bool :=
  let p := s.port q
  !(p.gateOpen c && wireFits f.len (portRate s q) ((p.gateOf c).bind (·.windowLeft c s.ct)))

/-- A frame may leave as the head of a class (13 R317). -/
def mayLeave (s : State) (q c : Nat) (f : Frame) : Bool :=
  let x := (s.port q).cls c
  !gateHolds s q c f && (!x.shaped || x.tokens ≥ 0) && !(x.pausedUntil.any (fun u => s.now < u)) && replayRoom s q f

/-- The head of a class is eligible (13 R317). -/
def eligible (s : State) (q c : Nat) : Bool := ((s.port q).cls c).queue.head?.any (fun h => mayLeave s q c h.frame)

/-- Discards heads that are longer than every window of their class (13 R320). -/
def dropTooLong (s : State) (q c : Nat) : List Queued → State
  | [] => s
  | h :: r =>
    if wireFits h.frame.len (portRate s q) (((s.port q).gateOf c).bind (·.longest c)) then s else
    let s := s.updPort q (·.updCls c (fun x => { x with queue := r, overlongDiscards := x.overlongDiscards + 1, gateHeld := false }))
    let s := bump s .port q 11 1
    dropTooLong (releaseOrigin s h.origin h.frame) q c r

/-- Counts a head that its gate holds, once (18 R408 PORT 15). -/
def countHeld (s : State) (q c : Nat) : State :=
  let x := (s.port q).cls c
  match x.queue.head? with
  | some h => if gateHolds s q c h.frame && !x.gateHeld then bump (s.updPort q (·.updCls c (fun x => { x with gateHeld := true }))) .port q 15 1 else s
  | none => s

/-- A frame enters the replay buffer and takes its sequence number (11 R262 transmit). -/
def keep (s : State) (q : Nat) (f : Frame) : State :=
  s.updPort q (fun p =>
    { p with kept := p.kept ++ [{ seq := p.next, frame := f }], next := p.next + 1, rp := p.next + 1
             timer := if p.oldest == p.next then some (s.now + p.replayTimer) else p.timer
             progress := if p.oldest == p.next then some (s.now + p.lossTime) else p.progress })

/-- A frame as it leaves: marked CE where its queue holds ECN_THRESH bytes and the frame is ECT (13 R316); a tagged one carries
PCP equal to its class (13 R306). -/
def PortClass.mark (x : PortClass) (c : Nat) (f : Frame) : Frame :=
  let f := if f.vlan.isSome then { f with pcp := BitVec.ofNat 3 c } else f
  if f.ect && x.bytes ≥ x.ecnThresh then { f with ecn := 3 }.refresh f else f

/-- Sends one frame of a class: its queue loses it, the shaper pays, ECN marks it, and in RELIABLE a sequenced frame is
kept. -/
def sendQueued (s : State) (q c : Nat) (h : Queued) : State :=
  let p := s.port q
  let x := p.cls c
  let (s, f₀) := leave (s.updPort q (·.updCls c (fun x => { x with queue := x.queue.erase h }))) q c h
  let f := x.mark c f₀
  let marked := f.ce && !h.frame.ce
  let s := s.updPort q (·.updCls c (fun x =>
    { x with tokens := if x.shaped then x.tokens - 8 * (f.len + x.overhead) else x.tokens, sent := x.sent + 1
             ceMarks := if marked then x.ceMarks + 1 else x.ceMarks, gateHeld := false }))
  let s := if marked then bump s .port q 12 1 else s
  let s := bump s .port q (16 + c) f.len
  let s := if p.link = .reliable && sequenced f then emit (keep s q f) q (some { p.tag with seq := p.next, seqValid := true }) f else emit s q p.plainTag f
  releaseOrigin s h.origin h.frame

/-- The classes of the round robin, in its order. -/
def rrClass : Nat → Nat
  | 0 => 7
  | 1 => 1
  | _ => 0

/-- Deficit round robin over TC7, TC1, TC0 (13 R317): the port's deficits and pointer, and the class whose head is sent. -/
def drr (elig : Nat → Bool) (len : Nat → Nat) : Nat → Port → Port × Option Nat
  | 0, p => (p, [7, 1, 0].find? elig)
  | n + 1, p =>
    let c := rrClass p.drr
    if elig c && len c ≤ (p.cls c).deficit then (p.updCls c (fun x => { x with deficit := x.deficit - len c }), some c)
    else
      let p := if (p.cls c).queue.isEmpty then p.updCls c (fun x => { x with deficit := 0 }) else p
      let i := (p.drr + 1) % 3
      let d := rrClass i
      let p := { p with drr := i }
      drr elig len n (if elig d then p.updCls d (fun x => { x with deficit := x.deficit + x.round d }) else p)

/-- Length of the head of a class. -/
def headLen (s : State) (q c : Nat) : Nat := (((s.port q).cls c).queue.head?.map (·.frame.len)).getD 0

/-- Sends the head of a class. -/
def sendHead (s : State) (q c : Nat) : State :=
  match ((s.port q).cls c).queue.head? with
  | some h => sendQueued s q c h
  | none => s

/-- Items 3 and 4 of 13 R317. -/
def sendClass (s : State) (q : Nat) : State :=
  let s := foldRange 0 8 s (fun s c => countHeld (dropTooLong s q c ((s.port q).cls c).queue) q c)
  match [6, 5, 4, 3, 2].find? (eligible s q) with
  | some c => sendHead s q c
  | none =>
    if [7, 1, 0].any (eligible s q) then
      match drr (eligible s q) (headLen s q) 30000 (s.port q) with
      | (p, some c) => sendHead (s.updPort q (fun _ => p)) q c
      | (_, none) => s
    else s

/-- Sends the next frame of a replay (11 R262). -/
def sendReplay (s : State) (q : Nat) : State :=
  let p := s.port q
  let s' := s.updPort q (fun p => { p with rp := p.rp + 1 })
  match p.kept.find? (fun k => k.seq == p.rp) with
  | some k => emit s' q (some { p.tag with seq := p.rp, seqValid := true, replay := true }) k.frame
  | none => s'

/-- Sends a link control frame; an INIT sent counts toward RELIABLE (11 R257, R258). -/
def sendControl (s : State) (q : Nat) (x : LinkTag) (r : List LinkTag) : State :=
  let s := s.updPort q (fun p => { p with control := r, initSent := if x.init then p.initSent + 1 else p.initSent })
  tryReliable (emit s q (some { (s.port q).tag with nak := x.nak, init := x.init }) (controlFrame s q)) q

/-- The first LLDP frame of a port in NEGOTIATING, which holds every other frame, leaves before agreement as the head of its class does
(11 R255 to R257; 13 R317); with it the port's TLV has gone out. -/
def sendLldp (s : State) (q : Nat) : State :=
  if (s.port q).agrees then s else
  match ((s.port q).cls 7).queue.find? (fun h => isLldp h.frame) with
  | some h => if mayLeave s q 7 h.frame then (sendQueued s q 7 h).updPort q (·.hear (fun p => { p with tlvSent := p.relMode ≥ 1 })) else s
  | none => s

/-- The port sends the first item of 13 R317. -/
def frameBoundary (s : State) (q : Nat) : State :=
  let s := syncGates s q
  let p := s.port q
  match p.link with
  | .down | .training => s
  | .negotiating => match p.control with | x :: r => sendControl s q x r | [] => sendLldp s q
  | .up | .reliable =>
    if p.link = .reliable && p.rp != p.next then sendReplay s q
    else match p.control with
      | x :: r => sendControl s q x r
      | [] => sendClass s q

/-- TC_STATUS (13 R323). -/
def cmdTcStatus : Cmd where
  op := 0x0606
  issuers := operatorInstaller
  blocked := neverBlocked
  query := true
  body := fun q s =>
    match q.firstBad [(20, 2)] [(20, q.arg 20 1 > 63), (21, q.arg 21 1 > 7)] with
    | some b => badAt b
    | none =>
      let c := q.arg 21 1
      let p := (syncGates s (q.arg 20 1)).port (q.arg 20 1)
      let x := p.cls c
      .done s (natLe x.bytes 4 ++ natLe (b2n (x.pausedUntil.any (fun u => s.now < u)) 0) 1 ++ natLe (b2n (p.gateOpen c) 0) 1 ++ natLe 0 2
        ++ natLe (unsigned (x.tokens / 8) 32) 4 ++ natLe x.sent 8 ++ natLe x.ceMarks 4 ++ natLe x.limitDiscards 4 ++ natLe x.overlongDiscards 4) []

/-- TC_STATUS. -/
def execTcStatus (m : Fin 1029) (s : State) : Host.Outcome State Fault Refusal := serve m cmdTcStatus s

end Sys2Proof.Machine
end

