-- ==== Sys2Proof/Machine/Eruno.lean ====
section
/-!
DEFINITION. The Eruno transport: the header, routes, sealing, sending and segments, and the checks of a received request
(12 R272 to R285, R288, R289, R291, R293, R294, R297, R451).
-/

namespace Sys2Proof

open Machine

/-! ### The header (12 R274) -/

/-- A bit of FLAGS. -/
def Eruno.flag (e : Eruno) (i : Nat) : Bool := e.flags.getLsbD i
/-- RESPONSE. -/
def Eruno.isResponse (e : Eruno) : Bool := e.flag 0
/-- NO_RESPONSE. -/
def Eruno.noResponse (e : Eruno) : Bool := e.flag 6
/-- SEGMENTED. -/
def Eruno.segmented (e : Eruno) : Bool := e.flag 8
/-- The session index that a frame names. -/
def Eruno.index (e : Eruno) : Nat := e.session.toNat % 65536
/-- The generation that a frame names. -/
def Eruno.gen (e : Eruno) : BitVec 16 := BitVec.ofNat 16 (e.session.toNat / 65536)
/-- OPCODE as a number. -/
def Eruno.op (e : Eruno) : Nat := e.opcode.toNat
/-- Bits [hi:lo] of OPERAND. -/
def Eruno.arg (e : Eruno) (lo width : Nat) : Nat := e.operand.toNat / 2 ^ lo % 2 ^ width

/-- The 32 bytes of a header. -/
def Eruno.header (e : Eruno) : Bytes :=
  natLe (e.version.toNat + 16 * e.hops.toNat) 1 ++ natLe e.op 1 ++ natLe e.flags.toNat 2 ++ natLe e.dst.toNat 3 ++ natLe e.src.toNat 3
    ++ natLe e.session.toNat 4 ++ natLe e.seq.toNat 4 ++ natLe e.tag.toNat 2 ++ natLe e.status.toNat 2 ++ natLe e.load.toNat 1 ++ natLe e.subop.toNat 1
    ++ natLe e.operand.toNat 8

/-- The additional data of a private-class frame: the header with HOPS 0 (12 R291). -/
def Eruno.sealedHeader (e : Eruno) : Bytes := { e with hops := 0 }.header

/-- The bytes after the UDP header. -/
def Eruno.bytes (e : Eruno) : Bytes := e.header ++ e.payload ++ (if e.flag 3 then natLe e.icv.toNat 16 else [])

/-- The UDP checksum of a frame that carries an Eruno message: 0 over IPv4, by RFC 768 and RFC 8200 over IPv6 (12 R272). -/
def Frame.udpSumOf (f : Frame) (e : Eruno) : BitVec 16 :=
  if !f.ipv6 then 0 else
  let n := 8 + e.bytes.length
  let sum := onesSum (netWords (natLe f.ipSrc.toNat 16) ++ netWords (natLe f.ipDst.toNat 16) ++ [n / 65536, n % 65536, 17, f.udpSrc.toNat, f.udpPort.toNat, n] ++ netWords e.bytes)
  if sum = 65535 then 65535 else BitVec.ofNat 16 (65535 - sum)

/-- An Eruno frame with its checksums. -/
def Frame.withSums (f : Frame) (e : Eruno) : Frame := { f.withSum with udpSum := f.udpSumOf e }

/-- A forwarded Eruno frame that was `old`, with message `e₀`, and now carries `e`, with its checksums updated (12 R298). -/
def Frame.refreshSums (f old : Frame) (e e₀ : Eruno) : Frame :=
  let f := f.refresh old
  if !f.ipv6 then f else
  let n := 65535 - onesSum [65535 - old.udpSum.toNat, (old.udpSumOf e₀).toNat, 65535 - (f.udpSumOf e).toNat]
  { f with udpSum := if n = 0 then 65535 else BitVec.ofNat 16 n }

end Sys2Proof

namespace Sys2Proof.Machine

open Sys2Proof

/-- The nonce of a private-class frame (12 R291). -/
def gcmNonce (salt : BitVec 32) (e : Eruno) (segment : Nat) : Bytes :=
  natLe salt.toNat 4 ++ natLe e.seq.toNat 4 ++ natLe segment 2 ++ natLe (if e.isResponse then 1 else 0) 1 ++ natLe 0 1

/-- A phase 1 request or its response, which carry no ICV (12 R290). -/
def clearExchange (e : Eruno) : Bool := e.op == 0x39 && (e.subop == 1 || e.subop == 2)

/-- Seals a frame under the keys of its session, where it has any. -/
def sealFrame (k : Option SessKeys) (segment : Nat) (e : Eruno) : Eruno :=
  match k with
  | some k =>
    if clearExchange e then e else
    let e := { e with flags := e.flags ||| 8 }
    let (c, icv) := Config.gcmSeal k.keyOut (gcmNonce k.saltOut e segment) e.sealedHeader e.payload
    { e with payload := c, icv := icv }
  | none => e

/-- Opens a frame on its session: check 2 of 12 R281; none where the ICV fails. The segment index is that of the offset at
the sender's segment size (12 R275, R291). -/
def openFrame (x : Session) (segment : Nat) (e : Eruno) : Option Eruno :=
  if !x.priv || clearExchange e then some e else
  match x.keys with
  | some k => (Config.gcmOpen k.keyIn (gcmNonce k.saltIn e segment) e.sealedHeader e.payload e.icv).map (fun p => { e with payload := p })
  | none => none

/-! ### Routes (12 R295 to R297) -/

/-- Where a frame that the part originates goes. -/
structure Route where
  port : Nat
  nextHop : BitVec 48
  ipv6 : Bool
  vlan : Option (BitVec 12)
  ip : BitVec 128
  udpPort : BitVec 16

/-- The endpoint entry of an ID; one that the table lacks is taken as IPv4 without a VLAN tag, at an address that stays free
(log entry 38). -/
def endpointOf (s : State) (id : BitVec 24) : Endpoint :=
  tgetD s.endpoints { flags := 0, vlan := 0, udpPort := 0, ip := Config.unknownAddress id } id.toNat

/-- The route to an endpoint; none where its forwarding entry is missing or drops. -/
def routeOf (s : State) (dst : BitVec 24) : Option Route :=
  match tget? s.forwards dst.toNat with
  | some f =>
    let e := endpointOf s dst
    if f.flags.getLsbD 0 || f.port.toNat > 63 then none else
    some { port := f.port.toNat, nextHop := f.nextHop, ipv6 := e.flags.getLsbD 0, vlan := if e.flags.getLsbD 1 then some (e.vlan.setWidth 12) else none
           ip := e.ip, udpPort := if e.udpPort = 0 then s.dev.erunoPort else e.udpPort }
  | none => none

/-- Bytes of a frame beside its payload (12 R275). -/
def frameOverhead (r : Route) (priv : Bool) : Nat := 14 + (if r.vlan.isSome then 4 else 0) + (if r.ipv6 then 40 else 20) + 8 + 32 + (if priv then 16 else 0) + 4

/-- Payload bytes that one frame carries on a route. -/
def frameRoom (s : State) (r : Route) (priv : Bool) : Nat := (s.port r.port).maxFrame - frameOverhead r priv

/-- The address of a local endpoint ID. -/
def addressOf (s : State) (id : BitVec 24) : BitVec 128 := ((s.locals.find? (fun l => l.id == id)).map (·.ip)).getD 0

/-- The address that frames of the part have at a port: the management port has its own (16 R380). -/
def sourceAddress (s : State) (q : Nat) (id : BitVec 24) : BitVec 128 := if q = mgmtPort then s.dev.mgmtId.ip else addressOf s id

/-- The frame that carries an Eruno header and payload on session `i` (12 R272, R297). -/
def erunoFrame (s : State) (r : Route) (i : Nat) (priv : Bool) (e : Eruno) : Frame :=
  Frame.withSums
    { len := frameOverhead r priv + e.payload.length, dscp := dscpOf s (erunoClass e), ttl := Config.originTtl, ipDst := r.ip
      ipSrc := sourceAddress s r.port e.src, ipv6 := r.ipv6, ident := Config.ipIdent s.now, udpPort := r.udpPort, udpSrc := BitVec.ofNat 16 (49152 + i % 16384), vlan := r.vlan
      ethDst := r.nextHop, ethSrc := portMac s r.port, body := .eruno e } e

/-- The segments of `n` further frames from a byte offset (12 R275). -/
def cutSegments (e : Eruno) (size total : Nat) : Nat → Nat → Bytes → List Eruno
  | 0, _, _ => []
  | n + 1, off, b =>
    if b.isEmpty then [] else
    { e with flags := e.flags ||| 0x100, operand := BitVec.ofNat 64 (off + total * 2 ^ 16 + (if e.isResponse then 0 else e.operand.toNat % 2 ^ 32 * 2 ^ 32))
             payload := b.take size } :: cutSegments e size total n (off + size) (b.drop size)

/-- Opcodes whose messages may be segmented (12 R275). -/
def maySegment (e : Eruno) : Bool :=
  if e.isResponse then e.op == 0x01 || e.op == 0x32 || e.op == 0x39 else e.op == 0x34 || e.op == 0x33 || e.op == 0x39

/-- A message as the frames that carry it: one, or segments in ascending offset (12 R275). One of an opcode that is not segmented is one
frame, whatever its length. -/
def segmentsOf (s : State) (r : Route) (priv : Bool) (e : Eruno) : List Eruno :=
  let room := frameRoom s r priv
  let size := room / 128 * 128
  if e.payload.length ≤ room || size = 0 || !maySegment e then [e] else cutSegments e size e.payload.length (e.payload.length / size + 1) 0 e.payload

/-- Sends a message of session `i` on a route: sealed, segmented, queued in its class. -/
def sendOn (s : State) (r : Route) (i : Nat) (k : Option SessKeys) (e : Eruno) : State :=
  let priv := k.isSome && !clearExchange e
  let es := (segmentsOf s r priv e).zipIdx.map (fun x => sealFrame k x.2 x.1)
  es.foldl (fun s x => enqueue s r.port (erunoClass x) (erunoFrame s r i priv x)) s

/-- Sends a message of session `i` on the route to its peer. False where the part has no route. -/
def sendEruno (s : State) (i : Nat) (k : Option SessKeys) (e : Eruno) : Bool × State :=
  match routeOf s e.dst with
  | none => (false, s)
  | some r => (true, sendOn s r i k e)

/-! ### Sessions as the transport sees them -/

/-- The keys that seal a session's frames. -/
def Session.sealing (x : Session) : Option SessKeys := if x.priv then x.keys else none

/-- The local endpoint ID of a session. -/
def localOfSession (s : State) (x : Session) : BitVec 24 := ((s.locals[x.localIdx]?).map (·.id)).getD 0

/-- A role slot (12 R286). -/
def isRoleSlot (i : Nat) : Bool := i < 64

/-- A coherence message of an agent that has been declared dead and is not yet resolved: discarded (14 R341). -/
def fencedAgent (s : State) (i : Nat) (e : Eruno) : Bool :=
  0x10 ≤ e.op && e.op ≤ 0x14 && s.agents.any (fun x => x.1 < 64 && x.2.session == i && x.2.dead.isSome)

/-- A registered remote agent on a session (14 R326). -/
def agentOfSession (s : State) (i : Nat) : Option Nat := tfind s.agents (fun a x => a < 64 && x.session == i && x.dead.isNone)

/-- Requests outstanding on a session. -/
def outstandingOn (s : State) (i : Nat) : Nat := (s.outstanding.filter (fun o => o.session == i)).length

/-- The first TAG from a number that no outstanding request of the session holds (12 R280); `n` bounds the search. -/
def freeTag (s : State) (i : Nat) : Nat → BitVec 16 → BitVec 16
  | 0, t => t
  | n + 1, t => if s.outstanding.any (fun o => o.session == i && o.tag == t) then freeTag s i n (t + 1) else t

/-- The requests that a private session has issued have reached 2^32 (12 R291). -/
def sessionSpent (x : Session) : Bool := x.priv && x.issued ≥ 2 ^ 32

/-- A request of the part on a session as a frame, with the next SEQ. -/
def requestFrame (s : State) (x : Session) (tag : BitVec 16) (op flags subop : Nat) (operand : Nat) (payload : Bytes) : Eruno :=
  { opcode := BitVec.ofNat 8 op, flags := BitVec.ofNat 16 flags, dst := x.peer, src := localOfSession s x, session := x.peerSession, seq := x.nextSeq, tag := tag
    subop := BitVec.ofNat 8 subop, operand := BitVec.ofNat 64 operand, payload := payload }

/-- Sends a request of the part that wants no response (12 R276); false where it cannot be sent. -/
def sendOneWay (s : State) (i op flags subop operand : Nat) (payload : Bytes) : Bool × State :=
  let x := s.session i
  if x.st != .opened || sessionSpent x then (false, s) else
  let (ok, s) := sendEruno s i x.sealing (requestFrame s x x.nextTag op (flags ||| 0x40) subop operand payload)
  if ok then
    (true, bump (bump (s.updSession i (fun x => { x with nextSeq := x.nextSeq + 1, nextTag := x.nextTag + 1, issued := x.issued + 1 })) .session i 0 1) .session i 2 payload.length)
  else (false, s)

/-- Issues a request of the part that awaits a response (12 R280, R285); false where it completes at once with FAULT. -/
def issueRequest (s : State) (i : Nat) (kind : OutKind) (op flags subop operand : Nat) (payload : Bytes) : Bool × State :=
  let x := s.session i
  if (x.st != .opened && x.st != .keying) || sessionSpent x then (false, s) else
  let tag := freeTag s i 300 x.nextTag
  let (ok, s) := sendEruno s i x.sealing (requestFrame s x tag op flags subop operand payload)
  if ok then
    let o : Outstanding := { session := i, tag := tag, seq := x.nextSeq, kind := kind, issuedAt := s.now }
    let s := s.updSession i (fun x => { x with nextSeq := x.nextSeq + 1, nextTag := tag + 1, issued := x.issued + 1 })
    (true, bump (bump { s with outstanding := s.outstanding ++ [o] } .session i 0 1) .session i 2 payload.length)
  else (false, s)

/-- The window W and WINDOW allow another request (12 R280, R293). -/
def windowAllows (s : State) (i : Nat) : Bool := outstandingOn s i < min (s.session i).w (s.session i).window

/-- A response's marks move the window W (12 R293). -/
def Session.onResponse (x : Session) (now : Nat) (marked : Bool) : Session :=
  if marked then
    if x.lastCut.any (fun t => now < t + usNs 10) then { x with cleanResponses := 0 }
    else { x with w := max 1 (x.w / 2), lastCut := some now, cleanResponses := 0 }
  else if x.cleanResponses + 1 ≥ x.w then { x with w := min x.window (x.w + 1), cleanResponses := 0 }
  else { x with cleanResponses := x.cleanResponses + 1 }

/-! ### Received requests (12 R281) -/

/-- A request that has passed checks 1 to 3: its port, session index, header and opened payload (with ECN_ECHO set where it
came marked CE), and the frame's DSCP; and, of one at the management port, the way back to its sender (16 R380). -/
structure InReq where
  q : Nat
  i : Nat
  ctx : Option Nat
  e : Eruno
  dscp : BitVec 6
  back : Option Route := none

/-- The number that stands for session index 0 of the management port, which is no entry of the session table (16 R380). -/
def mgmtSession : Nat := 65536

/-- The number of the session that a frame at a port names. -/
def sessionKey (q : Nat) (e : Eruno) : Nat := if q = mgmtPort then mgmtSession else e.index

/-- Counts a discarded frame (12 R281, R305; 18 R408 SESSION 5). -/
def discardFrame (s : State) (i : Nat) : State :=
  let s := tally s .discarded
  if i ≥ mgmtSession then s else
  bump (s.updSession i (fun x => { x with discarded := x.discarded + 1 })) .session i 5 1

/-- SEQ within the window of 12 R282. -/
def seqFits (x : Session) (seq : BitVec 32) : Bool :=
  match x.h with
  | none => true
  | some h =>
    let d := (seq - h).toNat
    (1 ≤ d && d ≤ 2 ^ 31 - 1) || ((h - seq).toNat < 1024 && !x.seen.contains seq)

/-- Accepts a SEQ (12 R282). -/
def acceptSeq (x : Session) (seq : BitVec 32) : Session :=
  let h := match x.h with
    | none => seq
    | some h => if 1 ≤ (seq - h).toNat && (seq - h).toNat ≤ 2 ^ 31 - 1 then seq else h
  { x with h := some h, seen := (seq :: x.seen).filter (fun v => (h - v).toNat < 1024) }

/-- Check 1 of 12 R281. A role slot in KEYING takes phase 1 whatever generation and sender it carries (12 R290). -/
def sessionMatches (s : State) (e : Eruno) : Bool :=
  let x := s.session e.index
  let named := x.gen == e.gen && x.peer == e.src
  match x.st with
  | .opened => named
  | .keying => e.op == 0x39 && (named || (isRoleSlot e.index && e.subop == 1 && !e.isResponse))
  | _ => false

/-- The reassembly that a segment at a port belongs to. -/
def reasmOf (s : State) (q : Nat) (e : Eruno) : Option Reasm :=
  s.reasms.find? (fun r => r.session == sessionKey q e && r.seq == e.seq && r.first.isResponse == e.isResponse)

/-- The segment index of a frame (12 R291): its offset at the segment size, which every segment but the last has (12 R275). DEDUCED: a last
segment that comes first is taken as the second of two (log entry 63). -/
def segmentIndex (s : State) (e : Eruno) : Nat :=
  let off := e.arg 0 16
  if !e.segmented || off = 0 then 0
  else if off + e.payload.length < e.arg 16 16 then off / max 1 e.payload.length
  else match (reasmOf s 0 e).bind (·.have_.head?) with
    | some h => off / max 1 h.2
    | none => 1

/-- The header's reserved flags are 0 (12 R274), and no TRANSLATED reaches a part (12 R277). -/
def flagsLegal (e : Eruno) : Bool := e.flags.toNat < 0x400 && !e.flag 7

/-- The opcodes that 12 R276 and 14 R331 define. -/
def opcodeDefined (op : Nat) : Bool :=
  (1 ≤ op && op ≤ 4) || (0x10 ≤ op && op ≤ 0x14) || (0x18 ≤ op && op ≤ 0x1A) || (0x30 ≤ op && op ≤ 0x39)

/-- The opcodes that only a part sends (12 R451). -/
def onlyPartSends (op : Nat) : Bool := op == 0x35 || op == 0x37 || op == 0x38 || op == 0x18 || op == 0x19 || op == 0x1A

/-- Check 4 of 12 R281: R289 and R451. A COMP_ACK without an agent passes, since it is discarded and not answered (14 R333). -/
def opcodeAllowed (s : State) (i : Nat) (e : Eruno) : Bool :=
  if !opcodeDefined e.op then true
  else if onlyPartSends e.op then false
  else if e.op = 0x39 then (s.session i).st == .keying
  else if e.op = 0x14 && (agentOfSession s i).isNone then true
  else if isRoleSlot i then e.op == 0x32 || e.op == 0x33 || e.op == 0x34
  else if 0x10 ≤ e.op && e.op ≤ 0x14 then (agentOfSession s i).isSome
  else true

/-- The size that meters count for a request and its direction, where they judge it (13 R310, R311). -/
def meteredSize (e : Eruno) : Option (Bool × Nat) :=
  let c := erunoClass e
  if e.flag 4 || e.isResponse || (c != 1 && c != 2) then none
  else some (match e.op with
    | 0x01 => (false, e.arg 48 16)
    | 0x02 | 0x03 => (true, e.payload.length)
    | 0x04 => (true, 8)
    | 0x10 | 0x11 | 0x12 => (false, 128)
    | 0x13 => (true, 128)
    | _ => (true, max 64 e.payload.length))

/-- The stack whose controller is the home of the line that a request to the pool names, where its segment is valid (12 R294). -/
def requestHome (s : State) (r : InReq) : Option Nat :=
  if (1 ≤ r.e.op && r.e.op ≤ 4) || (0x10 ≤ r.e.op && r.e.op ≤ 0x14) then
    match r.ctx.map (fun c => segCheck s c (r.e.arg 0 48) 1 0) with
    | some (.ok ((a, _) :: _) _ _) => some (placed s (stripeOf a) (dataHome (stripeOf a) (unitOf a)))
    | _ => none
  else none

/-- LOAD of a response (12 R294). How full a controller's class 2 queue is stays free (log entry 63). -/
def loadOf (s : State) (r : InReq) : BitVec 8 :=
  let held := foldRange (r.q / 4 * 4) 4 0 (fun n q => n + classHeld (s.port q) 0 + ((List.range 5).foldl (fun a c => a + ((s.port q).cls (c + 1)).occupied) 0))
  let queue := match requestHome s r with
    | some t => Config.classTwoFill t s.now
    | none => 0
  let device := min 15 (max (16 * held / 524288) queue)
  let bucket := match meteredSize r.e with
    | some (w, _) => bucketFill s (some r.e.src.toNat) r.ctx w
    | none => 15
  BitVec.ofNat 8 (device * 16 + bucket)

/-- The response to a request, at the session that its peer names. -/
def responseOf (s : State) (r : InReq) (peerSession : BitVec 32) (status : Nat) (payload : Bytes) (subop operand : Nat) : Eruno :=
  { opcode := r.e.opcode, flags := 1 ||| (r.e.flags &&& 2), dst := r.e.src, src := r.e.dst, session := peerSession, seq := r.e.seq, tag := r.e.tag
    status := BitVec.ofNat 16 status, load := loadOf s r, subop := BitVec.ofNat 8 subop, operand := BitVec.ofNat 64 operand, payload := payload }

/-- Sends a response to a request, unless its session has gone (12 R284, R288, R293); at the management port, back to the sender (16
R380). -/
def respondEruno (s : State) (r : InReq) (status : Nat) (payload : Bytes) (subop : Nat := 0) (operand : Nat := 0) : State :=
  match r.back with
  | some route => sendOn s route r.i none (responseOf s r 0 status payload subop operand)
  | none =>
    let x := s.session r.i
    if (x.st != .opened && x.st != .keying) || x.gen != r.e.gen then s else
    let s := (sendEruno s r.i x.sealing (responseOf s r x.peerSession status payload subop operand)).2
    bump s .session r.i 2 payload.length

/-- NO_RESPONSE stands on an operation that 12 R276 and 14 R331 do not give it. -/
def misplacedNoResponse (e : Eruno) : Bool := e.noResponse && !(e.op == 0x02 || e.op == 0x14 || e.op == 0x30 || e.op == 0x31 || e.op == 0x38)

/-- A failed check's answer: a status, or nothing where NO_RESPONSE is set (12 R281, R451); BAD_ARG for a NO_RESPONSE that may
not stand is answered (12 R276). The answer to a coherence message repeats its address and WAY (14 R331); that to a
KEY_EXCHANGE carries the phase that answers (12 R290). -/
def refuseEruno (s : State) (r : InReq) (status : Nat) : State :=
  if r.e.noResponse && !(status = stBadArg && misplacedNoResponse r.e) then discardFrame s r.i
  else respondEruno s r status [] (if r.e.op = 0x39 then (if r.e.subop = 3 then 3 else 2) else 0) (if 0x10 ≤ r.e.op && r.e.op ≤ 0x14 then r.e.arg 0 56 else 0)

/-- A request with the mark of a frame that came CE. -/
def markEcho (e : Eruno) (ce : Bool) : Eruno := { e with flags := if ce then e.flags ||| 2 else e.flags &&& ~~~2 }

/-- Phase 1 on a role slot, which rebinds the slot and so sets its highest SEQ (12 R282, R290). -/
def rebinds (i : Nat) (e : Eruno) : Bool := e.op == 0x39 && e.subop == 1 && isRoleSlot i

/-- The way back to the sender of a frame at the management port (16 R380; log entry 114). -/
def backTo (s : State) (f : Frame) : Route := { port := mgmtPort, nextHop := f.ethSrc, ipv6 := f.ipv6, vlan := f.vlan, ip := f.ipSrc, udpPort := s.dev.erunoPort }

/-- A request at the management port stands on session index 0 under generation 0, in the standard class (16 R380). -/
def acceptMgmt (s : State) (x : RxItem) (e : Eruno) : State × Option InReq :=
  if e.session != 0 || e.flag 3 then (discardFrame s mgmtSession, none)
  else (s, some { q := mgmtPort, i := mgmtSession, ctx := none, e := markEcho e x.frame.ce, dscp := x.frame.dscp, back := some (backTo s x.frame) })

/-- Checks 1 to 5 of 12 R281: what goes on to check 6, or the state after a refusal. A reassembled message passed them with its first
segment. -/
def acceptRequest (s : State) (q : Nat) (x : RxItem) (e : Eruno) : State × Option InReq :=
  let i := e.index
  if q = mgmtPort then acceptMgmt s x e
  else if !sessionMatches s e then (discardFrame s i, none)
  else if x.opened then (s, some { q := q, i := i, ctx := (s.session i).ctx, e := markEcho e x.frame.ce, dscp := x.frame.dscp }) else
  match openFrame (s.session i) (segmentIndex s e) e with
  | none => (discardFrame s i, none)
  | some e =>
    if !rebinds i e && !seqFits (s.session i) e.seq then (discardFrame s i, none) else
    let r : InReq := { q := q, i := i, ctx := (s.session i).ctx, e := markEcho e x.frame.ce, dscp := x.frame.dscp }
    let s := if rebinds i e then s else s.updSession i (acceptSeq · e.seq)
    let s := bump (bump s .session i 1 1) .session i 3 e.payload.length
    if fencedAgent s i e then (discardFrame s i, none)
    else if !opcodeAllowed s i e then (refuseEruno s r stDenied, none) else
    match meteredSize e with
    | none => (s, some r)
    | some (w, n) =>
      let m := meterRequest s (some e.src.toNat) r.ctx r.dscp w n
      if m.colour != .red then (m.s, some r)
      else if m.throttle && !e.noResponse then
        (refuseEruno (match r.ctx with | some c => bump m.s .context c 7 1 | none => m.s) r stThrottled, none)
      else (discardFrame m.s i, none)

/-- An endpoint ID of the part at a port. -/
def endpointAt (s : State) (q : Nat) (id : BitVec 24) : Bool := if q = mgmtPort then id == s.dev.mgmtId.id else localEndpoint s id

/-- An unsegmented request to the part at a port. -/
def isRequest (s : State) (q : Nat) (e : Eruno) : Bool := endpointAt s q e.dst && !e.isResponse && !e.segmented

/-- A coherence request of the agent on a session that its home has not served. -/
def agentWaits (s : State) (i : Nat) : Bool :=
  (agentOfSession s i).any (fun a => s.cohQueue.any (fun r => r.agent == a) || s.txns.any (fun t => t.phase == .snp && t.agent == a))

/-- A request with FENCE waits for every earlier accepted request of its session (12 R283). -/
def fenceHolds (s : State) (q : Nat) (e : Eruno) : Bool :=
  e.flag 5 && (s.reasms.any (fun r => r.session == sessionKey q e && !r.first.isResponse && r.first.seq != e.seq) || (q != mgmtPort && (s.ncReqs.any (fun r => match r.owner with | .eruno _ _ o => o.session == e.session | _ => false)
    || agentWaits s e.index || s.drains.any (fun d => d.flushCtx.isNone && d.session == e.index))))

/-- The Eruno header of a frame. -/
def erunoOf (f : Frame) : Option Eruno := match f.body with | .eruno e => some e | _ => none

/-- A row of a received Eruno request: the request passes checks 1 to 5, and the body runs checks 6 to 8. -/
def onRequest (s : State) (q : Nat) (want : Eruno → Bool) (body : State → InReq → State) : Host.Outcome State Fault Refusal :=
  onFrame s q (fun f => (erunoOf f).any (fun e => isRequest s q e && want e && !fenceHolds s q e))
    (fun s x => match erunoOf x.frame with
      | some e => match acceptRequest s q x e with
        | (s, some r) => if flagsLegal e then body s r else refuseEruno s r stBadArg
        | (s, none) => s
      | none => s)

/-- A row of a received request with one opcode. -/
def onOpcode (s : State) (q op : Nat) (body : State → InReq → State) : Host.Outcome State Fault Refusal := onRequest s q (fun e => e.op == op) body

/-- UNDEFINED_ERUNO_OPCODE (12 R451). -/
def execUndefinedErunoOpcode (q : Fin 64) (s : State) : Host.Outcome State Fault Refusal :=
  onRequest s q (fun e => !opcodeDefined e.op) (fun s r => refuseEruno s r stBadArg)

/-- OPCODE_ONLY_A_PART_SENDS (12 R451): check 4 refuses it. -/
def execOpcodeOnlyAPartSends (q : Fin 64) (s : State) : Host.Outcome State Fault Refusal :=
  onRequest s q (fun e => onlyPartSends e.op && e.op != 0x38) (fun s r => refuseEruno s r stDenied)

/-- TRACE_FRAME (12 R451): refused, and discarded since NO_RESPONSE is set. -/
def execTraceFrame (q : Fin 64) (s : State) : Host.Outcome State Fault Refusal :=
  onRequest s q (fun e => e.op == 0x38) (fun s r => refuseEruno s r stDenied)

/-! ### Reassembly (12 R275) -/

/-- The whole message of a complete reassembly. -/
def Reasm.whole (r : Reasm) : Eruno :=
  let e := r.first
  { e with flags := e.flags &&& ~~~0x100, payload := mreadN r.data 0 r.total
           operand := if e.isResponse then 0 else if e.op = 0x33 then BitVec.ofNat 64 (e.arg 32 32 + r.total * 2 ^ 32) else BitVec.ofNat 64 (e.arg 32 32) }

/-- Bytes that a reassembly holds. -/
def Reasm.held (r : Reasm) : Nat := r.have_.foldl (fun n x => n + x.2) 0

/-- A segment joins its reassembly; a complete one goes on as a whole frame. -/
def joinSegment (s : State) (q : Nat) (x : RxItem) (e : Eruno) : State :=
  let off := e.arg 0 16
  let total := e.arg 16 16
  let r := (reasmOf s q e).getD { session := sessionKey q e, seq := e.seq, first := e, total := total, data := [], have_ := [], since := s.now }
  let dup := r.have_.any (fun h => overlaps off (off + e.payload.length) h.1 (h.1 + h.2))
  if dup || total != r.total || off + e.payload.length > total then discardFrame s (sessionKey q e) else
  let r := { r with data := mwriteN r.data off e.payload, have_ := r.have_ ++ [(off, e.payload.length)], ce := r.ce || x.frame.ce }
  let rest := s.reasms.filter (fun o => !(o.session == r.session && o.seq == r.seq && o.first.isResponse == r.first.isResponse))
  if r.held = r.total then
    let f : Frame := { x.frame with body := .eruno r.whole, ecn := if r.ce then 3 else x.frame.ecn }
    { s with reasms := rest }.updPort q (fun p => { p with rx := { x with frame := { f with len := 0 }, opened := true } :: p.rx })
  else { s with reasms := rest ++ [r] }

/-- Reassemblies of requests that the part holds at once (12 R275). -/
def reasmMax : Nat := 32

/-- The first segment of a request arrives: it passes checks 1 to 5 for its message, and starts a reassembly (12 R275, R281). -/
def firstSegment (s : State) (q : Nat) (x : RxItem) (e : Eruno) : State :=
  match acceptRequest s q x e with
  | (s, none) => s
  | (s, some r) =>
    if !maySegment e then refuseEruno s r stBadArg
    else if (s.reasms.filter (fun r => !r.first.isResponse)).length ≥ reasmMax then refuseEruno s r stBusy
    else joinSegment s q x r.e

/-- A segment of a message under reassembly, or of a response, arrives: checks 1 and 2. -/
def furtherSegment (s : State) (q : Nat) (x : RxItem) (e : Eruno) : State :=
  if q = mgmtPort then (if e.session != 0 || e.flag 3 then discardFrame s mgmtSession else joinSegment s q x e) else
  if !sessionMatches s e then discardFrame s e.index else
  match openFrame (s.session e.index) (segmentIndex s e) e with
  | none => discardFrame s e.index
  | some o => if !maySegment e then discardFrame s e.index else joinSegment (if e.isResponse then s else bump s .session e.index 3 o.payload.length) q x o

/-- A segment of a request or response arrives (12 R275). -/
def takeSegment (s : State) (q : Nat) (x : RxItem) (e : Eruno) : State :=
  if e.isResponse || (reasmOf s q e).isSome then furtherSegment s q x e else firstSegment s q x e

/-- ERUNO_SEGMENT. -/
def execErunoSegment (q : Fin 65) (s : State) : Host.Outcome State Fault Refusal :=
  onFrame s q (fun f => (erunoOf f).any (fun e => endpointAt s q e.dst && e.segmented))
    (fun s x => match erunoOf x.frame with | some e => takeSegment s q x e | none => s)

/-- REASSEMBLY_TIMEOUT: 1 ms after the first segment (12 R275). -/
def execReassemblyTimeout (t : Nat) (i : BitVec 16) (seq : BitVec 32) (s : State) : Host.Outcome State Fault Refusal :=
  let dead (s : State) (r : Reasm) : Bool := r.session % mgmtSession == i.toNat && r.seq == seq && r.since + msNs 1 ≤ s.now
  ticking t s (fun s => s.reasms.any (dead s)) (fun s => bump (tally { s with reasms := s.reasms.filter (fun r => !dead s r) } .reasmDiscard) .device 0 14 1)

/-! ### Forwarding (12 R298) -/

/-- The meters judge a frame that the part forwards (13 R310, R311, R314): red discards it. -/
def meterForward (s : State) (e : Eruno) (dscp : BitVec 6) : Bool × State :=
  match meteredSize e with
  | none => (true, s)
  | some (w, n) =>
    let m := meterRequest s (some e.src.toNat) none dscp w n
    (m.colour != .red, m.s)

/-- A frame not forwarded. -/
def forwardDiscard (s : State) (q : Nat) (f : Frame) : State := releaseIngress (bump (tally s .forwardDiscard) .port q 14 1) q f

/-- The frame as it is forwarded. -/
def forwardedFrame (s : State) (e : Eruno) (x : Forward) (f : Frame) : Frame :=
  let vlan := match tget? s.endpoints e.dst.toNat with
    | some n => if n.flags.getLsbD 1 then some (n.vlan.setWidth 12) else f.vlan
    | none => f.vlan
  let len := f.len + (if vlan.isSome then 4 else 0) - (if f.vlan.isSome then 4 else 0)
  let g := { e with hops := e.hops - 1 }
  Frame.refreshSums { f with ethDst := x.nextHop, ethSrc := portMac s x.port.toNat, ttl := f.ttl - 1, vlan := vlan, len := len, body := .eruno g } f g e

/-- forward() of 12 R298. -/
def forwardFrame (s : State) (q : Nat) (f : Frame) (e : Eruno) : State :=
  if e.hops = 0 then forwardDiscard s q f else
  match tget? s.forwards e.dst.toNat with
  | none => forwardDiscard s q f
  | some x =>
    let out := x.port.toNat
    let link := (s.port out).link
    if x.flags.getLsbD 0 || out > 63 || !(link == .up || link == .reliable) then forwardDiscard s q f else
    let g := forwardedFrame s e x f
    if g.len > (s.port out).maxFrame then forwardDiscard s q f else
    match meterForward s e f.dscp with
    | (false, s) => forwardDiscard s q f
    | (true, s) => enqueue (bump s .port q 13 1) out (erunoClass e) g (some (q, f.len))

/-- FORWARD: the frame keeps its place in the ingress buffer until it leaves the part (13 R307). -/
def execForward (q : Fin 64) (s : State) : Host.Outcome State Fault Refusal :=
  .next (if s.clocked then
      match takeFrame s q (fun f => (erunoOf f).any (fun e => !localEndpoint s e.dst)) with
      | some (x, r) => match erunoOf x.frame with
        | some e => forwardFrame (s.updPort q (fun p => { p with rx := r })) q x.frame e
        | none => s
      | none => s
    else s)

end Sys2Proof.Machine
end

