-- ==== Sys2Proof/Machine/RoceBase.lean ====
section
/-!
DEFINITION. What the part sends on a RoCEv2 queue pair (12 R301 to R304): acknowledgements, READ responses, SENDs and CNPs.
-/

namespace Sys2Proof.Machine

open Sys2Proof

/-- Bytes of a RoCEv2 frame beside its payload: Ethernet, IP, UDP, BTH, ICRC and FCS, with the extended header of its kind. -/
def roceOverhead (x : Qp) (r : Roce) : Nat :=
  14 + (if x.ipv6 then 40 else 20) + 8 + 12 + 4 + 4 + (match r.op with | .ack | .readResponse => 4 | .atomicAck => 12 | _ => 0)

/-- A packet leaves to the remote queue pair (12 R305). -/
def putRoce (s : State) (n : Nat) (r : Roce) : State :=
  let x := s.qp n
  enqueue s x.port 0 (Frame.withSum
    { len := roceOverhead x r + r.payload.length, dscp := dscpOf s 0, ttl := Config.originTtl, ipDst := x.ip, ipSrc := ((s.locals[x.localIdx]?).map (·.ip)).getD 0
      ipv6 := x.ipv6, ident := Config.ipIdent s.now, udpSum := Config.otherSum s.now, udpPort := 4791, udpSrc := Config.roceSource n, ethDst := x.mac
      ethSrc := portMac s x.port, body := .roce { r with destQp := x.remoteQp } })

/-- ns that a packet of `n` bytes takes at a queue pair's rate in Mb/s. -/
def paceNs (rate n : Nat) : Nat := if rate = 0 then 0 else ceilDiv (8000 * n) rate

/-- A CNP has taken the queue pair's rate below that of its port (12 R304). -/
def slowed (s : State) (n : Nat) : Bool := (s.qp n).rate != 0 && (s.qp n).rate < portRate s (s.qp n).port * 1000

/-- A packet leaves at the queue pair's rate: a READ response of a queue pair that a CNP has slowed takes its time. -/
def putPaced (s : State) (n : Nat) (r : Roce) : State :=
  let s' := putRoce s n r
  if slowed s n && r.op == .readResponse then s'.updQp n (fun x => { x with nextAt := s.now + paceNs x.rate (roceOverhead x r + r.payload.length) }) else s'

/-- A packet waits for the queue pair's rate: a READ response before its time (12 R304). -/
def mustWait (s : State) (n : Nat) (r : Roce) : Bool := slowed s n && r.op == .readResponse && s.now < (s.qp n).nextAt

/-- Sends a packet, but for SENDs, to the remote queue pair. READ responses leave at its rate, and no answer passes one that waits (12 R301, R304;
DEDUCED, log entry 123); a CNP does not wait. -/
def sendRoce (s : State) (n : Nat) (r : Roce) : State :=
  if r.op != .cnp && (!(s.qp n).waiting.isEmpty || mustWait s n r) then s.updQp n (fun x => { x with waiting := x.waiting ++ [r] }) else putPaced s n r

/-- The answers of a list that wait leave, up to the first that the queue pair's rate still holds. -/
def drainWaiting (n : Nat) : List Roce → State → State
  | [], s => s.updQp n (fun x => { x with waiting := [] })
  | r :: l, s => if mustWait s n r then s.updQp n (fun x => { x with waiting := r :: l }) else drainWaiting n l (putPaced s n r)

/-- Sends an ACK of a PSN. -/
def roceAck (s : State) (n : Nat) (psn : BitVec 24) : State := sendRoce s n { op := .ack, psn := psn }

/-- Sends a NAK, or an RNR NAK, and counts it (12 R302, R305). -/
def roceNak (s : State) (n : Nat) (psn : BitVec 24) (x : Syndrome) : State :=
  sendRoce (s.updQp n (fun q => { q with naks := q.naks + 1 })) n { op := .ack, psn := psn, syndrome := x }

/-- READ response packets from a PSN: payloads of one MTU; `k` bounds them. -/
def readResponses (s : State) (n : Nat) : Nat → BitVec 24 → Bytes → State
  | 0, _, _ => s
  | k + 1, psn, b =>
    let s := sendRoce s n { op := .readResponse, psn := psn, payload := b.take (s.qp n).mtu }
    if b.length ≤ (s.qp n).mtu then s else readResponses s n k (psn + 1) (b.drop (s.qp n).mtu)

/-- Packets that a READ of `len` bytes answers with. -/
def readPackets (x : Qp) (len : Nat) : Nat := max 1 (ceilDiv len x.mtu)

/-- The NAK that a status maps to (12 R302). -/
def nakOf (status : Nat) : Syndrome := if status = stMedia then .nakRemoteOperational else .nakRemoteAccess

/-- Answers an RDMA READ: the packets before the first failing line, then the NAK in place of the one that failed, or all
(12 R302). -/
def answerRead (s : State) (n : Nat) (r : Roce) (data : Bytes) (failed failedAt : Nat) : State :=
  let x := s.qp n
  if failed = 0 then readResponses s n (readPackets x r.dmaLen) r.psn data
  else
    let k := failedAt / x.mtu
    let s := if k = 0 then s else readResponses s n k r.psn (data.take (k * x.mtu))
    roceNak s n (r.psn + BitVec.ofNat 24 k) (nakOf failed)

/-- Atomic results that a queue pair keeps for duplicates (12 R301). -/
def atomicsKept : Nat := 16

/-- Answers an atomic, and keeps its result (12 R301). -/
def answerAtomic (s : State) (n : Nat) (r : Roce) (old : Bytes) (failed : Nat) : State :=
  if failed != 0 then roceNak s n r.psn (nakOf failed) else
  let v := BitVec.ofNat 64 (leNat old)
  let s := s.updQp n (fun x => { x with atomics := ((r.psn, v) :: x.atomics).take atomicsKept })
  sendRoce s n { op := .atomicAck, psn := r.psn, swapAdd := v }

/-- An atomic operation of 12 R278 on 8 bytes: operands, old value, new value. -/
def atomicResult (sub : Nat) (x old : Nat) (operands : Bytes) : Nat :=
  match sub with
  | 0 => (old + x) % 2 ^ 64
  | 1 => if old = x then leNat ((operands.drop 8).take 8) else old
  | 2 => min old x
  | 3 => max old x
  | 4 => if signed x 64 < signed old 64 then x else old
  | _ => if signed x 64 > signed old 64 then x else old

/-- The 8 bytes that an atomic leaves, from the old ones (12 R278). -/
def atomicBytes (sub : Nat) (operands old : Bytes) : Bytes := natLe (atomicResult sub (leNat (operands.take 8)) (leNat old) operands) 8

/-! ### SENDs that leave (12 R303, R304) -/

/-- The first packet of a queue pair's SENDs that has not left leaves: the range of the request it answers is released
(02 R34). -/
def sendNext (s : State) (n : Nat) : State :=
  let x := s.qp n
  match x.sends.find? (fun k => k.sentAt.isNone) with
  | none => s
  | some k =>
    let s := putRoce s n { op := k.op, psn := k.psn, payload := k.bytes }
    let len := roceOverhead x { op := k.op } + k.bytes.length
    let s := s.updQp n (fun x => { x with sends := x.sends.map (fun j => if j.psn == k.psn then { j with sentAt := some s.now } else j), nextAt := s.now + paceNs x.rate len })
    match k.index, x.ctx with
    | some i, some c => s.updPage (ctxMailbox c) (fun p => { p with ranges := p.ranges.filter (fun r => r.index != i) })
    | _, _ => s

/-- A queue pair may send: it is ready, its rate lets it, and no RNR timer runs. -/
def Qp.maySend (x : Qp) (now q : Nat) : Bool := x.st == .ready && x.port == q && x.nextAt ≤ now && x.rnrUntil.isNone && x.sends.any (fun k => k.sentAt.isNone)

/-- The queue pairs of a port give their next packets to it: answers that wait, and SENDs. -/
def pumpSends (s : State) (q : Nat) : State :=
  if (s.port q).carries then
    let s := foldKeys (tkeys s.qps (fun _ x => x.st == .ready && x.port == q && !x.waiting.isEmpty)) s (fun s n => drainWaiting n (s.qp n).waiting s)
    foldKeys (tkeys s.qps (fun _ x => x.maySend s.now q)) s sendNext
  else s

/-- EGRESS_FRAME_BOUNDARY (13 R317). -/
def execEgressFrameBoundary (t : Nat) (q : Fin 65) (s : State) : Host.Outcome State Fault Refusal :=
  timed t s (fun s => s.clocked) (fun s => frameBoundary (pumpSends s q) q)

end Sys2Proof.Machine
end

