-- ==== Sys2Proof/Machine/Coherence.lean ====
section
/-!
DEFINITION. Coherent windows: the tally, the home's transactions, the paddock line caches' answers, agent death and the
commands of 14 R344 (14 R324 to R344).
-/

namespace Sys2Proof.Machine

open Sys2Proof

/-! ### The tally (14 R325, R328, R329) -/

/-- The set of an address in a cache of 2^n sets. -/
def setOf (n va : Nat) : Nat := va / 128 % 2 ^ n
/-- The key of an entry: agent, set, way. -/
def tallyKey (a set way : Nat) : Nat := a * 2 ^ 20 + set * 16 + way
/-- The agent of a key. -/
def keyAgent (k : Nat) : Nat := k / 2 ^ 20
/-- The tally slice of an address or line: 4 slices by address bits [8:7]. -/
def sliceOfVa (va : Nat) : Nat := va / 128 % 4

/-- The agents that the tally records for a line. -/
def holders (s : State) (line : Nat) : List Nat := ((tkeys s.tally (fun _ e => e.line == line)).map keyAgent).dedup
/-- The agent recorded O for a line. -/
def lineOwner (s : State) (line : Nat) : Option Nat := (tfind s.tally (fun _ e => e.line == line && e.owned)).map keyAgent
/-- An agent's entries for a line are dropped. -/
def dropEntries (s : State) (a line : Nat) : State := { s with tally := tfilter s.tally (fun k e => !(keyAgent k == a && e.line == line)) }
/-- An agent's entries for a line are set S. -/
def setShared (s : State) (a line : Nat) : State :=
  { s with tally := tmap s.tally (fun k e => if keyAgent k == a && e.line == line then { e with owned := false } else e) }
/-- The home writes the entry of (agent, set, way) (14 R329). -/
def setEntry (s : State) (a va way line : Nat) (owned : Bool) : State :=
  match s.agent? a with
  | some g => { s with tally := tput s.tally (tallyKey a (setOf g.n va) way) { line := line, owned := owned } }
  | none => s
/-- The requester is recorded O at the named way. -/
def ownsAt (s : State) (a va way line : Nat) : Bool :=
  match s.agent? a with
  | some g => tget? s.tally (tallyKey a (setOf g.n va) way) == some { line := line, owned := true }
  | none => false

/-- The segment slot of a context that holds a data line (03 R68). -/
def slotOfLine (s : State) (c line : Nat) : Option Nat :=
  tfind (s.ctx c).segs (fun _ g => g.list.any (fun e => !e.void && e.extent == line * 128 / 2 ^ 30))

/-- Counts owned entries dropped in the LOST_OWNED counter of their segment (14 R341, R344; 18 R408). -/
def countLost (s : State) (c line : Nat) : State :=
  let s := bump (bump s .device 0 5 1) .context c 12 1
  match slotOfLine s c line with
  | some k => s.updCtx c (fun x => { x with lostOwned := tupd x.lostOwned 0 k (· + 1) })
  | none => s

/-- Drops entries by key: O entries counted lost (14 R341, R343). -/
def dropKeys (s : State) (ks : List Nat) : State :=
  foldKeys ks s (fun s k => match tget? s.tally k with
    | some e =>
      let c := (s.agent? (keyAgent k)).map (·.ctx)
      let s := { s with tally := tdel s.tally k }
      match e.owned, c with
      | true, some c => countLost s c e.line
      | _, _ => s
    | none => s)

/-- Every agent's entries for the lines of an extent are dropped (14 R343). -/
def dropExtentLines (s : State) (_owner e : Nat) : State := dropKeys s (tkeys s.tally (fun _ x => x.line * 128 / 2 ^ 30 == e))

/-! ### Messages to agents (14 R331, R332) -/

/-- The OPERAND of a coherence message. -/
def cohOperand (va way : Nat) : Nat := va % 2 ^ 48 + way * 2 ^ 48

/-- A way of a paddock's line cache that is refused: the way goes to I, and the mover that asked learns the status
(14 R337). -/
def refuseWay (s : State) (p va status : Nat) : State :=
  s.updEngine p (fun e =>
    let waits := e.ways.any (fun w => w.2.va == va && (w.2.st == .isD || w.2.st == .imD || w.2.st == .smA))
    { e with ways := tfilter e.ways (fun _ w => !(w.va == va && (w.st == .isD || w.st == .imD || w.st == .smA || w.st == .miA || w.st == .iiA)))
             refusedLines := if waits then e.refusedLines ++ [(va, status)] else e.refusedLines })

/-- The way of an agent's entry for a line, which a snoop names (14 R332). -/
def snoopWay (s : State) (a line : Nat) : Nat := ((tfind s.tally (fun k e => keyAgent k == a && e.line == line)).map (· % 16)).getD 0

/-- A request of the home to an agent: SNP_SHARED, SNP_INV or STASH_FILL. -/
def askAgent (s : State) (a op va way : Nat) (data : Bytes) (kind : OutKind) : State :=
  match s.agent? a with
  | none => s
  | some g =>
    if a < 64 then (issueRequest s g.session kind op 0 0 (cohOperand va way) data).2
    else
      let line := match kind with | .snoop _ l | .stashOffer _ l => l | _ => 0
      { s with xbar := s.xbar ++ [{ toHome := false, paddock := a - 64, opcode := op, subop := 0, va := va, way := way, line := line, data := data }] }

/-- The frame that an agent's request came in, as far as its answer needs it. -/
def agentFrame (s : State) (g : Agent) (r : CohReq) : InReq :=
  let x := s.session g.session
  { q := r.port, i := g.session, ctx := some g.ctx, dscp := 0
    e := { opcode := BitVec.ofNat 8 r.opcode, flags := (if r.echo then 2 else 0) ||| (if r.scheduled then 16 else 0), operand := BitVec.ofNat 64 (cohOperand r.va r.way), dst := localOfSession s x, src := x.peer, session := x.gen ++ BitVec.ofNat 16 g.session, seq := r.seq, tag := r.tag } }

/-- Answers an agent's request. -/
def answerAgent (s : State) (r : CohReq) (status subop : Nat) (data : Bytes) : State :=
  match s.agent? r.agent with
  | none => s
  | some g =>
    if r.agent ≥ 64 then
      (if status != stOk then refuseWay s (r.agent - 64) r.va status
      else { s with xbar := s.xbar ++ [{ toHome := false, paddock := r.agent - 64, opcode := r.opcode, subop := subop, va := r.va, way := r.way, line := r.line, data := data }] })
    else respondEruno s (agentFrame s g r) status data (if status = stOk then subop else 0) (cohOperand r.va r.way)

/-- The request that a transaction serves. -/
def Txn.request (t : Txn) : CohReq :=
  { line := t.line, va := t.va, opcode := t.opcode, agent := t.agent, way := t.way, seq := t.seq, tag := t.tag, port := t.port, echo := t.echo, scheduled := t.scheduled }

/-! ### Non-caching accesses (14 R334, R335, R339) -/

/-- The part of a non-caching request that lies in the line at `va`: offset in the request, offset in the line, length. -/
def NcReq.part (r : NcReq) (va : Nat) : Nat × Nat × Nat :=
  let lo := max r.va va
  (lo - r.va, lo - va, min (r.va + r.len) (va + 128) - lo)

/-- Changes a non-caching request. -/
def updNc (s : State) (id : Nat) (f : NcReq → NcReq) : State := { s with ncReqs := s.ncReqs.map (fun r => if r.id == id then f r else r) }

/-- Reads a line whole. -/
def readHome (s : State) (line : Nat) : Option Bytes × State := readLine s demand (line * 128)

/-- Performs a non-caching request's access to one line: a read of memory, a write, or an ATOMIC (14 R335). -/
def ncAccess (s : State) (r : NcReq) (line va : Nat) : Bool × Bytes × State :=
  let (o, i, n) := r.part va
  match r.isWrite, r.atomic with
  | false, _ => match readHome s line with
    | (some b, s) => (true, (b.drop i).take n, s)
    | (none, s) => (false, [], s)
  | true, none =>
    let (ok, s) := writeData s demand (line * 128 + i) ((r.data.drop o).take n)
    (ok, [], s)
  | true, some sub => match readHome s line with
    | (some b, s) =>
      let old := (b.drop i).take 8
      let (ok, s) := writeData s demand (line * 128 + i) (atomicBytes sub r.data old)
      (ok, old, s)
    | (none, s) => (false, [], s)

/-- Counts a request to the pool that has been served, and its bytes where it ended OK (18 R408 CONTEXT; log entry 76). -/
def countServed (s : State) (c : Nat) (isWrite isAtomic : Bool) (len status : Nat) : State :=
  let n := if status = stOk then len else 0
  let s := if isAtomic then bump s .context c 4 1
    else if isWrite then bump (bump s .context c 2 1) .context c 3 n
    else bump (bump s .context c 0 1) .context c 1 n
  if status = stMedia then bump s .context c 11 1 else s

/-- A non-caching request whose lines are all served is answered; a mover's, Lens's or load's waits to be collected. -/
def ncFinish (s : State) (r : NcReq) : State :=
  let s' := countServed { s with ncReqs := s.ncReqs.filter (fun x => x.id != r.id) } r.ctx r.isWrite r.atomic.isSome r.len r.failed
  match r.owner with
  | .mover p _ | .lens p => if p < 16 then s else s'
  | .load _ => s
  | .eruno port i e =>
    let q : InReq := { q := port, i := i, ctx := some r.ctx, e := e, dscp := 0 }
    if e.noResponse then (if r.failed = 0 then s' else discardFrame s' i)
    else respondEruno s' q r.failed (if r.failed = 0 && !(r.isWrite && r.atomic.isNone) then r.data else [])
  | .roce _ n p =>
    if r.atomic.isSome then answerAtomic s' n p r.data r.failed
    else if r.isWrite then (if r.failed = 0 then roceAck s' n p.psn else roceNak s' n p.psn (nakOf r.failed))
    else answerRead s' n p r.data r.failed r.failedAt

/-- One line of a non-caching request has been served. -/
def ncLine (s : State) (id line va : Nat) : State :=
  match s.ncReqs.find? (fun r => r.id == id) with
  | none => s
  | some r =>
    let (ok, b, s) := ncAccess s r line va
    let (o, _, _) := r.part va
    let r := { r with lines := r.lines.erase line, failed := if ok || r.failed != 0 then r.failed else stMedia
                      failedAt := if ok || (r.failed != 0 && r.failedAt ≤ o) then r.failedAt else o
                      data := if r.atomic.isSome then (if ok then b else r.data) else if r.isWrite then r.data else putBytes (padTo r.data r.len) o b }
    let s := updNc s id (fun _ => r)
    if r.lines.isEmpty then ncFinish s r else s

/-! ### The home (14 R334 to R336) -/

/-- The open transaction on a line. -/
def txnOn (s : State) (line : Nat) : Option Txn := s.txns.find? (fun t => t.line == line)
/-- Changes the transaction on a line. -/
def updTxn (s : State) (line : Nat) (f : Txn → Txn) : State := { s with txns := s.txns.map (fun t => if t.line == line then f t else t) }
/-- Closes the transaction on a line. -/
def closeTxn (s : State) (line : Nat) : State := { s with txns := s.txns.filter (fun t => t.line != line) }

/-- Open transactions that a slice holds (14 R328). -/
def sliceTxns : Nat := 512
/-- Requests that a slice's queue holds (14 R328). -/
def sliceQueue : Nat := 1024

/-- A slice can open another transaction. -/
def sliceOpen (s : State) (va : Nat) : Bool := (s.txns.filter (fun t => sliceOfVa t.va == sliceOfVa va)).length < sliceTxns
/-- The requests that stand in the slices' queues: the first 1,024 of each slice; the others wait for a place at their source, in
the order of their arrival (DEDUCED, log entry 113). -/
def queued (rs : List CohReq) : List CohReq :=
  rs.filter (fun r => ((rs.filter (fun x => sliceOfVa x.va == sliceOfVa r.va)).take sliceQueue).contains r)

/-- A slice's queue is full of waiting requests (14 R328). -/
def sliceFull (s : State) (va : Nat) : Bool := (s.cohQueue.filter (fun r => sliceOfVa r.va == sliceOfVa va)).length ≥ sliceQueue

/-- The snoop that a transaction sends. -/
def Txn.snoopOp (t : Txn) : Nat := match t.kind with | .rdShared | .read _ => 0x18 | _ => 0x19

/-- A snoop of a transaction goes out to an agent (14 R335; 18 R408). -/
def sendSnoop (s : State) (t : Txn) (a : Nat) : State :=
  let s := bump s .device 0 1 1
  let s := match s.agent? a with | some g => bump (s.updAgent a (fun g => { g with snoops := g.snoops + 1 })) .context g.ctx 15 1 | none => s
  askAgent s a t.snoopOp t.va (snoopWay s a t.line) [] (.snoop a t.line)

/-- A remote agent's session bears as many requests of the part as its WINDOW allows (12 R280). DEDUCED: the window W holds movers
back alone (12 R293; log entry 117). -/
def agentFull (s : State) (a : Nat) : Bool :=
  a < 64 && (s.agent? a).any (fun g => outstandingOn s g.session ≥ (s.session g.session).window)

/-- What a transaction asks of an agent: a snoop, or the offer of a stash. It waits while the agent's session is full. -/
def askFor (s : State) (t : Txn) (a : Nat) : State :=
  if agentFull s a then updTxn s t.line (fun x => { x with unsent := x.unsent ++ [a] })
  else match t.phase with
    | .sth => askAgent s a 0x1A t.va 0 (t.data.getD []) (.stashOffer a t.line)
    | _ => sendSnoop s t a

/-- Snoops and offers that waited for their agents' sessions go out, oldest transaction first. -/
def sendUnsent (s : State) : State :=
  s.txns.foldl (fun s t => t.unsent.foldl (fun s a =>
    if agentFull s a then s else askFor (updTxn s t.line (fun x => { x with unsent := x.unsent.erase a })) t a) s) s

/-- A snoop's data, or a WB's, is written to memory (14 R335). -/
def writeHome (s : State) (line : Nat) (b : Bytes) : State := writeLine s demand (line * 128) b

/-- Opens a transaction with snoops to agents. -/
def openTxn (s : State) (r : CohReq) (kind : TxnKind) (as : List Nat) (needMem : Bool) : State :=
  let t : Txn := { line := r.line, va := r.va, kind := kind, opcode := r.opcode, agent := r.agent, way := r.way, seq := r.seq, tag := r.tag, port := r.port, echo := r.echo, scheduled := r.scheduled, awaited := as
                   needMem := needMem, since := s.now }
  as.foldl (fun s a => askFor s t a) { s with txns := s.txns ++ [t] }

/-- A grant goes out, its entry is written, and COMP_ACK is awaited (14 R335, R336). -/
def grant (s : State) (t : Txn) (subop : Nat) (owned : Bool) (data : Bytes) : State :=
  let s := setEntry s t.agent t.va t.way t.line owned
  let s := updTxn s t.line (fun t => { t with phase := .ack, since := s.now, data := none })
  answerAgent s t.request stOk subop data

/-- The request of a transaction fails with MEDIA_ERROR: no entry, and the line is stable again (14 R336). -/
def mediaTxn (s : State) (t : Txn) : State := closeTxn (answerAgent s t.request stMedia 0 []) t.line

/-- The stash that a completed write of a line offers (14 R339). -/
def stashTarget (s : State) (id va : Nat) : Option Nat :=
  match s.ncReqs.find? (fun r => r.id == id) with
  | some r => r.stash.filter (fun a => (s.agent? a).any (fun g => g.ctx == r.ctx && g.dead.isNone
      && ((segmentAt s r.ctx va).any (fun x => g.mask.getLsbD x.1))) && r.failed == 0)
  | none => none

/-- Offers a line that has been written to an agent, and enters STH. -/
def offerStash (s : State) (t : Txn) (a : Nat) : State :=
  match readHome s t.line with
  | (some b, s) =>
    let t := { t with phase := .sth, agent := a, data := some b, since := s.now }
    askFor (updTxn (bump s .device 0 3 1) t.line (fun _ => t)) t a
  | (none, s) => closeTxn s t.line

/-- The last answer and the memory data are in (14 R336). -/
def completeTxn (s : State) (t : Txn) : State :=
  let live := (s.agent? t.agent).any (fun g => g.dead.isNone)
  match t.kind with
  | .rdShared =>
    if !live then closeTxn s t.line else
    match t.data with
    | none => mediaTxn s t
    | some d =>
      let alone := (holders s t.line).isEmpty
      grant s t (if alone then 2 else 1) alone d
  | .rdOwn =>
    if !live then closeTxn s t.line else
    match t.data with
    | none => mediaTxn s t
    | some d => grant s t 3 true d
  | .upgrade => if !live then closeTxn s t.line else grant s t 4 true []
  | .read id => closeTxn (ncLine s id t.line t.va) t.line
  | .write id =>
    let target := stashTarget s id t.va
    let s := ncLine s id t.line t.va
    match target with
    | some a => offerStash s t a
    | none => closeTxn s t.line

/-- The home of a line waits for a stopped stack controller (19 R435). -/
def homeHeld (s : State) (line : Nat) : Bool := accessHeld s true [(line * 128, 128)]

/-- Completes a transaction where nothing is outstanding. -/
def tryComplete (s : State) (line : Nat) : State :=
  match txnOn s line with
  | some t => if !homeHeld s line && t.phase = .snp && t.awaited.isEmpty && (t.memIn || !t.needMem) then completeTxn s t else s
  | none => s

/-- WB: written where the requester is recorded O at the named way, else discarded; WB_ACK (14 R335). -/
def serveWb (s : State) (r : CohReq) : State :=
  let s := if ownsAt s r.agent r.va r.way r.line then dropEntries (writeHome s r.line r.data) r.agent r.line else s
  answerAgent s r stOk 5 []

/-- A non-caching access from a stable state (14 R335): with nothing to snoop it acts at once. -/
def serveNc (s : State) (r : CohReq) (id : Nat) : State :=
  let isWrite := r.opcode != 0x01
  let as := if isWrite then holders s r.line else (lineOwner s r.line).toList
  let kind : TxnKind := if isWrite then .write id else .read id
  tryComplete (openTxn s r kind as false) r.line

/-- The home serves a request on a stable line (14 R335). -/
def serveOne (s : State) (r : CohReq) : State :=
  let s := bump s .device 0 0 1
  match r.nc with
  | some id => serveNc s r id
  | none =>
    match r.opcode with
    | 0x13 => serveWb s r
    | 0x10 =>
      let s := dropEntries s r.agent r.line
      openTxn s r .rdShared (lineOwner s r.line).toList true
    | 0x12 =>
      if (holders s r.line).contains r.agent && lineOwner s r.line != some r.agent then
        tryComplete (openTxn s r .upgrade ((holders s r.line).filter (· != r.agent)) false) r.line
      else
        let s := dropEntries s r.agent r.line
        openTxn s r .rdOwn (holders s r.line) true
    | _ =>
      let s := dropEntries s r.agent r.line
      openTxn s r .rdOwn (holders s r.line) true

/-- Serves waiting requests whose lines are stable, in arrival order; `n` bounds them (14 R334). -/
def pump : Nat → State → State
  | 0, s => s
  | n + 1, s =>
    match (queued s.cohQueue).find? (fun r => !homeHeld s r.line && (txnOn s r.line).isNone && sliceOpen s r.va) with
    | some r => pump n (serveOne { s with cohQueue := s.cohQueue.erase r } r)
    | none => s

/-- Serves what can be served, and sends what can be sent. -/
def serveQueued (s : State) : State := sendUnsent (pump s.cohQueue.length s)

/-- A request arrives at the home. -/
def arrive (s : State) (r : CohReq) : State := serveQueued { s with cohQueue := s.cohQueue ++ [r] }

/-! ### Starting non-caching accesses -/

/-- The data line and context-virtual address of every line that a checked range covers: its pieces from `va` upward. -/
def linesOf (va : Nat) : List (Nat × Nat) → List (Nat × Nat)
  | [] => []
  | (a, n) :: r => (List.range (lineSpan a n)).map (fun i => (a / 128 + i, va / 128 * 128 + 128 * i)) ++ linesOf (va + n) r

/-- Starts a non-caching request on its lines: one transaction each (14 R334). -/
def ncStart (s : State) (r : NcReq) (pieces : List (Nat × Nat)) : State :=
  let ls := linesOf r.va pieces
  let r := { r with id := s.free, lines := ls.map (·.1) }
  let s := { s with ncReqs := s.ncReqs ++ [r], free := s.free + 1 }
  let op := if r.isWrite then 0x02 else 0x01
  serveQueued { s with cohQueue := s.cohQueue ++ ls.map (fun l => { line := l.1, va := l.2, opcode := op, agent := 0xFF, way := 0, nc := some r.id }) }

/-! ### Requests from agents (14 R333) -/

/-- COHERENT (03 R69). -/
def needCoherent : Nat := 0x08

/-- The flags that a coherence request needs. -/
def cohNeed (op a : Nat) : Nat := needCoherent ||| (if op = 0x10 then needRead else needWrite) ||| (if a < 64 then needFabric else needEngine)

/-- Checks a coherence request's address (14 R333): its data line, or a status. -/
def cohCheck (s : State) (g : Agent) (a op va : Nat) : Nat × Nat :=
  match segCheck s g.ctx va 128 (cohNeed op a) with
  | .no st => (st, 0)
  | .ok ps slot _ => if g.mask.getLsbD slot then (stOk, (ps.head?.map (·.1)).getD 0 / 128) else (stDenied, 0)

/-- A coherence request from an agent. -/
def fromAgent (s : State) (g : Agent) (r : CohReq) : State :=
  let s := bump s .context g.ctx 14 1
  match cohCheck s g r.agent r.opcode r.va with
  | (0, line) => arrive s { r with line := line }
  | (st, _) => answerAgent (countRefusal s g.ctx st) r st 0 []

/-- Check 6 on a coherence request's frame (14 R331 to R333). -/
def cohFrameBad (g : Agent) (e : Eruno) : Bool :=
  e.arg 56 8 != 0 || e.arg 0 7 != 0 || e.arg 48 8 ≥ g.ways || e.subop != 0 || e.payload.length != (if e.op = 0x13 then 128 else 0) || e.noResponse || e.flag 7

/-- RD_SHARED, RD_OWN, UPGRADE or WB from a session. -/
def cohFrame (s : State) (r : InReq) : State :=
  match agentOfSession s r.i with
  | none => refuseEruno s r stDenied
  | some a =>
    match s.agent? a with
    | none => refuseEruno s r stDenied
    | some g =>
      if cohFrameBad g r.e then refuseEruno s r stBadArg else
      fromAgent s g { line := 0, va := r.e.arg 0 48, opcode := r.e.op, agent := a, way := r.e.arg 48 8, seq := r.e.seq, tag := r.e.tag, port := r.q, echo := r.e.flag 1, scheduled := r.e.flag 4, data := r.e.payload }

/-- The first crossbar message that passes a test leaves the crossbar, while the functional clocks run (17 R395). -/
def takeMsg (s : State) (want : XMsg → Bool) : Option (XMsg × State) :=
  if !s.clocked then none else (s.xbar.find? want).map (fun m => (m, { s with xbar := s.xbar.erase m }))

/-- A coherence request: from a port's session, or from a paddock's line cache. -/
def onCoh (s : State) (src : CohSource) (op : Nat) : Host.Outcome State Fault Refusal :=
  match src with
  | .port q => onRequest s q (fun e => e.op == op && !sliceFull s (e.arg 0 48)) cohFrame
  | .paddock p => .next (match takeMsg s (fun m => m.toHome && m.paddock == p && m.opcode == op) with
    | some (m, s) => match s.agent? (64 + p) with
      | some g => if g.dead.isSome then tally s .cohDiscard
        else fromAgent s g { line := 0, va := m.va, opcode := op, agent := 64 + p, way := m.way, data := m.data }
      | none => tally s .cohDiscard
    | none => s)

/-- RD_SHARED. -/
def execRdShared (src : CohSource) (s : State) : Host.Outcome State Fault Refusal := onCoh s src 0x10
/-- RD_OWN. -/
def execRdOwn (src : CohSource) (s : State) : Host.Outcome State Fault Refusal := onCoh s src 0x11
/-- UPGRADE. -/
def execUpgrade (src : CohSource) (s : State) : Host.Outcome State Fault Refusal := onCoh s src 0x12
/-- WB. -/
def execWb (src : CohSource) (s : State) : Host.Outcome State Fault Refusal := onCoh s src 0x13

/-- COMP_ACK from the grantee closes its transaction; any other is discarded and counted (14 R336). -/
def compAckFrom (s : State) (a va : Nat) : State :=
  match s.txns.find? (fun t => t.phase == .ack && t.agent == a && t.va == va) with
  | some t => serveQueued (closeTxn s t.line)
  | none => tally s .cohDiscard

/-- Check 6 on a COMP_ACK's frame (14 R331 to R333; 12 R277). -/
def ackFrameBad (g : Agent) (e : Eruno) : Bool :=
  !e.noResponse || e.flag 7 || e.arg 56 8 != 0 || e.arg 0 7 != 0 || e.arg 48 8 ≥ g.ways || e.subop != 0 || !e.payload.isEmpty

/-- COMP_ACK; on a session that bears no agent it is discarded and counted (14 R333). -/
def execCompAck (src : CohSource) (s : State) : Host.Outcome State Fault Refusal :=
  match src with
  | .port q => onRequest s q (fun e => e.op == 0x14) (fun s r =>
      match (agentOfSession s r.i).bind (fun a => (s.agent? a).map (fun g => (a, g))) with
      | some (a, g) => if ackFrameBad g r.e then refuseEruno s r stBadArg else compAckFrom s a (r.e.arg 0 48)
      | none => discardFrame s r.i)
  | .paddock p => .next (match takeMsg s (fun m => m.toHome && m.paddock == p && m.opcode == 0x14) with
    | some (m, s) => compAckFrom s (64 + p) m.va
    | none => s)

/-! ### Snoop and stash answers (14 R336) -/

/-- A snoop answer that no transaction awaits is discarded and counted. -/
def staleAnswer (s : State) (a : Nat) : State :=
  bump (tally (s.updAgent a (fun g => { g with stale := g.stale + 1 })) .cohDiscard) .device 0 2 1

/-- A snoop answer: its SUBOP and data. -/
def snoopAnswer (s : State) (a line subop : Nat) (data : Bytes) : State :=
  match txnOn s line with
  | none => staleAnswer s a
  | some t =>
    if t.phase != .snp || !t.awaited.contains a then staleAnswer s a else
    if homeHeld s line then s else
    let s := if subop = 0x12 || subop = 0x13 then updTxn (writeHome s line data) line (fun t => { t with data := some data }) else s
    let s := if subop = 0x11 || subop = 0x13 then setShared s a line else dropEntries s a line
    serveQueued (tryComplete (updTxn s line (fun t => { t with awaited := t.awaited.erase a })) line)

/-- A stash offer has been accepted into a way, or declined (14 R336). -/
def stashAnswer (s : State) (a line : Nat) (way : Option Nat) : State :=
  match txnOn s line with
  | none => tally s .cohDiscard
  | some t =>
    if t.phase != .sth || t.agent != a then tally s .cohDiscard else
    let s := match way, s.agent? a with
      | some w, some g => if w < g.ways then bump (setEntry s a t.va w line true) .device 0 4 1 else tally s .cohDiscard
      | _, _ => s
    serveQueued (closeTxn s line)

/-- A response that passes checks 1 and 2 of 12 R281. -/
def openResponse (s : State) (x : RxItem) (e : Eruno) : Option Eruno :=
  if !sessionMatches s e then none else if x.opened then some e else openFrame (s.session e.index) (segmentIndex s e) e

/-- A response arriving at the part: its session matches, its ICV checks, and an outstanding request bears its TAG
(12 R281). -/
def matchResponse (s : State) (x : RxItem) (e : Eruno) : Option (Outstanding × Eruno) :=
  match openResponse s x e with
  | none => none
  | some e => (s.outstanding.find? (fun o => o.session == e.index && o.tag == e.tag)).map (fun o => (o, markEcho e (e.flag 1 || x.frame.ce)))

/-- An outstanding request has its response, whose payload is counted (18 R408 SESSION 3). -/
def endOutstanding (s : State) (o : Outstanding) (e : Eruno) : State :=
  let s := bump s .session o.session 3 e.payload.length
  sendUnsent ({ s with outstanding := s.outstanding.erase o }.updSession o.session (·.onResponse s.now (e.flag 1)))

/-- A response that matches nothing is discarded and counted. -/
def strayResponse (s : State) (e : Eruno) : State := discardFrame (tally s .staleResponse) e.index

/-- An agent's answer that no outstanding request awaits: a snoop answer counts as stale at its agent (14 R336, R344). -/
def strayAnswer (s : State) (x : RxItem) (e : Eruno) : State :=
  match (if (e.op = 0x18 || e.op = 0x19) && (openResponse s x e).isSome then agentOfSession s e.index else none) with
  | some a => staleAnswer (strayResponse s e) a
  | none => strayResponse s e

/-- The line of the transaction that awaits a paddock's answer at an address (14 R336). -/
def awaitedLine (s : State) (a va : Nat) : Option Nat :=
  (s.txns.find? (fun t => t.va == va && (if t.phase == .sth then t.agent == a else t.awaited.contains a))).map (·.line)

/-- A row of an agent's answer frame with one SUBOP. -/
def onAnswer (s : State) (src : CohSource) (ops : List Nat) (subop : Nat) (act : State → Nat → Nat → Nat → Bytes → State) : Host.Outcome State Fault Refusal :=
  let withData := subop = 0x12 || subop = 0x13
  match src with
  | .port q =>
    onFrame s q (fun f => (erunoOf f).any (fun e => localEndpoint s e.dst && e.isResponse && !e.segmented && ops.contains e.op && e.subop.toNat == subop
        && e.status == 0 && e.payload.length == (if withData then 128 else 0)))
      (fun s x => match erunoOf x.frame with
        | none => s
        | some e => match matchResponse s x e with
          | none => strayAnswer s x e
          | some (o, r) => match o.kind, decide (ops.contains 0x1A) with
            | .snoop a line, false | .stashOffer a line, true => act (endOutstanding s o r) a line (r.arg 48 8) r.payload
            | _, _ => strayAnswer s x e)
  | .paddock p => .next (match takeMsg s (fun m => m.toHome && m.paddock == p && ops.contains m.opcode && m.subop == subop) with
    | some (m, s) => match awaitedLine s (64 + p) m.va with
      | some line => act s (64 + p) line m.way m.data
      | none => if ops.contains 0x1A then tally s .cohDiscard else staleAnswer s (64 + p)
    | none => s)

/-- RSP_I. -/
def execRspI (src : CohSource) (s : State) : Host.Outcome State Fault Refusal := onAnswer s src [0x18, 0x19] 0x10 (fun s a l _ d => snoopAnswer s a l 0x10 d)
/-- RSP_S. -/
def execRspS (src : CohSource) (s : State) : Host.Outcome State Fault Refusal := onAnswer s src [0x18, 0x19] 0x11 (fun s a l _ d => snoopAnswer s a l 0x11 d)
/-- RSP_DATA_I. -/
def execRspDataI (src : CohSource) (s : State) : Host.Outcome State Fault Refusal := onAnswer s src [0x18, 0x19] 0x12 (fun s a l _ d => snoopAnswer s a l 0x12 d)
/-- RSP_DATA_S. -/
def execRspDataS (src : CohSource) (s : State) : Host.Outcome State Fault Refusal := onAnswer s src [0x18, 0x19] 0x13 (fun s a l _ d => snoopAnswer s a l 0x13 d)
/-- ACCEPT. -/
def execAccept (src : CohSource) (s : State) : Host.Outcome State Fault Refusal := onAnswer s src [0x1A] 0x20 (fun s a l w _ => stashAnswer s a l (some w))
/-- DECLINE. -/
def execDecline (src : CohSource) (s : State) : Host.Outcome State Fault Refusal := onAnswer s src [0x1A] 0x21 (fun s a l _ _ => stashAnswer s a l none)

/-- HOME_MEMORY_DATA_IN (14 R336): data that a snoop has returned is newer and stays. -/
def execHomeMemoryDataIn (t : Nat) (line : Nat) (s : State) : Host.Outcome State Fault Refusal :=
  ticking t s (fun s => !homeHeld s line && (txnOn s line).any (fun x => x.phase == .snp && x.needMem && !x.memIn)) (fun s =>
    let (d, s) := readHome s line
    serveQueued (tryComplete (updTxn s line (fun x => { x with memIn := true, data := match x.data with | some b => some b | none => d })) line))

/-- The instant from which a transaction counts an agent's answer: that at which its request was issued, where it has been. -/
def askedAt (s : State) (t : Txn) (a : Nat) : Nat :=
  ((s.outstanding.find? (fun o => o.kind == .snoop a t.line || o.kind == .stashOffer a t.line)).map (·.issuedAt)).getD t.since

/-- The TIMEOUT of a remote agent's session has passed since an instant; a paddock agent has none. -/
def agentLate (s : State) (a since : Nat) : Bool :=
  match s.agent? a with
  | some g => a < 64 && since + (s.session g.session).timeoutNs ≤ s.now
  | none => false

/-- Forgets what the part awaits of an agent. -/
def forgetAgent (s : State) (a : Nat) (line : Option Nat) : State :=
  { s with outstanding := s.outstanding.filter (fun o => match o.kind with
      | .snoop b l | .stashOffer b l => !(b == a && (line == none || line == some l))
      | _ => true) }

/-- COMP_ACK_TIMEOUT (14 R336): the grantee's entry is kept. -/
def execCompAckTimeout (t : Nat) (line : Nat) (s : State) : Host.Outcome State Fault Refusal :=
  ticking t s (fun s => (txnOn s line).any (fun x => x.phase == .ack && agentLate s x.agent x.since)) (fun s => serveQueued (closeTxn s line))

/-- STASH_OFFER_TIMEOUT (14 R336): taken as DECLINE. -/
def execStashOfferTimeout (t : Nat) (line : Nat) (s : State) : Host.Outcome State Fault Refusal :=
  ticking t s (fun s => (txnOn s line).any (fun x => x.phase == .sth && x.unsent.isEmpty && agentLate s x.agent (askedAt s x x.agent)))
    (fun s => match txnOn s line with
      | some x => stashAnswer (forgetAgent s x.agent (some line)) x.agent line none
      | none => s)

/-! ### Agent death (14 R340 to R343) -/

/-- A transaction when an agent dies (14 R341): its own request gives no grant, its grant closes with its entry dropped, its
offer is declined, and its answers are taken as RSP_I. -/
def resolveTxn (s : State) (a line : Nat) : State :=
  match txnOn s line with
  | none => s
  | some t =>
    let own := t.agent == a
    match own, t.phase with
    | true, .ack | true, .sth => closeTxn s line
    | _, _ => tryComplete (updTxn s line (fun t => { t with agent := if own then 0xFF else t.agent, awaited := t.awaited.erase a, unsent := t.unsent.erase a })) line

/-- Forced resolution (14 R341), at the declaration. -/
def resolveAgent (s : State) (a : Nat) : State :=
  let ks := tkeys s.tally (fun k _ => keyAgent k == a)
  let owned := tkeys s.tally (fun k e => keyAgent k == a && e.owned)
  let s := s.updAgent a (fun g => { g with deadO := owned.length, deadS := ks.length - owned.length })
  let s := dropKeys (forgetAgent s a none) ks
  let s := { s with cohQueue := s.cohQueue.filter (fun r => r.agent != a), xbar := s.xbar.filter (fun m => m.paddock + 64 != a) }
  serveQueued (foldKeys (s.txns.map (·.line)) s (fun s l => resolveTxn s a l))

/-- A snoop still awaited for a line of an extent whose fence closes is taken as RSP_I (15 R351). -/
def endSnoops (s : State) (e : Nat) : State :=
  let ts := s.txns.filter (fun t => t.phase == .snp && t.line * 128 / 2 ^ 30 == e)
  let s := ts.foldl (fun s t => t.awaited.foldl (fun s a => forgetAgent s a (some t.line)) s) s
  serveQueued (foldKeys (ts.map (·.line)) s (fun s l => tryComplete (updTxn s l (fun t => { t with awaited := [], unsent := [] })) l))

/-- Declares an agent dead (14 R340). -/
def declareDead (s : State) (a cause : Nat) : State :=
  match s.agent? a with
  | some g => if g.dead.isSome then s else resolveAgent (s.updAgent a (fun g => { g with dead := some cause })) a
  | none => s

/-- DATA of an AGENT_DEAD event (14 R342). -/
def deadData (a : Nat) (g : Agent) (cause : Nat) : Bytes := natLe a 1 ++ natLe cause 1 ++ natLe g.deadO 4 ++ natLe g.deadS 4

/-- Resolution ends: AGENT_DEAD is written; a paddock agent of an engine reset keeps its registration with every way
invalid, and any other agent is gone (14 R342). -/
def resolutionDone (s : State) (a : Nat) (g : Agent) (cause : Nat) : State :=
  let d := deadData a g cause
  let s := logError (postCtx (postEvent s 0 0xD 1 g.ctx d) g.ctx 0xD 1 g.ctx d) 0x33 3 0xFF d
  let s := if a ≥ 64 then s.updEngine (a - 64) (fun e => { e with ways := [] }) else s
  if cause = 6 then s.updAgent a (fun g => { g with dead := none }) else { s with agents := tdel s.agents a }

/-- AGENT_RESOLUTION_DONE (14 R342). -/
def execAgentResolutionDone (t : Nat) (a : Fin 80) (s : State) : Host.Outcome State Fault Refusal :=
  ticking t s (fun s => (s.agent? a).any (fun g => g.dead.isSome)) (fun s => match s.agent? a with
    | some g => match g.dead with
      | some cause => resolutionDone s a g cause
      | none => s
    | none => s)

/-- SNOOP_TIMEOUT: the agent is declared dead (14 R336, R340). -/
def execSnoopTimeout (t : Nat) (line : Nat) (a : Fin 80) (s : State) : Host.Outcome State Fault Refusal :=
  ticking t s (fun s => (txnOn s line).any (fun x => x.phase == .snp && x.awaited.contains a && !x.unsent.contains a && agentLate s a (askedAt s x a))) (fun s => declareDead s a 3)

/-- A remote agent's lease has run out. -/
def agentLeaseDue (s : State) (a : Nat) : Bool := a < 64 && (s.agent? a).any (fun g => g.dead.isNone && g.leaseStart + msNs g.leaseMs ≤ s.now)

/-- An expiry that is due is taken up before a command that bears on the agent (02 R53). -/
def agentFirst (q : Req) (s : State) : State := if agentLeaseDue s (q.arg 20 1) then declareDead s (q.arg 20 1) 2 else s

/-- AGENT_LEASE_EXPIRY (14 R326). -/
def execAgentLeaseExpiry (t : Nat) (a : Fin 64) (s : State) : Host.Outcome State Fault Refusal :=
  ticking t s (fun s => agentLeaseDue s a) (fun s => declareDead s a 2)

/-! ### The paddock line cache (14 R337) -/

/-- Ways of a paddock line cache (14 R327). -/
def cacheWays : Nat := 16
/-- log2 of the sets of a paddock's line cache (14 R327; 04 R86). -/
def cacheN (partition : Nat) : Nat := Nat.log2 (partition / 2048)

/-- The key of a way. -/
def wayKey (e : Engine) (va way : Nat) : Nat := setOf (cacheN e.partition) va * 16 + way
/-- The way that holds a line, in any state but I. -/
def wayOf (e : Engine) (va : Nat) : Option (Nat × Way) := e.ways.find? (fun w => w.2.va == va)

/-- Sends a message of a paddock's line cache to the home. -/
def toHome (s : State) (p op subop va way : Nat) (data : Bytes := []) : State :=
  { s with xbar := s.xbar ++ [{ toHome := true, paddock := p, opcode := op, subop := subop, va := va, way := way, data := data }] }

/-- Sets a way's state. -/
def setWay (s : State) (p k : Nat) (f : Way → Way) : State :=
  s.updEngine p (fun e => match tget? e.ways k with | some w => { e with ways := tput e.ways k (f w) } | none => e)
/-- A way goes to I. -/
def freeWay (s : State) (p k : Nat) : State := s.updEngine p (fun e => { e with ways := tdel e.ways k })

/-- The extent of a data line. -/
def lineExtent (line : Nat) : Nat := line * 128 / 2 ^ 30

/-- An address of a paddock's context still maps to the extent of a line that the home has sent: neither a fence nor a SEGMENT_SET has come
between (14 R338). -/
def lineCurrent (s : State) (p va line : Nat) : Bool :=
  (s.agent? (64 + p)).any (fun g => (segmentAt s g.ctx va).any (fun x =>
    (x.2.list[(va - x.2.base) / 2 ^ 30]?).any (fun y => !y.void && y.extent == lineExtent line)))

/-- A grant at a paddock line cache: in a state that awaits it, COMP_ACK and a new state; in any other it is discarded and
counted. One of an extent that the context has lost meanwhile leaves the way in I (14 R338). -/
def onGrant (s : State) (p : Nat) (subop : Nat) (act : LineState → Option LineState) : Host.Outcome State Fault Refusal :=
  .next (match takeMsg s (fun m => !m.toHome && m.paddock == p && m.opcode ≤ 0x12 && m.subop == subop) with
    | none => s
    | some (m, s) =>
      let k := wayKey (s.engine p) m.va m.way
      match tget? (s.engine p).ways k with
      | some w => match (if w.va == m.va then act w.st else none) with
        | some st =>
          let s := if lineCurrent s p m.va m.line then
              setWay s p k (fun w => { w with st := st, extent := some (lineExtent m.line), data := if m.data.isEmpty then w.data else m.data })
            else freeWay s p k
          toHome s p 0x14 0 m.va m.way
        | none => tally s .cohDiscard
      | none => tally s .cohDiscard)

/-- DATA_S. -/
def execDataS (p : Fin 16) (s : State) : Host.Outcome State Fault Refusal := onGrant s p 1 (fun st => if st = .isD then some .s else none)
/-- DATA_E. -/
def execDataE (p : Fin 16) (s : State) : Host.Outcome State Fault Refusal := onGrant s p 2 (fun st => if st = .isD then some .e else none)
/-- DATA_M. -/
def execDataM (p : Fin 16) (s : State) : Host.Outcome State Fault Refusal := onGrant s p 3 (fun st => if st = .imD || st = .smA then some .m else none)
/-- GRANT_M. -/
def execGrantM (p : Fin 16) (s : State) : Host.Outcome State Fault Refusal := onGrant s p 4 (fun st => if st = .smA then some .m else none)

/-- WB_ACK: MI_A and II_A go to I. -/
def execWbAck (p : Fin 16) (s : State) : Host.Outcome State Fault Refusal :=
  .next (match takeMsg s (fun m => !m.toHome && m.paddock == p && m.opcode == 0x13 && m.subop == 5) with
    | none => s
    | some (m, s) => match wayOf (s.engine p) m.va with
      | some (k, w) => if w.st == .miA || w.st == .iiA then freeWay s p k else tally s .cohDiscard
      | none => tally s .cohDiscard)

/-- What a way answers to SNP_SHARED: SUBOP, whether with data, and its next state. -/
def snpShared : LineState → Nat × Bool × Option LineState
  | .s => (0x11, false, some .s)
  | .e => (0x11, false, some .s)
  | .m => (0x13, true, some .s)
  | .isD => (0x10, false, some .isD)
  | .imD => (0x10, false, some .imD)
  | .smA => (0x11, false, some .smA)
  | .miA => (0x12, true, some .iiA)
  | .iiA => (0x10, false, some .iiA)

/-- What a way answers to SNP_INV. -/
def snpInv : LineState → Nat × Bool × Option LineState
  | .s => (0x10, false, none)
  | .e => (0x10, false, none)
  | .m => (0x12, true, none)
  | .isD => (0x10, false, some .isD)
  | .imD => (0x10, false, some .imD)
  | .smA => (0x10, false, some .imD)
  | .miA => (0x12, true, some .iiA)
  | .iiA => (0x10, false, some .iiA)

/-- A snoop at a paddock line cache. -/
def onSnoop (s : State) (p op : Nat) (table : LineState → Nat × Bool × Option LineState) : Host.Outcome State Fault Refusal :=
  .next (match takeMsg s (fun m => !m.toHome && m.paddock == p && m.opcode == op) with
    | none => s
    | some (m, s) => match wayOf (s.engine p) m.va with
      | none => toHome s p op 0x10 m.va m.way
      | some (k, w) =>
        let (subop, withData, next) := table w.st
        let s := toHome s p op subop m.va m.way (if withData then w.data else [])
        match next with
        | some st => setWay s p k (fun w => { w with st := st })
        | none => freeWay s p k)

/-- SNP_SHARED. -/
def execSnpShared (p : Fin 16) (s : State) : Host.Outcome State Fault Refusal := onSnoop s p 0x18 snpShared
/-- SNP_INV. -/
def execSnpInv (p : Fin 16) (s : State) : Host.Outcome State Fault Refusal := onSnoop s p 0x19 snpInv

/-- The ways of a line's set that a new line can take: those that are I or hold a clean line (14 R337). -/
def openWays (e : Engine) (va : Nat) : List Nat :=
  (List.range cacheWays).filter (fun w => match tget? e.ways (wayKey e va w) with
    | some x => x.st == .s || x.st == .e
    | none => true)

/-- STASH_FILL. -/
def execStashFill (p : Fin 16) (s : State) : Host.Outcome State Fault Refusal :=
  .next (match takeMsg s (fun m => !m.toHome && m.paddock == p && m.opcode == 0x1A) with
    | none => s
    | some (m, s) =>
      let e := s.engine p
      match (if (wayOf e m.va).isSome || e.partition = 0 || !lineCurrent s p m.va m.line then none else pick s.free (openWays e m.va)) with
      | some w => toHome ((drawn s).updEngine p (fun e => { e with ways := tput e.ways (wayKey e m.va w) { va := m.va, st := .e, extent := some (lineExtent m.line), data := m.data } })) p 0x1A 0x20 m.va w
      | none => toHome s p 0x1A 0x21 m.va 0)

/-! ### Commands (14 R344) -/

/-- Remote agents of a context. -/
def agentsOf (s : State) (c : Nat) : Nat := (s.agents.filter (fun e => e.1 < 64 && e.2.ctx == c)).length

/-- AGENT_LIMIT_SET. -/
def cmdAgentLimitSet : Cmd where
  op := 0x0701
  issuers := operatorOnly
  changes := always
  body := fun q s =>
    let c := q.arg 20 2
    match q.firstBad [(20, 3)] [(20, c > 1023), (22, q.arg 22 1 > 64)] with
    | some b => badAt b
    | none => match (s.ctx c).st with
      | .none => badState 1 1
      | .ending => badState 1 4
      | _ => .done (s.updCtx c (fun x => { x with agentLimit := q.arg 22 1 })) [] []

/-- AGENT_LIMIT_SET. -/
def execAgentLimitSet (m : Fin 1029) (s : State) : Host.Outcome State Fault Refusal := serve m cmdAgentLimitSet s

/-- A remote agent ID that is free (14 R326). -/
def freeAgent (s : State) : Option Nat := pick s.free ((List.range 64).filter (fun a => (s.agent? a).isNone))

/-- AGENT_REGISTER (14 R325, R326). -/
def cmdAgentRegister : Cmd where
  op := 0x0702
  issuers := tenantOnly
  body := fun q s =>
    let c := q.tenant
    let i := q.arg 20 2
    let mask := q.arg 22 1
    let n := q.arg 23 1
    let ways := q.arg 24 1
    let ms := q.arg 28 4
    let badSlots := (List.range 8).any (fun k => bit mask k && !((tget? (s.ctx c).segs k).any (·.coherent)))
    match q.firstBad [(20, 5), (28, 4)] [(22, mask = 0 || badSlots), (23, !(2 ≤ n && n ≤ 15)), (24, !(1 ≤ ways && ways ≤ 16) || 2 ^ n * ways * 128 > 4194304)
        , (28, !(ms = 0 || (100 ≤ ms && ms ≤ 60000)))] with
    | some b => badAt b
    | none =>
      if (s.session i).st != .opened || (s.session i).ctx != some c then denied
      else if s.agents.any (fun a => a.1 < 64 && a.2.session == i) then badAt 20
      else match freeAgent s with
        | none => noResource
        | some a =>
          if agentsOf s c ≥ (s.ctx c).agentLimit then noResource else
          let g : Agent := { ctx := c, session := i, mask := BitVec.ofNat 8 mask, n := n, ways := ways, leaseMs := if ms = 0 then 2000 else ms, leaseStart := s.now }
          .done { drawn s with agents := tput s.agents a g } (natLe a 1) []

/-- AGENT_REGISTER. -/
def execAgentRegister (m : Fin 1029) (s : State) : Host.Outcome State Fault Refusal := serve m cmdAgentRegister s

/-- A remote agent registered to the tenant's context. -/
def ownAgent (s : State) (q : Req) : Option Agent :=
  let a := q.arg 20 1
  if a < 64 then (s.agent? a).filter (fun g => g.ctx == q.tenant && g.dead.isNone) else none

/-- AGENT_DEREGISTER. -/
def cmdAgentDeregister : Cmd where
  op := 0x0703
  issuers := tenantOnly
  before := agentFirst
  body := fun q s =>
    match q.firstBad [(20, 1)] [(20, (ownAgent s q).isNone)] with
    | some b => badAt b
    | none =>
      let s := declareDead s (q.arg 20 1) 1
      .done s (natLe (((s.agent? (q.arg 20 1)).map (·.deadO)).getD 0) 4) []

/-- AGENT_DEREGISTER. -/
def execAgentDeregister (m : Fin 1029) (s : State) : Host.Outcome State Fault Refusal := serve m cmdAgentDeregister s

/-- ms until an agent's lease ends. -/
def agentLeft (s : State) (g : Agent) : Nat := (g.leaseStart + msNs g.leaseMs - s.now) / 1000000

/-- AGENT_RENEW. -/
def cmdAgentRenew : Cmd where
  op := 0x0704
  issuers := tenantOnly
  before := agentFirst
  body := fun q s =>
    match q.firstBad [(20, 1)] [(20, (ownAgent s q).isNone)], ownAgent s q with
    | some b, _ => badAt b
    | none, none => badAt 20
    | none, some g => .done (s.updAgent (q.arg 20 1) (fun g => { g with leaseStart := s.now })) (natLe g.leaseMs 4) []

/-- AGENT_RENEW. -/
def execAgentRenew (m : Fin 1029) (s : State) : Host.Outcome State Fault Refusal := serve m cmdAgentRenew s

/-- Entries that the tally holds for an agent: O and S. -/
def entryCounts (s : State) (a : Nat) : Nat × Nat :=
  let es := s.tally.filter (fun e => keyAgent e.1 == a)
  ((es.filter (fun e => e.2.owned)).length, (es.filter (fun e => !e.2.owned)).length)

/-- AGENT_STATUS. -/
def cmdAgentStatus : Cmd where
  op := 0x0705
  issuers := operatorTenant
  blocked := neverBlocked
  query := true
  before := agentFirst
  body := fun q s =>
    let a := q.arg 20 1
    let g := (s.agent? a).filter (fun g => q.ctx?.all (· == g.ctx))
    match q.firstBad [(20, 1)] [(20, tenantOnly q.party && g.isNone)] with
    | some b => badAt b
    | none =>
      let (o, sh) := entryCounts s a
      match g with
      | some g => .done s (natLe 1 1 ++ natLe g.n 1 ++ natLe g.ways 1 ++ natLe g.mask.toNat 1 ++ natLe o 4 ++ natLe sh 4 ++ natLe g.snoops 4 ++ natLe g.stale 4
          ++ natLe (if a < 64 then agentLeft s g else 0) 4) []
      | none => .done s [] []

/-- AGENT_STATUS. -/
def execAgentStatus (m : Fin 1029) (s : State) : Host.Outcome State Fault Refusal := serve m cmdAgentStatus s

/-- LOST_OWNED_READ. -/
def cmdLostOwnedRead : Cmd where
  op := 0x0706
  issuers := operatorTenant
  blocked := neverBlocked
  query := true
  body := fun q s =>
    let k := q.arg 20 1
    match q.firstBad [(20, 1), (22, 2)] [(20, k > 7), (22, !tenantOnly q.party && q.arg 22 2 > 1023)] with
    | some b => badAt b
    | none =>
      let c := if tenantOnly q.party then q.tenant else q.arg 22 2
      .done s (natLe (tgetD (s.ctx c).lostOwned 0 k) 8) []

/-- LOST_OWNED_READ. -/
def execLostOwnedRead (m : Fin 1029) (s : State) : Host.Outcome State Fault Refusal := serve m cmdLostOwnedRead s

end Sys2Proof.Machine
end

