-- ==== Sys2Proof/Machine/Image.lean ====
section
/-!
DEFINITION. The fields of a schedule image (07 R170 to R173, R185, R194 to R196).
-/

namespace Sys2Proof.Machine

open Sys2Proof

/-- An entry of the section directory (07 R171). -/
structure Sect where
  type : Nat
  paddock : Nat
  off : Nat
  len : Nat
deriving DecidableEq, Repr

/-- The directory entry at index `i`. -/
def sectAt (b : Bytes) (i : Nat) : Sect :=
  let o := 128 + 32 * i
  { type := field b o 2, paddock := field b (o + 2) 2, off := field b (o + 8) 8, len := field b (o + 16) 8 }

/-- SECTIONS. -/
def sectCount (b : Bytes) : Nat := field b 12 2
/-- The directory. -/
def sections (b : Bytes) : List Sect := (List.range (sectCount b)).map (sectAt b)
/-- The bytes of a section. -/
def Sect.bytes (b : Bytes) (x : Sect) : Bytes := (b.drop x.off).take x.len
/-- The section of a type that has no paddock, or none. -/
def sectOf (b : Bytes) (type : Nat) : Bytes := (((sections b).find? (fun x => x.type == type)).map (Sect.bytes b)).getD []
/-- The section of a type for a paddock. -/
def sectFor (b : Bytes) (type p : Nat) : Bytes := (((sections b).find? (fun x => x.type == type && x.paddock == p)).map (Sect.bytes b)).getD []
/-- The entries of a section of fixed entry size. -/
def entriesOf (b : Bytes) (size : Nat) : List Bytes := (List.range (b.length / size)).map (fun i => (b.drop (size * i)).take size)

/-- EPOCH. -/
def imageEpoch (b : Bytes) : Nat := field b 7 1
/-- CONTEXT. -/
def imageCtx (b : Bytes) : Nat := field b 8 2
/-- PADDOCKS. -/
def imagePaddockMask (b : Bytes) : Nat := field b 10 2
/-- The paddocks that an image uses. -/
def imagePaddocks (b : Bytes) : List Nat := (List.range 16).filter (bit (imagePaddockMask b) ·)
/-- ABORT_ON_TIME_LOSS. -/
def abortOnTimeLoss (b : Bytes) : Bool := bit (field b 14 2) 0
/-- ABORT_PROPAGATE. -/
def abortPropagate (b : Bytes) : Bool := bit (field b 14 2) 1
/-- ROUND_SEED. -/
def imageSeed (b : Bytes) : Nat := field b 16 8
/-- DOMAIN_TAG. -/
def domainTag (b : Bytes) : BitVec 64 := BitVec.ofNat 64 (field b 24 8)
/-- DEVICE_INDEX. -/
def deviceIndex (b : Bytes) : Nat := field b 32 2
/-- DEVICES. -/
def imageDevices (b : Bytes) : Nat := field b 34 2
/-- BELLWETHER. -/
def bellwether (b : Bytes) : Nat := field b 36 2
/-- START_LEAD. -/
def startLead (b : Bytes) : Nat := field b 40 4
/-- RELEASE_WAIT in ns. -/
def releaseWait (b : Bytes) : Nat := msNs (field b 44 2)
/-- COPIES. -/
def imageCopies (b : Bytes) : Nat := field b 46 1
/-- DIGEST. -/
def imageDigest (b : Bytes) : Bytes := (b.drop 64).take 32

/-- The SYNC section: objects with their initial values (07 R173). -/
def syncEntries (b : Bytes) : List (Nat × BitVec 32) := (entriesOf (sectOf b 4) 8).map (fun e => (field e 0 2, BitVec.ofNat 32 (field e 4 4)))
/-- The SEQUENCES section. -/
def seqNumbers (b : Bytes) : List Nat := (entriesOf (sectOf b 5) 2).map (fun e => field e 0 2)
/-- The PARTICIPANTS section: device index and session number. -/
def participants (b : Bytes) : List (Nat × BitVec 32) := (entriesOf (sectOf b 6) 8).map (fun e => (field e 0 2, BitVec.ofNat 32 (field e 4 4)))
/-- The session number of a participant. -/
def participantSession (b : Bytes) (i : Nat) : Option (BitVec 32) := ((participants b).find? (fun e => e.1 == i)).map (·.2)

/-- A REFRESH or RESERVE entry (07 R194, R195). -/
structure Window where
  mask : Nat
  offset : Nat
  period : Nat
  length : Nat
  share : Nat
deriving DecidableEq, Repr

/-- The windows of a section. -/
def windowsOf (b : Bytes) (type : Nat) : List Window :=
  (entriesOf (sectOf b type) 24).map (fun e => { mask := field e 0 2, offset := field e 2 6, period := field e 8 4, length := field e 12 4, share := field e 16 1 })

/-- The stacks that the windows of a section name. -/
def windowStacks (b : Bytes) (type : Nat) : List Nat := (List.range 16).filter (fun t => (windowsOf b type).any (fun w => bit w.mask t))

/-- A GATES section (07 R196): port, classes, offset, and the list's bytes. -/
structure GateSect where
  port : Nat
  classes : BitVec 8
  offset : Nat
  list : Bytes
deriving DecidableEq, Repr

/-- The GATES sections of an image. -/
def gateSects (b : Bytes) : List GateSect :=
  ((sections b).filter (fun x => x.type == 9)).map (fun x =>
    let g := x.bytes b
    { port := field g 0 1, classes := BitVec.ofNat 8 (field g 1 1), offset := field g 2 6, list := g.drop 8 })

/-- An image carries a section that makes it privileged (07 R174). -/
def imagePrivileged (b : Bytes) : Bool := (sections b).any (fun x => x.type == 7 || x.type == 8 || x.type == 9)

/-- A trigger (07 R185). -/
structure Trigger where
  offset : Nat
  period : Nat
  deadline : Nat
  abort : Bool
deriving DecidableEq, Repr

/-- Trigger `x` of a paddock's table. -/
def triggerOf (b : Bytes) (p x : Nat) : Option Trigger :=
  let t := sectFor b 2 p
  if 16 * x + 16 ≤ t.length then
    let e := (t.drop (16 * x)).take 16
    some { offset := field e 0 6, period := field e 6 4, deadline := field e 10 4, abort := bit (field e 14 1) 0 }
  else none

/-- The instant of an occurrence, modulo 2^64 (07 R186). -/
def Trigger.instant (g : Trigger) (t0 k : Nat) : Nat := (t0 + g.offset + k * g.period) % 2 ^ 64

/-- PARTITION of a paddock in bytes (07 R172; 04 R86). -/
def imagePartition (b : Bytes) (p : Nat) : Nat :=
  match field (sectFor b 3 p) 0 1 with
  | 1 => 524288
  | 2 => 1048576
  | 3 => 2097152
  | _ => 0

/-- The receive ranges of a paddock: base and size (07 R172). -/
def receiveRanges (b : Bytes) (p : Nat) : List (Nat × Nat) :=
  let x := sectFor b 3 p
  (List.range (field x 1 1)).map (fun i => (field x (8 + 8 * i) 3, field x (12 + 8 * i) 3))

/-- Bundles in a paddock's stream. -/
def streamLen (b : Bytes) (p : Nat) : Nat := (sectFor b 1 p).length / 64
/-- The image byte offset of a paddock's stream. -/
def streamOffset (b : Bytes) (p : Nat) : Nat := (((sections b).find? (fun x => x.type == 1 && x.paddock == p)).map (·.off)).getD 0
/-- A bundle of a paddock's stream. -/
def streamBundle (b : Bytes) (p i : Nat) : BitVec 512 := BitVec.ofNat 512 (field (sectFor b 1 p) (64 * i) 64)

/-- The image of a loaded schedule, where it is loaded. -/
def imageOf (s : State) (n : Nat) : Bytes := ((s.sched? n).map (·.image)).getD []

/-- A loaded schedule declares a sync object of a range (07 R189). -/
def syncDeclared (s : State) (first count : Nat) : Bool :=
  s.scheds.any (fun x => (syncEntries x.2.image).any (fun e => first ≤ e.1 && e.1 < first + count))
/-- A loaded schedule declares a sequence of a range (07 R198). -/
def seqDeclared (s : State) (first count : Nat) : Bool :=
  s.scheds.any (fun x => (seqNumbers x.2.image).any (fun e => first ≤ e && e < first + count))

end Sys2Proof.Machine
end

