-- ==== Sys2Proof/Machine/Sync.lean ====
section
/-!
DEFINITION. Sync objects and the sequence table (07 R189 to R191, R198, R200).
-/

namespace Sys2Proof.Machine

open Sys2Proof

/-- The largest value of a sync object. -/
def syncMax : Nat := 2 ^ 32 - 1

/-- Signal: adds an amount, saturating, and sets SYNC_SATURATED of the owner where it saturates (07 R190; 00 R11). -/
def syncSignal (s : State) (i n : Nat) : State :=
  let x := s.syncObj i
  let v := x.value.toNat + n
  let s := s.updSync i (fun x => { x with value := BitVec.ofNat 32 (min v syncMax) })
  match (if v > syncMax then x.owner else none) with
  | some c => bump (s.updCtx c (fun k => { k with syncSaturated := true, syncSaturatedCnt := k.syncSaturatedCnt + 1 })) .context c 13 1
  | none => s

/-- Reset: sets the counter to 0. -/
def syncReset (s : State) (i : Nat) : State := s.updSync i (fun x => { x with value := 0 })

/-- A sync object belongs to a context. -/
def ownsSync (s : State) (c i : Nat) : Bool := (s.syncObj i).owner == some c

/-- The objects of a range. -/
def idRange (q : Req) : List Nat := rangeFrom (q.arg 20 2) (q.arg 22 2)

/-- Sync objects that a context owns. -/
def syncOwned (s : State) (c : Nat) : Nat := (tkeys s.sync (fun _ x => x.owner == some c)).length

/-- SYNC_ALLOC. -/
def cmdSyncAlloc : Cmd where
  op := 0x0408
  issuers := tenantOnly
  body := fun q s =>
    let c := q.tenant
    let n := q.arg 22 2
    match q.firstBad [(20, 4)] [(22, !(1 ≤ n && n ≤ 16384)), (20, q.arg 20 2 + n > 65536)] with
    | some b => badAt b
    | none =>
      if (idRange q).any (fun i => (s.syncObj i).owner.isSome) || syncOwned s c + n > (s.ctx c).syncLimit then noResource
      else .done (foldKeys (idRange q) s (fun s i => s.updSync i (fun x => { x with owner := some c }))) [] []

/-- SYNC_ALLOC. -/
def execSyncAlloc (m : Fin 1029) (s : State) : Host.Outcome State Fault Refusal := serve m cmdSyncAlloc s

/-- SYNC_FREE. -/
def cmdSyncFree : Cmd where
  op := 0x0409
  issuers := tenantOnly
  body := fun q s =>
    let n := q.arg 22 2
    match q.firstBad [(20, 4)] [(22, !(1 ≤ n && n ≤ 16384)), (20, q.arg 20 2 + n > 65536)] with
    | some b => badAt b
    | none =>
      if (idRange q).any (fun i => !ownsSync s q.tenant i) then denied
      else if syncDeclared s (q.arg 20 2) n then busy
      else .done (foldKeys (idRange q) s (fun s i => s.updSync i (fun x => { x with owner := none }))) [] []

/-- SYNC_FREE. -/
def execSyncFree (m : Fin 1029) (s : State) : Host.Outcome State Fault Refusal := serve m cmdSyncFree s

/-- SYNC_OP, by its operation. -/
def cmdSyncOp (form : Req → Bool) (act : Nat → Nat → State → State) : Cmd where
  op := 0x040A
  issuers := tenantOnly
  form := form
  blocked := neverBlocked
  body := fun q s =>
    let i := q.arg 20 2
    match q.firstBad [(20, 3), (24, 4)] [(22, q.arg 22 1 > 2)] with
    | some b => badAt b
    | none =>
      if !ownsSync s q.tenant i then denied else
      let s := act i (q.arg 24 4) s
      .done s (natLe (s.syncObj i).value.toNat 4) []

/-- SYNC_OP_READ; it also answers an operation that is none of the three. -/
def execSyncOpRead (m : Fin 1029) (s : State) : Host.Outcome State Fault Refusal :=
  serve m (cmdSyncOp (fun q => q.arg 22 1 != 1 && q.arg 22 1 != 2) (fun _ _ s => s)) s
/-- SYNC_OP_SIGNAL. -/
def execSyncOpSignal (m : Fin 1029) (s : State) : Host.Outcome State Fault Refusal :=
  serve m (cmdSyncOp (fun q => q.arg 22 1 == 1) (fun i n s => syncSignal s i n)) s
/-- SYNC_OP_RESET. -/
def execSyncOpReset (m : Fin 1029) (s : State) : Host.Outcome State Fault Refusal :=
  serve m (cmdSyncOp (fun q => q.arg 22 1 == 2) (fun i _ s => syncReset s i)) s

/-- Sequence-table entries (06 R138). -/
def seqMax : Nat := 4096

/-- SEQ_ASSIGN (07 R198). -/
def cmdSeqAssign : Cmd where
  op := 0x040B
  issuers := tenantOnly
  body := fun q s =>
    let n := q.arg 22 2
    match q.firstBad [(20, 4)] [(22, !(1 ≤ n && n ≤ seqMax)), (20, q.arg 20 2 + n > seqMax)] with
    | some b => badAt b
    | none =>
      if (idRange q).any (fun i => (s.seqEntry i).owner.isSome) then noResource
      else .done (foldKeys (idRange q) s (fun s i => s.updSeq i (fun _ => { owner := some q.tenant, n := 0 }))) [] []

/-- SEQ_ASSIGN. -/
def execSeqAssign (m : Fin 1029) (s : State) : Host.Outcome State Fault Refusal := serve m cmdSeqAssign s

/-- SEQ_RELEASE (07 R198). -/
def cmdSeqRelease : Cmd where
  op := 0x040C
  issuers := tenantOnly
  body := fun q s =>
    let n := q.arg 22 2
    match q.firstBad [(20, 4)] [(22, !(1 ≤ n && n ≤ seqMax)), (20, q.arg 20 2 + n > seqMax)] with
    | some b => badAt b
    | none =>
      if (idRange q).any (fun i => (s.seqEntry i).owner != some q.tenant) then denied
      else if seqDeclared s (q.arg 20 2) n then busy
      else .done (foldKeys (idRange q) s (fun s i => s.updSeq i (fun _ => {}))) [] []

/-- SEQ_RELEASE. -/
def execSeqRelease (m : Fin 1029) (s : State) : Host.Outcome State Fault Refusal := serve m cmdSeqRelease s

/-- SEQ_READ (07 R198). -/
def cmdSeqRead : Cmd where
  op := 0x040D
  issuers := tenantOnly
  blocked := neverBlocked
  query := true
  body := fun q s =>
    let i := q.arg 20 2
    match q.firstBad [(20, 2)] [(20, i ≥ seqMax)] with
    | some b => badAt b
    | none => if (s.seqEntry i).owner != some q.tenant then denied else .done s (natLe (s.seqEntry i).n 4) []

/-- SEQ_READ. -/
def execSeqRead (m : Fin 1029) (s : State) : Host.Outcome State Fault Refusal := serve m cmdSeqRead s

end Sys2Proof.Machine
end

