-- ==== Sys2Proof/Machine/SchedStop.lean ====
section
/-!
DEFINITION. Occurrences and lateness, stopping and removing a schedule, start records on their way, and engine resets
(07 R179, R180, R182 to R188; 17 R388, R390, R391).
-/

namespace Sys2Proof.Machine

open Sys2Proof

/-! ### Occurrences (07 R185 to R188) -/

/-- A schedule is ARMED or RUNNING. -/
def SchedState.live (x : SchedState) : Bool := x == .armed || x == .running

/-- The deadline instant of occurrence `k` of a trigger; none without a deadline. -/
def deadlineOf (x : Sched) (p i k : Nat) : Option Nat :=
  match triggerOf x.image p i, x.t0 with
  | some g, some t0 => if g.deadline = 0 then none else some ((g.instant t0 k + g.deadline) % 2 ^ 64)
  | _, _ => none

/-- DATA of a SCHEDULE_LATE (07 R184). -/
def lateData (p i k late : Nat) (stopped : Bool) : Bytes := natLe i 2 ++ natLe p 1 ++ natLe (b2n stopped 0) 1 ++ natLe k 4 ++ natLe (min late (2 ^ 32 - 1)) 4

/-- A late occurrence is counted, traced, and reported at most once per trigger and accounting period (07 R187, R188). -/
def reportLate (s : State) (n p i k late : Nat) (stopped : Bool) : State :=
  match s.sched? n with
  | none => s
  | some x =>
    let d := lateData p i k late stopped
    let s := bump (bumpMax (bump s .schedule n 2 1) .schedule n 3 late) .schedule n 4 late
    let s := s.updSched n (fun x => { x with late := x.late + 1 })
    let s := trace s 2 (0x10 + p) (some x.ctx) (s.ctOf p) (d ++ natLe n 1)
    if tget? x.lateEvents (p * 65536 + i) = some s.dev.lastBoundary then s else
    let s := s.updSched n (fun x => { x with lateEvents := tput x.lateEvents (p * 65536 + i) s.dev.lastBoundary })
    postCtx s x.ctx 5 5 n d stLate

/-- Occurrence `k` of trigger `i` on paddock `p` ends (07 R186, R187). -/
def endOccurrence (s : State) (p i k : Nat) : State :=
  let s := s.updEngine p (fun e => { e with triggers := tupd e.triggers {} i (fun o => { o with open_ := o.open_.filter (fun x => x.1 != k) }) })
  match (s.engine p).sched with
  | none => s
  | some n => match s.sched? n with
    | none => s
    | some x =>
      let s := bump s .schedule n 1 1
      match (if x.st == .running then deadlineOf x p i k else none) with
      | some d => if s.ctOf p > d then reportLate s n p i k (s.ctOf p - d) false else s
      | none => s

/-- The occurrences of a trigger that have not ended: the open ones and the current one. -/
def openOccs (e : Engine) (i : Nat) : List Nat :=
  let o := tgetD e.triggers {} i
  let ks := o.open_.map (·.1)
  if ks.contains o.k then ks else ks ++ [o.k]

/-- Reports the late occurrences of a paddock that a stop leaves without an end; `abort` is the one whose deadline stops
the schedule. -/
def lateAtStop (s : State) (n p : Nat) (abort : Option (Nat × Nat × Nat)) : State :=
  match s.sched? n with
  | none => s
  | some x =>
    foldRange 0 ((sectFor x.image 2 p).length / 16) s (fun s i =>
      (openOccs (s.engine p) i).foldl (fun s k =>
        match deadlineOf x p i k with
        | some d => if s.ctOf p > d || abort == some (p, i, k) then reportLate s n p i k (s.ctOf p - d) true else s
        | none => s) s)

/-! ### Start records (07 R179, R180) -/

/-- The 32 bytes of a start record. -/
def StartCopy.bytes (x : StartCopy) : Bytes :=
  natLe x.kind 1 ++ natLe 0 1 ++ natLe x.sender 2 ++ natLe 0 4 ++ natLe x.tag.toNat 8 ++ natLe x.t0 8 ++ natLe x.reason 2 ++ natLe 0 6

/-- Sends one copy on its session, where that session is OPEN under its generation. -/
def sendCopy (s : State) (x : StartCopy) : State :=
  let i := x.session.toNat % 65536
  if (s.session i).gen.toNat = x.session.toNat / 65536 then (sendOneWay s i 0x31 0x210 0 0 x.bytes).2 else s

/-- Sends the first copy of a record and keeps the others for later. -/
def startCopies (s : State) (x : StartCopy) : State :=
  let s := sendCopy s x
  if x.left ≤ 1 then s else { s with startCopies := s.startCopies ++ [{ x with left := x.left - 1, last := s.now }] }

/-- Sends a record to participants of a schedule. -/
def sendRecords (s : State) (n : Nat) (kind t0 reason : Nat) (gs : List (BitVec 32)) : State :=
  let b := imageOf s n
  gs.foldl (fun s g => startCopies s { sched := n, session := g, kind := kind, sender := deviceIndex b, tag := domainTag b, t0 := t0, reason := reason
                                       left := imageCopies b, last := s.now }) s

/-- The sessions of every participant but this device. -/
def otherParticipants (b : Bytes) : List (BitVec 32) := ((participants b).filter (fun e => e.1 != deviceIndex b)).map (·.2)

/-- START_RECORD_COPY_TIMER: copies leave 1 µs apart (07 R179). -/
def execStartRecordCopyTimer (t : Nat) (s : State) : Host.Outcome State Fault Refusal :=
  timed t s (fun s => s.clocked && s.startCopies.any (fun x => x.last + usNs 1 ≤ s.now)) (fun s =>
    let now := s.now
    let due (x : StartCopy) : Bool := x.last + usNs 1 ≤ now
    let s' := { s with startCopies := (s.startCopies.map (fun x => if due x then { x with left := x.left - 1, last := now } else x)).filter (fun x => x.left != 0) }
    (s.startCopies.filter due).foldl sendCopy s')

/-! ### Stopping (07 R182, R183) -/

/-- Why a schedule stops: the fields of SCHEDULE_ABORTED. -/
structure Stop where
  reason : Nat
  status : Nat
  paddock : Nat := 0xFF
  bundle : Nat := 0
  fault : Nat := 0
  trigger : Nat := 0xFFFF
  sender : Nat := 0xFFFF
  abort : Option (Nat × Nat × Nat) := none

/-- DATA of a SCHEDULE_ABORTED (07 R184). -/
def Stop.data (x : Stop) : Bytes :=
  natLe x.reason 1 ++ natLe x.paddock 1 ++ natLe x.bundle 2 ++ natLe x.fault 1 ++ natLe 0 1 ++ natLe x.trigger 2 ++ natLe x.status 2 ++ natLe x.sender 2

/-- Issue stops on a paddock, and descriptors that have not started are discarded (04 R102). -/
def stopEngine (s : State) (p : Nat) : State :=
  s.updEngine p (fun e => { e with issuing := false, movers := tmap e.movers (fun _ m => { m with queue := m.queue.take 1 }) })

/-- The refresh windows, reservations and gate lists of a schedule end (07 R183, R194 to R196). -/
def endWindows (s : State) (n : Nat) : State :=
  let b := imageOf s n
  let ts := windowStacks b 7 ++ windowStacks b 8
  let s := foldKeys ts.dedup s (fun s t => s.updStack t (fun x => { x with reserved := none, preT0 := false }))
  { s with ports := tmap s.ports (fun _ p => if p.schedGates.any (fun g => g.sched == some n) then { p with schedGates := none } else p) }

/-- The paddocks on which a schedule is armed or was armed last. -/
def schedEngines (s : State) (n : Nat) : List Nat := tkeys s.engines (fun _ e => e.sched == some n)

/-- A schedule enters STOPPED from ARMED or RUNNING (07 R183, R184). -/
def stopWith (s : State) (n : Nat) (x : Stop) : State :=
  match s.sched? n with
  | none => s
  | some g =>
    if !g.st.live then s else
    let b := g.image
    let s := if g.st == .running then foldKeys (schedEngines s n) s (fun s p => lateAtStop s n p x.abort) else s
    let s := endWindows (foldKeys (schedEngines s n) s stopEngine) n
    let s := s.updSched n (fun g => { g with st := .stopped, reason := x.reason, paddock := x.paddock, bundle := x.bundle, fault := x.fault, status := x.status })
    let s := { s with startCopies := s.startCopies.filter (fun c => c.sched != n) }
    let s := postCtx s g.ctx 7 5 n x.data x.status
    if (abortPropagate b && x.reason != 5) || (x.reason = 6 && bellwether b = deviceIndex b) then sendRecords s n 3 0 x.reason (otherParticipants b) else s

/-- The event status of a stop reason where no fault or sender gives one (07 R183). -/
def stopStatus : Nat → Nat
  | 1 => stOk
  | 2 => stLate
  | 6 => stTimeout
  | 7 => stLate
  | 9 => stLease
  | _ => stFault

/-- Stops a schedule for a reason that names no paddock. -/
def stopSched (s : State) (n reason : Nat) : State := stopWith s n { reason := reason, status := stopStatus reason }

/-- A schedule is removed: its number is free and its image gone; its paddocks are released, and the copies of an ABORT
still leave (04 R86, R102; 07 R182, R183; 14 R340). -/
def removeSched (s : State) (n : Nat) : State :=
  let ps := schedEngines s n
  let s := foldKeys ps s (fun s p => declareDead s (64 + p) 7)
  let s := foldKeys ps s (fun s p => s.updEngine p (fun e => { e with sched := none, issuing := false, halted := false, fault := none, partition := 0 }))
  { s with scheds := tdel s.scheds n, startCopies := s.startCopies.filter (fun c => c.sched != n || c.kind == 3) }

/-! ### Idle engines -/

/-- Every mover, Prism, Lens and the vector unit of an engine are idle. -/
def Engine.idle (e : Engine) : Bool := e.movers.all (fun m => m.2.queue.isEmpty) && e.prism.isEmpty

/-- A paddock is free for another schedule: no live schedule is on it, its engine is idle, and no reset is under way
(04 R87; 07 R176, R183). -/
def paddockFree (s : State) (n p : Nat) : Bool :=
  let e := s.engine p
  e.idle && e.reset.isNone && (match e.sched with
    | some k => k == n || !((s.sched? k).any (fun x => x.st.live))
    | none => true)

/-! ### Engine resets (17 R390, R391) -/

/-- A request kind after the engine that made it was reset: its answer is dropped. -/
def OutKind.orphan (p : Nat) : OutKind → OutKind
  | .hostRead p' mv st len pg k => .hostRead (if p' = p then 16 else p') mv st len pg k
  | .hostWrite p' mv len pg k => .hostWrite (if p' = p then 16 else p') mv len pg k
  | .translate p' mv pg w => if p' = p then .translate 16 mv pg w else .translate p' mv pg w
  | .pageRequest p' mv pg => if p' = p then .pageRequest 16 mv pg else .pageRequest p' mv pg
  | k => k

/-- An engine made a non-caching request. -/
def NcReq.isOf (r : NcReq) (p : Nat) : Bool := match r.owner with | .mover p' _ => p' == p | .lens p' => p' == p | _ => false

/-- Frames of a paddock's movers that stand in port queues no longer hold a descriptor back, nor fail one when they are discarded:
the reset has discarded the descriptors that sent them (04 R92, R448; 17 R390). -/
def unmarkFrames (s : State) (p : Nat) : State :=
  { s with ports := tmap s.ports (fun _ x => { x with classes := tmap x.classes (fun _ c =>
      { c with queue := c.queue.map (fun y => if y.mover.any (·.1 == p) then { y with mover := none } else y) }) }) }

/-- The requests of an engine that no home has accepted are discarded at its local switch; accepted ones complete there
and their answers are dropped (17 R390). -/
def orphanRequests (s : State) (p : Nat) : State :=
  let mine := (s.ncReqs.filter (·.isOf p)).map (·.id)
  let accepted (r : NcReq) : List Nat := (s.txns.filter (fun t => match t.kind with | .read i | .write i => i == r.id | _ => false)).map (·.line)
  { s with cohQueue := s.cohQueue.filter (fun r => !(r.nc.any (fun i => mine.contains i)))
           ncReqs := (s.ncReqs.map (fun r => if r.isOf p then { r with owner := .mover 16 0, lines := accepted r } else r)).filter
             (fun r => !(mine.contains r.id && r.lines.isEmpty))
           outstanding := s.outstanding.map (fun o => { o with kind := o.kind.orphan p }) }

/-- An engine reset begins; a further trigger changes nothing (17 R390, R402). -/
def beginEngineReset (s : State) (p cause extent array : Nat) : State :=
  let e := s.engine p
  if e.reset.isSome then s else
  let n := e.sched
  let s := match n with
    | some n => stopWith s n { reason := 4, status := stFault, paddock := p }
    | none => s
  let s := unmarkFrames (orphanRequests s p) p
  let s := s.updEngine p (fun e =>
    { e with issuing := false, movers := tmap e.movers (fun _ m => { m with queue := [], stream := [], streamFail := none }), prism := [], overlays := []
             refusedLines := [], reset := some { cause := cause, extent := extent, array := array, since := s.now, sched := n, ctx := (n.bind s.sched?).map (·.ctx) } })
  declareDead s (64 + p) 6

/-- DATA of an ENGINE_RESET event (17 R391). -/
def resetData (s : State) (p : Nat) (r : EngineReset) : Bytes :=
  natLe p 1 ++ natLe r.cause 1 ++ natLe r.extent 2 ++ natLe ((s.now - r.since) / 1000) 4 ++ natLe r.array 1

/-- An engine reset completes: the fault is cleared and the event written (17 R391; 04 R102; 18 R408 ENGINE 17). -/
def endEngineReset (s : State) (p : Nat) (r : EngineReset) : State :=
  let d := resetData s p r
  let s := bump (s.updEngine p (fun e => { e with reset := none, fault := none, halted := false })) .engine p 17 1
  let s := logError s 0x31 3 (0x10 + p) d
  let s := match r.sched with
    | some n =>
      let s := postEvent s 0 0xE 5 n d
      match r.ctx with
      | some c => postCtx s c 0xE 5 n d
      | none => s
    | none => postEvent s 0 0xE 8 p d
  match pendingOf s (fun q => q.opcode == 0x0B14 && q.objId == p) with
  | some q => finish s q stOk s.ct
  | none => s

/-- ENGINE_RESET_DONE: every unit is idle and the paddock's agent is resolved (17 R390). -/
def execEngineResetDone (t : Nat) (p : Fin 16) (s : State) : Host.Outcome State Fault Refusal :=
  timed t s (fun s => s.clocked && (s.engine p).reset.isSome && !((s.agent? (64 + p)).any (fun g => g.dead.isSome)))
    (fun s => match (s.engine p).reset with
      | some r => endEngineReset s p r
      | none => s)

end Sys2Proof.Machine
end

