-- ==== Sys2Proof/Machine/Engine.lean ====
section
/-!
DEFINITION. The engine's registers, store and accumulator file, its faults, the reset of its state at a start, and the
bookkeeping of occurrences and loops (04 R84 to R88, R101, R102, R447; 07 R185, R186).
-/

namespace Sys2Proof.Machine

open Sys2Proof

/-! ### Registers (04 R84) -/

/-- s register `i`; s0 reads 0. -/
def Engine.s (e : Engine) (i : Nat) : BitVec 64 := if i = 0 then 0 else tgetD e.sregs 0 i
/-- Writes s register `i`; writes to s0 are discarded. -/
def Engine.setS (e : Engine) (i : Nat) (v : BitVec 64) : Engine := if i = 0 then e else { e with sregs := tput e.sregs i v }
/-- a register `i`. -/
def Engine.a (e : Engine) (i : Nat) : AReg := tgetD e.aregs {} i
/-- Writes a register `i`. -/
def Engine.setA (e : Engine) (i : Nat) (v : AReg) : Engine := { e with aregs := tput e.aregs i v }
/-- Predicate `i`; p0 reads 1. -/
def Engine.p (e : Engine) (i : Nat) : Bool := i == 0 || tgetD e.preds false i
/-- Writes predicate `i`; writes to p0 are discarded. -/
def Engine.setP (e : Engine) (i : Nat) (v : Bool) : Engine := if i = 0 then e else { e with preds := tput e.preds i v }

/-- Lanes of a vector register. -/
def lanes : Nat := 512
/-- v register `i`: 512 lanes. -/
def Engine.v (e : Engine) (i : Nat) : List F32 := tgetD e.vregs (List.replicate lanes 0) i
/-- Writes v register `i`. -/
def Engine.setV (e : Engine) (i : Nat) (l : List F32) : Engine := { e with vregs := tput e.vregs i l }

/-- Mover `i`. -/
def Engine.mv (e : Engine) (i : Nat) : Mover := tgetD e.movers {} i
/-- Changes mover `i`. -/
def Engine.updMv (e : Engine) (i : Nat) (f : Mover → Mover) : Engine := { e with movers := tupd e.movers {} i f }

/-! ### Query rows (04 R84, R97, R447) -/

/-- Bytes of a query row. -/
def rowBytes : Nat := 16384
/-- Elements of a format that a query row holds (04 R97). -/
def rowCap (fmt : Nat) : Nat := if fmtBits fmt = 16 then 8192 else 16384
/-- `n` bytes of query row `r` from its start. -/
def Engine.row (e : Engine) (r n : Nat) : Bytes := mreadN e.qrows (r * rowBytes) n
/-- Writes bytes into a query row and raises its loaded length. -/
def Engine.loadRow (e : Engine) (r off : Nat) (b : Bytes) : Engine :=
  { e with qrows := mwriteN e.qrows (r * rowBytes + off) b, qlen := tupd e.qlen 0 r (max (off + b.length)) }

/-! ### The accumulator file -/

/-- Entries of the accumulator file. -/
def accSize : Nat := 65536
/-- `n` entries from `x`. -/
def Engine.accRead (e : Engine) (x n : Nat) : List F32 := (rangeFrom x n).map (fun i => tgetD e.acc 0 i)
/-- Writes entries from `x`. -/
def Engine.accWrite (e : Engine) (x : Nat) (l : List F32) : Engine := { e with acc := l.zipIdx.foldl (fun t v => tput t (x + v.2) v.1) e.acc }
/-- Entries [x, x + n) := +0. -/
def Engine.accClear (e : Engine) (x n : Nat) : Engine := { e with acc := tfilter e.acc (fun k _ => !(x ≤ k && k < x + n)) }

/-! ### The paddock store (04 R85, R86) -/

/-- The first store address that no program access may touch (04 R86). -/
def Engine.storeEnd (e : Engine) : Nat := 2 ^ 24 - e.partition
/-- `n` store bytes. -/
def Engine.load (e : Engine) (a n : Nat) : Bytes := mreadN e.store a n
/-- Writes store bytes. -/
def Engine.save (e : Engine) (a : Nat) (b : Bytes) : Engine := { e with store := mwriteN e.store a b }

/-- BRANCH_RANGE (04 R102). -/
abbrev flBranch : Nat := 0x01
/-- STORE_RANGE. -/
abbrev flStore : Nat := 0x02
/-- SPACE. -/
abbrev flSpace : Nat := 0x03
/-- ACC_RANGE. -/
abbrev flAcc : Nat := 0x04
/-- QROW_RANGE. -/
abbrev flQrow : Nat := 0x05
/-- DESCRIPTOR. -/
abbrev flDesc : Nat := 0x06
/-- SYNC_OWNER. -/
abbrev flOwner : Nat := 0x07
/-- MOVER_ERROR. -/
abbrev flMover : Nat := 0x08
/-- OVERLAY. -/
abbrev flOverlay : Nat := 0x09
/-- LOOP_DEPTH. -/
abbrev flLoop : Nat := 0x0A
/-- PASS_STREAM. -/
abbrev flStream : Nat := 0x0B

/-- A store range of `n` bytes at `addr`: 0, or STORE_RANGE. -/
def Engine.rangeFault (e : Engine) (addr n align : Nat) : Nat := if addr + n > e.storeEnd || addr % align != 0 then flStore else 0
/-- The store address aA + IMM. -/
def Engine.storeAddr (e : Engine) (a imm : Nat) : Nat := (e.a a).value.toNat + imm
/-- A store access of `n` bytes at aA + IMM: 0, SPACE or STORE_RANGE (04 R102). -/
def Engine.storeFault (e : Engine) (a imm n align : Nat) : Nat := if (e.a a).space then flSpace else e.rangeFault (e.storeAddr a imm) n align

/-- The first fault of a list, or 0. -/
def firstFault (l : List Nat) : Nat := (l.find? (· != 0)).getD 0
/-- A fault where a condition fails. -/
def faultUnless (ok : Bool) (code : Nat) : Nat := if ok then 0 else code

/-! ### The start of a schedule on an engine (04 R84, R101, R447; 05 R128; 07 R177) -/

/-- Bundles of instruction memory. -/
def imemSize : Nat := 16384

/-- The first bundles of a stream. -/
def firstBundles (b : Bytes) (p : Nat) : Tab (BitVec 512) :=
  (List.range (min imemSize (streamLen b p))).map (fun i => (i, streamBundle b p i))

/-- An engine armed with a schedule: its registers at 0, its first bundles in instruction memory, its partition set; its
store is kept, or cleared where the context changes (04 R87), and a fault that no engine reset and no unload has cleared stays (04
R102). -/
def Engine.armed (e : Engine) (n : Nat) (b : Bytes) (p : Nat) : Engine :=
  { sched := some n, imem := firstBundles b p, partition := imagePartition b p, lastCtx := some (imageCtx b)
    store := if e.lastCtx == some (imageCtx b) then e.store else [], fault := e.fault }

/-! ### Faults (04 R102) -/

/-- DATA of an engine fault (17 R386; 18 R414). -/
def faultData (p code bundle status : Nat) : Bytes :=
  natLe p 1 ++ natLe code 1 ++ natLe bundle 2 ++ natLe (if code = flMover || code = flStream then status else 0) 2

/-- The schedule that runs on a paddock. -/
def runningOn (s : State) (p : Nat) : Option (Nat × Sched) :=
  (s.engine p).sched.bind (fun n => (s.sched? n).bind (fun x => if x.st == .running then some (n, x) else none))

/-- An engine faults: the error log, the trace, and its schedule stops (04 R102; 07 R183; 17 R386). A descriptor that was
running when the schedule stopped may fault it too (04 R93): the schedule is then STOPPED already and stays as it stopped, and
the engine keeps the first fault it has met (DESIGN CHOICE, log entry 119). -/
def engineFault (s : State) (p code bundle status : Nat) : State :=
  match (s.engine p).sched.bind (fun n => (s.sched? n).map (fun x => (n, x))) with
  | none => s
  | some (n, x) =>
    let d := faultData p code bundle status
    let s := s.updEngine p (fun e => { e with fault := e.fault.or (some { code := code, bundle := bundle, status := status, time := s.now }) })
    let s := logError s 0x30 3 (0x10 + p) d (if code = flMover || code = flStream then status else stFault)
    let s := trace s 4 (0x10 + p) (some x.ctx) (s.ctOf p) (d ++ natLe n 1)
    stopWith s n { reason := 3, status := if code = flMover || code = flStream then status else stFault, paddock := p, bundle := bundle, fault := code }

/-! ### Occurrences (07 R185, R186) -/

/-- The occurrence of a trigger that is current. -/
def Engine.current (e : Engine) (i : Nat) : Nat := (tgetD e.triggers {} i).k

/-- A descriptor joins the current occurrence of its step. -/
def Engine.joinStep (e : Engine) (i : Nat) : Engine :=
  { e with triggers := tupd e.triggers {} i (fun o =>
      { o with open_ := if o.open_.any (fun x => x.1 == o.k) then o.open_.map (fun x => if x.1 == o.k then (x.1, x.2.1 + 1, x.2.2) else x)
                        else o.open_ ++ [(o.k, 1, false, false)] }) }

/-- A previous occurrence of a trigger has not ended: DONE stalls. -/
def Engine.doneHeld (e : Engine) (i : Nat) : Bool := let o := tgetD e.triggers {} i; o.open_.any (fun x => x.1 != o.k)

/-- DONE closes the current occurrence, which ends at once where no descriptor of it is outstanding. -/
def doneStep (s : State) (p i : Nat) : State :=
  let k := (s.engine p).current i
  let left := (tgetD (s.engine p).triggers {} i).open_.any (fun x => x.1 == k && x.2.1 != 0)
  let s := s.updEngine p (fun e =>
    { e with triggers := tupd e.triggers {} i (fun o => { o with k := o.k + 1, open_ := o.open_.map (fun x => if x.1 == k then (x.1, x.2.1, true, x.2.2.2) else x) }) })
  if left then s else endOccurrence s p i k

/-- A descriptor of an occurrence completes; the occurrence ends where it was the last one and DONE has issued. -/
def stepDescDone (s : State) (p i k : Nat) : State :=
  let s := s.updEngine p (fun e =>
    { e with triggers := tupd e.triggers {} i (fun o => { o with open_ := o.open_.map (fun x => if x.1 == k then (x.1, x.2.1 - 1, x.2.2) else x) }) })
  if (tgetD (s.engine p).triggers {} i).open_.any (fun x => x.1 == k && x.2.1 == 0 && x.2.2.1) then endOccurrence s p i k else s

/-! ### Loops (04 R88) -/

/-- The loops and the next bundle after a bundle of which none branched: the innermost first. -/
def loopNext (pc : Nat) : List LoopLevel → List LoopLevel × Nat
  | [] => ([], pc + 1)
  | l :: r =>
    if l.last = pc then
      (if l.remaining.toNat > 1 then ({ l with remaining := l.remaining - 1 } :: r, l.first) else loopNext pc r)
    else (l :: r, pc + 1)

/-- The loops that a taken branch leaves in place: the innermost first. -/
def loopKeep (target : Nat) : List LoopLevel → List LoopLevel
  | [] => []
  | l :: r => if l.first ≤ target && target ≤ l.last then l :: r else loopKeep target r

end Sys2Proof.Machine
end

