-- ==== Sys2Proof/Machine/Vector.lean ====
section
/-!
DEFINITION. The vector unit's operations (04 R100; 05 R112, R113, R118 to R120, R127 to R129).
-/

namespace Sys2Proof.Machine

open Sys2Proof

/-- The key of seeded stochastic rounding: the image's seed XOR the tweak given at arm (05 R127). -/
def roundKey (x : Sched) : BitVec 64 := BitVec.ofNat 64 (imageSeed x.image) ^^^ x.tweak

/-- The rounding of element `j` of an operation: to nearest even, or seeded stochastic with counter `n` (05 R127 to R129). -/
def rounding (stochastic : Bool) (key : BitVec 64) (p n j : Nat) : Nat → Nat → Nat :=
  if stochastic then srShift (srWord key p n j) else rneShift

/-- Lanes converted to a format, in bytes (05 R110, R113). -/
def packLanes (stochastic : Bool) (key : BitVec 64) (p n fmt : Nat) (l : List F32) : Bytes :=
  packElems (fmtBits fmt) (l.zipIdx.map (fun x => toElem (rounding stochastic key p n x.2) fmt x.1))

/-- The rotation of lane pairs (04 R100). -/
def rope : List F32 → List F32 → List F32 → List F32
  | x :: y :: r, c :: _ :: cs, t :: _ :: ts => subF (mulF x c) (mulF y t) :: addF (mulF x t) (mulF y c) :: rope r cs ts
  | l, _, _ => l

/-- VTOPK's order: `a` stands before `b` (04 R100; 05 R119: a NaN ranks below every number, ties go to the lower index). -/
def topBefore (a b : F32 × Nat) : Bool :=
  match isNanF a.1, isNanF b.1 with
  | true, true => a.2 < b.2
  | true, false => false
  | false, true => true
  | false, false => ltF b.1 a.1 || (!ltF a.1 b.1 && a.2 < b.2)

/-- Inserts a value into a descending list. -/
def topInsert (x : F32 × Nat) : List (F32 × Nat) → List (F32 × Nat)
  | [] => [x]
  | y :: r => if topBefore x y then x :: y :: r else y :: topInsert x r

/-- The merge of 512 values with element indices `base` + lane into the list of `k` in a register (04 R100). DESIGN CHOICE: lanes `k`
to 63 and 64 + `k` to 127 stay as they are (log entry 124). -/
def topK (k : Nat) (base : BitVec 64) (new list : List F32) : List F32 :=
  let held := (List.range k).map (fun j => (list.getD j 0, (list.getD (64 + j) 0).toNat))
  let fresh := new.zipIdx.map (fun x => (x.1, (base.toNat + x.2) % 2 ^ 32))
  let best := ((held ++ fresh).foldl (fun l x => (topInsert x l).take k) [])
  best.map (·.1) ++ ((list.take 64).drop k) ++ best.map (fun x => BitVec.ofNat 32 x.2) ++ list.drop (64 + k)

/-- A lane-wise operation on two registers. -/
def Engine.lanes2 (e e0 : Engine) (x : Slot) (f : F32 → F32 → F32) : Engine := e.setV x.d (List.zipWith f (e0.v x.a) (e0.v x.b))
/-- A lane-wise operation on one register. -/
def Engine.lanes1 (e e0 : Engine) (x : Slot) (f : F32 → F32) : Engine := e.setV x.d ((e0.v x.a).map f)

/-- A vector operation's run-time fault, or 0 (04 R102). -/
def vectorFault (e : Engine) (o : Placed) : Nat :=
  match o.op with
  | .vld | .vst => e.storeFault o.x.a o.x.imm (fmtBytes o.x.c lanes) 1
  | .vacc | .vaccw => faultUnless (o.x.x + lanes ≤ accSize) flAcc
  | .vmovq => faultUnless (o.x.imm + lanes ≤ rowCap o.x.c) flQrow
  | _ => 0

/-- A vector operation's effect on the engine `e`, its operands read from `e0` (04 R82, R100); spec/ does not state bits
[63:32] of VREDMAX's result (log entry 13). -/
def vectorEffect (key : BitVec 64) (p : Nat) (e0 e : Engine) (o : Placed) : Engine :=
  let x := o.x
  match o.op with
  | .vld => e.setV x.d (rowF x.c (e0.load (e0.storeAddr x.a x.imm) (fmtBytes x.c lanes)) lanes)
  | .vst =>
    let e := e.save (e0.storeAddr x.a x.imm) (packLanes (x.d == 1) key p e.roundCtr x.c (e0.v x.b))
    if x.d = 1 then { e with roundCtr := e.roundCtr + 1 } else e
  | .vacc => e.setV x.d (e0.accRead x.x lanes)
  | .vaccw => e.accWrite x.x (e0.v x.a)
  | .vmovq =>
    let e := e.loadRow x.d (fmtBytes x.c x.imm) (packLanes (x.b == 1) key p e.roundCtr x.c (e0.v x.a))
    if x.b = 1 then { e with roundCtr := e.roundCtr + 1 } else e
  | .vadd => e.lanes2 e0 x addF
  | .vsub => e.lanes2 e0 x subF
  | .vmul => e.lanes2 e0 x mulF
  | .vmax => e.lanes2 e0 x maxF
  | .vmin => e.lanes2 e0 x minF
  | .vfma => e.setV x.d (List.zipWith (fun ab c => fmaF ab.1 ab.2 c) ((e0.v x.a).zip (e0.v x.b)) (e0.v x.c))
  | .vbcast => e.setV x.d (List.replicate lanes ((e0.s x.a).setWidth 32))
  | .vseti => e.setV x.d (List.replicate lanes (BitVec.ofNat 32 x.imm))
  | .vredsum => e.setS x.d ((redSum (e0.v x.a)).setWidth 64)
  | .vredmax => e.setS x.d (Config.redMaxHigh (e0.v x.a) ++ redMax (e0.v x.a))
  | .vexp2 => e.lanes1 e0 x exp2F
  | .vlog2 => e.lanes1 e0 x log2F
  | .vrcp => e.lanes1 e0 x rcpF
  | .vrsqrt => e.lanes1 e0 x rsqrtF
  | .vsilu => e.lanes1 e0 x siluF
  | .vsigm => e.lanes1 e0 x sigmF
  | .vrope => e.setV x.d (rope (e0.v x.a) (e0.v x.b) (e0.v x.c))
  | .vtopk => e.setV x.d (topK x.c (e0.s x.b) (e0.v x.a) (e0.v x.d))
  | _ => e

end Sys2Proof.Machine
end

