-- ==== Sys2Proof/Machine/Prism.lean ====
section
/-!
DEFINITION. Prism's query-row loads, clears and matrix passes, and the streams that feed them (04 R96 to R99, R449; 05 R114
to R117).
-/

namespace Sys2Proof.Machine

open Sys2Proof

/-- The lane count L of a weight format (04 R97). -/
def laneCount (w : Nat) : Nat :=
  match w with
  | 0x6 | 0x9 => 2048
  | 0xA | 0xB => 512
  | _ => 1024

/-- The exponent of K′, the smallest power of two no less than K (04 R99). -/
def log2Up (k : Nat) : Nat := if 2 ^ k.log2 = k then k.log2 else k.log2 + 1

/-- Stream bytes of one output (04 R98). -/
def outputBytes (w k : Nat) : Nat := fmtBytes w k + (if fmtScaled w then k / 32 else 0)
/-- Stream bytes B of a pass (04 R98). -/
def Pass.bytes (x : Pass) : Nat := x.n * outputBytes x.wfmt x.k

/-- One output's weights: elements as FP32 and scale codes (04 R98; 05 R112, R114). -/
def outputWeights (w k : Nat) (b : Bytes) : List F32 × List Nat :=
  (rowF w b k, if fmtScaled w then (b.drop (fmtBytes w k)).map (·.toNat) else [])

/-- The product sum of one output and one query row, its chunks in ascending K order, from the entry where it accumulates
(04 R99; 05 R116). `c` is the next chunk and the last argument counts those to go. -/
def chunkSums (w levels blocks : Nat) (weights : List F32) (scales : List Nat) (row : List F32) (c : Nat) (acc : Option F32) : Nat → F32
  | 0 => acc.getD 0
  | n + 1 =>
    let width := 2 ^ levels
    let t := prismTree levels (fmtScaled w) scales (c * width / 32) blocks (products width ((weights.drop (c * width)).take width) ((row.drop (c * width)).take width))
    chunkSums w levels blocks weights scales row (c + 1) (some (match acc with | none => t | some a => addP a t)) n

/-- A pass's sum for an output and a row: segmented where K′ < L, else in whole lanes (04 R99). -/
def passSum (w k : Nat) (weights : List F32) (scales : List Nat) (row : List F32) (entry : Option F32) : F32 :=
  let l := laneCount w
  let segmented := 2 ^ log2Up k < l
  chunkSums w (if segmented then log2Up k else l.log2) (k / 32) weights scales row 0 entry (if segmented then 1 else ceilDiv k l)

/-- The accumulator writes of one output: entry and value for each row. -/
def outputSums (x : Pass) (rows : List (List F32)) (n : Nat) (b : Bytes) : List (Nat × F32) :=
  let (weights, scales) := outputWeights x.wfmt x.k b
  rows.zipIdx.map (fun r =>
    let i := x.acc + r.2 * x.n + n
    (i, passSum x.wfmt x.k weights scales r.1 (if x.accumulate then some (tgetD x.acc0 0 i) else none)))

/-- A pass computed over its stream bytes, with the query rows and accumulator entries that it read at issue (04 R82, R99). -/
def passResult (e : Engine) (x : Pass) (b : Bytes) : Engine :=
  let rows := x.q.map (fun r => rowF x.qfmt r x.k)
  let per := outputBytes x.wfmt x.k
  { e with acc := foldRange 0 x.n e.acc (fun t n => (outputSums x rows n ((b.drop (n * per)).take per)).foldl (fun t v => tput t v.1 v.2) t) }

/-- The pass of a PR.PASS (04 R96). -/
def passOf (x : Slot) : Pass :=
  { mover := x.d, row := x.a, rows := x.b, wfmt := x.c % 16, qfmt := x.c / 16, acc := x.x, n := x.imm, k := x.imm2 % 65536, accumulate := bit x.imm2 16 }

/-- A pass with the registers that it reads, as they stand before its bundle's effects (04 R82). -/
def Pass.reading (x : Pass) (e0 : Engine) : Pass :=
  { x with q := (rangeFrom x.row x.rows).map (fun r => e0.row r (fmtBytes x.qfmt x.k)), acc0 := if x.accumulate then e0.acc else [] }

/-- Accumulator entries of a pass. -/
def Pass.entries (x : Pass) : Nat := x.rows * x.n

/-- Run-time faults of Prism's own operations, or 0 (04 R102). -/
def prismFault (e : Engine) (o : Placed) : Nat :=
  let x := o.x
  match o.op with
  | .prQload => firstFault [e.storeFault x.a 0 (fmtBytes x.c x.imm) 1, faultUnless (x.imm2 + x.imm ≤ rowCap x.c) flQrow]
  | .prPass => firstFault [faultUnless (x.imm2 % 65536 ≤ rowCap (x.c / 16)) flQrow, faultUnless (x.x + (passOf x).entries ≤ accSize) flAcc]
  | .prClr => faultUnless (x.x + x.imm ≤ accSize) flAcc
  | _ => 0

/-- Effects of Prism's own operations: a pass joins the queue, the others act at issue (log entry 4). -/
def prismEffect (e0 e : Engine) (o : Placed) : Engine :=
  let x := o.x
  match o.op with
  | .prQload => e.loadRow x.d (fmtBytes x.c x.imm2) (e0.load (e0.storeAddr x.a 0) (fmtBytes x.c x.imm))
  | .prPass => { e with prism := e.prism ++ [.pass ((passOf x).reading e0)] }
  | .prClr => e.accClear x.x x.imm
  | _ => e

/-! ### Streams (04 R98, R449) -/

/-- Bytes of a stream of `n` bytes that the passes fed by mover `mv` take whole, in order, and the first pass that lacks
some: the earliest that takes bytes at or after the stream's end. -/
def fedWhole (mv : Nat) : List PrismOp → Nat → Nat × Option Pass
  | [], _ => (0, none)
  | .pass x :: r, n =>
    if x.mover != mv then fedWhole mv r n
    else if x.bytes ≤ n then (let (k, o) := fedWhole mv r (n - x.bytes); (x.bytes + k, o))
    else (0, some x)
  | .lens _ :: r, n => fedWhole mv r n

/-- A Prism-bound descriptor of mover `mv` has failed: the stream keeps only the bytes of passes fed whole, and where a pass
lacks bytes, it will end on the failed stream (04 R449). True where it ends a pass. -/
def streamFails (e : Engine) (mv status : Nat) : Bool × Engine :=
  let (k, o) := fedWhole mv e.prism (e.mv mv).stream.length
  (o.isSome, e.updMv mv (fun m => { m with stream := m.stream.take k, streamFail := if o.isSome then some status else none }))

end Sys2Proof.Machine
end

