-- ==== Sys2Proof/Machine/Lens.lean ====
section
/-!
DEFINITION. Lens: range and walk descriptors with their checks, tiles, the attend walk, the merge, and KVC4 sealing (06 R133
to R156; 05 R121 to R125, R128). The requests of a walk stand in its own file.
-/

namespace Sys2Proof.Machine

open Sys2Proof

/-! ### Descriptors (06 R133, R134, R140) -/

/-- A range descriptor (06 R133). -/
structure RangeDesc where
  fmt : Nat
  role : Nat
  d : Nat
  seq : Nat
  runs : Nat
  capacity : Nat
  runList : Nat
  hdr : Nat
  tail : Nat
deriving DecidableEq, Repr

/-- A run (06 R134). -/
structure Run where
  base : Nat
  tokens : Nat
deriving DecidableEq, Repr

/-- The range descriptor of 64 bytes. -/
def rangeOf (b : Bytes) : RangeDesc :=
  { fmt := field b 0 1, role := field b 1 1, d := field b 2 2, seq := field b 4 2, runs := field b 6 2, capacity := field b 8 4, runList := field b 12 4
    hdr := field b 16 8, tail := field b 24 8 }

/-- The range is in KVC4. -/
def RangeDesc.kvc (r : RangeDesc) : Bool := r.fmt == 0xC
/-- Bytes of a token in the runs: 64 in KVC4 pages (06 R134). -/
def RangeDesc.tokenBytes (r : RangeDesc) : Nat := if r.kvc then 64 else fmtBytes r.fmt r.d
/-- Tokens T of a unit of 4,096 bytes (06 R134). -/
def RangeDesc.unitTokens (r : RangeDesc) : Nat := 4096 / r.tokenBytes
/-- The format of tokens outside sealed pages: BF16 for KVC4 (06 R142, R151; 05 R123). -/
def RangeDesc.plainFmt (r : RangeDesc) : Nat := if r.kvc then 0xA else r.fmt
/-- The runs of a range. -/
def RangeDesc.runsOf (e : Engine) (r : RangeDesc) : List Run :=
  (List.range r.runs).map (fun i => let b := e.load (r.runList + 16 * i) 16; { base := field b 0 8, tokens := field b 8 4 })

/-- A walk descriptor (06 R140). -/
structure WalkDesc where
  mode : Nat
  flags : Nat
  qbase : Nat
  count : Nat
  qfmt : Nat
  spec : Nat
  specPaddock : Nat
  outFmt : Nat
  sigma : F32
  value : Nat
  acc : Nat
  kDesc : Nat
  vDesc : Nat
  rows : Nat
  srcK : Nat
  srcV : Nat
  dst : Nat
deriving DecidableEq, Repr

/-- The walk descriptor of 64 bytes. -/
def walkOf (b : Bytes) : WalkDesc :=
  { mode := field b 0 1, flags := field b 1 1, qbase := field b 2 1, count := field b 3 1, qfmt := field b 4 1, spec := field b 5 1
    specPaddock := field b 6 1, outFmt := field b 7 1, sigma := BitVec.ofNat 32 (field b 8 4), value := field b 12 4, acc := field b 16 2
    kDesc := field b 20 4, vDesc := field b 24 4, rows := field b 28 4, srcK := field b 32 4, srcV := field b 36 4, dst := field b 40 4 }

/-- A flag of a walk descriptor: 0 CAUSAL, 1 WINDOW, 2 EMIT, 3 SR, 4 FINAL, 5 CONTINUE, 6 ON_ERROR, 7 RELATIVE. -/
def WalkDesc.flag (w : WalkDesc) (i : Nat) : Bool := bit w.flags i

/-- The bytes that a mode uses, and the flags (06 R140): every other one is reserved. -/
def walkUses : Nat → List (Nat × Nat) × Nat
  | 0 => ([(0, 7), (8, 10), (20, 26)], 0x47)
  | 1 => ([(0, 2), (3, 1), (20, 8), (32, 8), (44, 2)], 0x48)
  | 2 => ([(0, 2), (3, 1), (7, 1), (16, 2), (32, 4), (40, 6)], 0x7C)
  | _ => ([(0, 2), (12, 4), (20, 4), (44, 2)], 0xC0)

/-- Reserved bytes, flags and address bits of a walk descriptor are 0 (06 R140). -/
def walkReservedOk (b : Bytes) (w : WalkDesc) : Bool :=
  let (used, flags) := walkUses w.mode
  (List.range 64).all (fun i => used.any (fun u => u.1 ≤ i && i < u.1 + u.2) || b.getD i 0 == 0)
    && (List.range 8).all (fun i => bit flags i || !w.flag i)
    && [w.kDesc, w.vDesc, w.rows, w.srcK, w.srcV, w.dst].all (· < 2 ^ 24)

/-- The bytes of a block of `q` rows of dimension `d` (06 R147). -/
def blockLen (q d : Nat) : Nat := 32 + q * (16 + 4 * d)

/-! ### The checks of R143 -/

/-- A range descriptor's own fields (06 R133, R143). -/
def rangeFieldsOk (b : Bytes) (r : RangeDesc) (role : Nat) : Bool :=
  fmtLens r.fmt && r.role == role && (r.d == 64 || r.d == 128 || r.d == 256) && (!r.kvc || r.d == 128) && r.seq < 4096
    && 1 ≤ r.runs && r.runs ≤ 64 && 1 ≤ r.capacity && r.capacity ≤ 4194304 && r.runList < 2 ^ 24 && zeroAt b 32 63
    && (if r.kvc then r.hdr % 512 == 0 && r.tail % 4096 == 0 else r.hdr == 0 && r.tail == 0)

/-- The runs of a range (06 R134, R143). -/
def runsOk (e : Engine) (r : RangeDesc) : Bool :=
  let rs := r.runsOf e
  rs.all (fun x => x.base % 4096 == 0 && x.base < 2 ^ 48 && x.tokens != 0 && x.tokens % r.unitTokens == 0
      && x.base / 2 ^ 30 == (x.base + x.tokens * r.tokenBytes - 1) / 2 ^ 30)
    && (List.range r.runs).all (fun i => zeroAt (e.load (r.runList + 16 * i) 16) 12 15)
    && (rs.map (·.tokens)).sum == r.capacity

/-- The faults of a range descriptor and its run list, or 0. -/
def rangeFault (s : State) (e : Engine) (c addr role : Nat) : Nat :=
  firstFault [e.rangeFault addr 64 64,
    (let b := e.load addr 64; let r := rangeOf b
     firstFault [faultUnless (rangeFieldsOk b r role) flDesc, e.rangeFault r.runList (16 * r.runs) 16, faultUnless (runsOk e r) flDesc,
       faultUnless ((s.seqEntry r.seq).owner == some c) flDesc])]

/-- The faults of a pair of ranges (06 R135, R143). -/
def rangesFault (s : State) (e : Engine) (c : Nat) (w : WalkDesc) : Nat :=
  firstFault [rangeFault s e c w.kDesc 0, rangeFault s e c w.vDesc 1,
    (let k := rangeOf (e.load w.kDesc 64); let v := rangeOf (e.load w.vDesc 64)
     faultUnless (k.fmt == v.fmt && k.d == v.d && k.seq == v.seq && k.capacity == v.capacity) flDesc)]

/-- The faults of an ATTEND walk, or 0; `rows` are the loaded bytes of its query rows (06 R143). DESIGN CHOICE:
a QFMT outside 06 R140's list is a DESCRIPTOR fault with any key format (log entry 126). -/
def attendFault (s : State) (e : Engine) (p c : Nat) (w : WalkDesc) (rows : List Bytes) : Nat :=
  let k := rangeOf (e.load w.kDesc 64)
  let own := p == w.specPaddock && w.spec != 0
  let specLen := w.spec * fmtBytes k.plainFmt k.d
  firstFault [faultUnless (1 ≤ w.count && w.count ≤ 16 && w.spec ≤ 16 && w.specPaddock ≤ 15 && [0x0, 0x1, 0xA, 0xB].contains w.qfmt) flDesc,
    rangesFault s e c w,
    faultUnless (if k.kvc || k.fmt == 0xA || k.fmt == 0xB then w.qfmt == 0xA || w.qfmt == 0xB else true) flDesc,
    e.rangeFault w.rows (8 * w.count) 8,
    (if own then firstFault [e.rangeFault w.srcK specLen 1, e.rangeFault w.srcV specLen 1] else 0),
    (if w.flag 2 then e.rangeFault w.dst (blockLen w.count k.d) 32 else 0),
    faultUnless (w.qbase + w.count ≤ 16 && (List.range w.count).all (fun r => fmtBytes w.qfmt k.d ≤ (rows.getD r []).length)) flQrow,
    faultUnless (w.acc + w.count * k.d + 2 * w.count ≤ accSize) flAcc]

/-- The faults of an APPEND walk, or 0. -/
def appendFault (s : State) (e : Engine) (c : Nat) (w : WalkDesc) : Nat :=
  let k := rangeOf (e.load w.kDesc 64)
  let len := w.count * fmtBytes k.plainFmt k.d
  firstFault [faultUnless (1 ≤ w.count && w.count ≤ 16) flDesc, rangesFault s e c w, e.rangeFault w.srcK len 1, e.rangeFault w.srcV len 1]

/-- The store addresses of a MERGE's blocks. -/
def mergeList (e : Engine) (w : WalkDesc) : List Nat := (List.range w.count).map (fun i => leNat (e.load (w.srcK + 4 * i) 4))
/-- Q of a block. -/
def blockQ (e : Engine) (a : Nat) : Nat := leNat (e.load (a + 2) 1)
/-- D of a block. -/
def blockD (e : Engine) (a : Nat) : Nat := leNat (e.load (a + 4) 2)

/-- The faults of a MERGE walk, or 0. -/
def mergeFault (e : Engine) (w : WalkDesc) : Nat :=
  let blocks := mergeList e w
  let a := blocks.headD 0
  let q := blockQ e a
  let d := blockD e a
  firstFault [faultUnless (1 ≤ w.count && w.count ≤ 64 && (!w.flag 4 || w.outFmt == 0xA || w.outFmt == 0xF)) flDesc,
    e.rangeFault w.srcK (4 * w.count) 1,
    faultUnless (blocks.all (fun a => e.rangeFault a 32 32 == 0 && e.rangeFault a (blockLen (blockQ e a) (blockD e a)) 32 == 0)) flStore,
    (if w.flag 2 then e.rangeFault w.dst (blockLen q d) 32 else 0),
    (if w.flag 4 then e.rangeFault w.dst (q * fmtBytes w.outFmt d) 1 else 0),
    faultUnless (w.acc + q * d + 2 * q ≤ accSize) flAcc]

/-- The fault with which a walk begins, or 0 (06 R143). -/
def walkFault (s : State) (e : Engine) (p c : Nat) (b : Bytes) (rows : List Bytes) : Nat :=
  let w := walkOf b
  firstFault [faultUnless (w.mode ≤ 3 && walkReservedOk b w) flDesc,
    (match w.mode with
      | 0 => attendFault s e p c w rows
      | 1 => appendFault s e c w
      | 2 => mergeFault e w
      | _ => firstFault [faultUnless (w.count == 0) flDesc, rangeFault s e c w.kDesc 0])]

/-- Q and D of the partial that a walk writes, behind walks that stand before it, the latest first: list entry 0 of a MERGE is the block
that one of them still has to write there, or the one that stands in the store (06 R146, R148). -/
def walkShape (e : Engine) : List WalkDesc → WalkDesc → Nat × Nat
  | [], w => match w.mode with
    | 0 => (w.count, (rangeOf (e.load w.kDesc 64)).d)
    | 2 => let a := (mergeList e w).headD 0; (blockQ e a, blockD e a)
    | _ => (0, 0)
  | x :: r, w => match w.mode with
    | 0 => (w.count, (rangeOf (e.load w.kDesc 64)).d)
    | 2 => if x.flag 2 && x.dst == (mergeList e w).headD 0 then walkShape e r x else walkShape e r w
    | _ => (0, 0)

/-- Accumulator entries of a walk's partial: first and count, behind walks that stand before it, the latest first (06 R146). -/
def walkEntries (e : Engine) (before : List WalkDesc) (b : Bytes) : Nat × Nat :=
  let w := walkOf b
  let (q, d) := walkShape e before w
  (w.acc, q * d + 2 * q)

/-- Query rows that a walk reads: first and count. -/
def walkRows (b : Bytes) : Nat × Nat := let w := walkOf b; if w.mode = 0 then (w.qbase, w.count) else (0, 0)

/-! ### Partials (06 R145 to R149) -/

/-- A row's partial. -/
structure Part where
  m : F32
  l : F32
  o : List F32
deriving DecidableEq, Repr

/-- −∞. -/
def negInf : F32 := 0xFF800000

/-- The empty partial. -/
def Part.empty (d : Nat) : Part := { m := negInf, l := 0, o := List.replicate d 0 }

/-- Writes a partial into the accumulator file (06 R146). -/
def writePartial (e : Engine) (acc d : Nat) (ps : List Part) : Engine :=
  let q := ps.length
  ps.zipIdx.foldl (fun e x => (e.accWrite (acc + x.2 * d) x.1.o).accWrite (acc + q * d + 2 * x.2) [x.1.m, x.1.l])
    { e with partials := tput e.partials acc (q, d) }

/-- The partial of `q` rows that stands in an accumulator file. -/
def readPartial (file : Tab F32) (acc q d : Nat) : List Part :=
  (List.range q).map (fun r =>
    { m := tgetD file 0 (acc + q * d + 2 * r), l := tgetD file 0 (acc + q * d + 2 * r + 1), o := (rangeFrom (acc + r * d) d).map (tgetD file 0) })

/-- FP32 values as bytes. -/
def f32Bytes (l : List F32) : Bytes := l.flatMap (fun x => natLe x.toNat 4)

/-- A partial block (06 R147). -/
def blockBytesOf (status d source n seq : Nat) (merged : Bool) (ps : List Part) : Bytes :=
  natLe status 2 ++ natLe ps.length 1 ++ natLe (b2n merged 0) 1 ++ natLe d 2 ++ natLe source 1 ++ natLe 0 1 ++ natLe n 4 ++ natLe seq 2 ++ natLe 0 18
    ++ ps.flatMap (fun x => f32Bytes [x.m, x.l] ++ natLe 0 8 ++ f32Bytes x.o)

/-- The rows of a partial block of `q` rows of dimension `d`. -/
def blockRows (e : Engine) (a q d : Nat) : List Part :=
  (List.range q).map (fun r =>
    let b := e.load (a + 32 + r * (16 + 4 * d)) (16 + 4 * d)
    { m := BitVec.ofNat 32 (field b 0 4), l := BitVec.ofNat 32 (field b 4 4), o := (List.range d).map (fun c => BitVec.ofNat 32 (field b (16 + 4 * c) 4)) })

/-- The fold of two partials of a row (06 R148). -/
def foldPart (x y : Part) : Part :=
  let m := maxF x.m y.m
  if m = negInf then x else
  let ax := exp2F (subF x.m m)
  let ay := exp2F (subF y.m m)
  { m := m, l := addF (mulF x.l ax) (mulF y.l ay), o := List.zipWith (fun a b => addF (mulF a ax) (mulF b ay)) x.o y.o }

/-- The normalised output of a row (06 R149). -/
def finalRow (fmt : Nat) (x : Part) : Bytes :=
  packElems (fmtBits fmt) (x.o.map (fun o => toElem rneShift fmt (if x.l = 0 then 0 else mulF o (rcpF x.l))))

/-- The status with which a MERGE meets its blocks: the first that is not OK, or BAD_ARG for another shape (06 R148, R156).
DESIGN CHOICE: of the two, the earlier in the list (log entry 126). -/
def mergeStatus (e : Engine) (q d : Nat) : List Nat → Nat
  | [] => stOk
  | a :: r =>
    let st := leNat (e.load a 2)
    if st != stOk then st else if blockQ e a != q || blockD e a != d then stBadArg else mergeStatus e q d r

/-- The partial that CONTINUE goes on from has the Q and D of list entry 0: those that a walk last wrote at ACC_BASE; entries
that no walk wrote have no shape of their own (06 R148; log entry 107). -/
def continues (e : Engine) (w : WalkDesc) (q d : Nat) : Bool := (tget? e.partials w.acc).all (· == (q, d))

/-- A MERGE walk: its status and the engine after it; `file` is the accumulator file that its bundle read (06 R148, R149, R155,
R156). DESIGN CHOICE: with EMIT and FINAL both set, the output is written over the block; SEQ of a merged block is that of list entry 0
(log entry 126). -/
def mergeWalk (e : Engine) (w : WalkDesc) (file : Tab F32) : Nat × Engine :=
  let blocks := mergeList e w
  let a := blocks.headD 0
  let q := blockQ e a
  let d := blockD e a
  let st := if w.flag 5 && !continues e w q d then stBadArg else mergeStatus e q d blocks
  let (first, rest) := if w.flag 5 then (readPartial file w.acc q d, blocks) else (blockRows e a q d, blocks.drop 1)
  let ps := if st = stOk then rest.foldl (fun ps b => List.zipWith foldPart ps (blockRows e b q d)) first else List.replicate q (Part.empty d)
  let e' := writePartial e w.acc d ps
  let e' := if w.flag 2 then e'.save w.dst (blockBytesOf st d 0xFF (leNat (e.load (a + 8) 4)) (leNat (e.load (a + 12) 2)) true ps) else e'
  (st, if w.flag 4 then e'.save w.dst (ps.flatMap (finalRow w.outFmt)) else e')

/-! ### Tiles (06 R136, R142, R145; 05 R122, R125) -/

/-- What a tile is made of. -/
inductive TileKind where
  | unit | page | tail | spec
deriving DecidableEq, Repr

/-- A tile: its first token, and the context-virtual addresses of its key and value units and headers. -/
structure Tile where
  kind : TileKind
  t0 : Nat
  k : Nat := 0
  v : Nat := 0
  kHdr : Nat := 0
  vHdr : Nat := 0
deriving DecidableEq, Repr

/-- The address of a token in a run list (06 R134). -/
def tokenVa (per : Nat) : List Run → Nat → Nat
  | [], _ => 0
  | r :: rs, t => if t < r.tokens then r.base + t * per else tokenVa per rs (t - r.tokens)

/-- The data address of a context-virtual one, by the extent that its segment lists. -/
def dataAddr (s : State) (c va : Nat) : Option Nat :=
  (segmentAt s c va).bind (fun g => (g.2.list[(va - g.2.base) / 2 ^ 30]?).map (fun x => x.extent * 2 ^ 30 + (va - g.2.base) % 2 ^ 30))

/-- The paddock that walks a unit: home() of its data address; where it has none, the request of every paddock finds so
(06 R136, R137). -/
def walkedBy (s : State) (c va p : Nat) : Bool :=
  match dataAddr s c va with
  | some a => dataHome (stripeOf a) (unitOf a) == p
  | none => true

/-- The tiles of an ATTEND walk on a paddock, in ascending token order (06 R136, R145): the units and pages that hold a committed
token, the four tail units, the speculative tile. -/
def tilesOf (s : State) (e : Engine) (p c : Nat) (w : WalkDesc) (n : Nat) : List Tile :=
  let k := rangeOf (e.load w.kDesc 64)
  let v := rangeOf (e.load w.vDesc 64)
  let per := k.unitTokens
  let kva := tokenVa k.tokenBytes (k.runsOf e)
  let vva := tokenVa v.tokenBytes (v.runsOf e)
  let units := if k.kvc then (List.range (min n k.capacity / 64)).map (fun i =>
        { kind := .page, t0 := 64 * i, k := kva (64 * i), v := vva (64 * i), kHdr := k.hdr + 512 * i, vHdr := v.hdr + 512 * i : Tile })
    else (List.range (ceilDiv (min n k.capacity) per)).map (fun i => { kind := .unit, t0 := per * i, k := kva (per * i), v := vva (per * i) : Tile })
  let tails := if k.kvc then (List.range 4).map (fun j => { kind := .tail, t0 := n / 64 * 64 + 16 * j, k := k.tail + 4096 * j, v := v.tail + 4096 * j : Tile }) else []
  (units ++ tails).filter (fun t => walkedBy s c t.k p) ++ (if p = w.specPaddock && w.spec != 0 then [{ kind := .spec, t0 := n }] else [])

/-- log2 of a tile's tokens. -/
def Tile.log (t : Tile) (k : RangeDesc) : Nat :=
  match t.kind with
  | .unit => k.unitTokens.log2
  | .page => 6
  | _ => 4

/-- A tile's bytes as they were read: key and value units, key and value headers. -/
structure TileBytes where
  k : Bytes := []
  v : Bytes := []
  kHdr : Bytes := []
  vHdr : Bytes := []
deriving DecidableEq, Repr

/-- Token `j` of a unit of `fmt` with head dimension `d`. -/
def tokenRow (fmt d : Nat) (b : Bytes) (j : Nat) : List F32 := rowF fmt ((b.drop (j * fmtBytes fmt d)).take (fmtBytes fmt d)) d

/-- The scale codes of token `j` in a page header (05 R122). -/
def tokenScales (h : Bytes) (j : Nat) : List Nat := (List.range 4).map (fun b => field h (4 * j + b) 1)
/-- The channel offsets of a page header (05 R122). -/
def pageOffsets (h : Bytes) : List F32 := rowF 0xB (h.drop 256) 128

/-- A value element of a sealed page: e × 2^(S − 127), exact (05 R125). -/
def scaledElem (scales : List Nat) (c code : Nat) : F32 := toF32 (mulFv (elemFv 0x6 code) (scaleFv (scales.getD (c / 32) 0)))

/-- The values of token `j` of a tile. -/
def tileValue (k : RangeDesc) (t : Tile) (b : TileBytes) (j : Nat) : List F32 :=
  match t.kind with
  | .page => (List.range 128).map (fun c => scaledElem (tokenScales b.vHdr j) c (elemCode 4 ((b.v.drop (64 * j)).take 64) c))
  | _ => tokenRow k.plainFmt k.d b.v j

/-- The score of token `j` of a tile for a query row, before SIGMA (06 R145; 05 R121, R125). -/
def tileScore (k : RangeDesc) (t : Tile) (b : TileBytes) (q : List F32) (j : Nat) : F32 :=
  match t.kind with
  | .page =>
    let x := prismTree 7 true (tokenScales b.kHdr j) 0 4 (products 128 (tokenRow 0x6 128 b.k j) q)
    addP x (prismTree 7 false [] 0 0 (products 128 (pageOffsets b.kHdr) q))
  | _ => prismTree k.d.log2 false [] 0 0 (products k.d (tokenRow k.plainFmt k.d b.k j) q)

/-- A row of the row table (06 R141). -/
structure RowDesc where
  pos : Nat
  vlen : Nat
deriving DecidableEq, Repr

/-- A token is masked for a row (06 R144); `limit` is N, or N + SPEC for a speculative token. -/
def masked (w : WalkDesc) (r : RowDesc) (limit t : Nat) : Bool :=
  t ≥ limit || t ≥ r.vlen || (w.flag 0 && t > r.pos) || (w.flag 1 && (t : Int) ≤ (r.pos : Int) - w.value)

/-- The weight of a score: the exponential in BF16 (06 R145). -/
def weightOf (s m : F32) : F32 := elemF 0xA (toElem rneShift 0xA (exp2F (subF s m)))

/-- One tile of the attend walk for one row (06 R145). DEDUCED: where no score of the tile is more than −∞ or NaN and m is still −∞, the
state stays, as the pseudocode says, though a score is NaN (log entry 126). -/
def attendTile (w : WalkDesc) (k : RangeDesc) (limit : Nat) (q : List F32) (r : RowDesc) (x : Part) (tb : Tile × TileBytes) : Part :=
  let (t, b) := tb
  let js := List.range (2 ^ t.log k)
  let s := js.map (fun j => if masked w r limit (t.t0 + j) then negInf else mulF (tileScore k t b q j) w.sigma)
  let m2 := maxF x.m ((pairLevels maxF (t.log k) s).headD negInf)
  if m2 = negInf then x else
  let a := exp2F (subF x.m m2)
  let p := s.map (weightOf · m2)
  let vs := js.map (tileValue k t b)
  { m := m2, l := addF (mulF x.l a) ((pairLevels addF (t.log k) p).headD 0)
    o := x.o.zipIdx.map (fun o =>
      addF (mulF o.1 a) (prismTree (t.log k) false [] 0 0 (products (2 ^ t.log k) (vs.map (fun v => v.getD o.2 0)) p))) }

/-- The rows of an ATTEND walk: the query elements and the row table's entries. -/
def attendRows (e : Engine) (w : WalkDesc) (d : Nat) (rows : List Bytes) : List (List F32 × RowDesc) :=
  (List.range w.count).map (fun r =>
    let t := e.load (w.rows + 8 * r) 8
    (rowF w.qfmt ((rows.getD r []).take (fmtBytes w.qfmt d)) d, { pos := field t 0 4, vlen := field t 4 4 }))

/-- The partials of an ATTEND walk over its tiles in order (06 R145). -/
def attendParts (e : Engine) (w : WalkDesc) (n : Nat) (rows : List Bytes) (tiles : List (Tile × TileBytes)) : List Part :=
  let k := rangeOf (e.load w.kDesc 64)
  (attendRows e w k.d rows).map (fun r =>
    tiles.foldl (fun x t => attendTile w k (if t.1.kind = .spec then n + w.spec else n) r.1 r.2 x t) (Part.empty k.d))

/-- An ATTEND walk's end: the partial, or the empty one where a request failed, and the block of EMIT (06 R146, R147, R155). -/
def attendEnd (e : Engine) (p : Nat) (w : WalkDesc) (n st : Nat) (ps : List Part) : Engine :=
  let k := rangeOf (e.load w.kDesc 64)
  let ps := if st = stOk then ps else List.replicate w.count (Part.empty k.d)
  let e' := writePartial e w.acc k.d ps
  if w.flag 2 then e'.save w.dst (blockBytesOf st k.d p n k.seq false ps) else e'

/-! ### Sealing (05 R123, R124; 06 R152) -/

/-- The channel offsets of a key page as FP16 codes, from the 64 tail tokens (05 R124). -/
def keyOffsets (xs : List (List F32)) : List Nat :=
  (List.range 128).map (fun c => toElem rneShift 0xB (mulF ((pairLevels addF 6 (xs.map (fun x => x.getD c 0))).headD 0) 0x3C800000))

/-- A token's four blocks: scales and codes (05 R124). -/
def sealToken (round : Nat → Nat → Nat → Nat) (offs : List F32) (t : Nat) (x : List F32) : List Nat × List Nat :=
  let r := List.zipWith subF x offs
  let bs := (List.range 4).map (fun b => kvcBlock (fun i => round (t * 128 + 32 * b + i)) ((r.drop (32 * b)).take 32))
  (bs.map (·.1), bs.flatMap (·.2))

/-- A page and its header sealed from a tail of 64 tokens in BF16 (05 R122, R124). `round j` is the rounding of element j. -/
def sealPage (keys : Bool) (round : Nat → Nat → Nat → Nat) (tail : Bytes) : Bytes × Bytes :=
  let xs := (List.range 64).map (tokenRow 0xA 128 tail)
  let offs := if keys then keyOffsets xs else List.replicate 128 0
  let ts := xs.zipIdx.map (fun x => sealToken round (offs.map (elemF 0xB)) x.2 x.1)
  (ts.flatMap (fun t => packElems 4 t.2), ts.flatMap (fun t => t.1.map (BitVec.ofNat 8)) ++ packElems 16 offs)

end Sys2Proof.Machine
end

