-- ==== Sys2Proof/Machine/Requests.lean ====
section
/-!
DEFINITION. Requests of an engine to the pool, by movers and Lens: each is checked under 03 R70 with ENGINE and READ or WRITE,
acts at once on a plain segment, and is a non-caching request of the home on a coherent one (04 R92; 06 R155; 14 R334). The
shepherd's copy of a schedule image goes the same way, without ENGINE (07 R175).
-/

namespace Sys2Proof.Machine

open Sys2Proof

/-- The portions of [a, a + n) that lie in one line each. -/
def linePortions (a n : Nat) : List (Nat × Nat) :=
  (List.range (lineSpan a n)).map (fun i =>
    let lo := max a (a / 128 * 128 + 128 * i)
    (lo, min (a + n) (a / 128 * 128 + 128 * (i + 1)) - lo))

/-- A request of an engine: who asks, in which context and schedule, the range, and the bytes of a write with its stash
target. -/
structure EngReq where
  owner : NcOwner
  ctx : Nat
  sched : Option Nat
  va : Nat
  len : Nat
  data : Option Bytes := none
  stash : Option Nat := none
  /-- the segment check asks for WRITE -/
  write : Bool := data.isSome
  /-- the segment check asks for ENGINE -/
  engine : Bool := true

/-- What the segment check asks for. -/
def EngReq.need (r : EngReq) : Nat := (if r.engine then needEngine else 0) ||| (if r.write then needWrite else needRead)

/-- The access of a request's lines (09 R216). -/
def EngReq.access (r : EngReq) : Access := { sched := r.sched }

/-- The non-caching requests that carry an engine's request: one per line for a read, whose lines answer for themselves (04
R92), one for a write. -/
def EngReq.portions (r : EngReq) : List (Nat × Nat) := if r.data.isSome then [(r.va, r.len)] else linePortions r.va r.len

/-- A non-caching request of an owner for a range. -/
def ncMine (s : State) (o : NcOwner) (isWrite : Bool) (x : Nat × Nat) : Option NcReq :=
  s.ncReqs.find? (fun r => r.owner == o && r.isWrite == isWrite && r.va == x.1 && r.len == x.2)

/-- A non-caching request of an owner still waits for a line. -/
def ncOpen (s : State) (o : NcOwner) : Bool := s.ncReqs.any (fun r => r.owner == o && !r.lines.isEmpty)

/-- The answered non-caching requests of an owner are collected. -/
def ncCollect (s : State) (o : NcOwner) : State := { s with ncReqs := s.ncReqs.filter (fun r => !(r.owner == o && r.lines.isEmpty)) }

/-- The request goes to the home already. -/
def EngReq.atHome (s : State) (r : EngReq) : Bool := r.portions.any (fun x => (ncMine s r.owner r.data.isSome x).isSome)

/-- A request to a coherent segment goes to the home, where it has not yet. -/
def startReq (s : State) (r : EngReq) : State :=
  if r.atHome s then s else
  match segCheck s r.ctx r.va r.len r.need with
  | .no _ => s
  | .ok _ _ g =>
    if !g.coherent then s else
    r.portions.foldl (fun s x => match segCheck s r.ctx x.1 x.2 r.need with
      | .ok ps _ _ => ncStart s { id := 0, ctx := r.ctx, owner := r.owner, isWrite := r.data.isSome, va := x.1, len := x.2, lines := []
                                  data := r.data.getD [], stash := r.stash } ps
      | .no _ => s) s

/-- A request to a plain segment waits for a stopped stack controller (19 R435). -/
def EngReq.held (s : State) (r : EngReq) : Bool :=
  match segCheck s r.ctx r.va r.len r.need with
  | .ok ps _ g => !g.coherent && accessHeld s r.data.isSome ps
  | .no _ => false

/-- A request waits: for its home, or for a stopped stack controller. -/
def EngReq.waits (s : State) (r : EngReq) : Bool := ncOpen s r.owner || r.held s

/-- What a request gives: a status, and for a read the bytes of each line that did not fail, by offset. -/
structure Got where
  status : Nat
  parts : List (Nat × Bytes) := []
deriving DecidableEq, Repr

/-- The bytes of a read that has not failed. -/
def Got.bytes (g : Got) : Bytes := g.parts.flatMap (·.2)

/-- Reads line portions of data space one by one, from an offset on. -/
def readPortions (s : State) (acc : Access) : Nat → List (Nat × Nat) → Got × State
  | _, [] => ({ status := stOk }, s)
  | off, (a, n) :: r =>
    let (x, s) := readData s acc a n
    let (g, s) := readPortions s acc (off + n) r
    match x with
    | some b => ({ g with parts := (off, b) :: g.parts }, s)
    | none => ({ g with status := stMedia }, s)

/-- What the home gave for a request. -/
def homeGot (s : State) (r : EngReq) : Got :=
  r.portions.foldl (fun g x =>
    match ncMine s r.owner r.data.isSome x with
    | some n => if n.failed != stOk then { g with status := if g.status = stOk then n.failed else g.status }
                else if r.data.isSome then g else { g with parts := g.parts ++ [(x.1 - r.va, padTo n.data x.2)] }
    | none => { g with status := if g.status = stOk then stDenied else g.status }) { status := stOk }

/-- Performs a request whose home requests have been answered. -/
def performReq (s : State) (r : EngReq) : Got × State :=
  let counted (g : Got) (s : State) : Got × State := (g, countServed s r.ctx r.data.isSome false r.len g.status)
  if r.atHome s then counted (homeGot s r) s else
  match segCheck s r.ctx r.va r.len r.need with
  | .no st => ({ status := st }, countRefusal s r.ctx st)
  | .ok ps _ _ =>
    match r.data with
    | some b => let (ok, s) := writePieces s r.access ps b; counted { status := if ok then stOk else stMedia } s
    | none => let (g, s) := readPortions s r.access 0 (ps.flatMap (fun x => linePortions x.1 x.2)); counted g s

end Sys2Proof.Machine
end

