-- ==== Sys2Proof/Machine/Reserved.lean ====
section
/-!
DEFINITION. The reserved region of the pool (03 R67): the schedule store with its images, the trace region and crash staging. Their
bytes are bytes of the pool, under parity, scrub and rebuild; their accesses are of class 2 (04 R101; 18 R416; log entry 55).
-/

namespace Sys2Proof.Machine

open Sys2Proof

/-- The base of the trace region (03 R67). -/
def traceBase (s : State) : Nat := s.reservedBase + 8 * 2 ^ 30
/-- The base of crash staging (03 R67). -/
def crashBase (s : State) : Nat := s.reservedBase + 12 * 2 ^ 30

/-- Bytes of the schedule store (07 R169; 03 R67). -/
def schedStore : Nat := 8 * 2 ^ 30

/-- The part of a byte string that stands at `off`, `n` bytes long, where the string stands in ranges one after another. -/
def subRanges : List (Nat × Nat) → Nat → Nat → List (Nat × Nat)
  | [], _, _ => []
  | (a, k) :: r, off, n =>
    if n = 0 then [] else
    if k ≤ off then subRanges r (off - k) n
    else (a + off, min n (k - off)) :: subRanges r 0 (n - min n (k - off))

/-- Free ranges of the store for `n` bytes from an offset up; `used` are the ranges of loaded images, and the first argument bounds
the steps. -/
def freeFrom (used : List (Nat × Nat)) : Nat → Nat → Nat → List (Nat × Nat)
  | 0, _, _ => []
  | f + 1, o, n =>
    if n = 0 || schedStore ≤ o then [] else
    match used.find? (fun u => u.1 ≤ o && o < u.1 + u.2) with
    | some u => freeFrom used f (u.1 + u.2) n
    | none =>
      let k := min n ((used.foldl (fun m u => if o < u.1 then min m u.1 else m) schedStore) - o)
      (o, k) :: freeFrom used f (o + k) (n - k)

/-- Where the store takes an image of `n` bytes: its lowest free bytes, as offsets in the store (DESIGN CHOICE, log entry 55). -/
def storePlace (s : State) (n : Nat) : List (Nat × Nat) :=
  let used := s.scheds.flatMap (fun x => x.2.place)
  freeFrom used (2 * used.length + 2) 0 n

/-- Ranges of the store as ranges of data space. -/
def storeRanges (s : State) (ps : List (Nat × Nat)) : List (Nat × Nat) := ps.map (fun x => (s.reservedBase + x.1, x.2))

/-- Bytes of the reserved region as its readers find them; those of a line that cannot be read are free (log entry 55). -/
def readRanges (s : State) (ps : List (Nat × Nat)) (n : Nat) : Bytes × State :=
  let (g, s) := readPortions s demand 0 (ps.flatMap (fun x => linePortions x.1 x.2))
  if g.status = stOk then (g.bytes, s)
  else (g.parts.foldl (fun b x => putBytes b x.1 x.2) ((List.range n).map (Config.lostByte s.free)), drawn s)

/-- The ranges of an overlay's source in the loaded image (04 R101). -/
def overlayRanges (s : State) (g : Sched) (p : Nat) (o : Overlay) : List (Nat × Nat) :=
  storeRanges s (subRanges g.place (streamOffset g.image p + 64 * o.source) (64 * o.count))

/-- The bundles that an overlay brings into instruction memory, from its bytes (04 R101). -/
def placeBundles (m : Tab (BitVec 512)) (o : Overlay) (b : Bytes) : Tab (BitVec 512) :=
  foldRange 0 o.count m (fun m i => tput m (o.target + i) (BitVec.ofNat 512 (field b (64 * i) 64)))

/-- The ranges of `k` slots of a region slice from slot `i` on (18 R416: a ring). -/
def slotRanges (s : State) (x : Stream) (i k : Nat) : List (Nat × Nat) :=
  let a := traceBase s + x.sliceOff
  let first := min k (x.slotCount - i)
  [(a + 32 * i, 32 * first), (a, 32 * (k - first))].filter (fun r => r.2 != 0)

/-- The oldest `k` queued records of a stream go into the slots of its region slice (18 R416). -/
def writeSlots (s : State) (n k : Nat) : State :=
  let x := s.stream n
  let rs := x.queue.take k
  let (_, s) := writePieces s demand (slotRanges s x x.writeIdx rs.length) (rs.flatMap (·.bytes))
  s.updStream n (fun y => { y with queue := y.queue.drop k, writeIdx := if x.slotCount = 0 then 0 else (x.writeIdx + rs.length) % x.slotCount })

end Sys2Proof.Machine
end

