-- ==== Sys2Proof/Machine/Walks.lean ====
section
/-!
DEFINITION. Running Prism's queue: passes and Lens walks begin, make their requests, and complete (04 R96, R99, R102, R105,
R449; 06 R138, R139, R143 to R157).
-/

namespace Sys2Proof.Machine

open Sys2Proof

/-- The context that an engine's accesses run in: its schedule's, or after that schedule's removal the last one. -/
def engineCtx (s : State) (p : Nat) : Nat :=
  let e := s.engine p
  match e.sched.bind s.sched? with
  | some x => x.ctx
  | none => e.lastCtx.getD 0xFFFF

/-- The N that a walk reads at its start (06 R139). -/
def walkN (s : State) (e : Engine) (w : WalkDesc) : Nat := if w.mode ≤ 1 then (s.seqEntry (rangeOf (e.load w.kDesc 64)).seq).n else 0

/-- A walk begins on an engine whose checks it has passed. -/
def beginWalk (s : State) (e : Engine) (x : Walk) : Walk := { x with started := true, n := walkN s e (walkOf x.desc), ctr := e.roundCtr }

/-- The operation that has come to the head of Prism's queue begins: a walk makes its checks, and does nothing where one
fails (06 R143). -/
def beginHead (s : State) (p : Nat) : State :=
  let e := s.engine p
  match e.prism with
  | .lens x :: r =>
    if x.started then s else
    let f := walkFault s e p (engineCtx s p) x.desc x.q
    if f = 0 then s.updEngine p (fun e => { e with prism := .lens (beginWalk s e x) :: r })
    else engineFault (s.updEngine p (fun e => { e with prism := r })) p f x.bundle 0
  | _ => s

/-- The head of Prism's queue leaves it. -/
def popPrism (s : State) (p : Nat) : State := beginHead (s.updEngine p (fun e => { e with prism := e.prism.drop 1 })) p

/-- A pass at the head of Prism's queue with its bytes in the stream, or ended by a failed stream. -/
def passDue (e : Engine) : Option Pass :=
  match e.prism with
  | .pass x :: _ => if x.bytes ≤ (e.mv x.mover).stream.length || (e.mv x.mover).streamFail.isSome then some x else none
  | _ => none

/-- A pass completes: its entries are written, or read +0 where its stream has failed (04 R99, R102, R449). -/
def passEnd (s : State) (p : Nat) (x : Pass) : State :=
  popPrism (s.updEngine p (fun e =>
    let b := (e.mv x.mover).stream
    if x.bytes ≤ b.length then (passResult e x (b.take x.bytes)).updMv x.mover (fun m => { m with stream := m.stream.drop x.bytes })
    else (e.accClear x.acc x.entries).updMv x.mover (fun m => { m with stream := [], streamFail := none }))) p

/-- PRISM_PASS_COMPLETE. -/
def execPrismPassComplete (t : Nat) (p : Fin 16) (s : State) : Host.Outcome State Fault Refusal :=
  timed t s (fun s => s.clocked && (passDue (s.engine p)).isSome) (fun s => match passDue (s.engine p) with | some x => passEnd s p x | none => s)

/-! ### Requests of a walk (06 R155) -/

/-- A read of a walk. -/
def walkRead (p c : Nat) (n : Option Nat) (va len : Nat) : EngReq := { owner := .lens p, ctx := c, sched := n, va := va, len := len }

/-- The requests of a tile, in token order; DESIGN CHOICE: the key before the value, a unit before its header (log entry 126). -/
def tileReqs (p c : Nat) (n : Option Nat) (t : Tile) : List EngReq :=
  match t.kind with
  | .page => [walkRead p c n t.k 4096, walkRead p c n t.kHdr 512, walkRead p c n t.v 4096, walkRead p c n t.vHdr 512]
  | .spec => []
  | _ => [walkRead p c n t.k 4096, walkRead p c n t.v 4096]

/-- The bytes of a tile from what its requests gave. -/
def tileBytes (e : Engine) (w : WalkDesc) (k : RangeDesc) (t : Tile) (gs : List Got) : TileBytes :=
  let b (i : Nat) : Bytes := ((gs[i]?).map Got.bytes).getD []
  match t.kind with
  | .page => { k := b 0, kHdr := b 1, v := b 2, vHdr := b 3 }
  | .spec => let n := w.spec * fmtBytes k.plainFmt k.d; { k := e.load w.srcK n, v := e.load w.srcV n }
  | _ => { k := b 0, v := b 1 }

/-- Performs requests in order: what each gave. -/
def performAll (s : State) : List EngReq → List Got × State
  | [] => ([], s)
  | r :: rs =>
    let (g, s) := performReq s r
    let (gs, s) := performAll s rs
    (g :: gs, s)

/-- The first status that is not OK. -/
def firstBadStatus (gs : List Got) : Nat := ((gs.find? (fun g => g.status != stOk)).map (·.status)).getD stOk

/-- Starts what goes to the home; false while it is awaited. -/
def awaitReqs (s : State) (o : NcOwner) (rs : List EngReq) : Bool × State := let s := rs.foldl startReq s; (!ncOpen s o && !rs.any (·.held s), s)

/-- A walk ends: STATUS is written, Prism goes on, and the engine faults where the status is not OK and ON_ERROR is 0 (06
R155). -/
def walkEnd (s : State) (p : Nat) (x : Walk) (st tiles : Nat) (e : Engine) : State :=
  let s := ncCollect (s.updEngine p (fun _ => e.save (x.addr + 44) (natLe st 2))) (.lens p)
  let s := bump s .engine p 7 tiles
  let s := match e.sched with | some n => bump s .schedule n 8 1 | none => s
  let s := s.updEngine p (fun e => { e with prism := e.prism.drop 1 })
  beginHead (if st != stOk && !(walkOf x.desc).flag 6 then engineFault s p flMover (s.engine p).pc st else s) p

/-- An ATTEND walk's end. -/
def endAttend (s : State) (p : Nat) (x : Walk) : State :=
  let e := s.engine p
  let w := walkOf x.desc
  let k := rangeOf (e.load w.kDesc 64)
  let c := engineCtx s p
  let tiles := tilesOf s e p c w x.n
  let reqs := tiles.map (fun t => (t, tileReqs p c e.sched t))
  let (ok, s) := awaitReqs s (.lens p) (reqs.flatMap (·.2))
  if !ok then s else
  let (gs, s) := reqs.foldl (fun (acc : List (Tile × List Got) × State) r => let (g, s) := performAll acc.2 r.2; (acc.1 ++ [(r.1, g)], s)) ([], s)
  let st := firstBadStatus (gs.flatMap (·.2))
  walkEnd s p x st tiles.length (attendEnd e p w x.n st (attendParts e w x.n x.q (gs.map (fun g => (g.1, tileBytes e w k g.1 g.2)))))

/-! ### Appending (06 R151 to R153) -/

/-- A step of an APPEND, one request each: token bytes written, a tail unit read for a seal, the sealed page and its header
written (06 R151, R152, R155). -/
inductive AppendStep where
  | tokens (va : Nat) (b : Bytes)
  | tail (va : Nat)
  | page (va : Nat) (keys : Bool)
  | header (va : Nat) (keys : Bool)
deriving DecidableEq, Repr

/-- The units of `per` tokens that tokens n to n + a − 1 fall in: each with its first token, counted from n, and its tokens. -/
def unitGroups (per n a : Nat) : List (Nat × Nat) :=
  (rangeFrom (n / per) (ceilDiv (n + a) per - n / per)).map (fun u => (max n (u * per) - n, min (n + a) ((u + 1) * per) - max n (u * per)))

/-- The steps of an APPEND to a range outside KVC4, one for each unit (06 R151). -/
def plainSteps (e : Engine) (w : WalkDesc) (r : RangeDesc) (src n : Nat) : List AppendStep :=
  let size := fmtBytes r.fmt r.d
  (unitGroups r.unitTokens n w.count).map (fun g => .tokens (tokenVa r.tokenBytes (r.runsOf e) (n + g.1)) (e.load (src + g.1 * size) (g.2 * size)))

/-- The steps of a seal of page `i`: the tail is read, and the page and its header are written (06 R152). -/
def sealSteps (e : Engine) (r : RangeDesc) (i : Nat) : List AppendStep :=
  (List.range 4).map (fun j => .tail (r.tail + 4096 * j)) ++ [.page (tokenVa 64 (r.runsOf e) (i * 64)) (r.role == 0), .header (r.hdr + i * 512) (r.role == 0)]

/-- The steps of an APPEND to a KVC4 range: the tokens of each tail unit, and a seal after the last slot (06 R152). -/
def kvcSteps (e : Engine) (w : WalkDesc) (r : RangeDesc) (src n : Nat) : List AppendStep :=
  (unitGroups 16 n w.count).flatMap (fun g =>
    .tokens (r.tail + (n + g.1) % 64 * 256) (e.load (src + g.1 * 256) (g.2 * 256)) ::
      (if (n + g.1 + g.2) % 64 = 0 then sealSteps e r ((n + g.1) / 64) else []))

/-- The steps of an APPEND in order: the K range and then the V range of KVC4 (06 R152), else key and value units in token order (06
R155). -/
def appendSteps (e : Engine) (w : WalkDesc) (n : Nat) : List AppendStep :=
  let k := rangeOf (e.load w.kDesc 64)
  let v := rangeOf (e.load w.vDesc 64)
  if k.kvc then kvcSteps e w k w.srcK n ++ kvcSteps e w v w.srcV n
  else (List.zipWith (fun a b => [a, b]) (plainSteps e w k w.srcK n) (plainSteps e w v w.srcV n)).flatten

/-- The page and the header that a walk seals from the tail it has read (05 R124, R128; 06 R152). -/
def sealed (key : BitVec 64) (p : Nat) (x : Walk) (keys : Bool) : Bytes × Bytes :=
  sealPage keys (rounding ((walkOf x.desc).flag 3) key p (x.ctr + (x.seals - 1))) x.tail

/-- The request of a step. -/
def AppendStep.request (key : BitVec 64) (p c : Nat) (n : Option Nat) (x : Walk) : AppendStep → EngReq
  | .tokens va b => { walkRead p c n va b.length with data := some b, write := true }
  | .tail va => { walkRead p c n va 4096 with write := true }
  | .page va keys => { walkRead p c n va 4096 with data := some (sealed key p x keys).1, write := true }
  | .header va keys => { walkRead p c n va 512 with data := some (sealed key p x keys).2, write := true }

/-- A walk after a step that succeeded: the last tail unit makes a seal, whose header ends it. DESIGN CHOICE: the seal counts from
there, also where the write of its page or header then fails (log entry 125). -/
def AppendStep.after (x : Walk) (g : Got) : AppendStep → Walk
  | .tail _ =>
    let b := x.tail ++ g.bytes
    { x with done := x.done + 1, tail := b, seals := if b.length = 16384 then x.seals + 1 else x.seals }
  | .header _ _ => { x with done := x.done + 1, tail := [] }
  | _ => { x with done := x.done + 1 }

/-- Performs steps up to the first that fails, one after another; no status where one waits for a home. -/
def runAppend (s : State) (key : BitVec 64) (p c : Nat) : List AppendStep → Walk → Option Nat × Walk × State
  | [], x => (some stOk, x, s)
  | st :: r, x =>
    let q := st.request key p c (s.engine p).sched x
    let s := startReq s q
    if q.waits s then (none, x, s) else
    let (g, s) := performReq s q
    let s := ncCollect s q.owner
    if g.status != stOk then (some g.status, x, s) else runAppend s key p c r (st.after x g)

/-- The walk that runs keeps its progress. -/
def keepWalk (s : State) (p : Nat) (x : Walk) : State := s.updEngine p (fun e => { e with prism := .lens x :: e.prism.drop 1 })

/-- An APPEND walk goes on, and ends: the rounding counter advances by its seals with seeded stochastic rounding (05 R128). -/
def endAppend (s : State) (p : Nat) (x : Walk) : State :=
  let e := s.engine p
  let w := walkOf x.desc
  if x.n + w.count > (rangeOf (e.load w.kDesc 64)).capacity then walkEnd s p x stBadArg 0 e else
  let key := match e.sched.bind s.sched? with | some g => roundKey g | none => 0
  match runAppend s key p (engineCtx s p) ((appendSteps e w x.n).drop x.done) x with
  | (none, x, s) => keepWalk s p x
  | (some st, x, s) =>
    let e := s.engine p
    walkEnd s p x st 0 (if w.flag 3 then { e with roundCtr := e.roundCtr + x.seals } else e)

/-! ### SETLEN (06 R154) -/

/-- The new length of a SETLEN. -/
def newLength (w : WalkDesc) (n : Nat) : Int := if w.flag 7 then (n : Int) + signed w.value 32 else w.value

/-- SETLEN accepts a new length. -/
def lengthOk (k : RangeDesc) (n : Nat) (v : Int) : Bool :=
  0 ≤ v && v ≤ k.capacity && !(k.kvc && v % 64 != 0 && v < (64 * (n / 64) : Nat))

/-- A SETLEN walk's end: N is written once. An entry that its context no longer owns is left alone and the walk completes with
DENIED (06 R138; the status is a DESIGN CHOICE, log entry 108). -/
def endSetlen (s : State) (p : Nat) (x : Walk) : State :=
  let e := s.engine p
  let w := walkOf x.desc
  let k := rangeOf (e.load w.kDesc 64)
  let n := (s.seqEntry k.seq).n
  let v := newLength w n
  if (s.seqEntry k.seq).owner != some (engineCtx s p) then walkEnd s p x stDenied 0 e
  else if lengthOk k n v then walkEnd (s.updSeq k.seq (fun q => { q with n := v.toNat })) p x stOk 0 e else walkEnd s p x stBadArg 0 e

/-- A walk ends, or waits for what it asked of a home. -/
def endWalk (s : State) (p : Nat) (x : Walk) : State :=
  match (walkOf x.desc).mode with
  | 0 => endAttend s p x
  | 1 => endAppend s p x
  | 2 => let (st, e) := mergeWalk (s.engine p) (walkOf x.desc) x.acc0; walkEnd s p x st 0 e
  | _ => endSetlen s p x

/-- The walk that runs. -/
def walkRunning (e : Engine) : Option Walk := match e.prism with | .lens x :: _ => if x.started then some x else none | _ => none

/-- LENS_WALK_COMPLETE. -/
def execLensWalkComplete (t : Nat) (p : Fin 16) (s : State) : Host.Outcome State Fault Refusal :=
  timed t s (fun s => s.clocked && (walkRunning (s.engine p)).isSome) (fun s => match walkRunning (s.engine p) with | some x => endWalk s p x | none => s)

end Sys2Proof.Machine
end

