-- ==== Sys2Proof/Machine/Issue.lean ====
section
/-!
DEFINITION. Issue: a bundle's interlocks, waits, faults and effects, and the rows of the four slots (04 R81, R82, R88, R89,
R96, R100 to R102; 07 R185, R186). A bundle issues whole: a row of one of its operations issues all four slots (log entry 4).
-/

namespace Sys2Proof.Machine

open Sys2Proof

/-- The predicate lets an operation take effect (04 R81). -/
def Placed.enabled (e : Engine) (o : Placed) : Bool := e.p o.x.pred != o.x.pneg

/-! ### Interlocks (04 R82, R96, R101) -/

/-- Two ranges of accumulator entries share a block of 512. -/
def accMeets (x y : Nat × Nat) : Bool := x.2 != 0 && y.2 != 0 && x.1 / 512 ≤ (y.1 + y.2 - 1) / 512 && y.1 / 512 ≤ (x.1 + x.2 - 1) / 512

/-- The walks among operations of Prism's queue, the latest first. -/
def walksOf (l : List PrismOp) : List WalkDesc := (l.filterMap (fun o => match o with | .lens x => some (walkOf x.desc) | .pass _ => none)).reverse

/-- The accumulator entries and query rows of an operation on Prism's queue. -/
def PrismOp.entries (e : Engine) : PrismOp → Nat × Nat
  | .pass x => (x.acc, x.entries)
  | .lens x => walkEntries e (walksOf (e.prism.takeWhile (· != .lens x))) x.desc

/-- The query rows that an operation on Prism's queue reads. -/
def PrismOp.rows : PrismOp → Nat × Nat
  | .pass x => (x.row, x.rows)
  | .lens x => walkRows x.desc

/-- The accumulator entries that an operation reads. -/
def Placed.accReads (o : Placed) : Nat × Nat :=
  match o.op with
  | .vacc => (o.x.x, lanes)
  | .prPass => if (passOf o.x).accumulate then (o.x.x, (passOf o.x).entries) else (0, 0)
  | _ => (0, 0)

/-- The 64 bytes of the walk descriptor that a PR.LENS names. -/
def lensDesc (e : Engine) (o : Placed) : Bytes := e.load (e.a o.x.a).value.toNat 64

/-- The loaded bytes of the query rows that a PR.LENS reads (04 R82, R447). -/
def lensRows (e : Engine) (o : Placed) : List Bytes :=
  let r := walkRows (lensDesc e o)
  (rangeFrom r.1 r.2).map (fun i => e.row i (tgetD e.qlen 0 i))

/-- The accumulator entries that an operation writes. -/
def Placed.accWrites (e : Engine) (o : Placed) : Nat × Nat :=
  match o.op with
  | .vaccw => (o.x.x, lanes)
  | .prClr => (o.x.x, o.x.imm)
  | .prPass => (o.x.x, (passOf o.x).entries)
  | .prLens => walkEntries e (walksOf e.prism) (lensDesc e o)
  | _ => (0, 0)

/-- An operation of Prism's slot. -/
def Op.isPrism : Op → Bool
  | .prQload | .prPass | .prLens | .prClr => true
  | _ => false

/-- A walk that may take rounding counters stands on Prism's queue: a later operation that takes one stalls until the walk has
ended, so that counters advance in program issue order (05 R128). -/
def sealQueued (e : Engine) : Bool :=
  e.prism.any (fun x => match x with | .lens x => (walkOf x.desc).mode == 1 && (walkOf x.desc).flag 3 | .pass _ => false)

/-- An operation takes a rounding counter. -/
def Placed.stochastic (o : Placed) : Bool := (o.op == .vst && o.x.d == 1) || (o.op == .vmovq && o.x.b == 1)

/-- An operation meets an outstanding access, or a unit that cannot accept it. -/
def Placed.held (e : Engine) (o : Placed) : Bool :=
  e.prism.any (fun x => accMeets o.accReads (x.entries e))
    || (o.enabled e &&
      (e.prism.any (fun x => accMeets (o.accWrites e) (x.entries e))
        || (o.op.writes o.x).any (fun w => w.1 == .q && e.prism.any (fun x => x.rows.1 ≤ w.2 && w.2 < x.rows.1 + x.rows.2))
        || ((o.op == .mvIssue || o.op == .mvIssuex) && (e.mv o.x.d).queue.length ≥ 9)
        || (o.op.isPrism && e.prism.length ≥ 2)
        || (o.op == .ovl && e.overlays.length ≥ 2)
        || (o.stochastic && sealQueued e)))

/-- The bundle lies in the target of an unfinished overlay (04 R101). -/
def overlaid (e : Engine) : Bool := e.overlays.any (fun o => o.target ≤ e.pc && e.pc < o.target + o.count)

/-! ### Waits (04 R88; 07 R186) -/

/-- The engine is idle in the units that a mask names: Prism's queue is empty, no walk stands in it, the vector unit. -/
def unitsIdle (e : Engine) (mask : Nat) : Bool :=
  (!bit mask 0 || e.prism.isEmpty) && (!bit mask 1 || !e.prism.any (fun x => match x with | .lens _ => true | .pass _ => false))

/-- The instant of the current occurrence of trigger `i`. -/
def currentInstant (e : Engine) (g : Sched) (p i : Nat) : Option Nat :=
  match triggerOf g.image p i, g.t0 with
  | some x, some t0 => some (x.instant t0 (e.current i))
  | _, _ => none

/-- An enabled wait that is not satisfied, or a DONE whose previous occurrence has not ended. -/
def Placed.waits (s : State) (e : Engine) (g : Sched) (p : Nat) (o : Placed) : Bool :=
  let x := o.x
  o.enabled e && (match o.op with
    | .waitTime => !(currentInstant e g p x.x).any (· ≤ s.ctOf p)
    | .waitSync => (s.syncObj x.x).value.toNat < (if x.c = 1 then (e.s x.a).toNat else x.imm)
    | .waitMover => ((e.mv x.a).done - BitVec.ofNat 32 x.imm).toNat ≥ 2 ^ 31
    | .waitUnit => !unitsIdle e x.c
    | .ovlWait => !e.overlays.isEmpty
    | .done => e.doneHeld x.x
    | _ => false)

/-! ### Faults (04 R102, R448) -/

/-- The descriptor that an MV.ISSUE or MV.ISSUEX queues. -/
def issuedDesc (e : Engine) (o : Placed) : Desc :=
  let d := descOf (e.load (e.a o.x.a).value.toNat 64)
  if o.op = .mvIssuex then
    { d with src := if o.x.b = 0xFF then d.src else (e.a o.x.b).value.toNat, dst := if o.x.c = 0xFF then d.dst else (e.a o.x.c).value.toNat }
  else d

/-- MV.ISSUEX's address registers stand in the space of their use: pool or store; host addresses have no space. -/
def spacesOk (e : Engine) (o : Placed) (d : Desc) : Bool :=
  o.op != .mvIssuex ||
    ((o.x.b == 0xFF || d.kind == 8 || (e.a o.x.b).space == d.fromPool)
      && (o.x.c == 0xFF || [3, 4, 7, 9].contains d.kind || (e.a o.x.c).space == d.toPool))

/-- The store rows of a descriptor lie in the store, outside the partition (04 R91). -/
def storeRowsOk (e : Engine) (d : Desc) : Bool :=
  (!d.fromStore || rowsWithin d.src d.srcStride d.rows d.length e.storeEnd)
    && (!d.toStore || rowsWithin d.dst d.dstStride d.rows d.length (if d.kind = 5 then 2 ^ 24 else e.storeEnd))
    && (d.kind != 6 || rowsWithin d.dst d.dstStride d.rows d.length (2 ^ 24))

/-- The objects that a descriptor names belong to the context (04 R102). -/
def ownersOk (s : State) (c : Nat) (d : Desc) : Bool :=
  (!d.signal || ownsSync s c d.sync) && (d.kind < 6 || (s.session (d.session.toNat % 65536)).ctx == some c)

/-- The fault of an MV.ISSUE, or 0. -/
def moverFault (s : State) (e : Engine) (c triggers : Nat) (o : Placed) : Nat :=
  let d := issuedDesc e o
  firstFault [e.storeFault o.x.a 0 64 64, faultUnless (descOk (e.load (e.a o.x.a).value.toNat 64) d triggers) flDesc, faultUnless (spacesOk e o d) flSpace,
    faultUnless (storeRowsOk e d) flStore, faultUnless (ownersOk s c d) flOwner]

/-- The count of a LOOP. -/
def loopCount (e : Engine) (x : Slot) : BitVec 64 := if x.c = 1 then e.s x.a else BitVec.ofNat 64 x.imm2

/-- The target of a BR. -/
def brTarget (e : Engine) (x : Slot) : Int := (e.pc : Int) + x.simm

/-- The fault of an OVL, or 0 (04 R101, R102). -/
def overlayFault (e : Engine) (len : Nat) (x : Slot) : Nat :=
  firstFault [faultUnless (x.x + x.imm2 ≤ imemSize) flBranch, faultUnless (x.imm + x.imm2 ≤ len) flOverlay,
    faultUnless (!(x.x ≤ e.pc && e.pc < x.x + x.imm2) && !e.loops.any (fun l => overlaps x.x (x.x + x.imm2) l.first (l.last + 1))) flOverlay]

/-- The fault of an operation at issue, or 0. DESIGN CHOICE: a LOOP whose count is 0 pushes nothing, so four levels do not make it a
fifth nested one (log entry 124). -/
def Placed.fault (s : State) (e : Engine) (g : Sched) (p : Nat) (o : Placed) : Nat :=
  let x := o.x
  match o.op with
  | .br => faultUnless (0 ≤ brTarget e x && brTarget e x < imemSize) flBranch
  | .loop => firstFault [faultUnless (e.pc + x.imm < imemSize) flBranch, faultUnless (loopCount e x = 0 || e.loops.length < 4) flLoop]
  | .lds | .sts => e.storeFault x.a x.imm 8 8
  | .waitSync | .signal | .syncReset => faultUnless (ownsSync s g.ctx x.x) flOwner
  | .ovl => overlayFault e (streamLen g.image p) x
  | .mvIssue | .mvIssuex => moverFault s e g.ctx ((sectFor g.image 2 p).length / 16) o
  | .prLens => firstFault [e.storeFault x.a 0 64 64, if e.prism.isEmpty then walkFault s e p g.ctx (lensDesc e o) (lensRows e o) else 0]
  | .prQload | .prPass | .prClr => prismFault e o
  | _ => vectorFault e o

/-! ### Effects -/

/-- A comparison's condition (04 R88). -/
def condition (c : Nat) (x y : BitVec 64) : Bool :=
  match c with
  | 0 => x == y | 1 => x != y | 2 => x.slt y | 3 => !x.slt y | 4 => x.ult y | _ => !x.ult y

/-- A predicate operation (04 R88). -/
def predOp (c : Nat) (x y : Bool) : Bool :=
  match c with
  | 0 => x && y | 1 => x || y | 2 => x != y | _ => x && !y

/-- IMM sign-extended to 64 bits. -/
def Slot.imm64 (x : Slot) : BitVec 64 := BitVec.ofInt 64 x.simm

/-- The scalar arithmetic of the control slot. -/
def alu (o : Op) (x y : BitVec 64) : BitVec 64 :=
  match o with
  | .add => x + y | .sub => x - y | .mul => x * y | .and => x &&& y | .or => x ||| y | .xor => x ^^^ y
  | .shl => x <<< (y.toNat % 64) | .shr => x >>> (y.toNat % 64) | _ => x.sshiftRight (y.toNat % 64)

/-- A control operation's effect on registers and store; spec/ does not state bits [31:16] of MVSTAT's result (log entry 13). -/
def ctrlEffect (e0 e : Engine) (o : Placed) : Engine :=
  let x := o.x
  match o.op with
  | .add | .sub | .mul | .and | .or | .xor | .shl | .shr | .sra => e.setS x.d (alu o.op (e0.s x.a) (e0.s x.b))
  | .addi => e.setS x.d (e0.s x.a + x.imm64)
  | .li => e.setS x.d x.imm64
  | .lih => e.setS x.d (BitVec.ofNat 32 x.imm ++ (e0.s x.d).setWidth 32)
  | .cmp => e.setP x.d (condition x.c (e0.s x.a) (e0.s x.b))
  | .cmpi => e.setP x.d (condition x.c (e0.s x.a) x.imm64)
  | .plog => e.setP x.d (predOp x.c (e0.p x.a) (e0.p x.b))
  | .aset => e.setA x.d { value := (e0.s x.a).setWidth 48, space := bit x.c 0 }
  | .aadd => e.setA x.d { e0.a x.a with value := (e0.a x.a).value + (e0.s x.b).setWidth 48 }
  | .aaddi => e.setA x.d { e0.a x.a with value := (e0.a x.a).value + x.imm64.setWidth 48 }
  | .aget => e.setS x.d ((e0.a x.a).value.setWidth 64)
  | .lds => e.setS x.d (BitVec.ofNat 64 (leNat (e0.load (e0.storeAddr x.a x.imm) 8)))
  | .sts => e.save (e0.storeAddr x.a x.imm) (natLe (e0.s x.b).toNat 8)
  | .mvstat => e.setS x.d ((e0.mv x.a).done ++ (Config.mvstatHigh (e0.mv x.a).done (e0.mv x.a).status ++ (e0.mv x.a).status))
  | .halt => { e with issuing := false, halted := true }
  | .ovl => { e with overlays := e.overlays ++ [{ target := x.x, source := x.imm, count := x.imm2 }] }
  | _ => e

/-- Queues a descriptor (04 R89; 07 R186). -/
def queueDesc (e : Engine) (mv : Nat) (d : Desc) : Engine :=
  let d := { d with occurrence := e.current d.step }
  let e := e.updMv mv (fun m => { m with queue := m.queue ++ [d] })
  if d.step = 0xFFFF then e else e.joinStep d.step

/-- A PR.LENS joins Prism's queue. -/
def queueWalk (e0 e : Engine) (o : Placed) : Engine :=
  { e with prism := e.prism ++ [.lens { addr := (e0.a o.x.a).value.toNat, bundle := e0.pc, desc := lensDesc e0 o, q := lensRows e0 o
                                        acc0 := if (walkOf (lensDesc e0 o)).flag 5 then e0.acc else [] }] }

/-- An operation's effect on the engine. -/
def Placed.effect (s : State) (g : Sched) (p : Nat) (e0 e : Engine) (o : Placed) : Engine :=
  match o.op with
  | .mvIssue | .mvIssuex => queueDesc e o.x.d (issuedDesc e0 o)
  | .prLens =>
    let e := queueWalk e0 e o
    (match e.prism with
      | [.lens x] => { e with prism := [.lens (beginWalk s e x)] }
      | _ => e)
  | .prQload | .prPass | .prClr => prismEffect e0 e o
  | _ => vectorEffect (roundKey g) p e0 (ctrlEffect e0 e o) o

/-- An operation's effect outside the engine. -/
def Placed.outside (s : State) (n : Nat) (g : Sched) (p : Nat) (e0 : Engine) (o : Placed) : State :=
  let x := o.x
  match o.op with
  | .signal => syncSignal s x.x x.imm
  | .syncReset => syncReset s x.x
  | .done => doneStep s p x.x
  | .trace => trace s 1 (0x10 + p) (some g.ctx) (s.ctOf p) (natLe x.x 2 ++ natLe (e0.s x.a).toNat 8 ++ natLe n 1)
  | .ovl => bump s .schedule n 9 1
  | _ => s

/-- Where issue goes on: the loops and the next bundle (04 R88). -/
def flow (e : Engine) (o : Placed) : List LoopLevel × Nat :=
  if !o.enabled e then loopNext e.pc e.loops else
  match o.op with
  | .br => (loopKeep (brTarget e o.x).toNat e.loops, (brTarget e o.x).toNat)
  | .loop =>
    if loopCount e o.x = 0 then loopNext (e.pc + o.x.imm) e.loops
    else ({ first := e.pc + 1, last := e.pc + o.x.imm, remaining := loopCount e o.x } :: e.loops, e.pc + 1)
  | _ => loopNext e.pc e.loops

/-- An operation of the vector slot. -/
def Op.isVector : Op → Bool
  | .vld | .vst | .vacc | .vaccw | .vmovq | .vadd | .vsub | .vmul | .vfma | .vmax | .vmin | .vbcast | .vseti | .vredsum | .vredmax
  | .vexp2 | .vlog2 | .vrcp | .vrsqrt | .vsilu | .vsigm | .vrope | .vtopk => true
  | _ => false

/-- The operations of a bundle that take effect, in the order mover, vector, Prism, control: a descriptor joins the
occurrence that a DONE of the same bundle closes (07 R186), and a rounding vector operation takes its counter before a walk of the
same bundle (DESIGN CHOICE, log entry 104: 05 R128 orders counters by issue, and a bundle issues whole). DESIGN CHOICE: where VACCW and
PR.CLR of one bundle write the same accumulator entries, the clear comes after (log entry 124). -/
def effective (e : Engine) (ops : List Placed) : List Placed :=
  (match ops with | [c, m, p, v] => [m, v, p, c] | l => l).filter (·.enabled e)

/-- A bundle takes effect (04 R82). -/
def applyBundle (s : State) (p n : Nat) (g : Sched) (ops : List Placed) : State :=
  let e0 := s.engine p
  let on := effective e0 ops
  let (loops, pc) := flow e0 ((ops.head?).getD { op := .nop, x := slotOf 0 })
  let e := on.foldl (Placed.effect s g p e0) e0
  let s := s.updEngine p (fun _ => { e with loops := loops, pc := pc, lastIssue := s.now })
  let s := on.foldl (fun s o => o.outside s n g p e0) s
  let s := bump (bump s .engine p 0 1) .schedule n 0 1
  let s := if on.any (·.op.isVector) then bump s .engine p 8 1 else s
  if pc ≥ imemSize && (s.engine p).issuing then engineFault s p flBranch imemSize 0 else s

/-- The bundle at the pc. -/
def Engine.bundle (e : Engine) : BitVec 512 := tgetD e.imem 0 e.pc

/-- The bundle at the pc issues, stalls, or faults (04 R82, R102). Where several slots or checks of a bundle fault, the fault is
that of the first slot in the order control, mover, Prism, vector, and of its first check in the order written here; an
object that a WAIT_SYNC may not name comes before all (DESIGN CHOICE, log entry 105). -/
def issueBundle (s : State) (p : Nat) : State :=
  let e := s.engine p
  let ops := bundleOps e.bundle
  match runningOn s p with
  | none => s
  | some (n, g) =>
    if overlaid e || ops.any (·.held e) then s
    else if ops.any (fun o => o.op == .waitSync && o.enabled e && !ownsSync s g.ctx o.x.x) then engineFault s p flOwner e.pc 0
    else if ops.any (·.waits s e g p) then s
    else
      let f := firstFault ((ops.filter (·.enabled e)).map (·.fault s e g p))
      if f = 0 then applyBundle s p n g ops else engineFault s p f e.pc 0

/-- The movers that the waits of the bundle at the pc wait on, where every wait that holds the sequencer is a WAIT_MOVER on a
mover suspended for a page request (04 R95); none after a HALT, and none while the bundle itself is being overlaid. -/
def pagePausers (s : State) (p : Nat) : List Nat :=
  match runningOn s p with
  | none => []
  | some (_, g) =>
    let e := s.engine p
    let ws := (bundleOps e.bundle).filter (fun o => o.waits s e g p)
    if !e.halted && !overlaid e && ws.all (fun o => o.op == .waitMover && (e.mv o.x.a).queue.head?.any (fun d => d.phase == 2 || d.phase == 5)) then
      ws.map (·.x.a)
    else []

/-- A suspended mover alone holds the sequencer (04 R95). -/
def pagePaused (s : State) (p : Nat) : Bool := !(pagePausers s p).isEmpty

/-- The suspension of mover `mv` for a page request ends: the progress watchdog did not advance while a WAIT_MOVER on it alone held
the sequencer (04 R95). -/
def creditPause (s : State) (p mv : Nat) : State :=
  let since := (((s.engine p).mv mv).queue.head?.map (·.asked)).getD s.now
  if (pagePausers s p).contains mv then s.updEngine p (fun e => { e with lastIssue := min s.now (e.lastIssue + (s.now - max since e.lastIssue)) }) else s

/-- The sequencer of a paddock issues a bundle that holds an operation. -/
def issueRow (s : State) (p : Nat) (want : Placed → Bool) : Host.Outcome State Fault Refusal :=
  .next (if s.clocked && (s.engine p).issuing && (bundleOps (s.engine p).bundle).any want then issueBundle s p else s)

/-- A row of an operation. -/
def issueOp (s : State) (p : Nat) (o : Op) : Host.Outcome State Fault Refusal := issueRow s p (·.op == o)

/-- NOP. -/
def execOpNop (p : Fin 16) (s : State) : Host.Outcome State Fault Refusal := issueOp s p .nop
/-- HALT. -/
def execOpHalt (p : Fin 16) (s : State) : Host.Outcome State Fault Refusal := issueOp s p .halt
/-- BR. -/
def execOpBr (p : Fin 16) (s : State) : Host.Outcome State Fault Refusal := issueOp s p .br
/-- LOOP. -/
def execOpLoop (p : Fin 16) (s : State) : Host.Outcome State Fault Refusal := issueOp s p .loop
/-- ADD. -/
def execOpAdd (p : Fin 16) (s : State) : Host.Outcome State Fault Refusal := issueOp s p .add
/-- ADDI. -/
def execOpAddi (p : Fin 16) (s : State) : Host.Outcome State Fault Refusal := issueOp s p .addi
/-- SUB. -/
def execOpSub (p : Fin 16) (s : State) : Host.Outcome State Fault Refusal := issueOp s p .sub
/-- MUL. -/
def execOpMul (p : Fin 16) (s : State) : Host.Outcome State Fault Refusal := issueOp s p .mul
/-- AND. -/
def execOpAnd (p : Fin 16) (s : State) : Host.Outcome State Fault Refusal := issueOp s p .and
/-- OR. -/
def execOpOr (p : Fin 16) (s : State) : Host.Outcome State Fault Refusal := issueOp s p .or
/-- XOR. -/
def execOpXor (p : Fin 16) (s : State) : Host.Outcome State Fault Refusal := issueOp s p .xor
/-- SHL. -/
def execOpShl (p : Fin 16) (s : State) : Host.Outcome State Fault Refusal := issueOp s p .shl
/-- SHR. -/
def execOpShr (p : Fin 16) (s : State) : Host.Outcome State Fault Refusal := issueOp s p .shr
/-- SRA. -/
def execOpSra (p : Fin 16) (s : State) : Host.Outcome State Fault Refusal := issueOp s p .sra
/-- LI. -/
def execOpLi (p : Fin 16) (s : State) : Host.Outcome State Fault Refusal := issueOp s p .li
/-- LIH. -/
def execOpLih (p : Fin 16) (s : State) : Host.Outcome State Fault Refusal := issueOp s p .lih
/-- CMP. -/
def execOpCmp (p : Fin 16) (s : State) : Host.Outcome State Fault Refusal := issueOp s p .cmp
/-- CMPI. -/
def execOpCmpi (p : Fin 16) (s : State) : Host.Outcome State Fault Refusal := issueOp s p .cmpi
/-- PLOG. -/
def execOpPlog (p : Fin 16) (s : State) : Host.Outcome State Fault Refusal := issueOp s p .plog
/-- ASET. -/
def execOpAset (p : Fin 16) (s : State) : Host.Outcome State Fault Refusal := issueOp s p .aset
/-- AADD. -/
def execOpAadd (p : Fin 16) (s : State) : Host.Outcome State Fault Refusal := issueOp s p .aadd
/-- AADDI. -/
def execOpAaddi (p : Fin 16) (s : State) : Host.Outcome State Fault Refusal := issueOp s p .aaddi
/-- AGET. -/
def execOpAget (p : Fin 16) (s : State) : Host.Outcome State Fault Refusal := issueOp s p .aget
/-- LDS. -/
def execOpLds (p : Fin 16) (s : State) : Host.Outcome State Fault Refusal := issueOp s p .lds
/-- STS. -/
def execOpSts (p : Fin 16) (s : State) : Host.Outcome State Fault Refusal := issueOp s p .sts
/-- MVSTAT. -/
def execOpMvstat (p : Fin 16) (s : State) : Host.Outcome State Fault Refusal := issueOp s p .mvstat
/-- WAIT_TIME. -/
def execOpWaitTime (p : Fin 16) (s : State) : Host.Outcome State Fault Refusal := issueOp s p .waitTime
/-- WAIT_SYNC. -/
def execOpWaitSync (p : Fin 16) (s : State) : Host.Outcome State Fault Refusal := issueOp s p .waitSync
/-- WAIT_MOVER. -/
def execOpWaitMover (p : Fin 16) (s : State) : Host.Outcome State Fault Refusal := issueOp s p .waitMover
/-- WAIT_UNIT. -/
def execOpWaitUnit (p : Fin 16) (s : State) : Host.Outcome State Fault Refusal := issueOp s p .waitUnit
/-- SIGNAL. -/
def execOpSignal (p : Fin 16) (s : State) : Host.Outcome State Fault Refusal := issueOp s p .signal
/-- SYNC_RESET. -/
def execOpSyncReset (p : Fin 16) (s : State) : Host.Outcome State Fault Refusal := issueOp s p .syncReset
/-- DONE. -/
def execOpDone (p : Fin 16) (s : State) : Host.Outcome State Fault Refusal := issueOp s p .done
/-- OVL. -/
def execOpOvl (p : Fin 16) (s : State) : Host.Outcome State Fault Refusal := issueOp s p .ovl
/-- OVL_WAIT. -/
def execOpOvlWait (p : Fin 16) (s : State) : Host.Outcome State Fault Refusal := issueOp s p .ovlWait
/-- TRACE. -/
def execOpTrace (p : Fin 16) (s : State) : Host.Outcome State Fault Refusal := issueOp s p .trace
/-- MV.ISSUE. -/
def execOpMvIssue (p : Fin 16) (s : State) : Host.Outcome State Fault Refusal := issueOp s p .mvIssue
/-- MV.ISSUEX. -/
def execOpMvIssuex (p : Fin 16) (s : State) : Host.Outcome State Fault Refusal := issueOp s p .mvIssuex
/-- PR.QLOAD. -/
def execOpPrQload (p : Fin 16) (s : State) : Host.Outcome State Fault Refusal := issueOp s p .prQload
/-- PR.PASS. -/
def execOpPrPass (p : Fin 16) (s : State) : Host.Outcome State Fault Refusal := issueOp s p .prPass
/-- PR.CLR. -/
def execOpPrClr (p : Fin 16) (s : State) : Host.Outcome State Fault Refusal := issueOp s p .prClr
/-- VLD. -/
def execOpVld (p : Fin 16) (s : State) : Host.Outcome State Fault Refusal := issueOp s p .vld
/-- VST. -/
def execOpVst (p : Fin 16) (s : State) : Host.Outcome State Fault Refusal := issueOp s p .vst
/-- VACC. -/
def execOpVacc (p : Fin 16) (s : State) : Host.Outcome State Fault Refusal := issueOp s p .vacc
/-- VACCW. -/
def execOpVaccw (p : Fin 16) (s : State) : Host.Outcome State Fault Refusal := issueOp s p .vaccw
/-- VMOVQ. -/
def execOpVmovq (p : Fin 16) (s : State) : Host.Outcome State Fault Refusal := issueOp s p .vmovq
/-- VADD. -/
def execOpVadd (p : Fin 16) (s : State) : Host.Outcome State Fault Refusal := issueOp s p .vadd
/-- VSUB. -/
def execOpVsub (p : Fin 16) (s : State) : Host.Outcome State Fault Refusal := issueOp s p .vsub
/-- VMUL. -/
def execOpVmul (p : Fin 16) (s : State) : Host.Outcome State Fault Refusal := issueOp s p .vmul
/-- VFMA. -/
def execOpVfma (p : Fin 16) (s : State) : Host.Outcome State Fault Refusal := issueOp s p .vfma
/-- VMAX. -/
def execOpVmax (p : Fin 16) (s : State) : Host.Outcome State Fault Refusal := issueOp s p .vmax
/-- VMIN. -/
def execOpVmin (p : Fin 16) (s : State) : Host.Outcome State Fault Refusal := issueOp s p .vmin
/-- VBCAST. -/
def execOpVbcast (p : Fin 16) (s : State) : Host.Outcome State Fault Refusal := issueOp s p .vbcast
/-- VSETI. -/
def execOpVseti (p : Fin 16) (s : State) : Host.Outcome State Fault Refusal := issueOp s p .vseti
/-- VREDSUM. -/
def execOpVredsum (p : Fin 16) (s : State) : Host.Outcome State Fault Refusal := issueOp s p .vredsum
/-- VREDMAX. -/
def execOpVredmax (p : Fin 16) (s : State) : Host.Outcome State Fault Refusal := issueOp s p .vredmax
/-- VEXP2. -/
def execOpVexp2 (p : Fin 16) (s : State) : Host.Outcome State Fault Refusal := issueOp s p .vexp2
/-- VLOG2. -/
def execOpVlog2 (p : Fin 16) (s : State) : Host.Outcome State Fault Refusal := issueOp s p .vlog2
/-- VRCP. -/
def execOpVrcp (p : Fin 16) (s : State) : Host.Outcome State Fault Refusal := issueOp s p .vrcp
/-- VRSQRT. -/
def execOpVrsqrt (p : Fin 16) (s : State) : Host.Outcome State Fault Refusal := issueOp s p .vrsqrt
/-- VSILU. -/
def execOpVsilu (p : Fin 16) (s : State) : Host.Outcome State Fault Refusal := issueOp s p .vsilu
/-- VSIGM. -/
def execOpVsigm (p : Fin 16) (s : State) : Host.Outcome State Fault Refusal := issueOp s p .vsigm
/-- VROPE. -/
def execOpVrope (p : Fin 16) (s : State) : Host.Outcome State Fault Refusal := issueOp s p .vrope
/-- VTOPK. -/
def execOpVtopk (p : Fin 16) (s : State) : Host.Outcome State Fault Refusal := issueOp s p .vtopk

/-- A PR.LENS whose descriptor names a mode; a mode that 06 R140 does not define goes with ATTEND. -/
def issueLens (s : State) (p mode : Nat) : Host.Outcome State Fault Refusal :=
  issueRow s p (fun o => o.op == .prLens && (let m := (walkOf (lensDesc (s.engine p) o)).mode; m == mode || (mode == 0 && m > 3)))

/-- ATTEND. -/
def execOpAttend (p : Fin 16) (s : State) : Host.Outcome State Fault Refusal := issueLens s p 0
/-- APPEND. -/
def execOpAppend (p : Fin 16) (s : State) : Host.Outcome State Fault Refusal := issueLens s p 1
/-- MERGE. -/
def execOpMerge (p : Fin 16) (s : State) : Host.Outcome State Fault Refusal := issueLens s p 2
/-- SETLEN. -/
def execOpSetlen (p : Fin 16) (s : State) : Host.Outcome State Fault Refusal := issueLens s p 3

/-- OVERLAY_COMPLETE: the oldest overlay's bundles, read from the schedule store, stand in instruction memory (04 R101, which gives two in progress no order:
DESIGN CHOICE, log entry 106). -/
def execOverlayComplete (p : Fin 16) (s : State) : Host.Outcome State Fault Refusal :=
  .next (match (s.engine p).overlays, (s.engine p).sched.bind s.sched? with
    | o :: r, some g =>
      if s.clocked && !accessHeld s false (overlayRanges s g p o) then
        let (b, s) := readRanges s (overlayRanges s g p o) (64 * o.count)
        s.updEngine p (fun e => { e with overlays := r, imem := placeBundles e.imem o b })
      else s
    | _, _ => s)

end Sys2Proof.Machine
end

