-- ==== Sys2Proof/Machine/Sessions.lean ====
section
/-!
DEFINITION. Sessions, their keys and generations, key establishment, queue pairs, the endpoint, forwarding and local-ID
tables, and jobs (12 R272, R285 to R292, R295, R296, R299, R305).
-/

namespace Sys2Proof.Machine

open Sys2Proof

/-- A session state's code (12 R287). -/
def SessState.code : SessState → Nat
  | .unassigned => 1 | .closed => 2 | .keying => 3 | .opened => 4

/-- A session's number (12 R286). -/
def sessionNumber (s : State) (i : Nat) : Nat := i + (s.session i).gen.toNat * 65536

/-! ### Requests that fail -/

/-- A host move's request fails: the first failure is the descriptor's status. Where `skip` gives the request's bytes the
move goes on after them; otherwise it is over (04 R92, R94). -/
def moverFail (s : State) (p mv status : Nat) (skip : Option Nat) : State :=
  if p ≥ 16 then s else
  s.updEngine p (fun e => { e with movers := tupd e.movers {} mv (fun m => { m with queue := match m.queue with
    | d :: r =>
      { d.meets status with done := d.done + skip.getD 0, phase := if skip.isSome then 0 else 4 } :: r
    | [] => [] }) })

/-- The pending SESSION_OPEN of a session ends (12 R287). -/
def finishOpen (s : State) (i status : Nat) : State :=
  match pendingOf s (fun p => p.opcode == 0x051A && p.objId == i) with
  | some p => finish s p status s.ct (if status = stOk then natLe (sessionNumber s i) 4 else [])
  | none => s

/-- A request of the part on a session that leaves OPEN completes with FAULT (12 R288). -/
def failOut (s : State) (o : Outstanding) : State :=
  match o.kind with
  | .hostRead p mv _ _ _ _ | .hostWrite p mv _ _ _ | .translate p mv _ _ => moverFail s p mv stFault none
  | .pageRequest p mv _ => moverFail (if p < 16 then creditPause s p mv else s) p mv stFault none
  | _ => s

/-! ### Generations (12 R286) -/

/-- The generation that an index has reached. -/
def genNow (s : State) (i : Nat) : BitVec 16 := tgetD s.aon.sessGens s.aon.genBase i
/-- The next generation: it skips 0. -/
def nextGen (g : BitVec 16) : BitVec 16 := if g + 1 = 0 then 1 else g + 1
/-- An index takes its next generation. -/
def stepGen (s : State) (i : Nat) : State :=
  let g := nextGen (genNow s i)
  (s.updAon (fun a => { a with sessGens := tput a.sessGens i g })).updSession i (fun x => { x with gen := g })

/-! ### Leaving OPEN and KEYING (12 R287, R288) -/

/-- A session's transport state as an open finds it; its running totals go on (18 R407). -/
def Session.fresh (x : Session) : Session :=
  { x with nextSeq := 0, nextTag := 0, issued := 0, h := none, seen := [], keys := none, phase1 := [], lastCut := none, cleanResponses := 0 }

/-- An UNASSIGNED session: nothing is left but its running totals (18 R407). -/
def Session.left (x : Session) : Session := { timeouts := x.timeouts, discarded := x.discarded }

/-- A role slot waits in KEYING with a generation, as a responder (12 R287). -/
def slotWaits (s : State) (i : Nat) (gen : BitVec 16) : State :=
  s.updSession i (fun x => { x.fresh with st := .keying, priv := true, initiate := false, ctx := none, peer := 0, peerSession := 0, gen := gen })

/-- A role slot returns to KEYING with its generation increased by one (12 R287). -/
def roleSlotWaits (s : State) (i : Nat) : State := slotWaits (stepGen s i) i (genNow (stepGen s i) i)

/-- A session leaves OPEN or KEYING: its requests fail, its keys are erased, its agents die, the role sessions and trace
streams bound to it end (12 R287, R288; 02 R43; 14 R340; 18 R418). -/
def leaveSession (s : State) (i : Nat) (next : SessState) : State :=
  let num := BitVec.ofNat 32 (sessionNumber s i)
  let mine := s.outstanding.filter (fun o => o.session == i)
  let s := mine.foldl failOut { s with outstanding := s.outstanding.filter (fun o => o.session != i) }
  let s := foldKeys (tkeys s.agents (fun a g => a < 64 && g.session == i)) s (fun s a => declareDead s a 4)
  let s := (s.auth.sessions.filter (fun r => r.binding == num)).foldl (fun s r => endRoleSession s r.id) s
  let s := { s with reasms := s.reasms.filter (fun r => r.session != i), xcache := s.xcache.filter (fun e => e.session != i)
                    drains := s.drains.filter (fun d => d.flushCtx.isSome || d.session != i)
                    streams := tmap s.streams (fun _ x => if x.toSession && x.session % 65536 = i && x.st == .running then { x with st := .stopped } else x) }
  if isRoleSlot i then roleSlotWaits s i
  else s.updSession i (fun x => { x with st := next, keys := none, phase1 := [] })

/-- A key exchange ends without success: the session is CLOSED and its COMPLETION written (12 R287, R290). -/
def failExchange (s : State) (i status : Nat) : State := finishOpen (leaveSession s i .closed) i status

/-- A session becomes UNASSIGNED with its context (12 R287). -/
def unassignSession (s : State) (i : Nat) : State :=
  let x := s.session i
  let s := if x.st == .opened || x.st == .keying then leaveSession s i .closed else s
  let s := if x.st == .keying then finishOpen s i stTimeout else s
  s.updSession i (·.left)

/-- KEY_WAIT has passed for a session that keys; a role slot waits without end (12 R287). -/
def keyWaitOver (s : State) (i : Nat) : Bool :=
  let x := s.session i
  x.st == .keying && !isRoleSlot i && x.keyDeadline ≤ s.now

/-- A KEY_WAIT that has passed is taken up before a command that names the session (02 R53). -/
def settleKeyWait (s : State) (i : Nat) : State := if keyWaitOver s i then failExchange s i stTimeout else s

/-- The sessions of a range that a command names are settled. -/
def sessionsFirst (n : Req → Nat) (q : Req) (s : State) : State :=
  foldKeys (tkeys s.sessions (fun k x => x.st == .keying && q.arg 20 2 ≤ k && k < q.arg 20 2 + n q)) s settleKeyWait

/-! ### Session commands (12 R305) -/

/-- BAD_STATE of a session. -/
def badSession (s : State) (i : Nat) : Reply := badState 3 (s.session i).st.code

/-- SESSION_ASSIGN. -/
def cmdSessionAssign : Cmd where
  op := 0x0518
  issuers := operatorOnly
  changes := always
  before := sessionsFirst (·.arg 22 2)
  body := fun q s =>
    let i := q.arg 20 2
    let n := q.arg 22 2
    let c := q.arg 24 2
    match q.firstBad [(20, 6)] [(20, i < 64), (22, n = 0 || i + n > 65536), (24, c > 1023)] with
    | some b => badAt b
    | none =>
      if (s.ctx c).st == .none then badState 1 1
      else if (s.ctx c).st == .ending then badState 1 4
      else match (rangeFrom i n).find? (fun k => (s.session k).st != .unassigned) with
        | some k => badSession s k
        | none => .done (foldKeys (rangeFrom i n) s (fun s k => zeroBlock (s.updSession k (fun x => { x.left with st := .closed, ctx := some c, gen := genNow s k })) .session k c)) [] []

/-- SESSION_ASSIGN. -/
def execSessionAssign (m : Fin 1029) (s : State) : Host.Outcome State Fault Refusal := serve m cmdSessionAssign s

/-- SESSION_RELEASE. -/
def cmdSessionRelease : Cmd where
  op := 0x0519
  issuers := operatorOnly
  changes := always
  lock := fun q => some (3, q.arg 20 2)
  span := fun q => q.arg 22 2
  before := sessionsFirst (·.arg 22 2)
  body := fun q s =>
    let i := q.arg 20 2
    let n := q.arg 22 2
    match q.firstBad [(20, 4)] [(20, i < 64), (22, n = 0 || i + n > 65536)] with
    | some b => badAt b
    | none => match (rangeFrom i n).find? (fun k => (s.session k).st != .closed) with
      | some k => badSession s k
      | none => .done { s with sessions := tmap s.sessions (fun k x => if i ≤ k && k < i + n then x.left else x) } [] []

/-- SESSION_RELEASE. -/
def execSessionRelease (m : Fin 1029) (s : State) : Host.Outcome State Fault Refusal := serve m cmdSessionRelease s

/-- The session of SESSION_OPEN, SESSION_CLOSE and SESSION_STATUS. -/
def sessionObj (q : Req) : Nat × Nat := (3, q.arg 20 2)

/-- A tenant names a session that is not its own (12 R305). -/
def notOwnSession (s : State) (q : Req) (i : Nat) : Bool := match q.party with | .tenant c => (s.session i).ctx != some c | _ => false

/-- What SESSION_OPEN sets (12 R305). -/
def openWith (s : State) (q : Req) (i : Nat) : State :=
  let flags := q.arg 22 1
  (stepGen s i).updSession i (fun x =>
    { x.fresh with priv := bit flags 0, initiate := bit flags 0 && bit flags 1, peerKeySlot := q.arg 23 1, peer := BitVec.ofNat 24 (q.arg 24 3), localIdx := q.arg 27 1
                   peerSession := BitVec.ofNat 32 (q.arg 28 4), timeoutNs := if q.arg 32 4 = 0 then 50000 else q.arg 32 4, window := q.arg 36 2, w := q.arg 36 2
                   keyDeadline := s.now + msNs (if q.arg 38 2 = 0 then 1000 else q.arg 38 2) })

/-- The hash of 12 R290. -/
def hashOf (b : Bytes) : Bytes := Config.shake256 b 32

/-- The phase 1 payload of a session that initiates (12 R290). -/
def phase1Payload (s : State) (i : Nat) : Bytes :=
  let x := s.session i
  let b := natLe (sessionNumber s i) 4 ++ padTo (Config.mlkemKey x.kemSeed) 1184 ++ natLe (Config.nonce (x.kemSeed + 1)).toNat 32
  b ++ padTo (Config.mldsaSign s.dev.identityKey (hashOf (b ++ natLe (localOfSession s x).toNat 3 ++ natLe x.peer.toNat 3))) 3309

/-- An initiating session sends phase 1 (12 R290). -/
def startExchange (s : State) (i : Nat) : State :=
  let s := { s.updSession i (fun x => { x with kemSeed := s.free }) with free := s.free + 2 }
  let p := phase1Payload s i
  (issueRequest (s.updSession i (fun x => { x with phase1 := p })) i .keyExchange 0x39 0 1 0 p).2

/-- An initiating session in KEYING awaits no answer: its KEY_EXCHANGE could not be sent. -/
def exchangeStuck (s : State) (i : Nat) : Bool :=
  (s.session i).st == .keying && (s.session i).initiate && !s.outstanding.any (fun o => o.session == i)

/-- A KEY_EXCHANGE for which the part has no route completes at once with FAULT, which ends its exchange (12 R285, R287; log entry 68). -/
def endStuck (s : State) (i : Nat) : State := if exchangeStuck s i then failExchange s i stFault else s

/-- SESSION_OPEN. -/
def cmdSessionOpen : Cmd where
  op := 0x051A
  issuers := operatorTenant
  changes := always
  obj := sessionObj
  before := sessionsFirst (fun _ => 1)
  after := fun q s => endStuck s (q.arg 20 2)
  body := fun q s =>
    let i := q.arg 20 2
    let x := s.session i
    let priv := bit (q.arg 22 1) 0
    let wait := q.arg 38 2
    match q.firstBad [(20, 20)] [(20, isRoleSlot i && !tenantOnly q.party), (22, q.arg 22 1 ≥ 4), (23, q.arg 23 1 ≥ 16), (27, q.arg 27 1 ≥ 16)
        , (32, !(q.arg 32 4 = 0 || (1000 ≤ q.arg 32 4 && q.arg 32 4 ≤ 100000000))), (36, !(1 ≤ q.arg 36 2 && q.arg 36 2 ≤ 256))
        , (38, !(wait = 0 || (10 ≤ wait && wait ≤ 60000)))] with
    | some b => badAt b
    | none =>
      if notOwnSession s q i then denied
      else if priv && x.ctx.any (fun c => (tget? (s.ctx c).peerKeys (q.arg 23 1)).isNone) then badAt 23
      else if q.arg 27 1 ≥ s.locals.length then badAt 27
      else if x.st != .closed then badSession s i
      else
        let s := openWith s q i
        if priv then
          let s := s.updSession i (fun x => { x with st := .keying })
          .pend (if (s.session i).initiate then startExchange s i else s) (natLe (sessionNumber s i) 4)
        else .done (s.updSession i (fun x => { x with st := .opened })) (natLe (sessionNumber s i) 4) []

/-- SESSION_OPEN. -/
def execSessionOpen (m : Fin 1029) (s : State) : Host.Outcome State Fault Refusal := serve m cmdSessionOpen s

/-- SESSION_CLOSE. -/
def cmdSessionClose : Cmd where
  op := 0x051B
  issuers := operatorTenant
  changes := always
  lock := fun q => some (sessionObj q)
  before := sessionsFirst (fun _ => 1)
  blocked := fun q s => s.pendings.any (fun p => p.meets q.owes && !(p.opcode == 0x051A && !isHeld s p))
  body := fun q s =>
    let i := q.arg 20 2
    match q.firstBad [(20, 2)] [(20, isRoleSlot i && !tenantOnly q.party)] with
    | some b => badAt b
    | none =>
      if notOwnSession s q i then denied else
      match (s.session i).st with
      | .opened => .done (leaveSession s i .closed) [] []
      | .keying => .done (failExchange s i stTimeout) [] []
      | _ => badSession s i

/-- SESSION_CLOSE. -/
def execSessionClose (m : Fin 1029) (s : State) : Host.Outcome State Fault Refusal := serve m cmdSessionClose s

/-- SESSION_STATUS. -/
def cmdSessionStatus : Cmd where
  op := 0x051C
  issuers := operatorTenant
  before := sessionsFirst (fun _ => 1)
  blocked := neverBlocked
  query := true
  body := fun q s =>
    let i := q.arg 20 2
    match q.firstBad [(20, 2)] [] with
    | some b => badAt b
    | none =>
      if notOwnSession s q i then denied else
      let x := s.session i
      .done s (natLe x.st.code 1 ++ natLe (b2n x.priv 0) 1 ++ natLe x.window 2 ++ natLe (sessionNumber s i) 4 ++ natLe ((x.h.map (·.toNat)).getD 0) 4 ++ natLe x.timeouts 4
        ++ natLe x.discarded 4) []

/-- SESSION_STATUS. -/
def execSessionStatus (m : Fin 1029) (s : State) : Host.Outcome State Fault Refusal := serve m cmdSessionStatus s

/-- PEER_KEY_SET (12 R292). -/
def cmdPeerKeySet : Cmd where
  op := 0x051D
  issuers := tenantOnly
  changes := always
  body := fun q s =>
    match q.firstBad [(20, 1)] [(20, q.arg 20 1 > 15)] with
    | some b => badAt b
    | none =>
      if q.xargLen != 1952 then badSlot 6
      else .done (s.updCtx q.tenant (fun c => { c with peerKeys := tput c.peerKeys (q.arg 20 1) q.xarg })) [] []

/-- PEER_KEY_SET. -/
def execPeerKeySet (m : Fin 1029) (s : State) : Host.Outcome State Fault Refusal := serve m cmdPeerKeySet s

/-! ### Key establishment (12 R290, R291) -/

/-- The keys that both ends derive: initiator to responder, responder to initiator, and the two salts. -/
def deriveKeys (secret phase1 phase2 : Bytes) : BitVec 256 × BitVec 256 × BitVec 32 × BitVec 32 :=
  let k := Config.shake256 (secret ++ hashOf (phase1 ++ phase2)) 72
  (BitVec.ofNat 256 (field k 0 32), BitVec.ofNat 256 (field k 32 32), BitVec.ofNat 32 (field k 64 4), BitVec.ofNat 32 (field k 68 4))

/-- The peer key of a session. -/
def peerKeyOf (s : State) (x : Session) : Bytes := (tget? (s.ctx (x.ctx.getD 0)).peerKeys x.peerKeySlot).getD []

/-- σ_i verifies; a role slot skips the check. -/
def initiatorProven (s : State) (r : InReq) : Bool :=
  let p := r.e.payload
  isRoleSlot r.i || Config.mldsaVerify (peerKeyOf s (s.session r.i)) (hashOf (p.take 1220 ++ natLe r.e.src.toNat 3 ++ natLe r.e.dst.toNat 3)) (p.drop 1220)

/-- The phase 2 payload of a responder. -/
def phase2Payload (s : State) (i : Nat) (phase1 cipher : Bytes) : Bytes :=
  let b := padTo cipher 1088 ++ natLe (Config.nonce (s.free + 1)).toNat 32 ++ natLe (sessionNumber s i) 4
  b ++ padTo (Config.mldsaSign s.dev.identityKey (hashOf (phase1 ++ b))) 3309

/-- A role slot binds itself to the sender of phase 1. -/
def bindRoleSlot (s : State) (r : InReq) : State :=
  if isRoleSlot r.i then
    s.updSession r.i (fun x => { x with peer := r.e.src, localIdx := (s.locals.findIdx? (fun l => l.id == r.e.dst)).getD 0, h := some r.e.seq, seen := [r.e.seq] })
  else s

/-- A responder answers phase 1 with phase 2. -/
def answerPhase1 (s : State) (r : InReq) : State :=
  let p := r.e.payload
  let s := (bindRoleSlot s r).updSession r.i (fun x => { x with peerSession := BitVec.ofNat 32 (field p 0 4) })
  let (cipher, secret) := Config.mlkemEncaps ((p.drop 4).take 1184) s.free
  let p2 := phase2Payload s r.i p cipher
  let (kIn, kOut, sIn, sOut) := deriveKeys secret p p2
  let s := { s.updSession r.i (fun x => { x with phase1 := p, keys := some { keyIn := kIn, keyOut := kOut, saltIn := sIn, saltOut := sOut } }) with free := s.free + 2 }
  let e : Eruno :=
    { opcode := 0x39, flags := 1 ||| (r.e.flags &&& 2), dst := r.e.src, src := r.e.dst, session := (s.session r.i).peerSession, seq := r.e.seq, tag := r.e.tag
      load := loadOf s r, subop := 2, payload := p2 }
  bump (sendEruno s r.i none e).2 .session r.i 2 p2.length

/-- KEY_EXCHANGE_PHASE_1. -/
def execKeyExchangePhase1 (q : Fin 64) (s : State) : Host.Outcome State Fault Refusal :=
  onRequest s q (fun e => e.op == 0x39 && e.subop.toNat != 3) (fun s r =>
    if r.e.subop.toNat != 1 || r.e.payload.length != 4529 || r.e.operand != 0 || r.e.noResponse then refuseEruno s r stBadArg
    else if (s.session r.i).initiate then refuseEruno s r stBadState
    else if !initiatorProven s r then failExchange (refuseEruno s r stIntegrity) r.i stIntegrity
    else answerPhase1 s r)

/-- The initiator takes phase 2: it verifies σ_r, derives the keys and sends phase 3. -/
def takePhase2 (s : State) (i : Nat) (e : Eruno) : State :=
  let x := s.session i
  let p := e.payload
  let b := p.take 1124
  let good := e.status == 0 && p.length == 4433 && Config.mldsaVerify (peerKeyOf s x) (hashOf (x.phase1 ++ b)) (p.drop 1124)
  match (if good then Config.mlkemDecaps x.kemSeed (p.take 1088) else none) with
  | none => failExchange s i stIntegrity
  | some secret =>
    let (kOut, kIn, sOut, sIn) := deriveKeys secret x.phase1 p
    let s := s.updSession i (fun x => { x with peerSession := BitVec.ofNat 32 (field p 1120 4), keys := some { keyIn := kIn, keyOut := kOut, saltIn := sIn, saltOut := sOut } })
    endStuck (issueRequest s i .keyExchange 0x39 0 3 0 []).2 i

/-- A response to the part's KEY_EXCHANGE request of a phase. -/
def onExchangeResponse (s : State) (q phase : Nat) (act : State → Nat → Eruno → State) : Host.Outcome State Fault Refusal :=
  onFrame s q (fun f => (erunoOf f).any (fun e => localEndpoint s e.dst && e.isResponse && !e.segmented && e.op == 0x39 && (phase = 3) == (e.subop == 3)))
    (fun s x => match erunoOf x.frame with
      | none => s
      | some e => match matchResponse s x e with
        | some (o, e) => if o.kind == .keyExchange then act (endOutstanding s o e) o.session e else strayResponse s e
        | none => strayResponse s e)

/-- KEY_EXCHANGE_PHASE_2. -/
def execKeyExchangePhase2 (q : Fin 64) (s : State) : Host.Outcome State Fault Refusal := onExchangeResponse s q 2 takePhase2

/-- The exchange is confirmed: the session is OPEN (12 R287). -/
def confirmExchange (s : State) (i : Nat) : State := finishOpen (s.updSession i (fun x => { x with st := .opened, phase1 := [] })) i stOk

/-- The next frame of a port that KEY_EXCHANGE_PHASE_3 takes is a response. -/
def phase3Response (s : State) (q : Nat) : Bool :=
  (s.port q).rx.any (fun x => (erunoOf x.frame).any (fun e => localEndpoint s e.dst && e.isResponse && e.op == 0x39 && e.subop == 3))

/-- KEY_EXCHANGE_PHASE_3: at the responder the request, at the initiator its response. -/
def execKeyExchangePhase3 (q : Fin 64) (s : State) : Host.Outcome State Fault Refusal :=
  if phase3Response s q then
    onExchangeResponse s q 3 (fun s i e => if e.status == 0 then confirmExchange s i else failExchange s i stIntegrity)
  else onRequest s q (fun e => e.op == 0x39 && e.subop.toNat = 3) (fun s r =>
    if !r.e.payload.isEmpty || r.e.operand != 0 || r.e.noResponse then refuseEruno s r stBadArg
    else if (s.session r.i).keys.isNone || (s.session r.i).initiate then refuseEruno s r stBadState
    else confirmExchange (respondEruno s r stOk [] 3) r.i)

/-- KEY_WAIT_EXPIRY. -/
def execKeyWaitExpiry (t : Nat) (i : BitVec 16) (s : State) : Host.Outcome State Fault Refusal :=
  ticking t s (fun s => keyWaitOver s i.toNat) (fun s => failExchange s i.toNat stTimeout)

/-! ### Queue pairs (12 R302, R305) -/

/-- A closed queue pair of a context, or of none: nothing is left but its running totals (18 R407). -/
def Qp.left (x : Qp) (ctx : Option Nat) : Qp := { ctx := ctx, naks := x.naks, cnps := x.cnps }

/-- A queue pair closes: its transport state is gone, its context stays. -/
def closeQp (s : State) (n : Nat) : State :=
  { s.updQp n (fun x => x.left x.ctx) with ncReqs := s.ncReqs.map (fun r => match r.owner with
      | .roce _ k _ => if k == n then { r with owner := .mover 16 0 } else r
      | _ => r) }

/-- A queue pair is released (15 R347). -/
def releaseQp (s : State) (n : Nat) : State := (closeQp s n).updQp n (·.left none)

/-- Queue pairs of the part. -/
def qpMax : Nat := 16384

/-- QP_ASSIGN. -/
def cmdQpAssign : Cmd where
  op := 0x0520
  issuers := operatorOnly
  changes := always
  body := fun q s =>
    let n := q.arg 20 4
    let k := q.arg 24 2
    let c := q.arg 26 2
    match q.firstBad [(20, 8)] [(20, n ≥ qpMax), (24, k = 0 || n + k > qpMax), (26, c > 1023)] with
    | some b => badAt b
    | none =>
      if (s.ctx c).st == .none then badState 1 1
      else if (s.ctx c).st == .ending then badState 1 4
      else if (rangeFrom n k).any (fun i => (s.qp i).ctx.isSome) then noResource
      else .done (foldKeys (rangeFrom n k) s (fun s i => s.updQp i (·.left (some c)))) [] []

/-- QP_ASSIGN. -/
def execQpAssign (m : Fin 1029) (s : State) : Host.Outcome State Fault Refusal := serve m cmdQpAssign s

/-- A tenant names a queue pair that is not its own (12 R305). -/
def notOwnQp (s : State) (q : Req) (n : Nat) : Bool := match q.party with | .tenant c => (s.qp n).ctx != some c | _ => false

/-- What QP_OPEN sets. -/
def qpOf (s : State) (q : Req) : Qp :=
  { (s.qp (q.arg 20 4)).left none with
    ctx := some q.tenant, st := .ready, mailbox := bit (q.arg 24 1) 0, ipv6 := bit (q.arg 24 1) 1, events := bit (q.arg 24 1) 2, mtuLog := q.arg 25 1, port := q.arg 26 1
    localIdx := q.arg 27 1, rkey := BitVec.ofNat 32 (q.arg 28 4), remoteQp := BitVec.ofNat 24 (q.arg 32 4), sendPsn := BitVec.ofNat 24 (q.arg 36 3)
    expectedPsn := BitVec.ofNat 24 (q.arg 39 3), mac := BitVec.ofNat 48 (q.arg 42 6), ip := BitVec.ofNat 128 (q.arg 48 16), rate := portRate s (q.arg 26 1) * 1000, lastCnp := s.now }

/-- QP_OPEN. -/
def cmdQpOpen : Cmd where
  op := 0x0521
  issuers := tenantOnly
  changes := always
  body := fun q s =>
    let n := q.arg 20 4
    match q.firstBad [(20, 44)] [(20, n ≥ qpMax), (24, q.arg 24 1 ≥ 8), (25, q.arg 25 1 > 4), (26, q.arg 26 1 > 63), (27, q.arg 27 1 ≥ 16), (32, q.arg 32 4 ≥ 2 ^ 24)
        , (52, !bit (q.arg 24 1) 1 && q.arg 52 12 != 0)] with
    | some b => badAt b
    | none =>
      if notOwnQp s q n then denied
      else if q.arg 27 1 ≥ s.locals.length then badAt 27
      else if (s.qp n).st != .closed then .fail stBadState 0
      else .done (s.updQp n (fun _ => qpOf s q)) [] []

/-- QP_OPEN. -/
def execQpOpen (m : Fin 1029) (s : State) : Host.Outcome State Fault Refusal := serve m cmdQpOpen s

/-- QP_CLOSE. -/
def cmdQpClose : Cmd where
  op := 0x0522
  issuers := operatorTenant
  changes := always
  body := fun q s =>
    let n := q.arg 20 4
    match q.firstBad [(20, 4)] [(20, n ≥ qpMax)] with
    | some b => badAt b
    | none =>
      if notOwnQp s q n then denied
      else if (s.qp n).st == .closed then .fail stBadState 0
      else .done (closeQp s n) [] []

/-- QP_CLOSE. -/
def execQpClose (m : Fin 1029) (s : State) : Host.Outcome State Fault Refusal := serve m cmdQpClose s

/-- A queue pair state's code (12 R305). -/
def QpState.code : QpState → Nat
  | .closed => 0 | .ready => 1 | .error => 2

/-- QP_STATUS. -/
def cmdQpStatus : Cmd where
  op := 0x0523
  issuers := operatorTenant
  blocked := neverBlocked
  query := true
  body := fun q s =>
    let n := q.arg 20 4
    match q.firstBad [(20, 4)] [(20, n ≥ qpMax)] with
    | some b => badAt b
    | none =>
      if notOwnQp s q n then denied else
      let x := s.qp n
      .done s (natLe x.st.code 1 ++ natLe x.sendPsn.toNat 3 ++ natLe x.expectedPsn.toNat 3 ++ natLe 0 1 ++ natLe x.naks 4 ++ natLe x.cnps 4) []

/-- QP_STATUS. -/
def execQpStatus (m : Fin 1029) (s : State) : Host.Outcome State Fault Refusal := serve m cmdQpStatus s

/-! ### Tables (12 R272, R295, R296, R305) -/

/-- A local ID entry's bytes. -/
def LocalId.bytes (x : LocalId) : Bytes := natLe x.id.toNat 3 ++ natLe (b2n x.ipv6 0) 1 ++ natLe 0 4 ++ natLe x.ip.toNat 16
/-- An endpoint entry's bytes. -/
def Endpoint.bytes (id : Nat) (x : Endpoint) : Bytes :=
  natLe id 3 ++ natLe x.flags.toNat 1 ++ natLe x.vlan.toNat 2 ++ natLe x.udpPort.toNat 2 ++ natLe x.ip.toNat 16 ++ natLe 0 8
/-- A forwarding entry's bytes. -/
def Forward.bytes (id : Nat) (x : Forward) : Bytes := natLe id 3 ++ natLe x.port.toNat 1 ++ natLe x.nextHop.toNat 6 ++ natLe x.flags.toNat 1 ++ natLe 0 5

/-- The first faulty byte of an entry, with the entry's index. -/
def entryBad (b : Bytes) (size n : Nat) (bad : Bytes → Option Nat) : Option (Nat × Nat) :=
  (List.range n).findSome? (fun k => (bad ((b.drop (size * k)).take size)).map (fun o => (size * k + o, k)))

/-- The fault of a local ID entry. -/
def localBad (b : Bytes) : Option Nat :=
  if field b 3 1 > 1 then some 3 else if field b 4 4 != 0 then some 4 else if field b 3 1 = 0 && field b 12 12 != 0 then some 12 else none
/-- The fault of an endpoint entry. -/
def endpointBad (b : Bytes) : Option Nat :=
  if field b 3 1 > 3 then some 3 else if field b 4 2 > 4095 then some 4 else if !bit (field b 3 1) 0 && field b 12 12 != 0 then some 12 else if field b 24 8 != 0 then some 24 else none
/-- The fault of a forwarding entry. -/
def forwardBad (b : Bytes) : Option Nat :=
  if field b 3 1 > 63 then some 3 else if field b 10 1 > 1 then some 10 else if field b 11 5 != 0 then some 11 else none

/-- A job is open: table changes are BUSY (12 R299). -/
def jobBusy (_ : Req) (s : State) : Bool := s.job.isOpen

/-- LOCAL_ID_SET. -/
def cmdLocalIdSet : Cmd where
  op := 0x0510
  issuers := installerOnly
  changes := always
  blocked := jobBusy
  body := fun q s =>
    let n := q.arg 22 1
    match q.firstBad [(20, 3)] [(20, q.arg 20 2 < 1024), (22, !(1 ≤ n && n ≤ 16))] with
    | some b => badAt b
    | none =>
      if q.xargLen != 24 * n then badSlot 6 else
      match entryBad q.xarg 24 n localBad with
      | some (b, k) => badX b k
      | none => .done { s.updDev (fun d => { d with erunoPort := BitVec.ofNat 16 (q.arg 20 2) }) with locals := (entriesOf q.xarg 24).map localIdOf } [] []

/-- LOCAL_ID_SET. -/
def execLocalIdSet (m : Fin 1029) (s : State) : Host.Outcome State Fault Refusal := serve m cmdLocalIdSet s

/-- Entries that the endpoint and forwarding tables hold each (12 R295, R296). -/
def tableMax : Nat := 65536

/-- ENDPOINT_SET. -/
def cmdEndpointSet : Cmd where
  op := 0x0511
  issuers := installerOnly
  changes := always
  blocked := jobBusy
  body := fun q s =>
    let n := q.arg 20 2
    match q.firstBad [(20, 2)] [(20, !(1 ≤ n && n ≤ 640))] with
    | some b => badAt b
    | none =>
      if q.xargLen != 32 * n then badSlot 6 else
      match entryBad q.xarg 32 n endpointBad with
      | some (b, k) => badX b k
      | none =>
        let t := (entriesOf q.xarg 32).foldl (fun t b => tput t (field b 0 3)
          { flags := BitVec.ofNat 8 (field b 3 1), vlan := BitVec.ofNat 16 (field b 4 2), udpPort := BitVec.ofNat 16 (field b 6 2), ip := BitVec.ofNat 128 (field b 8 16) }) s.endpoints
        if t.length > tableMax then noResource else .done { s with endpoints := t } [] []

/-- ENDPOINT_SET. -/
def execEndpointSet (m : Fin 1029) (s : State) : Host.Outcome State Fault Refusal := serve m cmdEndpointSet s

/-- ENDPOINT_CLEAR: an ID without an entry changes nothing and is not audited (12 R305). -/
def cmdEndpointClear (held : Bool) : Cmd where
  op := 0x0512
  issuers := installerOnly
  changes := fun _ => held
  blocked := jobBusy
  body := fun q s => match q.firstBad [(20, 3)] [] with
    | some b => badAt b
    | none => .done { s with endpoints := tdel s.endpoints (q.arg 20 3) } [] []

/-- The request at the head of a mailbox names an ID of a table. -/
def headNames (m : Nat) (s : State) (held : Nat → Bool) : Bool := match headOf s m with | some q => held (q.arg 20 3) | none => false

/-- ENDPOINT_CLEAR. -/
def execEndpointClear (m : Fin 1029) (s : State) : Host.Outcome State Fault Refusal :=
  serve m (cmdEndpointClear (headNames m s (fun i => (tget? s.endpoints i).isSome))) s

/-- FORWARD_SET. -/
def cmdForwardSet : Cmd where
  op := 0x0513
  issuers := installerOnly
  changes := always
  blocked := jobBusy
  body := fun q s =>
    let n := q.arg 20 2
    match q.firstBad [(20, 2)] [(20, !(1 ≤ n && n ≤ 1280))] with
    | some b => badAt b
    | none =>
      if q.xargLen != 16 * n then badSlot 6 else
      match entryBad q.xarg 16 n forwardBad with
      | some (b, k) => badX b k
      | none =>
        let t := (entriesOf q.xarg 16).foldl (fun t b => tput t (field b 0 3)
          { port := BitVec.ofNat 8 (field b 3 1), nextHop := BitVec.ofNat 48 (field b 4 6), flags := BitVec.ofNat 8 (field b 10 1) }) s.forwards
        if t.length > tableMax then noResource else .done { s with forwards := t } [] []

/-- FORWARD_SET. -/
def execForwardSet (m : Fin 1029) (s : State) : Host.Outcome State Fault Refusal := serve m cmdForwardSet s

/-- FORWARD_CLEAR. -/
def cmdForwardClear (held : Bool) : Cmd where
  op := 0x0514
  issuers := installerOnly
  changes := fun _ => held
  blocked := jobBusy
  body := fun q s => match q.firstBad [(20, 3)] [] with
    | some b => badAt b
    | none => .done { s with forwards := tdel s.forwards (q.arg 20 3) } [] []

/-- FORWARD_CLEAR. -/
def execForwardClear (m : Fin 1029) (s : State) : Host.Outcome State Fault Refusal :=
  serve m (cmdForwardClear (headNames m s (fun i => (tget? s.forwards i).isSome))) s

/-- TABLE_READ. -/
def cmdTableRead : Cmd where
  op := 0x0515
  issuers := operatorInstaller
  blocked := neverBlocked
  query := true
  body := fun q s =>
    let first := q.arg 24 4
    match q.firstBad [(20, 1), (24, 4)] [(20, q.arg 20 1 > 2)] with
    | some b => badAt b
    | none =>
      let (size, es) : Nat × List Bytes := match q.arg 20 1 with
        | 0 => (24, s.locals.map (·.bytes))
        | 1 => (32, s.endpoints.map (fun e => Endpoint.bytes e.1 e.2))
        | _ => (16, s.forwards.map (fun e => Forward.bytes e.1 e.2))
      let xs := (es.drop first).take (q.room / size)
      .done s (natLe xs.length 4) xs.flatten

/-- TABLE_READ. -/
def execTableRead (m : Fin 1029) (s : State) : Host.Outcome State Fault Refusal := serve m cmdTableRead s

/-! ### Jobs (12 R299) -/

/-- The job's state code. -/
def Job.code (j : Job) : Nat := if j.isOpen then 2 else 1

/-- JOB_OPEN. -/
def cmdJobOpen : Cmd where
  op := 0x0B01
  issuers := operatorOnly
  changes := always
  body := fun q s =>
    match q.firstBad [(20, 4)] [(20, q.arg 20 4 = 0)] with
    | some b => badAt b
    | none => if s.job.isOpen then badState 6 s.job.code else .done { s with job := { isOpen := true, number := BitVec.ofNat 32 (q.arg 20 4), changed := s.ct } } [] []

/-- JOB_OPEN. -/
def execJobOpen (m : Fin 1029) (s : State) : Host.Outcome State Fault Refusal := serve m cmdJobOpen s

/-- JOB_CLOSE. -/
def cmdJobClose : Cmd where
  op := 0x0B02
  issuers := operatorOnly
  changes := always
  body := fun q s =>
    match q.firstBad [] [] with
    | some b => badAt b
    | none => if s.job.isOpen then .done { s with job := { s.job with isOpen := false, changed := s.ct } } [] [] else badState 6 s.job.code

/-- JOB_CLOSE. -/
def execJobClose (m : Fin 1029) (s : State) : Host.Outcome State Fault Refusal := serve m cmdJobClose s

/-- JOB_STATUS. -/
def cmdJobStatus : Cmd where
  op := 0x0B03
  issuers := operatorInstaller
  blocked := neverBlocked
  query := true
  body := fun q s => match q.firstBad [] [] with
    | some b => badAt b
    | none => .done s (natLe s.job.code 1 ++ natLe 0 3 ++ natLe s.job.number.toNat 4 ++ natLe s.job.changed 8) []

/-- JOB_STATUS. -/
def execJobStatus (m : Fin 1029) (s : State) : Host.Outcome State Fault Refusal := serve m cmdJobStatus s

end Sys2Proof.Machine
end

