-- ==== Sys2Proof/Machine/Fabric.lean ====
section
/-!
DEFINITION. Eruno requests addressed to the part: pool access, ATOMIC, SIGNAL, SCHED_FRAME, CSR and MAILBOX operations,
INVALIDATE (12 R276 to R284; 02 R28 to R34; 07 R192; 15 R358; 18 R410).
-/

namespace Sys2Proof.Machine

open Sys2Proof

/-! ### Pool access (12 R276 to R278, R284) -/

/-- What an access to the pool asks for. -/
structure MemReq where
  va : Nat
  len : Nat
  need : Nat
  isWrite : Bool
  data : Bytes := []
  atomic : Option Nat := none
  stash : Option Nat := none

/-- The outcome of a request that has completed at its home: the answer and the counts. -/
def answerMem (s : State) (r : InReq) (c : Nat) (x : MemReq) (status : Nat) (data : Bytes) : State :=
  let s := countServed s c x.isWrite x.atomic.isSome x.len status
  if status != stOk then refuseEruno s r status
  else if r.e.noResponse then s
  else respondEruno s r stOk data

/-- A checked access to a segment that is not coherent. -/
def plainMem (s : State) (r : InReq) (c : Nat) (x : MemReq) (ps : List (Nat × Nat)) : State :=
  match x.isWrite, x.atomic with
  | false, _ => match readPieces s demand ps with
    | (some b, s) => answerMem s r c x stOk b
    | (none, s) => answerMem s r c x stMedia []
  | true, none =>
    let (ok, s) := writePieces s demand ps x.data
    answerMem s r c x (if ok then stOk else stMedia) []
  | true, some sub => match readPieces s demand ps with
    | (some old, s) =>
      let (ok, s) := writePieces s demand ps (atomicBytes sub x.data old)
      answerMem s r c x (if ok then stOk else stMedia) old
    | (none, s) => answerMem s r c x stMedia []

/-- Checks 7 and 8 of 12 R281 for an access to the pool. -/
def memRequest (s : State) (r : InReq) (x : MemReq) : State :=
  match r.ctx with
  | none => refuseEruno s r stDenied
  | some c => match segCheck s c x.va x.len (x.need ||| needFabric) with
    | .no st => refuseEruno (countRefusal s c st) r st
    | .ok ps _ g =>
      if g.coherent then
        ncStart s { id := 0, ctx := c, owner := .eruno r.q r.i r.e, isWrite := x.isWrite, va := x.va, len := x.len, lines := [], data := x.data, atomic := x.atomic
                    stash := x.stash } ps
      else if accessHeld s x.isWrite ps then s
      else plainMem s r c x ps

/-- TRANSLATED reaches a part, or NO_RESPONSE where it may not stand (12 R276, R277). -/
def flagsBad (e : Eruno) (mayOmit : Bool) : Bool := e.flag 7 || (e.noResponse && !mayOmit)

/-- Check 6 of a READ. -/
def readBad (e : Eruno) : Bool := flagsBad e false || e.subop != 0 || !(1 ≤ e.arg 48 16 && e.arg 48 16 ≤ 8192) || !e.payload.isEmpty
/-- Check 6 of a WRITE or WRITE_STASH. -/
def writeBad (e : Eruno) (stash : Bool) : Bool :=
  flagsBad e (!stash) || (!stash && e.subop != 0) || !(1 ≤ e.arg 48 16 && e.arg 48 16 ≤ 8192) || e.payload.length != e.arg 48 16

/-- READ. -/
def execRead (q : Fin 64) (s : State) : Host.Outcome State Fault Refusal :=
  onOpcode s q 0x01 (fun s r => if readBad r.e then refuseEruno s r stBadArg else
    memRequest s r { va := r.e.arg 0 48, len := r.e.arg 48 16, need := needRead, isWrite := false })

/-- WRITE. -/
def execWrite (q : Fin 64) (s : State) : Host.Outcome State Fault Refusal :=
  onOpcode s q 0x02 (fun s r => if writeBad r.e false then refuseEruno s r stBadArg else
    memRequest s r { va := r.e.arg 0 48, len := r.e.arg 48 16, need := needWrite, isWrite := true, data := r.e.payload })

/-- WRITE_STASH. -/
def execWriteStash (q : Fin 64) (s : State) : Host.Outcome State Fault Refusal :=
  onOpcode s q 0x03 (fun s r => if writeBad r.e true then refuseEruno s r stBadArg else
    memRequest s r { va := r.e.arg 0 48, len := r.e.arg 48 16, need := needWrite, isWrite := true, data := r.e.payload, stash := some r.e.subop.toNat })

/-- Check 6 of an ATOMIC. -/
def atomicBad (e : Eruno) : Bool :=
  flagsBad e false || e.subop.toNat > 5 || e.arg 0 3 != 0 || e.arg 48 16 != 0 || e.payload.length != (if e.subop == 1 then 16 else 8)

/-- An ATOMIC. -/
def atomicRequest (s : State) (r : InReq) : State :=
  if atomicBad r.e then refuseEruno s r stBadArg else
  memRequest s r { va := r.e.arg 0 48, len := 8, need := needAtomic, isWrite := true, data := r.e.payload, atomic := some r.e.subop.toNat }

/-- A row of ATOMIC with one SUBOP. -/
def onAtomic (s : State) (q : Nat) (want : Nat → Bool) : Host.Outcome State Fault Refusal :=
  onRequest s q (fun e => e.op == 0x04 && want e.subop.toNat) atomicRequest

/-- ATOMIC_ADD; it also answers a SUBOP that 12 R278 does not define. -/
def execAtomicAdd (q : Fin 64) (s : State) : Host.Outcome State Fault Refusal := onAtomic s q (fun k => k == 0 || k > 5)
/-- ATOMIC_COMPARE_SWAP. -/
def execAtomicCompareSwap (q : Fin 64) (s : State) : Host.Outcome State Fault Refusal := onAtomic s q (· == 1)
/-- ATOMIC_MIN_UNSIGNED. -/
def execAtomicMinUnsigned (q : Fin 64) (s : State) : Host.Outcome State Fault Refusal := onAtomic s q (· == 2)
/-- ATOMIC_MAX_UNSIGNED. -/
def execAtomicMaxUnsigned (q : Fin 64) (s : State) : Host.Outcome State Fault Refusal := onAtomic s q (· == 3)
/-- ATOMIC_MIN_SIGNED. -/
def execAtomicMinSigned (q : Fin 64) (s : State) : Host.Outcome State Fault Refusal := onAtomic s q (· == 4)
/-- ATOMIC_MAX_SIGNED. -/
def execAtomicMaxSigned (q : Fin 64) (s : State) : Host.Outcome State Fault Refusal := onAtomic s q (· == 5)

/-! ### SIGNAL and SCHED_FRAME (07 R192; 12 R276, R279) -/

/-- A frame refused under 07 R192. -/
def countRefused (s : State) : State := bump (tally s .refusedFrame) .device 0 13 1

/-- SIGNAL_FRAME. -/
def execSignalFrame (q : Fin 64) (s : State) : Host.Outcome State Fault Refusal :=
  onOpcode s q 0x30 (fun s r =>
    let p := r.e.payload
    if flagsBad r.e true || r.e.subop != 0 || r.e.operand != 0 || p.length != 8 || field p 2 2 != 0 then refuseEruno s r stBadArg else
    match r.ctx with
    | none => refuseEruno s r stDenied
    | some c =>
      if !ownsSync s c (field p 0 2) then refuseEruno (countRefused s) r stDenied
      else
        let s := syncSignal s (field p 0 2) (field p 4 4)
        if r.e.noResponse then s else respondEruno s r stOk [])

/-- The schedule whose paddock takes a SCHED_FRAME of a context: ARMED or RUNNING there, no engine reset under way, and the
bytes within one receive range (07 R192; 17 R402). -/
def frameTaker (s : State) (c p a n : Nat) : Option Nat :=
  let e := s.engine p
  match e.sched with
  | none => none
  | some k => match s.sched? k with
    | none => none
    | some x =>
      if x.st.live && x.ctx == c && e.reset.isNone && (receiveRanges x.image p).any (fun r => r.1 ≤ a && a + n ≤ r.1 + r.2) then some k else none

/-- Check 6 of a SCHED_FRAME, with a start record or without: NO_RESPONSE is always set (12 R276). -/
def schedFrameBad (e : Eruno) : Bool := flagsBad e true || !e.noResponse || e.subop != 0 || e.arg 28 4 != 0

/-- A SCHED_FRAME without START_RECORD (07 R192). -/
def takeSchedFrame (s : State) (r : InReq) : State :=
  let p := r.e.arg 24 4
  let a := r.e.arg 0 24
  let n := r.e.payload.length
  if schedFrameBad r.e || !(1 ≤ n && n ≤ 8192) then refuseEruno s r stBadArg else
  match r.ctx.bind (fun c => (frameTaker s c p a n).map (fun k => (c, k))) with
  | none =>
    let s := countRefused s
    match (s.engine p).sched with
    | some k => bump s .schedule k 7 1
    | none => s
  | some (c, k) =>
    let s := bump (s.updEngine p (fun e => { e with store := mwriteN e.store a r.e.payload })) .schedule k 6 1
    let i := r.e.arg 32 16
    if ownsSync s c i && r.e.arg 48 16 != 0 then syncSignal s i (r.e.arg 48 16) else s

/-- SCHED_FRAME. -/
def execSchedFrame (q : Fin 64) (s : State) : Host.Outcome State Fault Refusal :=
  onRequest s q (fun e => e.op == 0x31 && !e.flag 9) takeSchedFrame

/-! ### CSR space (02 R28 to R31; 18 R410) -/

/-- What stands at a CSR address. -/
inductive CsrPlace where
  | page (m off : Nat)
  | identity (off : Nat)
  | counters (g : Group) (i size off : Nat)
  | empty
  | absent

/-- A counter block's place: base, stride, count, offset. -/
def blockPlace (a base stride n : Nat) (g : Group) : Option CsrPlace :=
  if base ≤ a && a < base + stride * n then some (.counters g ((a - base) / stride) stride ((a - base) % stride)) else none

/-- The place of a counter address (18 R410). -/
def counterPlace (a : Nat) : CsrPlace :=
  ([(0x80000, 0x400, 16, Group.engine), (0x84000, 0x400, 16, .stack), (0x88000, 0x400, 64, .port), (0x98000, 0x400, 1, .device), (0xA0000, 0x400, 64, .schedule)
    , (0x100000, 0x400, 1024, .context), (0x400000, 0x80, 65536, .session)].findSome? (fun b => blockPlace a b.1 b.2.1 b.2.2.1 b.2.2.2)).getD .empty

/-- The place of a CSR address (02 R28; 18 R410). -/
def csrPlace (a : Nat) : CsrPlace :=
  if a < 0x30000 then .page (a / 0x10000) (a % 0x10000)
  else if a < 0x40000 then .identity (a % 0x10000)
  else if a < 0x60000 then .page (a / 0x10000 - 1) (a % 0x10000)
  else if 0x80000 ≤ a && a < 0xC00000 then counterPlace a
  else if 0x1000000 ≤ a && a < 0x5000000 then .page (5 + (a - 0x1000000) / 0x10000) (a % 0x10000)
  else .absent

/-- The context that owns an instance of a counter group, for those of contexts (18 R410). -/
def instanceCtx (s : State) : Group → Nat → Option Nat
  | .context, i => some i
  | .schedule, i => (s.sched? i).map (·.ctx)
  | .session, i => (s.session i).ctx
  | _, _ => none

/-- A path with an operator role session bound to it. -/
def operatorPath (s : State) (path : Path) : Bool := s.auth.sessions.any (fun r => r.role == .operator && r.binding == pathBinding path)

/-- The context of a path. -/
def pathCtx (s : State) : Path → Option Nat
  | .session i gen => if sessionOpen s i gen then (s.session i.toNat).ctx else none
  | _ => none

/-- The path may read the place (02 R31; 18 R410). -/
def csrReadable (s : State) (path : Path) : CsrPlace → Bool
  | .page m off => pathReads s path m off
  | .identity _ => identityReached s path
  | .counters g i _ _ => operatorPath s path || (match pathCtx s path with | some c => instanceCtx s g i == some c | none => false)
  | .empty => true
  | .absent => false

/-- The path reaches the place for a write; the identity page is read-only, so a write there changes nothing (log entry 45). -/
def csrWritable (s : State) (path : Path) : CsrPlace → Bool
  | .page m _ => pathAllows s path m
  | .identity _ => identityReached s path
  | _ => false

/-- One byte as a CSR read returns it. -/
def csrByte (s : State) : CsrPlace → Byte
  | .page m off => pageByte s m off
  | .identity off => (identityRegs s).getD off 0
  | .counters g i size off => (blockBytes s g i size).getD off 0
  | _ => 0

/-- A CSR range is aligned and within its limits (12 R276). -/
def csrRangeOk (a n : Nat) : Bool := a % 4 == 0 && n % 4 == 0 && 4 ≤ n && n ≤ 8192

/-- A CSR read: its bytes, or none where a place of it is not reached; a read of CLUSTER_TIME_LO latches (02 R31). -/
def csrRead (s : State) (path : Path) (a n : Nat) : Option Bytes × State :=
  if !(List.range (n / 4)).all (fun k => csrReadable s path (csrPlace (a + 4 * k))) then (none, s) else
  let s := if a ≤ 0x30010 && 0x30010 < a + n then latchTimeHi s else s
  (some ((List.range n).map (fun k => csrByte s (csrPlace (a + k)))), s)

/-- A CSR write within one page at a time; `n` bounds the pages (02 R29 to R33). -/
def csrWritePages (s : State) (path : Path) : Nat → Nat → Bytes → State
  | 0, _, _ => s
  | n + 1, a, b =>
    if b.isEmpty then s else
    let k := min b.length (0x10000 - a % 0x10000)
    let s := match csrPlace a with
      | .page m off => writePage s m (pathBinding path) off (b.take k)
      | _ => s
    csrWritePages s path n (a + k) (b.drop k)

/-- A CSR write: whether every place of it is reached, and the state. -/
def csrWrite (s : State) (path : Path) (a : Nat) (b : Bytes) : Bool × State :=
  if (List.range (b.length / 4)).all (fun k => csrWritable s path (csrPlace (a + 4 * k))) then (true, csrWritePages s path 2 a b) else (false, s)

/-- The path of an Eruno request. -/
def InReq.path (r : InReq) : Path := if r.back.isSome then .mgmt else .session (BitVec.ofNat 16 r.i) r.e.gen

/-- CSR_READ. -/
def execCsrRead (src : CsrReadSource) (s : State) : Host.Outcome State Fault Refusal :=
  match src with
  | .port q => onOpcode s q 0x32 (fun s r =>
      let a := r.e.arg 0 32
      let n := r.e.arg 32 16
      if flagsBad r.e false || r.e.subop != 0 || r.e.arg 48 16 != 0 || !csrRangeOk a n || !r.e.payload.isEmpty then refuseEruno s r stBadArg else
      match csrRead s r.path a n with
      | (some b, s) => respondEruno s r stOk b
      | (none, s) => refuseEruno s r stDenied)
  | .direct path a n => .next (if s.clocked && csrRangeOk a.toNat n then (csrRead s path a.toNat n).2 else s)

/-- CSR_WRITE. -/
def execCsrWrite (src : CsrWriteSource) (s : State) : Host.Outcome State Fault Refusal :=
  match src with
  | .port q => onOpcode s q 0x33 (fun s r =>
      let a := r.e.arg 0 32
      let n := r.e.arg 32 16
      if flagsBad r.e false || r.e.subop != 0 || r.e.arg 48 16 != 0 || !csrRangeOk a n || r.e.payload.length != n then refuseEruno s r stBadArg else
      match csrWrite s r.path a r.e.payload with
      | (true, s) => respondEruno s r stOk []
      | (false, s) => refuseEruno s r stDenied)
  | .direct path a data => .next (if s.clocked && csrRangeOk a.toNat data.length then (csrWrite s path a.toNat data).2 else s)

/-! ### MAILBOX (02 R33, R34) -/

/-- A range of `n` bytes at an offset overlaps no range still owned. -/
def rangeFree (p : Page) (off n : Nat) : Bool := off + n ≤ xbufLen && !p.ranges.any (fun r => overlaps off (off + n) r.off (r.off + r.len))

/-- The lowest offset where a range of `n` bytes fits: 0, or the end of an owned range. -/
def placeRange (p : Page) (n : Nat) : Option Nat := ((0 :: p.ranges.map (fun r => roundUp (r.off + r.len) 8)).filter (rangeFree p · n)).min?

/-- A message of a slot and its extended arguments has the length that its slot gives (02 R33). -/
def mailLenOk (b : Bytes) : Bool := 64 ≤ b.length && b.length = 64 + field b 6 2 && field b 6 2 ≤ xbufLen

/-- Claims a range and a slot and enqueues a request, as one step (02 R33); none for BUSY. -/
def enqueueMail (s : State) (m : Nat) (binding : BitVec 32) (qp : Option Nat) (b : Bytes) : Option (BitVec 16 × State) :=
  let p := s.page m
  let n := roundUp (max (field b 6 2) (field b 10 2)) 8
  match (if p.doorbellOk (p.reqPi + 1) then placeRange p n else none) with
  | none => none
  | some off =>
    let slot := putNat (b.take 64) 8 2 off
    let mem := mwriteN (mwriteN p.mem (0xB000 + off) (b.drop 64)) (0x1000 + 64 * (p.reqPi.toNat % 256)) slot
    some (p.reqPi, s.updPage m (fun p => { p with mem := mem, reqPi := p.reqPi + 1, ranges := p.ranges ++ [{ index := p.reqPi, off := off, len := n, binding := binding, qp := qp }] }))

/-- The mailbox that a MAILBOX operation reaches: at the management port that port's (02 R28; 16 R380); on a session its context's; on a role slot that of the role session that
its slot names, or, before there is one, that of the role that its ROLE_CHALLENGE or ROLE_PROVE names (log entry 32). -/
def mailTarget (s : State) (r : InReq) : Option Nat :=
  if r.back.isSome then some 3 else
  match r.ctx with
  | some c => some (ctxMailbox c)
  | none =>
    let b := r.e.payload
    let bound := s.auth.sessions.filter (fun x => x.binding == pathBinding r.path)
    match bound.find? (fun x => x.id.toNat == field b 12 4) with
    | some x => some (roleMailbox x.role)
    | none => if field b 0 2 = 0x0102 || field b 0 2 = 0x0103 then (roleOfCode (field b 20 1)).map roleMailbox else (bound.head?).map (fun x => roleMailbox x.role)

/-- MAILBOX. -/
def execMailbox (q : Fin 65) (s : State) : Host.Outcome State Fault Refusal :=
  onOpcode s q 0x34 (fun s r =>
    if flagsBad r.e false || r.e.subop != 0 || r.e.operand != 0 || !mailLenOk r.e.payload then refuseEruno s r stBadArg else
    match mailTarget s r with
    | none => refuseEruno s r stDenied
    | some m => match enqueueMail s m (pathBinding r.path) none r.e.payload with
      | some (i, s) => respondEruno s r stOk (natLe i.toNat 2)
      | none => refuseEruno s r stBusy)

/-! ### INVALIDATE (15 R358) -/

/-- A translation lies on a range of host addresses. -/
def XEntry.meets (x : XEntry) (lo size : Nat) : Bool := overlaps lo (lo + size) x.va (x.va + 2 ^ x.log2)

/-- The host page that an outstanding request of a host move asks for or was issued under, where an INVALIDATE can withdraw it. -/
def OutKind.hostPage : OutKind → Option (Nat × Nat)
  | .translate _ _ page _ | .pageRequest _ _ page => some (page, 4096)
  | .hostRead _ _ _ _ page log2 | .hostWrite _ _ _ page log2 => some (page, 2 ^ log2)
  | _ => none

/-- INVALIDATE: the session's translations that overlap the range are withdrawn, and the answer waits for the requests
issued under them (15 R358). -/
def invalidateRange (s : State) (r : InReq) (lo size : Nat) : State :=
  let hit (o : Outstanding) : Bool := o.session == r.i && (match o.kind.hostPage with | some (a, n) => overlaps lo (lo + size) a (a + n) | none => false)
  let under (o : Outstanding) : Bool := hit o && (match o.kind with | .hostRead .. | .hostWrite .. => true | _ => false)
  let d : Drain := { session := r.i, tag := r.e.tag, seq := r.e.seq, requests := (s.outstanding.filter under).map (fun o => (o.session, o.tag)), port := r.q, echo := r.e.flag 1 }
  { s with xcache := s.xcache.filter (fun x => !(x.session == r.i && x.meets lo size)), drains := s.drains ++ [d]
           outstanding := s.outstanding.map (fun o => if hit o then { o with withdrawn := true } else o) }

/-- INVALIDATE. -/
def execInvalidate (q : Fin 64) (s : State) : Host.Outcome State Fault Refusal :=
  onOpcode s q 0x36 (fun s r =>
    let k := r.e.subop.toNat
    if flagsBad r.e false || !(12 ≤ k && k ≤ 47) || !r.e.payload.isEmpty || r.e.operand.toNat % 2 ^ k != 0 then refuseEruno s r stBadArg
    else invalidateRange s r r.e.operand.toNat (2 ^ k))

/-- The request that an INVALIDATE's answer goes to. -/
def Drain.request (s : State) (d : Drain) : InReq :=
  let x := s.session d.session
  { q := d.port, i := d.session, ctx := x.ctx, dscp := 0
    e := { opcode := 0x36, flags := if d.echo then 2 else 0, dst := localOfSession s x, src := x.peer, session := x.gen ++ BitVec.ofNat 16 d.session, seq := d.seq, tag := d.tag } }

end Sys2Proof.Machine
end

