-- ==== Sys2Proof/Machine/SchedLoad.lean ====
section
/-!
DEFINITION. Loading a schedule image and admitting a privileged one (07 R169 to R175; 09 R214; 13 R319).
-/

namespace Sys2Proof.Machine

open Sys2Proof

/-- The place of the first check of a list that fails. -/
def firstOf (l : List (Bool × Nat)) : Option Nat := (l.find? (fun c => !c.1)).map (·.2)

/-! ### Check 4 (07 R170 to R173, R175): each gives the image byte offset of its first faulty item -/

/-- Image bytes at most. -/
def schedImageMax : Nat := 2 ^ 30

/-- The header. -/
def headerFault (s : State) (b : Bytes) : Option Nat :=
  let dv := imageDevices b
  firstOf [(field b 0 4 == 0x49515354, 0), (field b 4 2 == 1, 4), (field b 6 1 == s.buildCode, 6), (imagePaddockMask b != 0, 10),
    (3 ≤ sectCount b && sectCount b ≤ 256, 12), (field b 14 2 < 4, 14), (deviceIndex b < dv, 32), (1 ≤ dv && dv ≤ 1024, 34),
    (bellwether b == 0xFFFF || bellwether b < dv, 36), (!bit (field b 38 2) 13, 38), (10000 ≤ startLead b && startLead b ≤ 1000000000, 40),
    (1 ≤ field b 44 2 && field b 44 2 ≤ 60000, 44), (1 ≤ imageCopies b && imageCopies b ≤ 4, 46), (field b 47 1 == 0, 47), (field b 48 8 == b.length, 48),
    (zeroAt b 56 63, 56), (zeroAt b 96 127, 96), (128 + 32 * sectCount b ≤ b.length, 12)]

/-- LENGTH of a section fits its type (07 R171). -/
def sectLenOk (b : Bytes) (x : Sect) : Bool :=
  let whole (size most : Nat) : Bool := x.len % size == 0 && x.len ≤ size * most
  match x.type with
  | 1 => x.len != 0 && whole 64 1048576
  | 2 => whole 16 4096
  | 3 => x.len == 8 + 8 * field b (x.off + 1) 1
  | 4 => whole 8 16384
  | 5 => whole 2 4096
  | 6 => x.len == 8 * imageDevices b
  | 7 | 8 => x.len % 24 == 0
  | _ => 16 ≤ x.len

/-- Two sections that may not both stand in an image: one type for one paddock, or one port. -/
def sameSect (b : Bytes) (x y : Sect) : Bool := x.type == y.type && (if x.type = 9 then field b x.off 1 == field b y.off 1 else x.paddock == y.paddock)

/-- Directory entry `i`. -/
def sectFault (b : Bytes) (i : Nat) : Option Nat :=
  let o := 128 + 32 * i
  let x := sectAt b i
  let before := (List.range i).map (sectAt b)
  firstOf [(1 ≤ x.type && x.type ≤ 9, o), (if x.type ≤ 3 then x.paddock < 16 && bit (imagePaddockMask b) x.paddock else x.paddock == 0xFFFF, o + 2),
    (zeroAt b (o + 4) (o + 7), o + 4), (x.off % 64 == 0 && 128 + 32 * sectCount b ≤ x.off, o + 8), (x.off + x.len ≤ b.length && sectLenOk b x, o + 16),
    (zeroAt b (o + 24) (o + 31), o + 24), (!before.any (sameSect b x), o), (!before.any (fun y => overlaps x.off (x.off + x.len) y.off (y.off + y.len)), o + 8)]

/-- The opcodes of the control slot that use a sync object. -/
def usesSync (b : Bytes) : Bool :=
  (imagePaddocks b).any (fun p => (List.range (streamLen b p)).any (fun i => let o := (bundleSlot (streamBundle b p i) 0).op; o == 0x31 || o == 0x34 || o == 0x35))

/-- A stream holds a PR.LENS, whose walks name sequences. -/
def usesLens (b : Bytes) : Bool :=
  (imagePaddocks b).any (fun p => (List.range (streamLen b p)).any (fun i => (bundleOps (streamBundle b p i)).any (fun o => o.op == .prLens)))

/-- Required sections are present (07 R171). SEQUENCES is, where a stream holds a PR.LENS: the mode of a walk stands in the store
and is not known at the load (log entry 97). -/
def requiredFault (b : Bytes) : Option Nat :=
  let has (type p : Nat) : Bool := (sections b).any (fun x => x.type == type && x.paddock == p)
  firstOf [((imagePaddocks b).all (fun p => has 1 p && has 2 p && has 3 p), 12), (imageDevices b = 1 || has 6 0xFFFF, 12), (!usesSync b || has 4 0xFFFF, 12), (!usesLens b || has 5 0xFFFF, 12)]

/-- The first index of a list whose element repeats an earlier one. -/
def firstRepeat (l : List Nat) : Option Nat := (List.range l.length).find? (fun i => (l.take i).contains (l.getD i 0))

/-- A PADDOCK section (07 R172). -/
def paddockFault (x : Bytes) : Option Nat :=
  let n := field x 1 1
  let top := 2 ^ 24 - (match field x 0 1 with | 1 => 524288 | 2 => 1048576 | 3 => 2097152 | _ => 0)
  let range (i : Nat) : Nat × Nat := (field x (8 + 8 * i) 3, field x (12 + 8 * i) 3)
  match firstOf [(field x 0 1 ≤ 3, 0), (n ≤ 16, 1), (zeroAt x 2 7, 2)] with
  | some o => some o
  | none => (List.range n).findSome? (fun i =>
      let o := 8 + 8 * i
      let (a, k) := range i
      firstOf [(field x (o + 3) 1 == 0, o + 3), (1 ≤ k && a + k ≤ top, o + 4), (field x (o + 7) 1 == 0, o + 7)
        , (!(List.range i).any (fun j => overlaps a (a + k) (range j).1 ((range j).1 + (range j).2)), o)])

/-- PARTICIPANTS (07 R173). -/
def participantsFault (b x : Bytes) : Option Nat :=
  (List.range (x.length / 8)).findSome? (fun i =>
    firstOf [(field x (8 * i) 2 == i, 8 * i), (field x (8 * i + 2) 2 == 0, 8 * i + 2), ((i == deviceIndex b) == (field x (8 * i + 4) 4 == 0), 8 * i + 4)])

/-- The content of a section, by its offset in the section. -/
def contentFault (b : Bytes) (x : Sect) : Option Nat :=
  let c := x.bytes b
  let entries (size : Nat) (bad : Nat → Option Nat) : Option Nat := (List.range (x.len / size)).findSome? (fun i => (bad (size * i)).map (size * i + ·))
  match x.type with
  | 1 => (List.range (streamLen b x.paddock)).findSome? (fun i => if bundleOk (streamBundle b x.paddock i) ((sectFor b 2 x.paddock).length / 16) then none else some (64 * i))
  | 2 => entries 16 (fun o => firstOf [(field c (o + 14) 1 ≤ 1, 14), (field c (o + 15) 1 == 0, 15)])
  | 3 => paddockFault c
  | 4 => match entries 8 (fun o => firstOf [(field c (o + 2) 2 == 0, 2)]) with
    | some o => some o
    | none => (firstRepeat ((syncEntries b).map (·.1))).map (8 * ·)
  | 5 => match entries 2 (fun o => firstOf [(field c o 2 < 4096, 0)]) with
    | some o => some o
    | none => (firstRepeat (seqNumbers b)).map (2 * ·)
  | 6 => participantsFault b c
  | 7 => entries 24 (fun o => firstOf [(zeroAt c (o + 16) (o + 23), 16)])
  | 8 => entries 24 (fun o => firstOf [(1 ≤ field c (o + 16) 1 && field c (o + 16) 1 ≤ 128, 16), (zeroAt c (o + 17) (o + 23), 17)])
  | _ => firstOf [(field c 0 1 < 64, 0)]

/-- The image byte offset of an image's first faulty item. -/
def imageFault (s : State) (b : Bytes) : Option Nat :=
  match headerFault s b with
  | some o => some o
  | none => match (List.range (sectCount b)).findSome? (sectFault b) with
    | some o => some o
    | none => match requiredFault b with
      | some o => some o
      | none => (sections b).findSome? (fun x => (contentFault b x).map (x.off + ·))

/-! ### SCHED_LOAD (07 R175) -/


/-- SCHED_LOAD. -/
def cmdSchedLoad : Cmd where
  op := 0x0401
  issuers := tenantOnly
  changes := always
  blocked := neverBlocked
  obj := fun _ => (5, 0xFFFF)
  body := fun q s =>
    match q.firstBad [(20, 16)] [(28, q.arg 28 8 = 0 || q.arg 28 8 > schedImageMax)] with
    | some b => badAt b
    | none => .pend { s with loads := s.loads ++ [{ ctx := q.tenant, tag := q.tag, va := q.arg 20 8, len := q.arg 28 8, mailbox := q.m, cmd := q.serial }] } []

/-- SCHED_LOAD. -/
def execSchedLoad (m : Fin 1029) (s : State) : Host.Outcome State Fault Refusal := serve m cmdSchedLoad s

/-- DIGEST of an image's bytes (07 R170). -/
def digestOf (b : Bytes) : Bytes := Config.shake256 (b.take 64 ++ (b.take (field b 48 8)).drop 96) 32

/-- Every SYNC object and SEQUENCES entry of an image is owned by its context. -/
def imageOwned (s : State) (b : Bytes) : Bool :=
  (syncEntries b).all (fun e => ownsSync s (imageCtx b) e.1) && (seqNumbers b).all (fun e => (s.seqEntry e).owner == some (imageCtx b))

/-- A schedule number that is free (07 R169). -/
def freeSched (s : State) : Option Nat := pick s.free ((List.range 64).filter (fun n => (s.sched? n).isNone))

/-- Checks 2 to 7 on a copied image: the number it is loaded under, or a status with the event's DATA. -/
def loadVerdict (s : State) (c : Nat) (b : Bytes) : Nat ⊕ (Nat × Bytes) :=
  if imageCtx b != c then .inr (stDenied, [])
  else if digestOf b != imageDigest b then .inr (stIntegrity, [])
  else match imageFault s b with
    | some o => .inr (stBadArg, natLe o 8)
    | none =>
      if imageEpoch b != s.layout.epoch.toNat then .inr (stEpoch, [])
      else if !imageOwned s b then .inr (stDenied, [])
      else match (if b.length + (s.scheds.foldl (fun n x => n + x.2.image.length) 0) ≤ schedStore then freeSched s else none) with
        | some n => .inl n
        | none => .inr (stNoResource, [])

/-- The pending SCHED_LOAD of a load, and its COMPLETION with a schedule number. DESIGN CHOICE: where nothing is loaded OBJ_ID is 0,
and in the COMPLETION that NOTIFY asks for with an immediate failure 0xFFFF (log entry 98). -/
def finishLoad (s : State) (x : Load) (n status : Nat) (data : Bytes) : State :=
  match pendingOf s (fun p => p.opcode == 0x0401 && p.id == x.cmd) with
  | none => s
  | some p =>
    let p' := { p with objId := n }
    finish { s with pendings := s.pendings.map (fun y => if y == p then p' else y) } p' status s.ct data

/-- The read of a load's source. -/
def Load.read (x : Load) : EngReq := { owner := .load x.cmd, ctx := x.ctx, sched := none, va := x.va, len := x.len, engine := false }

/-- A copied image is checked, and loaded or refused (07 R175); a loaded one stands in the schedule store (03 R67). -/
def loadImage (s : State) (x : Load) (b : Bytes) : State :=
  match loadVerdict s x.ctx b with
  | .inl n =>
    let place := storePlace s b.length
    let (_, s) := writePieces s demand (storeRanges s place) b
    finishLoad (zeroBlock { drawn s with scheds := tput s.scheds n { ctx := x.ctx, image := b, place := place } } .schedule n x.ctx) x n stOk []
  | .inr (st, d) => finishLoad s x 0 st d

/-- A load ends: check 1 reads the source, and the copy is checked (07 R175). -/
def endLoad (s : State) (x : Load) : State :=
  let (g, s) := performReq { s with loads := s.loads.erase x } x.read
  let s := ncCollect s (.load x.cmd)
  if g.status = stOk then loadImage s x g.bytes else finishLoad s x 0 g.status []

/-- A load goes on: the lines of a coherent source are asked of their homes, and the load ends once they are in (14 R334). -/
def stepLoad (s : State) (x : Load) : State :=
  let s := startReq s x.read
  if x.read.waits s || accessHeld s true (storeRanges s (storePlace s x.len)) then s else endLoad s x

/-- SCHED_LOAD_DONE. -/
def execSchedLoadDone (t : Nat) (c : Fin 1024) (s : State) : Host.Outcome State Fault Refusal :=
  timed t s (fun s => s.clocked && s.loads.any (fun x => x.ctx == c.val)) (fun s => match s.loads.find? (fun x => x.ctx == c.val) with
    | some x => stepLoad s x
    | none => s)

/-! ### SCHED_ADMIT (07 R174; 09 R214; 13 R319) -/

/-- Two RESERVE entries that share a stack: equal PERIODs, and intervals that do not overlap modulo it. -/
def reserveApart (a b : Window) : Bool :=
  if a.mask &&& b.mask = 0 then true
  else if a.period != b.period then false
  else if a.period = 0 then !overlaps a.offset (a.offset + a.length) b.offset (b.offset + b.length)
  else
    let d := (b.offset + a.period * (a.offset / a.period + 1) - a.offset) % a.period
    a.length ≤ d && d + b.length ≤ a.period

/-- Every two RESERVE entries of an image stand apart. -/
def reservesOk (ws : List Window) : Bool := (List.range ws.length).all (fun i => (ws.drop (i + 1)).all (fun w => match ws[i]? with | some v => reserveApart v w | none => true))

/-- Windows in time order after the window `(a, e)`, those that overlap merged: start and end. -/
def mergeFrom (a e : Nat) : List (Nat × Nat) → List (Nat × Nat)
  | [] => [(a, e)]
  | (a', e') :: r => if a' < e then mergeFrom a (max e e') r else (a, e) :: mergeFrom a' e' r

/-- Windows in time order, those that overlap merged. -/
def mergeWindows : List (Nat × Nat) → List (Nat × Nat)
  | [] => []
  | (a, e) :: r => mergeFrom a e r

/-- Windows inserted by their start. -/
def insertWindow (x : Nat × Nat) : List (Nat × Nat) → List (Nat × Nat)
  | [] => [x]
  | y :: r => if x.1 ≤ y.1 then x :: y :: r else y :: insertWindow x r

/-- The windows of a cycle `h` with the last joined to the first while it runs into it; `n` bounds the joins. -/
def wrapWindows (h : Nat) : Nat → List (Nat × Nat) → List (Nat × Nat)
  | 0, l => l
  | n + 1, l =>
    match l, l.getLast? with
    | (a, e) :: r, some (x, y) =>
      if r.isEmpty || y ≤ a + h then (a, e) :: r else wrapWindows h n (r.dropLast ++ [(x, max y (e + h))])
    | _, _ => l

/-- The window check of 09 R214 on merged windows of a cycle. -/
def windowsPass (refi rfc h : Nat) (l : List (Nat × Nat)) : Bool :=
  (List.range l.length).all (fun i =>
    let (a, e) := l.getD i (0, 0)
    let prev := (l.getD (if i = 0 then l.length - 1 else i - 1) (0, 0)).1
    let d := if (a + h - prev) % h = 0 then h else (a + h - prev) % h
    let n := ceilDiv d refi
    n ≤ (e - a) / rfc && 1 + n ≤ 7)

/-- The refresh check of a stack (09 R214). -/
def refreshPass (s : State) (ws : List Window) (t : Nat) : Bool :=
  let mine := ws.filter (fun w => bit w.mask t)
  let h := mine.foldl (fun m w => max m w.period) 0
  mine.isEmpty || (mine.all (fun w => w.length != 0 && w.length ≤ w.period && h % w.period == 0) &&
    windowsPass (acceptedNum s t 96 2) (acceptedNum s t 98 2) h
      (let l := mergeWindows (mine.foldl (fun l w =>
          (List.range (h / w.period)).foldl (fun l k => let a := (w.offset + k * w.period) % h; insertWindow (a, a + w.length) l) l) [])
       wrapWindows h l.length l))

/-- An image's privileged sections pass (07 R174). -/
def admissible (s : State) (b : Bytes) : Bool :=
  reservesOk (windowsOf b 8) && (List.range 16).all (refreshPass s (windowsOf b 7)) && (gateSects b).all (fun g => (gateFault g.list g.classes).isNone)

/-- The states' codes (07 R182). -/
def SchedState.code : SchedState → Nat
  | .loaded => 1 | .armed => 2 | .running => 3 | .ended => 4 | .stopped => 5

/-- BAD_STATE of a schedule. -/
def badSched (x : Sched) : Reply := badState 5 x.st.code

/-- A command that names a loaded schedule in [20], which a tenant's context owns (07 R200). -/
def onSched (q : Req) (s : State) (used : List (Nat × Nat)) (body : Nat → Sched → Reply) : Reply :=
  let n := q.arg 20 1
  match q.firstBad ((20, 1) :: used) [(20, n > 63)] with
  | some b => badAt b
  | none => match s.sched? n with
    | none => badAt 20
    | some x => if (match q.party with | .tenant c => x.ctx != c | _ => false) then denied else body n x

/-- The object of a schedule command. -/
def schedObj (q : Req) : Nat × Nat := (5, q.arg 20 1)

end Sys2Proof.Machine
end

