-- ==== Sys2Proof/Machine/SchedRun.lean ====
section
/-!
DEFINITION. Arming, starting, ending and the start records of schedules (07 R176 to R188, R193, R196, R200; 04 R86, R87; 14 R327).
-/

namespace Sys2Proof.Machine

open Sys2Proof

/-- The clock states' codes (07 R165). -/
def ClockState.code : ClockState → Nat
  | .free => 0 | .acquiring => 1 | .locked => 2 | .holdover => 3

/-! ### SCHED_ARM (07 R176, R177, R197) -/

/-- A schedule holds its paddocks, stacks and ports: it arms, or it is ARMED or RUNNING. -/
def Sched.holds (x : Sched) : Bool := x.arming || x.st.live

/-- Another schedule that holds what it names meets a condition. -/
def otherHolds (s : State) (n : Nat) (bad : Sched → Bool) : Bool := s.scheds.any (fun e => e.1 != n && e.2.holds && bad e.2)

/-- Every paddock of an image is free of other schedules. -/
def paddocksFree (s : State) (n : Nat) (b : Bytes) : Bool :=
  (imagePaddocks b).all (fun p => paddockFree s n p) && !otherHolds s n (fun x => imagePaddockMask x.image &&& imagePaddockMask b != 0)

/-- The stacks of an image's REFRESH and RESERVE sections. -/
def imageStacks (b : Bytes) : List Nat := windowStacks b 7 ++ windowStacks b 8
/-- The ports of an image's GATES sections. -/
def imagePorts (b : Bytes) : List Nat := (gateSects b).map (·.port)

/-- The stacks and ports of an image are free of other schedules. -/
def windowsFree (s : State) (n : Nat) (b : Bytes) : Bool :=
  !otherHolds s n (fun x => (imageStacks b).any (imageStacks x.image).contains || (imagePorts b).any (imagePorts x.image).contains)

/-- T0 as SCHED_ARM accepts it. -/
def t0Ok (s : State) (b : Bytes) (t0 : Nat) : Bool := if bellwether b = 0xFFFF then t0 != 0 && s.ct + usNs 200 ≤ t0 else t0 == 0

/-- Arming begins: the line caches of other schedules on its paddocks are given up. -/
def beginArming (s : State) (n : Nat) (x : Sched) (t0 tweak : Nat) : State :=
  let s := s.updSched n (fun x => { x with arming := true, armedAt := s.now, t0 := if t0 = 0 then none else some t0, tweak := BitVec.ofNat 64 tweak, latched := false })
  foldKeys (imagePaddocks x.image) s (fun s p => if (s.engine p).sched == some n then s else declareDead s (64 + p) 7)

/-- The pending SCHED_ARM of a schedule ends. -/
def finishArm (s : State) (n status : Nat) : State :=
  match pendingOf s (fun p => p.opcode == 0x0403 && p.objId == n) with
  | some p => finish s p status s.ct
  | none => s

/-! ### The start logic (07 R179, R181, R193) -/

/-- A start record discarded and counted. -/
def dropRecord (s : State) : State := bump (tally s .startDiscard) .device 0 12 1

/-- The READY records held for an armed schedule's tag are checked and counted (07 R193). -/
def takeHeld (s : State) (n : Nat) : State :=
  match s.sched? n with
  | none => s
  | some x =>
    let mine := s.readyHeld.filter (fun r => r.tag == domainTag x.image)
    let good (r : ReadyRec) : Bool := participantSession x.image r.sender == some r.session
    let s := { s with readyHeld := s.readyHeld.filter (fun r => r.tag != domainTag x.image) }
    let s := (mine.filter (fun r => !good r)).foldl (fun s _ => dropRecord s) s
    s.updSched n (fun x => { x with ready := (x.ready ++ (mine.filter good).map (·.sender)).dedup })

/-- The devices counted on a bellwether, itself among them. -/
def Sched.count (x : Sched) : Nat := (deviceIndex x.image :: x.ready).dedup.length

/-- The count has reached DEVICES: the bellwether sets T0 and sends RELEASE (07 R179). -/
def countReady (s : State) (n : Nat) : State :=
  match s.sched? n with
  | none => s
  | some x =>
    let b := x.image
    if x.st == .armed && x.t0.isNone && bellwether b == deviceIndex b && imageDevices b ≤ x.count then
      let t0 := roundUp (s.ct + startLead b) 1000
      sendRecords (s.updSched n (fun x => { x with t0 := some t0 })) n 2 t0 0 (otherParticipants b)
    else s

/-- What a part does for its start once it is armed: the bellwether counts, any other part sends READY. -/
def startPart (s : State) (n : Nat) (b : Bytes) : State :=
  let s := takeHeld s n
  if bellwether b = 0xFFFF then s
  else if bellwether b = deviceIndex b then countReady s n
  else sendRecords s n 1 0 0 ((participantSession b (bellwether b)).toList)

/-! ### ARMING_COMPLETE (07 R177) -/

/-- A paddock is armed: its engine is set, and its line cache registered where it has a partition. -/
def armPaddock (s : State) (n : Nat) (b : Bytes) (p : Nat) : State :=
  let e := s.engine p
  let a := e.armed n b p
  let a := if e.sched == some n then { a with ways := e.ways } else a
  let s := s.updEngine p (fun _ => a)
  let g : Agent := { ctx := imageCtx b, session := 0, mask := 0xFF, n := cacheN a.partition, ways := cacheWays, leaseMs := 0, leaseStart := s.now }
  if a.partition = 0 || (s.agent? (64 + p)).isSome then s else { s with agents := tput s.agents (64 + p) g }

/-- Arming is over: the schedule is ARMED. -/
def armed (s : State) (n : Nat) (b : Bytes) : State :=
  let s := foldKeys (imagePaddocks b) s (fun s p => armPaddock s n b p)
  let s := (syncEntries b).foldl (fun s e => s.updSync e.1 (fun o => { o with value := e.2 })) s
  let s := s.updSched n (fun x => { x with st := .armed, arming := false, armedAt := s.now, latched := false, ready := [] })
  startPart (finishArm s n stOk) n b

/-- Arming has not finished by T0 − 2 µs: LATE, and the schedule stays as it was. -/
def armLate (s : State) (n : Nat) : State := finishArm (s.updSched n (fun x => { x with arming := false, t0 := none })) n stLate

/-- The start of a schedule latches: T0 − 2 µs has come. -/
def latchDue (s : State) (x : Sched) : Bool := x.t0.any (fun t => t ≤ s.ct + usNs 2)

/-- ARMING_COMPLETE. -/
def execArmingComplete (t : Nat) (n : Fin 64) (s : State) : Host.Outcome State Fault Refusal :=
  timed t s (fun s => s.clocked && (s.sched? n).any (fun x => x.arming && (imagePaddocks x.image).all (fun p => (s.engine p).reset.isNone && !(s.agent? (64 + p)).any (fun g => g.dead.isSome))))
    (fun s => match s.sched? n with
      | some x => if latchDue s x then armLate s n else armed s n x.image
      | none => s)

/-! ### The start (07 R178, R196) -/

/-- START_LATCH. -/
def execStartLatch (t : Nat) (n : Fin 64) (s : State) : Host.Outcome State Fault Refusal :=
  timed t s (fun s => s.clocked && (s.sched? n).any (fun x => latchDue s x && (x.arming || (x.st == .armed && !x.latched))))
    (fun s => match s.sched? n with
      | some x => if x.arming then armLate s n else s.updSched n (fun x => { x with latched := true })
      | none => s)

/-- The gate lists of an image take effect at T0. -/
def openGates (s : State) (n t0 : Nat) (b : Bytes) : State :=
  (gateSects b).foldl (fun s g => s.updPort g.port (fun p => { p with schedGates := some ((gateList g.list g.classes (t0 + g.offset) (some n)).sync s.ct) })) s

/-- T0: windows and gate lists take effect, and every paddock issues from bundle 0, but for one whose fault an earlier run has left
(04 R102; log entry 99). -/
def startSched (s : State) (n t0 : Nat) (b : Bytes) : State :=
  let s := s.updSched n (fun x => { x with st := .running, latched := true, startedAt := t0 })
  let s := foldKeys (imageStacks b).dedup s (fun s t => s.updStack t (fun x => { x with preT0 := false }))
  let s := openGates s n t0 b
  foldKeys (imagePaddocks b) s (fun s p => s.updEngine p (fun e => { e with issuing := e.fault.isNone, pc := 0, lastIssue := s.now }))

/-- T0_REACHED. -/
def execT0Reached (t : Nat) (n : Fin 64) (s : State) : Host.Outcome State Fault Refusal :=
  timed t s (fun s => s.clocked && (s.sched? n).any (fun x => x.st == .armed && x.t0.any (· ≤ s.ct)))
    (fun s => match s.sched? n with
      | some x => startSched s n (x.t0.getD 0) x.image
      | none => s)

/-! ### Deadlines and the end (07 R182, R184, R187) -/

/-- An occurrence of a trigger whose deadline has come and that has not been found late: its number. -/
def lateOcc (s : State) (x : Sched) (p i : Nat) : Option Nat :=
  (openOccs (s.engine p) i).find? (fun k =>
    (deadlineOf x p i k).any (· ≤ s.ctOf p) && !(tgetD (s.engine p).triggers {} i).open_.any (fun o => o.1 == k && o.2.2.2))

/-- An occurrence is late: ACTION 1 stops the schedule, ACTION 0 lets it run on. -/
def deadlineMissed (s : State) (n : Nat) (x : Sched) (p i k : Nat) : State :=
  if (triggerOf x.image p i).any (·.abort) then
    stopWith s n { reason := 2, status := stLate, paddock := p, bundle := (s.engine p).pc, trigger := i, abort := some (p, i, k) }
  else s.updEngine p (fun e => { e with triggers := tupd e.triggers {} i (fun o =>
      { o with open_ := if o.open_.any (fun y => y.1 == k) then o.open_.map (fun y => if y.1 == k then (y.1, y.2.1, y.2.2.1, true) else y)
                        else o.open_ ++ [(k, 0, false, true)] }) })

/-- DEADLINE_EXPIRY. -/
def execDeadlineExpiry (t : Nat) (p : Fin 16) (i : BitVec 16) (s : State) : Host.Outcome State Fault Refusal :=
  timed t s (fun s => s.clocked && (runningOn s p).any (fun x => (lateOcc s x.2 p i.toNat).isSome))
    (fun s => match runningOn s p with
      | some (n, x) => match lateOcc s x p i.toNat with
        | some k => deadlineMissed s n x p i.toNat k
        | none => s
      | none => s)

/-- Every paddock of a schedule has halted and is idle. -/
def allHalted (s : State) (n : Nat) : Bool := (schedEngines s n).all (fun p => (s.engine p).halted && (s.engine p).idle)

/-- The occurrences of a paddock that were found late, or are past their deadline, and are open at the end (07 R187, R188). -/
def lateAtEnd (s : State) (n p : Nat) (x : Sched) : State :=
  foldKeys (tkeys (s.engine p).triggers (fun _ _ => true)) s (fun s i =>
    (tgetD (s.engine p).triggers {} i).open_.foldl (fun s o => match deadlineOf x p i o.1 with
      | some d => if s.ctOf p > d || o.2.2.2 then reportLate s n p i o.1 (s.ctOf p - d) false else s
      | none => s) s)

/-- A schedule ends: SCHEDULE_DONE. -/
def endSched (s : State) (n : Nat) (x : Sched) : State :=
  let s := foldKeys (schedEngines s n) s (fun s p => lateAtEnd s n p x)
  let s := endWindows s n
  let s := s.updSched n (fun x => { x with st := .ended })
  postCtx s x.ctx 6 5 n (natLe ((s.sched? n).elim 0 (·.late)) 4 ++ natLe (s.ct - x.startedAt) 8)

/-- PROGRAM_END. -/
def execProgramEnd (t : Nat) (n : Fin 64) (s : State) : Host.Outcome State Fault Refusal :=
  timed t s (fun s => s.clocked && (s.sched? n).any (fun x => x.st == .running) && allHalted s n)
    (fun s => match s.sched? n with
      | some x => endSched s n x
      | none => s)

/-- RELEASE_WAIT_EXPIRY. -/
def execReleaseWaitExpiry (t : Nat) (n : Fin 64) (s : State) : Host.Outcome State Fault Refusal :=
  timed t s (fun s => s.clocked && (s.sched? n).any (fun x => x.st == .armed && x.t0.isNone && x.armedAt + releaseWait x.image ≤ s.now)) (fun s => stopSched s n 6)

/-! ### Commands (07 R182, R200) -/

/-- The late occurrences of a paddock's triggers are found late. -/
def settleDeadlines (s : State) (p : Nat) : State :=
  foldRange 0 ((sectFor ((runningOn s p).elim [] (fun x => x.2.image)) 2 p).length / 16) s (fun s i => match runningOn s p with
    | some (n, x) => match lateOcc s x p i with
      | some k => deadlineMissed s n x p i k
      | none => s
    | none => s)

/-- What has become due of a schedule is taken up before a command that names it: its latch, its T0, its deadlines, its end and its
wait for RELEASE (02 R53). -/
def settleSched (s : State) (n : Nat) : State :=
  let act (s : State) (due : State → Sched → Bool) (f : State → Sched → State) : State := match s.sched? n with
    | some x => if due s x then f s x else s
    | none => s
  let s := act s (fun s x => latchDue s x && (x.arming || (x.st == .armed && !x.latched)))
    (fun s x => if x.arming then armLate s n else s.updSched n (fun x => { x with latched := true }))
  let s := act s (fun s x => x.st == .armed && x.t0.any (· ≤ s.ct)) (fun s x => startSched s n (x.t0.getD 0) x.image)
  let s := act s (fun _ x => x.st == .running) (fun s _ => foldKeys (schedEngines s n) s settleDeadlines)
  let s := act s (fun s x => x.st == .running && allHalted s n) (fun s x => endSched s n x)
  act s (fun s x => x.st == .armed && x.t0.isNone && x.armedAt + releaseWait x.image ≤ s.now) (fun s _ => stopSched s n 6)

/-- The schedule that a command names is settled. -/
def schedFirst (q : Req) (s : State) : State := settleSched s (q.arg 20 1)

/-- SCHED_ADMIT. -/
def cmdSchedAdmit : Cmd where
  op := 0x0402
  issuers := operatorOnly
  changes := always
  obj := schedObj
  before := schedFirst
  body := fun q s => onSched q s [] (fun n x =>
    if x.st.live then .done s [] []
    else if !admissible s x.image then badAt 20
    else .done (s.updSched n (fun x => { x with admitted := true })) [] [])

/-- SCHED_ADMIT. -/
def execSchedAdmit (m : Fin 1029) (s : State) : Host.Outcome State Fault Refusal := serve m cmdSchedAdmit s

/-- SCHED_ARM. -/
def cmdSchedArm : Cmd where
  op := 0x0403
  issuers := tenantOnly
  changes := always
  obj := schedObj
  before := schedFirst
  body := fun q s => onSched q s [(24, 16)] (fun n x =>
    let b := x.image
    if imagePrivileged b && !x.admitted || !imageOwned s b then denied
    else if !t0Ok s b (q.arg 24 8) then badAt 24
    else if x.st.live then badSched x
    else if imageEpoch b != s.layout.epoch.toNat then .fail stEpoch 0
    else if s.clock.st != .locked && imageDevices b != 1 then .fail stBadState (x.st.code + 256 * 5 + 65536 * s.clock.st.code)
    else if !paddocksFree s n b then busy
    else if !windowsFree s n b then noResource
    else .pend (beginArming s n x (q.arg 24 8) (q.arg 32 8)) [])

/-- SCHED_ARM. -/
def execSchedArm (m : Fin 1029) (s : State) : Host.Outcome State Fault Refusal := serve m cmdSchedArm s

/-- SCHED_DISARM. -/
def cmdSchedDisarm : Cmd where
  op := 0x0404
  issuers := tenantOnly
  changes := always
  obj := schedObj
  before := schedFirst
  body := fun q s => onSched q s [] (fun n x =>
    if x.st == .armed && !x.latched && !latchDue s x then
      .done { (endWindows s n).updSched n (fun x => { x with st := .loaded, t0 := none }) with startCopies := s.startCopies.filter (fun c => c.sched != n) } [] []
    else badSched x)

/-- SCHED_DISARM. -/
def execSchedDisarm (m : Fin 1029) (s : State) : Host.Outcome State Fault Refusal := serve m cmdSchedDisarm s

/-- SCHED_ABORT. -/
def cmdSchedAbort : Cmd where
  op := 0x0405
  issuers := operatorTenant
  changes := always
  obj := schedObj
  before := schedFirst
  body := fun q s => onSched q s [] (fun n x => if x.st.live then .done (stopSched s n 1) [] [] else badSched x)

/-- SCHED_ABORT. -/
def execSchedAbort (m : Fin 1029) (s : State) : Host.Outcome State Fault Refusal := serve m cmdSchedAbort s

/-- SCHED_UNLOAD. -/
def cmdSchedUnload : Cmd where
  op := 0x0406
  issuers := operatorTenant
  changes := always
  obj := schedObj
  before := schedFirst
  body := fun q s => onSched q s [] (fun n x => if x.st.live then badSched x else .done (removeSched s n) [] [])

/-- SCHED_UNLOAD. -/
def execSchedUnload (m : Fin 1029) (s : State) : Host.Outcome State Fault Refusal := serve m cmdSchedUnload s

/-- SCHED_STATUS. -/
def cmdSchedStatus : Cmd where
  op := 0x0407
  issuers := operatorTenant
  blocked := neverBlocked
  query := true
  obj := schedObj
  before := schedFirst
  body := fun q s => onSched q s [] (fun _ x =>
    .done s (natLe x.st.code 1 ++ natLe (b2n x.admitted 0) 1 ++ natLe (imagePaddockMask x.image) 2 ++ natLe (x.t0.getD 0) 8 ++ natLe x.reason 1 ++ natLe x.paddock 1
      ++ natLe x.bundle 2 ++ natLe x.fault 1 ++ natLe 0 3 ++ natLe x.late 4) [])

/-- SCHED_STATUS. -/
def execSchedStatus (m : Fin 1029) (s : State) : Host.Outcome State Fault Refusal := serve m cmdSchedStatus s

/-! ### Start records (07 R179 to R181, R193) -/

/-- RELEASE_WAIT for a tag: that of a loaded schedule with it, else the longest that an image may name (07 R170). -/
def tagWait (s : State) (tag : BitVec 64) : Nat :=
  match s.scheds.find? (fun x => domainTag x.2.image == tag) with
  | some x => releaseWait x.2.image
  | none => msNs 60000

/-- READY_RECORD_EXPIRY. -/
def execReadyRecordExpiry (t : Nat) (tag : BitVec 64) (s : State) : Host.Outcome State Fault Refusal :=
  let old (s : State) (r : ReadyRec) : Bool := r.tag == tag && r.since + tagWait s tag ≤ s.now
  timed t s (fun s => s.clocked && s.readyHeld.any (old s))
    (fun s => (s.readyHeld.filter (old s)).foldl (fun s _ => dropRecord s) { s with readyHeld := s.readyHeld.filter (fun r => !old s r) })

/-- KIND, SENDER, DOMAIN_TAG of a start record. -/
def recKind (b : Bytes) : Nat := field b 0 1
/-- SENDER. -/
def recSender (b : Bytes) : Nat := field b 2 2
/-- DOMAIN_TAG. -/
def recTag (b : Bytes) : BitVec 64 := BitVec.ofNat 64 (field b 8 8)
/-- A payload is a start record (07 R193). -/
def recFormed (b : Bytes) : Bool := b.length == 32 && 1 ≤ recKind b && recKind b ≤ 3

/-- The schedule with a tag that meets a condition. -/
def schedByTag (s : State) (tag : BitVec 64) (want : Sched → Bool) : Option Nat := tfind s.scheds (fun _ x => domainTag x.image == tag && want x)

/-- An ARMED schedule that waits for its T0. -/
def Sched.waits (x : Sched) : Bool := x.st == .armed && x.t0.isNone

/-- A READY record is held by its tag and counted where a bellwether's schedule waits for it, which needs none of the 16 tags that
are held for schedules to come (07 R179). -/
def takeReady (s : State) (b : Bytes) (session : BitVec 32) : State :=
  let r : ReadyRec := { tag := recTag b, sender := recSender b, session := session, since := s.now }
  if (schedByTag s r.tag (fun x => x.st == .armed && x.ready.contains r.sender)).isSome then s
  else if s.readyHeld.any (fun h => h.tag == r.tag && h.sender == r.sender && h.session == r.session) then s
  else match schedByTag s r.tag (·.waits) with
    | some n => countReady (takeHeld { s with readyHeld := s.readyHeld ++ [r] } n) n
    | none =>
      if !s.readyHeld.any (fun h => h.tag == r.tag) && (s.readyHeld.map (·.tag)).dedup.length ≥ 16 then dropRecord s
      else { s with readyHeld := s.readyHeld ++ [r] }

/-- A row of start records (12 R276; 07 R193). -/
def onRecord (s : State) (q : Nat) (want : Bytes → Bool) (act : State → Bytes → BitVec 32 → State) : Host.Outcome State Fault Refusal :=
  onRequest s q (fun e => e.op == 0x31 && e.flag 9 && want e.payload) (fun s r => if schedFrameBad r.e then refuseEruno s r stBadArg else act s r.e.payload r.e.session)

/-- START_RECORD_READY; it also discards records that R193 gives no KIND. -/
def execStartRecordReady (q : Fin 64) (s : State) : Host.Outcome State Fault Refusal :=
  onRecord s q (fun b => !recFormed b || recKind b == 1) (fun s b i => if recFormed b then takeReady s b i else dropRecord s)

/-- A RELEASE record (07 R181). -/
def takeRelease (s : State) (b : Bytes) (session : BitVec 32) : State :=
  match schedByTag s (recTag b) (fun x => x.waits && bellwether x.image == recSender b && participantSession x.image (recSender b) == some session) with
  | none => dropRecord s
  | some n => if field b 16 8 < s.ct + usNs 2 then stopSched s n 7 else s.updSched n (fun x => { x with t0 := some (field b 16 8) })

/-- START_RECORD_RELEASE. -/
def execStartRecordRelease (q : Fin 64) (s : State) : Host.Outcome State Fault Refusal :=
  onRecord s q (fun b => recFormed b && recKind b == 2) takeRelease

/-- An ABORT record (07 R181). -/
def takeAbort (s : State) (b : Bytes) (_session : BitVec 32) : State :=
  let i := recSender b
  match schedByTag s (recTag b) (fun x => x.st.live && ((bellwether x.image != 0xFFFF && bellwether x.image == i) || (abortPropagate x.image && (participants x.image).any (fun e => e.1 == i)))) with
  | none => dropRecord s
  | some n => stopWith s n { reason := 5, status := stopStatus (field b 24 2), sender := i }

/-- START_RECORD_ABORT. -/
def execStartRecordAbort (q : Fin 64) (s : State) : Host.Outcome State Fault Refusal :=
  onRecord s q (fun b => recFormed b && recKind b == 3) takeAbort

end Sys2Proof.Machine
end

