-- ==== Sys2Proof/Machine/Clock.lean ====
section
/-!
DEFINITION. Cluster time's sources and discipline: the clock states, the servo, TIME_PPS_IN and TIME_PPS_OUT,
TIME_REF_IN, TIME_CONFIG and CLOCK_STATUS (07 R160 to R168, R200; 11 R271; 19 R433).
-/

namespace Sys2Proof.Machine

open Sys2Proof

/-! ### The counters (07 R160, R161) -/

/-- The nominal increment: 0.625 ns in 2^-32 ns. -/
def nominalInc : Nat := 2684354560

/-- The most that the increment departs from nominal at a SLEW_MAX in ppm (07 R161). -/
def slewSpan (ppm : Nat) : Nat := nominalInc * ppm / 1000000

/-- The increment at a departure from nominal, held within SLEW_MAX. -/
def clampInc (ppm : Nat) (d : Int) : Nat :=
  let m : Int := slewSpan ppm
  ((nominalInc : Int) + max (-m) (min m d)).toNat

/-- A counter less an offset in 2^-16 ns, its fraction included. -/
def stepFold (f : BitVec 64) (fraction : BitVec 32) (off : Int) : BitVec 64 :=
  BitVec.ofInt 64 (((f.toNat * 2 ^ 32 + fraction.toNat : Nat) - off * 2 ^ 16) / 2 ^ 32)

/-- A step: every counter takes `off`, in 2^-16 ns, less (07 R160). -/
def Clock.step (c : Clock) (off : Int) : Clock :=
  { c with fold0 := stepFold c.fold0 c.fraction off, fold1 := stepFold c.fold1 c.fraction off, fold2 := stepFold c.fold2 c.fraction off
           fold3 := stepFold c.fold3 c.fraction off, fraction := c.fraction - BitVec.ofInt 32 (off * 2 ^ 16) }

/-- A schedule on the part is ARMED or RUNNING. -/
def anyLive (s : State) : Bool := s.scheds.any (fun e => e.2.st.live)

/-! ### The clock states (07 R165) -/

/-- The sample interval in ns: the Sync interval with phase from PTP, 1 s with phase from TIME_PPS_IN. -/
def logNs (k : Int) : Nat := if k < 0 then secNs 1 / 2 ^ (-k).toNat else secNs (2 ^ k.toNat)

/-- The sample interval. -/
def sampleNs (c : TimeConfig) : Nat := if c.mode = 1 then logNs c.logSync else secNs 1

/-- The whole second of cluster time led by PPS_OUT_DELAY (07 R167). -/
def ppsWhole (s : State) : Nat := (s.ct + s.clock.config.ppsOutDelay) / 1000000000

/-- A step of cluster time: boundaries, shaper refills and edges of TIME_PPS_OUT are those that the new time comes to (02 R57;
07 R167; 13 R315; log entry 95). -/
def stepTime (s : State) (off : Int) : State :=
  let s := s.updClock (·.step off)
  let w := ppsWhole s
  let t := s.ct
  (s.updDev (fun d => { d with lastBoundary := t / d.acctPeriod * d.acctPeriod, lastRefill := t / 1000 * 1000 })).updClock (fun c => { c with ppsOutSecond := w })

/-- The clock enters a state other than FREE. -/
def enterClock (s : State) (st : ClockState) : State :=
  let w := ppsWhole s
  s.updClock (fun c => { c with st := st, since := s.now, good := 0, outliers := 0, errGrown := 0, errSince := s.now
                                ppsOutSecond := if c.st == .free then w else c.ppsOutSecond })

/-- Whether a schedule stops when the clock enters FREE (07 R182). -/
def stopsOnFree (x : Sched) : Bool :=
  (x.st == .armed && imageDevices x.image > 1) || (x.st == .running && abortOnTimeLoss x.image)

/-- The clock enters FREE: schedules stop with reason 0x08, and TIME_PPS_OUT is low (07 R165, R167, R182). -/
def enterFree (s : State) : State :=
  if s.clock.st = .free then s else
  let s := s.updClock (fun c => { c with st := .free, since := s.now, good := 0, outliers := 0, ppsOut := false })
  foldKeys (tkeys s.scheds (fun _ x => stopsOnFree x)) s (fun s n => stopSched s n 8)

/-- The port that time comes from: BACKUP_PORT once TIME_PORT has been lost. -/
def sourcePort (c : Clock) : Nat := if c.onBackup then c.config.backupPort.toNat else c.config.timePort.toNat

/-- The mode takes PTP from the source port. -/
def usesPtp (c : TimeConfig) : Bool := c.mode == 1 || c.mode == 3

/-- The mode takes its phase from TIME_PPS_IN. -/
def usesPps (c : TimeConfig) : Bool := c.mode == 2 || c.mode == 3

/-- The source is lost: no qualified sample for 4 intervals, its link down, or its Announce timed out (07 R165, R168). -/
def sourceLost (s : State) : State :=
  match s.clock.st with
  | .acquiring => enterFree s
  | .locked =>
    let s := enterClock s .holdover
    if usesPtp s.clock.config && !s.clock.onBackup && s.clock.config.backupPort != 0xFF then s.updClock (fun c => { c with onBackup := true, parent := 0 }) else s
  | _ => s

/-- The link of the source port is down (07 R165). -/
def sourceDown (s : State) : Bool := usesPtp s.clock.config && sourcePort s.clock < 64 && !(s.port (sourcePort s.clock)).carries

/-- A command that can take a port down, followed by what the clock does where that port was its source. -/
def watchSource (up : Bool) : Host.Outcome State Fault Refusal → Host.Outcome State Fault Refusal
  | .next s => .next (if up && sourceDown s then sourceLost s else s)
  | o => o

/-- The servo slews toward the source at SLEW_MAX: a counter ahead of it runs slow. -/
def slewFull (s : State) (off : Int) : State :=
  let p := s.clock.config.slewMax
  s.updClock (fun c => { c with increment := clampInc p (if off > 0 then -(slewSpan p : Int) else (slewSpan p : Int)) })

/-- The servo's correction, a free value within SLEW_MAX (07 R161, R165; log entry 33). -/
def servo (s : State) : State :=
  let s' := s.updClock (fun c => { c with increment := clampInc s.clock.config.slewMax (Config.servo s.free) })
  { s' with free := s.free + 1 }

/-- The magnitude of an offset is above 1 µs (07 R165). -/
def farOff (off : Int) : Bool := off.natAbs > 65536000

/-- A sample in ACQUIRING. -/
def acquire (s : State) (off : Int) (qualified good : Bool) : State :=
  let s := if farOff off then (if anyLive s then slewFull s off else stepTime s off)
    else if qualified then servo s else s
  let s := s.updClock (fun c => { c with good := if good then c.good + 1 else 0 })
  if s.clock.good ≥ 16 then enterClock s .locked else s

/-- A sample in LOCKED. -/
def track (s : State) (off : Int) (qualified : Bool) : State :=
  if farOff off || !qualified then
    let s := s.updClock (fun c => { c with outliers := c.outliers + 1 })
    if s.clock.outliers ≥ 4 then enterClock s .acquiring else s
  else (servo s).updClock (fun c => { c with outliers := 0 })

/-- An offset sample: how far the clock is ahead of its source, in 2^-16 ns (07 R164, R165). -/
def takeSample (s : State) (off : Int) : State :=
  let qualified : Bool := off.natAbs ≤ s.clock.config.outlier * 65536
  let good : Bool := qualified && off.natAbs ≤ s.clock.config.lockBound * 65536
  let s := s.updClock (fun c => { c with lastOffset := off, lastQualified := if qualified then s.now else c.lastQualified })
  match s.clock.st with
  | .free => enterClock s .acquiring
  | .acquiring => acquire s off qualified good
  | .locked => track s off qualified
  | .holdover => if qualified && !farOff off then enterClock s .locked else enterClock s .acquiring

/-- SAMPLE_TIMEOUT: no qualified sample for 4 intervals (07 R165). -/
def execSampleTimeout (t : Nat) (s : State) : Host.Outcome State Fault Refusal :=
  timed t s (fun s => s.clocked && s.clock.config.mode != 0
      && (max s.clock.lastQualified s.clock.since + 4 * sampleNs s.clock.config ≤ s.now || sourceDown s)) sourceLost

/-- The Announce interval, which spec/ does not give (log entry 34). -/
def announceNs : Nat := secNs 2

/-- ANNOUNCE_TIMEOUT: that many Announce intervals without Announce (07 R165, R168). -/
def execAnnounceTimeout (t : Nat) (s : State) : Host.Outcome State Fault Refusal :=
  timed t s (fun s => s.clocked && usesPtp s.clock.config
      && max s.clock.lastAnnounce s.clock.since + s.clock.config.announceTimeout * announceNs ≤ s.now) sourceLost

/-- How fast the error estimate grows in HOLDOVER, in ns per second (07 R165). -/
def errRate (c : Clock) : Nat := if c.refQualified then 10 else 200

/-- The error estimate of HOLDOVER in 10^-9 ns. -/
def errNow (s : State) : Nat := s.clock.errGrown + errRate s.clock * (s.now - s.clock.errSince)

/-- HOLDOVER_BOUND_EXCEEDED (07 R165). -/
def execHoldoverBoundExceeded (t : Nat) (s : State) : Host.Outcome State Fault Refusal :=
  timed t s (fun s => s.clocked && s.clock.st == .holdover && errNow s > s.clock.config.holdoverBound * 1000000000) enterFree

/-! ### TIME_REF_IN (19 R433) -/

/-- Qualification changes: what the error estimate has grown by so far is kept. -/
def setRef (s : State) (on : Bool) : State :=
  let e := errNow s
  s.updClock (fun c => { c with errGrown := e, errSince := s.now, refQualified := on })

/-- TIME_REF_IN_QUALIFIED: 16 s present while LOCKED (19 R433). -/
def execTimeRefInQualified (t : Nat) (s : State) : Host.Outcome State Fault Refusal :=
  timed t s (fun s => s.clocked && s.clock.st == .locked && s.clock.since + secNs 16 ≤ s.now && !s.clock.refQualified) (setRef · true)

/-- TIME_REF_IN_LOST (19 R433, R435). -/
def execTimeRefInLost (t : Nat) (s : State) : Host.Outcome State Fault Refusal :=
  timed t s (fun s => s.clocked && s.clock.refQualified) (setRef · false)

/-! ### TIME_PPS_IN and TIME_PPS_OUT (07 R162, R164, R167) -/

/-- A difference of times in 2^-16 ns, as a signed number whose ns have 64 bits. -/
def wrapNs (x : Int) : Int := (BitVec.ofInt 80 x).toInt

/-- The whole second nearest a time in 2^-16 ns. -/
def nearestSecond (x : Int) : Int := (x + ptpNs 500000000) / ptpNs 1000000000

/-- A rising edge of TIME_PPS_IN: a phase sample (07 R162 modes 2 and 3). -/
def ppsSample (s : State) : State :=
  let c := s.clock.config
  let local_ : Int := (s.stampOf 0 : Int) - ptpNs c.ppsInDelay + ptpNs c.domainOffset.toNat
  if c.mode = 2 then
    let sec := if s.clock.ppsSeen then s.clock.ppsSecond + 1 else c.secondsAtPps
    takeSample (s.updClock (fun c => { c with ppsSeen := true, ppsSecond := sec })) (wrapNs (local_ - ptpNs (sec * 1000000000)))
  else if c.mode = 3 then
    match s.clock.ptpOffset with
    | none => s
    | some p =>
      let off := wrapNs (local_ - ptpNs (nearestSecond (wrapNs (local_ - p)) * 1000000000))
      if (p - off).natAbs > 100000000 * 65536 then (if s.clock.st = .locked then sourceLost s else s) else takeSample s off
  else s

/-- TIME_PPS_IN_EDGE. -/
def execTimePpsInEdge (t : Nat) (s : State) : Host.Outcome State Fault Refusal :=
  timed t s (fun s => s.clocked && usesPps s.clock.config) ppsSample

/-- PPS_OUT_EDGE: a whole second of cluster time plus PPS_OUT_DELAY (07 R167). -/
def execPpsOutEdge (t : Nat) (s : State) : Host.Outcome State Fault Refusal :=
  timed t s (fun s => s.clocked && s.clock.st != .free && ppsWhole s != s.clock.ppsOutSecond)
    (fun s => s.updClock (fun c => { c with ppsOut := true, ppsOutSince := s.now, ppsOutSecond := ppsWhole s }))

/-- TIME_PPS_OUT_FALL: PPS_OUT_WIDTH after its rise (07 R167). -/
def execTimePpsOutFall (t : Nat) (s : State) : Host.Outcome State Fault Refusal :=
  ticking t s (fun s => s.clock.ppsOut && s.clock.ppsOutSince + s.clock.config.ppsOutWidth ≤ s.now)
    (fun s => s.updClock (fun c => { c with ppsOut := false }))

/-! ### Commands (07 R168, R200; 11 R271) -/

/-- The faulty byte of a TIME_CONFIG's extended arguments, if one is (07 R168; 11 R271). -/
def timeFault (b : Bytes) : Option Nat :=
  let port (o : Nat) : Bool := !(field b o 1 < 64 || field b o 1 = 0xFF)
  let within (o k lo hi : Nat) : Bool := !(lo ≤ field b o k && field b o k ≤ hi)
  let head : List (Nat × Bool) := [(0, field b 0 1 > 3), (1, port 1), (2, port 2), (3, field b 3 1 > 127), (4, field b 4 1 > 1), (5, field b 5 1 > 2)
    , (6, !(-7 ≤ sfield b 6 1 && sfield b 6 1 ≤ 1)), (7, !(-4 ≤ sfield b 7 1 && sfield b 7 1 ≤ 4)), (8, within 8 1 2 10)]
  let limits : List (Nat × Bool) := [(24, within 24 4 2 1000), (28, within 28 4 20 100000), (32, within 32 4 5 10000), (36, within 36 4 1 200)
    , (48, within 48 8 0 (2 ^ 34 - 1)), (60, within 60 4 1000 500000000)]
  let reserved : List (Nat × Bool) := (rangeFrom 9 7).map (fun i => (i, field b i 1 != 0))
  let asymmetry : List (Nat × Bool) := (List.range 64).map (fun i => (64 + 2 * i, field b (64 + 2 * i) 2 = 0x8000))
  let checks := head ++ reserved ++ limits ++ asymmetry
  (checks.filter (·.2)).head?.map (·.1)

/-- The configuration that a TIME_CONFIG carries (11 R271). -/
def timeConfigOf (b : Bytes) : TimeConfig :=
  { mode := field b 0 1, timePort := BitVec.ofNat 8 (field b 1 1), backupPort := BitVec.ofNat 8 (field b 2 1), ptpDomain := field b 3 1
    portConfig := field b 4 1, transport := field b 5 1, logSync := sfield b 6 1, logPdelay := sfield b 7 1, announceTimeout := field b 8 1
    transmitPorts := BitVec.ofNat 64 (field b 16 8), lockBound := field b 24 4, outlier := field b 28 4, holdoverBound := field b 32 4
    slewMax := field b 36 4, domainOffset := BitVec.ofNat 64 (field b 40 8), secondsAtPps := field b 48 8, ppsInDelay := field b 56 2
    ppsOutDelay := field b 58 2, ppsOutWidth := field b 60 4
    asymmetry := (List.range 64).filterMap (fun i => if sfield b (64 + 2 * i) 2 = 0 then none else some (i, sfield b (64 + 2 * i) 2)) }

/-- The time configuration takes effect, and the increment stays within the new SLEW_MAX; mode NONE makes the clock FREE at the nominal increment (07 R161, R162, R165, R168). -/
def setTimeConfig (s : State) (c : TimeConfig) : State :=
  let s := s.updClock (fun k => { k with config := c, onBackup := false, ppsSeen := false, ptpOffset := none, parent := 0
                                         increment := clampInc c.slewMax (k.increment - nominalInc) })
  let w := ppsWhole s
  let s := s.updClock (fun k => { k with ppsOutSecond := w })
  if c.mode = 0 then (enterFree s).updClock (fun k => { k with increment := nominalInc }) else s

/-- TIME_CONFIG (07 R168; 11 R269, R271). -/
def cmdTimeConfig : Cmd where
  op := 0x0505
  issuers := installerOnly
  changes := always
  body := fun q s => match q.firstBad [] [] with
    | some b => badAt b
    | none =>
      if q.xargLen != 192 then badSlot 6
      else match timeFault q.xarg with
        | some i => badX i
        | none => if anyLive s then busy else .done (setTimeConfig s (timeConfigOf q.xarg)) [] []

/-- TIME_CONFIG. -/
def execTimeConfig (m : Fin 1029) (s : State) : Host.Outcome State Fault Refusal := serve m cmdTimeConfig s

/-- The source that CLOCK_STATUS names (07 R200). -/
def clockSource (c : Clock) : Nat := if c.config.mode = 0 then 0 else if usesPps c.config then 3 else if c.onBackup then 2 else 1

/-- The error estimate of CLOCK_STATUS in ns: as R165 grows it in HOLDOVER, a free value elsewhere (log entry 33). -/
def errorEstimate (s : State) : Nat := if s.clock.st = .holdover then errNow s / 1000000000 else Config.clockError s.free

/-- CLOCK_STATUS (07 R200). -/
def cmdClockStatus : Cmd where
  op := 0x040E
  issuers := fun p => operatorInstaller p || tenantOnly p
  blocked := neverBlocked
  query := true
  body := fun q s => match q.firstBad [] [] with
    | some b => badAt b
    | none =>
      let c := s.clock
      .done { s with free := s.free + 1 }
        (natLe c.st.code 1 ++ natLe (clockSource c) 1 ++ natLe 0 2 ++ natLe (unsigned (c.lastOffset / 65536) 64) 8 ++ natLe (errorEstimate s) 4
          ++ natLe c.grandmaster.toNat 8 ++ natLe c.stepsRemoved 1 ++ natLe 0 3 ++ natLe ((s.now - c.since) / 1000000) 4) []

/-- CLOCK_STATUS. -/
def execClockStatus (m : Fin 1029) (s : State) : Host.Outcome State Fault Refusal := serve m cmdClockStatus s

/-! ### Rows that can take the source port's link down (07 R165) -/

/-- PORT_CONFIG. -/
def execPortConfig (m : Fin 1029) (s : State) : Host.Outcome State Fault Refusal := watchSource (!sourceDown s) (serve m cmdPortConfig s)

/-- QUAD_RESET. -/
def execQuadReset (m : Fin 1029) (s : State) : Host.Outcome State Fault Refusal := watchSource (!sourceDown s) (serve m cmdQuadReset s)

/-- LINK_LOSS_TIME_EXPIRY (11 R266; 07 R165). -/
def execLinkLossTimeExpiry (t : Nat) (q : Fin 65) (s : State) : Host.Outcome State Fault Refusal :=
  watchSource (!sourceDown s) (ticking t s (fun s => (s.port q).carries && (reached s (s.port q).lockLost || stalled s q))
    (fun s => portDown s q (if reached s (s.port q).lockLost then 3 else 4)))

end Sys2Proof.Machine
end

