-- ==== Sys2Proof/Machine/Movers.lean ====
section
/-!
DEFINITION. Movers: the requests of a descriptor, the line cache of a paddock as CACHED uses it, frames that movers send, and
a descriptor's completion (04 R87, R89 to R93, R448, R449; 14 R327, R337). The requests of a descriptor act when its
completion is commanded (log entry 4); one that waits for a home or a port acts at a later command.
-/

namespace Sys2Proof.Machine

open Sys2Proof

/-- Changes the descriptor that mover `mv` of paddock `p` executes. -/
def updHead (s : State) (p mv : Nat) (f : Desc → Desc) : State :=
  s.updEngine p (fun e => e.updMv mv (fun m => { m with queue := match m.queue with | d :: r => f d :: r | [] => [] }))

/-- The descriptor that a mover executes. -/
def headDesc (s : State) (p mv : Nat) : Option Desc := ((s.engine p).mv mv).queue.head?

/-- `n` bytes are dealt with, with a status (04 R92). -/
def Desc.past (d : Desc) (n status : Nat) : Desc := { d.meets status with done := d.done + n }

/-- A descriptor ends at once with a status. -/
def Desc.endWith (d : Desc) (status : Nat) : Desc := { d.meets status with phase := 4 }

/-- What a mover finds after a step: more to do, a wait, or the end. -/
inductive MoveGo where
  | more | wait | over
deriving DecidableEq, Repr

/-- A descriptor ends at its present row. -/
def stopAt (s : State) (p mv status : Nat) : State × MoveGo := (updHead s p mv (·.endWith status), .over)

/-! ### Delivery -/

/-- Bytes read for a descriptor reach the store or Prism's stream: failed lines leave the store's bytes unchanged, and a
failed request ends a Prism-bound descriptor with none of its bytes (04 R92, R449). -/
def deliverRead (s : State) (p mv : Nat) (d : Desc) (n : Nat) (g : Got) : State × MoveGo :=
  if d.kind = 3 then
    if g.status != stOk then stopAt s p mv g.status
    else (updHead (s.updEngine p (fun e => e.updMv mv (fun m => { m with stream := m.stream ++ g.bytes }))) p mv (·.past n stOk), .more)
  else
    (updHead (s.updEngine p (fun e => g.parts.foldl (fun e x => e.save (d.dstAt + x.1) x.2) e)) p mv (·.past n g.status), .more)

/-- The stack that a data address is placed on. -/
def stackAt (s : State) (a : Nat) : Nat := placed s (stripeOf a) (dataHome (stripeOf a) (unitOf a))

/-- Counts bytes that a mover read from a stack (18 R408 ENGINE 10, 11). -/
def countMoved (s : State) (p a n : Nat) : State := bump s .engine p (if stackAt s a = p then 10 else 11) n

/-- The address in data space of a request, where its check passes. -/
def EngReq.place (s : State) (r : EngReq) : Option Nat :=
  match segCheck s r.ctx r.va r.len r.need with
  | .ok ps _ _ => ps.head?.map (·.1)
  | .no _ => none

/-! ### Pool requests (04 R92) -/

/-- A descriptor's next request to the pool: within one row and one data unit. -/
def poolReq (s : State) (p mv : Nat) (d : Desc) (unit : Nat) : EngReq :=
  let va := if d.toPool then d.dstAt else d.srcAt
  let n := min d.left (unit - va % unit)
  { owner := .mover p mv, ctx := engineCtx s p, sched := (s.engine p).sched, va := va, len := n
    data := if d.toPool then some ((s.engine p).load d.srcAt n) else none, stash := if d.toPool && d.stash then some d.stashAgent else none }

/-- A request to the pool that goes through no line cache. -/
def poolStep (s : State) (p mv : Nat) (d : Desc) : State × MoveGo :=
  let r := poolReq s p mv d 4096
  let place := r.place s
  let s := startReq s r
  if r.waits s then (s, .wait) else
  let (g, s) := performReq s r
  let s := ncCollect s r.owner
  if d.toPool then (updHead s p mv (·.past r.len g.status), .more) else
  let s := match place with | some a => countMoved s p a g.bytes.length | none => s
  deliverRead s p mv d r.len g

/-! ### The line cache of a paddock (14 R327, R337) -/

/-- A descriptor's next access goes through the line cache: CACHED is set, the segment is coherent, and the paddock's cache
is registered. -/
def throughCache (s : State) (p : Nat) (d : Desc) : Bool :=
  d.cached && (d.fromPool || d.toPool) && (s.agent? (64 + p)).any (fun g => g.dead.isNone) && (s.engine p).partition != 0
    && (match segmentAt s (engineCtx s p) (if d.toPool then d.dstAt else d.srcAt) with | some (_, g) => g.coherent | none => false)

/-- Starts a fill of a line into a way, whose clean line is dropped. -/
def startFill (s : State) (p line way : Nat) (own : Bool) : State :=
  let k := wayKey (s.engine p) line way
  toHome (s.updEngine p (fun e => { e with ways := tput e.ways k { va := line, st := if own then .imD else .isD } })) p (if own then 0x11 else 0x10) 0 line way

/-- The ways of a line's set that hold a modified line. -/
def dirtyWays (e : Engine) (line : Nat) : List Nat :=
  (List.range cacheWays).filter (fun w => (tget? e.ways (wayKey e line w)).any (·.st == .m))

/-- Makes room for a line or starts its fill: a way that is free or clean takes it, else a modified line is written back; which
way of several is the part's choice. -/
def fillOrEvict (s : State) (p line : Nat) (own : Bool) : State :=
  let e := s.engine p
  match pick s.free (openWays e line) with
  | some w => startFill (drawn s) p line w own
  | none => match pick s.free (dirtyWays e line) with
    | some w =>
      let x := tgetD e.ways { va := 0, st := .m } (wayKey e line w)
      toHome (setWay (drawn s) p (wayKey e line w) (fun y => { y with st := .miA })) p 0x13 0 x.va w x.data
    | none => s

/-- A store of a descriptor's bytes into a way. -/
def cachedStore (s : State) (p mv : Nat) (r : EngReq) (k : Nat) (w : Way) : State × MoveGo :=
  match w.st with
  | .m | .e => (updHead (setWay s p k (fun w => { w with st := .m, data := putBytes (padTo w.data 128) (r.va % 128) (r.data.getD []) })) p mv (·.past r.len stOk), .more)
  | .s => (toHome (setWay s p k (fun w => { w with st := .smA })) p 0x12 0 w.va (k % 16), .wait)
  | _ => (s, .wait)

/-- A load from a way. -/
def cachedLoad (s : State) (p mv : Nat) (d : Desc) (r : EngReq) (w : Way) : State × MoveGo :=
  match w.st with
  | .s | .e | .m | .smA => deliverRead s p mv d r.len { status := stOk, parts := [(0, ((padTo w.data 128).drop (r.va % 128)).take r.len)] }
  | _ => (s, .wait)

/-- The home has refused a line to the cache: the status, once. -/
def takeRefused (s : State) (p line : Nat) : Option (Nat × State) :=
  ((s.engine p).refusedLines.find? (fun x => x.1 == line)).map
    (fun x => (x.2, s.updEngine p (fun e => { e with refusedLines := e.refusedLines.erase x })))

/-- An access of one line through the line cache. -/
def cachedStep (s : State) (p mv : Nat) (d : Desc) : State × MoveGo :=
  let r := poolReq s p mv d 128
  let fail (s : State) (st : Nat) : State × MoveGo :=
    if d.toPool then (updHead s p mv (·.past r.len st), .more) else deliverRead s p mv d r.len { status := st }
  match segCheck s r.ctx r.va r.len r.need with
  | .no st => fail (countRefusal s r.ctx st) st
  | .ok _ _ _ =>
    let line := r.va / 128 * 128
    match takeRefused s p line with
    | some (st, s) => fail s st
    | none => match wayOf (s.engine p) line with
      | some (k, w) => if d.toPool then cachedStore s p mv r k w else cachedLoad s p mv d r w
      | none => (fillOrEvict s p line d.toPool, .wait)

/-! ### Store to store and store to Prism (04 R87, R91) -/

/-- A row of kind 0x4 enters the stream. -/
def streamRow (s : State) (p mv : Nat) (d : Desc) : State × MoveGo :=
  let b := (s.engine p).load d.srcAt d.left
  (updHead (s.updEngine p (fun e => e.updMv mv (fun m => { m with stream := m.stream ++ b }))) p mv (·.past d.left stOk), .more)

/-- A store-to-store move into a paddock is allowed: its own, or one where a schedule of the same context is armed; and the
range lies outside that paddock's partition. -/
def neighbourOk (s : State) (p q a n : Nat) : Bool :=
  a + n ≤ (s.engine q).storeEnd &&
    (q == p || match (s.engine q).sched.bind s.sched? with | some x => x.st.live && x.ctx == engineCtx s p | none => false)

/-- A row of kind 0x5. -/
def neighbourRow (s : State) (p mv : Nat) (d : Desc) : State × MoveGo :=
  let n := d.left
  if neighbourOk s p d.tgtPaddock d.dstAt n then
    let b := (s.engine p).load d.srcAt n
    (updHead (bump (s.updEngine d.tgtPaddock (fun e => e.save d.dstAt b)) .engine p 12 n) p mv (·.past n stOk), .more)
  else (updHead s p mv (·.past n stDenied), .more)

/-! ### Frames that movers send (04 R91, R448) -/

/-- The session index of a descriptor. -/
def Desc.sess (d : Desc) : Nat := d.session.toNat % 65536
/-- A descriptor's session is OPEN under its generation. -/
def sessionLive (s : State) (d : Desc) : Bool := let x := s.session d.sess; x.st == .opened && x.gen.toNat == d.session.toNat / 65536

/-- Marks the last frame of class 5 queued on a port as a mover's. -/
def markFrame (s : State) (q p mv : Nat) : State :=
  s.updPort q (·.updCls 5 (fun c => { c with queue := c.queue.dropLast ++ (c.queue.getLast?.map (fun x => { x with mover := some (p, mv) })).toList }))

/-- Frames of a mover stand in a port's queue. -/
def framesQueued (s : State) (p mv : Nat) : Bool := s.ports.any (fun q => q.2.queued.any (fun x => x.mover == some (p, mv)))

/-- OPERAND of a SCHED_FRAME (12 R276). -/
def Desc.frameOperand (d : Desc) : Nat := d.dstAt % 2 ^ 24 + d.tgtPaddock * 2 ^ 24 + d.tgtSync * 2 ^ 32 + d.tgtSyncAdd * 2 ^ 48

/-- A row of kind 0x6 or 0x7: one frame, or the end of the descriptor at that row. A frame above MAX_FRAME answers BAD_ARG before
the port's link is judged (DESIGN CHOICE, log entry 103: 04 R448 orders no two of its cases). -/
def frameRow (s : State) (p mv : Nat) (d : Desc) : State × MoveGo :=
  let x := s.session d.sess
  if !sessionLive s d then stopAt s p mv stFault else
  match routeOf s x.peer with
  | none => stopAt s p mv stFault
  | some r =>
    let link := (s.port r.port).link
    if frameOverhead r x.priv + d.length > (s.port r.port).maxFrame then stopAt s p mv stBadArg
    else if !(link == .up || link == .reliable) then stopAt s p mv stFault
    else
      let b := (s.engine p).load d.srcAt d.length
      let (ok, s) := if d.kind = 6 then sendOneWay s d.sess 0x31 0x10 0 d.frameOperand b else sendOneWay s d.sess 0x30 0x10 0 0 b
      if !ok then stopAt s p mv stFault else
      let s := markFrame (bump s .engine p 13 d.length) r.port p mv
      let s := match (s.engine p).sched with | some n => if d.kind = 6 then bump s .schedule n 5 1 else s | none => s
      (updHead s p mv (·.past d.length stOk), .more)

/-! ### Host moves (04 R94, R95; 15 R356, R357) -/

/-- Entries of the translation cache. -/
def xcacheMax : Nat := 4096

/-- A translation covers a host address. -/
def XEntry.covers (x : XEntry) (a : Nat) : Bool := x.va ≤ a && a < x.va + 2 ^ x.log2

/-- The translation of a descriptor's present page, with the permission for its direction. -/
def lookup (s : State) (d : Desc) : Option XEntry :=
  s.xcache.find? (fun x => x.session == d.sess && x.gen.toNat == d.session.toNat / 65536 && x.covers d.hostAt && (if d.kind = 8 then x.canRead else x.canWrite))

/-- A running host move uses an entry. -/
def entryInUse (s : State) (x : XEntry) : Bool :=
  s.engines.any (fun e => e.2.movers.any (fun m => match m.2.queue with
    | d :: _ => d.kind ≥ 8 && lookup s d == some x
    | [] => false))

/-- Fills the cache; the entries stand in the order of their last use, and one that a running move uses stays (15 R356). -/
def fillCache (s : State) (x : XEntry) : State :=
  let l := s.xcache.filter (fun y => !(y.session == x.session && y.meets x.va (2 ^ x.log2)) || entryInUse s y)
  let l := if l.length < xcacheMax then l else match l.find? (fun y => !entryInUse s y) with | some y => l.erase y | none => l
  { s with xcache := l ++ [x] }

/-- An entry is used. -/
def touchEntry (s : State) (x : XEntry) : State := { s with xcache := s.xcache.erase x ++ [{ x with lastUse := s.now }] }

/-- The host page of an address: 4 KiB-aligned. -/
def hostPageOf (a : Nat) : Nat := a / 4096 * 4096

/-- A request of a host move is issued, or the descriptor ends with FAULT where it cannot be. -/
def hostIssue (s : State) (p mv phase : Nat) (kind : OutKind) (d : Desc) (op flags subop operand : Nat) (b : Bytes) : State :=
  match issueRequest s d.sess kind op flags subop operand b with
  | (true, s) => updHead s p mv (fun d => { d with phase := phase })
  | (false, s) => updHead (if d.phase = 5 then creditPause s p mv else s) p mv (·.endWith stFault)

/-- Payload bytes that a WRITE of the part on a session may carry. -/
def writeRoom (s : State) (i : Nat) : Nat :=
  match routeOf s (s.session i).peer with
  | some r => min 8192 (frameRoom s r (s.session i).priv)
  | none => 8192

/-- A READ or WRITE of a host move under a translation: within its row and its page, at most 8,192 bytes;
a WRITE, which is never segmented, carries what one frame does (12 R275). -/
def hostAccess (s : State) (p mv : Nat) (d : Desc) (x : XEntry) : State :=
  let n := min (min d.left (x.va + 2 ^ x.log2 - d.hostAt)) (if d.kind = 8 then 8192 else writeRoom s d.sess)
  let operand := (x.pa + (d.hostAt - x.va)) % 2 ^ 48 + n * 2 ^ 48
  let s := touchEntry s x
  if d.kind = 8 then hostIssue s p mv 3 (.hostRead p mv d.dstAt n x.va x.log2) d 0x01 0x80 0 operand []
  else hostIssue s p mv 3 (.hostWrite p mv n x.va x.log2) d 0x02 0x80 0 operand ((s.engine p).load d.srcAt n)

/-- The direction bit of TRANSLATE and PAGE_REQUEST. -/
def Desc.direction (d : Desc) : Nat := if d.kind = 8 then 1 else 2

/-- PAGE_REQUEST for the page of a host move (04 R94). -/
def askPage (s : State) (p mv : Nat) (d : Desc) : State :=
  let page := hostPageOf d.hostAt
  hostIssue s p mv 2 (.pageRequest p mv page) d 0x37 0 d.direction page []

/-- Looks the page of a host move up and issues its next request; `first` counts the lookup of a page boundary. A translation that is found
ends the faults in succession (15 R357). -/
def hostNext (s : State) (p mv : Nat) (first : Bool) : State :=
  match headDesc s p mv with
  | none => s
  | some d =>
    if d.kind < 8 || !(d.phase = 0 || d.phase = 5) || d.done ≥ d.total then s
    else if !sessionLive s d then updHead (if d.phase = 5 then creditPause s p mv else s) p mv (·.endWith stFault)
    else if !windowAllows s d.sess then s
    else if d.phase = 5 then askPage s p mv d
    else match lookup s d with
      | some x => hostAccess (updHead (if first && (d.off = 0 || d.hostAt = x.va) then bump s .device 0 6 1 else s) p mv (fun d => { d with faults := 0 })) p mv d x
      | none =>
        let s := bump (bump s .device 0 7 1) .engine p 15 1
        let page := hostPageOf d.hostAt
        hostIssue s p mv 1 (.translate p mv page (d.kind != 8)) d 0x35 0 d.direction page []

/-! ### A descriptor's run -/

/-- One step of a descriptor in execution. -/
def moveStep (s : State) (p mv : Nat) (d : Desc) : State × MoveGo :=
  match d.kind with
  | 1 | 2 | 3 => if throughCache s p d then cachedStep s p mv d else poolStep s p mv d
  | 4 => streamRow s p mv d
  | 5 => neighbourRow s p mv d
  | 6 | 7 => frameRow s p mv d
  | _ => (hostNext s p mv true, .wait)

/-- Steps of a mover up to a wait or the end of its descriptor; `n` bounds them. True at the end: every byte is dealt with
and no frame of it waits in a port. -/
def moveRun : Nat → State → Nat → Nat → Bool × State
  | 0, s, _, _ => (false, s)
  | n + 1, s, p, mv =>
    match headDesc s p mv with
    | none => (false, s)
    | some d =>
      if d.phase = 4 || d.done ≥ d.total then (!framesQueued s p mv, s) else
      match moveStep s p mv d with
      | (s, .more) => moveRun n s p mv
      | (s, .wait) => (false, s)
      | (s, .over) => moveRun n s p mv

/-- A failed descriptor's fault: PASS_STREAM where it ends a pass, else MOVER_ERROR where ON_ERROR is 0 (04 R93, R449). -/
def descFault (s : State) (p mv : Nat) (d : Desc) : State :=
  let pc := (s.engine p).pc
  let (ends, s) : Bool × State :=
    if d.kind = 3 || d.kind = 4 then let (x, e) := streamFails (s.engine p) mv d.failed; (x, s.updEngine p (fun _ => e)) else (false, s)
  if ends then engineFault s p flStream pc d.failed
  else if !d.onError then engineFault s p flMover pc d.failed
  else s

/-- A descriptor completes (04 R93). -/
def finishDesc (s : State) (p mv : Nat) (d : Desc) : State :=
  let s := s.updEngine p (fun e => e.updMv mv (fun m => { m with done := m.done + 1, status := BitVec.ofNat 16 d.failed }))
  let s := if d.step = 0xFFFF then s else stepDescDone s p d.step d.occurrence
  let s := if d.failed = 0 then (if d.signal then syncSignal s d.sync d.syncAdd else s) else descFault s p mv d
  s.updEngine p (fun e => e.updMv mv (fun m => { m with queue := m.queue.drop 1 }))

/-- The steps that a descriptor can take. -/
def Desc.bound (d : Desc) : Nat := d.rows * (d.length / 128 + 3) + 2

/-- The descriptor that a mover executes goes on, and completes where nothing of it is left. -/
def moverGoes (s : State) (p mv : Nat) : State :=
  match headDesc s p mv with
  | none => s
  | some d => match moveRun d.bound s p mv with
    | (true, s) => match headDesc s p mv with
      | some d => finishDesc s p mv d
      | none => s
    | (false, s) => s

/-- MOVER_DESCRIPTOR_COMPLETE. -/
def execMoverDescriptorComplete (t : Nat) (p : Fin 16) (mv : Fin 4) (s : State) : Host.Outcome State Fault Refusal :=
  timed t s (fun s => s.clocked && (headDesc s p mv).isSome) (fun s => moverGoes s p mv)

end Sys2Proof.Machine
end

