-- ==== Sys2Proof/Machine/Tenancy.lean ====
section
/-!
DEFINITION. Contexts, leases, extents, revocation and clearing (15 R345 to R355, R361, R362).
-/

namespace Sys2Proof.Machine

open Sys2Proof

/-- The code of a context state (15 R345). -/
def CtxState.code : CtxState → Nat
  | .none => 1 | .active => 2 | .lapsed => 3 | .ending => 4

/-- The code of an extent state (15 R348). -/
def ExtentState.code : ExtentState → Nat
  | .free => 1 | .granted => 2 | .revoking => 3 | .fenced => 4 | .clearing => 5

/-- BAD_STATE of a context. -/
def badCtx (s : State) (c : Nat) : Reply := badState 1 (s.ctx c).st.code

/-- Extents of a context in given states. -/
def extentsOf (s : State) (c : Nat) (p : ExtentState → Bool) : List Nat := tkeys s.extents (fun _ x => x.owner == c && p x.st)

/-- GRANTED, or REVOKING, which stays GRANTED in effect. -/
def heldState (x : ExtentState) : Bool := x == .granted || x == .revoking

/-- The extents a context holds. -/
def heldExtents (s : State) (c : Nat) : List Nat := extentsOf s c heldState

/-- Takes GRANTED extents to REVOKING and stages their fences for one boundary (15 R350, R351): causes 1 EXTENT_REVOKE,
2 lease expired, 3 context ended. -/
def revokeExtents (s : State) (es : List Nat) (cause : Nat) : State :=
  if es.isEmpty then s else
  let s := foldKeys es s (fun s e => s.updExtent e (fun x => { x with st := .revoking, cause := cause, changed := s.ct }))
  stageAll s (es.map .fence) none

/-- ms until a context's lease expires. -/
def leaseLeft (s : State) (c : Nat) : Nat :=
  let x := s.ctx c
  if x.st == .active then (x.leaseStart + msNs x.leaseMs - s.now) / msNs 1 else 0

/-- A context's lease restarts (15 R350). -/
def restartLease (s : State) (c : Nat) : State := s.updCtx c (fun x => { x with leaseStart := s.now, warned := false, st := .active })

/-- A staged change that an ending context discards: one it staged itself, or one of its segments or its meters. -/
def Staged.endsWith (x : Staged) (c : Nat) : Bool :=
  x.owes.any (fun p => p.mailbox == ctxMailbox c) || (match x.change with
    | .segment c' _ _ => c' == c
    | .meter false id _ _ => id == c
    | _ => false)

/-- The commands that end with a context: those pending on its mailbox, and those whose staged changes are discarded; one whose
COMPLETION is only held for room has ended already. -/
def endedWith (s : State) (c : Nat) : List Pending :=
  let owed := (s.staged.filter (·.endsWith c)).filterMap (·.owes)
  s.pendings.filter (fun p => (p.mailbox == ctxMailbox c || owed.contains p) && !isHeld s p)

/-- The commands that end with a context complete with LEASE_EXPIRED, as its schedules' stops do (log entry 83). -/
def endCommands (s : State) (c : Nat) : State := (endedWith s c).foldl (fun s p => finish s p stLease s.ct) s

/-- The loads of an ending context are given up; what the homes still serve of them is dropped as it comes. -/
def dropLoads (s : State) (c : Nat) : State :=
  let mine (r : NcReq) : Bool := r.ctx == c && (match r.owner with | .load _ => true | _ => false)
  { s with loads := s.loads.filter (fun x => x.ctx != c)
           ncReqs := (s.ncReqs.filter (fun r => !(mine r && r.lines.isEmpty))).map (fun r => if mine r then { r with owner := .mover 16 0 } else r) }

/-- A staged COUNTER_ENABLE of a group that names contexts leaves out one that ends (15 R347). -/
def Staged.without (x : Staged) (c : Nat) : Staged :=
  match x.change with
  | .counters g first n on but => if 5 ≤ g then { x with change := .counters g first n on (c :: but) } else x
  | _ => x

/-- A staged change as it was staged. -/
def Staged.bare (x : Staged) : Staged :=
  match x.change with
  | .counters g first n on _ => { x with change := .counters g first n on }
  | _ => x

/-- Steps 2 to 5 of an ending (15 R347). -/
def endingSteps (s : State) (c : Nat) : State :=
  let s := foldKeys (tkeys s.scheds (fun _ x => x.ctx == c)) s (fun s n => removeSched (stopSched s n 9) n)
  let s := foldKeys (tkeys s.sessions (fun _ x => x.ctx == some c)) s unassignSession
  let s := foldKeys (tkeys s.qps (fun _ x => x.ctx == some c)) s releaseQp
  let s := dropLoads (endCommands s c) c
  let s := { s with sync := tmap s.sync (fun _ x => if x.owner == some c then { x with owner := none } else x), seqs := tfilter s.seqs (fun _ x => x.owner != some c)
                    meters := tfilter s.meters (fun k _ => k / 2 != c)
                    xcache := s.xcache.filter (fun x => x.ctx != c)
                    drains := s.drains.filter (fun x => x.flushCtx != some c)
                    staged := (s.staged.filter (fun x : Staged => !x.endsWith c)).map (fun x : Staged => x.without c)
                    streams := tmap s.streams (fun _ x => if x.source = c && x.st == StreamState.running then { x with st := .stopped } else x)
                    counters := [Group.context, .schedule, .session].foldl (fun t (g : Group) => tdel t (g.ctxKey c)) (tdel s.counters (Group.context.key c)) }
  s.updCtx c (fun x => { x with ending := 6, agentLimit := 0, segs := [] })

/-- The COMPLETION of a CONTEXT_DESTROY. -/
def finishDestroy (s : State) (c : Nat) : State :=
  match pendingOf s (fun p => p.opcode == 0x0202 && p.objId == c) with
  | some p => finish s p stOk s.ct
  | none => s

/-- An ending context goes on where its present step has finished (15 R347). -/
def endingProgress (s : State) (c : Nat) : State :=
  let s := if (s.ctx c).ending = 1 && (heldExtents s c).isEmpty then endingSteps s c else s
  if (s.ctx c).ending = 6 && (extentsOf s c (· != .free)).isEmpty then
    finishDestroy { s with ctxs := tdel s.ctxs c, pendings := s.pendings.filter (fun p => p.mailbox != ctxMailbox c) } c
  else s

/-- A context enters ENDING: step 1 of 15 R347. -/
def beginEnding (s : State) (c : Nat) : State :=
  let s := s.updCtx c (fun x => { x with st := .ending, ending := 1 })
  let s := revokeExtents s (extentsOf s c (· == .granted)) 3
  foldKeys (tkeys s.agents (fun a x => x.ctx == c && a < 64)) s (fun s a => declareDead s a 4)

/-- A context's lease has run out and its expiry is still to be taken up. -/
def leaseOver (s : State) (c : Nat) : Bool := (s.ctx c).st == .active && s.now ≥ (s.ctx c).leaseStart + msNs (s.ctx c).leaseMs

/-- A lease expires (15 R345, R350). -/
def lapse (s : State) (c : Nat) : State :=
  let es := extentsOf s c (· == .granted)
  let s := revokeExtents (s.updCtx c (fun x => { x with st := .lapsed })) es 2
  let d := natLe es.length 2 ++ natLe s.aon.bootEpoch.toNat 4
  postCtx (postEvent s 0 3 0x01 c d stLease) c 3 0x01 c d stLease

/-- An expiry that is due is taken up before a command that bears on the context (02 R53). -/
def settleLease (s : State) (c : Nat) : State := if leaseOver s c then lapse s c else s

/-- The context that a command bears on: a tenant's own, or the field. -/
def leaseFirst (q : Req) (s : State) : State := settleLease s (if q.m ≥ 5 then q.m - 5 else q.arg 20 2)

/-- The page of a context made anew: its rings are empty and its indices 0; what counts from reset on stays (15 R346; log entry 72). -/
def Page.renewed (p : Page) : Page :=
  { badDoorbell := p.badDoorbell, evqOverflow := p.evqOverflow, evqEnable := p.evqEnable, badDoorbellCnt := p.badDoorbellCnt, evqLostCnt := p.evqLostCnt
    lockedCnt := p.lockedCnt }

/-- CONTEXT_CREATE (15 R345, R346, R361). -/
def cmdContextCreate : Cmd where
  op := 0x0201
  issuers := operatorOnly
  changes := always
  obj := fun q => (0x01, q.arg 20 2)
  body := fun q s =>
    let c := q.arg 20 2
    let ms := q.arg 22 4
    match q.firstBad [(20, 12)] [(20, c > 1023), (22, !(ms = 0 || (100 ≤ ms && ms ≤ 60000))), (26, q.arg 26 4 > 65536), (30, q.arg 30 2 > s.tenantExtents)] with
    | some b => badAt b
    | none =>
      if (s.ctx c).st != .none then badCtx s c else
      let x : Ctx := { st := .active, leaseMs := if ms = 0 then 2000 else ms, leaseStart := s.now, syncLimit := q.arg 26 4, extentLimit := q.arg 30 2 }
      let s := { s with ctxs := tput s.ctxs c x }.updPage (ctxMailbox c) (·.renewed)
      .done (zeroBlock s .context c c) [] []

/-- CONTEXT_CREATE. -/
def execContextCreate (m : Fin 1029) (s : State) : Host.Outcome State Fault Refusal := serve m cmdContextCreate s

/-- CONTEXT_DESTROY (15 R345, R347). -/
def cmdContextDestroy : Cmd where
  op := 0x0202
  issuers := operatorOnly
  changes := always
  obj := fun q => (0x01, q.arg 20 2)
  before := leaseFirst
  body := fun q s =>
    let c := q.arg 20 2
    match q.firstBad [(20, 2)] [(20, c > 1023)] with
    | some b => badAt b
    | none => match (s.ctx c).st with
      | .active | .lapsed => .pend (beginEnding s c) []
      | _ => badCtx s c
  after := fun q s => endingProgress s (q.arg 20 2)

/-- CONTEXT_DESTROY. -/
def execContextDestroy (m : Fin 1029) (s : State) : Host.Outcome State Fault Refusal := serve m cmdContextDestroy s

/-- The context that a command names: the mailbox's own for a tenant, the field for the operator (15 R361). -/
def namedCtx (q : Req) : Nat := match q.party with | .tenant c => c | _ => q.arg 20 2

/-- The context field of a request is out of range; a tenant's is ignored. -/
def badCtxField (q : Req) : Bool := !tenantOnly q.party && q.arg 20 2 > 1023

/-- CONTEXT_STATUS (15 R361). -/
def cmdContextStatus : Cmd where
  op := 0x0203
  issuers := operatorTenant
  obj := fun q => (0x01, namedCtx q)
  blocked := neverBlocked
  query := true
  before := leaseFirst
  body := fun q s =>
    let c := namedCtx q
    match q.firstBad [(20, 2)] [(20, badCtxField q)] with
    | some b => badAt b
    | none => .done s (natLe (s.ctx c).st.code 1 ++ natLe 0 1 ++ natLe (heldExtents s c).length 2 ++ natLe (s.ctx c).leaseMs 4 ++ natLe (leaseLeft s c) 4
        ++ natLe s.aon.bootEpoch.toNat 4) []

/-- CONTEXT_STATUS. -/
def execContextStatus (m : Fin 1029) (s : State) : Host.Outcome State Fault Refusal := serve m cmdContextStatus s

/-- LEASE_SET (15 R345, R350). -/
def cmdLeaseSet : Cmd where
  op := 0x0204
  issuers := operatorOnly
  changes := always
  obj := fun q => (0x01, q.arg 20 2)
  before := leaseFirst
  body := fun q s =>
    let c := q.arg 20 2
    let ms := q.arg 22 4
    match q.firstBad [(20, 6)] [(20, c > 1023), (22, !(100 ≤ ms && ms ≤ 60000))] with
    | some b => badAt b
    | none => match (s.ctx c).st with
      | .active | .lapsed => .done (restartLease (s.updCtx c (fun x => { x with leaseMs := ms })) c) [] []
      | _ => badCtx s c

/-- LEASE_SET. -/
def execLeaseSet (m : Fin 1029) (s : State) : Host.Outcome State Fault Refusal := serve m cmdLeaseSet s

/-- LEASE_RENEW (15 R345, R350). -/
def cmdLeaseRenew : Cmd where
  op := 0x0205
  issuers := operatorTenant
  changes := always
  obj := fun q => (0x01, namedCtx q)
  before := leaseFirst
  body := fun q s =>
    let c := namedCtx q
    match q.firstBad [(20, 2), (24, 4)] [(20, badCtxField q)] with
    | some b => badAt b
    | none => match (s.ctx c).st with
      | .active =>
        if q.arg 24 4 = s.aon.bootEpoch.toNat then .done (restartLease s c) (natLe (s.ctx c).leaseMs 4) [] else .fail stLease 0
      | .lapsed => .fail stLease 0
      | _ => badCtx s c

/-- LEASE_RENEW. -/
def execLeaseRenew (m : Fin 1029) (s : State) : Host.Outcome State Fault Refusal := serve m cmdLeaseRenew s

/-- LIMITS_SET (15 R361). -/
def cmdLimitsSet : Cmd where
  op := 0x0207
  issuers := operatorOnly
  changes := always
  obj := fun q => (0x01, q.arg 20 2)
  body := fun q s =>
    let c := q.arg 20 2
    match q.firstBad [(20, 2), (26, 6)] [(20, c > 1023), (26, q.arg 26 4 > 65536), (30, q.arg 30 2 > s.tenantExtents)] with
    | some b => badAt b
    | none =>
      if (s.ctx c).st == .none then badCtx s c
      else .done (s.updCtx c (fun x => { x with syncLimit := q.arg 26 4, extentLimit := q.arg 30 2 })) [] []

/-- LIMITS_SET. -/
def execLimitsSet (m : Fin 1029) (s : State) : Host.Outcome State Fault Refusal := serve m cmdLimitsSet s

/-- LEASE_WARNING_TIMER (15 R350). -/
def execLeaseWarningTimer (t : Nat) (c : Fin 1024) (s : State) : Host.Outcome State Fault Refusal :=
  ticking t s (fun s => let x := s.ctx c; x.st == .active && !x.warned && s.now * 4 ≥ x.leaseStart * 4 + msNs x.leaseMs * 3 && s.now < x.leaseStart + msNs x.leaseMs)
    (fun s =>
      let d := natLe (leaseLeft s c) 4
      postCtx (postEvent (s.updCtx c (fun x => { x with warned := true })) 0 2 0x01 c d) c 2 0x01 c d)

/-- LEASE_EXPIRY (15 R345, R350). -/
def execLeaseExpiry (t : Nat) (c : Fin 1024) (s : State) : Host.Outcome State Fault Refusal :=
  ticking t s (leaseOver · c) (lapse · c)

/-! ### Extents -/

/-- The first extent and the count of EXTENT_GRANT and EXTENT_REVOKE, which keep each other out while one of their extents is of
a pending EXTENT_REVOKE (02 R38; log entry 93). -/
def extentLock (q : Req) : Option (Nat × Nat) := some (2, q.arg 22 2)

/-- The contexts that hold extents of a range, whose leases are settled first (02 R53). -/
def holdersFirst (n : Req → Nat) (q : Req) (s : State) : State :=
  foldKeys (((rangeFrom (q.arg 22 2) (n q)).filter (fun e => (s.extent e).st == .granted)).map (fun e => (s.extent e).owner)).dedup s settleLease

/-- EXTENT_GRANT (15 R349, R362). -/
def cmdExtentGrant : Cmd where
  op := 0x0310
  issuers := operatorOnly
  changes := always
  lock := extentLock
  span := fun q => q.arg 24 2
  before := leaseFirst
  body := fun q s =>
    let c := q.arg 20 2
    let first := q.arg 22 2
    let n := q.arg 24 2
    match q.firstBad [(20, 6)] [(20, c > 1023), (22, first ≥ s.tenantExtents), (24, !(1 ≤ n && n ≤ 256) || first + n > s.tenantExtents)] with
    | some b => badAt b
    | none =>
      if (s.ctx c).st != .active then badCtx s c else
      let es := rangeFrom first n
      match es.find? (fun e => (s.extent e).st != .free) with
      | some e => badState 2 (s.extent e).st.code
      | none =>
        if (heldExtents s c).length + n > (s.ctx c).extentLimit then noResource else
        let gens := es.flatMap (fun e => natLe (s.extent e).gen.toNat 1)
        .done (foldKeys es s (fun s e => s.updExtent e (fun x => { x with st := .granted, owner := c, changed := s.ct }))) [] gens

/-- EXTENT_GRANT. -/
def execExtentGrant (m : Fin 1029) (s : State) : Host.Outcome State Fault Refusal := serve m cmdExtentGrant s

/-- EXTENT_REVOKE (15 R351, R362). -/
def cmdExtentRevoke : Cmd where
  op := 0x0311
  issuers := operatorOnly
  changes := always
  obj := fun q => (0x02, q.arg 22 2)
  span := fun q => q.arg 24 2
  before := holdersFirst (fun q => q.arg 24 2)
  body := fun q s =>
    let first := q.arg 22 2
    let n := q.arg 24 2
    match q.firstBad [(22, 4)] [(22, first ≥ s.tenantExtents), (24, !(1 ≤ n && n ≤ 256) || first + n > s.tenantExtents)] with
    | some b => badAt b
    | none =>
      let es := rangeFrom first n
      if es.any (fun e => (s.extent e).st != .free && (s.extent e).st != .granted) then busy
      else match es.find? (fun e => (s.extent e).st == .free) with
        | some e => badState 2 (s.extent e).st.code
        | none => .pend { revokeExtents s es 1 with revocations := s.revocations ++ [{ first := first, count := n }] } []

/-- EXTENT_REVOKE. -/
def execExtentRevoke (m : Fin 1029) (s : State) : Host.Outcome State Fault Refusal := serve m cmdExtentRevoke s

/-- EXTENT_STATUS (15 R362). -/
def cmdExtentStatus : Cmd where
  op := 0x0312
  issuers := operatorTenant
  blocked := neverBlocked
  query := true
  before := holdersFirst (fun _ => 1)
  body := fun q s =>
    let e := q.arg 22 2
    match q.firstBad [(22, 2)] [(22, e ≥ s.tenantExtents)] with
    | some b => badAt b
    | none =>
      let x := s.extent e
      if tenantOnly q.party && !(x.st != .free && x.owner == q.tenant) then denied
      else .done s (natLe x.st.code 1 ++ natLe x.gen.toNat 1 ++ natLe (if x.st == .free then 0xFFFF else x.owner) 2 ++ natLe x.changed 8) []

/-- EXTENT_STATUS. -/
def execExtentStatus (m : Fin 1029) (s : State) : Host.Outcome State Fault Refusal := serve m cmdExtentStatus s

/-- EXTENT_LIST (15 R362). -/
def cmdExtentList : Cmd where
  op := 0x0313
  issuers := operatorTenant
  blocked := neverBlocked
  query := true
  body := fun q s =>
    match q.firstBad [(20, 2)] [(20, badCtxField q)] with
    | some b => badAt b
    | none =>
      let es := (extentsOf s (namedCtx q) (· != .free)).take (q.room / 4)
      .done s (natLe es.length 4) (es.flatMap (fun e => natLe e 2 ++ natLe (s.extent e).gen.toNat 1 ++ natLe (s.extent e).st.code 1))

/-- EXTENT_LIST. -/
def execExtentList (m : Fin 1029) (s : State) : Host.Outcome State Fault Refusal := serve m cmdExtentList s

/-- Segment entries that name an extent become void, in every context (03 R74; 15 R351). -/
def voidEntries (s : State) (e : Nat) : State :=
  let void (g : Segment) : Segment := { g with list := g.list.map (fun x => if x.extent == e then { x with void := true } else x) }
  { s with ctxs := tmap s.ctxs (fun _ c => { c with segs := tmap c.segs (fun _ g => void g) }) }

/-- A paddock's cache drops the lines of an extent that its context has lost; one that awaits an UPGRADE then awaits data
(14 R337, R338). -/
def dropWays (s : State) (e : Nat) : State :=
  let drop (w : Way) : Bool := (w.st == .s || w.st == .e || w.st == .m) && w.extent == some e
  let turn (w : Way) : Way := if w.st == .smA && w.extent == some e then { w with st := .imD } else w
  { s with engines := tmap s.engines (fun _ g => { g with ways := tmap (tfilter g.ways (fun _ w => !drop w)) (fun _ w => turn w) }) }

/-- The commit boundary of a revocation (15 R351, R353). -/
def commitFence (s : State) (e at_ : Nat) : State :=
  let x := s.extent e
  if x.st != .revoking then s else
  let s := endSnoops (dropExtentLines (dropWays s e) x.owner e) e
  let s := s.updExtent e (fun x => { x with st := .fenced, gen := x.gen + 1, changed := at_, fencedAt := s.now })
  let s := voidEntries s e
  let d := natLe x.owner 2 ++ natLe x.gen.toNat 1 ++ natLe x.cause 1
  endingProgress (postCtx (postEvent s 0 4 0x02 e d stRevoked) x.owner 4 0x02 e d stRevoked) x.owner

/-- A data address lies in an extent. -/
def inExtent (e a : Nat) : Bool := a / 2 ^ 30 == e

/-- A line lies in an extent. -/
def lineIn (e line : Nat) : Bool := inExtent e (line * 128)

/-- The extent's in-flight requests have been served (01 R21; 15 R351): none waits at the home, and no transaction waits for
snoops or memory. -/
def drained (s : State) (e : Nat) : Bool :=
  !s.cohQueue.any (fun r => lineIn e r.line) && !s.txns.any (fun x => x.phase == .snp && lineIn e x.line)

/-- FENCE_DRAINED (15 R348, R351). -/
def execFenceDrained (t : Nat) (e : Nat) (s : State) : Host.Outcome State Fault Refusal :=
  ticking t s (fun s => (s.extent e).st == .fenced && drained s e) (fun s => s.updExtent e (fun x => { x with st := .clearing, changed := s.ct }))

/-- The non-caching request that a transaction serves. -/
def Txn.nc (t : Txn) : Option Nat := match t.kind with | .read id | .write id => some id | _ => none

/-- A transaction on an extent's line that waits for snoops: its home stack controller has not seen it. -/
def snoopWaits (e : Nat) (t : Txn) : Bool := t.phase == .snp && !t.awaited.isEmpty && lineIn e t.line

/-- The requests on an extent that its home stack controllers have not accepted: agent and non-caching request of each. -/
def unaccepted (s : State) (e : Nat) : List (Nat × Option Nat) :=
  (s.cohQueue.filter (fun r => lineIn e r.line)).map (fun r => (r.agent, r.nc)) ++ (s.txns.filter (snoopWaits e)).map (fun t => (t.agent, t.nc))

/-- The paddock whose engine or line cache made a request. -/
def paddockOf (s : State) (r : Nat × Option Nat) : Option Nat :=
  if 64 ≤ r.1 && r.1 < 80 then some (r.1 - 64) else
  match r.2.bind (fun id => s.ncReqs.find? (fun x => x.id == id)) with
  | some x => (match x.owner with | .mover p _ | .lens p => if p < 16 then some p else none | _ => none)
  | none => none

/-- Discards what waits on an extent: queued requests, transactions that wait for snoops, and what remains unopened of the
non-caching requests in `ids`, whose answers are dropped. -/
def discardWaiting (s : State) (e : Nat) (ids : List Nat) : State :=
  let s := (s.txns.filter (snoopWaits e)).foldl (fun s t => t.awaited.foldl (fun s a => forgetAgent s a (some t.line)) s) s
  let txns := s.txns.filter (fun t => !snoopWaits e t)
  let cut (r : NcReq) : NcReq := if ids.contains r.id then { r with owner := .mover 16 0, lines := r.lines.filter (fun l => txns.any (fun t => t.line == l && t.nc == some r.id)) } else r
  { s with txns := txns, cohQueue := s.cohQueue.filter (fun r => !(lineIn e r.line || r.nc.any ids.contains))
           ncReqs := (s.ncReqs.map cut).filter (fun r => !(ids.contains r.id && r.lines.isEmpty)) }

/-- Requests on an extent that its home has not accepted at 1 ms: an engine's or a line cache's resets the engine; others
are discarded (15 R352). -/
def settleFence (s : State) (e : Nat) : State :=
  let us := unaccepted s e
  let s := foldKeys (us.filterMap (paddockOf s)).dedup s (fun s p => beginEngineReset s p 2 e 0xFF)
  serveQueued (discardWaiting s e (us.filterMap (·.2)))

/-- The fence after its 1 ms: CLEARING, or FENCED still while an accepted request completes (15 R352). -/
def settledFence (s : State) (e : Nat) : State :=
  if drained s e then s.updExtent e (fun x => { x with st := .clearing, changed := s.ct }) else s

/-- FENCE_DRAIN_TIMEOUT (15 R352). -/
def execFenceDrainTimeout (t : Nat) (e : Nat) (s : State) : Host.Outcome State Fault Refusal :=
  ticking t s (fun s => (s.extent e).st == .fenced && s.now ≥ (s.extent e).fencedAt + msNs 1) (fun s => settledFence (settleFence s e) e)

/-- A stored byte of a stripe in [a, b) that a full-stripe write of zeros covers: data and parity that stand there, and
rebuilt data on a spare. -/
def coveredByZeros (s : State) (a b key : Nat) : Bool :=
  let t := key / 2 ^ 40
  let st := key % 2 ^ 40 / 4096
  a ≤ st && st < b && stackServes s t && (t != spareStack st || (s.layout.f.isSome && st < s.layout.w))

/-- Stripes below `x` whose spare is stack `t`. -/
def sparesBelow (t x : Nat) : Nat := (x + 15 - (t + 15) % 16) / 16

/-- Units of stripes [a, b) that full-stripe writes store on a stack: not its spare units, but for rebuilt ones. -/
def unitsStored (s : State) (a b t : Nat) : Nat :=
  let w := if s.layout.f.isSome then max a (min b s.layout.w) else a
  (b - a) - (sparesBelow t b - sparesBelow t w)

/-- Full-stripe writes of zeros to stripes [a, b), in class 3 (15 R354; 10 R233; 09 R216); row hits and misses are not counted for them
(log entry 112). -/
def clearStripes (s : State) (a b : Nat) : State :=
  let s := match s.layout.f with | some f => if a ≤ slotStripe s f && slotStripe s f < b then settleSlot s (slotStripe s f) else s | none => s
  let s := foldRange 0 16 s (fun s t => if stackServes s t then bump s .stack t 2 (4096 * unitsStored s a b t) else s)
  let keep (k : Nat) : Bool := !coveredByZeros s a b k
  let stk (x : Stack) : Stack :=
    { x with combining := x.combining.filter (fun c => !(a ≤ c.stripe && c.stripe < b))
             repairs := x.repairs.filter (fun l => !(a ≤ l / 4096 && l / 4096 < b)) }
  { s with pool := s.pool.filter (fun c => keep c.1), lines := s.lines.filter (fun e => keep e.1), stks := tmap s.stks (fun _ x => stk x) }

/-- The clearing of an extent: its edge stripes by lines, the whole stripes between them at once (15 R354). -/
def clearExtent (s : State) (e : Nat) : State :=
  let lo := e * 2 ^ 30
  let hi := lo + 2 ^ 30
  let a := ceilDiv lo 57344
  let b := hi / 57344
  let s := (writeData s background lo (List.replicate (a * 57344 - lo) 0)).2
  let s := (writeData s background (b * 57344) (List.replicate (hi - b * 57344) 0)).2
  clearStripes s a b

/-- Ends the revocations whose extents are all FREE (15 R362). -/
def finishRevocations (s : State) : State :=
  let ended (r : Revocation) : Bool := (rangeFrom r.first r.count).all (fun e => (s.extent e).st == .free)
  let gone := s.revocations.filter ended
  let s := { s with revocations := s.revocations.filter (fun r => !ended r) }
  gone.foldl (fun s r => match pendingOf s (fun p => p.opcode == 0x0311 && p.objId == r.first) with
    | some p => finish s p stOk s.ct
    | none => s) s

/-- CLEARING_COMPLETE (15 R354). -/
def execClearingComplete (t : Nat) (e : Nat) (s : State) : Host.Outcome State Fault Refusal :=
  ticking t s (fun s => stacksClocked s && (s.extent e).st == .clearing && s.layout.st != .lost) (fun s =>
    let c := (s.extent e).owner
    let s := (clearExtent s e).updExtent e (fun x => { x with st := .free, owner := 0xFFFF, changed := s.ct })
    endingProgress (finishRevocations s) c)

/-! ### TRANSLATION_FLUSH -/

/-- The requests issued under translations of a set of sessions. -/
def issuedUnder (s : State) (p : Nat → Bool) : List (Nat × BitVec 16) :=
  (s.outstanding.filter (fun o => p o.session && (match o.kind with | .hostRead .. | .hostWrite .. => true | _ => false))).map (fun o => (o.session, o.tag))

/-- The context whose translations a TRANSLATION_FLUSH withdraws: a tenant's own; under the operator, that of the session named, and
none where no session is named (log entry 94). -/
def flushCtx (s : State) (q : Req) : Option Nat :=
  match q.party with
  | .tenant c => some c
  | _ => if q.arg 20 2 = 0xFFFF then none else (s.session (q.arg 20 2)).ctx

/-- TRANSLATION_FLUSH (15 R358, R361; 02 R46). -/
def cmdTranslationFlush : Cmd where
  op := 0x0206
  issuers := operatorTenant
  changes := always
  obj := fun q => if q.arg 20 2 = 0xFFFF then (0x01, q.tenant) else (0x03, q.arg 20 2)
  body := fun q s =>
    let i := q.arg 20 2
    match q.firstBad [(20, 2)] [], flushCtx s q with
    | some b, _ => badAt b
    | none, none => denied
    | none, some c =>
      if i != 0xFFFF && (s.session i).ctx != some c then denied else
      let mine (k : Nat) : Bool := if i = 0xFFFF then (s.session k).ctx == some c else k == i
      let d : Drain := { session := i, tag := q.tag, seq := 0, flushCtx := some c, cmd := q.serial, requests := issuedUnder s mine }
      .pend { s with xcache := s.xcache.filter (fun x => !mine x.session), drains := s.drains ++ [d]
                     outstanding := s.outstanding.map (fun o => if mine o.session then { o with withdrawn := true } else o) } []

/-- TRANSLATION_FLUSH. -/
def execTranslationFlush (m : Fin 1029) (s : State) : Host.Outcome State Fault Refusal := serve m cmdTranslationFlush s

/-- A drain's requests have all completed or timed out. -/
def drainOver (s : State) (d : Drain) : Bool := d.requests.all (fun r => !s.outstanding.any (fun o => o.session == r.1 && o.tag == r.2))

/-- TRANSLATION_FLUSH_DONE (15 R358). -/
def execTranslationFlushDone (t : Nat) (c : Fin 1024) (i : BitVec 16) (s : State) : Host.Outcome State Fault Refusal :=
  let mine (d : Drain) : Bool := d.flushCtx == some c.val && d.session == i.toNat
  ticking t s (fun s => s.drains.any (fun d => mine d && drainOver s d)) (fun s =>
    match s.drains.find? (fun d => mine d && drainOver s d) with
    | none => s
    | some d =>
      let s := { s with drains := s.drains.erase d }
      match pendingOf s (fun p => p.opcode == 0x0206 && p.id == d.cmd) with
      | some p => finish s p stOk s.ct
      | none => s)

end Sys2Proof.Machine
end

