-- ==== Sys2Proof/Machine/HostMove.lean ====
section
/-!
DEFINITION. Responses to the part's own requests, their timeouts, and the answers of drained INVALIDATEs (12 R281, R285;
04 R94, R95; 15 R357 to R359).
-/

namespace Sys2Proof.Machine

open Sys2Proof

/-! ### Responses (12 R281) -/

/-- A row of responses to one kind of request: matched by session and TAG, and of the request's own opcode. -/
def onResponse (s : State) (q : Nat) (want : Eruno → Bool) (act : State → Outstanding → Eruno → Option State) : Host.Outcome State Fault Refusal :=
  onFrame s q (fun f => (erunoOf f).any (fun e => localEndpoint s e.dst && e.isResponse && !e.segmented && want e))
    (fun s x => match erunoOf x.frame with
      | none => s
      | some e => match matchResponse s x e with
        | none => strayResponse s e
        | some (o, r) => (act (endOutstanding s o r) o r).getD (strayResponse s e))

/-- The move that a request served goes on. -/
def moveOn (s : State) (p mv : Nat) (first : Bool) : State := if p < 16 then hostNext s p mv first else s

/-- The page of a host move has faulted: PAGE_REQUEST as soon as the session's window allows it, or FAULT at the third fault in
succession (15 R357; 12 R280). -/
def pageFault (s : State) (p mv : Nat) : State :=
  match headDesc s p mv with
  | none => s
  | some d =>
    if d.faults ≥ 2 then updHead s p mv (fun d => { d.endWith stFault with faults := d.faults + 1 })
    else
      hostNext (bump (updHead s p mv (fun d => { d with faults := d.faults + 1, phase := 5, asked := s.now })) .engine p 16 1) p mv false

/-- A TRANSLATE answer of STATUS OK is well formed (12 R279). -/
def translationGood (e : Eruno) : Bool := e.status == 0 && e.payload.length == 16 && 12 ≤ field e.payload 8 1 && field e.payload 8 1 ≤ 30

/-- The entry that a TRANSLATE answer fills. -/
def translationOf (s : State) (i page : Nat) (b : Bytes) : XEntry :=
  let k := field b 8 1
  { ctx := ((s.session i).ctx).getD 0xFFFF, session := i, gen := (s.session i).gen, va := page / 2 ^ k * 2 ^ k, pa := field b 0 8, log2 := k
    canRead := bit (field b 9 1) 0, canWrite := bit (field b 9 1) 1, lastUse := s.now }

/-- The answer to a mover's TRANSLATE (15 R357, R359). -/
def takeTranslation (s : State) (o : Outstanding) (e : Eruno) (p mv page : Nat) (write : Bool) : State :=
  if p ≥ 16 then s
  else if o.withdrawn then moveOn (updHead s p mv (fun d => { d with phase := 0 })) p mv false
  else if !translationGood e then pageFault s p mv
  else
    let x := translationOf s o.session page e.payload
    let s := fillCache s x
    if (if write then x.canWrite else x.canRead) then moveOn (updHead s p mv (fun d => { d with phase := 0, faults := 0 })) p mv false
    else pageFault s p mv

/-- TRANSLATE_RESPONSE. -/
def execTranslateResponse (q : Fin 64) (s : State) : Host.Outcome State Fault Refusal :=
  onResponse s q (fun e => e.op == 0x35) (fun s o e => match o.kind with
    | .translate p mv page w => some (takeTranslation s o e p mv page w)
    | _ => none)

/-- The answer to a mover's PAGE_REQUEST (04 R94). -/
def takePageAnswer (s : State) (e : Eruno) (p mv : Nat) : State :=
  if p ≥ 16 then s else
  let s := creditPause s p mv
  if e.status == 0 then moveOn (updHead s p mv (fun d => { d with phase := 0 })) p mv true
  else updHead s p mv (·.endWith stFault)

/-- PAGE_REQUEST_RESPONSE. -/
def execPageRequestResponse (q : Fin 64) (s : State) : Host.Outcome State Fault Refusal :=
  onResponse s q (fun e => e.op == 0x37) (fun s o e => match o.kind with
    | .pageRequest p mv _ => some (takePageAnswer s e p mv)
    | _ => none)

/-- A request of a host move has completed with a status: the move goes on after its bytes. -/
def hostDone (s : State) (p mv len status : Nat) : State :=
  if p ≥ 16 then s else
  let s := updHead s p mv (fun d => { d.past len status with phase := 0 })
  moveOn (if status = stOk then bump s .engine p 14 len else s) p mv true

/-- The answer to a host move's READ; one whose payload is not the length asked for fails. -/
def takeHostRead (s : State) (e : Eruno) (p mv store len : Nat) : State :=
  if e.status == 0 && e.payload.length == len && p < 16 then hostDone (s.updEngine p (fun g => g.save store e.payload)) p mv len stOk
  else hostDone s p mv len (if e.status == 0 then stFault else e.status.toNat)

/-- A snoop or stash answer in the form that its own row takes (14 R331). -/
def answerFormed (e : Eruno) : Bool :=
  let k := e.subop.toNat
  e.status == 0 && (if e.op = 0x1A then (k == 0x20 || k == 0x21) && e.payload.isEmpty
    else (e.op == 0x18 || e.op == 0x19) && 0x10 ≤ k && k ≤ 0x13 && e.payload.length == (if k ≥ 0x12 then 128 else 0))

/-- ERUNO_RESPONSE: the responses that no other row takes. READ and WRITE answers serve their moves; every other one matches
no request of its kind. -/
def execErunoResponse (q : Fin 64) (s : State) : Host.Outcome State Fault Refusal :=
  onFrame s q (fun f => (erunoOf f).any (fun e => localEndpoint s e.dst && e.isResponse && !e.segmented && e.op != 0x39 && e.op != 0x35 && e.op != 0x37 && !answerFormed e))
    (fun s x => match erunoOf x.frame with
      | none => s
      | some e => match matchResponse s x e with
        | some (o, r) => match o.kind with
          | .hostRead p mv store len _ _ => if r.op = 0x01 then takeHostRead (endOutstanding s o r) r p mv store len else strayResponse s e
          | .hostWrite p mv len _ _ => if r.op = 0x02 then hostDone (endOutstanding s o r) p mv len r.status.toNat else strayResponse s e
          | _ => strayResponse s e
        | none => strayAnswer s x e)

/-! ### Timeouts (12 R285) -/

/-- What a request's TIMEOUT does to what it served. -/
def timedOut (s : State) (o : Outstanding) : State :=
  match o.kind with
  | .hostRead p mv _ len _ _ | .hostWrite p mv len _ _ => hostDone s p mv len stTimeout
  | .translate p mv _ _ => if p < 16 then updHead s p mv (·.endWith stTimeout) else s
  | .pageRequest p mv _ => if p < 16 then updHead (creditPause s p mv) p mv (·.endWith stTimeout) else s
  | .keyExchange => failExchange s o.session stTimeout
  | .snoop a _ => declareDead s a 3
  | .stashOffer a line => stashAnswer s a line none

/-- ERUNO_REQUEST_TIMEOUT. -/
def execErunoRequestTimeout (t : Nat) (i tag : BitVec 16) (s : State) : Host.Outcome State Fault Refusal :=
  let late (s : State) (o : Outstanding) : Bool := o.session == i.toNat && o.tag == tag && o.issuedAt + (s.session i.toNat).timeoutNs ≤ s.now
  timed t s (fun s => s.clocked && s.outstanding.any (late s)) (fun s => match s.outstanding.find? (late s) with
    | some o =>
      let s := { s with outstanding := s.outstanding.erase o }.updSession i.toNat (fun x => { x with timeouts := x.timeouts + 1 })
      sendUnsent (timedOut (bump s .session i.toNat 4 1) o)
    | none => s)

/-! ### Drained INVALIDATEs (15 R358) -/

/-- INVALIDATE_DRAINED. -/
def execInvalidateDrained (t : Nat) (i tag : BitVec 16) (s : State) : Host.Outcome State Fault Refusal :=
  let mine (s : State) (d : Drain) : Bool := d.flushCtx.isNone && d.session == i.toNat && d.tag == tag && drainOver s d
  timed t s (fun s => s.clocked && s.drains.any (mine s)) (fun s => match s.drains.find? (mine s) with
    | some d => respondEruno { s with drains := s.drains.erase d } (d.request s) stOk []
    | none => s)

end Sys2Proof.Machine
end

