-- ==== Sys2Proof/Machine/Ptp.lean ====
section
/-!
DEFINITION. The PTP messages that the part receives and sends (07 R162 to R164, R168). Log entry 34 names what IEEE
1588-2019 gives and spec/ does not.
-/

namespace Sys2Proof.Machine

open Sys2Proof

/-! ### Roles, identities and timestamps -/

/-- The port in the time-receiver role. -/
def isSourcePort (s : State) (q : Nat) : Bool := usesPtp s.clock.config && sourcePort s.clock == q

/-- A port that the installer names for the time-transmitter role. -/
def transmitRole (s : State) (q : Nat) : Bool := s.clock.config.transmitPorts.getLsbD q && !isSourcePort s q

/-- A port in either role. -/
def hasPtpRole (s : State) (q : Nat) : Bool := isSourcePort s q || transmitRole s q

/-! ### Port states (07 R163; log entry 96) -/

/-- The states that a PTP port takes. -/
inductive PtpState where
  | disabled | listening | receiver | transmitter | passive
deriving DecidableEq, Repr

/-- A data set as the BMCA compares it: quality, grandmaster, steps removed. -/
abbrev DataSet := Nat × Nat × Nat

/-- A data set is better than another or equal to it: quality, then grandmaster, then steps removed. -/
def noWorse (a b : DataSet) : Bool :=
  a.1 < b.1 || (a.1 == b.1 && (a.2.1 < b.2.1 || (a.2.1 == b.2.1 && a.2.2 ≤ b.2.2)))

/-- The data set of an Announce. -/
def Foreign.set (x : Foreign) : DataSet := (x.quality, x.grandmaster.toNat, x.stepsRemoved)

/-- The part's own data set. -/
def ownSet : DataSet := (Config.ownQuality, Config.clockIdentity.toNat, 0)

/-- The best Announce of a port that has not timed out (07 R165). -/
def heard (s : State) (q : Nat) : Option Foreign :=
  (s.ptpPort q).foreign.filter (fun x => s.now < x.at_ + s.clock.config.announceTimeout * announceNs)

/-- The state of a PTP port: its role with external port configuration; under the BMCA the time port receives where its best
Announce is better than the part's own data set, and a port of the transmitter role transmits unless an Announce on it is better
than the part's own data set and either the best of all or of the grandmaster that the time port follows. -/
def ptpState (s : State) (q : Nat) : PtpState :=
  if !hasPtpRole s q then .disabled
  else if s.clock.config.portConfig == 1 then (if isSourcePort s q then .receiver else .transmitter)
  else match heard s q with
    | none => if isSourcePort s q then .listening else .transmitter
    | some x =>
      if isSourcePort s q then (if noWorse ownSet x.set then .passive else .receiver)
      else if noWorse ownSet x.set then .transmitter
      else match heard s (sourcePort s.clock) with
        | some y => if noWorse x.set y.set || x.grandmaster == y.grandmaster then .passive else .transmitter
        | none => .passive

/-- A port that transmits time. -/
def isTransmitPort (s : State) (q : Nat) : Bool := transmitRole s q && ptpState s q == .transmitter

/-- A port that takes time. -/
def receives (s : State) (q : Nat) : Bool := isSourcePort s q && ptpState s q == .receiver

/-- An event message, which is timestamped. -/
def ptpEvent : PtpKind → Bool
  | .sync | .delayReq | .pdelayReq | .pdelayResp => true
  | _ => false

/-- Bytes of a message (IEEE 1588-2019; log entry 34). -/
def ptpBytes : PtpKind → Nat
  | .sync | .followUp | .delayReq => 44
  | .announce => 64
  | _ => 54

/-- A message of the peer delay mechanism. -/
def ptpPeer : PtpKind → Bool
  | .pdelayReq | .pdelayResp | .pdelayRespFollowUp => true
  | _ => false

/-- The frame of a message under TRANSPORT (07 R163, R168), from a port with a MAC address. -/
def ptpFrame (c : TimeConfig) (now : Nat) (mac : BitVec 48) (dscp : BitVec 6) (x : Ptp) : Frame :=
  let udp := c.transport != 0
  let over_ := if c.transport = 0 then 0 else if c.transport = 1 then 28 else 48
  let f : Frame :=
  { len := max 64 (18 + over_ + ptpBytes x.kind), ecn := 0, ipv6 := c.transport == 2, ident := if c.transport = 1 then Config.ipIdent now else 0
    udpSum := if udp then Config.otherSum now else 0
    udpPort := if c.transport = 0 then 0 else if ptpEvent x.kind then 319 else 320
    ipDst := if c.transport = 1 then (if ptpPeer x.kind then 0xE000006B else 0xE0000181)
      else if c.transport = 2 then (if ptpPeer x.kind then 0xFF02000000000000000000000000006B else 0xFF0E0000000000000000000000000181) else 0
    ethDst := if c.transport != 0 then 0 else if ptpPeer x.kind then 0x0180C200000E else 0x011B19000000
    ethSrc := mac, dscp := if udp then dscp else 0, ttl := if udp then Config.originTtl else 0, ipSrc := if udp then Config.ptpAddress else 0
    udpSrc := if udp then Config.ptpSource else 0
    body := .ptp x }
  if c.transport = 1 then f.withSum else f

/-- A message leaves in class 6 of a port (07 R163). -/
def sendPtp (s : State) (q : Nat) (x : Ptp) : State :=
  enqueue s q 6 (ptpFrame s.clock.config s.now (portMac s q) (dscpOf s 6) { x with domain := s.clock.config.ptpDomain, source := portIdentity q })

/-- A received message stands in the part's transport and domain (07 R163, R168). -/
def ptpAccepted (s : State) (f : Frame) (x : Ptp) : Bool :=
  x.domain == s.clock.config.ptpDomain
    && (if s.clock.config.transport = 0 then f.udpPort == 0 else f.udpPort == (if ptpEvent x.kind then 319 else 320))

/-- A frame with a PTP message of a kind. -/
def isPtp (k : PtpKind) (f : Frame) : Bool := match f.body with | .ptp x => x.kind == k | _ => false

/-- A row of a received PTP message: what it does where the part accepts it; `T` is the domain's time of its arrival. -/
def onPtp (s : State) (q : Nat) (k : PtpKind) (act : State → Ptp → Int → State) : Host.Outcome State Fault Refusal :=
  onFrame s q (isPtp k) (fun s x => match x.frame.body with
    | .ptp m => if ptpAccepted s x.frame m then act s m (ptpStamp s q x.stamp) else s
    | _ => s)

/-! ### Sync and Follow_Up (07 R163 to R165) -/

/-- The message comes from the transmitter whose Announce the time port follows; with external port configuration any
transmitter on the port is taken. -/
def fromParent (s : State) (x : Ptp) : Bool := s.clock.config.portConfig == 1 || x.source == s.clock.parent

/-- An offset of the clock from PTP is complete: a sample in mode 1, the whole second in mode 3 (07 R162). -/
def ptpOffsetTaken (s : State) (q : Nat) (rx origin : Int) : State :=
  let off := wrapNs (rx - origin - (s.ptpPort q).meanDelay)
  let s := s.updPtp q (fun p => { p with syncRecv := rx, syncOrigin := origin, syncSeq := none })
  if s.clock.config.mode = 1 then takeSample s off else s.updClock (fun c => { c with ptpOffset := some off })

/-- SYNC. -/
def execSync (q : Fin 64) (s : State) : Host.Outcome State Fault Refusal :=
  onPtp s q .sync (fun s x T =>
    if !(receives s q && fromParent s x) then s
    else if x.twoStep then s.updPtp q (fun p => { p with syncSeq := some x.seqId, syncRx := T, syncCorrection := x.correction })
    else ptpOffsetTaken s q T (x.stamp + x.correction))

/-- FOLLOW_UP. -/
def execFollowUp (q : Fin 64) (s : State) : Host.Outcome State Fault Refusal :=
  onPtp s q .followUp (fun s x _ =>
    let p := s.ptpPort q
    if receives s q && fromParent s x && p.syncSeq == some x.seqId then ptpOffsetTaken s q p.syncRx (x.stamp + x.correction + p.syncCorrection) else s)

/-! ### Delay measurements (07 R163, R164) -/

/-- DELAY_REQ: a transmitter answers with the time of arrival. -/
def execDelayReq (q : Fin 64) (s : State) : Host.Outcome State Fault Refusal :=
  onPtp s q .delayReq (fun s x T =>
    if isTransmitPort s q then sendPtp s q { kind := .delayResp, seqId := x.seqId, stamp := T, correction := x.correction, requester := x.source } else s)

/-- DELAY_RESP: the mean path delay from the last Sync and this exchange. -/
def execDelayResp (q : Fin 64) (s : State) : Host.Outcome State Fault Refusal :=
  onPtp s q .delayResp (fun s x _ =>
    let p := s.ptpPort q
    match p.delayTx with
    | some t3 =>
      if isSourcePort s q && x.requester == portIdentity q && x.seqId == p.delaySeq then
        s.updPtp q (fun p => { p with delayTx := none, meanDelay := (wrapNs (p.syncRecv - p.syncOrigin) + wrapNs (x.stamp - x.correction - t3)) / 2 })
      else s
    | none => s)

/-- PDELAY_REQ: answered on every port with a PTP role, one-step or two-step. -/
def execPdelayReq (q : Fin 64) (s : State) : Host.Outcome State Fault Refusal :=
  onPtp s q .pdelayReq (fun s x T =>
    if !hasPtpRole s q then s
    else if Config.twoStep q then
      let s := sendPtp s q { kind := .pdelayResp, seqId := x.seqId, twoStep := true, stamp := T, requester := x.source }
      sendPtp s q { kind := .pdelayRespFollowUp, seqId := x.seqId, stamp := ptpNow s q, correction := x.correction, requester := x.source }
    else sendPtp s q { kind := .pdelayResp, seqId := x.seqId, correction := x.correction + (ptpNow s q - T), requester := x.source })

/-- The mean path delay of a peer delay exchange: turnaround time `d` at the peer. -/
def peerDelayTaken (s : State) (q : Nat) (tx rx d : Int) : State :=
  s.updPtp q (fun p => { p with pdelayTx := none, pdelayWaitFollow := false, meanDelay := (wrapNs (rx - tx) - d) / 2 })

/-- PDELAY_RESP. -/
def execPdelayResp (q : Fin 64) (s : State) : Host.Outcome State Fault Refusal :=
  onPtp s q .pdelayResp (fun s x T =>
    let p := s.ptpPort q
    match p.pdelayTx with
    | some t1 =>
      if !(x.requester == portIdentity q && x.seqId == p.pdelaySeq && !p.pdelayWaitFollow) then s
      else if x.twoStep then s.updPtp q (fun p => { p with pdelayRx := T, pdelayPeerRx := x.stamp - x.correction, pdelayWaitFollow := true })
      else peerDelayTaken s q t1 T x.correction
    | none => s)

/-- PDELAY_RESP_FOLLOW_UP. -/
def execPdelayRespFollowUp (q : Fin 64) (s : State) : Host.Outcome State Fault Refusal :=
  onPtp s q .pdelayRespFollowUp (fun s x _ =>
    let p := s.ptpPort q
    match p.pdelayTx with
    | some t1 =>
      if x.requester == portIdentity q && x.seqId == p.pdelaySeq && p.pdelayWaitFollow then
        peerDelayTaken s q t1 p.pdelayRx (wrapNs (x.stamp - p.pdelayPeerRx) + x.correction)
      else s
    | none => s)

/-! ### Announce (07 R163) -/

/-- The Announce makes or keeps its sender the parent: always with external port configuration; under the BMCA where it is
the parent's own, where the parent's has timed out, or where its data set is no worse than that of the parent's Announce, whose
steps the clock holds with its own step added. -/
def announceWins (s : State) (x : Ptp) : Bool :=
  let c := s.clock
  c.config.portConfig == 1 || c.parent == 0 || x.source == c.parent || c.lastAnnounce + c.config.announceTimeout * announceNs ≤ s.now
    || noWorse (x.quality, x.grandmaster.toNat, x.stepsRemoved + 1) (c.gmQuality, c.grandmaster.toNat, c.stepsRemoved)

/-- An Announce joins what a port has heard: it replaces its sender's, one that is no better, and one that has timed out. -/
def hear (s : State) (q : Nat) (x : Ptp) : State :=
  let n : Foreign := { quality := x.quality, grandmaster := x.grandmaster, stepsRemoved := x.stepsRemoved, source := x.source, at_ := s.now }
  if !hasPtpRole s q || (heard s q).any (fun y => y.source != x.source && !noWorse n.set y.set) then s else s.updPtp q (fun p => { p with foreign := some n })

/-- ANNOUNCE: the port hears it, and on a port that takes time its sender becomes or stays the parent where it wins. -/
def execAnnounce (q : Fin 64) (s : State) : Host.Outcome State Fault Refusal :=
  onPtp s q .announce (fun s x _ =>
    let s := hear s q x
    if receives s q && announceWins s x then
      s.updClock (fun c => { c with parent := x.source, grandmaster := x.grandmaster, gmQuality := x.quality, stepsRemoved := x.stepsRemoved + 1, lastAnnounce := s.now })
    else s)

/-- A Management or Signaling message. -/
def isPtpOther (f : Frame) : Bool := isPtp .management f || isPtp .signaling f

/-- PTP_MANAGEMENT_SIGNALING: counted and discarded (07 R163). -/
def execPtpManagementSignaling (q : Fin 64) (s : State) : Host.Outcome State Fault Refusal :=
  onFrame s q isPtpOther (fun s _ => tally s .ptpDiscard)

/-! ### Transmit timers (07 R163, R168) -/

/-- A Sync, with its Follow_Up where the port is two-step. -/
def sendSync (s : State) (q : Nat) : State :=
  let n := (s.ptpPort q).syncTxSeq + 1
  let s := s.updPtp q (fun p => { p with syncTxSeq := n, lastSyncTx := s.now })
  if Config.twoStep q then sendPtp (sendPtp s q { kind := .sync, seqId := n, twoStep := true }) q { kind := .followUp, seqId := n, stamp := ptpNow s q }
  else sendPtp s q { kind := .sync, seqId := n, stamp := ptpNow s q }

/-- SYNC_TRANSMIT_TIMER. -/
def execSyncTransmitTimer (t : Nat) (q : Fin 64) (s : State) : Host.Outcome State Fault Refusal :=
  timed t s (fun s => s.clocked && isTransmitPort s q && (s.ptpPort q).lastSyncTx + logNs s.clock.config.logSync ≤ s.now) (sendSync · q)

/-- PDELAY_REQ_TIMER. -/
def execPdelayReqTimer (t : Nat) (q : Fin 64) (s : State) : Host.Outcome State Fault Refusal :=
  timed t s (fun s => s.clocked && hasPtpRole s q && Config.peerDelay q && (s.ptpPort q).lastPdelayTx + logNs s.clock.config.logPdelay ≤ s.now) (fun s =>
    let n := (s.ptpPort q).pdelaySeq + 1
    let T := ptpNow s q
    sendPtp (s.updPtp q (fun p => { p with pdelaySeq := n, pdelayTx := some T, pdelayWaitFollow := false, lastPdelayTx := s.now })) q { kind := .pdelayReq, seqId := n })

/-- DELAY_REQ_TRANSMIT_TIMER; its interval is the transmitter's own (log entry 34). -/
def execDelayReqTransmitTimer (t : Nat) (q : Fin 64) (s : State) : Host.Outcome State Fault Refusal :=
  timed t s (fun s => s.clocked && isSourcePort s q && !Config.peerDelay q) (fun s =>
    let n := (s.ptpPort q).delaySeq + 1
    let T := ptpNow s q
    sendPtp (s.updPtp q (fun p => { p with delaySeq := n, delayTx := some T, lastDelayTx := s.now })) q { kind := .delayReq, seqId := n })

/-- The Announce of the part: its grandmaster, or itself while it follows none. -/
def announceOf (s : State) (n : BitVec 16) : Ptp :=
  let c := s.clock
  if usesPtp c.config && c.parent != 0 && c.st != .free then
    { kind := .announce, seqId := n, quality := c.gmQuality, grandmaster := c.grandmaster, stepsRemoved := c.stepsRemoved }
  else { kind := .announce, seqId := n, quality := Config.ownQuality, grandmaster := Config.clockIdentity }

/-- ANNOUNCE_TRANSMIT_TIMER. -/
def execAnnounceTransmitTimer (t : Nat) (q : Fin 64) (s : State) : Host.Outcome State Fault Refusal :=
  timed t s (fun s => s.clocked && isTransmitPort s q && (s.ptpPort q).lastAnnounceTx + announceNs ≤ s.now) (fun s =>
    let n := (s.ptpPort q).announceSeq + 1
    sendPtp (s.updPtp q (fun p => { p with announceSeq := n, lastAnnounceTx := s.now })) q (announceOf s n))

end Sys2Proof.Machine
end

