-- ==== Sys2Proof/Machine/Refresh.lean ====
section
/-!
DEFINITION. Refresh, its windows and the reservations of running schedules, and the temperature readings (09 R210 to R214;
07 R194, R195; 19 R437, R438, R442).
-/

namespace Sys2Proof.Machine

open Sys2Proof

/-! ### Windows of schedules (07 R194, R195) -/

/-- The running schedule whose section of a type (7 REFRESH, 8 RESERVE) names a stack, with its T0 (07 R197). -/
def windowSched (s : State) (type t : Nat) : Option (Nat × Nat × Bytes) :=
  s.scheds.findSome? (fun e =>
    match e.2.t0 with
    | some t0 => if e.2.st == .running && (windowStacks e.2.image type).contains t then some (e.1, t0, e.2.image) else none
    | none => none)

/-- What is left at cluster time `ct` of the interval of a window that contains it, in ns. -/
def Window.left (w : Window) (t0 ct : Nat) : Option Nat :=
  let base := t0 + w.offset
  if ct < base then none else
  let start := if w.period = 0 then base else base + (ct - base) / w.period * w.period
  if ct < start + w.length then some (start + w.length - ct) else none

/-- What is left of the open windows of a section that name a stack, the longest. -/
def windowLeft (s : State) (type t : Nat) : Option Nat :=
  match windowSched s type t with
  | some (_, t0, b) => (((windowsOf b type).filter (fun w => bit w.mask t)).filterMap (fun w => w.left t0 (s.ctOf t))).max?
  | none => none

/-- SHARE of the RESERVE window that is open on a stack: those of a stack do not overlap (07 R174, R195). -/
def openShare (s : State) (t : Nat) : Nat :=
  match windowSched s 8 t with
  | some (_, t0, b) => (((windowsOf b 8).find? (fun w => bit w.mask t && (w.left t0 (s.ctOf t)).isSome)).map (·.share)).getD 0
  | none => 0

/-! ### Refreshing a PC (09 R210) -/

/-- Closes every open row of a PC. -/
def closePc (x : Stack) (pc : Nat) : Stack :=
  (tkeys x.rows (fun k _ => k / 64 == pc / 16)).foldl (fun x k => closeRowOn x k (pc % 16)) x

/-- `n` refreshes of a PC back to back, where it owes them: each lowers the count by one and takes T_RFC. -/
def refreshPc (s : State) (t pc n : Nat) : State :=
  let k := min n (tgetD (s.stack t).owed 0 pc)
  if k = 0 then s else
  let rfc := tRfc s t
  let s := s.updStack t (fun x => closePc { x with owed := tupd x.owed 0 pc (· - k), refreshes := x.refreshes + k,
                                                    refreshEnd := tupd x.refreshEnd 0 pc (fun e => max e s.now + k * rfc) } pc)
  bump s .stack t 3 k

/-- Refreshes of a PC that would end within `left` ns. -/
def refreshesFit (s : State) (t pc left : Nat) : Nat :=
  let busy := tgetD (s.stack t).refreshEnd 0 pc - s.now
  if tRfc s t = 0 then 0 else (left - busy) / tRfc s t

/-- A PC owes 8: a refresh ahead of every class, REFRESH_FORCED, its count, and a trace record (09 R213; 18 R408, R414). -/
def forceRefresh (s : State) (t pc : Nat) : State :=
  let of_ := match windowSched s 7 t with | some x => some x | none => windowSched s 8 t
  let s := bump (setStackFlag (s.updStack t (fun x => { x with forced := x.forced + 1 })) t 0) .stack t 4 1
  let s := match of_ with | some (n, _, _) => bump s .schedule n 10 1 | none => s
  let c := of_.bind (fun x => (s.sched? x.1).map (·.ctx))
  let s := trace s 3 (0x20 + t) c s.ct (natLe t 1 ++ natLe pc 1 ++ natLe ((of_.map (·.1)).getD 0xFF) 1)
  refreshPc s t pc 1

/-- What a PC does with its owed count after a tick (09 R211 to R213). -/
def afterTick (s : State) (t pc : Nat) (demandWaits : Bool) : State :=
  if tgetD (s.stack t).owed 0 pc ≥ 8 then forceRefresh s t pc
  else if (s.stack t).preT0 then refreshPc s t pc 8
  else if (windowSched s 7 t).isSome then
    (match windowLeft s 7 t with
      | some left => refreshPc s t pc (refreshesFit s t pc left)
      | none => s)
  else if demandWaits then s else refreshPc s t pc 1

/-- The controller runs its stack: clocked, and the stack in service and not held out. -/
def refreshes (s : State) (t : Nat) : Bool := s.clocked && (s.stack t).clocked && stackServes s t

/-- The refresh interval of a PC since its last tick, in half ns: a new one applies from the next tick (09 R229). -/
def tickHalfNs (s : State) (t pc : Nat) : Nat := if (s.stack t).tickHot.getLsbD pc then tRefi s t else 2 * tRefi s t

/-- REFRESH_TICK (09 R210). -/
def execRefreshTick (t : Nat) (st : Fin 16) (pc : Fin 64) (demandWaits : Bool) (s : State) : Host.Outcome State Fault Refusal :=
  timed t s (fun s => refreshes s st && pc.val < s.pcs && 2 * tgetD (s.stack st).lastTick 0 pc + tickHalfNs s st pc ≤ 2 * s.now) (fun s =>
    let s := s.updStack st (fun x => { x with lastTick := tput x.lastTick pc s.now, owed := tupd x.owed 0 pc (· + 1)
                                              tickHot := if x.hot then x.tickHot ||| BitVec.ofNat 64 (2 ^ pc.val) else x.tickHot &&& ~~~(BitVec.ofNat 64 (2 ^ pc.val)) })
    let s := s.updStack st (fun x => { x with owedMax := max x.owedMax (tgetD x.owed 0 pc) })
    afterTick s st pc demandWaits)

/-- REFRESH_IDLE_ISSUE: no class 1 or 2 request for 16 MCLK (09 R211). -/
def execRefreshIdleIssue (t : Nat) (st : Fin 16) (pc : Fin 64) (s : State) : Host.Outcome State Fault Refusal :=
  timed t s (fun s => refreshes s st && pc.val < s.pcs && (windowSched s 7 st).isNone
      && tgetD (s.stack st).lastDemand 0 (pc.val / 16) + mclkNs s st 16 ≤ s.now) (fun s => refreshPc s st pc 8)

/-- REFRESH_WINDOW_OPEN: the PC's rows close, and refreshes go back to back, none that would overrun the window (09 R212,
R215). -/
def execRefreshWindowOpen (t : Nat) (st : Fin 16) (pc : Fin 64) (s : State) : Host.Outcome State Fault Refusal :=
  timed t s (fun s => refreshes s st && pc.val < s.pcs) (fun s => match windowLeft s 7 st with
    | some left => refreshPc (s.updStack st (closePc · pc)) st pc (refreshesFit s st pc left)
    | none => s)

/-- An armed schedule whose REFRESH section names a stack and whose T0 is at most 20 µs away. -/
def preT0Due (s : State) (t : Nat) : Bool :=
  s.scheds.any (fun e => e.2.st == .armed && (windowStacks e.2.image 7).contains t
    && e.2.t0.any (fun t0 => t0 ≤ s.ctOf t + usNs 20 && s.ctOf t < t0))

/-- REFRESH_PRE_T0 (09 R212). -/
def execRefreshPreT0 (t : Nat) (st : Fin 16) (s : State) : Host.Outcome State Fault Refusal :=
  timed t s (fun s => refreshes s st && preT0Due s st)
    (fun s => foldRange 0 s.pcs (s.updStack st (fun x => { x with preT0 := true })) (fun s pc => refreshPc s st pc 8))

/-- RESERVE_INTERVAL_START (07 R195): until the interval ends, the schedule's engines are served in class 1. -/
def execReserveIntervalStart (t : Nat) (st : Fin 16) (s : State) : Host.Outcome State Fault Refusal :=
  timed t s (fun s => s.clocked) (fun s => match windowSched s 8 st, windowLeft s 8 st with
    | some (n, _, _), some left => s.updStack st (fun x => { x with reserved := some { sched := n, ends := s.now + left, share := openShare s st } })
    | _, _ => s)

/-! ### Temperatures (09 R210; 19 R437, R438, R440) -/

/-- A reading below the operating limits, where 19 R442 leaves the behaviour undefined. -/
def tooCold (temps : List Int) : Bool := temps.any (· < 0)

/-- A stack's case temperature: the hot interval from HOT_TEMP on, until 3 °C below it. -/
def setCaseTemp (s : State) (t : Nat) (c : Int) : State :=
  let hot : Bool := if (s.stack t).hot then c > (hotTemp s t : Int) - 3 else c ≥ hotTemp s t
  let was := (s.stack t).hot
  let s := s.updStack t (fun x => { x with caseTemp := c, hot := hot })
  if hot && !was then setStackFlag s t 1 else s

/-- 1 ms has passed since a reading, the period of the sensors (19 R437). -/
def readingDue (s : State) (last : Option Nat) : Bool := last.all (fun t => t + msNs 1 ≤ s.now)

/-- TEMPERATURE_READ: the stacks' case temperatures in stack order (09 R210; 19 R437). -/
def execTemperatureRead (t : Nat) (temps : List Int) (s : State) : Host.Outcome State Fault Refusal :=
  if tooCold temps then .fault .outsideLimits
  else ticking t s (fun s => readingDue s s.dev.stackReadAt) (fun s =>
    let s := (temps.take 16).zipIdx.foldl (fun s x => setCaseTemp s x.2 x.1) s
    countAlerts s (s.updDev (fun d => { d with stackMax := (temps.take 16).foldl max 0, stackReadAt := some s.now })))

/-- DIE_TEMPERATURE_READ (19 R437, R438, R440). -/
def execDieTemperatureRead (t : Nat) (temps : List Int) (s : State) : Host.Outcome State Fault Refusal :=
  if tooCold temps then .fault .outsideLimits
  else ticking t s (fun s => readingDue s s.dev.dieReadAt) (fun s =>
    countAlerts s (s.updDev (fun d => { d with dieTemps := temps.zipIdx.map (fun x => (x.2, x.1)), dieMax := temps.foldl max 0, dieReadAt := some s.now })))

end Sys2Proof.Machine
end

