-- ==== Sys2Proof/Machine/Rebuild.lean ====
section
/-!
DEFINITION. Failure declaration, rebuild and combining expiry, and the persistent state (10 R234 to R246; 03 R75 to R78;
16 R370).
-/

namespace Sys2Proof.Machine

open Sys2Proof

/-- The code of a layout state (10 R244). -/
def LayoutState.code : LayoutState → Nat
  | .whole => 0 | .rebuilding => 1 | .rebuilt => 2 | .retired => 3 | .lost => 4

/-- A stack number, or 0xFF. -/
def stackByte (x : Option Nat) : Nat := x.getD 0xFF

/-! ### The persistent state (16 R370) -/

/-- A copy whose digest checks. -/
def goodState : Option PState → Option PState
  | some p => if p.checks then some p else none
  | none => none

/-- The copy with the higher SEQ whose digest checks; true where it is copy A. -/
def Flash.state (f : Flash) : Option (PState × Bool) :=
  match goodState f.stateA, goodState f.stateB with
  | some a, some b => if b.seq < a.seq then some (a, true) else some (b, false)
  | some a, none => some (a, true)
  | none, some b => some (b, false)
  | none, none => none

/-- Writes a layout and BOOT_EPOCH to the other copy of the persistent state, with SEQ one higher (16 R370). -/
def persistAs (s : State) (l : Layout) : State :=
  let next (seq : Nat) : PState := { seq := seq, bootEpoch := s.aon.bootEpoch, layout := l }
  let s := s.updDev (fun d => { d with persisting := some (match s.flash.state with | some (_, true) => false | _ => true, s.now) })
  s.updFlash (fun f => match f.state with
    | some (p, true) => { f with stateB := some (next (p.seq + 1)) }
    | some (p, false) => { f with stateA := some (next (p.seq + 1)) }
    | none => { f with stateA := some (next 1) })

/-- The write of the persistent state that is under way is cut short: its copy no longer checks, and the other copy holds (16
R382). How long such a write takes is free; the one of a start has ended at the ready point (log entry 121). -/
def tearState (s : State) : State :=
  match s.dev.persisting with
  | some (isA, t) =>
    if s.now < t + Config.persistNs t then
      s.updFlash (fun f => if isA then { f with stateA := f.stateA.map (fun p => { p with checks := false }) }
        else { f with stateB := f.stateB.map (fun p => { p with checks := false }) })
    else s
  | none => s

/-- Writes the persistent state with the present layout. -/
def persist (s : State) : State := persistAs s s.layout

/-! ### Events (03 R78; 10 R244) -/

/-- Contexts that satisfy a condition get an event. -/
def postContexts (s : State) (cs : List Nat) (code objType objId : Nat) (data : Bytes) (status : Nat := 0) : State :=
  foldKeys cs s (fun s c => postCtx s c code objType objId data status)

/-- The contexts of a list, each once, in ascending order. -/
def inOrder (l : List Nat) : List Nat := (List.range 1024).filter (fun c => l.contains c)

/-- Contexts that hold a granted extent, in ascending order. -/
def extentHolders (s : State) : List Nat := inOrder (s.extents.filterMap (fun e => extentHolder s e.1))

/-- Contexts that hold a loaded schedule. -/
def schedContexts (s : State) : List Nat := inOrder (s.scheds.map (fun e => e.2.ctx))

/-- The layout epoch goes up by one; LAYOUT_EPOCH with cause 1 rebuild complete, 2 stack retired (03 R76, R78). -/
def raiseEpoch (s : State) (t cause : Nat) : State :=
  let old := s.layout.epoch
  let s := { s with layout := { s.layout with epoch := old + 1 } }
  let d := natLe (old + 1).toNat 1 ++ natLe old.toNat 1 ++ natLe cause 1 ++ natLe (stackByte s.layout.f) 1 ++ natLe (stackByte s.layout.g) 1
  postContexts (postEvent s 0 0xB 7 t d) (schedContexts s) 0xB 7 t d

/-! ### Declaring a stack failed (10 R236 to R238) -/

/-- Sets a stack's state. -/
def setStackState (s : State) (t : Nat) (st : StackState) : State := countAlerts s (s.updStack t (fun x => { x with st := st }))

/-- The declared stack's state, the layout state and its stacks (10 R238); the marks of its dies end (09 R226). -/
def declareLayout (s : State) (t : Nat) : State :=
  let s := s.updStack t (fun x => { x with badDies := 0 })
  match s.layout.st with
  | .whole =>
    let s := setStackState s t .rebuilding
    { s with layout := { s.layout with st := .rebuilding, f := some t, w := 0 }, rebuild := { since := s.now } }
  | .rebuilt =>
    let s := setStackState s t .failedNoSpare
    { s with layout := { s.layout with st := .retired, g := some t } }
  | .rebuilding | .retired | .lost =>
    let l := s.layout
    let l := if l.g.isNone then { l with g := some t } else if l.h.isNone then { l with h := some t } else l
    let s := setStackState s t .lost
    let s := (l.f.toList ++ l.g.toList ++ l.h.toList).foldl (fun s k => setStackState s k .lost) s
    let r := s.rebuild
    -- a slot that is abandoned leaves its stripe at w (10 R246)
    { s with layout := { l with st := .lost, w := if r.settled then l.w - 1 else l.w }
             rebuild := { r with inSlot := false, settled := false, marked := if r.settled then r.markedBefore else r.marked } }

/-- DATA of a STACK_FAILED event (10 R244). -/
def failedData (s : State) (t cause : Nat) : Bytes :=
  natLe (s.stack t).st.code 1 ++ natLe s.layout.st.code 1 ++ natLe cause 1 ++ natLe (stackByte s.layout.f) 1 ++ natLe (stackByte s.layout.g) 1
    ++ natLe (stackByte s.layout.h) 1 ++ natLe 0 6

/-- The declaration of a fenced stack (10 R236, R238, R244). -/
def declareStack (s : State) (t : Nat) : State :=
  let cause := (s.stack t).cause
  let before := s.layout.st
  let s := declareLayout s t
  let status := if s.layout.st == .lost then stMedia else stOk
  let d := failedData s t cause
  let s := postContexts (postEvent s 0 9 7 t d status) (extentHolders s) 9 7 t d status
  let s := logError s 0x32 3 (0x20 + t) d status
  let s := if before == .rebuilt then raiseEpoch s t 2 else s
  let s := persist s
  match pendingOf s (fun q => q.opcode == 0x0810 && q.objId == t) with
  | some q => finish s q stOk s.ct
  | none => s

/-- The firmware runs: in service with its clocks. -/
def firmwareRuns (s : State) : Bool := s.clocked && s.dev.mode == .inService

/-- A fenced stack is the next to be declared: no other was fenced before it, or at the same instant with a lower number (10 R236;
02 R53). -/
def nextDeclared (s : State) (t : Nat) : Bool :=
  (s.stack t).st == .fenced && (List.range 16).all (fun k =>
    (s.stack k).st != .fenced || (s.stack t).fencedAt < (s.stack k).fencedAt || ((s.stack t).fencedAt == (s.stack k).fencedAt && t ≤ k))

/-- STACK_FAILURE_DECLARATION (10 R236). -/
def execStackFailureDeclaration (t : Nat) (st : Fin 16) (s : State) : Host.Outcome State Fault Refusal :=
  timed t s (fun s => firmwareRuns s && nextDeclared s st) (declareStack · st)

/-- A further declaration would lead to Lost, those of stacks already fenced counted. -/
def lossAhead (s : State) : Bool :=
  s.layout.st == .rebuilding || s.layout.st == .retired || s.layout.st == .lost || s.stks.any (fun e => e.2.st == .fenced)

/-- STACK_FAIL (10 R237, R238, R245). -/
def cmdStackFail : Cmd where
  op := 0x0810
  issuers := operatorOnly
  changes := always
  obj := stackObj
  body := fun q s =>
    let t := q.arg 20 1
    match q.firstBad [(20, 2)] [(20, t > 15), (21, q.arg 21 1 > 1)] with
    | some b => badAt b
    | none =>
      if (s.stack t).st != .serving then badState 7 (s.stack t).st.code
      else if lossAhead s && !bit (q.arg 21 1) 0 then badAt 21
      else .pend (fenceStack s t 4) []

/-- STACK_FAIL. -/
def execStackFail (m : Fin 1029) (s : State) : Host.Outcome State Fault Refusal := serve m cmdStackFail s

/-! ### Rebuild (10 R239, R240) -/

/-- SPACING in MCLK (10 R240); 0 in mode 1, in which no slot starts. -/
def spacing (s : State) : Nat := match s.rebuild.mode with | 0 => ceilDiv 204800 s.policy.bgShare | 1 => 0 | _ => 2048

/-- The watermark passes the last stripe (10 R237, R244; 03 R75, R78). -/
def rebuildDone (s : State) (f : Nat) : State :=
  let s := setStackState s f .rebuilt
  let s := { s with layout := { s.layout with st := .rebuilt, w := s.stripes } }
  let d := natLe (s.layout.epoch + 1).toNat 1 ++ natLe 0 3 ++ natLe ((s.now - s.rebuild.since) / 1000000) 4 ++ natLe s.rebuild.marked 4
  persist (raiseEpoch (postEvent s 0 0xA 7 f d) f 1)

/-- REBUILD_SLOT_START (10 R239, R240): the locks, and the combining entry closed. -/
def execRebuildSlotStart (t : Nat) (s : State) : Host.Outcome State Fault Refusal :=
  timed t s (fun s => s.clocked && stacksClocked s && s.layout.st == .rebuilding && s.rebuild.mode != 1 && !s.rebuild.inSlot
      && s.layout.f.any (fun f => slotStripe s f < s.stripes && s.rebuild.lastSlot.all (fun u => u + mclkNs s f (spacing s) ≤ s.now)))
    (fun s => match s.layout.f with
      | some f => closeCombine { s with rebuild := { s.rebuild with inSlot := true, lastSlot := some s.now } } (slotStripe s f)
      | none => s)

/-- A slot ends: its stripe has been rebuilt, and its locks are released (10 R239). -/
def finishSlot (s : State) (f : Nat) : State :=
  let s := bump (if s.rebuild.settled then s else rebuildStripe s f (slotStripe s f)) .stack f 13 1
  let s := { s with rebuild := { s.rebuild with inSlot := false, settled := false } }
  if slotStripe s f ≥ s.stripes then rebuildDone s f else s

/-- REBUILD_SLOT_COMPLETE (10 R239). -/
def execRebuildSlotComplete (t : Nat) (s : State) : Host.Outcome State Fault Refusal :=
  timed t s (fun s => s.clocked && stacksClocked s && s.layout.st == .rebuilding && s.rebuild.inSlot && (s.rebuild.settled || s.layout.f.any (fun f => stackServes s (spareStack (slotStripe s f)))))
    (fun s => match s.layout.f with
      | some f => finishSlot s f
      | none => s)

/-- Stripes still to be rebuilt. -/
def stripesLeft (s : State) : Nat :=
  match s.layout.st, s.layout.f with
  | .rebuilding, some f =>
    let w := min s.layout.w s.stripes
    (s.stripes - w) - ((s.stripes - w) / 16 + (if (f + 15 - w % 16) % 16 < (s.stripes - w) % 16 then 1 else 0))
  | _, _ => 0

/-- REBUILD_STATUS (10 R245). -/
def cmdRebuildStatus : Cmd where
  op := 0x0811
  issuers := anyRole
  blocked := neverBlocked
  query := true
  body := fun q s => match q.firstBad [] [] with
    | some b => badAt b
    | none =>
      let l := s.layout
      .done s (natLe l.st.code 1 ++ natLe (stackByte l.f) 1 ++ natLe (stackByte l.g) 1 ++ natLe (stackByte l.h) 1 ++ natLe l.w 4 ++ natLe (stripesLeft s) 4
        ++ natLe s.rebuild.mode 1 ++ natLe s.policy.bgShare 1 ++ natLe 0 2 ++ natLe (spacing s) 4 ++ natLe s.rebuild.marked 4
        ++ natLe (if s.rebuild.since = 0 then 0 else (s.now - s.rebuild.since) / secNs 1) 4) []

/-- REBUILD_STATUS. -/
def execRebuildStatus (m : Fin 1029) (s : State) : Host.Outcome State Fault Refusal := serve m cmdRebuildStatus s

/-- REBUILD_CONTROL (10 R237, R240, R245). -/
def cmdRebuildControl : Cmd where
  op := 0x0812
  issuers := operatorOnly
  changes := always
  body := fun q s =>
    match q.firstBad [(20, 1)] [(20, q.arg 20 1 > 2)] with
    | some b => badAt b
    | none => match s.layout.f with
      | none => badState 7 1
      | some f =>
        if (s.stack f).st != .rebuilding then badState 7 (s.stack f).st.code
        else .done { s with rebuild := { s.rebuild with mode := q.arg 20 1 } } [] []

/-- REBUILD_CONTROL. -/
def execRebuildControl (m : Fin 1029) (s : State) : Host.Outcome State Fault Refusal := serve m cmdRebuildControl s

/-- COMBINE_IDLE_EXPIRY (10 R234). -/
def execCombineIdleExpiry (t : Nat) (st : Fin 16) (stripe : Nat) (s : State) : Host.Outcome State Fault Refusal :=
  timed t s (fun s => s.clocked && (s.stack st.val).clocked && parityHome stripe == st.val && (combineOf s stripe).any (fun c => c.last + s.policy.combineIdle ≤ s.now))
    (closeCombine · stripe)

end Sys2Proof.Machine
end

