-- ==== Sys2Proof/Machine/Dump.lean ====
section
/-!
DEFINITION. Device resets and the crash dump: the order of a reset, the freeze, the dump and its bytes, the release
(17 R388, R389, R395 to R399; 01 R24, R25).
-/

namespace Sys2Proof.Machine

open Sys2Proof

/-! ### The dump's units (17 R396, R397) -/

/-- The unit IDs of a dump, ascending. -/
def dumpUnits : List Nat :=
  rangeFrom 0x10 16 ++ rangeFrom 0x20 16 ++ rangeFrom 0x30 16 ++ rangeFrom 0x40 4 ++ rangeFrom 0x50 4 ++ rangeFrom 0x60 4 ++ rangeFrom 0x70 4 ++ [0x80, 0x90]

/-- Content bytes of a unit. -/
def unitLen (u : Nat) : Nat :=
  match u / 16 with
  | 1 => 597056 | 2 => 32768 | 3 => 16384 | 4 => 131072 | 5 => 16384 | 6 => 131072 | 7 => 262144 | 8 => 167936 | _ => 4325376

/-- The order in which the sequencer reads: the named unit, then the others. -/
def dumpOrder (first : Nat) : List Nat :=
  if dumpUnits.contains first then first :: dumpUnits.filter (· != first) else dumpUnits

/-- Writes little-endian items of `k` bytes at their index from an offset. -/
def putItems (m : Memory) (off k : Nat) (l : List (Nat × Nat)) : Memory := l.foldl (fun m x => mwriteN m (off + k * x.1) (natLe x.2 k)) m

/-- Where a unit's bytes stand in `Dump.bytes`. -/
def unitBase (u : Nat) : Nat := u * 2 ^ 24

/-- The content of an engine that 17 R397 places: s registers, v registers, query rows, accumulators and 64 bundles. -/
def engineContent (m : Memory) (u : Nat) (e : Engine) : Memory :=
  let b := unitBase u
  let m := putItems m (b + 256) 8 (e.sregs.map (fun x => (x.1, x.2.toNat)))
  let m := e.vregs.foldl (fun m x => putItems m (b + 3136 + 2048 * x.1) 4 (x.2.zipIdx.map (fun v => (v.2, v.1.toNat)))) m
  let m := e.qrows.foldl (fun m c => mwrite m (b + 68672 + c.1) c.2) m
  let m := putItems m (b + 330816) 4 (e.acc.map (fun x => (x.1, x.2.toNat)))
  putItems m (b + 592960) 64 ((List.range 64).map (fun i => (i, (tgetD e.imem 0 ((e.pc + 16384 - 32 + i) % 16384)).toNat)))

/-- The values of a sync bank. -/
def bankContent (m : Memory) (u : Nat) (s : State) : Memory :=
  putItems m (unitBase u) 4 ((s.sync.filter (fun x => x.1 / 16384 == u % 16)).map (fun x => (x.1 % 16384, x.2.value.toNat)))

/-- The content bytes of the frozen units. -/
def dumpContent (s : State) : Memory :=
  let m := foldRange 0 16 [] (fun m p => engineContent m (0x10 + p) (s.engine p))
  foldRange 0 4 m (fun m f => bankContent m (0x60 + f) s)

/-- A content offset that 17 R397 places in this model. -/
def placedByte (u off : Nat) : Bool :=
  match u / 16 with
  | 1 => (256 ≤ off && off < 768) || (3136 ≤ off && off < 597056)
  | 6 => off < 65536
  | _ => false

/-! ### The dump's bytes (17 R398) -/

/-- One step of CRC-32 over a bit. -/
def crcBit (c : BitVec 32) (b : Bool) : BitVec 32 := if (c.getLsbD 0) != b then (c >>> 1) ^^^ 0xEDB88320 else c >>> 1

/-- CRC-32 of IEEE 802.3 over bytes. -/
def crc32 (b : Bytes) : BitVec 32 :=
  ~~~(b.foldl (fun c x => (List.range 8).foldl (fun c i => crcBit c (x.getLsbD i)) c) 0xFFFFFFFF)

/-- A content byte of a section. -/
def Dump.content (d : Dump) (u off : Nat) : Byte := if placedByte u off then mread d.bytes (unitBase u + off) else Config.dumpByte d.draw u off

/-- The AON cycle count at a section's first word, which is no content. -/
def Dump.cycles (d : Dump) (u : Nat) : Bytes := (rangeFrom (2 ^ 23) 8).map (Config.dumpByte d.draw u)

/-- A section: its header and its content. -/
def Dump.section_ (d : Dump) (u : Nat) : Bytes :=
  natLe u 1 ++ natLe 1 1 ++ natLe 0 2 ++ natLe (unitLen u) 4 ++ d.cycles u ++ natLe 0 48 ++ (List.range (unitLen u)).map (d.content u)

/-- Bytes of a unit's section: none where it did not answer or was not reached. -/
def sectionLen (x : Nat × Nat) : Nat := if x.2 = 0 then 64 + unitLen x.1 else 0

/-- The directory's entries: unit, state and offset, from an offset on. -/
def placeSections : Nat → List (Nat × Nat) → List (Nat × Nat × Nat)
  | _, [] => []
  | off, x :: r => (x.1, x.2, off) :: placeSections (off + sectionLen x) r

/-- LENGTH of a dump. -/
def Dump.length (d : Dump) : Nat := 4096 + (d.units.map sectionLen).sum

/-- NO_ANSWER of a dump. -/
def Dump.noAnswer (d : Dump) : Nat := (d.units.filter (fun x => x.2 != 0)).length

/-- A directory entry. -/
def Dump.entry (d : Dump) (x : Nat × Nat × Nat) : Bytes :=
  natLe x.1 1 ++ natLe x.2.1 1 ++ natLe 0 2 ++ natLe (if x.2.1 = 0 then x.2.2 else 0) 4 ++ natLe (sectionLen (x.1, x.2.1)) 4
    ++ (if x.2.1 = 0 then natLe (crc32 (d.section_ x.1)).toNat 4 else natLe 0 4)

/-- The dump's header. -/
def Dump.header (d : Dump) (deviceId : Nat) : Bytes :=
  padTo (natLe 0x50445154 4 ++ natLe 1 2 ++ natLe 66 1 ++ natLe d.first 1 ++ natLe d.length 4 ++ natLe d.bootEpoch.toNat 4 ++ natLe d.time 8
    ++ natLe d.reason 1 ++ natLe d.noAnswer 1 ++ natLe 0 2 ++ natLe d.errorSeq 4 ++ natLe deviceId 4 ++ natLe 0 28
    ++ (placeSections 4096 d.units).flatMap d.entry) 4096

/-- The whole dump. -/
def Dump.all (d : Dump) (deviceId : Nat) : Bytes := d.header deviceId ++ d.units.flatMap (fun x => if x.2 = 0 then d.section_ x.1 else [])

/-! ### Reset (01 R25; 17 R389, R395) -/

/-- The flash area that a kind of staged item is written to: 1 image, 2 package record, 3 installer record (16 R383). -/
def Flash.setArea (f : Flash) (kind : Nat) (a : Area) : Flash :=
  match kind with
  | 1 => { f with firmware := a }
  | 2 => { f with package := a }
  | _ => { f with installer := a }

/-- A committed item's write is cut short: its area is torn (16 R382). -/
def tearWrite (s : State) : State :=
  match s.staging with
  | some g =>
    if g.committing && g.written.isNone then { s with flash := s.flash.setArea g.kind { present := true, len := g.length, torn := some s.free }, free := s.free + 1 } else s
  | none => s

/-- What the always-on domain, flash, the pins and the model itself keep. -/
def kept (s : State) : State :=
  { pending := s.pending, build := s.build, now := s.now, pins := s.pins, aon := s.aon, flash := s.flash, wire := s.wire, free := s.free }

/-- The part held in reset. -/
def held (s : State) : State := kept (tearWrite s)

/-- The reset is asserted and released: the next start carries this reason (17 R395). -/
def release (s : State) (reason : Nat) : State :=
  (held s).updAon (fun a => { a with nextReason := reason, ordered := none, dumping := none, noAnswer := [] })

/-- The dump that the sequencer has read: each unit's state, those at or beyond `reached` in its order not reached. -/
def takeDump (s : State) (o : ResetOrder) (reached : Nat) : State :=
  let order := dumpOrder o.first
  let d : Dump := { first := order.headD 0x10, bootEpoch := s.aon.bootEpoch, time := s.ct, reason := o.reason, errorSeq := o.errorSeq
                    units := order.zipIdx.map (fun u => (u.1, if s.aon.noAnswer.contains u.1 then 1 else if reached ≤ u.2 then 2 else 0))
                    bytes := dumpContent s, draw := s.free }
  let s := s.updAon (fun a => { a with dump := some d, dumpHeld := .held, dumpNew := true })
  { s with free := s.free + 1 }

/-- A warm reset begins: freeze, then the dump where one is due and the area is free, else the release (17 R395, R399). -/
def warmReset (s : State) (o : ResetOrder) : State :=
  if s.aon.dumping.isSome then s else
  let s := s.updDev (fun d => { d with clocksStopped := true })
  if o.dump && s.aon.dumpHeld != .held then s.updAon (fun a => { a with ordered := some o, dumping := some s.now, noAnswer := [] })
  else
    let s := if o.dump then s.updAon (fun a => { a with dumpSkipped := a.dump.map (·.bootEpoch) }) else s
    release s o.reason

/-- Orders a device reset, which takes effect within 10 ms; the first order stands (17 R402, R404). -/
def orderReset (s : State) (o : ResetOrder) : State :=
  if s.aon.ordered.isSome || s.aon.dumping.isSome then s else s.updAon (fun a => { a with ordered := some o })

/-- SEQ of the newest error log record. -/
def lastErr (s : State) : Nat := s.aon.errSeq - 1

/-- Cold reset (17 R389): no dump; the error log ring and the dump area are cleared. -/
def coldReset (s : State) (reason : Nat) : State :=
  (release s reason).updAon (fun a => { a with errLog := [], overwritten := 0, dump := none, dumpHeld := .none, dumpNew := false, dumpSkipped := none })

/-! ### Rows of the dump and of ordered resets -/

/-- The dump ends and the reset is released (17 R395, R396). -/
def endDump (s : State) (reached : Nat) : State :=
  match s.aon.ordered with
  | some o => release (takeDump s o reached) o.reason
  | none => s

/-- DUMP_UNIT_TIMEOUT: no first word within 100 µs (17 R396). -/
def execDumpUnitTimeout (t : Nat) (unit : BitVec 8) (s : State) : Host.Outcome State Fault Refusal :=
  timed t s (fun s => s.aon.dumping.any (· + usNs 100 ≤ s.now) && dumpUnits.contains unit.toNat)
    (fun s => s.updAon (fun a => { a with noAnswer := if a.noAnswer.contains unit.toNat then a.noAnswer else a.noAnswer ++ [unit.toNat] }))

/-- DUMP_COMPLETE (17 R395). -/
def execDumpComplete (t : Nat) (s : State) : Host.Outcome State Fault Refusal :=
  timed t s (fun s => s.aon.dumping.isSome) (fun s => endDump s 66)

/-- DUMP_TIMER_EXPIRY: 20 ms after the freeze; how many units have been read is open (17 R396; log entry 35). -/
def execDumpTimerExpiry (t : Nat) (s : State) : Host.Outcome State Fault Refusal :=
  timed t s (fun s => s.aon.dumping.any (· + msNs 20 ≤ s.now)) (fun s => endDump s (Config.dumpProgress s.free))

/-- ORDERED_DEVICE_RESET (17 R404; 16 R365, R381). -/
def execOrderedDeviceReset (t : Nat) (s : State) : Host.Outcome State Fault Refusal :=
  timed t s (fun s => s.aon.ordered.isSome && s.aon.dumping.isNone) (fun s => match s.aon.ordered with
    | some o =>
      let s := if s.dev.mode == .minimal && o.command then s.updAon (fun a => { a with startFailures := 0 }) else s
      warmReset s o
    | none => s)

/-! ### Pins (19 R430, R439, R443; 16 R363) -/

/-- THERMTRIP_N goes high again once RESET_N and PWR_GOOD are both low (19 R439). -/
def Pins.untrip (p : Pins) : Pins := if !p.resetN && !p.pwrGood then { p with thermtripN := true } else p

/-- RESET_N_FALL. -/
def execResetNFall (t : Nat) (s : State) : Host.Outcome State Fault Refusal :=
  timed t s (fun _ => true) (fun s => coldReset { s with pins := { s.pins with resetN := false }.untrip } 1)

/-- PWR_GOOD_FALL. -/
def execPwrGoodFall (t : Nat) (s : State) : Host.Outcome State Fault Refusal :=
  timed t s (fun _ => true) (fun s =>
    let p := { s.pins with pwrGood := false }.untrip
    if s.pins.resetN then coldReset { s with pins := p } 1 else { s with pins := p })

/-- WARM_RST_N is taken: RESET_N, PWR_GOOD and THERMTRIP_N are high (19 R430, R443). -/
def warmPinTaken (s : State) : Bool := s.pins.resetN && s.pins.pwrGood && s.pins.thermtripN

/-- WARM_RST_N_FALL. -/
def execWarmRstNFall (t : Nat) (s : State) : Host.Outcome State Fault Refusal :=
  timed t s warmPinTaken (fun s =>
    let s := { s with pins := { s.pins with warmRstN := false } }
    if s.aon.dumping.isSome || s.dev.mode == .resetting then s else
    let s := logError s 0x45 4 0xFF (natLe 2 1 ++ natLe 1 1)
    warmReset s { reason := 3, dump := true, at_ := s.now, errorSeq := lastErr s })

/-- The highest SEQ of the flash copy of the error log, plus one (17 R385). -/
def flashErrNext (s : State) : Nat := s.flash.errCopy.foldl (fun m r => max m (r.seq + 1)) 0

/-- VDD_AON_LOSS: the always-on domain and the retention SRAM lose their contents (16 R363; 17 R388; 01 R24). -/
def execVddAonLoss (t : Nat) (s : State) : Host.Outcome State Fault Refusal :=
  timed t s (fun _ => true) (fun s =>
    let n := flashErrNext s
    { held (tearState s) with aon := { errSeq := n, vddLost := true, nextReason := 2 }, pins := { s.pins with resetN := false, pwrGood := false, thermtripN := true } })

/-- THERMAL_TRIP (19 R439, R440, R443). -/
def execThermalTrip (t : Nat) (fold : Fin 4) (s : State) : Host.Outcome State Fault Refusal :=
  timed t s (fun s => s.pins.thermtripN) (fun s =>
    let back := s.dev.mode == .starting
    let s := release { s with pins := { s.pins with thermtripN := false } } 1
    s.updAon (fun a => { a with tripFold := fold, tripCount := min 255 (a.tripCount + 1), startFailures := if back then a.startFailures - 1 else a.startFailures }))

end Sys2Proof.Machine
end

