-- ==== Sys2Proof/Machine/Start.lean ====
section
/-!
DEFINITION. Starts: the boot ROM's decisions, bring-up, the ready point, failed starts, and what makes a start fail
(16 R363 to R381; 09 R208, R209; 10 R243; 11 R252; 03 R79; 17 R393).
-/

namespace Sys2Proof.Machine

open Sys2Proof

/-! ### Failed starts (16 R365, R368) -/

/-- A start fails: its record, and a warm reset within 10 ms with reason 0x07. -/
def failStart (s : State) (cause unit : Nat) : State :=
  if s.dev.mode != .starting || s.aon.ordered.isSome then s else
  let s := s.updAon (fun a => { a with lastCause := cause, lastUnit := unit })
  let s := logError s 0x40 4 0xFF (natLe s.startInfo 4)
  orderReset s { reason := 7, dump := false, at_ := s.now, errorSeq := lastErr s }

/-! ### START (16 R363 to R368, R374) -/


/-- The package record of flash is valid. -/
def packageValid (s : State) : Bool := packageVerdict (fun s b => (setFault s b).isNone) s s.flash.package == .good

/-- The firmware image of flash is valid. -/
def imageValid (s : State) : Bool := imageVerdict s (if packageValid s then s.flash.package else {}) s.flash.firmware == .good

/-- The installer record of flash is valid. -/
def installerValid (s : State) : Bool := packageValid s && installerVerdict quadCheck s.flash.package s.flash.installer == .good

/-- The boot ROM's minimal mode decision, its start reason, from BOOT_SRC and the counter as read (16 R366). -/
def minimalReason (s : State) (bootSrc : Bool) (counter : Nat) : Option Nat :=
  if bootSrc then some 0x80
  else if counter ≥ 3 then some 0x82
  else if !imageValid s then some 0x81
  else if !packageValid s then some 0x83
  else none

/-- The always-on domain at a start instant (16 R363): the counter read and incremented where the start counts, BOOT_EPOCH
incremented, and the session generations where standby power was lost (12 R286). -/
def startAon (s : State) (counts : Bool) : State :=
  let mirror := match s.flash.state with | some (p, _) => p.bootEpoch | none => 0
  s.updAon (fun a =>
    let epoch := if a.vddLost then mirror + 1 else a.bootEpoch + 1
    let counter := if a.vddLost then 0 else a.startFailures
    let base := BitVec.ofNat 16 epoch.toNat
    { a with bootEpoch := epoch, startFailures := if counts then counter + 1 else counter
             sessGens := if a.vddLost then [] else a.sessGens
             genBase := if a.vddLost then (if base = 0 then 1 else base) else a.genBase
             vddLost := false, dumpNew := false, dumpSkipped := none })

/-- The layout that a start takes from the persistent state (10 R243; 03 R79). -/
def startLayout (l : Layout) (stripes : Nat) : Layout :=
  match l.f, l.g, l.h with
  | none, _, _ => { l with st := .whole, w := 0 }
  | some _, none, _ => { l with st := .rebuilt, w := stripes, epoch := if l.epoch.toNat < 2 then 2 else l.epoch }
  | some _, some _, none => { l with st := .retired, w := stripes, epoch := if l.epoch.toNat < 3 then 3 else l.epoch }
  | some _, some _, some _ => { l with st := .lost, w := stripes, epoch := if l.epoch.toNat < 3 then 3 else l.epoch }

/-- The states of the stacks that the failed-stack record names (10 R243). -/
def startStacks (s : State) : State :=
  let l := s.layout
  let (a, b) : StackState × StackState := if l.st == .lost then (.lost, .lost) else (.rebuilt, .failedNoSpare)
  let put (s : State) (t : Option Nat) (st : StackState) : State := match t with | some t => setStackState s t st | none => s
  put (put (put s l.f a) l.g b) l.h .lost

/-- The layout of the persistent state takes effect, its epoch raised where 10 R243 raises it; flash holds the raised epoch from
the ready point on, which writes its event (log entry 41); neither copy valid writes STATE_REBUILT (16 R370; 17 R386). -/
def loadLayout (s : State) : State :=
  match s.flash.state with
  | some (p, _) =>
    let l := startLayout p.layout s.stripes
    startStacks ({ s with layout := l }.updDev (fun d => { d with oldEpoch := if l.epoch != p.layout.epoch then some p.layout.epoch else none }))
  | none => logError { s with layout := {} } 0x05 0 0xFF []

/-- The records that a start writes first: START, DUMP_TAKEN, DUMP_SKIPPED; and the alert of reasons 0x05 and 0x06
(17 R386, R395, R403). -/
def startRecords (s : State) (taken : Bool) (skipped : Option (BitVec 32)) : State :=
  let s := logError s 0x01 0 0xFF (natLe s.dev.reason 1 ++ natLe s.aon.startFailures 4)
  let s := match taken, s.aon.dump with
    | true, some d => logError s 0x03 0 0xFF (natLe d.length 4 ++ natLe d.noAnswer 1 ++ natLe d.reason 1)
    | _, _ => s
  let s := match skipped with | some e => logError s 0x04 0 0xFF (natLe e.toNat 4) | none => s
  if s.dev.reason = 5 || s.dev.reason = 6 then setAlert s 1 else s

/-- The quads and required ports that the installer record configures: the quads are released 100 ms after the start
instant, which their training is timed from (11 R252, R254; 16 R364, R373). -/
def configurePorts (s : State) : State :=
  let r := s.dev.installer
  if !r.present then s else
  let s := foldRange 0 16 s (fun s k => if (s.quad k).st = .paired then s
    else (configureQuad s (recordQuad r k)).updQuad k (fun x => { x with since := s.now + msNs 100, configured := s.now + msNs 100 }))
  foldKeys (maskPorts (r.num 13840 8)) s (fun s q => s.updPort q (fun p => { p with required := true }))

/-- The accepted profile copy is valid: 09 R206 holds of its set, and the maker signature of its set verifies under a maker
key of the package record (16 R364, R369). -/
def acceptedValid (s : State) : Bool :=
  (setFault s s.flash.accepted.whole).isNone && (s.keysOf .maker).any (fun k => Config.setSigned k s.flash.accepted.whole s.flash.acceptedSig)

/-- The checks after the minimal mode decision: installer record, accepted profile copy, identity key (16 R364, R374). -/
def bootChecks (s : State) (puf : Bytes) : State :=
  let key := Config.identityOf puf (s.flash.package.at_ 15872 4096)
  let s := s.updDev (fun d => { d with identityKey := key })
  if s.flash.installer.present && !installerValid s then failStart s 1 0xFF
  else if !acceptedValid s then failStart s 2 0xFF
  else if key != s.flash.package.at_ 10592 1952 then failStart s 3 0xFF
  else configurePorts s

/-- The management port's MAC and address: those of a valid installer record, else the defaults (16 R373, R380). -/
def manageAddress (s : State) : BitVec 48 × LocalId :=
  if installerValid s then (BitVec.ofNat 48 (s.flash.installer.num 13848 6 + 64), localIdOf (s.flash.installer.at_ 13856 24))
  else (if packageValid s then BitVec.ofNat 48 (packageMac s.flash.package) else 0x020000000001, { id := 1, ipv6 := false, ip := 0xA9FE0010 })

/-- The role slots as a start finds them: KEYING, at the generation that they last reached where standby power was lost, else
one on, as they leave the state that the reset found them in (12 R286, R287). -/
def startRoleSlots (s : State) (lost : Bool) : State :=
  foldKeys (List.range 64) s (fun s i => if lost then slotWaits s i (genNow s i) else roleSlotWaits s i)

/-- A start instant (16 R363 to R368). A start that enters minimal mode shows a raised layout epoch and writes no flash
(DESIGN CHOICE, log entry 41). The management port's link trains from then on (log entry 114). -/
def bootPart (s : State) (env : StartEnv) : State :=
  let read := if s.aon.vddLost then 0 else s.aon.startFailures
  let minimal := minimalReason s env.bootSrc read
  let reason := minimal.getD (if s.aon.vddLost then 2 else s.aon.nextReason)
  let taken := s.aon.dumpNew
  let skipped := s.aon.dumpSkipped
  let lost := s.aon.vddLost
  let flashed := s.flash.state.map (·.1.layout)
  let was := s
  let s := startAon s (!(minimal == some 0x80 || minimal == some 0x82))
  let s := { s with pins := { s.pins with resetN := true, warmRstN := true, pwrGood := true, bootSrc := env.bootSrc } }
  let s := s.updDev (fun d =>
    { d with mode := if minimal.isSome then .minimal else .starting, reason := reason, startAt := s.now, puf := env.pufSeed
             package := if packageValid s then s.flash.package else {}
             installer := if s.flash.installer.present && installerValid s then s.flash.installer else {}
             image := if imageValid s then s.flash.firmware else {}, profile := s.flash.accepted, idleClose := s.flash.idleClose
             fwVersion := if minimal.isSome then 0 else BitVec.ofNat 32 (s.flash.firmware.num 8 4)
             macBase := BitVec.ofNat 48 (if installerValid s then s.flash.installer.num 13848 6 else packageMac s.flash.package)
             mgmtMac := (manageAddress s).1, mgmtId := (manageAddress s).2 })
  let s := s.updClock (fun c => { c with since := s.now })
  let s := startRecords (loadLayout s) taken skipped
  let s := countAlerts { was with aon := if taken then { was.aon with dumpHeld := .none } else was.aon, stks := s.stks } s
  let s := portTrain s mgmtPort
  if minimal.isSome then s else bootChecks (persistAs (startRoleSlots s lost) (flashed.getD s.layout)) env.pufSeed

/-- START: the part is held in reset, no dump runs, and no thermal trip holds (19 R439). -/
def execStart (t : Nat) (env : StartEnv) (s : State) : Host.Outcome State Fault Refusal :=
  timed t s (fun s => s.dev.mode == .resetting && s.aon.dumping.isNone && s.pins.thermtripN) (bootPart · env)

/-! ### Stack bring-up (09 R208, R209) -/

/-- Stacks that the failed-stack record does not name. -/
def liveStacks (s : State) : List Nat :=
  (List.range 16).filter (fun t => !(s.layout.f == some t || s.layout.g == some t || s.layout.h == some t))

/-- LANE_LIMIT and STACK_LIMIT of a stack. -/
def laneLimit (s : State) (t : Nat) : Nat := s.dev.profile.num (t * s.profileSize + 101) 1
/-- STACK_LIMIT. -/
def stackLimit (s : State) (t : Nat) : Nat := s.dev.profile.num (t * s.profileSize + 102) 1

/-- The DELAY_CHECK records of a stack: its failing lanes, then its total (17 R386). -/
def delayRecords (s : State) (env : BringUpEnv) (t : Nat) : State :=
  let rec_ (lane errors total : Nat) (s : State) : State :=
    logError s 0x41 4 (0x20 + t) (natLe t 1 ++ natLe lane 2 ++ natLe (min errors 255) 1 ++ natLe (min total 65535) 2)
  let s := (env.lanes.filter (fun x => x.1 == t && x.2.2 > laneLimit s t)).foldl (fun s x => rec_ x.2.1 x.2.2 0 s) s
  rec_ 0xFFFF 0 (((env.totals.find? (fun x => x.1 == t)).map (·.2)).getD 0) s

/-- The delay check of a stack fails. -/
def delayFails (s : State) (env : BringUpEnv) (t : Nat) : Bool :=
  env.lanes.any (fun x => x.1 == t && x.2.2 > laneLimit s t) || env.totals.any (fun x => x.1 == t && x.2 > stackLimit s t)

/-- A rail's target in mV: VDDQ_MV, VDDC_MV or VPP_MV of the accepted profile (09 R205). -/
def railTarget (s : State) (t rail : Nat) : Nat := s.dev.profile.num (t * s.profileSize + 112 + 2 * rail) 2

/-- A measured rail lies outside ±3 % of its target (09 R208). -/
def railOut (s : State) (x : Nat × Nat × Nat) : Bool :=
  let target := railTarget s x.1 x.2.1
  100 * x.2.2 < 97 * target || 103 * target < 100 * x.2.2

/-- The rails that a bring-up finds out of target, in stack order. -/
def badRails (s : State) (env : BringUpEnv) : List (Nat × Nat × Nat) :=
  (List.range 16).flatMap (fun t => (List.range 3).flatMap (fun r => env.rails.filter (fun x => x.1 == t && x.2.1 == r && railOut s x)))

/-- The RAIL record of a rail out of target (17 R386). -/
def railRecord (s : State) (x : Nat × Nat × Nat) : State := logError s 0x42 4 (0x20 + x.1) (natLe x.1 1 ++ natLe x.2.1 1 ++ natLe x.2.2 2)

/-- The end of bring-up: rails out of target, a failed delay check, or every live stack in service and filled with zeros. -/
def bringUp (s : State) (env : BringUpEnv) : State :=
  match badRails s env with
  | x :: r => failStart ((x :: r).foldl railRecord s) 4 x.1
  | [] => match (liveStacks s).filter (delayFails s env) with
    | t :: r => failStart ((t :: r).foldl (delayRecords · env) s) 5 t
    | [] =>
      let s := foldKeys (liveStacks s) { s with pool := [], lines := [] } (fun s t =>
        s.updStack t (fun x => { x with st := .serving, inService := true, owed := [], lastTick := (List.range s.pcs).map (fun i => (i, s.now)) }))
      s.updDev (fun d => { d with stacksReady := true })

/-- When the stacks are in service at the earliest, from the start instant (16 R364; 09 R208). -/
def bringUpNs (s : State) : Nat := match s.build with | .h4 => 392100000 | .h3 => 366900000

/-- STACK_BRING_UP_DONE. -/
def execStackBringUpDone (t : Nat) (env : BringUpEnv) (s : State) : Host.Outcome State Fault Refusal :=
  ticking t s (fun s => s.dev.mode == .starting && !s.dev.stacksReady && s.aon.ordered.isNone
      && s.dev.startAt + (if !(badRails s env).isEmpty then msNs 100 else if (liveStacks s).any (delayFails s env) then msNs 325 else bringUpNs s) ≤ s.now)
    (bringUp · env)

/-! ### The ready point (16 R365) -/

/-- A required port is UP or RELIABLE. -/
def portReady (p : Port) : Bool := p.link == .up || p.link == .reliable

/-- Appends the records that flash does not hold yet to its ring of 8,192 (17 R387). -/
def copyErrors (s : State) : State :=
  let n := flashErrNext s
  s.updFlash (fun f =>
    let l := f.errCopy ++ s.aon.errLog.filter (fun r => n ≤ r.seq)
    { f with errCopy := l.drop (l.length - 8192) })

/-- LAYOUT_EPOCH for an epoch that the start raised (03 R79), and the persistent state with it. Of a start that leaves the layout
Lost, for which 03 R79 gives no DATA[2], the event is that of Retired: 0x02, and OBJ_ID g (DESIGN CHOICE, log entry 102). -/
def startEpochEvent (s : State) : State :=
  match s.dev.oldEpoch with
  | none => s
  | some old =>
    let l := s.layout
    let retired := l.st == .retired || l.st == .lost
    let d := natLe l.epoch.toNat 1 ++ natLe old.toNat 1 ++ natLe (if retired then 2 else 1) 1 ++ natLe (stackByte l.f) 1 ++ natLe (stackByte l.g) 1
    postEvent (persist (s.updDev (fun d => { d with oldEpoch := none }))) 0 0xB 7 ((if retired then l.g else l.f).getD 0) d

/-- The part is in service. -/
def readyPoint (s : State) : State :=
  let s := s.updAon (fun a => { a with startFailures := 0 })
  let s := s.updDev (fun d => { d with mode := .inService, persisting := none })
  let s := logError s 0x02 0 0xFF (natLe ((s.now - s.dev.startAt) / 1000000) 4)
  copyErrors (startEpochEvent s)

/-- Every stack that the failed-stack record does not name is in service: brought up, and none fenced since (16 R365). -/
def stacksUp (s : State) : Bool := s.dev.stacksReady && s.stks.all (fun e => e.2.st != .fenced)

/-- READY_POINT (16 R365). -/
def execReadyPoint (t : Nat) (s : State) : Host.Outcome State Fault Refusal :=
  ticking t s (fun s => s.dev.mode == .starting && stacksUp s && s.aon.ordered.isNone && s.ports.all (fun e => !e.2.required || portReady e.2)) readyPoint

/-! ### What makes a start fail (16 R365, R368) -/

/-- START_LIMIT_EXPIRY: 4 s. -/
def execStartLimitExpiry (t : Nat) (s : State) : Host.Outcome State Fault Refusal :=
  ticking t s (fun s => s.dev.mode == .starting && s.dev.startAt + secNs 4 ≤ s.now) (fun s => failStart s 9 0xFF)

/-- A quad's required ports that are not trained. -/
def lateRequired (s : State) (k : Nat) : List Nat := (rangeFrom (4 * k) 4).filter (fun q => (s.port q).required && !(s.port q).carries)

/-- TRAIN_LIMIT has passed for a quad: 2 s after its configuration while it trains, or 2 s after the release of the ports at a
start whose required ports are not trained, whatever the quad's state (11 R252, R254). -/
def trainLimitPassed (s : State) (k : Nat) : Bool :=
  ((s.quad k).st == .training && (s.quad k).configured + secNs 2 ≤ s.now)
    || (s.dev.mode == .starting && s.dev.startAt + msNs 2100 ≤ s.now && !(lateRequired s k).isEmpty)

/-- TRAIN_LIMIT_EXPIRY: a training quad goes ACTIVE, and a required port that is not trained fails a start (11 R252, R254). -/
def execTrainLimitExpiry (t : Nat) (k : Fin 16) (s : State) : Host.Outcome State Fault Refusal :=
  timed t s (fun s => s.clocked && trainLimitPassed s k) (fun s =>
    let late := lateRequired s k
    let s := if (s.quad k).st = .training then setQuad s k .active else s
    match late with
    | q :: _ => failStart s 6 q
    | [] => s)

/-- NEGOTIATION_TIMEOUT: 0.5 s in NEGOTIATING without agreement (11 R255); a required port that insists fails a start. -/
def execNegotiationTimeout (t : Nat) (q : Fin 64) (s : State) : Host.Outcome State Fault Refusal :=
  ticking t s (fun s => (s.port q).link == .negotiating && !(s.port q).agrees && !(s.port q).refusalReported && (s.port q).since + msNs 500 ≤ s.now)
    (fun s =>
      let s := refuseNegotiation s q
      if (s.port q).relMode = 2 && (s.port q).required then failStart s 7 q else s)

/-- The shepherd stops: HEARTBEAT, and a device reset with reason 0x05; before the ready point it is a failed start of cause 0x08
too, and the next start carries reason 0x07 as after every failed start (17 R393, R395; 16 R365; log entry 74). -/
def shepherdLost (s : State) : State :=
  let starting := s.dev.mode == .starting
  let s := if starting then
      let s := s.updAon (fun a => { a with lastCause := 8, lastUnit := 0xFF })
      logError s 0x40 4 0xFF (natLe s.startInfo 4)
    else s
  let s := logError s 0x43 4 0x90 (natLe 50 4)
  warmReset s { reason := if starting then 7 else 5, dump := true, first := 0x90, at_ := s.now, errorSeq := lastErr s }

/-- An engine reset has lasted 5 ms: ESCALATION, and a device reset with reason 0x06 (17 R394). -/
def escalate (s : State) (p : Nat) (r : EngineReset) : State :=
  let s := logError s 0x44 4 (0x10 + p) (natLe p 1 ++ natLe r.cause 1 ++ natLe ((s.now - r.since) / 1000) 4)
  warmReset s { reason := 6, dump := true, first := 0x10 + p, at_ := s.now, errorSeq := lastErr s }

/-- The engine reset that reaches its 5 ms at this instant. -/
def escalates (s : State) : Option (Nat × EngineReset) :=
  if firmwareRuns s then (List.range 16).findSome? (fun p => ((s.engine p).reset.filter (fun r => r.since + msNs 5 == s.now)).map (fun r => (p, r))) else none

/-- HEARTBEAT_EXPIRY; an escalation at the same instant goes first, and the reset is its own (17 R402). -/
def execHeartbeatExpiry (t : Nat) (s : State) : Host.Outcome State Fault Refusal :=
  timed t s (fun s => s.dev.mode != .resetting) (fun s => match escalates s with
    | some (p, r) => escalate s p r
    | none => shepherdLost s)

end Sys2Proof.Machine
end

