-- ==== Sys2Proof/Machine/Faults.lean ====
section
/-!
DEFINITION. Faults: hang detection, escalation, array errors, lost reference clocks, and the commands of 17 R404
(17 R387 to R394, R402 to R405; 04 R102; 19 R435).
-/

namespace Sys2Proof.Machine

open Sys2Proof

/-! ### The error log, the dump and the alerts (17 R387, R399, R403, R404) -/

/-- ERROR_LOG_READ. -/
def cmdErrorLogRead : Cmd where
  op := 0x0B10
  issuers := anyRole
  minimal := true
  blocked := neverBlocked
  query := true
  body := fun q s =>
    let n := q.arg 28 2
    match q.firstBad [(20, 1), (24, 6)] [(20, q.arg 20 1 > 1), (28, !(1 ≤ n && n ≤ 160))] with
    | some b => badAt b
    | none =>
      let log := if q.arg 20 1 = 0 then s.aon.errLog else s.flash.errCopy
      let rs := (log.filter (fun r => q.arg 24 4 ≤ r.seq)).take n
      let rs := rs.take (q.room / 128)
      .done s (natLe rs.length 4 ++ natLe ((log.head?.map (·.seq)).getD 0) 4 ++ natLe ((log.getLast?.map (·.seq)).getD 0) 4) (rs.flatMap (·.bytes))

/-- ERROR_LOG_READ. -/
def execErrorLogRead (m : Fin 1029) (s : State) : Host.Outcome State Fault Refusal := serve m cmdErrorLogRead s

/-- DUMP_READ. -/
def cmdDumpRead : Cmd where
  op := 0x0B11
  issuers := fun p => operatorOnly p || makerOnly p
  minimal := true
  blocked := neverBlocked
  query := true
  body := fun q s =>
    match q.firstBad [(20, 1), (24, 4)] [(20, q.arg 20 1 > 1)] with
    | some b => badAt b
    | none => match (if q.arg 20 1 = 0 then s.aon.dump else s.flash.dumpCopy) with
      | none => badState 0x0A 0
      | some d =>
        if q.arg 24 4 > d.length then badAt 24
        else .done s (natLe d.length 4) (((d.all s.deviceId).drop (q.arg 24 4)).take (min q.room 20480))

/-- DUMP_READ. -/
def execDumpRead (m : Fin 1029) (s : State) : Host.Outcome State Fault Refusal := serve m cmdDumpRead s

/-- The code of the dump area's state. -/
def DumpHeld.code : DumpHeld → Nat
  | .none => 0 | .held => 1 | .copied => 2

/-- FAULT_STATUS. -/
def cmdFaultStatus : Cmd where
  op := 0x0B12
  issuers := anyRole
  minimal := true
  blocked := neverBlocked
  query := true
  body := fun q s => match q.firstBad [] [] with
    | some b => badAt b
    | none =>
      .done s (natLe (lastErr s) 4 ++ natLe s.dev.suppressedTotal 4 ++ natLe s.aon.overwritten 4 ++ natLe s.alertStatus 1 ++ natLe s.aon.dumpHeld.code 1
        ++ natLe ((s.aon.dump.map (·.noAnswer)).getD 0) 1 ++ natLe 0 1 ++ natLe ((s.aon.dump.map (·.bootEpoch.toNat)).getD 0) 4) []

/-- FAULT_STATUS. -/
def execFaultStatus (m : Fin 1029) (s : State) : Host.Outcome State Fault Refusal := serve m cmdFaultStatus s

/-- ALERT_CLEAR. -/
def cmdAlertClear : Cmd where
  op := 0x0B13
  issuers := operatorOnly
  changes := always
  blocked := neverBlocked
  body := fun q s =>
    let k := q.arg 20 1
    match q.firstBad [(20, 1)] [] with
    | some b => badAt b
    | none => .done (s.updDev (fun d => { d with alert0 := w1c d.alert0 (bit k 0) false, alert1 := w1c d.alert1 (bit k 1) false })) [] []

/-- ALERT_CLEAR. -/
def execAlertClear (m : Fin 1029) (s : State) : Host.Outcome State Fault Refusal := serve m cmdAlertClear s

/-- The dump's bytes go into crash staging (03 R67; 17 R399). -/
def stageDump (s : State) : State :=
  match s.aon.dump with
  | some d => (writeData s demand (crashBase s) (d.all s.deviceId)).2
  | none => s

/-- DUMP_COPY_DONE: through crash staging to flash (17 R399). -/
def execDumpCopyDone (t : Nat) (s : State) : Host.Outcome State Fault Refusal :=
  timed t s (fun s => firmwareRuns s && stacksClocked s && s.aon.dumpHeld == .held)
    (fun s =>
      let w := stageDump s
      { w with flash := { s.flash with dumpCopy := s.aon.dump }, aon := { w.aon with dumpHeld := .copied } })

/-! ### Engine resets (17 R388, R390, R392, R394, R402) -/

/-- ENGINE_RESET. -/
def cmdEngineReset : Cmd where
  op := 0x0B14
  issuers := operatorOnly
  changes := always
  obj := fun q => (0x08, q.arg 20 1)
  body := fun q s => match q.firstBad [(20, 1)] [(20, q.arg 20 1 > 15)] with
    | some b => badAt b
    | none => .pend (beginEngineReset s (q.arg 20 1) 3 0xFFFF 0xFF) []

/-- ENGINE_RESET. -/
def execEngineReset (m : Fin 1029) (s : State) : Host.Outcome State Fault Refusal := serve m cmdEngineReset s

/-- WATCHDOG_SET. -/
def cmdWatchdogSet : Cmd where
  op := 0x0B16
  issuers := operatorOnly
  changes := always
  body := fun q s =>
    let us := q.arg 20 4
    match q.firstBad [(20, 4)] [(20, !(100 ≤ us && us ≤ 100000))] with
    | some b => badAt b
    | none => .pend (stage s (.watchdog us) (some q.owes)) []

/-- WATCHDOG_SET. -/
def execWatchdogSet (m : Fin 1029) (s : State) : Host.Outcome State Fault Refusal := serve m cmdWatchdogSet s

/-- The sequencer's last issue, or the instant of the WAIT_TIME that held it, is a watchdog period ago, and nothing pauses
the count (17 R392; 04 R95; 07 R188). -/
def watchdogDue (s : State) (p : Nat) : Bool :=
  let e := s.engine p
  let us := usNs s.dev.watchdogUs
  match runningOn s p with
  | none => false
  | some (_, g) =>
    let instants := (bundleOps e.bundle).filterMap (fun o => if !e.halted && o.op == .waitTime && o.enabled e then currentInstant e g p o.x.x else none)
    e.reset.isNone && !(e.halted && e.idle) && e.lastIssue + us ≤ s.now && instants.all (fun i => i + us ≤ s.ctOf p) && !pagePaused s p

/-- PROGRESS_WATCHDOG_EXPIRY. -/
def execProgressWatchdogExpiry (t : Nat) (p : Fin 16) (s : State) : Host.Outcome State Fault Refusal :=
  timed t s (fun s => s.clocked && watchdogDue s p) (fun s => beginEngineReset s p 1 0xFFFF 0xFF)

/-- FAULTED_ENGINE_NOT_IDLE: 5 ms after its fault (04 R102; 17 R388). -/
def execFaultedEngineNotIdle (t : Nat) (p : Fin 16) (s : State) : Host.Outcome State Fault Refusal :=
  timed t s (fun s => s.clocked && (s.engine p).fault.any (fun f => f.time + msNs 5 ≤ s.now) && !(s.engine p).idle && (s.engine p).reset.isNone)
    (fun s => beginEngineReset s p 5 0xFFFF 0xFF)

/-- ESCALATION (17 R394). -/
def execEscalation (t : Nat) (p : Fin 16) (s : State) : Host.Outcome State Fault Refusal :=
  timed t s (fun s => firmwareRuns s && (s.engine p).reset.any (fun r => r.since + msNs 5 ≤ s.now)) (fun s => match (s.engine p).reset with
    | some r => escalate s p r
    | none => s)

/-! ### DEVICE_RESET (17 R404, R405) -/

/-- DEVICE_RESET. -/
def cmdDeviceReset : Cmd where
  op := 0x0B15
  issuers := operatorOnly
  minimal := true
  changes := always
  body := fun q s =>
    let d := q.arg 20 1
    match q.firstBad [(20, 1)] [(20, d > 1)] with
    | some b => badAt b
    | none =>
      let s := logError s 0x45 4 0xFF (natLe 1 1 ++ natLe d 1)
      .done (orderReset s { reason := 4, dump := d = 1, at_ := s.now, errorSeq := lastErr s, command := true }) [] []

/-- DEVICE_RESET. -/
def execDeviceReset (m : Fin 1029) (s : State) : Host.Outcome State Fault Refusal := serve m cmdDeviceReset s

/-! ### Array errors (17 R388, R402) -/

/-- The array code of 17 R388. -/
def arrayCode : ArrayKind → Nat
  | .paddockStore => 1 | .queryRows => 2 | .vectorRegisters => 3 | .accumulator => 4 | .instructionMemory => 5
  | .replayBuffer => 6 | .ingressBuffer => 7 | .tallyEntry => 8 | .tallyTransaction => 9 | .shepherdSram => 0xA

/-- An ARRAY_UE record. -/
def logArray (s : State) (k : ArrayKind) (cls unit word : Nat) : State :=
  logError s 0x21 cls unit (natLe (arrayCode k) 1 ++ natLe word 4 ++ [Config.arrayAction (arrayCode k)])

/-- An array of an engine: the engine is reset, where it is not being reset already. -/
def engineArray (s : State) (k : ArrayKind) (p word : Nat) : State :=
  beginEngineReset (logArray s k 3 (0x10 + p) word) p 4 0xFFFF (arrayCode k)

/-- The frame that an ingress buffer word belongs to, by its place among the port's frames, is discarded and counted. -/
def ingressArray (s : State) (q word : Nat) : State :=
  match (s.port q).rx[word]? with
  | some x =>
    let s := releaseIngress (s.updPort q (fun p => { p with rx := p.rx.eraseIdx word })) q x.frame
    tally s .ingressUe
  | none => s

/-- The request of a tally transaction is answered FAULT, and the requester's entry dropped. -/
def faultTxn (s : State) (t : Txn) : State :=
  let s := match t.kind with
    | .read id | .write id =>
      let s := updNc s id (fun r => { r with lines := r.lines.erase t.line, failed := if r.failed = 0 then stFault else r.failed, failedAt := (r.part t.va).1 })
      (match s.ncReqs.find? (fun r => r.id == id) with
        | some r => if r.lines.isEmpty then ncFinish s r else s
        | none => s)
    | _ => dropEntries (answerAgent s t.request stFault 0 []) t.agent t.line
  serveQueued (closeTxn s t.line)

/-- The agent that an entry of a tally slice belongs to, by the entry's number: 8,192 entries for each remote ID, then 4,096 for each
paddock ID (14 R328; the order of the banks is the model's, log entry 36). -/
def entryAgent (word : Nat) : Nat := if word < 524288 then word / 8192 else 64 + (word - 524288) / 4096

/-- The outcome of an uncorrectable array word. `unit` is the paddock, quad, port or slice, and `word` the array word; the tally's
transactions are counted as the model lists them (log entry 36). An entry declares its agent dead whether it is valid or not
(14 R328). -/
def arrayError (s : State) (k : ArrayKind) (unit word : Nat) : State :=
  match k with
  | .paddockStore | .queryRows | .vectorRegisters | .accumulator | .instructionMemory => engineArray s k (unit % 16) word
  | .replayBuffer =>
    let u := unit % 16
    logQuadReset (quadReset (logArray s k 3 (0x30 + u) word) u) u 2
  | .ingressBuffer => ingressArray (logArray s k 2 (0x30 + unit % 64 / 4) word) (unit % 64) word
  | .tallyEntry =>
    declareDead (logArray s k 3 (0x40 + unit % 4) word) (entryAgent word) 5
  | .tallyTransaction =>
    let s := logArray s k 2 (0x40 + unit % 4) word
    (match (s.txns.filter (fun t => sliceOfVa t.va == unit % 4))[word]? with
      | some t => faultTxn s t
      | none => s)
  | .shepherdSram => shepherdLost (logArray s k 3 0x90 word)

/-- ARRAY_UE. -/
def execArrayUe (t : Nat) (array : ArrayKind) (unit : Nat) (word : Nat) (s : State) : Host.Outcome State Fault Refusal :=
  timed t s (fun s => s.clocked) (fun s => arrayError s array unit word)

/-! ### Reference clocks (19 R435) -/

/-- REFCLK_ETH_LOSS: the ports of quads 2k and 2k + 1 lose lock. -/
def execRefclkEthLoss (t : Nat) (k : Fin 8) (s : State) : Host.Outcome State Fault Refusal :=
  timed t s (fun s => s.clocked) (fun s => foldRange (8 * k) 8 s (fun s q =>
    if (s.port q).carries && (s.port q).lockLost.isNone then s.updPort q (fun p => { p with lockLost := some (s.now + p.lossTime) }) else s))

/-- REFCLK_MEM_LOSS: the fold's stack controllers stop, and the firmware, which does not run in minimal mode, orders a device
reset with dump (19 R435; 16 R380). -/
def execRefclkMemLoss (t : Nat) (fold : Fin 4) (s : State) : Host.Outcome State Fault Refusal :=
  timed t s (fun s => s.clocked) (fun s =>
    let s := foldRange (4 * fold) 4 s (fun s k => s.updStack k (fun x => { x with clocked := false }))
    if s.dev.mode == .minimal then s else orderReset s { reason := 4, dump := true, at_ := s.now, errorSeq := lastErr s })

/-- REFCLK_SYS_LOSS: the folds and the shepherd stop. -/
def execRefclkSysLoss (t : Nat) (s : State) : Host.Outcome State Fault Refusal :=
  timed t s (fun s => s.clocked) (fun s => s.updDev (fun d => { d with clocksStopped := true }))

end Sys2Proof.Machine
end

