-- ==== Sys2Proof/Machine/Roce.lean ====
section
/-!
DEFINITION. RoCEv2 packets at the part: the responder, mailbox messages, the requester of SENDs, and congestion notification
(12 R301 to R304; 02 R33; 13 R310, R311, R314).
-/

namespace Sys2Proof.Machine

open Sys2Proof

/-- The RoCEv2 packet of a frame. -/
def roceOf (f : Frame) : Option Roce := match f.body with | .roce r => some r | _ => none

/-- A request packet under judgement: port, queue pair, packet, DSCP. -/
structure RoceIn where
  q : Nat
  n : Nat
  r : Roce
  dscp : BitVec 6

/-- A packet discarded and counted. -/
def roceDrop (s : State) : State := tally s .roceDiscard

/-- A packet marked CE asks for a CNP to its source, at most one per CNP_INTERVAL (12 R304). -/
def sendCnp (s : State) (n : Nat) (ce : Bool) : State :=
  let x := s.qp n
  if !ce || x.lastCnpSent.any (fun t => s.now < t + s.dev.cnpInterval) then s
  else sendRoce (s.updQp n (fun x => { x with lastCnpSent := some s.now })) n { op := .cnp }

/-! ### Sequence (12 R301) -/

/-- Where a PSN stands: expected, duplicate, or ahead. -/
inductive PsnAt where
  | expected | duplicate | ahead
deriving DecidableEq, Repr

/-- The place of a PSN at the responder: the 2^23 values before the expected one are duplicates. -/
def psnAt (x : Qp) (psn : BitVec 24) : PsnAt :=
  if psn = x.expectedPsn then .expected else if (x.expectedPsn - psn).toNat ≤ 2 ^ 23 then .duplicate else .ahead

/-- A packet ahead of the expected one: one NAK for a sequence error until the expected one comes. -/
def roceAhead (s : State) (n : Nat) : State :=
  let x := s.qp n
  if x.nakOut then s else roceNak (s.updQp n (fun x => { x with nakOut := true })) n x.expectedPsn .nakSequence

/-- The expected packet is taken: `k` PSNs are used. -/
def takePsn (s : State) (n k : Nat) : State := s.updQp n (fun x => { x with expectedPsn := x.expectedPsn + BitVec.ofNat 24 k, nakOut := false })

/-- A NAK that ends a message. -/
def roceFail (s : State) (i : RoceIn) (y : Syndrome) : State := roceNak (s.updQp i.n (fun x => { x with write := none, recv := none })) i.n i.r.psn y

/-- The RNR NAK of 12 R302: timer code 1. -/
def rnrNak (s : State) (i : RoceIn) : State := roceNak s i.n i.r.psn (.rnrNak 1)

/-- Meters judge a request of a queue pair (12 R302; 13 R311, R314): what passes goes on. -/
def roceMetered (s : State) (i : RoceIn) (isWrite : Bool) (bytes : Nat) (act : State → State) : State :=
  let c := (s.qp i.n).ctx
  let m := meterRequest s none c i.dscp isWrite bytes
  if m.colour != .red then act m.s
  else if m.throttle then rnrNak (match c with | some c => bump m.s .context c 7 1 | none => m.s) i
  else roceDrop m.s

/-- A queue pair waits for its coherent request: the next packet of its flow stays where it is. -/
def qpWaits (s : State) (n : Nat) : Bool := s.ncReqs.any (fun r => match r.owner with | .roce _ k _ => k == n | _ => false)

/-- A row of request packets: those of ready queue pairs are judged by PSN; others are discarded and counted. `fresh` acts on
the expected packet, `again` on a duplicate, `early` on one ahead. -/
def onRoce (s : State) (q : Nat) (op : Roce → Bool) (fresh again : State → RoceIn → State)
    (early : State → RoceIn → State := fun s i => roceAhead s i.n) : Host.Outcome State Fault Refusal :=
  onFrame s q (fun f => (roceOf f).any (fun r => op r && !qpWaits s r.destQp.toNat))
    (fun s x => match roceOf x.frame with
      | none => s
      | some r =>
        let n := r.destQp.toNat
        if n ≥ qpMax || (s.qp n).st != .ready then roceDrop s else
        let s := sendCnp s n x.frame.ce
        let i : RoceIn := { q := q, n := n, r := r, dscp := x.frame.dscp }
        match psnAt (s.qp n) r.psn with
        | .expected => fresh s i
        | .duplicate => again s i
        | .ahead => early s i)

/-- A duplicate WRITE or SEND packet is acknowledged and not executed. -/
def ackAgain (s : State) (i : RoceIn) : State := roceAck s i.n ((s.qp i.n).expectedPsn - 1)

/-! ### RDMA WRITE (12 R301, R302) -/

/-- Longest RDMA message. -/
def rdmaMax : Nat := 2 ^ 31

/-- What a packet's access to the pool came to, where it went to no home: a status; none where the home answers. -/
def roceWrite (s : State) (i : RoceIn) (va : Nat) (b : Bytes) (atomic : Option Nat) : Option (Nat × Bytes) × State :=
  let n := if atomic.isSome then 8 else b.length
  match (s.qp i.n).ctx with
  | none => (some (stDenied, []), s)
  | some c => match segCheck s c va n ((if atomic.isSome then needAtomic else needWrite) ||| needFabric) with
    | .no st => (some (st, []), countRefusal s c st)
    | .ok ps _ g =>
      if g.coherent then
        (none, ncStart s { id := 0, ctx := c, owner := .roce i.q i.n i.r, isWrite := true, va := va, len := n, lines := [], data := b, atomic := atomic } ps)
      else if accessHeld s true ps then (none, s)
      else match atomic with
        | none =>
          let (ok, s) := writePieces s demand ps b
          (some (if ok then stOk else stMedia, []), countServed s c true false n (if ok then stOk else stMedia))
        | some sub => match readPieces s demand ps with
          | (some old, s) =>
            let (ok, s) := writePieces s demand ps (atomicBytes sub b old)
            (some (if ok then stOk else stMedia, old), countServed s c true true n (if ok then stOk else stMedia))
          | (none, s) => (some (stMedia, []), countServed s c true true n stMedia)

/-- One packet of an RDMA WRITE: its payload at `va`, and the message's state after it. A message of no bytes accesses
nothing. -/
def writePacket (s : State) (i : RoceIn) (va : Nat) (next : Option (Nat × Nat)) : State :=
  let b := i.r.payload
  roceMetered s i true b.length (fun s =>
    if b.isEmpty then roceAck (takePsn (s.updQp i.n (fun x => { x with write := next })) i.n 1) i.n i.r.psn else
    match roceWrite s i va b none with
    | (none, s) => takePsn (s.updQp i.n (fun x => { x with write := next })) i.n 1
    | (some (st, _), s) =>
      if st = stOk then roceAck (takePsn (s.updQp i.n (fun x => { x with write := next })) i.n 1) i.n i.r.psn else roceFail s i (nakOf st))

/-- A WRITE First or Only: its message begins, with `n` bytes in this packet where the message has more. -/
def writeBegin (s : State) (i : RoceIn) (only : Bool) : State :=
  let x := s.qp i.n
  let b := i.r.payload.length
  if x.mailbox || x.write.isSome || i.r.dmaLen > rdmaMax || !(if only then b == i.r.dmaLen && b ≤ x.mtu else b == x.mtu && b < i.r.dmaLen) then roceFail s i .nakInvalidRequest
  else if i.r.rkey != x.rkey then roceFail s i .nakRemoteAccess
  else writePacket s i i.r.va (if only then none else some (i.r.va + b, i.r.dmaLen - b))

/-- A WRITE Middle or Last: its message goes on or ends. -/
def writeGoesOn (s : State) (i : RoceIn) (last : Bool) : State :=
  let x := s.qp i.n
  let b := i.r.payload.length
  match x.write with
  | none => roceFail s i .nakInvalidRequest
  | some (va, left) =>
    if !(if last then b == left && 1 ≤ b && b ≤ x.mtu else b == x.mtu && b < left) then roceFail s i .nakInvalidRequest
    else writePacket s i va (if last then none else some (va + b, left - b))

/-- RDMA_WRITE_FIRST. -/
def execRdmaWriteFirst (q : Fin 64) (s : State) : Host.Outcome State Fault Refusal := onRoce s q (fun r => r.op == .writeFirst) (writeBegin · · false) ackAgain
/-- RDMA_WRITE_MIDDLE. -/
def execRdmaWriteMiddle (q : Fin 64) (s : State) : Host.Outcome State Fault Refusal := onRoce s q (fun r => r.op == .writeMiddle) (writeGoesOn · · false) ackAgain
/-- RDMA_WRITE_LAST. -/
def execRdmaWriteLast (q : Fin 64) (s : State) : Host.Outcome State Fault Refusal := onRoce s q (fun r => r.op == .writeLast) (writeGoesOn · · true) ackAgain
/-- RDMA_WRITE_ONLY. -/
def execRdmaWriteOnly (q : Fin 64) (s : State) : Host.Outcome State Fault Refusal := onRoce s q (fun r => r.op == .writeOnly) (writeBegin · · true) ackAgain

/-! ### RDMA READ -/

/-- The bytes of a read up to its first failing line, and where that line begins in the range. -/
def readUpTo (g : Got) (len : Nat) : Bytes × Nat :=
  let b := g.parts.foldl (fun (acc : Bytes) x => if x.1 = acc.length then acc ++ x.2 else acc) []
  (b, min b.length len)

/-- Executes a READ: checked, read and answered. -/
def readAnswered (s : State) (i : RoceIn) : State :=
  let x := s.qp i.n
  match x.ctx with
  | none => roceFail s i .nakRemoteAccess
  | some c => match segCheck s c i.r.va i.r.dmaLen (needRead ||| needFabric) with
    | .no st => roceFail (countRefusal s c st) i (nakOf st)
    | .ok ps _ g =>
      if g.coherent then ncStart s { id := 0, ctx := c, owner := .roce i.q i.n i.r, isWrite := false, va := i.r.va, len := i.r.dmaLen, lines := [] } ps else
      if accessHeld s false ps then s else
      let (g, s) := readPortions s demand 0 (ps.flatMap (fun p => linePortions p.1 p.2))
      let (b, at_) := readUpTo g i.r.dmaLen
      answerRead (countServed s c false false i.r.dmaLen g.status) i.n i.r b g.status at_

/-- A READ Request: `move` takes its PSNs where it is the expected packet. -/
def readPacket (s : State) (i : RoceIn) (move : Bool) : State :=
  let x := s.qp i.n
  if x.mailbox || x.write.isSome || i.r.dmaLen > rdmaMax || !i.r.payload.isEmpty then roceFail s i .nakInvalidRequest
  else roceMetered s i false i.r.dmaLen (fun s =>
    let took (s : State) : State := if move then takePsn s i.n (readPackets x i.r.dmaLen) else s
    if i.r.rkey != x.rkey then roceFail s i .nakRemoteAccess
    else if i.r.dmaLen = 0 then answerRead (took s) i.n i.r [] 0 0
    else readAnswered (took s) i)

/-- RDMA_READ_REQUEST: a duplicate is executed again. -/
def execRdmaReadRequest (q : Fin 64) (s : State) : Host.Outcome State Fault Refusal :=
  onRoce s q (fun r => r.op == .readRequest) (readPacket · · true) (readPacket · · false)

/-! ### Atomics -/

/-- An atomic operation under SUBOP `sub` of 12 R278 with its operands. -/
def atomicPacket (s : State) (i : RoceIn) (sub : Nat) (operands : Bytes) : State :=
  let x := s.qp i.n
  if x.mailbox || x.write.isSome || !i.r.payload.isEmpty then roceFail s i .nakInvalidRequest
  else roceMetered s i true 8 (fun s =>
    if i.r.rkey != x.rkey || i.r.va % 8 != 0 then roceFail s i .nakRemoteAccess else
    match roceWrite s i i.r.va operands (some sub) with
    | (none, s) => takePsn s i.n 1
    | (some (st, old), s) => if st = stOk then answerAtomic (takePsn s i.n 1) i.n i.r old st else roceFail s i (nakOf st))

/-- A duplicate atomic is answered from the results kept; with none kept it is discarded. -/
def atomicAgain (s : State) (i : RoceIn) : State :=
  match (s.qp i.n).atomics.find? (fun a => a.1 == i.r.psn) with
  | some a => sendRoce s i.n { op := .atomicAck, psn := i.r.psn, swapAdd := a.2 }
  | none => roceDrop s

/-- COMPARE_SWAP. -/
def execCompareSwap (q : Fin 64) (s : State) : Host.Outcome State Fault Refusal :=
  onRoce s q (fun r => r.op == .compareSwap) (fun s i => atomicPacket s i 1 (natLe i.r.compare.toNat 8 ++ natLe i.r.swapAdd.toNat 8)) atomicAgain
/-- FETCH_ADD. -/
def execFetchAdd (q : Fin 64) (s : State) : Host.Outcome State Fault Refusal :=
  onRoce s q (fun r => r.op == .fetchAdd) (fun s i => atomicPacket s i 0 (natLe i.r.swapAdd.toNat 8)) atomicAgain

/-! ### SEND on mailbox queue pairs (12 R303; 02 R33) -/

/-- The longest message: a slot and its extended arguments. -/
def sendMax : Nat := 64 + xbufLen

/-- The response SEND to a message of the wrong length (02 R33): no ring slot is used for it, and its INDEX is 0xFFFF. DESIGN CHOICE: its
DETAIL is 0, where 02 R37 would name the faulty byte of a slot (log entry 118). -/
def lengthAnswer (b : Bytes) : Bytes := padTo (natLe stBadArg 2 ++ natLe (field b 2 2) 2 ++ natLe 0xFFFF 2 ++ natLe 0 2) 64

/-- A whole message arrives. -/
def messageDone (s : State) (i : RoceIn) (b : Bytes) : State :=
  let took (s : State) : State := roceAck (takePsn (s.updQp i.n (fun x => { x with recv := none })) i.n 1) i.n i.r.psn
  if !mailLenOk b then queueSend (took s) i.n (lengthAnswer b) none else
  match (s.qp i.n).ctx with
  | none => roceFail s i .nakRemoteAccess
  | some c => match enqueueMail s (ctxMailbox c) 0 (some i.n) b with
    | some (_, s) => took s
    | none => rnrNak s i

/-- One packet of a SEND: `first` begins a message and `last` ends it. -/
def sendPacket (s : State) (i : RoceIn) (first last : Bool) : State :=
  let x := s.qp i.n
  let b := i.r.payload
  let all := x.recv.getD [] ++ b
  if !x.mailbox || x.recv.isSome == first || b.length > x.mtu || (!last && b.length != x.mtu) || all.length > sendMax then roceFail s i .nakInvalidRequest
  else roceMetered s i true (max 64 b.length) (fun s =>
    if last then messageDone s i all
    else roceAck (takePsn (s.updQp i.n (fun x => { x with recv := some all })) i.n 1) i.n i.r.psn)

/-- SEND_FIRST. -/
def execSendFirst (q : Fin 64) (s : State) : Host.Outcome State Fault Refusal := onRoce s q (fun r => r.op == .sendFirst) (sendPacket · · true false) ackAgain
/-- SEND_MIDDLE. -/
def execSendMiddle (q : Fin 64) (s : State) : Host.Outcome State Fault Refusal := onRoce s q (fun r => r.op == .sendMiddle) (sendPacket · · false false) ackAgain
/-- SEND_LAST. -/
def execSendLast (q : Fin 64) (s : State) : Host.Outcome State Fault Refusal := onRoce s q (fun r => r.op == .sendLast) (sendPacket · · false true) ackAgain
/-- SEND_ONLY. -/
def execSendOnly (q : Fin 64) (s : State) : Host.Outcome State Fault Refusal := onRoce s q (fun r => r.op == .sendOnly) (sendPacket · · true true) ackAgain

/-- ROCE_UNSUPPORTED_PACKET: an opcode that the part does not serve is answered NAK Invalid Request; a packet of an absent
service, or a response that the part never asks for, is discarded and counted (12 R301). -/
def execRoceUnsupportedPacket (q : Fin 64) (s : State) : Host.Outcome State Fault Refusal :=
  onRoce s q (fun r => r.op == .unsupported || r.op == .otherService || r.op == .readResponse || r.op == .atomicAck)
    (fun s i => if i.r.op == .unsupported then roceFail s i .nakInvalidRequest else roceDrop s) (fun s _ => roceDrop s)
    (fun s i => if i.r.op == .unsupported then roceAhead s i.n else roceDrop s)

/-! ### The requester (12 R301, R303) -/

/-- A queue pair enters the error state: its SENDs go no further, and responses stay in the ring. -/
def qpError (s : State) (n : Nat) : State := s.updQp n (fun x => { x with st := .error, sends := [], rnrUntil := none, write := none, recv := none })

/-- Retries before the error state. -/
def retryMax : Nat := 7

/-- Every SEND from a PSN on goes out again. -/
def Qp.again (x : Qp) : Qp := { x with sends := x.sends.map (fun k => { k with sentAt := none }) }

/-- SENDs before a PSN, sent already, are acknowledged. -/
def Qp.acked (x : Qp) (psn : BitVec 24) (through : Bool) : Qp :=
  let old (k : QpSend) : Bool := k.sentAt.isSome && (if through then (psn - k.psn).toNat < 2 ^ 23 else 1 ≤ (psn - k.psn).toNat && (psn - k.psn).toNat < 2 ^ 23)
  if x.sends.any old then { x with sends := x.sends.filter (fun k => !old k), retries := 0, rnrRetries := 0 } else x

/-- A row of acknowledgements for the SENDs of a ready queue pair. -/
def onSendAck (s : State) (q : Nat) (want : Roce → Bool) (act : State → Nat → Roce → State) : Host.Outcome State Fault Refusal :=
  onFrame s q (fun f => (roceOf f).any (fun r => r.op == .ack && want r))
    (fun s x => match roceOf x.frame with
      | none => s
      | some r =>
        let n := r.destQp.toNat
        if n ≥ qpMax || (s.qp n).st != .ready || !(s.qp n).mailbox then roceDrop s else act (sendCnp s n x.frame.ce) n r)

/-- ROCE_ACK. -/
def execRoceAck (q : Fin 64) (s : State) : Host.Outcome State Fault Refusal :=
  onSendAck s q (fun r => r.syndrome == .ack) (fun s n r => s.updQp n (·.acked r.psn true))

/-- ns of an RNR NAK timer code, in the table of the InfiniBand specification (PRESUMED). -/
def rnrNs (code : Nat) : Nat :=
  ([65536, 1, 2, 3, 4, 6, 8, 12, 16, 24, 32, 48, 64, 96, 128, 192, 256, 384, 512, 768, 1024, 1536, 2048, 3072, 4096, 6144, 8192, 12288, 16384, 24576, 32768, 49152].getD
    (code % 32) 1) * 10000

/-- ROCE_NAK: a sequence error sends again at once, an RNR NAK after its timer, and any other NAK is final. -/
def execRoceNak (q : Fin 64) (s : State) : Host.Outcome State Fault Refusal :=
  onSendAck s q (fun r => r.syndrome != .ack) (fun s n r =>
    let s := s.updQp n (·.acked r.psn false)
    match r.syndrome with
    | .nakSequence => if (s.qp n).retries ≥ retryMax then qpError s n else s.updQp n (fun x => { x.again with retries := x.retries + 1 })
    | .rnrNak c => if (s.qp n).sends.isEmpty then s else s.updQp n (fun x => { x.again with rnrUntil := some (s.now + rnrNs c) })
    | .ack => s
    | _ => qpError s n)

/-- The ACK timeout: 4.19 ms. -/
def ackTimeout : Nat := 4190000

/-- ROCE_ACK_TIMEOUT. -/
def execRoceAckTimeout (t : Nat) (n : Fin 16384) (s : State) : Host.Outcome State Fault Refusal :=
  timed t s (fun s => s.clocked && (s.qp n).st == .ready && (s.qp n).rnrUntil.isNone && (s.qp n).sends.any (fun k => k.sentAt.any (fun a => a + ackTimeout ≤ s.now)))
    (fun s => if (s.qp n).retries ≥ retryMax then qpError s n else s.updQp n (fun x => { x.again with retries := x.retries + 1 }))

/-- RNR_RETRY_TIMER_EXPIRY. -/
def execRnrRetryTimerExpiry (t : Nat) (n : Fin 16384) (s : State) : Host.Outcome State Fault Refusal :=
  timed t s (fun s => s.clocked && (s.qp n).rnrUntil.any (· ≤ s.now))
    (fun s => if (s.qp n).rnrRetries ≥ retryMax then qpError s n else s.updQp n (fun x => { x with rnrUntil := none, rnrRetries := x.rnrRetries + 1 }))

/-! ### Congestion (12 R304) -/

/-- CNP: the rate in Mb/s halves, down to 1 Gb/s. -/
def execCnp (q : Fin 64) (s : State) : Host.Outcome State Fault Refusal :=
  onFrame s q (fun f => (roceOf f).any (fun r => r.op == .cnp)) (fun s x => match roceOf x.frame with
    | none => s
    | some r =>
      let n := r.destQp.toNat
      if n ≥ qpMax || (s.qp n).st != .ready then roceDrop s
      else s.updQp n (fun x => { x with rate := max 1000 (x.rate / 2), cnps := x.cnps + 1, lastCnp := s.now }))

/-- CNP_RATE_RECOVERY: 55 µs without a CNP. -/
def execCnpRateRecovery (t : Nat) (n : Fin 16384) (s : State) : Host.Outcome State Fault Refusal :=
  let full (s : State) : Nat := portRate s (s.qp n).port * 1000
  timed t s (fun s => s.clocked && (s.qp n).st == .ready && (s.qp n).rate < full s && (s.qp n).lastCnp + usNs 55 ≤ s.now)
    (fun s => s.updQp n (fun x => { x with rate := min (full s) (x.rate + full s / 8), lastCnp := s.now }))

end Sys2Proof.Machine
end

