-- ==== Sys2Proof/Machine/Counters.lean ====
section
/-!
DEFINITION. Counters and trace commands, the accounting-period boundary with its staged changes, and opcodes that no chapter
defines (18 R406 to R420; 02 R54 to R59).
-/

namespace Sys2Proof.Machine

open Sys2Proof

/-! ### Counter commands (18 R408 to R412, R420) -/

/-- The group of a code (18 R408). -/
def counterGroup : Nat → Option Group
  | 1 => some .engine
  | 2 => some .stack
  | 3 => some .port
  | 4 => some .device
  | 5 => some .context
  | 6 => some .schedule
  | 7 => some .session
  | _ => none

/-- Instances of a group (18 R408). -/
def Group.instances : Group → Nat
  | .engine => 16 | .stack => 16 | .port => 64 | .device => 1 | .context => 1024 | .schedule => 64 | .session => 65536

/-- What COUNTER_ENABLE names for a group: its instances, or contexts (18 R412). -/
def Group.named : Group → Nat
  | .schedule => 1024
  | .session => 1024
  | g => g.instances

/-- Bytes of a group's block (18 R408). -/
def Group.blockSize : Group → Nat
  | .session => 128
  | _ => 1024

/-- COUNTER_ENABLE. -/
def cmdCounterEnable : Cmd where
  op := 0x0901
  issuers := operatorOnly
  changes := always
  body := fun q s =>
    let g := counterGroup (q.arg 20 1)
    let first := q.arg 22 2
    let n := q.arg 24 2
    let size := (g.map Group.named).getD 1024
    match q.firstBad [(20, 6)] [(20, g.isNone), (21, q.arg 21 1 > 1), (22, size ≤ first), (24, !(1 ≤ n && n ≤ 1024 && first + n ≤ size))] with
    | some b => badAt b
    | none => .pend (stage s (.counters (q.arg 20 1) first n (q.arg 21 1 = 1)) (some q.owes)) []

/-- COUNTER_ENABLE. -/
def execCounterEnable (m : Fin 1029) (s : State) : Host.Outcome State Fault Refusal := serve m cmdCounterEnable s

/-- The instance of a group is the tenant's own, for the groups that contexts own (18 R420). -/
def ownsInstance (s : State) (c : Nat) (g : Group) (i : Nat) : Bool := instanceCtx s g i == some c

/-- COUNTER_READ. -/
def cmdCounterRead : Cmd where
  op := 0x0902
  issuers := operatorTenant
  blocked := neverBlocked
  query := true
  body := fun q s =>
    let i := q.arg 22 2
    match counterGroup (q.arg 20 1), q.firstBad [(20, 1), (22, 2)] [(20, (counterGroup (q.arg 20 1)).isNone)] with
    | _, some b => badAt b
    | none, none => badAt 20
    | some g, none =>
      if (match q.party with | .tenant c => !ownsInstance s c g i | _ => false) then denied
      else if g.instances ≤ i then badAt 22
      else if q.room < g.blockSize then noRoom
      else .done s [] (blockBytes s g i g.blockSize)

/-- COUNTER_READ. -/
def execCounterRead (m : Fin 1029) (s : State) : Host.Outcome State Fault Refusal := serve m cmdCounterRead s

/-- The instances of a context in the groups that it owns (18 R412). -/
def ownedInstances (s : State) (g : Group) (c : Nat) : List Nat :=
  match g with
  | .schedule => tkeys s.scheds (fun _ x => x.ctx == c)
  | .session => tkeys s.sessions (fun _ x => x.ctx == some c)
  | _ => [c]

/-- COUNTER_ENABLE commits for one instance, or one context (18 R412). -/
def switchCounters (s : State) (g : Group) (on : Bool) (at_ i : Nat) : State :=
  let put (s : State) (k : Nat) : State := s.updBlock k (·.switch on at_)
  match g with
  | .schedule | .session => foldKeys (ownedInstances s g i) (put s (g.ctxKey i)) (fun s j => put s (g.key j))
  | _ => put s (g.key i)

/-- Every enabled counter latches; the block of a schedule number with nothing loaded keeps its last period (18 R406, R419). -/
def latchCounters (s : State) (at_ : Nat) : State :=
  { s with counters := tmap s.counters (fun k b =>
      if Group.schedule.key 0 ≤ k && k < Group.schedule.key 64 && (s.sched? (k - Group.schedule.key 0)).isNone then b else b.latch at_) }

/-! ### Trace streams (18 R413 to R418) -/

/-- The session of a stream meets 18 R416: an OPEN session of the source context, or a role slot in OPEN with an operator
role session bound. -/
def traceSession (s : State) (source i : Nat) : Bool :=
  let x := s.session i
  x.st == .opened &&
    (if source = 0xFFFF then isRoleSlot i && x.priv && s.auth.sessions.any (fun r => r.role == .operator && r.binding == x.gen ++ BitVec.ofNat 16 i)
     else x.ctx == some source)

/-- Bytes of the trace region (03 R67). -/
def traceRegion : Nat := 2 ^ 32

/-- A slice overlaps that of another stream, one that runs or stopped, or one that is staged. -/
def sliceTaken (s : State) (n off size : Nat) : Bool :=
  let hit (x : Stream) : Bool := !x.toSession && overlaps off (off + size) x.sliceOff (x.sliceOff + x.sliceSize)
  s.streams.any (fun e => e.1 != n && e.2.st != .off && hit e.2)
    || s.staged.any (fun x => match x.change with | .trace k (some g) => k != n && hit g | _ => false)

/-- The setting that TRACE_SET describes. -/
def traceSetting (q : Req) : Stream :=
  { toSession := bit (q.arg 21 1) 1, source := q.arg 22 2, mask := BitVec.ofNat 32 (q.arg 24 4), session := q.arg 28 2
    sliceOff := q.arg 32 8, sliceSize := q.arg 40 8 }

/-- A mask bit outside the record types that enter context streams. -/
def maskBad (mask : BitVec 32) : Bool := (List.range 32).any (fun i => mask.getLsbD i && !contextTypes.contains i)

/-- TRACE_SET. -/
def cmdTraceSet : Cmd where
  op := 0x0903
  issuers := operatorOnly
  changes := always
  obj := fun q => (0x09, q.arg 20 1)
  body := fun q s =>
    let n := q.arg 20 1
    let on := bit (q.arg 21 1) 0
    let g := traceSetting q
    let slice := on && !g.toSession
    match q.firstBad [(20, 10), (32, 16)] [(20, n > 15), (21, q.arg 21 1 > 3)
        , (22, on && !(g.source < 1024 || g.source = 0xFFFF))
        , (24, on && g.source != 0xFFFF && maskBad g.mask)
        , (28, on && g.toSession && !traceSession s g.source g.session)
        , (32, slice && (g.sliceOff % 65536 != 0 || traceRegion < g.sliceOff + g.sliceSize || sliceTaken s n g.sliceOff g.sliceSize))
        , (40, slice && (g.sliceSize % 65536 != 0 || g.sliceSize < 65536 || traceRegion < g.sliceSize))] with
    | some b => badAt b
    | none => .pend (stage s (.trace n (if on then some g else none)) (some q.owes)) []

/-- TRACE_SET. -/
def execTraceSet (m : Fin 1029) (s : State) : Host.Outcome State Fault Refusal := serve m cmdTraceSet s

/-- Records that one TRACE frame of a stream carries at most (18 R416). -/
def frameRecs (s : State) (x : Stream) : Nat :=
  let e := s.session x.session
  match routeOf s e.peer with
  | some r => min 256 (frameRoom s r e.priv / 32)
  | none => 0

/-- A TRACE frame leaves with the oldest records; they stay where it cannot be sent (12 R276; 18 R416). -/
def sendTrace (s : State) (n : Nat) : State :=
  let x := s.stream n
  let k := frameRecs s x
  let (ok, s) := sendOneWay s x.session 0x38 0 0 0 ((x.queue.take k).flatMap (·.bytes))
  if ok then s.updStream n (fun x => { x with queue := x.queue.drop k, oldest := ((x.queue[k]?).map (·.at_)).getD x.newest }) else s

/-- Queued records are written: to the slice, or in frames; `k` bounds the frames (18 R419). -/
def writeQueue (s : State) (n : Nat) : Nat → State
  | 0 => s
  | k + 1 =>
    if (s.stream n).queue.isEmpty then s
    else if (s.stream n).toSession then writeQueue (sendTrace s n) n k
    else writeSlots s n (s.stream n).queue.length

/-- A stream under a new setting: its running totals and its drops stay, and so do the indices of a slice that stays. -/
def Stream.restart (x g : Stream) (st : StreamState) : Stream :=
  let same := !x.toSession && !g.toSession && x.sliceOff = g.sliceOff && x.sliceSize = g.sliceSize
  { g with st := st, writeIdx := if same then x.writeIdx else 0, readIdx := if same then x.readIdx else 0
           written := x.written, drops := x.drops, dropsTotal := x.dropsTotal, firstDrop := x.firstDrop, lastDrop := x.lastDrop, losses := x.losses
           lossEventPeriod := x.lossEventPeriod }

/-- STREAM_START (18 R414, R415). -/
def startRecord (n : Nat) (x : Stream) (time : Nat) : TraceRec :=
  { type := 7, source := 0x90, flags := 0, ctx := x.source, seq := 0, time := time, data := padTo (natLe n 1 ++ natLe 0 1 ++ natLe x.source 2 ++ natLe x.mask.toNat 4) 16 }

/-- TRACE_SET commits (18 R415, R418, R419). -/
def commitTrace (s : State) (n : Nat) (setting : Option Stream) (at_ : Nat) : State :=
  let s := writeQueue s n (traceQueue + 1)
  match setting with
  | none => s.updStream n (fun x => { x with st := .off, queue := [] })
  | some g =>
    if g.toSession && !traceSession s g.source g.session then s.updStream n (·.restart g .stopped)
    else
      let s := s.updStream n (fun x => let y := x.restart g .running; y.takeOrDrop (startRecord n y at_) s.now)
      writeLoss s n

/-- A tenant's own stream. -/
def ownsStream (q : Req) (x : Stream) : Bool := match q.party with | .tenant c => x.source = c | _ => true

/-- The bytes of `k` records of a slice from the read index on (18 R420). -/
def readSlots (s : State) (n k : Nat) : Bytes × State := readRanges s (slotRanges s (s.stream n) (s.stream n).readIdx k) (32 * k)

/-- The read index moves past records, whose slots are free again. -/
def Stream.advance (x : Stream) (k : Nat) : Stream := if x.slotCount = 0 then x else { x with readIdx := (x.readIdx + k) % x.slotCount }

/-- The code of a stream's state (18 R420). -/
def StreamState.code : StreamState → Nat
  | .off => 0 | .running => 1 | .stopped => 2

/-- TRACE_READ asks for the read index to move. -/
def advances (q : Req) : Bool := q.arg 21 1 == 1

/-- TRACE_READ: one that moves the read index changes state, so it is audited under a role and a pending TRACE_SET of the
stream keeps it out (00 R7; 02 R38; log entry 92). -/
def cmdTraceRead : Cmd where
  op := 0x0904
  issuers := operatorTenant
  changes := advances
  lock := fun q => some (0x09, q.arg 20 1)
  blocked := fun q s => advances q && s.pendings.any (fun p => p.meets q.owes)
  body := fun q s =>
    let n := q.arg 20 1
    let k := q.arg 22 2
    let x := s.stream n
    match q.firstBad [(20, 4)] [(20, n > 15), (21, q.arg 21 1 > 1), (22, !(1 ≤ k && k ≤ 640))] with
    | some b => badAt b
    | none =>
      if !ownsStream q x then denied
      else if x.toSession then badState 0x09 x.st.code
      else
        let k := min (min k (q.room / 32)) x.heldRecs
        let (b, s) := readSlots s n k
        let s := if advances q then s.updStream n (·.advance k) else s
        .done s (natLe k 4 ++ natLe (s.stream n).heldRecs 4) b

/-- TRACE_READ. -/
def execTraceRead (m : Fin 1029) (s : State) : Host.Outcome State Fault Refusal := serve m cmdTraceRead s

/-- TRACE_STATUS. -/
def cmdTraceStatus : Cmd where
  op := 0x0905
  issuers := operatorTenant
  blocked := neverBlocked
  query := true
  body := fun q s =>
    let x := s.stream (q.arg 20 1)
    match q.firstBad [(20, 1)] [(20, q.arg 20 1 > 15)] with
    | some b => badAt b
    | none =>
      if !ownsStream q x then denied
      else .done s (natLe x.st.code 1 ++ natLe (b2n x.toSession 0) 1 ++ natLe x.source 2 ++ natLe x.written 4 ++ natLe x.dropsTotal 4 ++ natLe x.losses 4 ++ natLe x.lastDrop 8) []

/-- TRACE_STATUS. -/
def execTraceStatus (m : Fin 1029) (s : State) : Host.Outcome State Fault Refusal := serve m cmdTraceStatus s

/-- Records that the next write to a slice carries (18 R416). -/
def Stream.writeSize (x : Stream) : Nat := min fullWrite x.queue.length

/-- A frame or a write is full, or 10 µs have passed: since the oldest record for a frame, since the newest for a slice (18 R416). -/
def flushDue (s : State) (x : Stream) : Bool :=
  !x.queue.isEmpty &&
    (if x.toSession then x.st == .running && (x.oldest + usNs 10 ≤ s.now || frameRecs s x ≤ x.queue.length)
     else (x.newest + usNs 10 ≤ s.now || fullWrite ≤ x.queue.length) && !accessHeld s true (slotRanges s x x.writeIdx x.writeSize))

/-- TRACE_FLUSH_TIMER. -/
def execTraceFlushTimer (t : Nat) (n : Fin 16) (s : State) : Host.Outcome State Fault Refusal :=
  timed t s (fun s => s.clocked && flushDue s (s.stream n)) (fun s =>
    if (s.stream n).toSession then sendTrace s n else writeSlots s n (s.stream n).writeSize)

/-! ### The accounting-period boundary (02 R54, R57) -/

/-- A memory policy commits: a threshold lowered below a count already reached acts (09 R226 to R228). -/
def commitPolicy (s : State) (p : Policy) : State :=
  foldRange 0 16 { s with policy := p } (fun s t =>
    if (s.stack t).st != .serving then s else
    let bad := (List.range 16).filter (fun d => bucketSum (s.stack t).dieErrs d s.now (secNs 3600) 24 > p.dieBadLines)
    let s := s.updStack t (fun x => { x with badDies := bad.foldl (fun m d => m ||| BitVec.ofNat 16 (2 ^ d)) x.badDies })
    let x := s.stack t
    let s := if badDieCount x > p.dieLimit then stackCondition s t 1 else s
    let s := if bucketSum x.ueErrs 0 s.now (secNs 60) 60 > p.ueLimit then stackCondition s t 2 else s
    if bucketSum x.caErrs 0 s.now (secNs 1) 1 > p.caParityLimit then stackCondition s t 3 else s)

/-- A staged change commits at a boundary. -/
def commitChange (s : State) (at_ : Nat) : Change → State
  | .period ns => s.updDev (fun d => { d with acctPeriod := ns })
  | .segment c slot seg => commitSegment s c slot seg
  | .policy p => commitPolicy s p
  | .watchdog us => s.updDev (fun d => { d with watchdogUs := us })
  | .fence e => commitFence s e at_
  | .meter endpoint id isWrite m => commitMeter s endpoint id isWrite m
  | .shaper q c x => commitShaper s q c at_ x
  | .gate q g => commitGates s q g
  | .classMap m => { s with classMap := m }
  | .counters g first n on but => match counterGroup g with
    | some g => foldRange first n s (fun s i => if but.contains i then s else switchCounters s g on at_ i)
    | none => s
  | .trace n g => commitTrace s n g at_

/-- A change is a fence. -/
def Change.isFence : Change → Bool
  | .fence _ => true
  | _ => false

/-- A staged change commits, and its command's COMPLETION carries the boundary. -/
def commitStaged (s : State) (at_ : Nat) (x : Staged) : State :=
  let s := commitChange s at_ x.change
  match x.owes with
  | some p => finish s p stOk at_
  | none => s

/-- The boundary that cluster time has reached. -/
def boundaryNow (s : State) : Nat := s.ct / s.dev.acctPeriod * s.dev.acctPeriod

/-- The changes that are due commit one after another; one that the end of a context has discarded meanwhile does not (15 R347). -/
def commitDue (at_ : Nat) : List Staged → State → State
  | [], s => s
  | x :: r, s => commitDue at_ r (match s.staged.find? (fun y => y.bare == x.bare) with
      | some y => commitStaged { s with staged := s.staged.erase y } at_ y
      | none => s)

/-- A boundary: counters latch, limits per period begin again, and the changes staged for it commit, fences first so that a
segment that commits with them finds its extents fenced (02 R54; 15 R355; 17 R387; 18 R406). -/
def boundary (s : State) (at_ : Nat) : State :=
  let s := latchCounters s at_
  let s := { s with stks := tmap s.stks (fun _ x => { x with mediaEvents := 0 }) }
  let s := s.updDev (fun d => { d with lastBoundary := at_, written := [] })
  let now := s.staged.filter (fun x => x.at_ ≤ at_)
  commitDue at_ (now.filter (·.change.isFence) ++ now.filter (fun x => !x.change.isFence)) s

/-- ACCOUNTING_PERIOD_BOUNDARY. -/
def execAccountingPeriodBoundary (t : Nat) (s : State) : Host.Outcome State Fault Refusal :=
  timed t s (fun s => s.clocked && s.dev.lastBoundary < boundaryNow s) (fun s => boundary s (boundaryNow s))

/-! ### Undefined opcodes (02 R47, R59) -/

/-- The opcodes that the chapters define, as runs: first opcode and how many. -/
def opcodeRuns : List (Nat × Nat) :=
  [(0x0101, 6), (0x0201, 7), (0x0301, 3), (0x0310, 4), (0x0401, 14), (0x0501, 5), (0x0510, 6), (0x0518, 6), (0x0520, 4), (0x0601, 6), (0x0701, 6), (0x0801, 6), (0x0810, 3), (0x0901, 5), (0x0A01, 8), (0x0B01, 3), (0x0B10, 7)]

/-- A chapter defines the opcode. -/
def mailOpcode (op : Nat) : Bool := opcodeRuns.any (fun r => r.1 ≤ op && op < r.1 + r.2)

/-- The shepherd answers an undefined opcode. -/
def answerUndefined (s : State) (q : Req) : State :=
  let q := { q with owes := { objType := 0x0A, objId := 0, mailbox := q.m, tag := q.tag, opcode := BitVec.ofNat 16 q.opcode, id := q.serial } }
  closeWith (takeUp s q) q stBadOpcode 0 [] []

/-- UNDEFINED_MAILBOX_OPCODE. -/
def execUndefinedMailboxOpcode (m : Fin 1029) (s : State) : Host.Outcome State Fault Refusal :=
  .next (match headOf s m with
    | some q => if mailOpcode q.opcode then s else answerUndefined s q
    | none => s)

end Sys2Proof.Machine
end

