-- ==== Sys2Proof/Machine/Staging.lean ====
section
/-!
DEFINITION. Staging and writing the image and the records, reading them, attestation, the audit log's reader, enrolment
(16 R375 to R379, R382, R383; 02 R45, R50).
-/

namespace Sys2Proof.Machine

open Sys2Proof

/-! ### The staging transfer (16 R378) -/

/-- The role that stages and reads a kind of item: the maker for the image and the package record, the installer for the
installer record. -/
def kindRole (kind : Nat) (p : Party) : Bool := if kind = 3 then installerOnly p else makerOnly p

/-- The kind named is another role's (16 R383; 02 R47 check 3). -/
def notForRole (kind : Nat) (p : Party) : Bool := 1 ≤ kind && kind ≤ 3 && !kindRole kind p

/-- A party that may issue the commands of 16 R378. -/
def stagers (p : Party) : Bool := makerOnly p || installerOnly p

/-- The length is one that an item of this kind can have (16 R371 to R373). -/
def stageLenOk (s : State) (kind len : Nat) : Bool :=
  match kind with
  | 1 => 6144 < len && len ≤ imageMax
  | 2 => len == s.packageLen
  | _ => len == installerLen

/-- What a pending STAGE_COMMIT keeps BUSY: the transfer. -/
def stageLock : Req → Option (Nat × Nat) := fun _ => some (0x1A03, 0)

/-- STAGE_OPEN. -/
def cmdStageOpen : Cmd where
  op := 0x0A01
  issuers := stagers
  minimal := true
  changes := always
  lock := stageLock
  body := fun q s =>
    let kind := q.arg 20 1
    let len := q.arg 24 4
    if notForRole kind q.party then denied else
    match q.firstBad [(20, 1), (24, 4)] [(20, !(1 ≤ kind && kind ≤ 3)), (24, !stageLenOk s kind len)] with
    | some b => badAt b
    | none =>
      if s.staging.isSome then busy
      else .done { s with staging := some { kind := kind, length := len, opener := q.roleSession } } [] []

/-- STAGE_OPEN. -/
def execStageOpen (m : Fin 1029) (s : State) : Host.Outcome State Fault Refusal := serve m cmdStageOpen s

/-- A command of the transfer's opener, with the bytes of its arguments and what is wrong with them: on the open transfer, which is
BUSY from its commit to the COMPLETION of that (02 R38, R47; 16 R378). -/
def onStaging (q : Req) (s : State) (used : List (Nat × Nat)) (bad : Staging → Option Reply) (act : Staging → Reply) : Reply :=
  if s.staging.any (fun g => g.opener != q.roleSession) then denied else
  match q.firstBad used [], s.staging with
  | some b, _ => badAt b
  | none, none => badState 0x0A 0
  | none, some g => (bad g).getD (if g.committing then busy else act g)

/-- STAGE_WRITE. -/
def cmdStageWrite : Cmd where
  op := 0x0A02
  issuers := stagers
  minimal := true
  changes := always
  lock := stageLock
  body := fun q s => onStaging q s [(24, 4)]
    (fun g => if q.arg 24 4 != g.held then some (badAt 24) else if g.length < g.held + q.xarg.length then some (badSlot 6) else none)
    (fun g =>
      let n := g.held + q.xarg.length
      .done { s with staging := some { g with bytes := mwriteN g.bytes g.held q.xarg, held := n } } (natLe n 4) [])

/-- STAGE_WRITE. -/
def execStageWrite (m : Fin 1029) (s : State) : Host.Outcome State Fault Refusal := serve m cmdStageWrite s

/-- The staged item as an area. -/
def Staging.area (g : Staging) : Area := { present := true, bytes := g.bytes, len := g.length }

/-- The checks of STAGE_COMMIT: those of 16 R371 to R373, and what 16 R378 adds. -/
def stageVerdict (s : State) (g : Staging) : Verdict :=
  let a := g.area
  if g.held != g.length then .bad else
  match g.kind with
  | 1 => imageVerdict s s.dev.package a
  | 2 => match packageVerdict (fun s b => (setFault s b).isNone) s a with
    | .good => if s.dev.package.present && packageSerial a != packageSerial s.dev.package then .bad else .good
    | v => v
  | _ => match installerVerdict quadCheck s.dev.package a with
    | .good => if s.dev.installer.present && a.num 12 4 ≤ s.dev.installer.num 12 4 then .bad else .good
    | v => v

/-- STAGE_COMMIT. -/
def cmdStageCommit : Cmd where
  op := 0x0A03
  issuers := stagers
  minimal := true
  changes := always
  lock := stageLock
  body := fun q s => onStaging q s [] (fun _ => none) (fun g => match stageVerdict s g with
      | .integrity => .fail stIntegrity 0
      | .bad => badX 0
      | .good => .pend { s with staging := some { g with committing := true, commitId := q.owes.id } } [])

/-- STAGE_COMMIT. -/
def execStageCommit (m : Fin 1029) (s : State) : Host.Outcome State Fault Refusal := serve m cmdStageCommit s

/-- The flash write of a committed item ends: the area holds it, or is torn where the write failed; the COMPLETION ends the transfer
(16 R378, R379; 02 R45). -/
def stageWritten (s : State) (g : Staging) (ok : Bool) : State :=
  let s := if ok then { s with flash := s.flash.setArea g.kind g.area } else tearWrite s
  let s := { s with staging := some { g with written := some ok } }
  match pendingOf s (fun p => p.opcode == 0x0A03 && p.id == g.commitId) with
  | some p => finish s p (if ok then stOk else stFault) s.ct
  | none => endCommit s g.commitId

/-- STAGE_COMMIT_DONE. -/
def execStageCommitDone (t : Nat) (flashOk : Bool) (s : State) : Host.Outcome State Fault Refusal :=
  timed t s (fun s => s.clocked && s.staging.any (fun g => g.committing && g.written.isNone)) (fun s => match s.staging with
    | some g => stageWritten s g flashOk
    | none => s)

/-- STAGE_ABORT. -/
def cmdStageAbort : Cmd where
  op := 0x0A04
  issuers := stagers
  minimal := true
  changes := always
  lock := stageLock
  body := fun q s => onStaging q s [] (fun _ => none) (fun _ => .done { s with staging := none } [] [])

/-- STAGE_ABORT. -/
def execStageAbort (m : Fin 1029) (s : State) : Host.Outcome State Fault Refusal := serve m cmdStageAbort s

/-! ### Reading records and the audit log (16 R383; 02 R50) -/

/-- The flash area of a kind. -/
def Flash.area (f : Flash) (kind : Nat) : Area :=
  match kind with
  | 1 => f.firmware
  | 2 => f.package
  | _ => f.installer

/-- RECORD_READ. -/
def cmdRecordRead : Cmd where
  op := 0x0A05
  issuers := stagers
  minimal := true
  blocked := neverBlocked
  query := true
  body := fun q s =>
    let kind := q.arg 20 1
    let off := q.arg 24 4
    let a := s.flash.area kind
    if notForRole kind q.party then denied else
    match q.firstBad [(20, 1), (24, 4)] [(20, !(1 ≤ kind && kind ≤ 3)), (24, off > a.len)] with
    | some b => badAt b
    | none => .done s (natLe a.len 4) (a.at_ off (min (min q.room xbufLen) (a.len - off)))

/-- RECORD_READ. -/
def execRecordRead (m : Fin 1029) (s : State) : Host.Outcome State Fault Refusal := serve m cmdRecordRead s

/-- CHAIN of the record that precedes the first of a list of held records: the newest record's where the list is empty. -/
def chainBefore (f : Flash) : List AuditRec → BitVec 256
  | [] => f.auditChain
  | r :: _ => match f.audit.find? (fun x => x.seq + 1 == r.seq) with
    | some x => x.chain
    | none => f.auditBase

/-- AUDIT_READ. -/
def cmdAuditRead : Cmd where
  op := 0x0A07
  issuers := operatorOnly
  blocked := neverBlocked
  query := true
  body := fun q s =>
    let n := q.arg 28 2
    match q.firstBad [(20, 10)] [(28, !(1 ≤ n && n ≤ 158))] with
    | some b => badAt b
    | none =>
      let rs := (s.flash.audit.filter (fun r => q.arg 20 8 ≤ r.seq)).take n
      if q.room < 32 then noRoom else
      let rs := rs.take ((q.room - 32) / 128)
      .done s (natLe rs.length 4) (natLe (chainBefore s.flash rs).toNat 32 ++ rs.flatMap (·.bytes))

/-- AUDIT_READ. -/
def execAuditRead (m : Fin 1029) (s : State) : Host.Outcome State Fault Refusal := serve m cmdAuditRead s

/-! ### Attestation and enrolment (16 R375 to R377) -/

/-- SHAKE256 with 256-bit output over an area. -/
def Area.digest (a : Area) : Bytes := if a.present then padTo (Config.shake256 a.whole 32) 32 else natLe 0 32

/-- A loaded schedule's entry in a report. -/
def reportEntry (n : Nat) (x : Sched) : Bytes := natLe n 1 ++ natLe x.st.code 1 ++ natLe 0 6 ++ padTo (imageDigest x.image) 32

/-- The report before its signature (16 R376). -/
def reportBody (s : State) (c : Nat) (nonce : Bytes) : Bytes :=
  let es := s.scheds.filter (fun e => e.2.ctx == c)
  natLe 0x54415154 4 ++ natLe 1 2 ++ natLe (3549 + 40 * es.length) 2 ++ padTo nonce 32 ++ natLe s.deviceId 4 ++ natLe s.aon.bootEpoch.toNat 4 ++ natLe s.ct 8
    ++ natLe s.dev.fwVersion.toNat 4 ++ natLe s.layout.epoch.toNat 1 ++ natLe s.dev.reason 1 ++ natLe es.length 1 ++ natLe 0 1
    ++ s.dev.image.digest ++ s.dev.package.digest ++ s.dev.installer.digest ++ s.flash.accepted.digest
    ++ natLe (s.flash.auditNext - 1) 8 ++ natLe s.flash.auditChain.toNat 32 ++ natLe c 2 ++ natLe 0 6 ++ es.flatMap (fun e => reportEntry e.1 e.2)

/-- The report with its signature, and the certificates where they are asked for. -/
def report (s : State) (c : Nat) (nonce : Bytes) (certs : Bool) : Bytes :=
  let b := reportBody s c nonce
  let p := s.dev.package
  b ++ padTo (Config.mldsaSign s.dev.identityKey b) 3309 ++ (if certs then p.at_ 10592 5280 ++ makerCert p (p.num 12556 1) else [])

/-- ATTEST. -/
def cmdAttest : Cmd where
  op := 0x0A06
  issuers := tenantOnly
  blocked := neverBlocked
  body := fun q s => match q.firstBad [(20, 1)] [(20, q.arg 20 1 > 1)] with
    | some b => badAt b
    | none =>
      let x := report s q.tenant q.xarg (q.arg 20 1 = 1)
      if q.xargLen != 32 then badSlot 6
      else if q.room < x.length then noRoom
      else .done s [] x

/-- ATTEST. -/
def execAttest (m : Fin 1029) (s : State) : Host.Outcome State Fault Refusal := serve m cmdAttest s

/-- IDENTITY_ENROL. -/
def cmdIdentityEnrol : Cmd where
  op := 0x0A08
  issuers := makerOnly
  minimal := true
  changes := always
  blocked := neverBlocked
  body := fun q s => match q.firstBad [] [] with
    | some b => badAt b
    | none =>
      let h := padTo (Config.pufHelper s.dev.puf) 4096
      if q.room < 6048 then noRoom
      else if s.dev.package.present then badState 0x0A 0
      else .done s [] (padTo (Config.identityOf s.dev.puf h) 1952 ++ h)

/-- IDENTITY_ENROL. -/
def execIdentityEnrol (m : Fin 1029) (s : State) : Host.Outcome State Fault Refusal := serve m cmdIdentityEnrol s

end Sys2Proof.Machine
end

