-- ==== Sys2Proof/Machine/Dispatch.lean ====
section
/-!
DEFINITION. The dispatch of commands to their meanings: one arm per command, each one call.
-/

namespace Sys2Proof.Machine

open Sys2Proof

/-- A command's effect on everything but the queue. -/
def exec (i : Instr) (s : State) : Host.Outcome State Fault Refusal :=
  match i with
  | .deviceStatus m => Sys2Proof.Machine.execDeviceStatus m s
  | .roleChallenge m => Sys2Proof.Machine.execRoleChallenge m s
  | .roleProve m => Sys2Proof.Machine.execRoleProve m s
  | .roleEnd m => Sys2Proof.Machine.execRoleEnd m s
  | .setAcctPeriod m => Sys2Proof.Machine.execSetAcctPeriod m s
  | .mailboxReset m => Sys2Proof.Machine.execMailboxReset m s
  | .contextCreate m => Sys2Proof.Machine.execContextCreate m s
  | .contextDestroy m => Sys2Proof.Machine.execContextDestroy m s
  | .contextStatus m => Sys2Proof.Machine.execContextStatus m s
  | .leaseSet m => Sys2Proof.Machine.execLeaseSet m s
  | .leaseRenew m => Sys2Proof.Machine.execLeaseRenew m s
  | .translationFlush m => Sys2Proof.Machine.execTranslationFlush m s
  | .translationFlushDone t c ix => Sys2Proof.Machine.execTranslationFlushDone t c ix s
  | .limitsSet m => Sys2Proof.Machine.execLimitsSet m s
  | .segmentSet m => Sys2Proof.Machine.execSegmentSet m s
  | .segmentClear m => Sys2Proof.Machine.execSegmentClear m s
  | .segmentQuery m => Sys2Proof.Machine.execSegmentQuery m s
  | .extentGrant m => Sys2Proof.Machine.execExtentGrant m s
  | .extentRevoke m => Sys2Proof.Machine.execExtentRevoke m s
  | .extentStatus m => Sys2Proof.Machine.execExtentStatus m s
  | .extentList m => Sys2Proof.Machine.execExtentList m s
  | .schedLoad m => Sys2Proof.Machine.execSchedLoad m s
  | .schedLoadDone t c => Sys2Proof.Machine.execSchedLoadDone t c s
  | .schedAdmit m => Sys2Proof.Machine.execSchedAdmit m s
  | .schedArm m => Sys2Proof.Machine.execSchedArm m s
  | .armingComplete t n => Sys2Proof.Machine.execArmingComplete t n s
  | .schedDisarm m => Sys2Proof.Machine.execSchedDisarm m s
  | .schedAbort m => Sys2Proof.Machine.execSchedAbort m s
  | .schedUnload m => Sys2Proof.Machine.execSchedUnload m s
  | .schedStatus m => Sys2Proof.Machine.execSchedStatus m s
  | .syncAlloc m => Sys2Proof.Machine.execSyncAlloc m s
  | .syncFree m => Sys2Proof.Machine.execSyncFree m s
  | .syncOpRead m => Sys2Proof.Machine.execSyncOpRead m s
  | .syncOpSignal m => Sys2Proof.Machine.execSyncOpSignal m s
  | .syncOpReset m => Sys2Proof.Machine.execSyncOpReset m s
  | .seqAssign m => Sys2Proof.Machine.execSeqAssign m s
  | .seqRelease m => Sys2Proof.Machine.execSeqRelease m s
  | .seqRead m => Sys2Proof.Machine.execSeqRead m s
  | .clockStatus m => Sys2Proof.Machine.execClockStatus m s
  | .portConfig m => Sys2Proof.Machine.execPortConfig m s
  | .portStatus m => Sys2Proof.Machine.execPortStatus m s
  | .quadReset m => Sys2Proof.Machine.execQuadReset m s
  | .linkParamsSet m => Sys2Proof.Machine.execLinkParamsSet m s
  | .timeConfig m => Sys2Proof.Machine.execTimeConfig m s
  | .localIdSet m => Sys2Proof.Machine.execLocalIdSet m s
  | .endpointSet m => Sys2Proof.Machine.execEndpointSet m s
  | .endpointClear m => Sys2Proof.Machine.execEndpointClear m s
  | .forwardSet m => Sys2Proof.Machine.execForwardSet m s
  | .forwardClear m => Sys2Proof.Machine.execForwardClear m s
  | .tableRead m => Sys2Proof.Machine.execTableRead m s
  | .sessionAssign m => Sys2Proof.Machine.execSessionAssign m s
  | .sessionRelease m => Sys2Proof.Machine.execSessionRelease m s
  | .sessionOpen m => Sys2Proof.Machine.execSessionOpen m s
  | .sessionClose m => Sys2Proof.Machine.execSessionClose m s
  | .sessionStatus m => Sys2Proof.Machine.execSessionStatus m s
  | .peerKeySet m => Sys2Proof.Machine.execPeerKeySet m s
  | .qpAssign m => Sys2Proof.Machine.execQpAssign m s
  | .qpOpen m => Sys2Proof.Machine.execQpOpen m s
  | .qpClose m => Sys2Proof.Machine.execQpClose m s
  | .qpStatus m => Sys2Proof.Machine.execQpStatus m s
  | .meterSet m => Sys2Proof.Machine.execMeterSet m s
  | .meterStatus m => Sys2Proof.Machine.execMeterStatus m s
  | .shaperSet m => Sys2Proof.Machine.execShaperSet m s
  | .gateSet m => Sys2Proof.Machine.execGateSet m s
  | .classMapSet m => Sys2Proof.Machine.execClassMapSet m s
  | .tcStatus m => Sys2Proof.Machine.execTcStatus m s
  | .agentLimitSet m => Sys2Proof.Machine.execAgentLimitSet m s
  | .agentRegister m => Sys2Proof.Machine.execAgentRegister m s
  | .agentDeregister m => Sys2Proof.Machine.execAgentDeregister m s
  | .agentRenew m => Sys2Proof.Machine.execAgentRenew m s
  | .agentStatus m => Sys2Proof.Machine.execAgentStatus m s
  | .lostOwnedRead m => Sys2Proof.Machine.execLostOwnedRead m s
  | .stackStatus m => Sys2Proof.Machine.execStackStatus m s
  | .stackProfileRead m => Sys2Proof.Machine.execStackProfileRead m s
  | .stackProfileAccept m => Sys2Proof.Machine.execStackProfileAccept m s
  | .memPolicySet m => Sys2Proof.Machine.execMemPolicySet m s
  | .stackFlagsClear m => Sys2Proof.Machine.execStackFlagsClear m s
  | .stackDiagRead m => Sys2Proof.Machine.execStackDiagRead m s
  | .stackFail m => Sys2Proof.Machine.execStackFail m s
  | .rebuildStatus m => Sys2Proof.Machine.execRebuildStatus m s
  | .rebuildControl m => Sys2Proof.Machine.execRebuildControl m s
  | .counterEnable m => Sys2Proof.Machine.execCounterEnable m s
  | .counterRead m => Sys2Proof.Machine.execCounterRead m s
  | .traceSet m => Sys2Proof.Machine.execTraceSet m s
  | .traceRead m => Sys2Proof.Machine.execTraceRead m s
  | .traceStatus m => Sys2Proof.Machine.execTraceStatus m s
  | .stageOpen m => Sys2Proof.Machine.execStageOpen m s
  | .stageWrite m => Sys2Proof.Machine.execStageWrite m s
  | .stageCommit m => Sys2Proof.Machine.execStageCommit m s
  | .stageCommitDone t flashOk => Sys2Proof.Machine.execStageCommitDone t flashOk s
  | .stageAbort m => Sys2Proof.Machine.execStageAbort m s
  | .recordRead m => Sys2Proof.Machine.execRecordRead m s
  | .attest m => Sys2Proof.Machine.execAttest m s
  | .auditRead m => Sys2Proof.Machine.execAuditRead m s
  | .identityEnrol m => Sys2Proof.Machine.execIdentityEnrol m s
  | .jobOpen m => Sys2Proof.Machine.execJobOpen m s
  | .jobClose m => Sys2Proof.Machine.execJobClose m s
  | .jobStatus m => Sys2Proof.Machine.execJobStatus m s
  | .errorLogRead m => Sys2Proof.Machine.execErrorLogRead m s
  | .dumpRead m => Sys2Proof.Machine.execDumpRead m s
  | .faultStatus m => Sys2Proof.Machine.execFaultStatus m s
  | .alertClear m => Sys2Proof.Machine.execAlertClear m s
  | .engineReset m => Sys2Proof.Machine.execEngineReset m s
  | .engineResetDone t p => Sys2Proof.Machine.execEngineResetDone t p s
  | .deviceReset m => Sys2Proof.Machine.execDeviceReset m s
  | .watchdogSet m => Sys2Proof.Machine.execWatchdogSet m s
  | .reqPiWrite m path v => Sys2Proof.Machine.execReqPiWrite m path v s
  | .rspCiWrite m path v => Sys2Proof.Machine.execRspCiWrite m path v s
  | .evqCiWrite m path v => Sys2Proof.Machine.execEvqCiWrite m path v s
  | .evqEnableWrite m path v => Sys2Proof.Machine.execEvqEnableWrite m path v s
  | .badDoorbellClear m path hwSets => Sys2Proof.Machine.execBadDoorbellClear m path hwSets s
  | .evqOverflowClear m path hwSets => Sys2Proof.Machine.execEvqOverflowClear m path hwSets s
  | .clusterTimeLoRead path => Sys2Proof.Machine.execClusterTimeLoRead path s
  | .csrWrite src => Sys2Proof.Machine.execCsrWrite src s
  | .csrRead src => Sys2Proof.Machine.execCsrRead src s
  | .accountingPeriodBoundary t => Sys2Proof.Machine.execAccountingPeriodBoundary t s
  | .opNop p => Sys2Proof.Machine.execOpNop p s
  | .opHalt p => Sys2Proof.Machine.execOpHalt p s
  | .opBr p => Sys2Proof.Machine.execOpBr p s
  | .opLoop p => Sys2Proof.Machine.execOpLoop p s
  | .opAdd p => Sys2Proof.Machine.execOpAdd p s
  | .opAddi p => Sys2Proof.Machine.execOpAddi p s
  | .opSub p => Sys2Proof.Machine.execOpSub p s
  | .opMul p => Sys2Proof.Machine.execOpMul p s
  | .opAnd p => Sys2Proof.Machine.execOpAnd p s
  | .opOr p => Sys2Proof.Machine.execOpOr p s
  | .opXor p => Sys2Proof.Machine.execOpXor p s
  | .opShl p => Sys2Proof.Machine.execOpShl p s
  | .opShr p => Sys2Proof.Machine.execOpShr p s
  | .opSra p => Sys2Proof.Machine.execOpSra p s
  | .opLi p => Sys2Proof.Machine.execOpLi p s
  | .opLih p => Sys2Proof.Machine.execOpLih p s
  | .opCmp p => Sys2Proof.Machine.execOpCmp p s
  | .opCmpi p => Sys2Proof.Machine.execOpCmpi p s
  | .opPlog p => Sys2Proof.Machine.execOpPlog p s
  | .opAset p => Sys2Proof.Machine.execOpAset p s
  | .opAadd p => Sys2Proof.Machine.execOpAadd p s
  | .opAaddi p => Sys2Proof.Machine.execOpAaddi p s
  | .opAget p => Sys2Proof.Machine.execOpAget p s
  | .opLds p => Sys2Proof.Machine.execOpLds p s
  | .opSts p => Sys2Proof.Machine.execOpSts p s
  | .opMvstat p => Sys2Proof.Machine.execOpMvstat p s
  | .opWaitTime p => Sys2Proof.Machine.execOpWaitTime p s
  | .opWaitSync p => Sys2Proof.Machine.execOpWaitSync p s
  | .opWaitMover p => Sys2Proof.Machine.execOpWaitMover p s
  | .opWaitUnit p => Sys2Proof.Machine.execOpWaitUnit p s
  | .opSignal p => Sys2Proof.Machine.execOpSignal p s
  | .opSyncReset p => Sys2Proof.Machine.execOpSyncReset p s
  | .opDone p => Sys2Proof.Machine.execOpDone p s
  | .opOvl p => Sys2Proof.Machine.execOpOvl p s
  | .overlayComplete p => Sys2Proof.Machine.execOverlayComplete p s
  | .opOvlWait p => Sys2Proof.Machine.execOpOvlWait p s
  | .opTrace p => Sys2Proof.Machine.execOpTrace p s
  | .opMvIssue p => Sys2Proof.Machine.execOpMvIssue p s
  | .opMvIssuex p => Sys2Proof.Machine.execOpMvIssuex p s
  | .moverDescriptorComplete t p mv => Sys2Proof.Machine.execMoverDescriptorComplete t p mv s
  | .opPrQload p => Sys2Proof.Machine.execOpPrQload p s
  | .opPrPass p => Sys2Proof.Machine.execOpPrPass p s
  | .prismPassComplete t p => Sys2Proof.Machine.execPrismPassComplete t p s
  | .opPrClr p => Sys2Proof.Machine.execOpPrClr p s
  | .opAttend p => Sys2Proof.Machine.execOpAttend p s
  | .opAppend p => Sys2Proof.Machine.execOpAppend p s
  | .opMerge p => Sys2Proof.Machine.execOpMerge p s
  | .opSetlen p => Sys2Proof.Machine.execOpSetlen p s
  | .lensWalkComplete t p => Sys2Proof.Machine.execLensWalkComplete t p s
  | .opVld p => Sys2Proof.Machine.execOpVld p s
  | .opVst p => Sys2Proof.Machine.execOpVst p s
  | .opVacc p => Sys2Proof.Machine.execOpVacc p s
  | .opVaccw p => Sys2Proof.Machine.execOpVaccw p s
  | .opVmovq p => Sys2Proof.Machine.execOpVmovq p s
  | .opVadd p => Sys2Proof.Machine.execOpVadd p s
  | .opVsub p => Sys2Proof.Machine.execOpVsub p s
  | .opVmul p => Sys2Proof.Machine.execOpVmul p s
  | .opVfma p => Sys2Proof.Machine.execOpVfma p s
  | .opVmax p => Sys2Proof.Machine.execOpVmax p s
  | .opVmin p => Sys2Proof.Machine.execOpVmin p s
  | .opVbcast p => Sys2Proof.Machine.execOpVbcast p s
  | .opVseti p => Sys2Proof.Machine.execOpVseti p s
  | .opVredsum p => Sys2Proof.Machine.execOpVredsum p s
  | .opVredmax p => Sys2Proof.Machine.execOpVredmax p s
  | .opVexp2 p => Sys2Proof.Machine.execOpVexp2 p s
  | .opVlog2 p => Sys2Proof.Machine.execOpVlog2 p s
  | .opVrcp p => Sys2Proof.Machine.execOpVrcp p s
  | .opVrsqrt p => Sys2Proof.Machine.execOpVrsqrt p s
  | .opVsilu p => Sys2Proof.Machine.execOpVsilu p s
  | .opVsigm p => Sys2Proof.Machine.execOpVsigm p s
  | .opVrope p => Sys2Proof.Machine.execOpVrope p s
  | .opVtopk p => Sys2Proof.Machine.execOpVtopk p s
  | .programEnd t n => Sys2Proof.Machine.execProgramEnd t n s
  | .startLatch t n => Sys2Proof.Machine.execStartLatch t n s
  | .t0Reached t n => Sys2Proof.Machine.execT0Reached t n s
  | .deadlineExpiry t p x => Sys2Proof.Machine.execDeadlineExpiry t p x s
  | .releaseWaitExpiry t n => Sys2Proof.Machine.execReleaseWaitExpiry t n s
  | .readyRecordExpiry t tag => Sys2Proof.Machine.execReadyRecordExpiry t tag s
  | .startRecordReady q => Sys2Proof.Machine.execStartRecordReady q s
  | .startRecordRelease q => Sys2Proof.Machine.execStartRecordRelease q s
  | .startRecordAbort q => Sys2Proof.Machine.execStartRecordAbort q s
  | .read q => Sys2Proof.Machine.execRead q s
  | .write q => Sys2Proof.Machine.execWrite q s
  | .writeStash q => Sys2Proof.Machine.execWriteStash q s
  | .atomicAdd q => Sys2Proof.Machine.execAtomicAdd q s
  | .atomicCompareSwap q => Sys2Proof.Machine.execAtomicCompareSwap q s
  | .atomicMinUnsigned q => Sys2Proof.Machine.execAtomicMinUnsigned q s
  | .atomicMaxUnsigned q => Sys2Proof.Machine.execAtomicMaxUnsigned q s
  | .atomicMinSigned q => Sys2Proof.Machine.execAtomicMinSigned q s
  | .atomicMaxSigned q => Sys2Proof.Machine.execAtomicMaxSigned q s
  | .signalFrame q => Sys2Proof.Machine.execSignalFrame q s
  | .schedFrame q => Sys2Proof.Machine.execSchedFrame q s
  | .mailbox q => Sys2Proof.Machine.execMailbox q s
  | .invalidate q => Sys2Proof.Machine.execInvalidate q s
  | .invalidateDrained t si tag => Sys2Proof.Machine.execInvalidateDrained t si tag s
  | .keyExchangePhase1 q => Sys2Proof.Machine.execKeyExchangePhase1 q s
  | .keyExchangePhase2 q => Sys2Proof.Machine.execKeyExchangePhase2 q s
  | .keyExchangePhase3 q => Sys2Proof.Machine.execKeyExchangePhase3 q s
  | .keyWaitExpiry t si => Sys2Proof.Machine.execKeyWaitExpiry t si s
  | .opcodeOnlyAPartSends q => Sys2Proof.Machine.execOpcodeOnlyAPartSends q s
  | .traceFrame q => Sys2Proof.Machine.execTraceFrame q s
  | .undefinedErunoOpcode q => Sys2Proof.Machine.execUndefinedErunoOpcode q s
  | .erunoSegment q => Sys2Proof.Machine.execErunoSegment q s
  | .reassemblyTimeout t si seq => Sys2Proof.Machine.execReassemblyTimeout t si seq s
  | .erunoResponse q => Sys2Proof.Machine.execErunoResponse q s
  | .translateResponse q => Sys2Proof.Machine.execTranslateResponse q s
  | .pageRequestResponse q => Sys2Proof.Machine.execPageRequestResponse q s
  | .erunoRequestTimeout t si tag => Sys2Proof.Machine.execErunoRequestTimeout t si tag s
  | .forward q => Sys2Proof.Machine.execForward q s
  | .rdShared src => Sys2Proof.Machine.execRdShared src s
  | .rdOwn src => Sys2Proof.Machine.execRdOwn src s
  | .upgrade src => Sys2Proof.Machine.execUpgrade src s
  | .wb src => Sys2Proof.Machine.execWb src s
  | .compAck src => Sys2Proof.Machine.execCompAck src s
  | .rspI src => Sys2Proof.Machine.execRspI src s
  | .rspS src => Sys2Proof.Machine.execRspS src s
  | .rspDataI src => Sys2Proof.Machine.execRspDataI src s
  | .rspDataS src => Sys2Proof.Machine.execRspDataS src s
  | .accept src => Sys2Proof.Machine.execAccept src s
  | .decline src => Sys2Proof.Machine.execDecline src s
  | .homeMemoryDataIn t line => Sys2Proof.Machine.execHomeMemoryDataIn t line s
  | .compAckTimeout t line => Sys2Proof.Machine.execCompAckTimeout t line s
  | .snoopTimeout t line a => Sys2Proof.Machine.execSnoopTimeout t line a s
  | .agentResolutionDone t a => Sys2Proof.Machine.execAgentResolutionDone t a s
  | .stashOfferTimeout t line => Sys2Proof.Machine.execStashOfferTimeout t line s
  | .agentLeaseExpiry t a => Sys2Proof.Machine.execAgentLeaseExpiry t a s
  | .dataS p => Sys2Proof.Machine.execDataS p s
  | .dataE p => Sys2Proof.Machine.execDataE p s
  | .dataM p => Sys2Proof.Machine.execDataM p s
  | .grantM p => Sys2Proof.Machine.execGrantM p s
  | .wbAck p => Sys2Proof.Machine.execWbAck p s
  | .snpShared p => Sys2Proof.Machine.execSnpShared p s
  | .snpInv p => Sys2Proof.Machine.execSnpInv p s
  | .stashFill p => Sys2Proof.Machine.execStashFill p s
  | .linkFrameReceive t q f => Sys2Proof.Machine.execLinkFrameReceive t q f s
  | .lldpdu q => Sys2Proof.Machine.execLldpdu q s
  | .initSendTimer t q => Sys2Proof.Machine.execInitSendTimer t q s
  | .ackDelayExpiry t q => Sys2Proof.Machine.execAckDelayExpiry t q s
  | .replayTimerExpiry t q => Sys2Proof.Machine.execReplayTimerExpiry t q s
  | .egressFrameBoundary t q => Sys2Proof.Machine.execEgressFrameBoundary t q s
  | .pcsLockLost t q => Sys2Proof.Machine.execPcsLockLost t q s
  | .linkLossTimeExpiry t q => Sys2Proof.Machine.execLinkLossTimeExpiry t q s
  | .portTrained t q => Sys2Proof.Machine.execPortTrained t q s
  | .negotiationTimeout t q => Sys2Proof.Machine.execNegotiationTimeout t q s
  | .downRetrainTimer t q => Sys2Proof.Machine.execDownRetrainTimer t q s
  | .quadResetHoldEnd t k => Sys2Proof.Machine.execQuadResetHoldEnd t k s
  | .trainLimitExpiry t k => Sys2Proof.Machine.execTrainLimitExpiry t k s
  | .pfcFrame q => Sys2Proof.Machine.execPfcFrame q s
  | .pfcPauseExpiry t q tc => Sys2Proof.Machine.execPfcPauseExpiry t q tc s
  | .pfcXoffRepeat t q tc => Sys2Proof.Machine.execPfcXoffRepeat t q tc s
  | .pauseFrame q => Sys2Proof.Machine.execPauseFrame q s
  | .rdmaWriteFirst q => Sys2Proof.Machine.execRdmaWriteFirst q s
  | .rdmaWriteMiddle q => Sys2Proof.Machine.execRdmaWriteMiddle q s
  | .rdmaWriteLast q => Sys2Proof.Machine.execRdmaWriteLast q s
  | .rdmaWriteOnly q => Sys2Proof.Machine.execRdmaWriteOnly q s
  | .rdmaReadRequest q => Sys2Proof.Machine.execRdmaReadRequest q s
  | .compareSwap q => Sys2Proof.Machine.execCompareSwap q s
  | .fetchAdd q => Sys2Proof.Machine.execFetchAdd q s
  | .sendFirst q => Sys2Proof.Machine.execSendFirst q s
  | .sendMiddle q => Sys2Proof.Machine.execSendMiddle q s
  | .sendLast q => Sys2Proof.Machine.execSendLast q s
  | .sendOnly q => Sys2Proof.Machine.execSendOnly q s
  | .roceUnsupportedPacket q => Sys2Proof.Machine.execRoceUnsupportedPacket q s
  | .roceAck q => Sys2Proof.Machine.execRoceAck q s
  | .roceNak q => Sys2Proof.Machine.execRoceNak q s
  | .roceAckTimeout t qp => Sys2Proof.Machine.execRoceAckTimeout t qp s
  | .cnp q => Sys2Proof.Machine.execCnp q s
  | .cnpRateRecovery t qp => Sys2Proof.Machine.execCnpRateRecovery t qp s
  | .shaperRefill t => Sys2Proof.Machine.execShaperRefill t s
  | .gateEntryBoundary t q ofSchedule => Sys2Proof.Machine.execGateEntryBoundary t q ofSchedule s
  | .sync q => Sys2Proof.Machine.execSync q s
  | .followUp q => Sys2Proof.Machine.execFollowUp q s
  | .delayReq q => Sys2Proof.Machine.execDelayReq q s
  | .delayResp q => Sys2Proof.Machine.execDelayResp q s
  | .pdelayReq q => Sys2Proof.Machine.execPdelayReq q s
  | .pdelayResp q => Sys2Proof.Machine.execPdelayResp q s
  | .pdelayRespFollowUp q => Sys2Proof.Machine.execPdelayRespFollowUp q s
  | .announce q => Sys2Proof.Machine.execAnnounce q s
  | .ptpManagementSignaling q => Sys2Proof.Machine.execPtpManagementSignaling q s
  | .syncTransmitTimer t q => Sys2Proof.Machine.execSyncTransmitTimer t q s
  | .pdelayReqTimer t q => Sys2Proof.Machine.execPdelayReqTimer t q s
  | .announceTimeout t => Sys2Proof.Machine.execAnnounceTimeout t s
  | .sampleTimeout t => Sys2Proof.Machine.execSampleTimeout t s
  | .holdoverBoundExceeded t => Sys2Proof.Machine.execHoldoverBoundExceeded t s
  | .timePpsInEdge t => Sys2Proof.Machine.execTimePpsInEdge t s
  | .ppsOutEdge t => Sys2Proof.Machine.execPpsOutEdge t s
  | .timeRefInQualified t => Sys2Proof.Machine.execTimeRefInQualified t s
  | .timeRefInLost t => Sys2Proof.Machine.execTimeRefInLost t s
  | .refreshTick t st pc demandWaits => Sys2Proof.Machine.execRefreshTick t st pc demandWaits s
  | .refreshIdleIssue t st pc => Sys2Proof.Machine.execRefreshIdleIssue t st pc s
  | .refreshWindowOpen t st pc => Sys2Proof.Machine.execRefreshWindowOpen t st pc s
  | .refreshPreT0 t st => Sys2Proof.Machine.execRefreshPreT0 t st s
  | .reserveIntervalStart t st => Sys2Proof.Machine.execReserveIntervalStart t st s
  | .idleCloseExpiry t st pc bank => Sys2Proof.Machine.execIdleCloseExpiry t st pc bank s
  | .temperatureRead t temps => Sys2Proof.Machine.execTemperatureRead t temps s
  | .dieTemperatureRead t temps => Sys2Proof.Machine.execDieTemperatureRead t temps s
  | .stackAccessComplete t st line obs => Sys2Proof.Machine.execStackAccessComplete t st line obs s
  | .modeRegisterReadTimeout t st => Sys2Proof.Machine.execModeRegisterReadTimeout t st s
  | .stackRailOutOfTarget t fold => Sys2Proof.Machine.execStackRailOutOfTarget t fold s
  | .stackFailureDeclaration t st => Sys2Proof.Machine.execStackFailureDeclaration t st s
  | .patrolScrubRead t st obs => Sys2Proof.Machine.execPatrolScrubRead t st obs s
  | .repairWrite t st => Sys2Proof.Machine.execRepairWrite t st s
  | .combineIdleExpiry t st stripe => Sys2Proof.Machine.execCombineIdleExpiry t st stripe s
  | .rebuildSlotStart t => Sys2Proof.Machine.execRebuildSlotStart t s
  | .rebuildSlotComplete t => Sys2Proof.Machine.execRebuildSlotComplete t s
  | .leaseWarningTimer t c => Sys2Proof.Machine.execLeaseWarningTimer t c s
  | .leaseExpiry t c => Sys2Proof.Machine.execLeaseExpiry t c s
  | .fenceDrained t e => Sys2Proof.Machine.execFenceDrained t e s
  | .fenceDrainTimeout t e => Sys2Proof.Machine.execFenceDrainTimeout t e s
  | .clearingComplete t e => Sys2Proof.Machine.execClearingComplete t e s
  | .roleSessionIdleTimeout t id => Sys2Proof.Machine.execRoleSessionIdleTimeout t id s
  | .authLockoutExpiry t r => Sys2Proof.Machine.execAuthLockoutExpiry t r s
  | .traceFlushTimer t n => Sys2Proof.Machine.execTraceFlushTimer t n s
  | .progressWatchdogExpiry t p => Sys2Proof.Machine.execProgressWatchdogExpiry t p s
  | .faultedEngineNotIdle t p => Sys2Proof.Machine.execFaultedEngineNotIdle t p s
  | .escalation t p => Sys2Proof.Machine.execEscalation t p s
  | .heartbeatExpiry t => Sys2Proof.Machine.execHeartbeatExpiry t s
  | .arrayUe t array unit word => Sys2Proof.Machine.execArrayUe t array unit word s
  | .resetNFall t => Sys2Proof.Machine.execResetNFall t s
  | .warmRstNFall t => Sys2Proof.Machine.execWarmRstNFall t s
  | .pwrGoodFall t => Sys2Proof.Machine.execPwrGoodFall t s
  | .vddAonLoss t => Sys2Proof.Machine.execVddAonLoss t s
  | .dumpUnitTimeout t unit => Sys2Proof.Machine.execDumpUnitTimeout t unit s
  | .dumpTimerExpiry t => Sys2Proof.Machine.execDumpTimerExpiry t s
  | .dumpComplete t => Sys2Proof.Machine.execDumpComplete t s
  | .start t env => Sys2Proof.Machine.execStart t env s
  | .stackBringUpDone t env => Sys2Proof.Machine.execStackBringUpDone t env s
  | .readyPoint t => Sys2Proof.Machine.execReadyPoint t s
  | .startLimitExpiry t => Sys2Proof.Machine.execStartLimitExpiry t s
  | .dumpCopyDone t => Sys2Proof.Machine.execDumpCopyDone t s
  | .thermalTrip t fold => Sys2Proof.Machine.execThermalTrip t fold s
  | .refclkEthLoss t k => Sys2Proof.Machine.execRefclkEthLoss t k s
  | .refclkMemLoss t fold => Sys2Proof.Machine.execRefclkMemLoss t fold s
  | .refclkSysLoss t => Sys2Proof.Machine.execRefclkSysLoss t s
  | .undefinedMailboxOpcode m => Sys2Proof.Machine.execUndefinedMailboxOpcode m s
  | .pcsLockRegained t q => Sys2Proof.Machine.execPcsLockRegained t q s
  | .lldpTransmitTimer t q => Sys2Proof.Machine.execLldpTransmitTimer t q s
  | .announceTransmitTimer t q => Sys2Proof.Machine.execAnnounceTransmitTimer t q s
  | .delayReqTransmitTimer t q => Sys2Proof.Machine.execDelayReqTransmitTimer t q s
  | .timePpsOutFall t => Sys2Proof.Machine.execTimePpsOutFall t s
  | .startRecordCopyTimer t => Sys2Proof.Machine.execStartRecordCopyTimer t s
  | .rnrRetryTimerExpiry t qp => Sys2Proof.Machine.execRnrRetryTimerExpiry t qp s
  | .orderedDeviceReset t => Sys2Proof.Machine.execOrderedDeviceReset t s

end Sys2Proof.Machine
end

