-- ==== Sys2Proof/Safety.lean ====
section
/-!
DEFINITION. The terms in which claims speak: when a request is taken and its command runs, what a completed command leaves,
and what a safe run keeps.
-/

namespace Sys2Proof.Machine

open Sys2Proof

/-! ### Outcomes -/

/-- A command completes in a state of which `P` holds. -/
def Completes (i : Instr) (s : State) (P : State → Prop) : Prop := ∃ t, exec i s = .next t ∧ P t

/-! ### Mailbox commands (02 R35 to R38, R47) -/

/-- The request that a command of description `c` takes from mailbox `m`, and the state in which its body runs: it stands at
the head of the mailbox whose turn it is, carries the command's opcode, and passes checks 1 to 4 and the part of check 5
that every request passes, after the events that come first (02 R53). -/
def taken (c : Cmd) (m : Nat) (s : State) : Option (Req × State) :=
  match headOf s m with
  | none => none
  | some q =>
    let r := { q with owes := owesOf c q }
    let u := takeUp (c.before r s) r
    if !(q.opcode == c.op && c.form q) || (u.dev.mode == .minimal && !c.minimal) then none
    else match authorise u c r with
      | (none, _) => none
      | (some q', s') => if (slotFault { q' with owes := owesOf c q' }).isSome then none else some ({ q' with owes := owesOf c q' }, s')

/-- The state after the audit record that the command writes first (02 R49), where it writes one. -/
def recorded (c : Cmd) (q : Req) (s : State) : State :=
  if c.changes q && q.party.isRole && !c.idle q s then
    auditWrite s q.m q.binding (BitVec.ofNat 16 q.opcode) (match q.party with | .role r => roleCode r | _ => 0) q.keyIndex (c.body q s).status q.digest
  else s

/-- Command `c` is ready to run for request `q` of mailbox `m` of `s`, and `v` is the state in which its body is judged: the
request is taken, no pending command keeps it out with BUSY, it does not ask for validation alone unless the command is a
query, and the audit log can be written where a record is due. -/
def Ready (c : Cmd) (m : Nat) (s : State) (q : Req) (v : State) : Prop :=
  taken c m s = some (q, v) ∧ c.blocked q v = false ∧ (q.validateOnly && !c.query) = false
    ∧ (c.changes q && q.party.isRole && !c.idle q v && !v.flash.writeOk) = false

/-- The bytes of ARGS that the command does not lay out are 0 (02 R36, R47 check 5); `used` lists what it lays out. -/
abbrev RestZero (q : Req) (used : List (Nat × Nat)) : Prop := q.firstBad used [] = none

/-- OK with RESULTS and extended results, from the state `u`. -/
def okay (u : State) (q : Req) (res xres : Bytes) : State := closeWith u q stOk 0 res xres

/-- A status other than OK and PENDING, with a DETAIL, from the state `u`. -/
def refusal (u : State) (q : Req) (status detail : Nat) : State := closeWith u q status detail [] []

/-- PENDING with RESULTS: the command is owed a COMPLETION. -/
def pending (u : State) (q : Req) (res : Bytes) : State := closeWith { u with pendings := u.pendings ++ [q.owes] } q stPending 0 res []

/-! ### Received frames (12 R273, R283) -/

/-- The frame that a row of received frames takes at port `q`, and the state without it: the first frame of the row's kind that
no earlier frame of its flow stands before at any port, while the part is clocked. -/
def arrival (s : State) (q : Nat) (want : Frame → Bool) : Option (RxItem × State) :=
  if s.clocked then
    match takeFrame s q want with
    | some (x, r) => some (x, releaseIngress (s.updPort q (fun p => { p with rx := r })) q x.frame)
    | none => none
  else none

/-- The Eruno request that a row takes at port `q`, and the state in which checks 6 to 8 act: it is not held by its FENCE, passes
checks 1 to 5, and its FLAGS are legal (12 R281 to R283). -/
def requested (s : State) (q : Nat) (want : Eruno → Bool) : Option (InReq × State) :=
  match arrival s q (fun f => (erunoOf f).any (fun e => isRequest s q e && want e && !fenceHolds s q e)) with
  | some (x, w) => match erunoOf x.frame with
    | some e => match acceptRequest w q x e with
      | (u, some r) => if flagsLegal e then some (r, u) else none
      | (_, none) => none
    | none => none
  | none => none

/-- The Eruno request, in one frame, that a row takes at port `q` where it passes checks 1 to 3, and the state in which check 4 judges it (12 R281). -/
def numbered (s : State) (q : Nat) (want : Eruno → Bool) : Option (InReq × State) :=
  match arrival s q (fun f => (erunoOf f).any (fun e => isRequest s q e && want e && !fenceHolds s q e)) with
  | some (x, w) => match erunoOf x.frame with
    | some e =>
      let i := e.index
      match (if !sessionMatches w e || x.opened then none else openFrame (w.session i) (segmentIndex w e) e) with
      | some d =>
        if rebinds i d || !seqFits (w.session i) d.seq then none else
        some ({ q := q, i := i, ctx := (w.session i).ctx, e := markEcho d x.frame.ce, dscp := x.frame.dscp },
          bump (bump (w.updSession i (acceptSeq · d.seq)) .session i 1 1) .session i 3 d.payload.length)
      | none => none
    | none => none
  | none => none

/-- The Eruno response that a row takes at port `q`, the request of the part that it answers, and the state in which that request
is no longer outstanding (12 R281). -/
def answered (s : State) (q : Nat) (want : Eruno → Bool) : Option (Outstanding × Eruno × State) :=
  match arrival s q (fun f => (erunoOf f).any want) with
  | some (x, w) => match erunoOf x.frame with
    | some e => match matchResponse w x e with
      | some (o, e) => some (o, e, endOutstanding w o e)
      | none => none
    | none => none
  | none => none

/-- The crossbar message that a paddock's line cache takes. -/
def delivered (s : State) (p : Nat) (want : XMsg → Bool) : Option (XMsg × State) := takeMsg s (fun m => !m.toHome && m.paddock == p && want m)

/-- The crossbar message that the home takes from a paddock's line cache. -/
def sentHome (s : State) (p : Nat) (want : XMsg → Bool) : Option (XMsg × State) := takeMsg s (fun m => m.toHome && m.paddock == p && want m)

/-- An answer of an agent to a snoop or a stash offer: its operation codes, its SUBOP, no error, and a line of data where the SUBOP
carries one (14 R332). -/
def answerOf (s : State) (ops : List Nat) (subop : Nat) (e : Eruno) : Bool :=
  localEndpoint s e.dst && e.isResponse && !e.segmented && ops.contains e.op && e.subop.toNat == subop
    && e.status == 0 && e.payload.length == (if subop = 0x12 || subop = 0x13 then 128 else 0)

/-- The answer that the home takes from a source: the agent, the line, the way, the data, and the state without the answer. -/
def answerFrom (s : State) (src : CohSource) (ops : List Nat) (subop : Nat) : Option (Nat × Nat × Nat × Bytes × State) :=
  match src with
  | .port q => match answered s q (answerOf s ops subop) with
    | some (o, e, w) => match o.kind with
      | .snoop a line => if ops.contains 0x1A then none else some (a, line, e.arg 48 8, e.payload, w)
      | .stashOffer a line => if ops.contains 0x1A then some (a, line, e.arg 48 8, e.payload, w) else none
      | _ => none
    | none => none
  | .paddock p => match sentHome s p (fun m => ops.contains m.opcode && m.subop == subop) with
    | some (m, w) => (awaitedLine w (64 + p) m.va).map (fun line => (64 + p.val, line, m.way, m.data, w))
    | none => none

/-- The coherence request that the home takes from a source: the agent, the request before its line is known, and the state in
which its address is checked. -/
def cohRequest (s : State) (src : CohSource) (op : Nat) : Option (Agent × CohReq × State) :=
  match src with
  | .port q => match requested s q (fun e => e.op == op && !sliceFull s (e.arg 0 48)) with
    | some (r, u) => match agentOfSession u r.i with
      | some a => match u.agent? a with
        | some g => if cohFrameBad g r.e then none else
            some (g, { line := 0, va := r.e.arg 0 48, opcode := r.e.op, agent := a, way := r.e.arg 48 8, seq := r.e.seq, tag := r.e.tag, port := r.q, echo := r.e.flag 1, scheduled := r.e.flag 4, data := r.e.payload }, u)
        | none => none
      | none => none
    | none => none
  | .paddock p => match sentHome s p (fun m => m.opcode == op) with
    | some (m, u) => match u.agent? (64 + p) with
      | some g => if g.dead.isSome then none else some (g, { line := 0, va := m.va, opcode := op, agent := 64 + p, way := m.way, data := m.data }, u)
      | none => none
    | none => none

/-! ### The engine (04 R82) -/

/-- The bundle at the pc of paddock `p` can issue: the sequencer issues, nothing holds the bundle or makes it wait, and no operation of it
faults. The schedule's number and the schedule. -/
def canIssue (s : State) (p : Nat) : Option (Nat × Sched) :=
  let e := s.engine p
  let ops := bundleOps e.bundle
  match runningOn s p with
  | none => none
  | some (n, g) =>
    if s.clocked && e.issuing && !overlaid e && !ops.any (·.held e) && !ops.any (fun o => o.op == .waitSync && o.enabled e && !ownsSync s g.ctx o.x.x)
        && !ops.any (·.waits s e g p) && firstFault ((ops.filter (·.enabled e)).map (·.fault s e g p)) == 0 then some (n, g) else none

/-- Where the bundle at the pc goes on: the loops and the next bundle. -/
def flowOf (e : Engine) : List LoopLevel × Nat := flow e (((bundleOps e.bundle).head?).getD { op := .nop, x := slotOf 0 })

/-- The operation that alone takes effect in the bundle at the pc: every other slot is disabled or holds a NOP. -/
def soleOp (e : Engine) : Option Placed :=
  match (effective e (bundleOps e.bundle)).filter (fun o => o.op != .nop) with
  | [o] => some o
  | _ => none

/-- The bundle at the pc issues, one operation alone takes effect, and the next bundle lies in instruction memory. -/
def issuesAlone (s : State) (p : Nat) : Option (Nat × Sched × Placed) :=
  match canIssue s p, soleOp (s.engine p) with
  | some (n, g), some o => if (flowOf (s.engine p)).2 < imemSize then some (n, g, o) else none
  | _, _ => none

/-- The bundle of paddock `p` has issued with no effect but that on its engine, which is `e` before the pc moves: every other engine, and
every field of the state but the counters and the count of free values, is as before. -/
def OnlyEngine (s t : State) (p : Nat) (e : Engine) : Prop :=
  t = { s with engines := t.engines, counters := t.counters, free := t.free } ∧ (∀ k, k ≠ p → t.engine k = s.engine k)
    ∧ t.engine p = { e with loops := (flowOf (s.engine p)).1, pc := (flowOf (s.engine p)).2, lastIssue := s.now }

/-! ### What a safe run keeps -/

/-- Every memory of the part stands in its canonical form. -/
def MemoriesCanonical (s : State) : Prop :=
  s.pool.wf = true ∧ (∀ p ∈ s.pages, p.2.mem.wf = true) ∧ (∀ e ∈ s.engines, e.2.store.wf = true ∧ e.2.qrows.wf = true)

/-- A command that writes or reads one register of a mailbox page or of the identity page (02 R30, R31). -/
def onPage : Instr → Bool
  | .reqPiWrite _ _ _ | .rspCiWrite _ _ _ | .evqCiWrite _ _ _ | .evqEnableWrite _ _ _ | .badDoorbellClear _ _ _ | .evqOverflowClear _ _ _
  | .clusterTimeLoRead _ => true
  | _ => false

/-- A page whose event queue is off holds no COMPLETION back (02 R41). -/
def Page.heldOnlyEnabled (p : Page) : Prop := p.evqEnable = false → p.held = []

end Sys2Proof.Machine
end

