-- ==== Sys2Proof/Certificates/Slice0/Obligations.lean ====
section
/-!
DEFINITION. The statements for the provers. A statement over several commands names each of them; `v` is the state in which
a mailbox command's body is judged, and `recorded c q v` is `v` with the command's audit record.
-/

open Sys2Proof Sys2Proof.Machine

/-! ### The queue -/

/-- Log entry 2 and the block's own rule: a step runs the command at the front of the queue on the state with the queue's
rest. -/
def Obligations.StepRunsFrontCommand : Prop :=
  ∀ (c : Instr) (rest : List Instr) (s : State), step { s with pending := c :: rest } = exec c { s with pending := rest }

/-- The model's choice (log entry 2): on an empty queue one nanosecond passes, and nothing but uptime and the cluster clock
changes. -/
def Obligations.EmptyQueueLetsTimePass : Prop :=
  ∀ s : State, s.pending = [] → ∃ k, step s = .next { s with now := s.now + 1, clock := k } ∧ (s.clocked = false → k = s.clock)

/-! ### Session and device commands (chapter 02) -/

/-- 02 R31, R42 to R44, R49, R57, R60, R446: DEVICE_STATUS, SET_ACCT_PERIOD, MAILBOX_RESET, ROLE_CHALLENGE, ROLE_PROVE and
ROLE_END complete with their effects. The clause
that a new challenge replaces the nonce of the same role and path is derived: it is the model's choice (log entry 21). -/
def Obligations.SessionCommandsComplete : Prop :=
  (∀ (m : Fin 1029) (s : State) (q : Req) (v : State), Ready cmdDeviceStatus m s q v → RestZero q [] →
    exec (.deviceStatus m) s = .next (okay v q (natLe v.deviceId 4 ++ natLe v.aon.bootEpoch.toNat 4 ++ natLe v.deviceMode 4
      ++ natLe v.layout.epoch.toNat 1 ++ natLe 0 3 ++ natLe (if v.job.isOpen then v.job.number.toNat else 0) 4) [])) ∧
  (∀ (m : Fin 1029) (s : State) (q : Req) (v : State), Ready cmdSetAcctPeriod m s q v → RestZero q [(20, 8)] →
    100000 ≤ q.arg 20 8 → q.arg 20 8 ≤ 10000000000 →
    Completes (.setAcctPeriod m) s (fun t => t.dev = v.dev ∧ t.staged = v.staged ++ [{ at_ := joinBoundary v, change := .period (q.arg 20 8), owes := some q.owes }])) ∧
  (∀ (m : Fin 1029) (s : State) (q : Req) (v : State), Ready cmdMailboxReset m s q v → RestZero q [] →
    Completes (.mailboxReset m) s (fun t => (t.page q.m).reqCi = (v.page q.m).reqPi ∧ (t.page q.m).rspPi = (v.page q.m).reqPi
      ∧ (t.page q.m).reqPi = (v.page q.m).reqPi ∧ (t.page q.m).ranges = [])) ∧
  (∀ (m : Fin 1029) (s : State) (q : Req) (v : State) (r : Role), Ready cmdRoleChallenge m s q v → RestZero q [(20, 1)] →
    roleOfCode (q.arg 20 1) = some r → roleLocked v r = false →
    ∃ n : Nonce, n.role = r ∧ n.binding = q.binding ∧ n.issued = v.now ∧
      exec (.roleChallenge m) s = .next (okay { v with free := v.free + 1, auth := { v.auth with
        nonces := v.auth.nonces.filter (fun x => !(x.role == r && x.binding == q.binding)) ++ [n] } } q (natLe n.value.toNat 32) [])) ∧
  (∀ (m : Fin 1029) (s : State) (q : Req) (v : State) (r : Role) (n : Nonce), Ready cmdRoleProve m s q v →
    RestZero q [(20, 1)] → roleOfCode (q.arg 20 1) = some r → roleLocked v r = false → openSessions v r < 8 →
    v.auth.nonces.find? (fun x => x.role == r && x.binding == q.binding) = some n → v.now - n.issued ≤ secNs 10 →
    Completes (.roleProve m) s (fun t => t.auth.nonces = v.auth.nonces.filter (fun x => !(x.role == r && x.binding == q.binding)) ∧
      (∀ i key, provenKey v r (proofMessage v n) q.xarg = some (i, key) →
        ∃ id, id ≠ 0 ∧ t.auth.sessions = v.auth.sessions ++ [{ id := id, role := r, keyIndex := i, key := key, binding := q.binding, counter := 0, lastCommand := v.now }]) ∧
      (provenKey v r (proofMessage v n) q.xarg = none → t.auth.sessions = v.auth.sessions))) ∧
  (∀ (m : Fin 1029) (s : State) (q : Req) (v : State), Ready cmdRoleEnd m s q v → RestZero q [] →
    Completes (.roleEnd m) s (fun t => t.auth.sessions = v.auth.sessions.filter (fun r => r.id != q.roleSession)))

/-! ### Contexts, segments and extents (chapters 03 and 15) -/

/-- 15 R345, R346, R350, R358, R361: the context commands complete: CONTEXT_CREATE makes a context ACTIVE with its limits and its
lease; LEASE_SET, LEASE_RENEW and LIMITS_SET change what they name; CONTEXT_STATUS reports; CONTEXT_DESTROY and TRANSLATION_FLUSH
stay pending. -/
def Obligations.ContextCommandsComplete : Prop :=
  (∀ (m : Fin 1029) (s v : State) (q : Req), Ready cmdContextCreate m s q v → RestZero q [(20, 12)] → q.arg 20 2 ≤ 1023 →
    (q.arg 22 4 = 0 ∨ (100 ≤ q.arg 22 4 ∧ q.arg 22 4 ≤ 60000)) → q.arg 26 4 ≤ 65536 → q.arg 30 2 ≤ v.tenantExtents → (v.ctx (q.arg 20 2)).st = .none →
    Completes (.contextCreate m) s (fun t => t.ctx (q.arg 20 2) = { st := .active, leaseMs := if q.arg 22 4 = 0 then 2000 else q.arg 22 4, leaseStart := v.now, syncLimit := q.arg 26 4, extentLimit := q.arg 30 2 })) ∧
  (∀ (m : Fin 1029) (s v : State) (q : Req), Ready cmdContextDestroy m s q v → RestZero q [(20, 2)] → q.arg 20 2 ≤ 1023 →
    ((v.ctx (q.arg 20 2)).st = .active ∨ (v.ctx (q.arg 20 2)).st = .lapsed) →
    exec (.contextDestroy m) s = .next (endingProgress (pending (beginEnding (recorded cmdContextDestroy q v) (q.arg 20 2)) q []) (q.arg 20 2))) ∧
  (∀ (m : Fin 1029) (s v : State) (q : Req), Ready cmdContextStatus m s q v → RestZero q [(20, 2)] → (q.ctx? = none → q.arg 20 2 ≤ 1023) →
    exec (.contextStatus m) s = .next (okay v q (natLe (v.ctx (namedCtx q)).st.code 1 ++ natLe 0 1 ++ natLe (heldExtents v (namedCtx q)).length 2
      ++ natLe (v.ctx (namedCtx q)).leaseMs 4 ++ natLe (leaseLeft v (namedCtx q)) 4 ++ natLe v.aon.bootEpoch.toNat 4) [])) ∧
  (∀ (m : Fin 1029) (s v : State) (q : Req), Ready cmdLeaseSet m s q v → RestZero q [(20, 6)] → q.arg 20 2 ≤ 1023 → 100 ≤ q.arg 22 4 → q.arg 22 4 ≤ 60000 →
    ((v.ctx (q.arg 20 2)).st = .active ∨ (v.ctx (q.arg 20 2)).st = .lapsed) →
    Completes (.leaseSet m) s (fun t => t.ctx (q.arg 20 2) = { v.ctx (q.arg 20 2) with leaseMs := q.arg 22 4, leaseStart := v.now, warned := false, st := .active })) ∧
  (∀ (m : Fin 1029) (s v : State) (q : Req), Ready cmdLeaseRenew m s q v → RestZero q [(20, 2), (24, 4)] → (q.ctx? = none → q.arg 20 2 ≤ 1023) →
    (v.ctx (namedCtx q)).st = .active → q.arg 24 4 = v.aon.bootEpoch.toNat →
    Completes (.leaseRenew m) s (fun t => t.ctx (namedCtx q) = { v.ctx (namedCtx q) with leaseStart := v.now, warned := false })) ∧
  (∀ (m : Fin 1029) (s v : State) (q : Req), Ready cmdLimitsSet m s q v → RestZero q [(20, 2), (26, 6)] → q.arg 20 2 ≤ 1023 → q.arg 26 4 ≤ 65536 →
    q.arg 30 2 ≤ v.tenantExtents → (v.ctx (q.arg 20 2)).st ≠ .none →
    Completes (.limitsSet m) s (fun t => t.ctx (q.arg 20 2) = { v.ctx (q.arg 20 2) with syncLimit := q.arg 26 4, extentLimit := q.arg 30 2 })) ∧
  (∀ (m : Fin 1029) (s v : State) (q : Req) (c : Nat), Ready cmdTranslationFlush m s q v → RestZero q [(20, 2)] → flushCtx v q = some c →
    (q.arg 20 2 = 0xFFFF ∨ (v.session (q.arg 20 2)).ctx = some c) →
    Completes (.translationFlush m) s (fun t => t.xcache = v.xcache.filter (fun x =>
      !(if q.arg 20 2 = 0xFFFF then (v.session x.session).ctx == some c else x.session == q.arg 20 2)) ∧ t.pendings = v.pendings ++ [q.owes]))

/-- 03 R71 to R73: SEGMENT_SET and SEGMENT_CLEAR stage the change of their slot and stay pending; the slot keeps what it holds
until the commit; SEGMENT_QUERY returns what the slot holds. -/
def Obligations.SegmentCommandsComplete : Prop :=
  (∀ (m : Fin 1029) (s v : State) (q : Req), Ready cmdSegmentSet m s q v → RestZero q [(20, 12)] → q.arg 20 1 ≤ 7 → q.arg 21 1 < 64 →
    (bit (q.arg 21 1) 2 = true → bit (q.arg 21 1) 1 = true) → 1 ≤ q.arg 22 2 → q.arg 22 2 ≤ 256 → q.arg 24 8 % 2 ^ 30 = 0 →
    q.arg 24 8 + q.arg 22 2 * 2 ^ 30 ≤ 2 ^ 48 → q.xargLen = 4 * q.arg 22 2 → entryRangeFault v q.xarg (q.arg 22 2) = none →
    (∀ e ∈ segEntries q.xarg (q.arg 22 2), extentOf v q.tenant e.extent = true) →
    (∀ g ∈ otherSegments v q.tenant (q.arg 20 1), segOverlap (q.arg 24 8) (q.arg 22 2) g = false) →
    entryFault v (otherSegments v q.tenant (q.arg 20 1)) (segEntries q.xarg (q.arg 22 2)) 0 [] = none → agentOn v q.tenant (q.arg 20 1) = false →
    Completes (.segmentSet m) s (fun t => t.ctxs = v.ctxs ∧ t.staged = v.staged ++ [{ at_ := joinBoundary v, owes := some q.owes, change := .segment q.tenant (q.arg 20 1) (some { flags := BitVec.ofNat 8 (q.arg 21 1), base := q.arg 24 8, list := segEntries q.xarg (q.arg 22 2) }) }])) ∧
  (∀ (m : Fin 1029) (s v : State) (q : Req) (g : Segment), Ready cmdSegmentClear m s q v → RestZero q [(20, 1)] → q.arg 20 1 ≤ 7 →
    tget? (v.ctx q.tenant).segs (q.arg 20 1) = some g → (g.coherent = true → agentOn v q.tenant (q.arg 20 1) = false) →
    Completes (.segmentClear m) s (fun t => t.ctxs = v.ctxs ∧
      t.staged = v.staged ++ [{ at_ := joinBoundary v, owes := some q.owes, change := .segment q.tenant (q.arg 20 1) none }])) ∧
  (∀ (m : Fin 1029) (s v : State) (q : Req) (g : Segment), Ready cmdSegmentQuery m s q v → RestZero q [(20, 1)] → q.arg 20 1 ≤ 7 →
    tget? (v.ctx q.tenant).segs (q.arg 20 1) = some g →
    exec (.segmentQuery m) s = .next (okay v q (natLe 1 1 ++ natLe g.flags.toNat 1 ++ natLe g.list.length 2 ++ natLe g.base 8
      ++ natLe (b2n (stagedSegment v q.tenant (q.arg 20 1)).isSome 0) 1) ((g.list.take (q.room / 4)).flatMap (·.bytes)))) ∧
  (∀ (m : Fin 1029) (s v : State) (q : Req), Ready cmdSegmentQuery m s q v → RestZero q [(20, 1)] → q.arg 20 1 ≤ 7 →
    tget? (v.ctx q.tenant).segs (q.arg 20 1) = none →
    exec (.segmentQuery m) s = .next (okay v q (natLe 0 12 ++ natLe (b2n (stagedSegment v q.tenant (q.arg 20 1)).isSome 0) 1) []))

/-- 15 R349, R351, R362: EXTENT_GRANT gives each extent of its range to the context, EXTENT_REVOKE takes each to REVOKING and
stages its fence, EXTENT_STATUS and EXTENT_LIST report. -/
def Obligations.ExtentCommandsComplete : Prop :=
  (∀ (m : Fin 1029) (s v : State) (q : Req), Ready cmdExtentGrant m s q v → RestZero q [(20, 6)] → q.arg 20 2 ≤ 1023 → 1 ≤ q.arg 24 2 → q.arg 24 2 ≤ 256 →
    q.arg 22 2 + q.arg 24 2 ≤ v.tenantExtents → (v.ctx (q.arg 20 2)).st = .active →
    (∀ e, q.arg 22 2 ≤ e → e < q.arg 22 2 + q.arg 24 2 → (v.extent e).st = .free) →
    (heldExtents v (q.arg 20 2)).length + q.arg 24 2 ≤ (v.ctx (q.arg 20 2)).extentLimit →
    Completes (.extentGrant m) s (fun t => (∀ e, q.arg 22 2 ≤ e → e < q.arg 22 2 + q.arg 24 2 →
        t.extent e = { v.extent e with st := .granted, owner := q.arg 20 2, changed := v.ct }) ∧
      (∀ e, e < q.arg 22 2 ∨ q.arg 22 2 + q.arg 24 2 ≤ e → t.extent e = v.extent e))) ∧
  (∀ (m : Fin 1029) (s v : State) (q : Req), Ready cmdExtentRevoke m s q v → RestZero q [(22, 4)] → 1 ≤ q.arg 24 2 → q.arg 24 2 ≤ 256 →
    q.arg 22 2 + q.arg 24 2 ≤ v.tenantExtents → (∀ e, q.arg 22 2 ≤ e → e < q.arg 22 2 + q.arg 24 2 → (v.extent e).st = .granted) →
    Completes (.extentRevoke m) s (fun t => (∀ e, q.arg 22 2 ≤ e → e < q.arg 22 2 + q.arg 24 2 →
        t.extent e = { v.extent e with st := .revoking, cause := 1, changed := v.ct }) ∧
      t.staged.map (·.change) = v.staged.map (·.change) ++ (rangeFrom (q.arg 22 2) (q.arg 24 2)).map .fence)) ∧
  (∀ (m : Fin 1029) (s v : State) (q : Req), Ready cmdExtentStatus m s q v → RestZero q [(22, 2)] → q.arg 22 2 < v.tenantExtents →
    (q.ctx?.isSome = true → (v.extent (q.arg 22 2)).st ≠ .free ∧ (v.extent (q.arg 22 2)).owner = q.tenant) →
    exec (.extentStatus m) s = .next (okay v q (natLe (v.extent (q.arg 22 2)).st.code 1 ++ natLe (v.extent (q.arg 22 2)).gen.toNat 1
      ++ natLe (if (v.extent (q.arg 22 2)).st = .free then 0xFFFF else (v.extent (q.arg 22 2)).owner) 2 ++ natLe (v.extent (q.arg 22 2)).changed 8) [])) ∧
  (∀ (m : Fin 1029) (s v : State) (q : Req), Ready cmdExtentList m s q v → RestZero q [(20, 2)] → (q.ctx? = none → q.arg 20 2 ≤ 1023) →
    exec (.extentList m) s = .next (okay v q (natLe ((extentsOf v (namedCtx q) (· != .free)).take (q.room / 4)).length 4)
      (((extentsOf v (namedCtx q) (· != .free)).take (q.room / 4)).flatMap (fun e => natLe e 2 ++ natLe (v.extent e).gen.toNat 1 ++ natLe (v.extent e).st.code 1))))

/-! ### Schedules, sync objects and the sequence table (chapter 07) -/

/-- 07 R174 to R177, R182, R200: the schedule commands complete: SCHED_LOAD and SCHED_ARM stay pending with their work begun,
SCHED_ADMIT marks the schedule admitted, SCHED_DISARM returns it to LOADED without T0, SCHED_ABORT stops it with reason 1,
SCHED_UNLOAD removes it, SCHED_STATUS reports. -/
def Obligations.ScheduleCommandsComplete : Prop :=
  (∀ (m : Fin 1029) (s v : State) (q : Req), Ready cmdSchedLoad m s q v → RestZero q [(20, 16)] → 1 ≤ q.arg 28 8 → q.arg 28 8 ≤ 2 ^ 30 →
    Completes (.schedLoad m) s (fun t => t.loads = v.loads ++ [{ ctx := q.tenant, tag := q.tag, va := q.arg 20 8, len := q.arg 28 8, mailbox := q.m, cmd := q.serial }]
      ∧ t.pendings = v.pendings ++ [q.owes] ∧ t.scheds = v.scheds)) ∧
  (∀ (m : Fin 1029) (s v : State) (q : Req) (x : Sched), Ready cmdSchedAdmit m s q v → RestZero q [(20, 1)] → q.arg 20 1 ≤ 63 →
    v.sched? (q.arg 20 1) = some x → x.st.live = false → admissible v x.image = true → q.ctx? = none →
    Completes (.schedAdmit m) s (fun t => t.sched? (q.arg 20 1) = some { x with admitted := true })) ∧
  (∀ (m : Fin 1029) (s v : State) (q : Req) (x : Sched), Ready cmdSchedArm m s q v → RestZero q [(20, 1), (24, 16)] → q.arg 20 1 ≤ 63 →
    v.sched? (q.arg 20 1) = some x → q.ctx? = some x.ctx → x.st.live = false → (imagePrivileged x.image = true → x.admitted = true) →
    (bellwether x.image = 0xFFFF → q.arg 24 8 ≠ 0 ∧ v.ct + 200000 ≤ q.arg 24 8) → (bellwether x.image ≠ 0xFFFF → q.arg 24 8 = 0) →
    imageEpoch x.image = v.layout.epoch.toNat → imageOwned v x.image = true → (v.clock.st = .locked ∨ imageDevices x.image = 1) →
    paddocksFree v (q.arg 20 1) x.image = true → windowsFree v (q.arg 20 1) x.image = true →
    exec (.schedArm m) s = .next (pending (beginArming (recorded cmdSchedArm q v) (q.arg 20 1) x (q.arg 24 8) (q.arg 32 8)) q [])) ∧
  (∀ (m : Fin 1029) (s v : State) (q : Req) (x : Sched), Ready cmdSchedDisarm m s q v → RestZero q [(20, 1)] → q.arg 20 1 ≤ 63 →
    v.sched? (q.arg 20 1) = some x → q.ctx? = some x.ctx → x.st = .armed → x.latched = false → (∀ t0, x.t0 = some t0 → v.ct + 2000 < t0) →
    Completes (.schedDisarm m) s (fun t => t.sched? (q.arg 20 1) = some { x with st := .loaded, t0 := none })) ∧
  (∀ (m : Fin 1029) (s v : State) (q : Req) (x : Sched), Ready cmdSchedAbort m s q v → RestZero q [(20, 1)] → q.arg 20 1 ≤ 63 →
    v.sched? (q.arg 20 1) = some x → (∀ c, q.ctx? = some c → x.ctx = c) → x.st.live = true →
    exec (.schedAbort m) s = .next (okay (stopWith (recorded cmdSchedAbort q v) (q.arg 20 1) { reason := 1, status := stOk }) q [] [])) ∧
  (∀ (m : Fin 1029) (s v : State) (q : Req) (x : Sched), Ready cmdSchedUnload m s q v → RestZero q [(20, 1)] → q.arg 20 1 ≤ 63 →
    v.sched? (q.arg 20 1) = some x → (∀ c, q.ctx? = some c → x.ctx = c) → x.st.live = false →
    exec (.schedUnload m) s = .next (okay (removeSched (recorded cmdSchedUnload q v) (q.arg 20 1)) q [] [])) ∧
  (∀ (m : Fin 1029) (s v : State) (q : Req) (x : Sched), Ready cmdSchedStatus m s q v → RestZero q [(20, 1)] → q.arg 20 1 ≤ 63 →
    v.sched? (q.arg 20 1) = some x → (∀ c, q.ctx? = some c → x.ctx = c) →
    exec (.schedStatus m) s = .next (okay v q (natLe x.st.code 1 ++ natLe (b2n x.admitted 0) 1 ++ natLe (imagePaddockMask x.image) 2 ++ natLe (x.t0.getD 0) 8
      ++ natLe x.reason 1 ++ natLe x.paddock 1 ++ natLe x.bundle 2 ++ natLe x.fault 1 ++ natLe 0 3 ++ natLe x.late 4) []))

/-- 07 R189, R190, R198, R200: SYNC_ALLOC, SYNC_FREE, the three SYNC_OP forms, SEQ_ASSIGN, SEQ_RELEASE and SEQ_READ complete. The
clause that a freed object keeps its value is derived: it is the model's reading (log entry 60). -/
def Obligations.SyncCommandsComplete : Prop :=
  (∀ (m : Fin 1029) (s v : State) (q : Req), Ready cmdSyncAlloc m s q v → RestZero q [(20, 4)] → 1 ≤ q.arg 22 2 → q.arg 22 2 ≤ 16384 →
    q.arg 20 2 + q.arg 22 2 ≤ 65536 → (∀ i ∈ idRange q, (v.syncObj i).owner = none) → syncOwned v q.tenant + q.arg 22 2 ≤ (v.ctx q.tenant).syncLimit →
    Completes (.syncAlloc m) s (fun t => ∀ i, t.syncObj i = if q.arg 20 2 ≤ i ∧ i < q.arg 20 2 + q.arg 22 2 then { v.syncObj i with owner := some q.tenant } else v.syncObj i)) ∧
  (∀ (m : Fin 1029) (s v : State) (q : Req), Ready cmdSyncFree m s q v → RestZero q [(20, 4)] → 1 ≤ q.arg 22 2 → q.arg 22 2 ≤ 16384 →
    q.arg 20 2 + q.arg 22 2 ≤ 65536 → (∀ i ∈ idRange q, (v.syncObj i).owner = some q.tenant) → syncDeclared v (q.arg 20 2) (q.arg 22 2) = false →
    Completes (.syncFree m) s (fun t => ∀ i, t.syncObj i = if q.arg 20 2 ≤ i ∧ i < q.arg 20 2 + q.arg 22 2 then { v.syncObj i with owner := none } else v.syncObj i)) ∧
  (∀ (m : Fin 1029) (s v : State) (q : Req), Ready (cmdSyncOp (fun q => q.arg 22 1 != 1 && q.arg 22 1 != 2) (fun _ _ s => s)) m s q v →
    RestZero q [(20, 3), (24, 4)] → q.arg 22 1 = 0 → (v.syncObj (q.arg 20 2)).owner = some q.tenant →
    exec (.syncOpRead m) s = .next (okay v q (natLe (v.syncObj (q.arg 20 2)).value.toNat 4) [])) ∧
  (∀ (m : Fin 1029) (s v : State) (q : Req), Ready (cmdSyncOp (fun q => q.arg 22 1 == 1) (fun i n s => syncSignal s i n)) m s q v →
    RestZero q [(20, 3), (24, 4)] → q.arg 22 1 = 1 → (v.syncObj (q.arg 20 2)).owner = some q.tenant →
    Completes (.syncOpSignal m) s (fun t => ((t.syncObj (q.arg 20 2)).value.toNat = min ((v.syncObj (q.arg 20 2)).value.toNat + q.arg 24 4) (2 ^ 32 - 1)) ∧
      (2 ^ 32 - 1 < (v.syncObj (q.arg 20 2)).value.toNat + q.arg 24 4 → (t.ctx q.tenant).syncSaturated = true
        ∧ (t.ctx q.tenant).syncSaturatedCnt = (v.ctx q.tenant).syncSaturatedCnt + 1))) ∧
  (∀ (m : Fin 1029) (s v : State) (q : Req), Ready (cmdSyncOp (fun q => q.arg 22 1 == 2) (fun i _ s => syncReset s i)) m s q v →
    RestZero q [(20, 3), (24, 4)] → q.arg 22 1 = 2 → (v.syncObj (q.arg 20 2)).owner = some q.tenant →
    Completes (.syncOpReset m) s (fun t => (t.syncObj (q.arg 20 2)).value = 0)) ∧
  (∀ (m : Fin 1029) (s v : State) (q : Req), Ready cmdSeqAssign m s q v → RestZero q [(20, 4)] → 1 ≤ q.arg 22 2 → q.arg 20 2 + q.arg 22 2 ≤ 4096 →
    (∀ i ∈ idRange q, (v.seqEntry i).owner = none) →
    Completes (.seqAssign m) s (fun t => ∀ i, t.seqEntry i = if q.arg 20 2 ≤ i ∧ i < q.arg 20 2 + q.arg 22 2 then { owner := some q.tenant, n := 0 } else v.seqEntry i)) ∧
  (∀ (m : Fin 1029) (s v : State) (q : Req), Ready cmdSeqRelease m s q v → RestZero q [(20, 4)] → 1 ≤ q.arg 22 2 → q.arg 20 2 + q.arg 22 2 ≤ 4096 →
    (∀ i ∈ idRange q, (v.seqEntry i).owner = some q.tenant) → seqDeclared v (q.arg 20 2) (q.arg 22 2) = false →
    Completes (.seqRelease m) s (fun t => ∀ i, t.seqEntry i = if q.arg 20 2 ≤ i ∧ i < q.arg 20 2 + q.arg 22 2 then {} else v.seqEntry i)) ∧
  (∀ (m : Fin 1029) (s v : State) (q : Req), Ready cmdSeqRead m s q v → RestZero q [(20, 2)] → q.arg 20 2 < 4096 → (v.seqEntry (q.arg 20 2)).owner = some q.tenant →
    exec (.seqRead m) s = .next (okay v q (natLe (v.seqEntry (q.arg 20 2)).n 4) []))

/-! ### Quads, ports, and cluster time (chapters 07 and 11) -/

/-- 11 R253, R254, R265, R269 and 07 R168, R200: the port and time commands complete. Where PORT_CONFIG and QUAD_RESET take the
link of the time source's port down, the clock treats its source as lost (07 R165). The clauses of TIME_CONFIG's fields, of what a step does
to the edges it passes over and of CLOCK_STATUS's estimate are derived: they are the model's choices (log entries 61, 95 and 33). -/
def Obligations.PortAndTimeCommandsComplete : Prop :=
  (∀ (m : Fin 1029) (s v : State) (q : Req), Ready cmdPortConfig m s q v → quadFault (q.slot.drop 20) = none → v.job.isOpen = false →
    quadRefusal v (field (q.slot.drop 20) 0 1) (field (q.slot.drop 20) 1 1) = none →
    let u := okay (configureQuad (recorded cmdPortConfig q v) (q.slot.drop 20)) q [] []
    exec (.portConfig m) s = .next (if !sourceDown s && sourceDown u then sourceLost u else u)) ∧
  (∀ (m : Fin 1029) (s v : State) (q : Req), Ready cmdPortStatus m s q v → RestZero q [(20, 1)] → q.arg 20 1 ≤ 15 →
    exec (.portStatus m) s = .next (okay v q (natLe (v.quad (q.arg 20 1)).st.code 1 ++ natLe (v.quad (q.arg 20 1)).mode 1 ++ natLe 0 2
      ++ (List.range 4).flatMap (fun n => natLe (v.port (4 * q.arg 20 1 + n)).link.code 1 ++ natLe (v.port (4 * q.arg 20 1 + n)).cause 1
        ++ natLe (v.port (4 * q.arg 20 1 + n)).outstanding 2 ++ natLe (v.port (4 * q.arg 20 1 + n)).replays 4)
      ++ natLe ((v.now - (v.quad (q.arg 20 1)).since) / 1000000) 4) [])) ∧
  (∀ (m : Fin 1029) (s v : State) (q : Req), Ready cmdQuadReset m s q v → RestZero q [(20, 1)] → q.arg 20 1 ≤ 15 →
    ((v.quad (q.arg 20 1)).st = .training ∨ (v.quad (q.arg 20 1)).st = .active) →
    let u := okay (logQuadReset (quadReset (recorded cmdQuadReset q v) (q.arg 20 1)) (q.arg 20 1) 1) q [] []
    exec (.quadReset m) s = .next (if !sourceDown s && sourceDown u then sourceLost u else u)) ∧
  (∀ (m : Fin 1029) (s v : State) (q : Req), Ready cmdLinkParamsSet m s q v → RestZero q [(22, 18)] → 1000 ≤ q.arg 30 4 → q.arg 30 4 ≤ 100000 →
    q.arg 30 4 * 2 ≤ q.arg 36 4 * 1000 → q.arg 34 2 ≤ 2000 → q.arg 34 2 * 2 < q.arg 30 4 → 10 ≤ q.arg 36 4 → q.arg 36 4 ≤ 100000 →
    Completes (.linkParamsSet m) s (fun t => ∀ p < 64, t.port p = if bit (q.arg 22 8) p = true
      then { v.port p with replayTimer := q.arg 30 4, ackDelay := q.arg 34 2, lossTime := q.arg 36 4 * 1000 } else v.port p)) ∧
  (∀ (m : Fin 1029) (s v : State) (q : Req), Ready cmdTimeConfig m s q v → RestZero q [] → q.xargLen = 192 → timeFault q.xarg = none → anyLive v = false →
    exec (.timeConfig m) s = .next (okay (setTimeConfig (recorded cmdTimeConfig q v) (timeConfigOf q.xarg)) q [] []) ∧
    ((timeConfigOf q.xarg).mode ≠ 0 → (setTimeConfig (recorded cmdTimeConfig q v) (timeConfigOf q.xarg)).clock =
      { v.clock with config := timeConfigOf q.xarg, onBackup := false, ppsSeen := false, ptpOffset := none, parent := 0, increment := clampInc (timeConfigOf q.xarg).slewMax (v.clock.increment - nominalInc), ppsOutSecond := (v.ct + (timeConfigOf q.xarg).ppsOutDelay) / 1000000000 })) ∧
  (∀ (m : Fin 1029) (s v : State) (q : Req), Ready cmdClockStatus m s q v → RestZero q [] →
    exec (.clockStatus m) s = .next (okay { v with free := v.free + 1 } q (natLe v.clock.st.code 1 ++ natLe (clockSource v.clock) 1 ++ natLe 0 2
      ++ natLe (unsigned (v.clock.lastOffset / 65536) 64) 8 ++ natLe (errorEstimate v) 4 ++ natLe v.clock.grandmaster.toNat 8 ++ natLe v.clock.stepsRemoved 1 ++ natLe 0 3
      ++ natLe ((v.now - v.clock.since) / 1000000) 4) []))

/-- 07 R161, R162, R165, R167 and 19 R433: the events of the cluster clock. A missed sample takes LOCKED to HOLDOVER; a missed Announce
in ACQUIRING and an exceeded holdover bound take the clock to FREE; TIME_REF_IN's qualification and its loss change how the error grows; the
first edge of TIME_PPS_IN takes FREE to ACQUIRING in mode 2; TIME_PPS_OUT rises at its edge and falls after its width. -/
def Obligations.ClockEventsComplete : Prop :=
  (∀ (t : Nat) (s u : State), u = advance s t → u.clocked = true → u.clock.config.mode ≠ 0 →
    max u.clock.lastQualified u.clock.since + 4 * sampleNs u.clock.config ≤ u.now → u.clock.st = .locked →
    Completes (.sampleTimeout t) s (fun w => w.clock.st = .holdover ∧ w.clock.since = u.now)) ∧
  (∀ (t : Nat) (s u : State), u = advance s t → u.clocked = true → usesPtp u.clock.config = true →
    max u.clock.lastAnnounce u.clock.since + u.clock.config.announceTimeout * announceNs ≤ u.now → u.clock.st = .acquiring →
    exec (.announceTimeout t) s = .next (enterFree u)) ∧
  (∀ (t : Nat) (s u : State), u = advance s t → u.clocked = true → u.clock.st = .holdover → u.clock.config.holdoverBound * 1000000000 < errNow u →
    exec (.holdoverBoundExceeded t) s = .next (enterFree u)) ∧
  (∀ (t : Nat) (s u : State), u = advance s t → u.clocked = true → u.clock.st = .locked → u.clock.since + secNs 16 ≤ u.now → u.clock.refQualified = false →
    Completes (.timeRefInQualified t) s (fun w => w.clock = { u.clock with errGrown := errNow u, errSince := u.now, refQualified := true })) ∧
  (∀ (t : Nat) (s u : State), u = advance s t → u.clocked = true → u.clock.refQualified = true →
    Completes (.timeRefInLost t) s (fun w => w.clock = { u.clock with errGrown := errNow u, errSince := u.now, refQualified := false })) ∧
  (∀ (t : Nat) (s u : State), u = advance s t → u.clocked = true → u.clock.config.mode = 2 → u.clock.st = .free →
    Completes (.timePpsInEdge t) s (fun w => w.clock.st = .acquiring ∧ w.clock.since = u.now ∧ w.clock.ppsSeen = true)) ∧
  (∀ (t : Nat) (s u : State), u = advance s t → u.clocked = true → u.clock.st ≠ .free → ppsWhole u ≠ u.clock.ppsOutSecond →
    Completes (.ppsOutEdge t) s (fun w => w = { u with clock := { u.clock with ppsOut := true, ppsOutSince := u.now, ppsOutSecond := ppsWhole u } })) ∧
  (∀ (t : Nat) (s u : State), u = advance s t → u.clocked = true → u.clock.ppsOut = true → u.clock.ppsOutSince + u.clock.config.ppsOutWidth ≤ u.now →
    Completes (.timePpsOutFall t) s (fun w => w = { u with clock := { u.clock with ppsOut := false } }))

/-- 11 R253 to R255, R266, R268: the timed events of quads and ports: a trained port negotiates or is up, a port that is down trains again
after 10 ms, a reset quad trains after its hold, a lost lock is timed, a regained lock ends that time, and its expiry takes the link down. -/
def Obligations.PortEventsComplete : Prop :=
  (∀ (t : Nat) (q : Fin 65) (s u : State), u = advance s t → u.clocked = true → portExists u q = true → (u.port q).link = .training →
    Completes (.portTrained t q) s (fun w => (w.port q).link = (if 1 ≤ (u.port q).relMode then .negotiating else .up) ∧ (w.port q).since = u.now)) ∧
  (∀ (t : Nat) (q : Fin 65) (s u : State), u = advance s t → u.clocked = true → portExists u q = true → (u.port q).link = .down → (u.port q).since + msNs 10 ≤ u.now →
    (q.val = mgmtPort ∨ (u.quad (q / 4)).st = .training ∨ (u.quad (q / 4)).st = .active) →
    Completes (.downRetrainTimer t q) s (fun w => (w.port q).link = .training ∧ (w.port q).since = u.now)) ∧
  (∀ (t : Nat) (k : Fin 16) (s u : State), u = advance s t → u.clocked = true → (u.quad k).st = .resetting → (u.quad k).since + msNs 1 ≤ u.now →
    Completes (.quadResetHoldEnd t k) s (fun w => (w.quad k).st = .training ∧ (w.quad k).since = u.now)) ∧
  (∀ (t : Nat) (q : Fin 65) (s u : State), u = advance s t → u.clocked = true → (u.port q).carries = true → (u.port q).lockLost = none →
    Completes (.pcsLockLost t q) s (fun w => w.port q = { u.port q with lockLost := some (u.now + (u.port q).lossTime) })) ∧
  (∀ (t : Nat) (q : Fin 65) (s u : State), u = advance s t → u.clocked = true → (u.port q).lockLost.isSome = true →
    Completes (.pcsLockRegained t q) s (fun w => w.port q = { u.port q with lockLost := none })) ∧
  (∀ (t : Nat) (q : Fin 65) (s u : State), u = advance s t → u.clocked = true → (u.port q).carries = true → reached u (u.port q).lockLost = true →
    let d := portDown u q 3
    exec (.linkLossTimeExpiry t q) s = .next (if !sourceDown s && sourceDown d then sourceLost d else d))

/-! ### Fabric tables, sessions, queue pairs, jobs (chapter 12) -/

/-- 12 R272, R295, R296, R299, R305: the commands of the installer's fabric tables complete while no job is open: the table
holds what the command gave before its response is written. -/
def Obligations.FabricTableCommandsComplete : Prop :=
  (∀ (m : Fin 1029) (s v : State) (q : Req), Ready cmdLocalIdSet m s q v → RestZero q [(20, 3)] → 1024 ≤ q.arg 20 2 → 1 ≤ q.arg 22 1 → q.arg 22 1 ≤ 16 →
    q.xargLen = 24 * q.arg 22 1 → entryBad q.xarg 24 (q.arg 22 1) localBad = none →
    Completes (.localIdSet m) s (fun t => t.locals = (entriesOf q.xarg 24).map localIdOf ∧ t.dev.erunoPort = BitVec.ofNat 16 (q.arg 20 2))) ∧
  (∀ (m : Fin 1029) (s v : State) (q : Req), Ready cmdEndpointSet m s q v → RestZero q [(20, 2)] → 1 ≤ q.arg 20 2 → q.arg 20 2 ≤ 640 →
    q.xargLen = 32 * q.arg 20 2 → entryBad q.xarg 32 (q.arg 20 2) endpointBad = none →
    let table := (entriesOf q.xarg 32).foldl (fun t e => tput t (field e 0 3)
      { flags := BitVec.ofNat 8 (field e 3 1), vlan := BitVec.ofNat 16 (field e 4 2), udpPort := BitVec.ofNat 16 (field e 6 2), ip := BitVec.ofNat 128 (field e 8 16) }) v.endpoints
    table.length ≤ 65536 → Completes (.endpointSet m) s (fun t => t.endpoints = table)) ∧
  (∀ (m : Fin 1029) (s v : State) (q : Req), Ready (cmdEndpointClear (headNames m s (fun i => (tget? s.endpoints i).isSome))) m s q v → RestZero q [(20, 3)] →
    Completes (.endpointClear m) s (fun t => t.endpoints = tdel v.endpoints (q.arg 20 3))) ∧
  (∀ (m : Fin 1029) (s v : State) (q : Req), Ready cmdForwardSet m s q v → RestZero q [(20, 2)] → 1 ≤ q.arg 20 2 → q.arg 20 2 ≤ 1280 →
    q.xargLen = 16 * q.arg 20 2 → entryBad q.xarg 16 (q.arg 20 2) forwardBad = none →
    let table := (entriesOf q.xarg 16).foldl (fun t e => tput t (field e 0 3)
      { port := BitVec.ofNat 8 (field e 3 1), nextHop := BitVec.ofNat 48 (field e 4 6), flags := BitVec.ofNat 8 (field e 10 1) }) v.forwards
    table.length ≤ 65536 → Completes (.forwardSet m) s (fun t => t.forwards = table)) ∧
  (∀ (m : Fin 1029) (s v : State) (q : Req), Ready (cmdForwardClear (headNames m s (fun i => (tget? s.forwards i).isSome))) m s q v → RestZero q [(20, 3)] →
    Completes (.forwardClear m) s (fun t => t.forwards = tdel v.forwards (q.arg 20 3))) ∧
  (∀ (m : Fin 1029) (s v : State) (q : Req) (size : Nat) (rows : List Bytes), Ready cmdTableRead m s q v → RestZero q [(20, 1), (24, 4)] →
    (q.arg 20 1 = 0 ∧ size = 24 ∧ rows = v.locals.map (·.bytes)) ∨ (q.arg 20 1 = 1 ∧ size = 32 ∧ rows = v.endpoints.map (fun e => Endpoint.bytes e.1 e.2))
      ∨ (q.arg 20 1 = 2 ∧ size = 16 ∧ rows = v.forwards.map (fun e => Forward.bytes e.1 e.2)) →
    let xs := (rows.drop (q.arg 24 4)).take (q.room / size)
    exec (.tableRead m) s = .next (okay v q (natLe xs.length 4) xs.flatten))

/-- 12 R286, R287, R292, R305: the session commands complete; a session that is assigned or released keeps its running totals alone (18
R407). -/
def Obligations.SessionTableCommandsComplete : Prop :=
  (∀ (m : Fin 1029) (s v : State) (q : Req), Ready cmdSessionAssign m s q v → RestZero q [(20, 6)] → 64 ≤ q.arg 20 2 → 1 ≤ q.arg 22 2 →
    q.arg 20 2 + q.arg 22 2 ≤ 65536 → q.arg 24 2 ≤ 1023 → ((v.ctx (q.arg 24 2)).st = .active ∨ (v.ctx (q.arg 24 2)).st = .lapsed) →
    (∀ k ∈ rangeFrom (q.arg 20 2) (q.arg 22 2), (v.session k).st = .unassigned) →
    Completes (.sessionAssign m) s (fun t => ∀ k ∈ rangeFrom (q.arg 20 2) (q.arg 22 2), t.session k = { (v.session k).left with st := .closed, ctx := some (q.arg 24 2), gen := genNow v k })) ∧
  (∀ (m : Fin 1029) (s v : State) (q : Req), Ready cmdSessionRelease m s q v → RestZero q [(20, 4)] → 64 ≤ q.arg 20 2 → 1 ≤ q.arg 22 2 →
    q.arg 20 2 + q.arg 22 2 ≤ 65536 → (∀ k ∈ rangeFrom (q.arg 20 2) (q.arg 22 2), (v.session k).st = .closed) →
    Completes (.sessionRelease m) s (fun t => ∀ k ∈ rangeFrom (q.arg 20 2) (q.arg 22 2), t.session k = (v.session k).left)) ∧
  (∀ (m : Fin 1029) (s v : State) (q : Req), Ready cmdSessionOpen m s q v → RestZero q [(20, 20)] → (q.arg 20 2 < 64 → q.ctx?.isSome = true) → q.arg 22 1 < 4 → q.arg 23 1 ≤ 15 →
    q.arg 27 1 < 16 → q.arg 27 1 < v.locals.length → (q.arg 32 4 = 0 ∨ (1000 ≤ q.arg 32 4 ∧ q.arg 32 4 ≤ 100000000)) → 1 ≤ q.arg 36 2 → q.arg 36 2 ≤ 256 →
    (q.arg 38 2 = 0 ∨ (10 ≤ q.arg 38 2 ∧ q.arg 38 2 ≤ 60000)) → (∀ c, q.ctx? = some c → (v.session (q.arg 20 2)).ctx = some c) →
    (v.session (q.arg 20 2)).st = .closed →
    (bit (q.arg 22 1) 0 = false → Completes (.sessionOpen m) s (fun t => (t.session (q.arg 20 2)).st = .opened ∧ (t.session (q.arg 20 2)).gen = nextGen (genNow v (q.arg 20 2))
      ∧ (t.session (q.arg 20 2)).window = q.arg 36 2 ∧ (t.session (q.arg 20 2)).keys = none ∧ (t.session (q.arg 20 2)).nextSeq = 0)) ∧
    (bit (q.arg 22 1) 0 = true → (tget? (v.ctx ((v.session (q.arg 20 2)).ctx.getD 0)).peerKeys (q.arg 23 1)).isSome = true →
      let w := (openWith (recorded cmdSessionOpen q v) q (q.arg 20 2)).updSession (q.arg 20 2) (fun x => { x with st := .keying })
      let t := pending (if bit (q.arg 22 1) 1 then startExchange w (q.arg 20 2) else w) q (natLe (sessionNumber w (q.arg 20 2)) 4)
      exec (.sessionOpen m) s = .next (endStuck t (q.arg 20 2)) ∧ (bit (q.arg 22 1) 1 = false → endStuck t (q.arg 20 2) = t ∧ (t.session (q.arg 20 2)).st = .keying))) ∧
  (∀ (m : Fin 1029) (s v : State) (q : Req), Ready cmdSessionClose m s q v → RestZero q [(20, 2)] → 64 ≤ q.arg 20 2 →
    (∀ c, q.ctx? = some c → (v.session (q.arg 20 2)).ctx = some c) → (v.session (q.arg 20 2)).st = .opened →
    exec (.sessionClose m) s = .next (okay (leaveSession (recorded cmdSessionClose q v) (q.arg 20 2) .closed) q [] [])) ∧
  (∀ (m : Fin 1029) (s v : State) (q : Req), Ready cmdSessionStatus m s q v → RestZero q [(20, 2)] →
    (∀ c, q.ctx? = some c → (v.session (q.arg 20 2)).ctx = some c) →
    let x := v.session (q.arg 20 2)
    exec (.sessionStatus m) s = .next (okay v q (natLe x.st.code 1 ++ natLe (b2n x.priv 0) 1 ++ natLe x.window 2 ++ natLe (sessionNumber v (q.arg 20 2)) 4
      ++ natLe ((x.h.map (·.toNat)).getD 0) 4 ++ natLe x.timeouts 4 ++ natLe x.discarded 4) [])) ∧
  (∀ (m : Fin 1029) (s v : State) (q : Req), Ready cmdPeerKeySet m s q v → RestZero q [(20, 1)] → q.arg 20 1 ≤ 15 → q.xargLen = 1952 →
    Completes (.peerKeySet m) s (fun t => t.ctx q.tenant = { v.ctx q.tenant with peerKeys := tput (v.ctx q.tenant).peerKeys (q.arg 20 1) q.xarg }))

/-- 12 R299, R301, R305: the queue pair and job commands complete; a queue pair that is assigned or closed keeps its running totals
alone (18 R407). -/
def Obligations.QueuePairAndJobCommandsComplete : Prop :=
  (∀ (m : Fin 1029) (s v : State) (q : Req), Ready cmdQpAssign m s q v → RestZero q [(20, 8)] → 1 ≤ q.arg 24 2 → q.arg 20 4 + q.arg 24 2 ≤ 16384 →
    q.arg 26 2 ≤ 1023 → ((v.ctx (q.arg 26 2)).st = .active ∨ (v.ctx (q.arg 26 2)).st = .lapsed) →
    (∀ i ∈ rangeFrom (q.arg 20 4) (q.arg 24 2), (v.qp i).ctx = none) →
    exec (.qpAssign m) s = .next (okay (foldKeys (rangeFrom (q.arg 20 4) (q.arg 24 2)) (recorded cmdQpAssign q v)
      (fun s i => s.updQp i (·.left (some (q.arg 26 2))))) q [] [])) ∧
  (∀ (m : Fin 1029) (s v : State) (q : Req), Ready cmdQpOpen m s q v → RestZero q [(20, 44)] → q.arg 20 4 < 16384 → q.arg 24 1 < 8 → q.arg 25 1 ≤ 4 →
    q.arg 26 1 ≤ 63 → q.arg 27 1 < 16 → q.arg 27 1 < v.locals.length → q.arg 32 4 < 2 ^ 24 → (bit (q.arg 24 1) 1 = false → q.arg 52 12 = 0) →
    q.ctx? = (v.qp (q.arg 20 4)).ctx → q.ctx?.isSome = true → (v.qp (q.arg 20 4)).st = .closed →
    exec (.qpOpen m) s = .next (okay ((recorded cmdQpOpen q v).updQp (q.arg 20 4) (fun _ => qpOf v q)) q [] []) ∧ (qpOf v q).st = .ready
      ∧ (qpOf v q).sendPsn = BitVec.ofNat 24 (q.arg 36 3) ∧ (qpOf v q).expectedPsn = BitVec.ofNat 24 (q.arg 39 3)) ∧
  (∀ (m : Fin 1029) (s v : State) (q : Req), Ready cmdQpClose m s q v → RestZero q [(20, 4)] → q.arg 20 4 < 16384 →
    (∀ c, q.ctx? = some c → (v.qp (q.arg 20 4)).ctx = some c) → (v.qp (q.arg 20 4)).st ≠ .closed →
    exec (.qpClose m) s = .next (okay (closeQp (recorded cmdQpClose q v) (q.arg 20 4)) q [] []) ∧
      (closeQp (recorded cmdQpClose q v) (q.arg 20 4)).qp (q.arg 20 4) = (v.qp (q.arg 20 4)).left (v.qp (q.arg 20 4)).ctx) ∧
  (∀ (m : Fin 1029) (s v : State) (q : Req), Ready cmdQpStatus m s q v → RestZero q [(20, 4)] → q.arg 20 4 < 16384 →
    (∀ c, q.ctx? = some c → (v.qp (q.arg 20 4)).ctx = some c) →
    let x := v.qp (q.arg 20 4)
    exec (.qpStatus m) s = .next (okay v q (natLe x.st.code 1 ++ natLe x.sendPsn.toNat 3 ++ natLe x.expectedPsn.toNat 3 ++ natLe 0 1 ++ natLe x.naks 4 ++ natLe x.cnps 4) [])) ∧
  (∀ (m : Fin 1029) (s v : State) (q : Req), Ready cmdJobOpen m s q v → RestZero q [(20, 4)] → q.arg 20 4 ≠ 0 → v.job.isOpen = false →
    Completes (.jobOpen m) s (fun t => t.job = { isOpen := true, number := BitVec.ofNat 32 (q.arg 20 4), changed := v.ct })) ∧
  (∀ (m : Fin 1029) (s v : State) (q : Req), Ready cmdJobClose m s q v → RestZero q [] → v.job.isOpen = true →
    Completes (.jobClose m) s (fun t => t.job = { v.job with isOpen := false, changed := v.ct })) ∧
  (∀ (m : Fin 1029) (s v : State) (q : Req), Ready cmdJobStatus m s q v → RestZero q [] →
    exec (.jobStatus m) s = .next (okay v q (natLe v.job.code 1 ++ natLe 0 3 ++ natLe v.job.number.toNat 4 ++ natLe v.job.changed 8) []))

/-! ### Traffic control (chapter 13) -/

/-- 13 R321, R323: METER_SET, SHAPER_SET, GATE_SET and CLASS_MAP_SET stage their change and stay pending; METER_STATUS and
TC_STATUS report. -/
def Obligations.TrafficCommandsComplete : Prop :=
  (∀ (m : Fin 1029) (s v : State) (q : Req), Ready cmdMeterSet m s q v → RestZero q [(20, 6), (28, 16)] → (meterFaults q).all (fun b => !b.2) = true →
    (q.arg 20 1 = 1 → (meterOf q).enabled = true → (slotIds v).length < 4096 ∨ (slotIds v).contains (q.arg 21 3) = true) →
    Completes (.meterSet m) s (fun t => t.meters = v.meters ∧ t.epMeters = v.epMeters ∧ t.pendings = v.pendings ++ [q.owes] ∧
      t.staged = v.staged ++ [{ at_ := joinBoundary v, owes := some q.owes, change := .meter (decide (q.arg 20 1 = 1)) (q.arg 21 3) (decide (q.arg 24 1 = 1)) (meterOf q) }])) ∧
  (∀ (m : Fin 1029) (s v : State) (q : Req), Ready cmdMeterStatus m s q v → RestZero q [(20, 5)] → q.arg 20 1 ≤ 1 → (q.arg 20 1 = 0 → q.arg 21 3 ≤ 1023) →
    q.arg 24 1 ≤ 1 → (∀ c, q.ctx? = some c → q.arg 20 1 = 0 ∧ c = q.arg 21 3) →
    let o := tgetD (if q.arg 20 1 = 1 then v.epMeters else v.meters) {} (meterKey (q.arg 21 3) (decide (q.arg 24 1 = 1)))
    let x := if o.enabled then o.refill v.now else o
    exec (.meterStatus m) s = .next (okay v q (natLe (unsigned (x.committed / byteTokens) 32) 4 ++ natLe (unsigned (x.excess / byteTokens) 32) 4
      ++ natLe x.green 8 ++ natLe x.yellow 8 ++ natLe x.red 8) [])) ∧
  (∀ (m : Fin 1029) (s v : State) (q : Req), Ready cmdShaperSet m s q v → RestZero q [(20, 20)] → q.arg 20 1 ≤ 63 → q.arg 21 1 ≤ 7 → q.arg 22 1 ≤ 63 →
    q.arg 23 1 ≤ 1 → 1 ≤ q.arg 24 4 → q.arg 24 4 ≤ 800000 → 1024 ≤ q.arg 28 4 → q.arg 28 4 ≤ 16777216 → 4096 ≤ q.arg 32 4 → q.arg 32 4 ≤ 1048576 →
    (q.arg 21 1 = 0 ∨ q.arg 21 1 = 1 ∨ q.arg 21 1 = 7 ∨ q.arg 36 4 = 0) →
    Completes (.shaperSet m) s (fun t => t.ports = v.ports ∧ t.pendings = v.pendings ++ [q.owes] ∧ t.staged = v.staged ++ [{ at_ := joinBoundary v, owes := some q.owes, change := .shaper (q.arg 20 1) (q.arg 21 1) { shaped := bit (q.arg 23 1) 0, overhead := q.arg 22 1, rate := q.arg 24 4, burst := q.arg 28 4, ecnThresh := q.arg 32 4, quantum := q.arg 36 4 } }])) ∧
  (∀ (m : Fin 1029) (s v : State) (q : Req), Ready cmdGateSet m s q v → RestZero q [(20, 2), (24, 8)] → q.arg 20 1 ≤ 63 →
    (BitVec.ofNat 8 (q.arg 21 1) = 0 → q.xargLen = 0 → Completes (.gateSet m) s (fun t => t.ports = v.ports ∧
      t.staged = v.staged ++ [{ at_ := joinBoundary v, owes := some q.owes, change := .gate (q.arg 20 1) none }])) ∧
    (BitVec.ofNat 8 (q.arg 21 1) ≠ 0 → 16 ≤ q.xargLen → q.xargLen = 8 + 8 * field q.xarg 4 2 → gateFault q.xarg (BitVec.ofNat 8 (q.arg 21 1)) = none →
      Completes (.gateSet m) s (fun t => t.ports = v.ports ∧ t.staged = v.staged ++ [{ at_ := joinBoundary v, owes := some q.owes, change := .gate (q.arg 20 1) (some (gateList q.xarg (BitVec.ofNat 8 (q.arg 21 1)) (q.arg 24 8))) }]))) ∧
  (∀ (m : Fin 1029) (s v : State) (q : Req), Ready cmdClassMapSet m s q v → RestZero q [] → q.xargLen = 24 → (∀ c < 8, field q.xarg c 1 ≤ 63) →
    (∀ d < 64, mapColour q.xarg d ≠ 3) →
    Completes (.classMapSet m) s (fun t => t.classMap = v.classMap ∧ t.pendings = v.pendings ++ [q.owes] ∧ ∃ x : ClassMap,
      x.dscp = (List.range 8).map (fun c => BitVec.ofNat 6 (field q.xarg c 1)) ∧ (∀ d < 64, ((x.colours.find? (fun e => e.1 == d)).map (·.2)).getD 0 = mapColour q.xarg d) ∧
      t.staged = v.staged ++ [{ at_ := joinBoundary v, owes := some q.owes, change := .classMap x }])) ∧
  (∀ (m : Fin 1029) (s v : State) (q : Req), Ready cmdTcStatus m s q v → RestZero q [(20, 2)] → q.arg 20 1 ≤ 63 → q.arg 21 1 ≤ 7 →
    let p := (syncGates v (q.arg 20 1)).port (q.arg 20 1)
    let x := p.cls (q.arg 21 1)
    exec (.tcStatus m) s = .next (okay v q (natLe x.bytes 4 ++ natLe (b2n (x.pausedUntil.any (fun u => v.now < u)) 0) 1 ++ natLe (b2n (p.gateOpen (q.arg 21 1)) 0) 1
      ++ natLe 0 2 ++ natLe (unsigned (x.tokens / 8) 32) 4 ++ natLe x.sent 8 ++ natLe x.ceMarks 4 ++ natLe x.limitDiscards 4 ++ natLe x.overlongDiscards 4) []))

/-- 11 R249 and 13 R307, R309, R315, R317, R320: the events of a port's classes: the refill of its shapers, gate entry boundaries,
received PFC and PAUSE, the end of a pause, the repeated XOFF, and the frame boundary. That the repeated PFC frame leaves at once is derived: it is the
model's reading (log entry 22). -/
def Obligations.TrafficEventsComplete : Prop :=
  (∀ (t : Nat) (s u : State), u = advance s t → u.clocked = true → u.dev.lastRefill / 1000 < u.ct / 1000 → (∀ x ∈ u.staged, u.ct < x.at_) →
    Completes (.shaperRefill t) s (fun w => w.dev.lastRefill = u.ct ∧ ∀ q c : Nat, ((u.port q).cls c).shaped = true → ((u.port q).cls c).next = none →
      ((w.port q).cls c).tokens = min (((u.port q).cls c).tokens + ((u.port q).cls c).rate * ((u.ct / 1000 - u.dev.lastRefill / 1000 : Nat) : Int)) (((u.port q).cls c).burst * 8 : Nat))) ∧
  (∀ (t : Nat) (q : Fin 64) (s u : State) (g : GateList), u = advance s t → u.clocked = true → (u.port q).gates = some g → g.sync u.ct ≠ g →
    Completes (.gateEntryBoundary t q false) s (fun w => (w.port q).gates = some { g with entry := (entryAt g.entries (g.pos u.ct) 0).1 })) ∧
  (∀ (t : Nat) (q : Fin 64) (s u : State) (g : GateList), u = advance s t → u.clocked = true → (u.port q).schedGates = some g → g.sync u.ct ≠ g →
    Completes (.gateEntryBoundary t q true) s (fun w => (w.port q).schedGates = some { g with entry := (entryAt g.entries (g.pos u.ct) 0).1 })) ∧
  (∀ (q : Fin 64) (s w : State) (x : RxItem) (classes : BitVec 8) (quanta : List (BitVec 16)), arrival s q (fun f => match f.body with | .pfc _ _ => true | _ => false) = some (x, w) →
    x.frame.body = .pfc classes quanta → classes &&& 0xC1 = 0 →
    Completes (.pfcFrame q) s (fun t => ∀ c : Nat, c < 8 → ((t.port q).cls c).pausedUntil = if classes.getLsbD c = true
      then (if quanta.getD c 0 = 0 then none else some (w.now + quantaNs w q (quanta.getD c 0).toNat)) else ((w.port q).cls c).pausedUntil)) ∧
  (∀ (q : Fin 64) (s w : State) (x : RxItem) (classes : BitVec 8) (quanta : List (BitVec 16)), arrival s q (fun f => match f.body with | .pfc _ _ => true | _ => false) = some (x, w) →
    x.frame.body = .pfc classes quanta → classes &&& 0xC1 ≠ 0 → exec (.pfcFrame q) s = .next (tally (bump w .port q 9 1) .pauseIgnored)) ∧
  (∀ (q : Fin 64) (s w : State) (x : RxItem), arrival s q (fun f => f.body == .pause) = some (x, w) →
    exec (.pauseFrame q) s = .next (tally w .pauseIgnored)) ∧
  (∀ (t : Nat) (q : Fin 64) (tc : Fin 8) (s u : State), u = advance s t → u.clocked = true → reached u ((u.port q).cls tc).pausedUntil = true →
    Completes (.pfcPauseExpiry t q tc) s (fun w => (w.port q).cls tc = { (u.port q).cls tc with pausedUntil := none })) ∧
  (∀ (t : Nat) (q : Fin 64) (tc : Fin 8) (s u : State), u = advance s t → u.clocked = true → (u.port q).running = true → ((u.port q).cls tc).xoff = true → xonAt u q < ((u.port q).cls tc).occupied →
    ((u.port q).cls tc).xoffAt + quantaNs u q 0xFFFF / 2 ≤ u.now →
    Completes (.pfcXoffRepeat t q tc) s (fun w => ((w.port q).cls tc).xoffAt = u.now ∧
      w.wire = u.wire ++ [{ port := q, preamble := preambleOf (u.port q).plainTag, frame := macFrame u q (pfcOf tc 0xFFFF) }])) ∧
  (∀ (t : Nat) (q : Fin 65) (s u : State), u = advance s t → u.clocked = true → exec (.egressFrameBoundary t q) s = .next (frameBoundary (pumpSends u q) q)) ∧
  (∀ (q : Nat) (s : State) (x : LinkTag) (r : List LinkTag), (s.port q).link = .up → (s.port q).control = x :: r →
    frameBoundary s q = sendControl (syncGates s q) q x r)

/-! ### Coherence (chapter 14) -/

/-- 14 R325, R326, R342, R344: the agent commands complete. -/
def Obligations.AgentCommandsComplete : Prop :=
  (∀ (m : Fin 1029) (s v : State) (q : Req), Ready cmdAgentLimitSet m s q v → RestZero q [(20, 3)] → q.arg 20 2 ≤ 1023 → q.arg 22 1 ≤ 64 →
    ((v.ctx (q.arg 20 2)).st = .active ∨ (v.ctx (q.arg 20 2)).st = .lapsed) →
    Completes (.agentLimitSet m) s (fun t => t.ctx (q.arg 20 2) = { v.ctx (q.arg 20 2) with agentLimit := q.arg 22 1 })) ∧
  (∀ (m : Fin 1029) (s v : State) (q : Req), Ready cmdAgentRegister m s q v → RestZero q [(20, 5), (28, 4)] → q.arg 22 1 ≠ 0 →
    (∀ k < 8, bit (q.arg 22 1) k = true → ∃ g, tget? (v.ctx q.tenant).segs k = some g ∧ g.coherent = true) → 2 ≤ q.arg 23 1 → q.arg 23 1 ≤ 15 →
    1 ≤ q.arg 24 1 → q.arg 24 1 ≤ 16 → 2 ^ q.arg 23 1 * q.arg 24 1 * 128 ≤ 4194304 → (q.arg 28 4 = 0 ∨ (100 ≤ q.arg 28 4 ∧ q.arg 28 4 ≤ 60000)) →
    (v.session (q.arg 20 2)).st = .opened → (v.session (q.arg 20 2)).ctx = some q.tenant →
    v.agents.any (fun a => a.1 < 64 && a.2.session == q.arg 20 2) = false → (∃ a < 64, v.agent? a = none) → agentsOf v q.tenant < (v.ctx q.tenant).agentLimit →
    Completes (.agentRegister m) s (fun t => ∃ a < 64, v.agent? a = none ∧ t.agent? a = some { ctx := q.tenant, session := q.arg 20 2, mask := BitVec.ofNat 8 (q.arg 22 1), n := q.arg 23 1, ways := q.arg 24 1, leaseMs := if q.arg 28 4 = 0 then 2000 else q.arg 28 4, leaseStart := v.now })) ∧
  (∀ (m : Fin 1029) (s v : State) (q : Req) (g : Agent), Ready cmdAgentDeregister m s q v → RestZero q [(20, 1)] → ownAgent v q = some g →
    let u := declareDead (recorded cmdAgentDeregister q v) (q.arg 20 1) 1
    exec (.agentDeregister m) s = .next (okay u q (natLe (((u.agent? (q.arg 20 1)).map (·.deadO)).getD 0) 4) [])) ∧
  (∀ (m : Fin 1029) (s v : State) (q : Req) (g : Agent), Ready cmdAgentRenew m s q v → RestZero q [(20, 1)] → ownAgent v q = some g →
    Completes (.agentRenew m) s (fun t => t.agent? (q.arg 20 1) = some { g with leaseStart := v.now })) ∧
  (∀ (m : Fin 1029) (s v : State) (q : Req) (g : Agent), Ready cmdAgentStatus m s q v → RestZero q [(20, 1)] →
    v.agent? (q.arg 20 1) = some g → (∀ c, q.ctx? = some c → c = g.ctx) →
    exec (.agentStatus m) s = .next (okay v q (natLe 1 1 ++ natLe g.n 1 ++ natLe g.ways 1 ++ natLe g.mask.toNat 1 ++ natLe (entryCounts v (q.arg 20 1)).1 4
      ++ natLe (entryCounts v (q.arg 20 1)).2 4 ++ natLe g.snoops 4 ++ natLe g.stale 4 ++ natLe (if q.arg 20 1 < 64 then agentLeft v g else 0) 4) [])) ∧
  (∀ (m : Fin 1029) (s v : State) (q : Req), Ready cmdAgentStatus m s q v → RestZero q [(20, 1)] → v.agent? (q.arg 20 1) = none → q.ctx? = none →
    exec (.agentStatus m) s = .next (okay v q [] [])) ∧
  (∀ (m : Fin 1029) (s v : State) (q : Req), Ready cmdLostOwnedRead m s q v → RestZero q [(20, 1), (22, 2)] → q.arg 20 1 ≤ 7 → (q.ctx? = none → q.arg 22 2 ≤ 1023) →
    exec (.lostOwnedRead m) s = .next (okay v q (natLe (tgetD (v.ctx (match q.ctx? with | some c => c | none => q.arg 22 2)).lostOwned 0 (q.arg 20 1)) 8) []))

/-- 14 R331 to R336: a coherence request whose address passes its check joins the home's queue, from a session's frame or from a
paddock's line cache; COMP_ACK from the grantee closes its transaction. -/
def Obligations.CoherenceRequestsComplete : Prop :=
  (∀ (src : CohSource) (s u : State) (g : Agent) (r : CohReq) (line : Nat), cohRequest s src 0x10 = some (g, r, u) →
    cohCheck (bump u .context g.ctx 14 1) g r.agent r.opcode r.va = (stOk, line) → exec (.rdShared src) s = .next (arrive (bump u .context g.ctx 14 1) { r with line := line })) ∧
  (∀ (src : CohSource) (s u : State) (g : Agent) (r : CohReq) (line : Nat), cohRequest s src 0x11 = some (g, r, u) →
    cohCheck (bump u .context g.ctx 14 1) g r.agent r.opcode r.va = (stOk, line) → exec (.rdOwn src) s = .next (arrive (bump u .context g.ctx 14 1) { r with line := line })) ∧
  (∀ (src : CohSource) (s u : State) (g : Agent) (r : CohReq) (line : Nat), cohRequest s src 0x12 = some (g, r, u) →
    cohCheck (bump u .context g.ctx 14 1) g r.agent r.opcode r.va = (stOk, line) → exec (.upgrade src) s = .next (arrive (bump u .context g.ctx 14 1) { r with line := line })) ∧
  (∀ (src : CohSource) (s u : State) (g : Agent) (r : CohReq) (line : Nat), cohRequest s src 0x13 = some (g, r, u) →
    cohCheck (bump u .context g.ctx 14 1) g r.agent r.opcode r.va = (stOk, line) → exec (.wb src) s = .next (arrive (bump u .context g.ctx 14 1) { r with line := line })) ∧
  (∀ (q : Fin 64) (s u : State) (r : InReq) (a : Nat) (g : Agent) (t : Txn), requested s q (fun e => e.op == 0x14) = some (r, u) →
    agentOfSession u r.i = some a → u.agent? a = some g → ackFrameBad g r.e = false →
    u.txns.find? (fun t => t.phase == .ack && t.agent == a && t.va == r.e.arg 0 48) = some t →
    exec (.compAck (.port q)) s = .next (serveQueued (closeTxn u t.line))) ∧
  (∀ (p : Fin 16) (s u : State) (m : XMsg) (t : Txn), sentHome s p (fun m => m.opcode == 0x14) = some (m, u) →
    u.txns.find? (fun t => t.phase == .ack && t.agent == 64 + p.val && t.va == m.va) = some t →
    exec (.compAck (.paddock p)) s = .next (serveQueued (closeTxn u t.line)))

/-- 14 R334, R335: how the home serves a request on a stable line: RD_SHARED snoops the owner alone with SNP_SHARED, RD_OWN snoops
every other holder with SNP_INV, UPGRADE from a sharer snoops the others with SNP_INV and needs no data, UPGRADE from an agent that
holds no entry is served as RD_OWN, WB from the owner writes memory and frees its entry, and WB from any other agent is discarded
but acknowledged. -/
def Obligations.HomeServesByOpcode : Prop :=
  ∀ (s : State) (r : CohReq), r.nc = none →
    let u := bump s .device 0 0 1
    let v := dropEntries u r.agent r.line
    (r.opcode = 0x10 → serveOne s r = openTxn v r .rdShared (lineOwner v r.line).toList true) ∧
    (r.opcode = 0x11 → serveOne s r = openTxn v r .rdOwn (holders v r.line) true) ∧
    (r.opcode = 0x12 → (holders u r.line).contains r.agent = true → lineOwner u r.line ≠ some r.agent →
      serveOne s r = tryComplete (openTxn u r .upgrade ((holders u r.line).filter (· != r.agent)) false) r.line) ∧
    (r.opcode = 0x12 → (holders u r.line).contains r.agent = false → serveOne s r = openTxn v r .rdOwn (holders v r.line) true) ∧
    (r.opcode = 0x13 → ownsAt u r.agent r.va r.way r.line = true →
      serveOne s r = answerAgent (dropEntries (writeHome u r.line r.data) r.agent r.line) r stOk 5 []) ∧
    (r.opcode = 0x13 → ownsAt u r.agent r.va r.way r.line = false → serveOne s r = answerAgent u r stOk 5 [])

/-- 14 R336, R339: an awaited snoop answer: RSP_I drops the agent's entry, RSP_S leaves it shared, and the two with data write the
line home first; a stash offer's ACCEPT makes the agent the owner at its way, and DECLINE closes the offer. -/
def Obligations.SnoopAnswersComplete : Prop :=
  (∀ (src : CohSource) (s w : State) (a line way : Nat) (d : Bytes) (t : Txn), answerFrom s src [0x18, 0x19] 0x10 = some (a, line, way, d, w) →
    txnOn w line = some t → t.phase = .snp → t.awaited.contains a = true → homeHeld w line = false → exec (.rspI src) s =
      .next (serveQueued (tryComplete (updTxn (dropEntries w a line) line (fun t => { t with awaited := t.awaited.erase a })) line))) ∧
  (∀ (src : CohSource) (s w : State) (a line way : Nat) (d : Bytes) (t : Txn), answerFrom s src [0x18, 0x19] 0x11 = some (a, line, way, d, w) →
    txnOn w line = some t → t.phase = .snp → t.awaited.contains a = true → homeHeld w line = false → exec (.rspS src) s =
      .next (serveQueued (tryComplete (updTxn (setShared w a line) line (fun t => { t with awaited := t.awaited.erase a })) line))) ∧
  (∀ (src : CohSource) (s w : State) (a line way : Nat) (d : Bytes) (t : Txn), answerFrom s src [0x18, 0x19] 0x12 = some (a, line, way, d, w) →
    txnOn w line = some t → t.phase = .snp → t.awaited.contains a = true → homeHeld w line = false →
    let h := updTxn (writeHome w line d) line (fun t => { t with data := some d })
    exec (.rspDataI src) s = .next (serveQueued (tryComplete (updTxn (dropEntries h a line) line (fun t => { t with awaited := t.awaited.erase a })) line))) ∧
  (∀ (src : CohSource) (s w : State) (a line way : Nat) (d : Bytes) (t : Txn), answerFrom s src [0x18, 0x19] 0x13 = some (a, line, way, d, w) →
    txnOn w line = some t → t.phase = .snp → t.awaited.contains a = true → homeHeld w line = false →
    let h := updTxn (writeHome w line d) line (fun t => { t with data := some d })
    exec (.rspDataS src) s = .next (serveQueued (tryComplete (updTxn (setShared h a line) line (fun t => { t with awaited := t.awaited.erase a })) line))) ∧
  (∀ (src : CohSource) (s w : State) (a line way : Nat) (d : Bytes) (t : Txn) (g : Agent), answerFrom s src [0x1A] 0x20 = some (a, line, way, d, w) →
    txnOn w line = some t → t.phase = .sth → t.agent = a → w.agent? a = some g → way < g.ways →
    exec (.accept src) s = .next (serveQueued (closeTxn (bump (setEntry w a t.va way line true) .device 0 4 1) line))) ∧
  (∀ (src : CohSource) (s w : State) (a line way : Nat) (d : Bytes) (t : Txn), answerFrom s src [0x1A] 0x21 = some (a, line, way, d, w) →
    txnOn w line = some t → t.phase = .sth → t.agent = a → exec (.decline src) s = .next (serveQueued (closeTxn w line)))

/-- 14 R326, R336, R340 to R342: the timed events of the home: memory data, timeouts, resolution and lease expiry. No state needs
to be shut out: the end of an agent's resolution removes every entry of that agent. -/
def Obligations.HomeEventsComplete : Prop :=
  (∀ (t line : Nat) (s u : State) (x : Txn), u = advance s t → u.clocked = true → txnOn u line = some x → x.phase = .snp → x.needMem = true → x.memIn = false → homeHeld u line = false →
    exec (.homeMemoryDataIn t line) s = .next (serveQueued (tryComplete (updTxn (readHome u line).2 line
      (fun x => { x with memIn := true, data := match x.data with | some b => some b | none => (readHome u line).1 })) line))) ∧
  (∀ (t line : Nat) (s u : State) (x : Txn), u = advance s t → u.clocked = true → txnOn u line = some x → x.phase = .ack → agentLate u x.agent x.since = true →
    exec (.compAckTimeout t line) s = .next (serveQueued (closeTxn u line))) ∧
  (∀ (t line : Nat) (a : Fin 80) (s u : State) (x : Txn), u = advance s t → u.clocked = true → txnOn u line = some x → x.phase = .snp → x.awaited.contains a.val = true →
    x.unsent.contains a.val = false → agentLate u a (askedAt u x a) = true → exec (.snoopTimeout t line a) s = .next (declareDead u a 3)) ∧
  (∀ (t : Nat) (a : Fin 80) (s u : State) (g : Agent) (cause : Nat), u = advance s t → u.clocked = true → u.agent? a = some g → g.dead = some cause → cause ≠ 6 →
    Completes (.agentResolutionDone t a) s (fun w => w.agent? a = none)) ∧
  (∀ (t line : Nat) (s u : State) (x : Txn), u = advance s t → u.clocked = true → txnOn u line = some x → x.phase = .sth → x.unsent = [] → agentLate u x.agent (askedAt u x x.agent) = true →
    exec (.stashOfferTimeout t line) s = .next (serveQueued (closeTxn (forgetAgent u x.agent (some line)) line))) ∧
  (∀ (t : Nat) (a : Fin 64) (s u : State) (g : Agent), u = advance s t → u.clocked = true → u.agent? a = some g → g.dead = none → g.leaseStart + msNs g.leaseMs ≤ u.now →
    exec (.agentLeaseExpiry t a) s = .next (declareDead u a 2))

/-- 14 R337: what a paddock's line cache does with a grant, a WB_ACK, a snoop and a stash offer, state by state. -/
def Obligations.LineCacheMessagesComplete : Prop :=
  (∀ (p : Fin 16) (s u : State) (m : XMsg) (w : Way), delivered s p (fun m => m.opcode ≤ 0x12 && m.subop == 1) = some (m, u) →
    tget? (u.engine p).ways (wayKey (u.engine p) m.va m.way) = some w → w.va = m.va → w.st = .isD →
    exec (.dataS p) s = .next (toHome (if lineCurrent u p m.va m.line then setWay u p (wayKey (u.engine p) m.va m.way)
      (fun w => { w with st := .s, extent := some (lineExtent m.line), data := if m.data.isEmpty then w.data else m.data }) else freeWay u p (wayKey (u.engine p) m.va m.way)) p 0x14 0 m.va m.way)) ∧
  (∀ (p : Fin 16) (s u : State) (m : XMsg) (w : Way), delivered s p (fun m => m.opcode ≤ 0x12 && m.subop == 2) = some (m, u) →
    tget? (u.engine p).ways (wayKey (u.engine p) m.va m.way) = some w → w.va = m.va → w.st = .isD →
    exec (.dataE p) s = .next (toHome (if lineCurrent u p m.va m.line then setWay u p (wayKey (u.engine p) m.va m.way)
      (fun w => { w with st := .e, extent := some (lineExtent m.line), data := if m.data.isEmpty then w.data else m.data }) else freeWay u p (wayKey (u.engine p) m.va m.way)) p 0x14 0 m.va m.way)) ∧
  (∀ (p : Fin 16) (s u : State) (m : XMsg) (w : Way), delivered s p (fun m => m.opcode ≤ 0x12 && m.subop == 3) = some (m, u) →
    tget? (u.engine p).ways (wayKey (u.engine p) m.va m.way) = some w → w.va = m.va → (w.st = .imD ∨ w.st = .smA) →
    exec (.dataM p) s = .next (toHome (if lineCurrent u p m.va m.line then setWay u p (wayKey (u.engine p) m.va m.way)
      (fun w => { w with st := .m, extent := some (lineExtent m.line), data := if m.data.isEmpty then w.data else m.data }) else freeWay u p (wayKey (u.engine p) m.va m.way)) p 0x14 0 m.va m.way)) ∧
  (∀ (p : Fin 16) (s u : State) (m : XMsg) (w : Way), delivered s p (fun m => m.opcode ≤ 0x12 && m.subop == 4) = some (m, u) →
    tget? (u.engine p).ways (wayKey (u.engine p) m.va m.way) = some w → w.va = m.va → w.st = .smA →
    exec (.grantM p) s = .next (toHome (if lineCurrent u p m.va m.line then setWay u p (wayKey (u.engine p) m.va m.way)
      (fun w => { w with st := .m, extent := some (lineExtent m.line), data := if m.data.isEmpty then w.data else m.data }) else freeWay u p (wayKey (u.engine p) m.va m.way)) p 0x14 0 m.va m.way)) ∧
  (∀ (p : Fin 16) (s u : State) (m : XMsg) (k : Nat) (w : Way), delivered s p (fun m => m.opcode == 0x13 && m.subop == 5) = some (m, u) →
    wayOf (u.engine p) m.va = some (k, w) → (w.st = .miA ∨ w.st = .iiA) → exec (.wbAck p) s = .next (freeWay u p k)) ∧
  (∀ (p : Fin 16) (s u : State) (m : XMsg), delivered s p (fun m => m.opcode == 0x18) = some (m, u) → wayOf (u.engine p) m.va = none →
    exec (.snpShared p) s = .next (toHome u p 0x18 0x10 m.va m.way [])) ∧
  (∀ (p : Fin 16) (s u : State) (m : XMsg) (k subop : Nat) (w : Way) (withData : Bool) (st : Option LineState), delivered s p (fun m => m.opcode == 0x18) = some (m, u) →
    wayOf (u.engine p) m.va = some (k, w) → Machine.snpShared w.st = (subop, withData, st) →
    let v := toHome u p 0x18 subop m.va m.way (if withData then w.data else [])
    exec (.snpShared p) s = .next (match st with | some x => setWay v p k (fun w => { w with st := x }) | none => freeWay v p k)) ∧
  (Machine.snpShared .s = (0x11, false, some .s) ∧ Machine.snpShared .e = (0x11, false, some .s) ∧ Machine.snpShared .m = (0x13, true, some .s) ∧ Machine.snpShared .isD = (0x10, false, some .isD) ∧ Machine.snpShared .imD = (0x10, false, some .imD) ∧ Machine.snpShared .smA = (0x11, false, some .smA) ∧ Machine.snpShared .miA = (0x12, true, some .iiA) ∧ Machine.snpShared .iiA = (0x10, false, some .iiA)) ∧
  (∀ (p : Fin 16) (s u : State) (m : XMsg), delivered s p (fun m => m.opcode == 0x19) = some (m, u) → wayOf (u.engine p) m.va = none →
    exec (.snpInv p) s = .next (toHome u p 0x19 0x10 m.va m.way [])) ∧
  (∀ (p : Fin 16) (s u : State) (m : XMsg) (k subop : Nat) (w : Way) (withData : Bool) (st : Option LineState), delivered s p (fun m => m.opcode == 0x19) = some (m, u) →
    wayOf (u.engine p) m.va = some (k, w) → Machine.snpInv w.st = (subop, withData, st) →
    let v := toHome u p 0x19 subop m.va m.way (if withData then w.data else [])
    exec (.snpInv p) s = .next (match st with | some x => setWay v p k (fun w => { w with st := x }) | none => freeWay v p k)) ∧
  (Machine.snpInv .s = (0x10, false, none) ∧ Machine.snpInv .e = (0x10, false, none) ∧ Machine.snpInv .m = (0x12, true, none) ∧ Machine.snpInv .isD = (0x10, false, some .isD) ∧ Machine.snpInv .imD = (0x10, false, some .imD) ∧ Machine.snpInv .smA = (0x10, false, some .imD) ∧ Machine.snpInv .miA = (0x12, true, some .iiA) ∧ Machine.snpInv .iiA = (0x10, false, some .iiA)) ∧
  (∀ (p : Fin 16) (s u : State) (m : XMsg), delivered s p (fun m => m.opcode == 0x1A) = some (m, u) → wayOf (u.engine p) m.va = none →
    (u.engine p).partition ≠ 0 → lineCurrent u p m.va m.line = true → openWays (u.engine p) m.va ≠ [] →
    Completes (.stashFill p) s (fun t => ∃ x ∈ openWays (u.engine p) m.va, tget? (t.engine p).ways (wayKey (u.engine p) m.va x) = some { va := m.va, st := .e, extent := some (lineExtent m.line), data := m.data } ∧
      t.xbar = u.xbar ++ [{ toHome := true, paddock := p, opcode := 0x1A, subop := 0x20, va := m.va, way := x, data := [] }]))


/-! ### Stacks, refresh and rebuild (chapters 09 and 10) -/

/-- 09 R206, R207, R228, R230, R231 and 10 R237, R240, R245: the commands of the stacks and of the rebuild complete. The
clauses of STACK_DIAG_READ's widths and codes, of the owed count that STACK_FLAGS_CLEAR restarts and of the stripes left and SPACING that
REBUILD_STATUS reports are derived: they are the model's choices (log entries 17, 29 and 40). -/
def Obligations.StackCommandsComplete : Prop :=
  (∀ (m : Fin 1029) (s v : State) (q : Req), Ready cmdStackStatus m s q v → RestZero q [(20, 1)] → q.arg 20 1 ≤ 15 →
    let x := v.stack (q.arg 20 1)
    exec (.stackStatus m) s = .next (okay v q (natLe x.st.code 1 ++ natLe 0 1 ++ natLe x.badDies.toNat 2 ++ natLe (unsigned x.caseTemp 8) 1 ++ natLe x.flags.toNat 1
      ++ natLe x.owedMax 1 ++ natLe 0 1 ++ natLe x.forced 4 ++ natLe x.corrected 4 ++ natLe x.reconstructed 4 ++ natLe x.mediaErrors 4 ++ natLe x.scrubAddr 8
      ++ natLe (match x.scrubDone with | some d => (v.now - d) / secNs 1 | none => 0) 4) [])) ∧
  (∀ (m : Fin 1029) (s v : State) (q : Req), Ready cmdStackProfileRead m s q v → RestZero q [(20, 2)] → q.arg 20 1 ≤ 15 → q.arg 21 1 ≤ 1 → v.profileSize ≤ q.room →
    let set := if q.arg 21 1 = 0 then v.flash.accepted.at_ 0 (16 * v.profileSize) else packageProfiles v v.dev.package
    exec (.stackProfileRead m) s = .next (okay v q (setDigest set) (siteProfile v set (q.arg 20 1)))) ∧
  (∀ (m : Fin 1029) (s v : State) (q : Req), Ready cmdStackProfileAccept m s q v → RestZero q [(20, 2)] → q.arg 20 2 ≤ 1023 → q.xargLen = 32 → v.job.isOpen = false →
    Completes (.stackProfileAccept m) s (fun t => t.dev = v.dev ∧ if v.dev.package.present = true ∧ setDigest (packageProfiles v v.dev.package) = q.xarg
        ∧ setFault v (packageProfiles v v.dev.package) = none
      then t.flash.accepted = Area.of (packageProfiles v v.dev.package) ∧ t.flash.idleClose = q.arg 20 2
      else t.flash.accepted = v.flash.accepted ∧ t.flash.idleClose = v.flash.idleClose)) ∧
  (∀ (m : Fin 1029) (s v : State) (q : Req), Ready cmdMemPolicySet m s q v → RestZero q [(20, 15)] → 5 ≤ q.arg 20 1 → q.arg 20 1 ≤ 50 → q.arg 21 2 ≤ 720 →
    q.arg 27 1 ≤ 1 → 1 ≤ q.arg 28 2 → 1 ≤ q.arg 30 1 → 1000 ≤ q.arg 31 4 → q.arg 31 4 ≤ 1000000 →
    Completes (.memPolicySet m) s (fun t => t.policy = v.policy ∧ t.staged = v.staged ++ [{ at_ := joinBoundary v, owes := some q.owes, change := .policy { bgShare := q.arg 20 1, scrubPeriod := q.arg 21 2, dieBadLines := q.arg 23 4, dieLimit := q.arg 27 1, ueLimit := q.arg 28 2, caParityLimit := q.arg 30 1, combineIdle := q.arg 31 4 } }])) ∧
  (∀ (m : Fin 1029) (s v : State) (q : Req), Ready cmdStackFlagsClear m s q v → RestZero q [(20, 2)] → q.arg 20 1 ≤ 15 → q.arg 21 1 < 64 →
    Completes (.stackFlagsClear m) s (fun t => t.stack (q.arg 20 1) = { v.stack (q.arg 20 1) with flags := (v.stack (q.arg 20 1)).flags &&& ~~~(BitVec.ofNat 8 (q.arg 21 1)), owedMax := (v.stack (q.arg 20 1)).owedNow })) ∧
  (∀ (m : Fin 1029) (s v : State) (q : Req), Ready cmdStackDiagRead m s q v → RestZero q [(20, 1), (22, 6)] → q.arg 20 1 ≤ 15 → q.arg 22 6 % 128 = 0 →
    q.arg 22 6 < v.stripes * 4096 → 161 ≤ q.room → diagDenied v (q.arg 20 1) (q.arg 22 6) = false →
    exec (.stackDiagRead m) s = .next (okay (recorded cmdStackDiagRead q v) q [] (storedSymbols v (q.arg 20 1) (q.arg 22 6)
      ++ [Config.diagCode (diagOutcome v (q.arg 20 1) (q.arg 22 6))] ++ (List.range 16).flatMap (fun i => natLe (dieOf v (q.arg 22 6) i) 1)))) ∧
  (∀ (m : Fin 1029) (s v : State) (q : Req), Ready cmdStackFail m s q v → RestZero q [(20, 2)] → q.arg 20 1 ≤ 15 → q.arg 21 1 ≤ 1 →
    (v.stack (q.arg 20 1)).st = .serving → (lossAhead v = true → q.arg 21 1 = 1) →
    exec (.stackFail m) s = .next (pending (fenceStack (recorded cmdStackFail q v) (q.arg 20 1) 4) q [])) ∧
  (∀ (m : Fin 1029) (s v : State) (q : Req), Ready cmdRebuildStatus m s q v → RestZero q [] →
    exec (.rebuildStatus m) s = .next (okay v q (natLe v.layout.st.code 1 ++ natLe (stackByte v.layout.f) 1 ++ natLe (stackByte v.layout.g) 1 ++ natLe (stackByte v.layout.h) 1
      ++ natLe v.layout.w 4 ++ natLe (stripesLeft v) 4 ++ natLe v.rebuild.mode 1 ++ natLe v.policy.bgShare 1 ++ natLe 0 2 ++ natLe (spacing v) 4 ++ natLe v.rebuild.marked 4
      ++ natLe (if v.rebuild.since = 0 then 0 else (v.now - v.rebuild.since) / secNs 1) 4) [])) ∧
  (∀ (m : Fin 1029) (s v : State) (q : Req) (f : Nat), Ready cmdRebuildControl m s q v → RestZero q [(20, 1)] → q.arg 20 1 ≤ 2 → v.layout.f = some f →
    (v.stack f).st = .rebuilding → Completes (.rebuildControl m) s (fun t => t.rebuild = { v.rebuild with mode := q.arg 20 1 } ∧ t.layout = v.layout))

/-- 09 R210 to R213 and 07 R194, R195: refresh, its windows and the reservations; 19 R437: the temperature readings. A reading below
0 °C is outside the operating limits, where 19 R442 leaves the behaviour undefined. The clauses that an idle PC
issues all that it owes and that a reading below 0 °C stops are derived: they are the model's readings (log entries 30 and 77). -/
def Obligations.RefreshEventsComplete : Prop :=
  (∀ (t : Nat) (k : Fin 16) (c : Fin 64) (b : Bool) (s u : State), u = advance s t → refreshes u k = true → c.val < u.pcs →
    2 * tgetD (u.stack k).lastTick 0 c + tickHalfNs u k c ≤ 2 * u.now → tgetD (u.stack k).owed 0 c + 1 < 8 → (u.stack k).preT0 = false →
    windowSched u 7 k = none → b = true →
    Completes (.refreshTick t k c b) s (fun w => tgetD (w.stack k).owed 0 c = tgetD (u.stack k).owed 0 c + 1 ∧ tgetD (w.stack k).lastTick 0 c = u.now
      ∧ (w.stack k).refreshes = (u.stack k).refreshes)) ∧
  (∀ (t : Nat) (k : Fin 16) (c : Fin 64) (b : Bool) (s u : State), u = advance s t → refreshes u k = true → c.val < u.pcs →
    2 * tgetD (u.stack k).lastTick 0 c + tickHalfNs u k c ≤ 2 * u.now → tgetD (u.stack k).owed 0 c = 7 →
    Completes (.refreshTick t k c b) s (fun w => (w.stack k).forced = (u.stack k).forced + 1 ∧ tgetD (w.stack k).owed 0 c = 7
      ∧ (w.stack k).refreshes = (u.stack k).refreshes + 1 ∧ (w.stack k).flags.getLsbD 0 = true)) ∧
  (∀ (t : Nat) (k : Fin 16) (c : Fin 64) (s u : State), u = advance s t → refreshes u k = true → c.val < u.pcs → windowSched u 7 k = none →
    tgetD (u.stack k).lastDemand 0 (c.val / 16) + mclkNs u k 16 ≤ u.now → tgetD (u.stack k).owed 0 c ≤ 8 →
    Completes (.refreshIdleIssue t k c) s (fun w => tgetD (w.stack k).owed 0 c = 0 ∧ (w.stack k).refreshes = (u.stack k).refreshes + tgetD (u.stack k).owed 0 c)) ∧
  (∀ (t : Nat) (k : Fin 16) (c : Fin 64) (s u : State) (left : Nat), u = advance s t → refreshes u k = true → c.val < u.pcs → windowLeft u 7 k = some left →
    Completes (.refreshWindowOpen t k c) s (fun w => tgetD (w.stack k).owed 0 c = tgetD (u.stack k).owed 0 c - refreshesFit u k c left)) ∧
  (∀ (t : Nat) (k : Fin 16) (s u : State), u = advance s t → refreshes u k = true → preT0Due u k = true →
    exec (.refreshPreT0 t k) s = .next (foldRange 0 u.pcs (u.updStack k (fun x => { x with preT0 := true })) (fun s pc => refreshPc s k pc 8))) ∧
  (∀ (t : Nat) (k : Fin 16) (s u : State) (n t0 left : Nat) (b : Bytes), u = advance s t → u.clocked = true → windowSched u 8 k = some (n, t0, b) →
    windowLeft u 8 k = some left → Completes (.reserveIntervalStart t k) s (fun w => w.stack k = { u.stack k with reserved := some { sched := n, ends := u.now + left, share := openShare u k } })) ∧
  (∀ (t : Nat) (l : List Int) (s u : State), u = advance s t → u.clocked = true → readingDue u u.dev.dieReadAt = true → (∀ x ∈ l, 0 ≤ x) →
    Completes (.dieTemperatureRead t l) s (fun w => w.dev.dieMax = l.foldl max 0 ∧ w.stks = u.stks)) ∧
  (∀ (t : Nat) (l : List Int) (s u : State), u = advance s t → u.clocked = true → readingDue u u.dev.stackReadAt = true → (∀ x ∈ l, 0 ≤ x) →
    let v := (l.take 16).zipIdx.foldl (fun s x => setCaseTemp s x.2 x.1) u
    exec (.temperatureRead t l) s = .next (countAlerts v (v.updDev (fun d => { d with stackMax := (l.take 16).foldl max 0, stackReadAt := some u.now })))) ∧
  (∀ (t : Nat) (l : List Int) (s : State) (x : Int), x ∈ l → x < 0 →
    exec (.temperatureRead t l) s = .fault .outsideLimits ∧ exec (.dieTemperatureRead t l) s = .fault .outsideLimits)

/-- 09 R215, R222, R223, R225, R227 and 10 R234, R236, R239, R240: what the stacks, the patrol and the rebuild do. The
clauses of the rebuild's slots and of the pace of the patrol's passes are derived: they are the model's choices (log entries 40 and 111). -/
def Obligations.StackEventsComplete : Prop :=
  (∀ (t : Nat) (k b : Fin 64) (n : Fin 16) (s u : State) (r : OpenRow), u = advance s t → u.clocked = true → (u.stack n).clocked = true → tget? (u.stack n).rows (k.val / 16 * 64 + b.val) = some r →
    r.last + mclkNs u n u.dev.idleClose ≤ u.now →
    Completes (.idleCloseExpiry t n k b) s (fun w => w.stack n = closeRowOn (u.stack n) (k.val / 16 * 64 + b.val) (k.val % 16) ∧ w.lines = u.lines ∧ w.pool = u.pool)) ∧
  (∀ (t : Nat) (n : Fin 16) (l : Nat) (o : LineObs) (s u : State), u = advance s t → u.clocked = true → l % 128 = 0 → l < u.stripes * 4096 → controllerRuns u n = true →
    exec (.stackAccessComplete t n l o) s = .next (decodeAct (observe (touchRow (repairFirst u demand n l) n l demand) n l o) demand n l)) ∧
  (∀ (t : Nat) (n : Fin 16) (s u : State), u = advance s t → u.clocked = true → (u.stack n).inService = true → (u.stack n).clocked = true →
    exec (.modeRegisterReadTimeout t n) s = .next (stackCondition u n 3)) ∧
  (∀ (t : Nat) (f : Fin 4) (s u : State), u = advance s t → u.clocked = true →
    exec (.stackRailOutOfTarget t f) s = .next (foldKeys (rangeFrom (4 * f) 4) u (fun s k => if (s.stack k).inService && (s.stack k).clocked then stackCondition s k 3 else s))) ∧
  (∀ (t : Nat) (n : Fin 16) (s u : State), u = advance s t → firmwareRuns u = true → nextDeclared u n = true →
    exec (.stackFailureDeclaration t n) s = .next (declareStack u n)) ∧
  (∀ (t : Nat) (n : Fin 16) (o : LineObs) (s u : State), u = advance s t → u.clocked = true → controllerRuns u n = true → scrubDue u (u.stack n) = true →
    let l := (u.stack n).scrubAddr
    let v := observe (touchRow (repairFirst u background n l) n l background) n l o
    let found := decodeLine v n l
    let lost := (lineErr v n l).mark || (reconstructLine v n l).isNone
    let w := if found == .beyond && emptySpare v n l then storeLine (countUe v n) n l (List.replicate 128 0) else decodeAct v background n l
    exec (.patrolScrubRead t n o) s = .next (w.updStack n (fun x => scrubAdvance w { x with scrubCount := x.scrubCount.after found lost }))) ∧
  (∀ (t : Nat) (n : Fin 16) (l : Nat) (r : List Nat) (s u : State), u = advance s t → u.clocked = true → controllerRuns u n = true → (u.stack n).repairs = l :: r →
    exec (.repairWrite t n) s = .next (repairLine (u.updStack n (fun x => { x with repairs := r })) background n l)) ∧
  (∀ (t : Nat) (n : Fin 16) (k : Nat) (s u : State) (c : Combine), u = advance s t → u.clocked = true → (u.stack n).clocked = true → parityHome k = n.val → combineOf u k = some c →
    c.last + u.policy.combineIdle ≤ u.now → exec (.combineIdleExpiry t n k) s = .next (closeCombine u k)) ∧
  (∀ (t f l : Nat) (s u : State), u = advance s t → u.clocked = true → stacksClocked u = true → u.layout.st = .rebuilding → u.rebuild.mode ≠ 1 → u.rebuild.inSlot = false → slotStripe u f < u.stripes →
    u.layout.f = some f → u.rebuild.lastSlot = some l → l + mclkNs u f (spacing u) ≤ u.now →
    exec (.rebuildSlotStart t) s = .next (closeCombine { u with rebuild := { u.rebuild with inSlot := true, lastSlot := some u.now } } (slotStripe u f))) ∧
  (∀ (t f : Nat) (s u : State), u = advance s t → u.clocked = true → stacksClocked u = true → u.layout.st = .rebuilding → u.rebuild.inSlot = true →
    u.layout.f = some f → (u.rebuild.settled = true ∨ stackServes u (spareStack (slotStripe u f)) = true) →
    let v := bump (if u.rebuild.settled then u else rebuildStripe u f (slotStripe u f)) .stack f 13 1
    let w := { v with rebuild := { v.rebuild with inSlot := false, settled := false } }
    exec (.rebuildSlotComplete t) s = .next (if slotStripe w f ≥ w.stripes then rebuildDone w f else w))


/-! ### Counters, trace, staging, records, faults (chapters 02, 16, 17, 18) -/

/-- 18 R412, R413, R418 to R420: COUNTER_ENABLE and TRACE_SET stage their change; COUNTER_READ, TRACE_READ and TRACE_STATUS report,
and TRACE_READ frees the records it returns where it is told to; that read is audited (log entry 92). -/
def Obligations.CounterAndTraceCommandsComplete : Prop :=
  (∀ (m : Fin 1029) (s v : State) (q : Req) (g : Group), Ready cmdCounterEnable m s q v → RestZero q [(20, 6)] → counterGroup (q.arg 20 1) = some g →
    q.arg 21 1 ≤ 1 → q.arg 22 2 < g.named → 1 ≤ q.arg 24 2 → q.arg 24 2 ≤ 1024 → q.arg 22 2 + q.arg 24 2 ≤ g.named →
    Completes (.counterEnable m) s (fun t => t.pendings = v.pendings ++ [q.owes] ∧ t.staged = v.staged ++ [{ at_ := joinBoundary v, owes := some q.owes, change := .counters (q.arg 20 1) (q.arg 22 2) (q.arg 24 2) (decide (q.arg 21 1 = 1)) }])) ∧
  (∀ (m : Fin 1029) (s v : State) (q : Req) (g : Group), Ready cmdCounterRead m s q v → RestZero q [(20, 1), (22, 2)] → counterGroup (q.arg 20 1) = some g →
    q.arg 22 2 < g.instances → g.blockSize ≤ q.room → (∀ c, q.party = .tenant c → instanceCtx v g (q.arg 22 2) = some c) →
    exec (.counterRead m) s = .next (okay v q [] (blockBytes v g (q.arg 22 2) g.blockSize))) ∧
  (∀ (m : Fin 1029) (s v : State) (q : Req), Ready cmdTraceSet m s q v → RestZero q [(20, 10), (32, 16)] → q.arg 20 1 ≤ 15 → q.arg 21 1 = 0 →
    Completes (.traceSet m) s (fun t => t.streams = v.streams ∧ t.staged = v.staged ++ [{ at_ := joinBoundary v, owes := some q.owes, change := .trace (q.arg 20 1) none }])) ∧
  (∀ (m : Fin 1029) (s v : State) (q : Req), Ready cmdTraceSet m s q v → RestZero q [(20, 10), (32, 16)] → q.arg 20 1 ≤ 15 → q.arg 21 1 = 1 → q.arg 22 2 < 1024 →
    maskBad (BitVec.ofNat 32 (q.arg 24 4)) = false → q.arg 32 8 % 65536 = 0 → q.arg 40 8 % 65536 = 0 → 65536 ≤ q.arg 40 8 → q.arg 32 8 + q.arg 40 8 ≤ traceRegion →
    sliceTaken v (q.arg 20 1) (q.arg 32 8) (q.arg 40 8) = false →
    Completes (.traceSet m) s (fun t => t.streams = v.streams ∧ t.staged = v.staged ++ [{ at_ := joinBoundary v, owes := some q.owes, change := .trace (q.arg 20 1) (some (traceSetting q)) }])) ∧
  (∀ (m : Fin 1029) (s v : State) (q : Req), Ready cmdTraceRead m s q v → RestZero q [(20, 4)] → q.arg 20 1 ≤ 15 → q.arg 21 1 ≤ 1 → 1 ≤ q.arg 22 2 → q.arg 22 2 ≤ 640 →
    (∀ c, q.party = .tenant c → (v.stream (q.arg 20 1)).source = c) → (v.stream (q.arg 20 1)).toSession = false →
    let u := recorded cmdTraceRead q v
    let k := min (min (q.arg 22 2) (q.room / 32)) (v.stream (q.arg 20 1)).heldRecs
    let r := readSlots u (q.arg 20 1) k
    let w := if q.arg 21 1 = 1 then r.2.updStream (q.arg 20 1) (·.advance k) else r.2
    exec (.traceRead m) s = .next (okay w q (natLe k 4 ++ natLe (w.stream (q.arg 20 1)).heldRecs 4) r.1)) ∧
  (∀ (m : Fin 1029) (s v : State) (q : Req), Ready cmdTraceStatus m s q v → RestZero q [(20, 1)] → q.arg 20 1 ≤ 15 → (∀ c, q.party = .tenant c → (v.stream (q.arg 20 1)).source = c) →
    let x := v.stream (q.arg 20 1)
    exec (.traceStatus m) s = .next (okay v q (natLe x.st.code 1 ++ natLe (b2n x.toSession 0) 1 ++ natLe x.source 2 ++ natLe x.written 4 ++ natLe x.dropsTotal 4
      ++ natLe x.losses 4 ++ natLe x.lastDrop 8) []))

/-- 16 R375 to R379, R383 and 02 R50: the staging transfer, the records, the audit log's reader, attestation and enrolment. -/
def Obligations.StagingCommandsComplete : Prop :=
  (∀ (m : Fin 1029) (s v : State) (q : Req), Ready cmdStageOpen m s q v → RestZero q [(20, 1), (24, 4)] → 1 ≤ q.arg 20 1 → q.arg 20 1 ≤ 3 →
    stageLenOk v (q.arg 20 1) (q.arg 24 4) = true → kindRole (q.arg 20 1) q.party = true → v.staging = none →
    Completes (.stageOpen m) s (fun t => t.staging = some { kind := q.arg 20 1, length := q.arg 24 4, opener := q.roleSession })) ∧
  (∀ (m : Fin 1029) (s v : State) (q : Req) (g : Staging), Ready cmdStageWrite m s q v → RestZero q [(24, 4)] → v.staging = some g → g.opener = q.roleSession →
    g.committing = false → q.arg 24 4 = g.held → g.held + q.xarg.length ≤ g.length →
    Completes (.stageWrite m) s (fun t => t.staging = some { g with bytes := mwriteN g.bytes g.held q.xarg, held := g.held + q.xarg.length })) ∧
  (∀ (m : Fin 1029) (s v : State) (q : Req) (g : Staging), Ready cmdStageCommit m s q v → RestZero q [] → v.staging = some g → g.opener = q.roleSession →
    g.committing = false → Completes (.stageCommit m) s (fun t => t.dev = v.dev ∧
      (stageVerdict v g = .good → t.staging = some { g with committing := true, commitId := q.owes.id } ∧ t.pendings = v.pendings ++ [q.owes]) ∧
      (stageVerdict v g ≠ .good → t.staging = some g))) ∧
  (∀ (m : Fin 1029) (s v : State) (q : Req) (g : Staging), Ready cmdStageAbort m s q v → RestZero q [] → v.staging = some g → g.opener = q.roleSession →
    g.committing = false → Completes (.stageAbort m) s (fun t => t.staging = none)) ∧
  (∀ (m : Fin 1029) (s v : State) (q : Req), Ready cmdRecordRead m s q v → RestZero q [(20, 1), (24, 4)] → 1 ≤ q.arg 20 1 → q.arg 20 1 ≤ 3 →
    q.arg 24 4 ≤ (v.flash.area (q.arg 20 1)).len → kindRole (q.arg 20 1) q.party = true →
    let a := v.flash.area (q.arg 20 1)
    exec (.recordRead m) s = .next (okay v q (natLe a.len 4) (a.at_ (q.arg 24 4) (min (min q.room xbufLen) (a.len - q.arg 24 4))))) ∧
  (∀ (m : Fin 1029) (s v : State) (q : Req), Ready cmdAuditRead m s q v → RestZero q [(20, 10)] → 1 ≤ q.arg 28 2 → q.arg 28 2 ≤ 158 → 32 ≤ q.room →
    let rs := ((v.flash.audit.filter (fun r => q.arg 20 8 ≤ r.seq)).take (q.arg 28 2)).take ((q.room - 32) / 128)
    exec (.auditRead m) s = .next (okay v q (natLe rs.length 4) (natLe (chainBefore v.flash rs).toNat 32 ++ rs.flatMap (·.bytes)))) ∧
  (∀ (m : Fin 1029) (s v : State) (q : Req), Ready cmdAttest m s q v → RestZero q [(20, 1)] → q.arg 20 1 ≤ 1 → q.xargLen = 32 →
    (report v q.tenant q.xarg (decide (q.arg 20 1 = 1))).length ≤ q.room →
    exec (.attest m) s = .next (okay v q [] (report v q.tenant q.xarg (decide (q.arg 20 1 = 1))))) ∧
  (∀ (m : Fin 1029) (s v : State) (q : Req), Ready cmdIdentityEnrol m s q v → RestZero q [] → v.dev.package.present = false → 6048 ≤ q.room →
    let h := padTo (Config.pufHelper v.dev.puf) 4096
    exec (.identityEnrol m) s = .next (okay (recorded cmdIdentityEnrol q v) q [] (padTo (Config.identityOf v.dev.puf h) 1952 ++ h)))

/-- 17 R387, R392, R399, R402 to R405 and 02 R47, R59: the commands of the fault chapter complete with their effects; a request whose
opcode no chapter defines is answered with STATUS BAD_OPCODE and its TAG, and leaves every other page as it was. -/
def Obligations.FaultCommandsComplete : Prop :=
  (∀ (m : Fin 1029) (s v : State) (q : Req), Ready cmdErrorLogRead m s q v → RestZero q [(20, 1), (24, 6)] → q.arg 20 1 ≤ 1 → 1 ≤ q.arg 28 2 → q.arg 28 2 ≤ 160 →
    let log := if q.arg 20 1 = 0 then v.aon.errLog else v.flash.errCopy
    let rs := ((log.filter (fun r => q.arg 24 4 ≤ r.seq)).take (q.arg 28 2)).take (q.room / 128)
    exec (.errorLogRead m) s = .next (okay v q (natLe rs.length 4 ++ natLe ((log.head?.map (·.seq)).getD 0) 4 ++ natLe ((log.getLast?.map (·.seq)).getD 0) 4) (rs.flatMap (·.bytes)))) ∧
  (∀ (m : Fin 1029) (s v : State) (q : Req) (d : Dump), Ready cmdDumpRead m s q v → RestZero q [(20, 1), (24, 4)] → q.arg 20 1 ≤ 1 →
    (if q.arg 20 1 = 0 then v.aon.dump else v.flash.dumpCopy) = some d → q.arg 24 4 ≤ d.length →
    exec (.dumpRead m) s = .next (okay v q (natLe d.length 4) (((d.all v.deviceId).drop (q.arg 24 4)).take (min q.room 20480)))) ∧
  (∀ (m : Fin 1029) (s v : State) (q : Req), Ready cmdFaultStatus m s q v → RestZero q [] →
    exec (.faultStatus m) s = .next (okay v q (natLe (lastErr v) 4 ++ natLe v.dev.suppressedTotal 4 ++ natLe v.aon.overwritten 4 ++ natLe v.alertStatus 1 ++ natLe v.aon.dumpHeld.code 1
      ++ natLe ((v.aon.dump.map (·.noAnswer)).getD 0) 1 ++ natLe 0 1 ++ natLe ((v.aon.dump.map (·.bootEpoch.toNat)).getD 0) 4) [])) ∧
  (∀ (m : Fin 1029) (s v : State) (q : Req), Ready cmdAlertClear m s q v → RestZero q [(20, 1)] →
    Completes (.alertClear m) s (fun t => t.dev = { v.dev with alert0 := v.dev.alert0 && !bit (q.arg 20 1) 0, alert1 := v.dev.alert1 && !bit (q.arg 20 1) 1 })) ∧
  (∀ (m : Fin 1029) (s v : State) (q : Req), Ready cmdEngineReset m s q v → RestZero q [(20, 1)] → q.arg 20 1 ≤ 15 →
    exec (.engineReset m) s = .next (pending (beginEngineReset (recorded cmdEngineReset q v) (q.arg 20 1) 3 0xFFFF 0xFF) q [])) ∧
  (∀ (m : Fin 1029) (s v : State) (q : Req), Ready cmdWatchdogSet m s q v → RestZero q [(20, 4)] → 100 ≤ q.arg 20 4 → q.arg 20 4 ≤ 100000 →
    Completes (.watchdogSet m) s (fun t => t.dev = v.dev ∧ t.staged = v.staged ++ [{ at_ := joinBoundary v, owes := some q.owes, change := .watchdog (q.arg 20 4) }])) ∧
  (∀ (m : Fin 1029) (s v : State) (q : Req), Ready cmdDeviceReset m s q v → RestZero q [(20, 1)] → q.arg 20 1 ≤ 1 →
    let w := logError (recorded cmdDeviceReset q v) 0x45 4 0xFF (natLe 1 1 ++ natLe (q.arg 20 1) 1)
    exec (.deviceReset m) s = .next (okay (orderReset w { reason := 4, dump := decide (q.arg 20 1 = 1), at_ := w.now, errorSeq := lastErr w, command := true }) q [] []) ∧
      (v.aon.ordered = none → v.aon.dumping = none → ∃ o, (orderReset w { reason := 4, dump := decide (q.arg 20 1 = 1), at_ := w.now, errorSeq := lastErr w, command := true }).aon.ordered = some o ∧ o.reason = 4)) ∧
  (∀ (m : Fin 1029) (s : State) (q : Req), headOf s m = some q → mailOpcode q.opcode = false → (s.page m).mem.wf = true →
    Completes (.undefinedMailboxOpcode m) s (fun t => t = answerUndefined s q ∧ t.dev = s.dev ∧ (t.page m).rspPi = q.index + 1 ∧ (t.page m).reqCi = q.index + 1 ∧
      mreadN (t.page m).mem (0x5000 + 64 * (q.index.toNat % 256)) 4 = natLe 0x0101 2 ++ natLe q.tag.toNat 2 ∧ (∀ k, k ≠ m.val → t.page k = s.page k)))


/-! ### The registers of mailbox pages, CSR space (chapter 02) -/

/-- 02 R30 to R34, R41 and 00 R11: the writes of a page's registers complete where their path reaches the page: a doorbell that passes
both tests moves REQ_PI, one that fails leaves it and counts BAD_DOORBELL; RSP_CI releases the ranges it passes; EVQ_CI and
EVQ_ENABLE act on the event queue; the flags clear unless the hardware sets them in that cycle; a read of CLUSTER_TIME_LO latches
the upper half; CSR writes and reads act as a whole. -/
def Obligations.PageRegistersComplete : Prop :=
  (∀ (m : Fin 1029) (p : Path) (v : BitVec 16) (s : State), pathAllows s p m = true → (v - (s.page m).reqPi).toNat ≤ 256 → (v - (s.page m).rspCi).toNat ≤ 256 →
    Completes (.reqPiWrite m p v) s (fun t => (t.page m).reqPi = v ∧ (t.page m).badDoorbellCnt = (s.page m).badDoorbellCnt ∧
      (t.page m).ranges.length = (s.page m).ranges.length + (v - (s.page m).reqPi).toNat ∧ (∀ k, k ≠ m.val → t.page k = s.page k))) ∧
  (∀ (m : Fin 1029) (p : Path) (v : BitVec 16) (s : State), pathAllows s p m = true → (256 < (v - (s.page m).reqPi).toNat ∨ 256 < (v - (s.page m).rspCi).toNat) →
    Completes (.reqPiWrite m p v) s (fun t => (t.page m).reqPi = (s.page m).reqPi ∧ (t.page m).badDoorbell = true ∧
      (t.page m).badDoorbellCnt = (s.page m).badDoorbellCnt + 1)) ∧
  (∀ (m : Fin 1029) (p : Path) (v : BitVec 16) (s : State), pathAllows s p m = true →
    Completes (.rspCiWrite m p v) s (fun t => (t.page m).rspCi = v ∧ (∀ r, r ∈ (t.page m).ranges ↔ r ∈ (s.page m).ranges ∧ passed v r.index = false))) ∧
  (∀ (m : Fin 1029) (p : Path) (v : BitVec 16) (s : State), pathAllows s p m = true →
    exec (.evqCiWrite m p v) s = .next (drainEvents (s.updPage m (fun g => { g with evqCi := v })) m)) ∧
  (∀ (m : Fin 1029) (p : Path) (v : BitVec 16) (s : State), pathAllows s p m = true → (s.page m).held = [] → (s.page m).dropped = 0 →
    Completes (.evqCiWrite m p v) s (fun t => (t.page m).evqCi = v ∧ (t.page m).evqPi = (s.page m).evqPi ∧ t.pendings = s.pendings)) ∧
  (∀ (m : Fin 1029) (p : Path) (v : BitVec 32) (s : State), pathAllows s p m = true →
    Completes (.evqEnableWrite m p v) s (fun t => (t.page m).evqEnable = v.getLsbD 0 ∧ (v.getLsbD 0 = false → (t.page m).held = [] ∧
      (∀ x, x ∈ t.pendings ↔ x ∈ s.pendings ∧ ∀ e ∈ (s.page m).held, heldOf e x = false)))) ∧
  (∀ (m : Fin 1029) (p : Path) (b : Bool) (s : State), pathAllows s p m = true →
    Completes (.badDoorbellClear m p b) s (fun t => (t.page m).badDoorbell = b ∧ (t.page m).badDoorbellCnt = (s.page m).badDoorbellCnt + (if b then 1 else 0))) ∧
  (∀ (m : Fin 1029) (p : Path) (b : Bool) (s : State), pathAllows s p m = true →
    Completes (.evqOverflowClear m p b) s (fun t => (t.page m).evqOverflow = b ∧ (t.page m).evqLostCnt = (s.page m).evqLostCnt + (if b then 1 else 0))) ∧
  (∀ (p : Path) (s : State), identityReached s p = true →
    Completes (.clusterTimeLoRead p) s (fun t => t = { s with dev := { s.dev with timeHiLatch := BitVec.ofNat 32 (s.ct / 2 ^ 32) } })) ∧
  (∀ (p : Path) (a : BitVec 32) (d : Bytes) (s : State), s.clocked = true → csrRangeOk a.toNat d.length = true →
    (∀ k < d.length / 4, csrWritable s p (csrPlace (a.toNat + 4 * k)) = true) → exec (.csrWrite (.direct p a d)) s = .next (csrWritePages s p 2 a.toNat d)) ∧
  (∀ (p : Path) (a : BitVec 32) (n : Nat) (s : State), s.clocked = true → csrRangeOk a.toNat n = true →
    (∀ k < n / 4, csrReadable s p (csrPlace (a.toNat + 4 * k)) = true) →
    exec (.csrRead (.direct p a n)) s = .next (if a.toNat ≤ 0x30010 ∧ 0x30010 < a.toNat + n then latchTimeHi s else s))

/-- 02 R31: a write of a page's register through a path that does not reach the page changes nothing. -/
def Obligations.PagesOutOfReachKeep : Prop :=
  ∀ (m : Fin 1029) (p : Path) (v : BitVec 16) (w : BitVec 32) (b : Bool) (s : State), pathAllows s p m = false →
    ∀ i ∈ [Instr.reqPiWrite m p v, .rspCiWrite m p v, .evqCiWrite m p v, .evqEnableWrite m p w, .badDoorbellClear m p b, .evqOverflowClear m p b], exec i s = .next s


/-! ### Schedules, contexts and extents in time (chapters 07, 15) -/

/-- 07 R175, R177 to R187, R193: the events of schedules: loading, arming, the start latch, T0, deadlines, the end, the waits, and the
start records. That a paddock with a fault does not issue at T0 is derived: it is the model's reading (log entry 99). -/
def Obligations.ScheduleEventsComplete : Prop :=
  (∀ (t : Nat) (c : Fin 1024) (s u : State) (x : Load), u = advance s t → u.clocked = true → u.loads.find? (fun y => y.ctx == c.val) = some x →
    exec (.schedLoadDone t c) s = .next (stepLoad u x)) ∧
  (∀ (t : Nat) (n : Fin 64) (s u : State) (x : Sched), u = advance s t → u.clocked = true → u.sched? n = some x → x.arming = true →
    (∀ p ∈ imagePaddocks x.image, (u.engine p).reset = none ∧ ∀ g, u.agent? (64 + p) = some g → g.dead = none) →
    exec (.armingComplete t n) s = .next (if latchDue u x then armLate u n else armed u n x.image)) ∧
  (∀ (t t0 : Nat) (n : Fin 64) (s u : State) (x : Sched), u = advance s t → u.clocked = true → u.sched? n = some x → x.arming = false → x.st = .armed → x.latched = false →
    x.t0 = some t0 → t0 ≤ u.ct + 2000 → Completes (.startLatch t n) s (fun w => w.sched? n = some { x with latched := true } ∧ w.engines = u.engines)) ∧
  (∀ (t t0 : Nat) (n : Fin 64) (s u : State) (x : Sched), u = advance s t → u.clocked = true → u.sched? n = some x → x.arming = true → x.t0 = some t0 → t0 ≤ u.ct + 2000 →
    exec (.startLatch t n) s = .next (armLate u n)) ∧
  (∀ (t t0 : Nat) (n : Fin 64) (s u : State) (x : Sched), u = advance s t → u.clocked = true → u.sched? n = some x → x.st = .armed → x.t0 = some t0 → t0 ≤ u.ct →
    Completes (.t0Reached t n) s (fun w => w.sched? n = some { x with st := .running, latched := true, startedAt := t0 } ∧
      (∀ p ∈ imagePaddocks x.image, w.engine p = { u.engine p with issuing := (u.engine p).fault.isNone, pc := 0, lastIssue := u.now }))) ∧
  (∀ (t n k : Nat) (p : Fin 16) (i : BitVec 16) (s u : State) (x : Sched), u = advance s t → u.clocked = true → runningOn u p = some (n, x) → lateOcc u x p i.toNat = some k →
    exec (.deadlineExpiry t p i) s = .next (deadlineMissed u n x p i.toNat k)) ∧
  (∀ (t : Nat) (n : Fin 64) (s u : State) (x : Sched), u = advance s t → u.clocked = true → u.sched? n = some x → x.st = .running → allHalted u n = true →
    exec (.programEnd t n) s = .next (endSched u n x)) ∧
  (∀ (t : Nat) (n : Fin 64) (s u : State) (x : Sched), u = advance s t → u.clocked = true → u.sched? n = some x → x.st = .armed → x.t0 = none →
    x.armedAt + releaseWait x.image ≤ u.now → exec (.releaseWaitExpiry t n) s = .next (stopWith u n { reason := 6, status := stTimeout })) ∧
  (∀ (t : Nat) (g : BitVec 64) (s u : State) (r : ReadyRec), u = advance s t → u.clocked = true → r ∈ u.readyHeld → r.tag = g → r.since + tagWait u g ≤ u.now →
    Completes (.readyRecordExpiry t g) s (fun w => ∀ x, x ∈ w.readyHeld ↔ x ∈ u.readyHeld ∧ (x.tag = g → u.now < x.since + tagWait u g))) ∧
  (∀ (t : Nat) (s u : State) (x : StartCopy), u = advance s t → u.clocked = true → x ∈ u.startCopies → x.last + 1000 ≤ u.now →
    exec (.startRecordCopyTimer t) s = .next ((u.startCopies.filter (fun y => y.last + 1000 ≤ u.now)).foldl sendCopy { u with startCopies := (u.startCopies.map (fun y => if y.last + 1000 ≤ u.now then { y with left := y.left - 1, last := u.now } else y)).filter (fun y => y.left != 0) })) ∧
  (∀ (q : Fin 64) (s u : State) (r : InReq), requested s q (fun e => e.op == 0x31 && e.flag 9 && (!recFormed e.payload || recKind e.payload == 1)) = some (r, u) →
    exec (.startRecordReady q) s = .next (if schedFrameBad r.e then refuseEruno u r stBadArg else if recFormed r.e.payload then takeReady u r.e.payload r.e.session else dropRecord u)) ∧
  (∀ (q : Fin 64) (s u : State) (r : InReq), requested s q (fun e => e.op == 0x31 && e.flag 9 && (recFormed e.payload && recKind e.payload == 2)) = some (r, u) →
    exec (.startRecordRelease q) s = .next (if schedFrameBad r.e then refuseEruno u r stBadArg else takeRelease u r.e.payload r.e.session)) ∧
  (∀ (q : Fin 64) (s u : State) (r : InReq), requested s q (fun e => e.op == 0x31 && e.flag 9 && (recFormed e.payload && recKind e.payload == 3)) = some (r, u) →
    exec (.startRecordAbort q) s = .next (if schedFrameBad r.e then refuseEruno u r stBadArg else takeAbort u r.e.payload r.e.session))

/-- 15 R345, R348, R350 to R354, R358: the events of contexts, extents and translations. The clauses of what a fence settles
and of the extent that then clears are derived: they rest on the model's reading of 15 R352 (log entry 82). -/
def Obligations.TenancyEventsComplete : Prop :=
  (∀ (t : Nat) (c : Fin 1024) (s u : State), u = advance s t → u.clocked = true → (u.ctx c).st = .active → (u.ctx c).warned = false →
    (u.ctx c).leaseStart * 4 + msNs (u.ctx c).leaseMs * 3 ≤ u.now * 4 → u.now < (u.ctx c).leaseStart + msNs (u.ctx c).leaseMs →
    Completes (.leaseWarningTimer t c) s (fun w => w.ctx c = { u.ctx c with warned := true } ∧ w.extents = u.extents)) ∧
  (∀ (t : Nat) (c : Fin 1024) (s u : State), u = advance s t → u.clocked = true → (u.ctx c).st = .active → (u.ctx c).leaseStart + msNs (u.ctx c).leaseMs ≤ u.now →
    Completes (.leaseExpiry t c) s (fun w => (w.ctx c).st = .lapsed ∧ (∀ e ∈ extentsOf u c (· == .granted), (w.extent e).st = .revoking ∧ (w.extent e).cause = 2))) ∧
  (∀ (t e : Nat) (s u : State), u = advance s t → u.clocked = true → (u.extent e).st = .fenced → drained u e = true →
    Completes (.fenceDrained t e) s (fun w => w.extent e = { u.extent e with st := .clearing, changed := u.ct })) ∧
  (∀ (t e : Nat) (s u : State), u = advance s t → u.clocked = true → (u.extent e).st = .fenced → (u.extent e).fencedAt + msNs 1 ≤ u.now →
    exec (.fenceDrainTimeout t e) s = .next (settledFence (settleFence u e) e)) ∧
  (∀ (e : Nat) (u : State), drained u e = true → settledFence u e = u.updExtent e (fun x => { x with st := .clearing, changed := u.ct })) ∧
  (∀ (e : Nat) (u : State), unaccepted u e = [] → settleFence u e = serveQueued u) ∧
  (∀ (e : Nat) (ids : List Nat) (u : State), unaccepted (discardWaiting u e ids) e = []) ∧
  (∀ (t e : Nat) (s u : State), u = advance s t → u.clocked = true → stacksClocked u = true → (u.extent e).st = .clearing → u.layout.st ≠ .lost →
    exec (.clearingComplete t e) s = .next (endingProgress (finishRevocations ((clearExtent u e).updExtent e (fun x => { x with st := .free, owner := 0xFFFF, changed := (clearExtent u e).ct }))) (u.extent e).owner)) ∧
  (∀ (t : Nat) (c : Fin 1024) (i : BitVec 16) (s u : State) (d : Drain) (p : Pending), u = advance s t → u.clocked = true →
    u.drains.find? (fun d => d.flushCtx == some c.val && d.session == i.toNat && drainOver u d) = some d →
    pendingOf u (fun p => p.opcode == 0x0206 && p.id == d.cmd) = some p →
    exec (.translationFlushDone t c i) s = .next (finish { u with drains := u.drains.erase d } p stOk u.ct)) ∧
  (∀ (t : Nat) (i g : BitVec 16) (s u : State) (d : Drain), u = advance s t → u.clocked = true →
    u.drains.find? (fun d => d.flushCtx.isNone && d.session == i.toNat && d.tag == g && drainOver u d) = some d →
    exec (.invalidateDrained t i g) s = .next (respondEruno { u with drains := u.drains.erase d } (d.request u) stOk []))


/-! ### Starts, resets, faults, periods (chapters 02, 16, 17, 18, 19) -/

/-- 16 R363 to R366, 09 R208 and 01 R24, R25, 17 R389, R395, R399, R404, 19 R430, R435, R439, R443: pins, resets and starts. A cold
reset empties the error log ring and leaves the part held in reset; a start with BOOT_SRC high enters minimal mode with reason 0x80
and increments BOOT_EPOCH; the ready point puts the part in service. -/
def Obligations.ResetAndStartComplete : Prop :=
  (∀ (t : Nat) (s u : State), u = advance s t → Completes (.resetNFall t) s (fun w => w.pins.resetN = false ∧ w.dev = {} ∧ w.dev.mode = .resetting ∧
    w.aon.errLog = [] ∧ w.aon.dump = none ∧ w.aon.nextReason = 1 ∧ w.aon.bootEpoch = u.aon.bootEpoch ∧ w.pool = [] ∧ w.ctxs = [] ∧ w.pending = u.pending)) ∧
  (∀ (t : Nat) (s u : State), u = advance s t → u.pins.resetN = true → Completes (.pwrGoodFall t) s (fun w => w.pins.pwrGood = false ∧ w.dev.mode = .resetting ∧
    w.aon.errLog = [] ∧ w.aon.nextReason = 1)) ∧
  (∀ (t : Nat) (s u : State), u = advance s t → u.pins.resetN = false →
    exec (.pwrGoodFall t) s = .next { u with pins := { u.pins with pwrGood := false, thermtripN := true } }) ∧
  (∀ (t : Nat) (s u : State), u = advance s t → warmPinTaken u = true → (u.aon.dumping.isSome = true ∨ u.dev.mode = .resetting) →
    exec (.warmRstNFall t) s = .next { u with pins := { u.pins with warmRstN := false } }) ∧
  (∀ (t : Nat) (s u : State), u = advance s t → warmPinTaken u = true → u.aon.dumping = none → u.dev.mode ≠ .resetting →
    let v := logError { u with pins := { u.pins with warmRstN := false } } 0x45 4 0xFF (natLe 2 1 ++ natLe 1 1)
    exec (.warmRstNFall t) s = .next (warmReset v { reason := 3, dump := true, at_ := v.now, errorSeq := lastErr v })) ∧
  (∀ (t : Nat) (s u : State), u = advance s t → Completes (.vddAonLoss t) s (fun w => w.aon = { errSeq := flashErrNext u, vddLost := true, nextReason := 2 } ∧
    w.dev.mode = .resetting ∧ w.pins.thermtripN = true)) ∧
  (∀ (t : Nat) (f : Fin 4) (s u : State), u = advance s t → u.pins.thermtripN = true →
    Completes (.thermalTrip t f) s (fun w => w.pins.thermtripN = false ∧ w.dev.mode = .resetting ∧ w.aon.tripFold = f.val ∧ w.aon.tripCount = min 255 (u.aon.tripCount + 1)
      ∧ w.aon.nextReason = 1 ∧ w.aon.errLog = u.aon.errLog
      ∧ w.aon.startFailures = if u.dev.mode = .starting then u.aon.startFailures - 1 else u.aon.startFailures)) ∧
  (∀ (t : Nat) (s u : State), u = advance s t → u.clocked = true → Completes (.refclkSysLoss t) s (fun w => w = { u with dev := { u.dev with clocksStopped := true } })) ∧
  (∀ (t : Nat) (f : Fin 4) (s u : State), u = advance s t → u.clocked = true → Completes (.refclkMemLoss t f) s (fun w =>
    (∀ k : Nat, w.stack k = if 4 * f.val ≤ k ∧ k < 4 * f.val + 4 then { u.stack k with clocked := false } else u.stack k) ∧
    (u.dev.mode = .minimal → w.aon = u.aon) ∧
    (u.dev.mode ≠ .minimal → u.aon.ordered = none → u.aon.dumping = none → w.aon.ordered = some { reason := 4, dump := true, at_ := u.now, errorSeq := lastErr u }))) ∧
  (∀ (t : Nat) (k : Fin 8) (s u : State), u = advance s t → u.clocked = true → Completes (.refclkEthLoss t k) s (fun w =>
    ∀ q : Nat, w.port q = if 8 * k.val ≤ q ∧ q < 8 * k.val + 8 ∧ (u.port q).carries = true ∧ (u.port q).lockLost = none then { u.port q with lockLost := some (u.now + (u.port q).lossTime) } else u.port q)) ∧
  (∀ (t : Nat) (s u : State) (o : ResetOrder), u = advance s t → u.aon.ordered = some o → u.aon.dumping = none →
    exec (.orderedDeviceReset t) s = .next (warmReset (if u.dev.mode = .minimal ∧ o.command = true then u.updAon (fun a => { a with startFailures := 0 }) else u) o)) ∧
  (∀ (t d : Nat) (b : BitVec 8) (s u : State), u = advance s t → u.aon.dumping = some d → d + 100000 ≤ u.now → b.toNat ∈ dumpUnits →
    Completes (.dumpUnitTimeout t b) s (fun w => b.toNat ∈ w.aon.noAnswer ∧ (∀ x, x ∈ w.aon.noAnswer ↔ x = b.toNat ∨ x ∈ u.aon.noAnswer))) ∧
  (∀ (t d : Nat) (s u : State) (o : ResetOrder), u = advance s t → u.aon.dumping = some d → u.aon.ordered = some o →
    Completes (.dumpComplete t) s (fun w => w = release (takeDump u o 66) o.reason ∧ w.aon.dumpHeld = .held ∧ w.dev.mode = .resetting)) ∧
  (∀ (t d : Nat) (s u : State) (o : ResetOrder), u = advance s t → u.aon.dumping = some d → d + 20000000 ≤ u.now → u.aon.ordered = some o →
    exec (.dumpTimerExpiry t) s = .next (release (takeDump u o (Config.dumpProgress u.free)) o.reason)) ∧
  (∀ (t : Nat) (s u : State), u = advance s t → firmwareRuns u = true → stacksClocked u = true → u.aon.dumpHeld = .held →
    Completes (.dumpCopyDone t) s (fun w => w.flash.dumpCopy = u.aon.dump ∧ w.aon.dumpHeld = .copied)) ∧
  (∀ (t : Nat) (v : StartEnv) (s u : State), u = advance s t → u.dev.mode = .resetting → u.aon.dumping = none → u.pins.thermtripN = true →
    exec (.start t v) s = .next (bootPart u v) ∧
      (v.bootSrc = true → u.aon.vddLost = false → (bootPart u v).dev.mode = .minimal ∧ (bootPart u v).dev.reason = 0x80 ∧ (bootPart u v).aon.bootEpoch = u.aon.bootEpoch + 1)) ∧
  (∀ (t : Nat) (v : BringUpEnv) (s u : State), u = advance s t → u.clocked = true → u.dev.mode = .starting → u.dev.stacksReady = false → u.aon.ordered = none → badRails u v = [] →
    (liveStacks u).any (delayFails u v) = false → u.dev.startAt + bringUpNs u ≤ u.now →
    Completes (.stackBringUpDone t v) s (fun w => w.dev.stacksReady = true ∧ w.pool = [] ∧ ∀ k ∈ liveStacks u, (w.stack k).st = .serving ∧ (w.stack k).inService = true)) ∧
  (∀ (t : Nat) (v : BringUpEnv) (s u : State) (x : Nat × Nat × Nat) (l : List (Nat × Nat × Nat)), u = advance s t → u.clocked = true → u.dev.mode = .starting → u.dev.stacksReady = false →
    u.aon.ordered = none → badRails u v = x :: l → u.dev.startAt + 100000000 ≤ u.now →
    exec (.stackBringUpDone t v) s = .next (failStart ((x :: l).foldl railRecord u) 4 x.1)) ∧
  (∀ (t k : Nat) (v : BringUpEnv) (s u : State) (l : List Nat), u = advance s t → u.clocked = true → u.dev.mode = .starting → u.dev.stacksReady = false →
    u.aon.ordered = none → badRails u v = [] → (liveStacks u).filter (delayFails u v) = k :: l → u.dev.startAt + 325000000 ≤ u.now →
    exec (.stackBringUpDone t v) s = .next (failStart ((k :: l).foldl (delayRecords · v) u) 5 k)) ∧
  (∀ (t : Nat) (s u : State), u = advance s t → u.clocked = true → u.dev.mode = .starting → stacksUp u = true → u.aon.ordered = none →
    (∀ e ∈ u.ports, e.2.required = true → e.2.link = .up ∨ e.2.link = .reliable) →
    Completes (.readyPoint t) s (fun w => w.dev.mode = .inService ∧ w.aon.startFailures = 0)) ∧
  (∀ (t : Nat) (s u : State), u = advance s t → u.clocked = true → u.dev.mode = .starting → u.dev.startAt + 4000000000 ≤ u.now →
    exec (.startLimitExpiry t) s = .next (failStart u 9 0xFF))

/-- 02 R43, R44, R54, R57, 16 R378, R382, 17 R388 to R394, R402, 18 R406, R416 and 04 R102: the periods and timers of the device, and what
it does on faults. -/
def Obligations.DeviceEventsComplete : Prop :=
  (∀ (t : Nat) (i : BitVec 32) (s u : State) (r : RoleSession), u = advance s t → u.clocked = true → r ∈ u.auth.sessions → r.id = i → 600000000000 ≤ u.now - r.lastCommand →
    Completes (.roleSessionIdleTimeout t i) s (fun w => ∀ x ∈ w.auth.sessions, x.id ≠ i)) ∧
  (∀ (t n : Nat) (r : Role) (s u : State), u = advance s t → u.clocked = true → (u.auth.role r).lockUntil = some n → n ≤ u.now →
    Completes (.authLockoutExpiry t r) s (fun w => (w.auth.role r).lockUntil = none ∧ w.auth.sessions = u.auth.sessions)) ∧
  (∀ (t : Nat) (s u : State), u = advance s t → u.clocked = true → u.dev.lastBoundary < boundaryNow u →
    exec (.accountingPeriodBoundary t) s = .next (boundary u (boundaryNow u))) ∧
  (∀ (t : Nat) (s u : State), u = advance s t → u.clocked = true → u.dev.lastBoundary < boundaryNow u → u.staged = [] →
    Completes (.accountingPeriodBoundary t) s (fun w => w.dev = { u.dev with lastBoundary := boundaryNow u, written := [] } ∧
      ∀ g i, g ≠ .schedule → i < Group.instances g → w.block (Group.key g i) = (u.block (Group.key g i)).latch (boundaryNow u))) ∧
  (∀ (t : Nat) (n : Fin 16) (s u : State), u = advance s t → u.clocked = true → flushDue u (u.stream n) = true →
    exec (.traceFlushTimer t n) s = .next (if (u.stream n).toSession then sendTrace u n else writeSlots u n (u.stream n).writeSize)) ∧
  (∀ (t : Nat) (ok : Bool) (s u : State) (g : Staging), u = advance s t → u.clocked = true → u.staging = some g → g.committing = true → g.written = none →
    let w := stageWritten u g ok
    exec (.stageCommitDone t ok) s = .next w ∧ (w.staging = none ∨ w.staging = some { g with written := some ok }) ∧
      (pendingOf u (fun p => p.opcode == 0x0A03 && p.id == g.commitId) = none → w.staging = none) ∧
      (∀ p : Pending, pendingOf u (fun p => p.opcode == 0x0A03 && p.id == g.commitId) = some p →
        (u.page p.mailbox).evqEnable = false ∨ ((u.page p.mailbox).flushOverflow u.ct).evqRoom = true → w.staging = none)) ∧
  (∀ (t : Nat) (p : Fin 16) (s u : State) (r : EngineReset), u = advance s t → u.clocked = true → (u.engine p).reset = some r → (∀ g, u.agent? (64 + p) = some g → g.dead = none) →
    exec (.engineResetDone t p) s = .next (endEngineReset u p r)) ∧
  (∀ (t : Nat) (p : Fin 16) (s u : State), u = advance s t → u.clocked = true → watchdogDue u p = true →
    exec (.progressWatchdogExpiry t p) s = .next (beginEngineReset u p 1 0xFFFF 0xFF)) ∧
  (∀ (t : Nat) (p : Fin 16) (s u : State) (f : EngineFault), u = advance s t → u.clocked = true → (u.engine p).fault = some f → f.time + 5000000 ≤ u.now →
    (u.engine p).idle = false → (u.engine p).reset = none → exec (.faultedEngineNotIdle t p) s = .next (beginEngineReset u p 5 0xFFFF 0xFF)) ∧
  (∀ (t : Nat) (p : Fin 16) (s u : State) (r : EngineReset), u = advance s t → firmwareRuns u = true → (u.engine p).reset = some r → r.since + 5000000 ≤ u.now →
    exec (.escalation t p) s = .next (escalate u p r)) ∧
  (∀ (t : Nat) (s u : State), u = advance s t → u.dev.mode ≠ .resetting → escalates u = none → exec (.heartbeatExpiry t) s = .next (shepherdLost u)) ∧
  (∀ (t p : Nat) (s u : State) (r : EngineReset), u = advance s t → u.dev.mode ≠ .resetting → escalates u = some (p, r) → exec (.heartbeatExpiry t) s = .next (escalate u p r)) ∧
  (∀ (t : Nat) (k : ArrayKind) (i n : Nat) (s u : State), u = advance s t → u.clocked = true → exec (.arrayUe t k i n) s = .next (arrayError u k i n)) ∧
  (∀ (t : Nat) (p : Fin 16) (n : Nat) (s u : State), u = advance s t → u.clocked = true → (u.engine p).reset.isSome = true →
    Completes (.arrayUe t .paddockStore p n) s (fun w => w.engines = u.engines ∧ (u.dev.written = [] → w.dev.alert0 = true ∧ w.aon.errSeq = u.aon.errSeq + 1)))


/-! ### Received Eruno frames (chapters 12, 07, 14, 15) -/

/-- 12 R276 to R278, R281, R284: READ, WRITE, WRITE_STASH and the six ATOMIC forms complete: on a segment that is not coherent the
access acts at once and is answered; on a coherent one it becomes a request of the home. -/
def Obligations.PoolRequestsComplete : Prop :=
  (∀ (q : Fin 64) (s u w : State) (r : InReq) (c : Nat) (ps : List (Nat × Nat)) (ra : Nat) (g : Segment) (b : Bytes), requested s q (fun e => e.op == 0x01) = some (r, u) →
    readBad r.e = false → r.ctx = some c → segCheck u c (r.e.arg 0 48) (r.e.arg 48 16) (needRead ||| needFabric) = .ok ps ra g → g.coherent = false → accessHeld u false ps = false →
    readPieces u demand ps = (some b, w) → r.e.noResponse = false →
    exec (.read q) s = .next (respondEruno (countServed w c false false (r.e.arg 48 16) stOk) r stOk b)) ∧
  (∀ (q : Fin 64) (s u w : State) (r : InReq) (c : Nat) (ps : List (Nat × Nat)) (ra : Nat) (g : Segment), requested s q (fun e => e.op == 0x02) = some (r, u) →
    writeBad r.e false = false → r.ctx = some c → segCheck u c (r.e.arg 0 48) (r.e.arg 48 16) (needWrite ||| needFabric) = .ok ps ra g → g.coherent = false → accessHeld u true ps = false →
    writePieces u demand ps r.e.payload = (true, w) → let z := countServed w c true false (r.e.arg 48 16) stOk
    exec (.write q) s = .next (if r.e.noResponse then z else respondEruno z r stOk [])) ∧
  (∀ (q : Fin 64) (s u w : State) (r : InReq) (c : Nat) (ps : List (Nat × Nat)) (ra : Nat) (g : Segment), requested s q (fun e => e.op == 0x03) = some (r, u) →
    writeBad r.e true = false → r.ctx = some c → segCheck u c (r.e.arg 0 48) (r.e.arg 48 16) (needWrite ||| needFabric) = .ok ps ra g → g.coherent = false → accessHeld u true ps = false →
    writePieces u demand ps r.e.payload = (true, w) → r.e.noResponse = false →
    exec (.writeStash q) s = .next (respondEruno (countServed w c true false (r.e.arg 48 16) stOk) r stOk [])) ∧
  (∀ (q : Fin 64) (s u v w : State) (r : InReq) (c : Nat) (ps : List (Nat × Nat)) (ra : Nat) (g : Segment) (old : Bytes),
    ∀ x ∈ [(Instr.atomicAdd q, fun k : Nat => k == 0 || decide (k > 5)), (.atomicCompareSwap q, fun k => k == 1), (.atomicMinUnsigned q, fun k => k == 2),
      (.atomicMaxUnsigned q, fun k => k == 3), (.atomicMinSigned q, fun k => k == 4), (.atomicMaxSigned q, fun k => k == 5)],
    requested s q (fun e => e.op == 0x04 && x.2 e.subop.toNat) = some (r, u) → atomicBad r.e = false → r.ctx = some c →
    segCheck u c (r.e.arg 0 48) 8 (needAtomic ||| needFabric) = .ok ps ra g → g.coherent = false → accessHeld u true ps = false → readPieces u demand ps = (some old, v) →
    writePieces v demand ps (atomicBytes r.e.subop.toNat r.e.payload old) = (true, w) → r.e.noResponse = false →
    exec x.1 s = .next (respondEruno (countServed w c true true 8 stOk) r stOk old)) ∧
  (∀ (q : Fin 64) (s u : State) (r : InReq) (c : Nat) (ps : List (Nat × Nat)) (ra : Nat) (g : Segment), requested s q (fun e => e.op == 0x01) = some (r, u) →
    readBad r.e = false → r.ctx = some c → segCheck u c (r.e.arg 0 48) (r.e.arg 48 16) (needRead ||| needFabric) = .ok ps ra g → g.coherent = true →
    exec (.read q) s = .next (ncStart u { id := 0, ctx := c, owner := .eruno r.q r.i r.e, isWrite := false, va := r.e.arg 0 48, len := r.e.arg 48 16, lines := [] } ps))

/-- 12 R276, R279, 07 R192, 02 R28 to R34, 15 R358, 12 R451: SIGNAL, SCHED_FRAME, CSR, MAILBOX and INVALIDATE requests complete; the
requests that a part never takes are refused. -/
def Obligations.OtherRequestsComplete : Prop :=
  (∀ (q : Fin 64) (s u : State) (r : InReq) (c : Nat), requested s q (fun e => e.op == 0x30) = some (r, u) → flagsBad r.e true = false → r.e.subop = 0 → r.e.operand = 0 →
    r.e.payload.length = 8 → field r.e.payload 2 2 = 0 → r.ctx = some c → ownsSync u c (field r.e.payload 0 2) = true →
    let w := syncSignal u (field r.e.payload 0 2) (field r.e.payload 4 4)
    exec (.signalFrame q) s = .next (if r.e.noResponse then w else respondEruno w r stOk [])) ∧
  (∀ (q : Fin 64) (s u : State) (r : InReq) (c k : Nat), requested s q (fun e => e.op == 0x31 && !e.flag 9) = some (r, u) → schedFrameBad r.e = false →
    1 ≤ r.e.payload.length → r.e.payload.length ≤ 8192 → r.ctx = some c → frameTaker u c (r.e.arg 24 4) (r.e.arg 0 24) r.e.payload.length = some k → r.e.arg 48 16 = 0 →
    Completes (.schedFrame q) s (fun t => t.engine (r.e.arg 24 4) = { u.engine (r.e.arg 24 4) with store := mwriteN (u.engine (r.e.arg 24 4)).store (r.e.arg 0 24) r.e.payload }
      ∧ ∀ p, p ≠ r.e.arg 24 4 → t.engine p = u.engine p)) ∧
  (∀ (q : Fin 64) (s u : State) (r : InReq), requested s q (fun e => e.op == 0x31 && !e.flag 9) = some (r, u) → schedFrameBad r.e = true →
    exec (.schedFrame q) s = .next (refuseEruno u r stBadArg)) ∧
  (∀ (q : Fin 65) (s u : State) (r : InReq), requested s q (fun e => e.op == 0x32) = some (r, u) → flagsBad r.e false = false → r.e.subop = 0 → r.e.arg 48 16 = 0 →
    csrRangeOk (r.e.arg 0 32) (r.e.arg 32 16) = true → r.e.payload = [] → ∀ (b : Bytes) (w : State), csrRead u r.path (r.e.arg 0 32) (r.e.arg 32 16) = (some b, w) →
    exec (.csrRead (.port q)) s = .next (respondEruno w r stOk b)) ∧
  (∀ (q : Fin 65) (s u : State) (r : InReq), requested s q (fun e => e.op == 0x33) = some (r, u) → flagsBad r.e false = false → r.e.subop = 0 → r.e.arg 48 16 = 0 →
    csrRangeOk (r.e.arg 0 32) (r.e.arg 32 16) = true → r.e.payload.length = r.e.arg 32 16 → ∀ w : State, csrWrite u r.path (r.e.arg 0 32) r.e.payload = (true, w) →
    exec (.csrWrite (.port q)) s = .next (respondEruno w r stOk [])) ∧
  (∀ (q : Fin 65) (s u w : State) (r : InReq) (m : Nat) (i : BitVec 16), requested s q (fun e => e.op == 0x34) = some (r, u) → flagsBad r.e false = false → r.e.subop = 0 → r.e.operand = 0 →
    mailLenOk r.e.payload = true → mailTarget u r = some m → enqueueMail u m (pathBinding r.path) none r.e.payload = some (i, w) →
    exec (.mailbox q) s = .next (respondEruno w r stOk (natLe i.toNat 2)) ∧ i = (u.page m).reqPi ∧ (w.page m).reqPi = i + 1) ∧
  (∀ (q : Fin 64) (s u : State) (r : InReq), requested s q (fun e => e.op == 0x36) = some (r, u) → flagsBad r.e false = false → 12 ≤ r.e.subop.toNat → r.e.subop.toNat ≤ 47 →
    r.e.payload = [] → r.e.operand.toNat % 2 ^ r.e.subop.toNat = 0 →
    Completes (.invalidate q) s (fun t => t.xcache = u.xcache.filter (fun x => !(x.session == r.i && x.meets r.e.operand.toNat (2 ^ r.e.subop.toNat)))
      ∧ t.drains.length = u.drains.length + 1)) ∧
  (∀ (q : Fin 64) (s u : State) (r : InReq), requested s q (fun e => !opcodeDefined e.op) = some (r, u) → exec (.undefinedErunoOpcode q) s = .next (refuseEruno u r stBadArg)) ∧
  (∀ (q : Fin 64) (s u : State) (r : InReq), numbered s q (fun e => onlyPartSends e.op && e.op != 0x38) = some (r, u) → exec (.opcodeOnlyAPartSends q) s = .next (refuseEruno u r stDenied)) ∧
  (∀ (q : Fin 64) (s u : State) (r : InReq), numbered s q (fun e => e.op == 0x38) = some (r, u) → exec (.traceFrame q) s = .next (refuseEruno u r stDenied))

/-- 12 R281, R285, R287, R290 and 15 R357, R359: the three phases of key establishment are answered or taken, and its wait expires with
TIMEOUT; translations, page answers, and the answers of host reads and writes reach the mover that asked; a request without an answer times out
and is counted. -/
def Obligations.ResponsesAndKeysComplete : Prop :=
  (∀ (q : Fin 64) (s u : State) (r : InReq), requested s q (fun e => e.op == 0x39 && e.subop.toNat != 3) = some (r, u) → r.e.subop.toNat = 1 → r.e.payload.length = 4529 →
    r.e.operand = 0 → r.e.noResponse = false → (u.session r.i).initiate = false → initiatorProven u r = true → exec (.keyExchangePhase1 q) s = .next (answerPhase1 u r)) ∧
  (∀ (q : Fin 64) (s w : State) (o : Outstanding) (e : Eruno),
    answered s q (fun e => localEndpoint s e.dst && e.isResponse && !e.segmented && e.op == 0x39 && e.subop != 3) = some (o, e, w) → o.kind = .keyExchange →
    exec (.keyExchangePhase2 q) s = .next (takePhase2 w o.session e)) ∧
  (∀ (q : Fin 64) (s w : State) (o : Outstanding) (e : Eruno), phase3Response s q = true →
    answered s q (fun e => localEndpoint s e.dst && e.isResponse && !e.segmented && e.op == 0x39 && e.subop == 3) = some (o, e, w) → o.kind = .keyExchange → e.status = 0 →
    exec (.keyExchangePhase3 q) s = .next (confirmExchange w o.session)) ∧
  (∀ (q : Fin 64) (s u : State) (r : InReq), phase3Response s q = false → requested s q (fun e => e.op == 0x39 && decide (e.subop.toNat = 3)) = some (r, u) → r.e.payload = [] → r.e.operand = 0 →
    r.e.noResponse = false → (u.session r.i).keys.isSome = true → (u.session r.i).initiate = false →
    exec (.keyExchangePhase3 q) s = .next (confirmExchange (respondEruno u r stOk [] 3) r.i)) ∧
  (∀ (t : Nat) (i : BitVec 16) (s u : State), u = advance s t → u.clocked = true → (u.session i.toNat).st = .keying → 64 ≤ i.toNat → (u.session i.toNat).keyDeadline ≤ u.now →
    exec (.keyWaitExpiry t i) s = .next (failExchange u i.toNat stTimeout)) ∧
  (∀ (q : Fin 64) (s w : State) (o : Outstanding) (e : Eruno) (p mv page : Nat) (b : Bool),
    answered s q (fun e => localEndpoint s e.dst && e.isResponse && !e.segmented && e.op == 0x35) = some (o, e, w) → o.kind = .translate p mv page b →
    exec (.translateResponse q) s = .next (takeTranslation w o e p mv page b)) ∧
  (∀ (q : Fin 64) (s w : State) (o : Outstanding) (e : Eruno) (p mv page : Nat),
    answered s q (fun e => localEndpoint s e.dst && e.isResponse && !e.segmented && e.op == 0x37) = some (o, e, w) → o.kind = .pageRequest p mv page →
    exec (.pageRequestResponse q) s = .next (takePageAnswer w e p mv)) ∧
  (∀ (q : Fin 64) (s w : State) (o : Outstanding) (e : Eruno) (p mv store len page log2 : Nat),
    answered s q (fun e => localEndpoint s e.dst && e.isResponse && !e.segmented && e.op != 0x39 && e.op != 0x35 && e.op != 0x37 && !answerFormed e) = some (o, e, w) →
    (o.kind = .hostRead p mv store len page log2 → e.op = 0x01 → exec (.erunoResponse q) s = .next (takeHostRead w e p mv store len)) ∧
    (o.kind = .hostWrite p mv len page log2 → e.op = 0x02 → exec (.erunoResponse q) s = .next (hostDone w p mv len e.status.toNat))) ∧
  (∀ (t : Nat) (i g : BitVec 16) (s u : State) (o : Outstanding), u = advance s t → u.clocked = true →
    u.outstanding.find? (fun o => o.session == i.toNat && o.tag == g && o.issuedAt + (u.session i.toNat).timeoutNs ≤ u.now) = some o →
    exec (.erunoRequestTimeout t i g) s = .next (sendUnsent (timedOut (bump ({ u with outstanding := u.outstanding.erase o }.updSession i.toNat (fun x => { x with timeouts := x.timeouts + 1 })) .session i.toNat 4 1) o)))

/-- 12 R275, R298: segments join their reassembly, a reassembly lasts 1 ms, and a frame for another endpoint is forwarded. -/
def Obligations.SegmentsAndForwardingComplete : Prop :=
  (∀ (q : Fin 65) (s w : State) (x : RxItem) (e : Eruno), arrival s q (fun f => (erunoOf f).any (fun e => endpointAt s q e.dst && e.segmented)) = some (x, w) → erunoOf x.frame = some e →
    exec (.erunoSegment q) s = .next (takeSegment w q x e)) ∧
  (∀ (t : Nat) (i : BitVec 16) (n : BitVec 32) (s u : State) (r : Reasm), u = advance s t → u.clocked = true → r ∈ u.reasms → r.session % mgmtSession = i.toNat → r.seq = n → r.since + 1000000 ≤ u.now →
    Completes (.reassemblyTimeout t i n) s (fun w => ∀ x, x ∈ w.reasms ↔ x ∈ u.reasms ∧ (x.session % mgmtSession = i.toNat → x.seq = n → u.now < x.since + 1000000))) ∧
  (∀ (q : Fin 64) (s : State) (x : RxItem) (r : List RxItem) (e : Eruno), s.clocked = true →
    takeFrame s q (fun f => (erunoOf f).any (fun e => !localEndpoint s e.dst)) = some (x, r) → erunoOf x.frame = some e →
    exec (.forward q) s = .next (forwardFrame (s.updPort q (fun p => { p with rx := r })) q x.frame e))


/-! ### RoCEv2 (chapter 12) -/

/-- 12 R301 to R303: requests of a ready RDMA queue pair at the expected PSN run: a WRITE begins, goes on or ends its message, a READ is
read and answered, an atomic acts; SEND packets of a mailbox queue pair join their message; packets that a part does not serve are
discarded or refused; acknowledgements retire SENDs. -/
def Obligations.RoceRequestsComplete : Prop :=
  (∀ (q : Fin 64) (s w v : State) (x : RxItem) (r : Roce),
    ∀ y ∈ [(Instr.rdmaWriteFirst q, RoceOp.writeFirst, fun s i => writeBegin s i false), (.rdmaWriteMiddle q, .writeMiddle, fun s i => writeGoesOn s i false),
      (.rdmaWriteLast q, .writeLast, fun s i => writeGoesOn s i true), (.rdmaWriteOnly q, .writeOnly, fun s i => writeBegin s i true),
      (.rdmaReadRequest q, .readRequest, fun s i => readPacket s i true),
      (.compareSwap q, .compareSwap, fun s i => atomicPacket s i 1 (natLe i.r.compare.toNat 8 ++ natLe i.r.swapAdd.toNat 8)),
      (.fetchAdd q, .fetchAdd, fun s i => atomicPacket s i 0 (natLe i.r.swapAdd.toNat 8)), (.sendFirst q, .sendFirst, fun s i => sendPacket s i true false),
      (.sendMiddle q, .sendMiddle, fun s i => sendPacket s i false false), (.sendLast q, .sendLast, fun s i => sendPacket s i false true),
      (.sendOnly q, .sendOnly, fun s i => sendPacket s i true true)],
    arrival s q (fun f => (roceOf f).any (fun r => r.op == y.2.1 && !qpWaits s r.destQp.toNat)) = some (x, w) → roceOf x.frame = some r → r.destQp.toNat < qpMax →
    (w.qp r.destQp.toNat).st = .ready → v = sendCnp w r.destQp.toNat x.frame.ce → r.psn = (v.qp r.destQp.toNat).expectedPsn →
    exec y.1 s = .next (y.2.2 v { q := q, n := r.destQp.toNat, r := r, dscp := x.frame.dscp })) ∧
  (∀ (s : State) (i : RoceIn), (s.qp i.n).mailbox = true → ∀ b k, writeBegin s i b = roceFail s i .nakInvalidRequest ∧ readPacket s i k = roceFail s i .nakInvalidRequest) ∧
  (∀ (s : State) (i : RoceIn) (b c : Bool), (s.qp i.n).mailbox = false → sendPacket s i b c = roceFail s i .nakInvalidRequest) ∧
  (∀ (q : Fin 64) (s w v : State) (x : RxItem) (r : Roce),
    arrival s q (fun f => (roceOf f).any (fun r => (r.op == .unsupported || r.op == .otherService || r.op == .readResponse || r.op == .atomicAck) && !qpWaits s r.destQp.toNat)) = some (x, w) →
    roceOf x.frame = some r → r.op = .unsupported → r.destQp.toNat < qpMax → (w.qp r.destQp.toNat).st = .ready → v = sendCnp w r.destQp.toNat x.frame.ce →
    r.psn = (v.qp r.destQp.toNat).expectedPsn →
    exec (.roceUnsupportedPacket q) s = .next (roceFail v { q := q, n := r.destQp.toNat, r := r, dscp := x.frame.dscp } .nakInvalidRequest)) ∧
  (∀ (q : Fin 64) (s w : State) (x : RxItem) (r : Roce),
    arrival s q (fun f => (roceOf f).any (fun r => (r.op == .unsupported || r.op == .otherService || r.op == .readResponse || r.op == .atomicAck) && !qpWaits s r.destQp.toNat)) = some (x, w) →
    roceOf x.frame = some r → r.op ≠ .unsupported → r.destQp.toNat < qpMax → (w.qp r.destQp.toNat).st = .ready →
    exec (.roceUnsupportedPacket q) s = .next (roceDrop (sendCnp w r.destQp.toNat x.frame.ce)))

/-- 12 R301, R303, R304: an acknowledgement retires sent packets, a NAK ends or repeats them, the two retry timers and a CNP act on their
queue pair, and its rate recovers. The clauses of acknowledgements, NAKs and the transport
timer are derived: they rest on the model's choice to follow InfiniBand where the spec is silent (log entry 66). -/
def Obligations.RoceEventsComplete : Prop :=
  (∀ (q : Fin 64) (s w : State) (x : RxItem) (r : Roce), arrival s q (fun f => (roceOf f).any (fun r => r.op == .ack && r.syndrome == .ack)) = some (x, w) →
    roceOf x.frame = some r → r.destQp.toNat < qpMax → (w.qp r.destQp.toNat).st = .ready → (w.qp r.destQp.toNat).mailbox = true → x.frame.ce = false →
    Completes (.roceAck q) s (fun t => t.qp r.destQp.toNat = (w.qp r.destQp.toNat).acked r.psn true)) ∧
  (∀ (q : Fin 64) (s w : State) (x : RxItem) (r : Roce), arrival s q (fun f => (roceOf f).any (fun r => r.op == .ack && r.syndrome != .ack)) = some (x, w) →
    roceOf x.frame = some r → r.destQp.toNat < qpMax → (w.qp r.destQp.toNat).st = .ready → (w.qp r.destQp.toNat).mailbox = true → x.frame.ce = false →
    r.syndrome = .nakInvalidRequest → Completes (.roceNak q) s (fun t => (t.qp r.destQp.toNat).st = .error ∧ (t.qp r.destQp.toNat).sends = [])) ∧
  (∀ (t : Nat) (n : Fin 16384) (s u : State) (k : QpSend) (a : Nat), u = advance s t → u.clocked = true → (u.qp n).st = .ready → (u.qp n).rnrUntil = none → k ∈ (u.qp n).sends →
    k.sentAt = some a → a + 4190000 ≤ u.now →
    Completes (.roceAckTimeout t n) s (fun w => (7 ≤ (u.qp n).retries → (w.qp n).st = .error) ∧
      ((u.qp n).retries < 7 → (w.qp n).st = .ready ∧ (w.qp n).retries = (u.qp n).retries + 1 ∧ ∀ k ∈ (w.qp n).sends, k.sentAt = none))) ∧
  (∀ (t a : Nat) (n : Fin 16384) (s u : State), u = advance s t → u.clocked = true → (u.qp n).rnrUntil = some a → a ≤ u.now → (u.qp n).rnrRetries < 7 →
    Completes (.rnrRetryTimerExpiry t n) s (fun w => w.qp n = { u.qp n with rnrUntil := none, rnrRetries := (u.qp n).rnrRetries + 1 })) ∧
  (∀ (q : Fin 64) (s w : State) (x : RxItem) (r : Roce), arrival s q (fun f => (roceOf f).any (fun r => r.op == .cnp)) = some (x, w) → roceOf x.frame = some r →
    r.destQp.toNat < qpMax → (w.qp r.destQp.toNat).st = .ready →
    Completes (.cnp q) s (fun t => t.qp r.destQp.toNat = { w.qp r.destQp.toNat with rate := max 1000 ((w.qp r.destQp.toNat).rate / 2), cnps := (w.qp r.destQp.toNat).cnps + 1, lastCnp := w.now })) ∧
  (∀ (t : Nat) (n : Fin 16384) (s u : State), u = advance s t → u.clocked = true → (u.qp n).st = .ready → (u.qp n).rate < portRate u (u.qp n).port * 1000 →
    (u.qp n).lastCnp + 55000 ≤ u.now → Completes (.cnpRateRecovery t n) s (fun w =>
      (w.qp n).rate = min (portRate u (u.qp n).port * 1000) ((u.qp n).rate + portRate u (u.qp n).port * 1000 / 8) ∧ (w.qp n).lastCnp = u.now))

/-! ### Links and PTP (chapters 07 and 11) -/

/-- 11 R252, R255 to R257, R261, R262: a frame from the wire is received, except where the link is down or trains; INIT and ACK tags are
queued at their timers, and the replay timer starts a replay; an LLDPDU is taken and one is queued at its timer; negotiation that does not
agree is refused after its time; TRAIN_LIMIT makes a quad active, and fails a start whose required port is not trained. -/
def Obligations.LinkProtocolComplete : Prop :=
  (∀ (t : Nat) (q : Fin 65) (f : RxFrame) (s u : State), u = advance s t → u.clocked = true → exec (.linkFrameReceive t q f) s = .next (receiveFrame u q f)) ∧
  (∀ (t : Nat) (q : Fin 65) (f : RxFrame) (s u : State), u = advance s t → u.clocked = true → ((u.port q).link = .down ∨ (u.port q).link = .training) →
    exec (.linkFrameReceive t q f) s = .next u) ∧
  (∀ (t : Nat) (q : Fin 64) (s u : State), u = advance s t → u.clocked = true → (u.port q).initOn = true → (∀ a, (u.port q).lastInit = some a → a + 1000 ≤ u.now) →
    Completes (.initSendTimer t q) s (fun w => w.port q = { u.port q with lastInit := some u.now, control := (u.port q).control ++ [{ init := true }] })) ∧
  (∀ (t a : Nat) (q : Fin 64) (s u : State), u = advance s t → u.clocked = true → (u.port q).link = .reliable → (u.port q).oweAck = some a → a ≤ u.now →
    Completes (.ackDelayExpiry t q) s (fun w => w.port q = { u.port q with oweAck := none, control := (u.port q).control ++ [{}] })) ∧
  (∀ (t a : Nat) (q : Fin 64) (s u : State), u = advance s t → u.clocked = true → (u.port q).link = .reliable → (u.port q).oldest ≠ (u.port q).next → (u.port q).timer = some a → a ≤ u.now →
    Completes (.replayTimerExpiry t q) s (fun w => w.port q = { u.port q with rp := (u.port q).oldest, timer := some (u.now + (u.port q).replayTimer), replays := (u.port q).replays + 1 })) ∧
  (∀ (q : Fin 65) (s w : State) (x : RxItem) (l : Option Bytes), arrival s q isLldp = some (x, w) → x.frame.body = .lldp l → exec (.lldpdu q) s = .next (takeLldp w q l)) ∧
  (∀ (t : Nat) (q : Fin 65) (s u : State), u = advance s t → u.clocked = true → (u.port q).carries = true → exec (.lldpTransmitTimer t q) s = .next (enqueue u q 7 (lldpFrame u q))) ∧
  (∀ (t : Nat) (q : Fin 64) (s u : State), u = advance s t → u.clocked = true → (u.port q).link = .negotiating → (u.port q).agrees = false → (u.port q).refusalReported = false →
    (u.port q).since + 500000000 ≤ u.now → ((u.port q).relMode = 2 → (u.port q).required = false) → exec (.negotiationTimeout t q) s = .next (refuseNegotiation u q)) ∧
  (∀ (t : Nat) (k : Fin 16) (s u : State), u = advance s t → u.clocked = true → (u.quad k).st = .training → (u.quad k).configured + 2000000000 ≤ u.now →
    lateRequired u k = [] → Completes (.trainLimitExpiry t k) s (fun w => (w.quad k).st = .active)) ∧
  (∀ (t q : Nat) (k : Fin 16) (s u : State) (l : List Nat), u = advance s t → u.clocked = true → trainLimitPassed u k = true → lateRequired u k = q :: l →
    exec (.trainLimitExpiry t k) s = .next (failStart (if (u.quad k).st = .training then setQuad u k .active else u) 6 q))

/-- 07 R162 to R165: what each PTP message that the part takes does at a port in the role for it, and the messages that the part sends at
their timers. All clauses are derived: the roles of ports, the intervals and the contents of messages rest on the model's choices
(log entries 34 and 96). -/
def Obligations.PtpComplete : Prop :=
  (∀ (q : Fin 64) (s w : State) (x : RxItem) (m : Ptp), arrival s q (isPtp .sync) = some (x, w) → x.frame.body = .ptp m → ptpAccepted w x.frame m = true →
    receives w q = true → fromParent w m = true →
    exec (.sync q) s = .next (if m.twoStep then w.updPtp q (fun p => { p with syncSeq := some m.seqId, syncRx := ptpStamp w q x.stamp, syncCorrection := m.correction })
      else ptpOffsetTaken w q (ptpStamp w q x.stamp) (m.stamp + m.correction))) ∧
  (∀ (q : Fin 64) (s w : State) (x : RxItem) (m : Ptp), arrival s q (isPtp .followUp) = some (x, w) → x.frame.body = .ptp m → ptpAccepted w x.frame m = true →
    receives w q = true → fromParent w m = true → (w.ptpPort q).syncSeq = some m.seqId →
    exec (.followUp q) s = .next (ptpOffsetTaken w q (w.ptpPort q).syncRx (m.stamp + m.correction + (w.ptpPort q).syncCorrection))) ∧
  (∀ (q : Fin 64) (s w : State) (x : RxItem) (m : Ptp), arrival s q (isPtp .delayReq) = some (x, w) → x.frame.body = .ptp m → ptpAccepted w x.frame m = true →
    isTransmitPort w q = true →
    exec (.delayReq q) s = .next (sendPtp w q { kind := .delayResp, seqId := m.seqId, stamp := ptpStamp w q x.stamp, correction := m.correction, requester := m.source })) ∧
  (∀ (q : Fin 64) (s w : State) (x : RxItem) (m : Ptp) (a : Int), arrival s q (isPtp .delayResp) = some (x, w) → x.frame.body = .ptp m → ptpAccepted w x.frame m = true →
    isSourcePort w q = true → (w.ptpPort q).delayTx = some a → m.requester = portIdentity q → m.seqId = (w.ptpPort q).delaySeq →
    Completes (.delayResp q) s (fun t => t.ptpPort q = { w.ptpPort q with delayTx := none, meanDelay := (wrapNs ((w.ptpPort q).syncRecv - (w.ptpPort q).syncOrigin) + wrapNs (m.stamp - m.correction - a)) / 2 })) ∧
  (∀ (q : Fin 64) (s w : State) (x : RxItem) (m : Ptp), arrival s q (isPtp .pdelayReq) = some (x, w) → x.frame.body = .ptp m → ptpAccepted w x.frame m = true → hasPtpRole w q = true →
    let one := sendPtp w q { kind := .pdelayResp, seqId := m.seqId, correction := m.correction + (ptpNow w q - ptpStamp w q x.stamp), requester := m.source }
    let first := sendPtp w q { kind := .pdelayResp, seqId := m.seqId, twoStep := true, stamp := ptpStamp w q x.stamp, requester := m.source }
    let two := sendPtp first q { kind := .pdelayRespFollowUp, seqId := m.seqId, stamp := ptpNow first q, correction := m.correction, requester := m.source }
    exec (.pdelayReq q) s = .next (if Config.twoStep q then two else one)) ∧
  (∀ (q : Fin 64) (s w : State) (x : RxItem) (m : Ptp) (a : Int), arrival s q (isPtp .pdelayResp) = some (x, w) → x.frame.body = .ptp m → ptpAccepted w x.frame m = true →
    (w.ptpPort q).pdelayTx = some a → m.requester = portIdentity q → m.seqId = (w.ptpPort q).pdelaySeq → (w.ptpPort q).pdelayWaitFollow = false → m.twoStep = false →
    Completes (.pdelayResp q) s (fun t => t.ptpPort q = { w.ptpPort q with pdelayTx := none, pdelayWaitFollow := false, meanDelay := (wrapNs (ptpStamp w q x.stamp - a) - m.correction) / 2 })) ∧
  (∀ (q : Fin 64) (s w : State) (x : RxItem) (m : Ptp) (a : Int), arrival s q (isPtp .pdelayRespFollowUp) = some (x, w) → x.frame.body = .ptp m → ptpAccepted w x.frame m = true →
    (w.ptpPort q).pdelayTx = some a → m.requester = portIdentity q → m.seqId = (w.ptpPort q).pdelaySeq → (w.ptpPort q).pdelayWaitFollow = true →
    exec (.pdelayRespFollowUp q) s = .next (peerDelayTaken w q a (w.ptpPort q).pdelayRx (wrapNs (m.stamp - (w.ptpPort q).pdelayPeerRx) + m.correction))) ∧
  (∀ (q : Fin 64) (s w : State) (x : RxItem) (m : Ptp), arrival s q (isPtp .announce) = some (x, w) → x.frame.body = .ptp m → ptpAccepted w x.frame m = true →
    (receives (hear w q m) q && announceWins (hear w q m) m) = false → exec (.announce q) s = .next (hear w q m)) ∧
  (∀ (q : Fin 64) (s w : State) (x : RxItem) (m : Ptp), arrival s q (isPtp .announce) = some (x, w) → x.frame.body = .ptp m → ptpAccepted w x.frame m = true →
    receives (hear w q m) q = true → announceWins (hear w q m) m = true →
    Completes (.announce q) s (fun t => t.clock = { w.clock with parent := m.source, grandmaster := m.grandmaster, gmQuality := m.quality, stepsRemoved := m.stepsRemoved + 1, lastAnnounce := w.now })) ∧
  (∀ (q : Fin 64) (s w : State) (x : RxItem), arrival s q isPtpOther = some (x, w) → exec (.ptpManagementSignaling q) s = .next (tally w .ptpDiscard)) ∧
  (∀ (t : Nat) (q : Fin 64) (s u : State), u = advance s t → u.clocked = true → isTransmitPort u q = true → (u.ptpPort q).lastSyncTx + logNs u.clock.config.logSync ≤ u.now →
    exec (.syncTransmitTimer t q) s = .next (sendSync u q)) ∧
  (∀ (t : Nat) (q : Fin 64) (s u : State), u = advance s t → u.clocked = true → isTransmitPort u q = true → (u.ptpPort q).lastAnnounceTx + announceNs ≤ u.now →
    Completes (.announceTransmitTimer t q) s (fun w => (w.ptpPort q).announceSeq = (u.ptpPort q).announceSeq + 1 ∧ (w.ptpPort q).lastAnnounceTx = u.now)) ∧
  (∀ (t : Nat) (q : Fin 64) (s u : State), u = advance s t → u.clocked = true → isSourcePort u q = true →
    Completes (.delayReqTransmitTimer t q) s (fun w => if Config.peerDelay q then w = u
      else (w.ptpPort q).delaySeq = (u.ptpPort q).delaySeq + 1 ∧ (w.ptpPort q).delayTx = some (ptpNow u q))) ∧
  (∀ (t : Nat) (q : Fin 64) (s u : State), u = advance s t → u.clocked = true → hasPtpRole u q = true →
    (u.ptpPort q).lastPdelayTx + logNs u.clock.config.logPdelay ≤ u.now →
    Completes (.pdelayReqTimer t q) s (fun w => if Config.peerDelay q = false then w = u else (w.ptpPort q).pdelaySeq = (u.ptpPort q).pdelaySeq + 1 ∧ (w.ptpPort q).pdelayTx = some (ptpNow u q)))


/-! ### The engine (chapters 04 to 06) -/

/-- 04 R82, R88, R89, R96, R100 and 06 R140: an operation's row issues the bundle at the pc, whole, where the bundle can issue; where it
stalls nothing changes. -/
def Obligations.BundlesIssueWhole : Prop :=
  ∀ (p : Fin 16) (s : State), ∀ x ∈ [(Instr.opNop p, Op.nop), (.opHalt p, .halt), (.opBr p, .br), (.opLoop p, .loop), (.opAdd p, .add), (.opAddi p, .addi), (.opSub p, .sub),
    (.opMul p, .mul), (.opAnd p, .and), (.opOr p, .or), (.opXor p, .xor), (.opShl p, .shl), (.opShr p, .shr), (.opSra p, .sra), (.opLi p, .li), (.opLih p, .lih),
    (.opCmp p, .cmp), (.opCmpi p, .cmpi), (.opPlog p, .plog), (.opAset p, .aset), (.opAadd p, .aadd), (.opAaddi p, .aaddi), (.opAget p, .aget), (.opLds p, .lds),
    (.opSts p, .sts), (.opMvstat p, .mvstat), (.opWaitTime p, .waitTime), (.opWaitSync p, .waitSync), (.opWaitMover p, .waitMover), (.opWaitUnit p, .waitUnit),
    (.opSignal p, .signal), (.opSyncReset p, .syncReset), (.opDone p, .done), (.opOvl p, .ovl), (.opOvlWait p, .ovlWait), (.opTrace p, .trace),
    (.opMvIssue p, .mvIssue), (.opMvIssuex p, .mvIssuex), (.opPrQload p, .prQload), (.opPrPass p, .prPass), (.opPrClr p, .prClr), (.opVld p, .vld), (.opVst p, .vst),
    (.opVacc p, .vacc), (.opVaccw p, .vaccw), (.opVmovq p, .vmovq), (.opVadd p, .vadd), (.opVsub p, .vsub), (.opVmul p, .vmul), (.opVfma p, .vfma), (.opVmax p, .vmax),
    (.opVmin p, .vmin), (.opVbcast p, .vbcast), (.opVseti p, .vseti), (.opVredsum p, .vredsum), (.opVredmax p, .vredmax), (.opVexp2 p, .vexp2), (.opVlog2 p, .vlog2),
    (.opVrcp p, .vrcp), (.opVrsqrt p, .vrsqrt), (.opVsilu p, .vsilu), (.opVsigm p, .vsigm), (.opVrope p, .vrope), (.opVtopk p, .vtopk)],
    (∃ o ∈ bundleOps (s.engine p).bundle, o.op = x.2) →
    (∀ n g, canIssue s p = some (n, g) → exec x.1 s = .next (applyBundle s p n g (bundleOps (s.engine p).bundle))) ∧
    (∀ n g, runningOn s p = some (n, g) → s.clocked = true → (s.engine p).issuing = true → (overlaid (s.engine p) = true ∨ ∃ o ∈ bundleOps (s.engine p).bundle, o.held (s.engine p) = true) →
      exec x.1 s = .next s)

/-- 04 R84, R88, R100: an operation whose result is an s register writes it, with writes to s0 discarded, and leaves everything else of
the machine as it was but the pc and the loops. The clauses of MVSTAT's bits [31:16] and VREDMAX's bits [63:32], free
values, are derived: they are the model's choice (log entry 13). -/
def Obligations.ScalarResults : Prop :=
  ∀ (p : Fin 16) (s : State) (n : Nat) (g : Sched) (o : Placed), issuesAlone s p = some (n, g, o) →
    ∀ x ∈ [(Instr.opAdd p, Op.add, fun (e : Engine) (y : Slot) => e.s y.a + e.s y.b), (.opSub p, .sub, fun e y => e.s y.a - e.s y.b), (.opMul p, .mul, fun e y => e.s y.a * e.s y.b),
      (.opAnd p, .and, fun e y => e.s y.a &&& e.s y.b), (.opOr p, .or, fun e y => e.s y.a ||| e.s y.b), (.opXor p, .xor, fun e y => e.s y.a ^^^ e.s y.b),
      (.opShl p, .shl, fun e y => e.s y.a <<< ((e.s y.b).toNat % 64)), (.opShr p, .shr, fun e y => e.s y.a >>> ((e.s y.b).toNat % 64)),
      (.opSra p, .sra, fun e y => (e.s y.a).sshiftRight ((e.s y.b).toNat % 64)), (.opAddi p, .addi, fun e y => e.s y.a + y.imm64), (.opLi p, .li, fun _ y => y.imm64),
      (.opLih p, .lih, fun e y => BitVec.ofNat 32 y.imm ++ (e.s y.d).setWidth 32), (.opAget p, .aget, fun e y => (e.a y.a).value.setWidth 64),
      (.opLds p, .lds, fun e y => BitVec.ofNat 64 (leNat (e.load (e.storeAddr y.a y.imm) 8))), (.opVredsum p, .vredsum, fun e y => (redSum (e.v y.a)).setWidth 64),
      (.opMvstat p, .mvstat, fun e y => (e.mv y.a).done ++ (Config.mvstatHigh (e.mv y.a).done (e.mv y.a).status ++ (e.mv y.a).status)),
      (.opVredmax p, .vredmax, fun e y => Config.redMaxHigh (e.v y.a) ++ redMax (e.v y.a))],
    o.op = x.2.1 → Completes x.1 s (fun t => OnlyEngine s t p ((s.engine p).setS o.x.d (x.2.2 (s.engine p) o.x)) ∧ (t.engine p).s 0 = 0
      ∧ (o.x.d ≠ 0 → (t.engine p).s o.x.d = x.2.2 (s.engine p) o.x) ∧ ∀ r, r ≠ o.x.d → (t.engine p).s r = (s.engine p).s r)

/-- 04 R84, R88: comparisons and predicate operations write one predicate, with writes to p0 discarded, and address operations one a
register; everything else of the machine but the pc and the loops is as it was. -/
def Obligations.PredicateAndAddressResults : Prop :=
  ∀ (p : Fin 16) (s : State) (n : Nat) (g : Sched) (o : Placed), issuesAlone s p = some (n, g, o) →
    (∀ x ∈ [(Instr.opCmp p, Op.cmp, fun (e : Engine) (y : Slot) => condition y.c (e.s y.a) (e.s y.b)), (.opCmpi p, .cmpi, fun e y => condition y.c (e.s y.a) y.imm64),
      (.opPlog p, .plog, fun e y => predOp y.c (e.p y.a) (e.p y.b))],
      o.op = x.2.1 → Completes x.1 s (fun t => OnlyEngine s t p ((s.engine p).setP o.x.d (x.2.2 (s.engine p) o.x)) ∧ (t.engine p).p 0 = true
        ∧ (o.x.d ≠ 0 → (t.engine p).p o.x.d = x.2.2 (s.engine p) o.x) ∧ ∀ r, r ≠ o.x.d → (t.engine p).p r = (s.engine p).p r)) ∧
    (∀ x ∈ [(Instr.opAset p, Op.aset, fun (e : Engine) (y : Slot) => ({ value := (e.s y.a).setWidth 48, space := bit y.c 0 } : AReg)),
      (.opAadd p, .aadd, fun e y => { e.a y.a with value := (e.a y.a).value + (e.s y.b).setWidth 48 }),
      (.opAaddi p, .aaddi, fun e y => { e.a y.a with value := (e.a y.a).value + y.imm64.setWidth 48 })],
      o.op = x.2.1 → Completes x.1 s (fun t => OnlyEngine s t p ((s.engine p).setA o.x.d (x.2.2 (s.engine p) o.x))
        ∧ (t.engine p).a o.x.d = x.2.2 (s.engine p) o.x ∧ ∀ r, r ≠ o.x.d → (t.engine p).a r = (s.engine p).a r))

/-- 04 R82, R88, R101 and 07 R185: the operations of control flow. A NOP and a satisfied wait only move the pc; HALT stops issue; BR goes
to its target; LOOP with a count repeats its range, and with a count of 0 skips it; OVL queues its overlay. -/
def Obligations.ControlFlowResults : Prop :=
  (∀ (p : Fin 16) (s : State) (n : Nat) (g : Sched), canIssue s p = some (n, g) → (∀ o ∈ bundleOps (s.engine p).bundle, o.op = .nop) → (flowOf (s.engine p)).2 < imemSize →
    Completes (.opNop p) s (fun t => OnlyEngine s t p (s.engine p))) ∧
  (∀ (p : Fin 16) (s : State) (n : Nat) (g : Sched) (o : Placed), issuesAlone s p = some (n, g, o) →
    (∀ x ∈ [(Instr.opWaitTime p, Op.waitTime), (.opWaitSync p, .waitSync), (.opWaitMover p, .waitMover), (.opWaitUnit p, .waitUnit), (.opOvlWait p, .ovlWait)],
      o.op = x.2 → Completes x.1 s (fun t => OnlyEngine s t p (s.engine p))) ∧
    (o.op = .halt → Completes (.opHalt p) s (fun t => OnlyEngine s t p { s.engine p with issuing := false, halted := true })) ∧
    (o.op = .ovl → Completes (.opOvl p) s (fun t => OnlyEngine s t p { s.engine p with overlays := (s.engine p).overlays ++ [{ target := o.x.x, source := o.x.imm, count := o.x.imm2 }] })) ∧
    (o.op = .br → Completes (.opBr p) s (fun t => OnlyEngine s t p (s.engine p) ∧ (t.engine p).pc = (brTarget (s.engine p) o.x).toNat)) ∧
    (o.op = .loop → Completes (.opLoop p) s (fun t => OnlyEngine s t p (s.engine p) ∧
      (loopCount (s.engine p) o.x ≠ 0 → (t.engine p).pc = (s.engine p).pc + 1 ∧
        (t.engine p).loops = { first := (s.engine p).pc + 1, last := (s.engine p).pc + o.x.imm, remaining := loopCount (s.engine p) o.x } :: (s.engine p).loops) ∧
      (loopCount (s.engine p) o.x = 0 → (s.engine p).loops = [] → (t.engine p).pc = (s.engine p).pc + o.x.imm + 1 ∧ (t.engine p).loops = []))))

/-- 04 R84, R88, R96, R97, R100 and 05 R110, R112, R128: the operations that write a v register, the store, query rows or accumulators
write that and nothing else. The clauses of VEXP2 and VLOG2 are derived: the model computes them in fixed
point (log entry 14). No store needs to be shut out: writing a byte of 0 removes every entry of its address. -/
def Obligations.VectorAndStoreResults : Prop :=
  ∀ (p : Fin 16) (s : State) (n : Nat) (g : Sched) (o : Placed), issuesAlone s p = some (n, g, o) →
    (∀ x ∈ [(Instr.opVadd p, Op.vadd, fun (e : Engine) (y : Slot) => List.zipWith addF (e.v y.a) (e.v y.b)), (.opVsub p, .vsub, fun e y => List.zipWith subF (e.v y.a) (e.v y.b)),
      (.opVmul p, .vmul, fun e y => List.zipWith mulF (e.v y.a) (e.v y.b)), (.opVmax p, .vmax, fun e y => List.zipWith maxF (e.v y.a) (e.v y.b)),
      (.opVmin p, .vmin, fun e y => List.zipWith minF (e.v y.a) (e.v y.b)), (.opVfma p, .vfma, fun e y => List.zipWith (fun ab c => fmaF ab.1 ab.2 c) ((e.v y.a).zip (e.v y.b)) (e.v y.c)),
      (.opVbcast p, .vbcast, fun e y => List.replicate 512 ((e.s y.a).setWidth 32)), (.opVseti p, .vseti, fun _ y => List.replicate 512 (BitVec.ofNat 32 y.imm)),
      (.opVexp2 p, .vexp2, fun e y => (e.v y.a).map exp2F), (.opVlog2 p, .vlog2, fun e y => (e.v y.a).map log2F), (.opVrcp p, .vrcp, fun e y => (e.v y.a).map rcpF),
      (.opVrsqrt p, .vrsqrt, fun e y => (e.v y.a).map rsqrtF), (.opVsilu p, .vsilu, fun e y => (e.v y.a).map siluF), (.opVsigm p, .vsigm, fun e y => (e.v y.a).map sigmF),
      (.opVrope p, .vrope, fun e y => rope (e.v y.a) (e.v y.b) (e.v y.c)), (.opVtopk p, .vtopk, fun e y => topK y.c (e.s y.b) (e.v y.a) (e.v y.d)),
      (.opVacc p, .vacc, fun e y => e.accRead y.x 512), (.opVld p, .vld, fun e y => rowF y.c (e.load (e.storeAddr y.a y.imm) (fmtBytes y.c 512)) 512)],
      o.op = x.2.1 → Completes x.1 s (fun t => OnlyEngine s t p ((s.engine p).setV o.x.d (x.2.2 (s.engine p) o.x)) ∧ (t.engine p).v o.x.d = x.2.2 (s.engine p) o.x
        ∧ ∀ r, r ≠ o.x.d → (t.engine p).v r = (s.engine p).v r)) ∧
    (o.op = .sts → Completes (.opSts p) s (fun t => OnlyEngine s t p ((s.engine p).save ((s.engine p).storeAddr o.x.a o.x.imm) (natLe ((s.engine p).s o.x.b).toNat 8))
      ∧ (∀ a, a < (s.engine p).storeAddr o.x.a o.x.imm ∨ (s.engine p).storeAddr o.x.a o.x.imm + 8 ≤ a → mread (t.engine p).store a = mread (s.engine p).store a)
      ∧ (t.engine p).load ((s.engine p).storeAddr o.x.a o.x.imm) 8 = natLe ((s.engine p).s o.x.b).toNat 8)) ∧
    (o.op = .vst → let b := packLanes (o.x.d == 1) (roundKey g) p (s.engine p).roundCtr o.x.c ((s.engine p).v o.x.b)
      Completes (.opVst p) s (fun t => OnlyEngine s t p { (s.engine p).save ((s.engine p).storeAddr o.x.a o.x.imm) b with roundCtr := (s.engine p).roundCtr + (if o.x.d = 1 then 1 else 0) }
        ∧ (∀ a, a < (s.engine p).storeAddr o.x.a o.x.imm ∨ (s.engine p).storeAddr o.x.a o.x.imm + b.length ≤ a → mread (t.engine p).store a = mread (s.engine p).store a))) ∧
    (o.op = .vaccw → Completes (.opVaccw p) s (fun t => OnlyEngine s t p ((s.engine p).accWrite o.x.x ((s.engine p).v o.x.a)))) ∧
    (o.op = .vmovq → let b := packLanes (o.x.b == 1) (roundKey g) p (s.engine p).roundCtr o.x.c ((s.engine p).v o.x.a)
      Completes (.opVmovq p) s (fun t => OnlyEngine s t p { (s.engine p).loadRow o.x.d (fmtBytes o.x.c o.x.imm) b with roundCtr := (s.engine p).roundCtr + (if o.x.b = 1 then 1 else 0) })) ∧
    (o.op = .prQload → Completes (.opPrQload p) s (fun t => OnlyEngine s t p
      ((s.engine p).loadRow o.x.d (fmtBytes o.x.c o.x.imm2) ((s.engine p).load ((s.engine p).storeAddr o.x.a 0) (fmtBytes o.x.c o.x.imm))))) ∧
    (o.op = .prClr → Completes (.opPrClr p) s (fun t => OnlyEngine s t p ((s.engine p).accClear o.x.x o.x.imm) ∧
      ∀ i, o.x.x ≤ i → i < o.x.x + o.x.imm → tgetD (t.engine p).acc 0 i = 0)) ∧
    (o.op = .prPass → Completes (.opPrPass p) s (fun t => OnlyEngine s t p { s.engine p with prism := (s.engine p).prism ++ [.pass ((passOf o.x).reading (s.engine p))] })) ∧
    (o.op = .mvIssue → Completes (.opMvIssue p) s (fun t => OnlyEngine s t p (queueDesc (s.engine p) o.x.d (issuedDesc (s.engine p) o)))) ∧
    (o.op = .mvIssuex → Completes (.opMvIssuex p) s (fun t => OnlyEngine s t p (queueDesc (s.engine p) o.x.d (issuedDesc (s.engine p) o))))

/-- 04 R93, R99, R101, 06 R140, R151 to R155 and 07 R185, R186, R190: the operations that reach beyond the engine, the walks, and the
completions of movers, passes, walks and overlays. The clauses of the order of overlays, of the bytes of lines that cannot be
read, and of requests that act at the completion of a mover, pass or walk are derived: they are the model's choices (log entries 106, 55
and 4). -/
def Obligations.EngineReachesOut : Prop :=
  (∀ (p : Fin 16) (s : State) (n : Nat) (g : Sched) (o : Placed), issuesAlone s p = some (n, g, o) →
    (o.op = .signal → Completes (.opSignal p) s (fun t => (t.syncObj o.x.x).value.toNat = min ((s.syncObj o.x.x).value.toNat + o.x.imm) (2 ^ 32 - 1) ∧
      (∀ i, i ≠ o.x.x → t.syncObj i = s.syncObj i) ∧ t.engine p = { s.engine p with loops := (flowOf (s.engine p)).1, pc := (flowOf (s.engine p)).2, lastIssue := s.now })) ∧
    (o.op = .syncReset → Completes (.opSyncReset p) s (fun t => (t.syncObj o.x.x).value = 0 ∧ (∀ i, i ≠ o.x.x → t.syncObj i = s.syncObj i))) ∧
    (o.op = .done → Completes (.opDone p) s (fun t => (tgetD (t.engine p).triggers {} o.x.x).k = (tgetD (s.engine p).triggers {} o.x.x).k + 1)) ∧
    (o.op = .trace → Completes (.opTrace p) s (fun t => t.engines = (s.updEngine p (fun e => { e with loops := (flowOf e).1, pc := (flowOf e).2, lastIssue := s.now })).engines))) ∧
  (∀ (p : Fin 16) (s : State) (n : Nat) (g : Sched) (o : Placed), canIssue s p = some (n, g) → o ∈ bundleOps (s.engine p).bundle → o.op = .prLens →
    ∀ x ∈ [(Instr.opAttend p, 0), (.opAppend p, 1), (.opMerge p, 2), (.opSetlen p, 3)], (walkOf (lensDesc (s.engine p) o)).mode = x.2 →
    exec x.1 s = .next (applyBundle s p n g (bundleOps (s.engine p).bundle))) ∧
  (∀ (p : Fin 16) (s : State) (o : Overlay) (r : List Overlay) (n : Nat) (g : Sched), s.clocked = true → (s.engine p).overlays = o :: r → (s.engine p).sched = some n → s.sched? n = some g →
    accessHeld s false (overlayRanges s g p o) = false → let x := readRanges s (overlayRanges s g p o) (64 * o.count)
    exec (.overlayComplete p) s = .next (x.2.updEngine p (fun e => { e with overlays := r, imem := placeBundles e.imem o x.1 })) ∧
      (∀ m i, i < o.count → tgetD (placeBundles m o x.1) 0 (o.target + i) = BitVec.ofNat 512 (field x.1 (64 * i) 64)) ∧
      (∀ m a, a < o.target ∨ o.target + o.count ≤ a → tgetD (placeBundles m o x.1) 0 a = tgetD m 0 a)) ∧
  (∀ (t : Nat) (p : Fin 16) (mv : Fin 4) (s u : State) (d : Desc), u = advance s t → u.clocked = true → headDesc u p mv = some d → exec (.moverDescriptorComplete t p mv) s = .next (moverGoes u p mv)) ∧
  (∀ (t : Nat) (p : Fin 16) (s u : State) (x : Pass), u = advance s t → u.clocked = true → passDue (u.engine p) = some x → exec (.prismPassComplete t p) s = .next (passEnd u p x)) ∧
  (∀ (t : Nat) (p : Fin 16) (s u : State) (x : Walk), u = advance s t → u.clocked = true → walkRunning (u.engine p) = some x → exec (.lensWalkComplete t p) s = .next (endWalk u p x))


/-! ### Rules of the whole block -/

/-- What holds in the state after a cold reset: the layout is Whole with the layout epoch 0x01 as delivered (03 R76), the clock is in
FREE (07 R162), the part is held in reset and no engine issues (01 R24; 16 R363). The empty queues and the zeros are the model's choice
(log entries 1 and 8): the queue and the pool are empty, no session is open, no schedule stands, no request waits, sync objects read 0. -/
def Obligations.ResetValues : Prop :=
  State.reset.pending = [] ∧ State.reset.pool = [] ∧ State.reset.layout.st = .whole ∧ State.reset.layout.epoch = 1 ∧
  State.reset.dev.mode = .resetting ∧ State.reset.clock.st = .free ∧ State.reset.aon.dumpHeld = .none ∧ State.reset.aon.startFailures = 0 ∧
  (∀ i, (State.reset.syncObj i).value = 0 ∧ (State.reset.syncObj i).owner = none) ∧ (∀ n, State.reset.sched? n = none) ∧
  (∀ i, (State.reset.session i).st ≠ .opened) ∧ (∀ m, (State.reset.page m).waiting = false ∧ (State.reset.page m).evqEnable = true) ∧
  (∀ p, (State.reset.engine p).issuing = false)

/-- Every memory of the part stands in its canonical form after reset, and every page holds no COMPLETION back. -/
def Obligations.ResetMemoriesCanonical : Prop :=
  MemoriesCanonical State.reset ∧ ∀ e ∈ State.reset.pages, e.2.heldOnlyEnabled

/-- 02 R29, R30, R41: a step that writes or reads a register of a page keeps every memory in its canonical form, and holds COMPLETIONs back
only where the event queue is on, from every state where that is so. -/
def Obligations.PageStepsKeepMemories : Prop :=
  ∀ (s t : State) (c : Instr) (r : List Instr), s.pending = c :: r → onPage c = true → MemoriesCanonical s → (∀ e ∈ s.pages, e.2.heldOnlyEnabled) →
    step s = .next t → MemoriesCanonical t ∧ (∀ e ∈ t.pages, e.2.heldOnlyEnabled) ∧ t.pending = r

/-- 04 R80, R81: the layout of slots and bundles. Every slot whose fields fit is read back from its 128-bit value, every value is that of
the slot it reads as, the same of bundles, and slot k of a bundle's 64 bytes is the little-endian value of bytes 16k to 16k + 15. -/
def Obligations.BundleLayoutRoundTrip : Prop :=
  (∀ x : Slot, x.wf = true → x.word < 2 ^ 128 ∧ slotOf x.word = x) ∧
  (∀ w, w < 2 ^ 128 → (slotOf w).wf = true ∧ (slotOf w).word = w) ∧
  (∀ x0 x1 x2 x3 : Slot, x0.wf = true → x1.wf = true → x2.wf = true → x3.wf = true →
    bundleSlot (bundleOf x0 x1 x2 x3) 0 = x0 ∧ bundleSlot (bundleOf x0 x1 x2 x3) 1 = x1 ∧ bundleSlot (bundleOf x0 x1 x2 x3) 2 = x2 ∧ bundleSlot (bundleOf x0 x1 x2 x3) 3 = x3) ∧
  (∀ w : BitVec 512, bundleOf (bundleSlot w 0) (bundleSlot w 1) (bundleSlot w 2) (bundleSlot w 3) = w) ∧
  (∀ (b : Bytes) (k : Nat), b.length = 64 → k < 4 → bundleSlot (BitVec.ofNat 512 (leNat b)) k = slotOf (leNat ((b.drop (16 * k)).take 16)))

/-- 02 R34, R35, R37: a response stands in response slot i mod 256 with RSP_PI at i + 1, its extended results stand at XARG_OFF, and
nothing else of the page but the event queue changes, nor does any other page. -/
def Obligations.ResponseStandsInItsSlot : Prop :=
  ∀ (s : State) (q : Req) (st d : Nat) (r x : Bytes), (s.page q.m).mem.wf = true → q.owes.mailbox = q.m → q.xargOff + q.room ≤ 20480 →
    let t := closeWith s q st d r x
    let y := x.take q.room
    let a := 0x5000 + 64 * (q.index.toNat % 256)
    (t.page q.m).rspPi = q.index + 1 ∧
    mreadN (t.page q.m).mem a 64 = padTo (natLe st 2 ++ natLe q.tag.toNat 2 ++ natLe q.index.toNat 2 ++ natLe y.length 2 ++ natLe d 4 ++ r) 64 ∧
    mreadN (t.page q.m).mem (0xB000 + q.xargOff) y.length = y ∧
    (∀ b, (b < a ∨ a + 64 ≤ b) → (b < 0xB000 + q.xargOff ∨ 0xB000 + q.xargOff + y.length ≤ b) → (b < 0x9000 ∨ 0xB000 ≤ b) →
      mread (t.page q.m).mem b = mread (s.page q.m).mem b) ∧
    (∀ m, m ≠ q.m → t.page m = s.page m) ∧ ∃ p n e, t = { s with pages := p, qps := n, pendings := e }

/-- 02 R29: a host's CSR write to a mailbox page changes no byte of the response ring, nor of the event queue where no event waits for
space; it writes the request ring and the extended argument buffer as it stands. -/
def Obligations.HostWritesKeepResponses : Prop :=
  ∀ (s : State) (m : Nat) (i : BitVec 32) (off : Nat) (b : Bytes), (s.page m).mem.wf = true →
    let t := writePage s m i off b
    (∀ a, 0x5000 ≤ a → a < 0x9000 → mread (t.page m).mem a = mread (s.page m).mem a) ∧
    ((s.page m).held = [] → (s.page m).dropped = 0 → ∀ a, 0x9000 ≤ a → a < 0xB000 → mread (t.page m).mem a = mread (s.page m).mem a) ∧
    (∀ k, k < b.length → (0x1000 ≤ off + k ∧ off + k < 0x5000) ∨ (0xB000 ≤ off + k ∧ off + k < 0x10000) → mread (t.page m).mem (off + k) = b.getD k 0) ∧
    (∀ n, n ≠ m → t.page n = s.page n)

/-- 07 R190: a sync object is an unsigned 32-bit counter. Signal adds an amount, saturating at 2^32 − 1, and a signal that saturates sets
the owner's SYNC_SATURATED flag and counts; reset sets the counter to 0; wait-at-least is satisfied while the value is at least the
threshold. -/
def Obligations.SyncObjectRule : Prop :=
  (∀ (s : State) (i n : Nat), let t := syncSignal s i n
    (t.syncObj i).value.toNat = min ((s.syncObj i).value.toNat + n) (2 ^ 32 - 1) ∧ (∀ k, k ≠ i → t.syncObj k = s.syncObj k) ∧
    (∀ c, (s.syncObj i).owner = some c → 2 ^ 32 ≤ (s.syncObj i).value.toNat + n →
      (t.ctx c).syncSaturated = true ∧ (t.ctx c).syncSaturatedCnt = (s.ctx c).syncSaturatedCnt + 1) ∧
    ((s.syncObj i).value.toNat + n < 2 ^ 32 → t.ctxs = s.ctxs)) ∧
  (∀ (s : State) (i : Nat), ((syncReset s i).syncObj i).value = 0 ∧ (∀ k, k ≠ i → (syncReset s i).syncObj k = s.syncObj k)) ∧
  (∀ (s : State) (e : Engine) (g : Sched) (p : Nat) (o : Placed), o.op = .waitSync → o.enabled e = true →
    (o.waits s e g p = false ↔ (if o.x.c = 1 then (e.s o.x.a).toNat else o.x.imm) ≤ (s.syncObj o.x.x).value.toNat)) ∧
  (∀ (p : Fin 16) (s : State) (n : Nat) (g : Sched) (o : Placed), issuesAlone s p = some (n, g, o) →
    (o.op = .signal → Completes (.opSignal p) s (fun t => t.sync = (syncSignal s o.x.x o.x.imm).sync ∧ t.ctxs = (syncSignal s o.x.x o.x.imm).ctxs)) ∧
    (o.op = .syncReset → Completes (.opSyncReset p) s (fun t => t.sync = (syncReset s o.x.x).sync)))

/-- 05 R119: VREDSUM adds the lanes of its operand in nine levels, position j of each level the FP32 sum of positions 2j and 2j + 1 of the
one below; VREDMAX pairs alike by VMAX. -/
def Obligations.ReductionsPairLanes : Prop :=
  ∀ (l : List F32) (f : F32 → F32 → F32) (y : Nat → Nat → F32), l.length = 512 → (∀ j, j < 512 → y 0 j = l.getD j 0) →
    (∀ k j, k < 9 → y (k + 1) j = f (y k (2 * j)) (y k (2 * j + 1))) →
    (f = addF → redSum l = y 9 0) ∧ (f = maxF → redMax l = y 9 0)

/-- 03 R62, R63: home() and content(). Parity, spare and data rotate with the stripe number, so each stack holds parity in one stripe of
every 16 and spare in one; content() undoes home(); any 16 consecutive stripes place 14 data units on each stack. -/
def Obligations.HomeAndContentAreInverse : Prop :=
  (∀ a, let u := a / 4096
    let st := u / 14
    dataHome (stripeOf a) (unitOf a) = (st + 2 + u % 14) % 16 ∧ localOf a = st * 4096 + a % 4096 ∧ stripeOf a = st ∧ unitOf a = u % 14 ∧
    parityHome st = st % 16 ∧ spareStack st = (st + 1) % 16 ∧ dataHome st (u % 14) ≠ parityHome st ∧ dataHome st (u % 14) ≠ spareStack st) ∧
  (∀ a, contentOf (dataHome (stripeOf a) (unitOf a)) (localOf a) = .data (stripeOf a) (unitOf a) ∧ unitAddr (stripeOf a) (unitOf a) + localOf a % 4096 = a) ∧
  (∀ t l st k, t < 16 → contentOf t l = .data st k → dataHome st k = t ∧ k < 14 ∧ localOf (unitAddr st k + l % 4096) = l) ∧
  (∀ t n, t < 16 → (∃! i, i < 16 ∧ parityHome (n + i) = t) ∧ (∃! i, i < 16 ∧ spareStack (n + i) = t)) ∧
  (∀ t n, t < 16 → ((List.range 16).flatMap (fun i => (List.range 14).filter (fun k => dataHome (n + i) k == t))).length = 14)

/-- 05 R112, R113: a conversion to FP32 is exact and keeps the sign of a zero: converted back with ties to even it gives the code, for every
code of FP8 E4M3, FP8 E5M2, FP4, INT8, BF16 and FP16 that is no NaN; a NaN becomes the canonical NaN. -/
def Obligations.ElementsRoundTrip : Prop :=
  ∀ f ∈ [(0x0, 8), (0x1, 8), (0x6, 4), (0x8, 8), (0xA, 16), (0xB, 16)], ∀ c, c < 2 ^ f.2 →
    (elemFv f.1 c ≠ .nan → toElem rneShift f.1 (elemF f.1 c) = c) ∧ (elemFv f.1 c = .nan → elemF f.1 c = 0x7FC00000)

/-- 17 R403: ALERT_N is low while any bit of ALERT_STATUS is set. [0] is set by a class 0x3 record, [1] by a start with reason 0x05 or
0x06, and each setting counts; [2], [3] and [4] follow their conditions, and ALERT_CLEAR clears [1:0] alone. -/
def Obligations.AlertStatusRule : Prop :=
  (∀ s : State, (s.alertN = false ↔ s.alertStatus ≠ 0) ∧ bit s.alertStatus 0 = s.dev.alert0 ∧ bit s.alertStatus 1 = s.dev.alert1 ∧
    (bit s.alertStatus 2 = true ↔ ∃ e ∈ s.stks, e.2.st ≠ .serving) ∧ (bit s.alertStatus 3 = true ↔ s.dev.mode = .minimal) ∧
    (bit s.alertStatus 4 = true ↔ s.aon.dumpHeld = .held)) ∧
  (∀ (s : State) (code unit st : Nat) (data : Bytes), tgetD s.dev.written 0 (code * 256 + unit) < 64 →
    let t := logError s code 3 unit data st
    t.dev.alert0 = true ∧ t.dev.alert1 = s.dev.alert1 ∧ tgetD t.dev.alertCnts 0 0 = tgetD s.dev.alertCnts 0 0 + 1) ∧
  (∀ (s : State) (code cls unit st : Nat) (data : Bytes), cls ≠ 3 → (logError s code cls unit data st).dev.alert0 = s.dev.alert0 ∧
    (logError s code cls unit data st).dev.alert1 = s.dev.alert1) ∧
  (∀ (at_ : Nat) (v : StartEnv) (s u : State), u = advance s at_ → u.dev.mode = .resetting → u.aon.dumping = none → u.pins.thermtripN = true →
    Completes (.start at_ v) s (fun t => if t.dev.reason = 5 ∨ t.dev.reason = 6
      then t.dev.alert1 = true ∧ tgetD t.dev.alertCnts 0 1 = tgetD u.dev.alertCnts 0 1 + 1
      else t.dev.alert1 = u.dev.alert1 ∧ tgetD t.dev.alertCnts 0 1 = tgetD u.dev.alertCnts 0 1)) ∧
  (∀ (m : Fin 1029) (s v : State) (q : Req), Ready cmdAlertClear m s q v → RestZero q [(20, 1)] → Completes (.alertClear m) s (fun t =>
    t.dev = { v.dev with alert0 := v.dev.alert0 && !bit (q.arg 20 1) 0, alert1 := v.dev.alert1 && !bit (q.arg 20 1) 1 } ∧ t.stks = v.stks ∧ t.aon = v.aon))

/-- 02 R46, R47, R53: a tenant's request with an opcode that tenants may not issue is answered DENIED, and the machine is otherwise as the
events due first at that instant leave it but for the page, the turn, counts, and the answer's copies. -/
def Obligations.TenantsMayNotIssueRoleCommands : Prop :=
  ∀ (c : Cmd) (m : Nat) (s : State) (q : Req), 5 ≤ m → m < 1029 → c.issuers (.tenant (m - 5)) = false → s.dev.mode = .inService → headOf s m = some q →
    q.opcode = c.op → c.form q = true → ∀ w, w = c.before { q with owes := owesOf c q } s → w.dev.mode = .inService → (w.page m).mem.wf = true →
    (w.page m).reqCi = q.index →
    ∃ t, serve m c s = .next t ∧ (t.page m).rspPi = q.index + 1 ∧ (t.page m).reqCi = q.index + 1 ∧
      mreadN (t.page m).mem (0x5000 + 64 * (q.index.toNat % 256)) 2 = natLe 0x0105 2 ∧ (∀ k, k ≠ m → t.page k = w.page k) ∧
      ∃ p n e k, t = { w with pages := p, qps := n, pendings := e, counters := k, lastServed := m, taken := w.taken + 1 }
end

