-- ==== Sys2Proof/Laws/Frames.lean ====
section
/-!
SUPPORT. One law per shared shape of a command that is not a mailbox command: timed happenings, received frames and requests,
crossbar messages, writes of page registers.
-/

namespace Sys2Proof.Machine

open Sys2Proof

/-- A timed happening that is due acts on the advanced state. -/
theorem timed_due {t : Nat} {s : State} {due : State → Bool} {act : State → State} (h : due (advance s t) = true) :
    timed t s due act = .next (act (advance s t)) := by
  simp [timed, h]

/-- A timed happening that is not due only lets time pass. -/
theorem timed_idle {t : Nat} {s : State} {due : State → Bool} {act : State → State} (h : due (advance s t) = false) :
    timed t s due act = .next (advance s t) := by
  simp [timed, h]

/-- Time never runs backward. -/
theorem advance_now (s : State) (t : Nat) : (advance s t).now = max s.now t := by
  unfold advance
  dsimp only
  split <;> rfl

/-- Time touches uptime and the cluster clock alone. -/
theorem advance_frame (s : State) (t : Nat) : ∃ k, advance s t = { s with now := max s.now t, clock := k } := by
  unfold advance
  dsimp only
  split
  · exact ⟨_, rfl⟩
  · exact ⟨_, rfl⟩

/-- A row whose frame has arrived acts on it. -/
theorem onFrame_arrival {s w : State} {q : Nat} {want : Frame → Bool} {act : State → RxItem → State} {x : RxItem} (h : arrival s q want = some (x, w)) :
    onFrame s q want act = .next (act w x) := by
  unfold arrival at h
  split at h
  · rename_i hc
    split at h
    · rename_i y r hy
      simp only [Option.some.injEq, Prod.mk.injEq] at h
      obtain ⟨rfl, rfl⟩ := h
      simp [onFrame, hc, hy]
    · cases h
  · cases h

/-- A row of received frames without its frame changes nothing. -/
theorem onFrame_none {s : State} {q : Nat} {want : Frame → Bool} {act : State → RxItem → State} (h : arrival s q want = none) :
    onFrame s q want act = .next s := by
  unfold arrival at h
  unfold onFrame
  split at h
  · rename_i hc
    split at h
    · cases h
    · rename_i hn
      simp [hc, hn]
  · rename_i hc
    simp [hc]

/-- A row whose request has passed its checks runs its body. -/
theorem onRequest_requested {s u : State} {q : Nat} {want : Eruno → Bool} {body : State → InReq → State} {r : InReq} (h : requested s q want = some (r, u)) :
    onRequest s q want body = .next (body u r) := by
  unfold requested at h
  split at h
  · rename_i x w ha
    unfold onRequest
    rw [onFrame_arrival ha]
    split at h
    · rename_i e he
      split at h
      · rename_i u' r' hr
        split at h
        · rename_i hf
          simp only [Option.some.injEq, Prod.mk.injEq] at h
          obtain ⟨rfl, rfl⟩ := h
          simp [he, hr, hf]
        · cases h
      · cases h
    · cases h
  · cases h

end Sys2Proof.Machine
end

