-- ==== Sys2Proof/Laws/Memory.lean ====
section
/-!
SUPPORT. Sparse tables and memories: a read after a write, and the canonical form that every memory operation keeps.
-/

namespace Sys2Proof.Machine

open Sys2Proof

variable {α : Type}

/-! ### Tables -/

@[simp] theorem tget?_nil (a : Nat) : tget? ([] : Tab α) a = none := rfl

@[simp] theorem tgetD_nil (d : α) (a : Nat) : tgetD ([] : Tab α) d a = d := rfl

theorem tget?_tput_same (t : Tab α) (a : Nat) (x : α) : tget? (tput t a x) a = some x := by
  induction t with
  | nil => simp [tput, tget?]
  | cons e r ih =>
    obtain ⟨k, v⟩ := e
    simp only [tput]
    split
    · simp [tget?]
    · split
      · simp [tget?]
      · rename_i h
        simp [tget?, h, ih]

theorem tget?_tput_other (t : Tab α) {a b : Nat} (x : α) (h : b ≠ a) : tget? (tput t a x) b = tget? t b := by
  induction t with
  | nil => simp [tput, tget?, h]
  | cons e r ih =>
    obtain ⟨k, v⟩ := e
    simp only [tput]
    split
    · simp [tget?, h]
    · split
      · subst_vars
        simp [tget?, h]
      · simp [tget?, ih]

@[simp] theorem tgetD_tput_same (t : Tab α) (d : α) (a : Nat) (x : α) : tgetD (tput t a x) d a = x := by
  simp [tgetD, tget?_tput_same]

theorem tgetD_tput_other (t : Tab α) (d : α) {a b : Nat} (x : α) (h : b ≠ a) : tgetD (tput t a x) d b = tgetD t d b := by
  simp [tgetD, tget?_tput_other t x h]

@[simp] theorem tgetD_tupd_same (t : Tab α) (d : α) (a : Nat) (f : α → α) : tgetD (tupd t d a f) d a = f (tgetD t d a) := by
  simp [tupd]

theorem tgetD_tupd_other (t : Tab α) (d : α) {a b : Nat} (f : α → α) (h : b ≠ a) : tgetD (tupd t d a f) d b = tgetD t d b := by
  simp [tupd, tgetD_tput_other t d _ h]

theorem tget?_filter (t : Tab α) (p : Nat → Bool) (a : Nat) : tget? (t.filter (fun e => p e.1)) a = if p a then tget? t a else none := by
  induction t with
  | nil => simp
  | cons e r ih =>
    obtain ⟨k, v⟩ := e
    by_cases hk : p k <;> by_cases ha : a = k <;> simp_all [tget?]

theorem tget?_tdel_other (t : Tab α) {a b : Nat} (h : b ≠ a) : tget? (tdel t a) b = tget? t b := by
  simp [tdel, tget?_filter t (· != a), h]

@[simp] theorem tget?_tdel_same (t : Tab α) (a : Nat) : tget? (tdel t a) a = none := by
  simp [tdel, tget?_filter t (· != a)]

theorem tget?_map (t : Tab α) (f : Nat → α → α) (a : Nat) : tget? (tmap t f) a = (tget? t a).map (f a) := by
  induction t with
  | nil => rfl
  | cons e r ih =>
    obtain ⟨k, v⟩ := e
    simp only [tmap, List.map_cons, tget?] at ih ⊢
    split
    · subst_vars
      rfl
    · exact ih

/-! ### Canonical memory -/

/-- The canonical form, entry by entry. -/
theorem Memory.wf_iff (m : Memory) : m.wf = true ↔ (m.map Prod.fst).Pairwise (· < ·) ∧ ∀ c ∈ m, c.2 ≠ 0 := by
  simp [Memory.wf]

theorem Memory.wf_nil : Memory.wf [] = true := by simp [Memory.wf_iff]

theorem Memory.wf_filter {m : Memory} (p : Host.Cell → Bool) (h : m.wf = true) : Memory.wf (m.filter p) = true := by
  rw [Memory.wf_iff] at *
  refine ⟨?_, fun c hc => h.2 c (List.mem_filter.mp hc).1⟩
  exact h.1.sublist ((List.filter_sublist (p := p)).map Prod.fst)

theorem Memory.wf_tdel {m : Memory} (a : Nat) (h : m.wf = true) : Memory.wf (tdel m a) = true := Memory.wf_filter _ h

/-- The keys of a table after a write are its old keys and the new one. -/
theorem mem_keys_tput {t : Tab α} {a k : Nat} {x : α} (h : k ∈ (tput t a x).map Prod.fst) : k = a ∨ k ∈ t.map Prod.fst := by
  induction t with
  | nil => simpa [tput] using h
  | cons e r ih =>
    obtain ⟨k', v⟩ := e
    simp only [tput] at h
    split at h
    · simpa using h
    · split at h
      · subst_vars
        simp at h ⊢
        tauto
      · simp only [List.map_cons, List.mem_cons] at h ⊢
        rcases h with h | h
        · exact .inr (.inl h)
        · rcases ih h with h | h
          · exact .inl h
          · exact .inr (.inr h)

theorem keys_tput_sorted {t : Tab α} (a : Nat) (x : α) (h : (t.map Prod.fst).Pairwise (· < ·)) :
    ((tput t a x).map Prod.fst).Pairwise (· < ·) := by
  induction t with
  | nil => simp [tput]
  | cons e r ih =>
    obtain ⟨k, v⟩ := e
    simp only [List.map_cons, List.pairwise_cons] at h
    simp only [tput]
    split
    · rename_i hlt
      simp only [List.map_cons, List.pairwise_cons, List.mem_cons]
      refine ⟨fun b hb => ?_, h⟩
      rcases hb with hb | hb
      · omega
      · exact lt_trans hlt (h.1 b hb)
    · split
      · subst_vars
        simpa using h
      · rename_i h1 h2
        simp only [List.map_cons, List.pairwise_cons]
        refine ⟨fun b hb => ?_, ih h.2⟩
        rcases mem_keys_tput hb with hb | hb
        · omega
        · exact h.1 b hb

theorem mem_tput {t : Tab α} {a : Nat} {x : α} {c : Nat × α} (h : c ∈ tput t a x) : c = (a, x) ∨ c ∈ t := by
  induction t with
  | nil => simpa [tput] using h
  | cons e r ih =>
    obtain ⟨k, v⟩ := e
    simp only [tput] at h
    split at h
    · simpa using h
    · split at h
      · simp at h ⊢
        tauto
      · simp only [List.mem_cons] at h ⊢
        rcases h with h | h
        · exact .inr (.inl h)
        · rcases ih h with h | h
          · exact .inl h
          · exact .inr (.inr h)

/-- A write of one byte keeps the canonical form. -/
theorem mwrite_wf {m : Memory} (a : Nat) (b : Byte) (h : m.wf = true) : (mwrite m a b).wf = true := by
  unfold mwrite
  split
  · exact Memory.wf_tdel a h
  · rename_i hb
    rw [Memory.wf_iff] at *
    refine ⟨keys_tput_sorted a b h.1, fun c hc => ?_⟩
    rcases mem_tput hc with hc | hc
    · subst hc
      exact hb
    · exact h.2 c hc

/-- A write of bytes keeps the canonical form. -/
theorem mwriteN_wf {m : Memory} (a : Nat) (b : Bytes) (h : m.wf = true) : (mwriteN m a b).wf = true := by
  induction b generalizing m a with
  | nil => exact h
  | cons x r ih => exact ih _ (mwrite_wf a x h)

theorem mclear_wf {m : Memory} (lo hi : Nat) (h : m.wf = true) : (mclear m lo hi).wf = true := Memory.wf_filter _ h

theorem mslice_wf {m : Memory} (lo hi : Nat) (h : m.wf = true) : (mslice m lo hi).wf = true := Memory.wf_filter _ h

/-! ### Reads after writes -/

theorem mread_mwrite_other (m : Memory) {a b : Nat} (x : Byte) (h : b ≠ a) : mread (mwrite m a x) b = mread m b := by
  unfold mwrite mread tgetD
  split
  · rw [tget?_tdel_other _ h]
  · rw [tget?_tput_other _ _ h]

theorem mread_mwrite_same (m : Memory) (a : Nat) (x : Byte) : mread (mwrite m a x) a = x := by
  unfold mwrite mread tgetD
  split
  · rw [tget?_tdel_same]
    subst_vars
    rfl
  · rw [tget?_tput_same]
    rfl

/-- Bytes outside a write read as before. -/
theorem mread_mwriteN_other (m : Memory) {a b : Nat} (x : Bytes) (h : b < a ∨ a + x.length ≤ b) : mread (mwriteN m a x) b = mread m b := by
  induction x generalizing m a with
  | nil => rfl
  | cons y r ih =>
    simp only [List.length_cons] at h
    simp only [mwriteN]
    rw [ih (m := mwrite m a y) (a := a + 1) (by omega), mread_mwrite_other _ _ (by omega)]

/-- A byte inside a write reads as it was written. -/
theorem mread_mwriteN_same (m : Memory) {a i : Nat} (x : Bytes) (hi : i < x.length) : mread (mwriteN m a x) (a + i) = x[i] := by
  induction x generalizing m a i with
  | nil => simp at hi
  | cons y r ih =>
    simp only [mwriteN]
    cases i with
    | zero =>
      rw [mread_mwriteN_other _ _ (by omega)]
      simpa using mread_mwrite_same m a y
    | succ j =>
      rw [show a + (j + 1) = a + 1 + j by omega, ih (mwrite m a y) (by simpa using hi)]
      rfl

theorem mreadN_eq_map (m : Memory) (a n : Nat) : mreadN m a n = (List.range n).map (fun i => mread m (a + i)) := by
  induction n generalizing a with
  | zero => rfl
  | succ n ih =>
    rw [mreadN, ih, List.range_succ_eq_map]
    simp [Function.comp_def, Nat.add_comm, Nat.add_left_comm]

/-- A range read back after it was written. -/
theorem mreadN_mwriteN (m : Memory) (a : Nat) (x : Bytes) : mreadN (mwriteN m a x) a x.length = x := by
  rw [mreadN_eq_map]
  apply List.ext_getElem
  · simp
  · intro i h1 h2
    simp only [List.getElem_map, List.getElem_range]
    exact mread_mwriteN_same m x h2

/-- A range that a write does not touch reads as before. -/
theorem mreadN_mwriteN_other (m : Memory) {a b n : Nat} (x : Bytes) (h : b + n ≤ a ∨ a + x.length ≤ b) :
    mreadN (mwriteN m a x) b n = mreadN m b n := by
  rw [mreadN_eq_map, mreadN_eq_map]
  refine List.map_congr_left (fun i hi => mread_mwriteN_other m x ?_)
  have := List.mem_range.mp hi
  omega

end Sys2Proof.Machine
end

