-- ==== Sys2Proof/Laws/State.lean ====
section
/-!
SUPPORT. One law per update of the state: the fields it leaves alone, and what its own accessor reads after it. Every law
is a simp lemma, so that no later proof unfolds a record update.
-/

namespace Sys2Proof.Machine

open Sys2Proof

variable (s : State)

/-- `updPage` changes `pages` alone. -/
@[simp] theorem State.updPage_keeps (m : Nat) (f : Page → Page) :
    (s.updPage m f).pending = s.pending ∧ (s.updPage m f).build = s.build ∧ (s.updPage m f).now = s.now ∧ (s.updPage m f).clock = s.clock ∧
    (s.updPage m f).pins = s.pins ∧ (s.updPage m f).aon = s.aon ∧ (s.updPage m f).flash = s.flash ∧ (s.updPage m f).dev = s.dev ∧
    (s.updPage m f).lastServed = s.lastServed ∧ (s.updPage m f).taken = s.taken ∧ (s.updPage m f).auth = s.auth ∧
    (s.updPage m f).pendings = s.pendings ∧ (s.updPage m f).staged = s.staged ∧ (s.updPage m f).pool = s.pool ∧ (s.updPage m f).lines = s.lines ∧
    (s.updPage m f).stks = s.stks ∧ (s.updPage m f).layout = s.layout ∧ (s.updPage m f).rebuild = s.rebuild ∧ (s.updPage m f).policy = s.policy ∧
    (s.updPage m f).ctxs = s.ctxs ∧ (s.updPage m f).extents = s.extents ∧ (s.updPage m f).revocations = s.revocations ∧
    (s.updPage m f).sync = s.sync ∧ (s.updPage m f).seqs = s.seqs ∧ (s.updPage m f).scheds = s.scheds ∧ (s.updPage m f).loads = s.loads ∧
    (s.updPage m f).readyHeld = s.readyHeld ∧ (s.updPage m f).startCopies = s.startCopies ∧ (s.updPage m f).engines = s.engines ∧
    (s.updPage m f).locals = s.locals ∧ (s.updPage m f).endpoints = s.endpoints ∧ (s.updPage m f).forwards = s.forwards ∧
    (s.updPage m f).sessions = s.sessions ∧ (s.updPage m f).outstanding = s.outstanding ∧ (s.updPage m f).reasms = s.reasms ∧
    (s.updPage m f).job = s.job ∧ (s.updPage m f).qps = s.qps ∧ (s.updPage m f).agents = s.agents ∧ (s.updPage m f).tally = s.tally ∧
    (s.updPage m f).txns = s.txns ∧ (s.updPage m f).cohQueue = s.cohQueue ∧ (s.updPage m f).ncReqs = s.ncReqs ∧ (s.updPage m f).xbar = s.xbar ∧
    (s.updPage m f).xcache = s.xcache ∧ (s.updPage m f).drains = s.drains ∧ (s.updPage m f).meters = s.meters ∧
    (s.updPage m f).epMeters = s.epMeters ∧ (s.updPage m f).classMap = s.classMap ∧ (s.updPage m f).quads = s.quads ∧
    (s.updPage m f).ports = s.ports ∧ (s.updPage m f).ptp = s.ptp ∧ (s.updPage m f).staging = s.staging ∧ (s.updPage m f).counters = s.counters ∧
    (s.updPage m f).streams = s.streams ∧ (s.updPage m f).counts = s.counts ∧ (s.updPage m f).arrivals = s.arrivals ∧ (s.updPage m f).wire = s.wire ∧
    (s.updPage m f).free = s.free := by
  simp [State.updPage]

@[simp] theorem State.updPage_page (m : Nat) (f : Page → Page) : (s.updPage m f).page m = f (s.page m) := by simp [State.updPage, State.page]

theorem State.updPage_page_other {m : Nat} (f : Page → Page) {j : Nat} (h : j ≠ m) : (s.updPage m f).page j = s.page j := by
  simp [State.updPage, State.page, tgetD_tupd_other _ _ _ h]

/-- `updCtx` changes `ctxs` alone. -/
@[simp] theorem State.updCtx_keeps (c : Nat) (f : Ctx → Ctx) :
    (s.updCtx c f).pending = s.pending ∧ (s.updCtx c f).build = s.build ∧ (s.updCtx c f).now = s.now ∧ (s.updCtx c f).clock = s.clock ∧
    (s.updCtx c f).pins = s.pins ∧ (s.updCtx c f).aon = s.aon ∧ (s.updCtx c f).flash = s.flash ∧ (s.updCtx c f).dev = s.dev ∧
    (s.updCtx c f).pages = s.pages ∧ (s.updCtx c f).lastServed = s.lastServed ∧ (s.updCtx c f).taken = s.taken ∧ (s.updCtx c f).auth = s.auth ∧
    (s.updCtx c f).pendings = s.pendings ∧ (s.updCtx c f).staged = s.staged ∧ (s.updCtx c f).pool = s.pool ∧ (s.updCtx c f).lines = s.lines ∧
    (s.updCtx c f).stks = s.stks ∧ (s.updCtx c f).layout = s.layout ∧ (s.updCtx c f).rebuild = s.rebuild ∧ (s.updCtx c f).policy = s.policy ∧
    (s.updCtx c f).extents = s.extents ∧ (s.updCtx c f).revocations = s.revocations ∧ (s.updCtx c f).sync = s.sync ∧ (s.updCtx c f).seqs = s.seqs ∧
    (s.updCtx c f).scheds = s.scheds ∧ (s.updCtx c f).loads = s.loads ∧ (s.updCtx c f).readyHeld = s.readyHeld ∧
    (s.updCtx c f).startCopies = s.startCopies ∧ (s.updCtx c f).engines = s.engines ∧ (s.updCtx c f).locals = s.locals ∧
    (s.updCtx c f).endpoints = s.endpoints ∧ (s.updCtx c f).forwards = s.forwards ∧ (s.updCtx c f).sessions = s.sessions ∧
    (s.updCtx c f).outstanding = s.outstanding ∧ (s.updCtx c f).reasms = s.reasms ∧ (s.updCtx c f).job = s.job ∧ (s.updCtx c f).qps = s.qps ∧
    (s.updCtx c f).agents = s.agents ∧ (s.updCtx c f).tally = s.tally ∧ (s.updCtx c f).txns = s.txns ∧ (s.updCtx c f).cohQueue = s.cohQueue ∧
    (s.updCtx c f).ncReqs = s.ncReqs ∧ (s.updCtx c f).xbar = s.xbar ∧ (s.updCtx c f).xcache = s.xcache ∧ (s.updCtx c f).drains = s.drains ∧
    (s.updCtx c f).meters = s.meters ∧ (s.updCtx c f).epMeters = s.epMeters ∧ (s.updCtx c f).classMap = s.classMap ∧ (s.updCtx c f).quads = s.quads ∧
    (s.updCtx c f).ports = s.ports ∧ (s.updCtx c f).ptp = s.ptp ∧ (s.updCtx c f).staging = s.staging ∧ (s.updCtx c f).counters = s.counters ∧
    (s.updCtx c f).streams = s.streams ∧ (s.updCtx c f).counts = s.counts ∧ (s.updCtx c f).arrivals = s.arrivals ∧ (s.updCtx c f).wire = s.wire ∧
    (s.updCtx c f).free = s.free := by
  simp [State.updCtx]

@[simp] theorem State.updCtx_ctx (c : Nat) (f : Ctx → Ctx) : (s.updCtx c f).ctx c = f (s.ctx c) := by simp [State.updCtx, State.ctx]

theorem State.updCtx_ctx_other {c : Nat} (f : Ctx → Ctx) {j : Nat} (h : j ≠ c) : (s.updCtx c f).ctx j = s.ctx j := by
  simp [State.updCtx, State.ctx, tgetD_tupd_other _ _ _ h]

/-- `updExtent` changes `extents` alone. -/
@[simp] theorem State.updExtent_keeps (e : Nat) (f : Extent → Extent) :
    (s.updExtent e f).pending = s.pending ∧ (s.updExtent e f).build = s.build ∧ (s.updExtent e f).now = s.now ∧ (s.updExtent e f).clock = s.clock ∧
    (s.updExtent e f).pins = s.pins ∧ (s.updExtent e f).aon = s.aon ∧ (s.updExtent e f).flash = s.flash ∧ (s.updExtent e f).dev = s.dev ∧
    (s.updExtent e f).pages = s.pages ∧ (s.updExtent e f).lastServed = s.lastServed ∧ (s.updExtent e f).taken = s.taken ∧
    (s.updExtent e f).auth = s.auth ∧ (s.updExtent e f).pendings = s.pendings ∧ (s.updExtent e f).staged = s.staged ∧
    (s.updExtent e f).pool = s.pool ∧ (s.updExtent e f).lines = s.lines ∧ (s.updExtent e f).stks = s.stks ∧ (s.updExtent e f).layout = s.layout ∧
    (s.updExtent e f).rebuild = s.rebuild ∧ (s.updExtent e f).policy = s.policy ∧ (s.updExtent e f).ctxs = s.ctxs ∧
    (s.updExtent e f).revocations = s.revocations ∧ (s.updExtent e f).sync = s.sync ∧ (s.updExtent e f).seqs = s.seqs ∧
    (s.updExtent e f).scheds = s.scheds ∧ (s.updExtent e f).loads = s.loads ∧ (s.updExtent e f).readyHeld = s.readyHeld ∧
    (s.updExtent e f).startCopies = s.startCopies ∧ (s.updExtent e f).engines = s.engines ∧ (s.updExtent e f).locals = s.locals ∧
    (s.updExtent e f).endpoints = s.endpoints ∧ (s.updExtent e f).forwards = s.forwards ∧ (s.updExtent e f).sessions = s.sessions ∧
    (s.updExtent e f).outstanding = s.outstanding ∧ (s.updExtent e f).reasms = s.reasms ∧ (s.updExtent e f).job = s.job ∧
    (s.updExtent e f).qps = s.qps ∧ (s.updExtent e f).agents = s.agents ∧ (s.updExtent e f).tally = s.tally ∧ (s.updExtent e f).txns = s.txns ∧
    (s.updExtent e f).cohQueue = s.cohQueue ∧ (s.updExtent e f).ncReqs = s.ncReqs ∧ (s.updExtent e f).xbar = s.xbar ∧
    (s.updExtent e f).xcache = s.xcache ∧ (s.updExtent e f).drains = s.drains ∧ (s.updExtent e f).meters = s.meters ∧
    (s.updExtent e f).epMeters = s.epMeters ∧ (s.updExtent e f).classMap = s.classMap ∧ (s.updExtent e f).quads = s.quads ∧
    (s.updExtent e f).ports = s.ports ∧ (s.updExtent e f).ptp = s.ptp ∧ (s.updExtent e f).staging = s.staging ∧
    (s.updExtent e f).counters = s.counters ∧ (s.updExtent e f).streams = s.streams ∧ (s.updExtent e f).counts = s.counts ∧
    (s.updExtent e f).arrivals = s.arrivals ∧ (s.updExtent e f).wire = s.wire ∧ (s.updExtent e f).free = s.free := by
  simp [State.updExtent]

@[simp] theorem State.updExtent_extent (e : Nat) (f : Extent → Extent) : (s.updExtent e f).extent e = f (s.extent e) := by simp [State.updExtent, State.extent]

theorem State.updExtent_extent_other {e : Nat} (f : Extent → Extent) {j : Nat} (h : j ≠ e) : (s.updExtent e f).extent j = s.extent j := by
  simp [State.updExtent, State.extent, tgetD_tupd_other _ _ _ h]

/-- `updSync` changes `sync` alone. -/
@[simp] theorem State.updSync_keeps (i : Nat) (f : SyncObj → SyncObj) :
    (s.updSync i f).pending = s.pending ∧ (s.updSync i f).build = s.build ∧ (s.updSync i f).now = s.now ∧ (s.updSync i f).clock = s.clock ∧
    (s.updSync i f).pins = s.pins ∧ (s.updSync i f).aon = s.aon ∧ (s.updSync i f).flash = s.flash ∧ (s.updSync i f).dev = s.dev ∧
    (s.updSync i f).pages = s.pages ∧ (s.updSync i f).lastServed = s.lastServed ∧ (s.updSync i f).taken = s.taken ∧ (s.updSync i f).auth = s.auth ∧
    (s.updSync i f).pendings = s.pendings ∧ (s.updSync i f).staged = s.staged ∧ (s.updSync i f).pool = s.pool ∧ (s.updSync i f).lines = s.lines ∧
    (s.updSync i f).stks = s.stks ∧ (s.updSync i f).layout = s.layout ∧ (s.updSync i f).rebuild = s.rebuild ∧ (s.updSync i f).policy = s.policy ∧
    (s.updSync i f).ctxs = s.ctxs ∧ (s.updSync i f).extents = s.extents ∧ (s.updSync i f).revocations = s.revocations ∧
    (s.updSync i f).seqs = s.seqs ∧ (s.updSync i f).scheds = s.scheds ∧ (s.updSync i f).loads = s.loads ∧ (s.updSync i f).readyHeld = s.readyHeld ∧
    (s.updSync i f).startCopies = s.startCopies ∧ (s.updSync i f).engines = s.engines ∧ (s.updSync i f).locals = s.locals ∧
    (s.updSync i f).endpoints = s.endpoints ∧ (s.updSync i f).forwards = s.forwards ∧ (s.updSync i f).sessions = s.sessions ∧
    (s.updSync i f).outstanding = s.outstanding ∧ (s.updSync i f).reasms = s.reasms ∧ (s.updSync i f).job = s.job ∧ (s.updSync i f).qps = s.qps ∧
    (s.updSync i f).agents = s.agents ∧ (s.updSync i f).tally = s.tally ∧ (s.updSync i f).txns = s.txns ∧ (s.updSync i f).cohQueue = s.cohQueue ∧
    (s.updSync i f).ncReqs = s.ncReqs ∧ (s.updSync i f).xbar = s.xbar ∧ (s.updSync i f).xcache = s.xcache ∧ (s.updSync i f).drains = s.drains ∧
    (s.updSync i f).meters = s.meters ∧ (s.updSync i f).epMeters = s.epMeters ∧ (s.updSync i f).classMap = s.classMap ∧
    (s.updSync i f).quads = s.quads ∧ (s.updSync i f).ports = s.ports ∧ (s.updSync i f).ptp = s.ptp ∧ (s.updSync i f).staging = s.staging ∧
    (s.updSync i f).counters = s.counters ∧ (s.updSync i f).streams = s.streams ∧ (s.updSync i f).counts = s.counts ∧
    (s.updSync i f).arrivals = s.arrivals ∧ (s.updSync i f).wire = s.wire ∧ (s.updSync i f).free = s.free := by
  simp [State.updSync]

@[simp] theorem State.updSync_syncObj (i : Nat) (f : SyncObj → SyncObj) : (s.updSync i f).syncObj i = f (s.syncObj i) := by simp [State.updSync, State.syncObj]

theorem State.updSync_syncObj_other {i : Nat} (f : SyncObj → SyncObj) {j : Nat} (h : j ≠ i) : (s.updSync i f).syncObj j = s.syncObj j := by
  simp [State.updSync, State.syncObj, tgetD_tupd_other _ _ _ h]

/-- `updSeq` changes `seqs` alone. -/
@[simp] theorem State.updSeq_keeps (i : Nat) (f : SeqEntry → SeqEntry) :
    (s.updSeq i f).pending = s.pending ∧ (s.updSeq i f).build = s.build ∧ (s.updSeq i f).now = s.now ∧ (s.updSeq i f).clock = s.clock ∧
    (s.updSeq i f).pins = s.pins ∧ (s.updSeq i f).aon = s.aon ∧ (s.updSeq i f).flash = s.flash ∧ (s.updSeq i f).dev = s.dev ∧
    (s.updSeq i f).pages = s.pages ∧ (s.updSeq i f).lastServed = s.lastServed ∧ (s.updSeq i f).taken = s.taken ∧ (s.updSeq i f).auth = s.auth ∧
    (s.updSeq i f).pendings = s.pendings ∧ (s.updSeq i f).staged = s.staged ∧ (s.updSeq i f).pool = s.pool ∧ (s.updSeq i f).lines = s.lines ∧
    (s.updSeq i f).stks = s.stks ∧ (s.updSeq i f).layout = s.layout ∧ (s.updSeq i f).rebuild = s.rebuild ∧ (s.updSeq i f).policy = s.policy ∧
    (s.updSeq i f).ctxs = s.ctxs ∧ (s.updSeq i f).extents = s.extents ∧ (s.updSeq i f).revocations = s.revocations ∧ (s.updSeq i f).sync = s.sync ∧
    (s.updSeq i f).scheds = s.scheds ∧ (s.updSeq i f).loads = s.loads ∧ (s.updSeq i f).readyHeld = s.readyHeld ∧
    (s.updSeq i f).startCopies = s.startCopies ∧ (s.updSeq i f).engines = s.engines ∧ (s.updSeq i f).locals = s.locals ∧
    (s.updSeq i f).endpoints = s.endpoints ∧ (s.updSeq i f).forwards = s.forwards ∧ (s.updSeq i f).sessions = s.sessions ∧
    (s.updSeq i f).outstanding = s.outstanding ∧ (s.updSeq i f).reasms = s.reasms ∧ (s.updSeq i f).job = s.job ∧ (s.updSeq i f).qps = s.qps ∧
    (s.updSeq i f).agents = s.agents ∧ (s.updSeq i f).tally = s.tally ∧ (s.updSeq i f).txns = s.txns ∧ (s.updSeq i f).cohQueue = s.cohQueue ∧
    (s.updSeq i f).ncReqs = s.ncReqs ∧ (s.updSeq i f).xbar = s.xbar ∧ (s.updSeq i f).xcache = s.xcache ∧ (s.updSeq i f).drains = s.drains ∧
    (s.updSeq i f).meters = s.meters ∧ (s.updSeq i f).epMeters = s.epMeters ∧ (s.updSeq i f).classMap = s.classMap ∧ (s.updSeq i f).quads = s.quads ∧
    (s.updSeq i f).ports = s.ports ∧ (s.updSeq i f).ptp = s.ptp ∧ (s.updSeq i f).staging = s.staging ∧ (s.updSeq i f).counters = s.counters ∧
    (s.updSeq i f).streams = s.streams ∧ (s.updSeq i f).counts = s.counts ∧ (s.updSeq i f).arrivals = s.arrivals ∧ (s.updSeq i f).wire = s.wire ∧
    (s.updSeq i f).free = s.free := by
  simp [State.updSeq]

@[simp] theorem State.updSeq_seqEntry (i : Nat) (f : SeqEntry → SeqEntry) : (s.updSeq i f).seqEntry i = f (s.seqEntry i) := by simp [State.updSeq, State.seqEntry]

theorem State.updSeq_seqEntry_other {i : Nat} (f : SeqEntry → SeqEntry) {j : Nat} (h : j ≠ i) : (s.updSeq i f).seqEntry j = s.seqEntry j := by
  simp [State.updSeq, State.seqEntry, tgetD_tupd_other _ _ _ h]

/-- `updSched` changes `scheds` alone. -/
@[simp] theorem State.updSched_keeps (n : Nat) (f : Sched → Sched) :
    (s.updSched n f).pending = s.pending ∧ (s.updSched n f).build = s.build ∧ (s.updSched n f).now = s.now ∧ (s.updSched n f).clock = s.clock ∧
    (s.updSched n f).pins = s.pins ∧ (s.updSched n f).aon = s.aon ∧ (s.updSched n f).flash = s.flash ∧ (s.updSched n f).dev = s.dev ∧
    (s.updSched n f).pages = s.pages ∧ (s.updSched n f).lastServed = s.lastServed ∧ (s.updSched n f).taken = s.taken ∧
    (s.updSched n f).auth = s.auth ∧ (s.updSched n f).pendings = s.pendings ∧ (s.updSched n f).staged = s.staged ∧ (s.updSched n f).pool = s.pool ∧
    (s.updSched n f).lines = s.lines ∧ (s.updSched n f).stks = s.stks ∧ (s.updSched n f).layout = s.layout ∧ (s.updSched n f).rebuild = s.rebuild ∧
    (s.updSched n f).policy = s.policy ∧ (s.updSched n f).ctxs = s.ctxs ∧ (s.updSched n f).extents = s.extents ∧
    (s.updSched n f).revocations = s.revocations ∧ (s.updSched n f).sync = s.sync ∧ (s.updSched n f).seqs = s.seqs ∧
    (s.updSched n f).loads = s.loads ∧ (s.updSched n f).readyHeld = s.readyHeld ∧ (s.updSched n f).startCopies = s.startCopies ∧
    (s.updSched n f).engines = s.engines ∧ (s.updSched n f).locals = s.locals ∧ (s.updSched n f).endpoints = s.endpoints ∧
    (s.updSched n f).forwards = s.forwards ∧ (s.updSched n f).sessions = s.sessions ∧ (s.updSched n f).outstanding = s.outstanding ∧
    (s.updSched n f).reasms = s.reasms ∧ (s.updSched n f).job = s.job ∧ (s.updSched n f).qps = s.qps ∧ (s.updSched n f).agents = s.agents ∧
    (s.updSched n f).tally = s.tally ∧ (s.updSched n f).txns = s.txns ∧ (s.updSched n f).cohQueue = s.cohQueue ∧ (s.updSched n f).ncReqs = s.ncReqs ∧
    (s.updSched n f).xbar = s.xbar ∧ (s.updSched n f).xcache = s.xcache ∧ (s.updSched n f).drains = s.drains ∧ (s.updSched n f).meters = s.meters ∧
    (s.updSched n f).epMeters = s.epMeters ∧ (s.updSched n f).classMap = s.classMap ∧ (s.updSched n f).quads = s.quads ∧
    (s.updSched n f).ports = s.ports ∧ (s.updSched n f).ptp = s.ptp ∧ (s.updSched n f).staging = s.staging ∧ (s.updSched n f).counters = s.counters ∧
    (s.updSched n f).streams = s.streams ∧ (s.updSched n f).counts = s.counts ∧ (s.updSched n f).arrivals = s.arrivals ∧
    (s.updSched n f).wire = s.wire ∧ (s.updSched n f).free = s.free := by
  unfold State.updSched
  split <;> simp

/-- `updEngine` changes `engines` alone. -/
@[simp] theorem State.updEngine_keeps (p : Nat) (f : Engine → Engine) :
    (s.updEngine p f).pending = s.pending ∧ (s.updEngine p f).build = s.build ∧ (s.updEngine p f).now = s.now ∧ (s.updEngine p f).clock = s.clock ∧
    (s.updEngine p f).pins = s.pins ∧ (s.updEngine p f).aon = s.aon ∧ (s.updEngine p f).flash = s.flash ∧ (s.updEngine p f).dev = s.dev ∧
    (s.updEngine p f).pages = s.pages ∧ (s.updEngine p f).lastServed = s.lastServed ∧ (s.updEngine p f).taken = s.taken ∧
    (s.updEngine p f).auth = s.auth ∧ (s.updEngine p f).pendings = s.pendings ∧ (s.updEngine p f).staged = s.staged ∧
    (s.updEngine p f).pool = s.pool ∧ (s.updEngine p f).lines = s.lines ∧ (s.updEngine p f).stks = s.stks ∧ (s.updEngine p f).layout = s.layout ∧
    (s.updEngine p f).rebuild = s.rebuild ∧ (s.updEngine p f).policy = s.policy ∧ (s.updEngine p f).ctxs = s.ctxs ∧
    (s.updEngine p f).extents = s.extents ∧ (s.updEngine p f).revocations = s.revocations ∧ (s.updEngine p f).sync = s.sync ∧
    (s.updEngine p f).seqs = s.seqs ∧ (s.updEngine p f).scheds = s.scheds ∧ (s.updEngine p f).loads = s.loads ∧
    (s.updEngine p f).readyHeld = s.readyHeld ∧ (s.updEngine p f).startCopies = s.startCopies ∧ (s.updEngine p f).locals = s.locals ∧
    (s.updEngine p f).endpoints = s.endpoints ∧ (s.updEngine p f).forwards = s.forwards ∧ (s.updEngine p f).sessions = s.sessions ∧
    (s.updEngine p f).outstanding = s.outstanding ∧ (s.updEngine p f).reasms = s.reasms ∧ (s.updEngine p f).job = s.job ∧
    (s.updEngine p f).qps = s.qps ∧ (s.updEngine p f).agents = s.agents ∧ (s.updEngine p f).tally = s.tally ∧ (s.updEngine p f).txns = s.txns ∧
    (s.updEngine p f).cohQueue = s.cohQueue ∧ (s.updEngine p f).ncReqs = s.ncReqs ∧ (s.updEngine p f).xbar = s.xbar ∧
    (s.updEngine p f).xcache = s.xcache ∧ (s.updEngine p f).drains = s.drains ∧ (s.updEngine p f).meters = s.meters ∧
    (s.updEngine p f).epMeters = s.epMeters ∧ (s.updEngine p f).classMap = s.classMap ∧ (s.updEngine p f).quads = s.quads ∧
    (s.updEngine p f).ports = s.ports ∧ (s.updEngine p f).ptp = s.ptp ∧ (s.updEngine p f).staging = s.staging ∧
    (s.updEngine p f).counters = s.counters ∧ (s.updEngine p f).streams = s.streams ∧ (s.updEngine p f).counts = s.counts ∧
    (s.updEngine p f).arrivals = s.arrivals ∧ (s.updEngine p f).wire = s.wire ∧ (s.updEngine p f).free = s.free := by
  simp [State.updEngine]

@[simp] theorem State.updEngine_engine (p : Nat) (f : Engine → Engine) : (s.updEngine p f).engine p = f (s.engine p) := by simp [State.updEngine, State.engine]

theorem State.updEngine_engine_other {p : Nat} (f : Engine → Engine) {j : Nat} (h : j ≠ p) : (s.updEngine p f).engine j = s.engine j := by
  simp [State.updEngine, State.engine, tgetD_tupd_other _ _ _ h]

/-- `updStack` changes `stks` alone. -/
@[simp] theorem State.updStack_keeps (k : Nat) (f : Stack → Stack) :
    (s.updStack k f).pending = s.pending ∧ (s.updStack k f).build = s.build ∧ (s.updStack k f).now = s.now ∧ (s.updStack k f).clock = s.clock ∧
    (s.updStack k f).pins = s.pins ∧ (s.updStack k f).aon = s.aon ∧ (s.updStack k f).flash = s.flash ∧ (s.updStack k f).dev = s.dev ∧
    (s.updStack k f).pages = s.pages ∧ (s.updStack k f).lastServed = s.lastServed ∧ (s.updStack k f).taken = s.taken ∧
    (s.updStack k f).auth = s.auth ∧ (s.updStack k f).pendings = s.pendings ∧ (s.updStack k f).staged = s.staged ∧ (s.updStack k f).pool = s.pool ∧
    (s.updStack k f).lines = s.lines ∧ (s.updStack k f).layout = s.layout ∧ (s.updStack k f).rebuild = s.rebuild ∧
    (s.updStack k f).policy = s.policy ∧ (s.updStack k f).ctxs = s.ctxs ∧ (s.updStack k f).extents = s.extents ∧
    (s.updStack k f).revocations = s.revocations ∧ (s.updStack k f).sync = s.sync ∧ (s.updStack k f).seqs = s.seqs ∧
    (s.updStack k f).scheds = s.scheds ∧ (s.updStack k f).loads = s.loads ∧ (s.updStack k f).readyHeld = s.readyHeld ∧
    (s.updStack k f).startCopies = s.startCopies ∧ (s.updStack k f).engines = s.engines ∧ (s.updStack k f).locals = s.locals ∧
    (s.updStack k f).endpoints = s.endpoints ∧ (s.updStack k f).forwards = s.forwards ∧ (s.updStack k f).sessions = s.sessions ∧
    (s.updStack k f).outstanding = s.outstanding ∧ (s.updStack k f).reasms = s.reasms ∧ (s.updStack k f).job = s.job ∧ (s.updStack k f).qps = s.qps ∧
    (s.updStack k f).agents = s.agents ∧ (s.updStack k f).tally = s.tally ∧ (s.updStack k f).txns = s.txns ∧ (s.updStack k f).cohQueue = s.cohQueue ∧
    (s.updStack k f).ncReqs = s.ncReqs ∧ (s.updStack k f).xbar = s.xbar ∧ (s.updStack k f).xcache = s.xcache ∧ (s.updStack k f).drains = s.drains ∧
    (s.updStack k f).meters = s.meters ∧ (s.updStack k f).epMeters = s.epMeters ∧ (s.updStack k f).classMap = s.classMap ∧
    (s.updStack k f).quads = s.quads ∧ (s.updStack k f).ports = s.ports ∧ (s.updStack k f).ptp = s.ptp ∧ (s.updStack k f).staging = s.staging ∧
    (s.updStack k f).counters = s.counters ∧ (s.updStack k f).streams = s.streams ∧ (s.updStack k f).counts = s.counts ∧
    (s.updStack k f).arrivals = s.arrivals ∧ (s.updStack k f).wire = s.wire ∧ (s.updStack k f).free = s.free := by
  simp [State.updStack]

@[simp] theorem State.updStack_stack (k : Nat) (f : Stack → Stack) : (s.updStack k f).stack k = f (s.stack k) := by simp [State.updStack, State.stack]

theorem State.updStack_stack_other {k : Nat} (f : Stack → Stack) {j : Nat} (h : j ≠ k) : (s.updStack k f).stack j = s.stack j := by
  simp [State.updStack, State.stack, tgetD_tupd_other _ _ _ h]

/-- `updSession` changes `sessions` alone. -/
@[simp] theorem State.updSession_keeps (i : Nat) (f : Session → Session) :
    (s.updSession i f).pending = s.pending ∧ (s.updSession i f).build = s.build ∧ (s.updSession i f).now = s.now ∧
    (s.updSession i f).clock = s.clock ∧ (s.updSession i f).pins = s.pins ∧ (s.updSession i f).aon = s.aon ∧ (s.updSession i f).flash = s.flash ∧
    (s.updSession i f).dev = s.dev ∧ (s.updSession i f).pages = s.pages ∧ (s.updSession i f).lastServed = s.lastServed ∧
    (s.updSession i f).taken = s.taken ∧ (s.updSession i f).auth = s.auth ∧ (s.updSession i f).pendings = s.pendings ∧
    (s.updSession i f).staged = s.staged ∧ (s.updSession i f).pool = s.pool ∧ (s.updSession i f).lines = s.lines ∧ (s.updSession i f).stks = s.stks ∧
    (s.updSession i f).layout = s.layout ∧ (s.updSession i f).rebuild = s.rebuild ∧ (s.updSession i f).policy = s.policy ∧
    (s.updSession i f).ctxs = s.ctxs ∧ (s.updSession i f).extents = s.extents ∧ (s.updSession i f).revocations = s.revocations ∧
    (s.updSession i f).sync = s.sync ∧ (s.updSession i f).seqs = s.seqs ∧ (s.updSession i f).scheds = s.scheds ∧ (s.updSession i f).loads = s.loads ∧
    (s.updSession i f).readyHeld = s.readyHeld ∧ (s.updSession i f).startCopies = s.startCopies ∧ (s.updSession i f).engines = s.engines ∧
    (s.updSession i f).locals = s.locals ∧ (s.updSession i f).endpoints = s.endpoints ∧ (s.updSession i f).forwards = s.forwards ∧
    (s.updSession i f).outstanding = s.outstanding ∧ (s.updSession i f).reasms = s.reasms ∧ (s.updSession i f).job = s.job ∧
    (s.updSession i f).qps = s.qps ∧ (s.updSession i f).agents = s.agents ∧ (s.updSession i f).tally = s.tally ∧ (s.updSession i f).txns = s.txns ∧
    (s.updSession i f).cohQueue = s.cohQueue ∧ (s.updSession i f).ncReqs = s.ncReqs ∧ (s.updSession i f).xbar = s.xbar ∧
    (s.updSession i f).xcache = s.xcache ∧ (s.updSession i f).drains = s.drains ∧ (s.updSession i f).meters = s.meters ∧
    (s.updSession i f).epMeters = s.epMeters ∧ (s.updSession i f).classMap = s.classMap ∧ (s.updSession i f).quads = s.quads ∧
    (s.updSession i f).ports = s.ports ∧ (s.updSession i f).ptp = s.ptp ∧ (s.updSession i f).staging = s.staging ∧
    (s.updSession i f).counters = s.counters ∧ (s.updSession i f).streams = s.streams ∧ (s.updSession i f).counts = s.counts ∧
    (s.updSession i f).arrivals = s.arrivals ∧ (s.updSession i f).wire = s.wire ∧ (s.updSession i f).free = s.free := by
  simp [State.updSession]

@[simp] theorem State.updSession_session (i : Nat) (f : Session → Session) : (s.updSession i f).session i = f (s.session i) := by simp [State.updSession, State.session]

theorem State.updSession_session_other {i : Nat} (f : Session → Session) {j : Nat} (h : j ≠ i) : (s.updSession i f).session j = s.session j := by
  simp [State.updSession, State.session, tgetD_tupd_other _ _ _ h]

/-- `updQp` changes `qps` alone. -/
@[simp] theorem State.updQp_keeps (q : Nat) (f : Qp → Qp) :
    (s.updQp q f).pending = s.pending ∧ (s.updQp q f).build = s.build ∧ (s.updQp q f).now = s.now ∧ (s.updQp q f).clock = s.clock ∧
    (s.updQp q f).pins = s.pins ∧ (s.updQp q f).aon = s.aon ∧ (s.updQp q f).flash = s.flash ∧ (s.updQp q f).dev = s.dev ∧
    (s.updQp q f).pages = s.pages ∧ (s.updQp q f).lastServed = s.lastServed ∧ (s.updQp q f).taken = s.taken ∧ (s.updQp q f).auth = s.auth ∧
    (s.updQp q f).pendings = s.pendings ∧ (s.updQp q f).staged = s.staged ∧ (s.updQp q f).pool = s.pool ∧ (s.updQp q f).lines = s.lines ∧
    (s.updQp q f).stks = s.stks ∧ (s.updQp q f).layout = s.layout ∧ (s.updQp q f).rebuild = s.rebuild ∧ (s.updQp q f).policy = s.policy ∧
    (s.updQp q f).ctxs = s.ctxs ∧ (s.updQp q f).extents = s.extents ∧ (s.updQp q f).revocations = s.revocations ∧ (s.updQp q f).sync = s.sync ∧
    (s.updQp q f).seqs = s.seqs ∧ (s.updQp q f).scheds = s.scheds ∧ (s.updQp q f).loads = s.loads ∧ (s.updQp q f).readyHeld = s.readyHeld ∧
    (s.updQp q f).startCopies = s.startCopies ∧ (s.updQp q f).engines = s.engines ∧ (s.updQp q f).locals = s.locals ∧
    (s.updQp q f).endpoints = s.endpoints ∧ (s.updQp q f).forwards = s.forwards ∧ (s.updQp q f).sessions = s.sessions ∧
    (s.updQp q f).outstanding = s.outstanding ∧ (s.updQp q f).reasms = s.reasms ∧ (s.updQp q f).job = s.job ∧ (s.updQp q f).agents = s.agents ∧
    (s.updQp q f).tally = s.tally ∧ (s.updQp q f).txns = s.txns ∧ (s.updQp q f).cohQueue = s.cohQueue ∧ (s.updQp q f).ncReqs = s.ncReqs ∧
    (s.updQp q f).xbar = s.xbar ∧ (s.updQp q f).xcache = s.xcache ∧ (s.updQp q f).drains = s.drains ∧ (s.updQp q f).meters = s.meters ∧
    (s.updQp q f).epMeters = s.epMeters ∧ (s.updQp q f).classMap = s.classMap ∧ (s.updQp q f).quads = s.quads ∧ (s.updQp q f).ports = s.ports ∧
    (s.updQp q f).ptp = s.ptp ∧ (s.updQp q f).staging = s.staging ∧ (s.updQp q f).counters = s.counters ∧ (s.updQp q f).streams = s.streams ∧
    (s.updQp q f).counts = s.counts ∧ (s.updQp q f).arrivals = s.arrivals ∧ (s.updQp q f).wire = s.wire ∧ (s.updQp q f).free = s.free := by
  simp [State.updQp]

@[simp] theorem State.updQp_qp (q : Nat) (f : Qp → Qp) : (s.updQp q f).qp q = f (s.qp q) := by simp [State.updQp, State.qp]

theorem State.updQp_qp_other {q : Nat} (f : Qp → Qp) {j : Nat} (h : j ≠ q) : (s.updQp q f).qp j = s.qp j := by
  simp [State.updQp, State.qp, tgetD_tupd_other _ _ _ h]

/-- `updAgent` changes `agents` alone. -/
@[simp] theorem State.updAgent_keeps (a : Nat) (f : Agent → Agent) :
    (s.updAgent a f).pending = s.pending ∧ (s.updAgent a f).build = s.build ∧ (s.updAgent a f).now = s.now ∧ (s.updAgent a f).clock = s.clock ∧
    (s.updAgent a f).pins = s.pins ∧ (s.updAgent a f).aon = s.aon ∧ (s.updAgent a f).flash = s.flash ∧ (s.updAgent a f).dev = s.dev ∧
    (s.updAgent a f).pages = s.pages ∧ (s.updAgent a f).lastServed = s.lastServed ∧ (s.updAgent a f).taken = s.taken ∧
    (s.updAgent a f).auth = s.auth ∧ (s.updAgent a f).pendings = s.pendings ∧ (s.updAgent a f).staged = s.staged ∧ (s.updAgent a f).pool = s.pool ∧
    (s.updAgent a f).lines = s.lines ∧ (s.updAgent a f).stks = s.stks ∧ (s.updAgent a f).layout = s.layout ∧ (s.updAgent a f).rebuild = s.rebuild ∧
    (s.updAgent a f).policy = s.policy ∧ (s.updAgent a f).ctxs = s.ctxs ∧ (s.updAgent a f).extents = s.extents ∧
    (s.updAgent a f).revocations = s.revocations ∧ (s.updAgent a f).sync = s.sync ∧ (s.updAgent a f).seqs = s.seqs ∧
    (s.updAgent a f).scheds = s.scheds ∧ (s.updAgent a f).loads = s.loads ∧ (s.updAgent a f).readyHeld = s.readyHeld ∧
    (s.updAgent a f).startCopies = s.startCopies ∧ (s.updAgent a f).engines = s.engines ∧ (s.updAgent a f).locals = s.locals ∧
    (s.updAgent a f).endpoints = s.endpoints ∧ (s.updAgent a f).forwards = s.forwards ∧ (s.updAgent a f).sessions = s.sessions ∧
    (s.updAgent a f).outstanding = s.outstanding ∧ (s.updAgent a f).reasms = s.reasms ∧ (s.updAgent a f).job = s.job ∧ (s.updAgent a f).qps = s.qps ∧
    (s.updAgent a f).tally = s.tally ∧ (s.updAgent a f).txns = s.txns ∧ (s.updAgent a f).cohQueue = s.cohQueue ∧ (s.updAgent a f).ncReqs = s.ncReqs ∧
    (s.updAgent a f).xbar = s.xbar ∧ (s.updAgent a f).xcache = s.xcache ∧ (s.updAgent a f).drains = s.drains ∧ (s.updAgent a f).meters = s.meters ∧
    (s.updAgent a f).epMeters = s.epMeters ∧ (s.updAgent a f).classMap = s.classMap ∧ (s.updAgent a f).quads = s.quads ∧
    (s.updAgent a f).ports = s.ports ∧ (s.updAgent a f).ptp = s.ptp ∧ (s.updAgent a f).staging = s.staging ∧ (s.updAgent a f).counters = s.counters ∧
    (s.updAgent a f).streams = s.streams ∧ (s.updAgent a f).counts = s.counts ∧ (s.updAgent a f).arrivals = s.arrivals ∧
    (s.updAgent a f).wire = s.wire ∧ (s.updAgent a f).free = s.free := by
  unfold State.updAgent
  split <;> simp

/-- `updPort` changes `ports` alone. -/
@[simp] theorem State.updPort_keeps (q : Nat) (f : Port → Port) :
    (s.updPort q f).pending = s.pending ∧ (s.updPort q f).build = s.build ∧ (s.updPort q f).now = s.now ∧ (s.updPort q f).clock = s.clock ∧
    (s.updPort q f).pins = s.pins ∧ (s.updPort q f).aon = s.aon ∧ (s.updPort q f).flash = s.flash ∧ (s.updPort q f).dev = s.dev ∧
    (s.updPort q f).pages = s.pages ∧ (s.updPort q f).lastServed = s.lastServed ∧ (s.updPort q f).taken = s.taken ∧ (s.updPort q f).auth = s.auth ∧
    (s.updPort q f).pendings = s.pendings ∧ (s.updPort q f).staged = s.staged ∧ (s.updPort q f).pool = s.pool ∧ (s.updPort q f).lines = s.lines ∧
    (s.updPort q f).stks = s.stks ∧ (s.updPort q f).layout = s.layout ∧ (s.updPort q f).rebuild = s.rebuild ∧ (s.updPort q f).policy = s.policy ∧
    (s.updPort q f).ctxs = s.ctxs ∧ (s.updPort q f).extents = s.extents ∧ (s.updPort q f).revocations = s.revocations ∧
    (s.updPort q f).sync = s.sync ∧ (s.updPort q f).seqs = s.seqs ∧ (s.updPort q f).scheds = s.scheds ∧ (s.updPort q f).loads = s.loads ∧
    (s.updPort q f).readyHeld = s.readyHeld ∧ (s.updPort q f).startCopies = s.startCopies ∧ (s.updPort q f).engines = s.engines ∧
    (s.updPort q f).locals = s.locals ∧ (s.updPort q f).endpoints = s.endpoints ∧ (s.updPort q f).forwards = s.forwards ∧
    (s.updPort q f).sessions = s.sessions ∧ (s.updPort q f).outstanding = s.outstanding ∧ (s.updPort q f).reasms = s.reasms ∧
    (s.updPort q f).job = s.job ∧ (s.updPort q f).qps = s.qps ∧ (s.updPort q f).agents = s.agents ∧ (s.updPort q f).tally = s.tally ∧
    (s.updPort q f).txns = s.txns ∧ (s.updPort q f).cohQueue = s.cohQueue ∧ (s.updPort q f).ncReqs = s.ncReqs ∧ (s.updPort q f).xbar = s.xbar ∧
    (s.updPort q f).xcache = s.xcache ∧ (s.updPort q f).drains = s.drains ∧ (s.updPort q f).meters = s.meters ∧
    (s.updPort q f).epMeters = s.epMeters ∧ (s.updPort q f).classMap = s.classMap ∧ (s.updPort q f).quads = s.quads ∧ (s.updPort q f).ptp = s.ptp ∧
    (s.updPort q f).staging = s.staging ∧ (s.updPort q f).counters = s.counters ∧ (s.updPort q f).streams = s.streams ∧
    (s.updPort q f).counts = s.counts ∧ (s.updPort q f).arrivals = s.arrivals ∧ (s.updPort q f).wire = s.wire ∧ (s.updPort q f).free = s.free := by
  simp [State.updPort]

@[simp] theorem State.updPort_port (q : Nat) (f : Port → Port) : (s.updPort q f).port q = f (s.port q) := by simp [State.updPort, State.port]

theorem State.updPort_port_other {q : Nat} (f : Port → Port) {j : Nat} (h : j ≠ q) : (s.updPort q f).port j = s.port j := by
  simp [State.updPort, State.port, tgetD_tupd_other _ _ _ h]

/-- `updQuad` changes `quads` alone. -/
@[simp] theorem State.updQuad_keeps (k : Nat) (f : Quad → Quad) :
    (s.updQuad k f).pending = s.pending ∧ (s.updQuad k f).build = s.build ∧ (s.updQuad k f).now = s.now ∧ (s.updQuad k f).clock = s.clock ∧
    (s.updQuad k f).pins = s.pins ∧ (s.updQuad k f).aon = s.aon ∧ (s.updQuad k f).flash = s.flash ∧ (s.updQuad k f).dev = s.dev ∧
    (s.updQuad k f).pages = s.pages ∧ (s.updQuad k f).lastServed = s.lastServed ∧ (s.updQuad k f).taken = s.taken ∧ (s.updQuad k f).auth = s.auth ∧
    (s.updQuad k f).pendings = s.pendings ∧ (s.updQuad k f).staged = s.staged ∧ (s.updQuad k f).pool = s.pool ∧ (s.updQuad k f).lines = s.lines ∧
    (s.updQuad k f).stks = s.stks ∧ (s.updQuad k f).layout = s.layout ∧ (s.updQuad k f).rebuild = s.rebuild ∧ (s.updQuad k f).policy = s.policy ∧
    (s.updQuad k f).ctxs = s.ctxs ∧ (s.updQuad k f).extents = s.extents ∧ (s.updQuad k f).revocations = s.revocations ∧
    (s.updQuad k f).sync = s.sync ∧ (s.updQuad k f).seqs = s.seqs ∧ (s.updQuad k f).scheds = s.scheds ∧ (s.updQuad k f).loads = s.loads ∧
    (s.updQuad k f).readyHeld = s.readyHeld ∧ (s.updQuad k f).startCopies = s.startCopies ∧ (s.updQuad k f).engines = s.engines ∧
    (s.updQuad k f).locals = s.locals ∧ (s.updQuad k f).endpoints = s.endpoints ∧ (s.updQuad k f).forwards = s.forwards ∧
    (s.updQuad k f).sessions = s.sessions ∧ (s.updQuad k f).outstanding = s.outstanding ∧ (s.updQuad k f).reasms = s.reasms ∧
    (s.updQuad k f).job = s.job ∧ (s.updQuad k f).qps = s.qps ∧ (s.updQuad k f).agents = s.agents ∧ (s.updQuad k f).tally = s.tally ∧
    (s.updQuad k f).txns = s.txns ∧ (s.updQuad k f).cohQueue = s.cohQueue ∧ (s.updQuad k f).ncReqs = s.ncReqs ∧ (s.updQuad k f).xbar = s.xbar ∧
    (s.updQuad k f).xcache = s.xcache ∧ (s.updQuad k f).drains = s.drains ∧ (s.updQuad k f).meters = s.meters ∧
    (s.updQuad k f).epMeters = s.epMeters ∧ (s.updQuad k f).classMap = s.classMap ∧ (s.updQuad k f).ports = s.ports ∧ (s.updQuad k f).ptp = s.ptp ∧
    (s.updQuad k f).staging = s.staging ∧ (s.updQuad k f).counters = s.counters ∧ (s.updQuad k f).streams = s.streams ∧
    (s.updQuad k f).counts = s.counts ∧ (s.updQuad k f).arrivals = s.arrivals ∧ (s.updQuad k f).wire = s.wire ∧ (s.updQuad k f).free = s.free := by
  simp [State.updQuad]

@[simp] theorem State.updQuad_quad (k : Nat) (f : Quad → Quad) : (s.updQuad k f).quad k = f (s.quad k) := by simp [State.updQuad, State.quad]

theorem State.updQuad_quad_other {k : Nat} (f : Quad → Quad) {j : Nat} (h : j ≠ k) : (s.updQuad k f).quad j = s.quad j := by
  simp [State.updQuad, State.quad, tgetD_tupd_other _ _ _ h]

/-- `updPtp` changes `ptp` alone. -/
@[simp] theorem State.updPtp_keeps (q : Nat) (f : PtpPort → PtpPort) :
    (s.updPtp q f).pending = s.pending ∧ (s.updPtp q f).build = s.build ∧ (s.updPtp q f).now = s.now ∧ (s.updPtp q f).clock = s.clock ∧
    (s.updPtp q f).pins = s.pins ∧ (s.updPtp q f).aon = s.aon ∧ (s.updPtp q f).flash = s.flash ∧ (s.updPtp q f).dev = s.dev ∧
    (s.updPtp q f).pages = s.pages ∧ (s.updPtp q f).lastServed = s.lastServed ∧ (s.updPtp q f).taken = s.taken ∧ (s.updPtp q f).auth = s.auth ∧
    (s.updPtp q f).pendings = s.pendings ∧ (s.updPtp q f).staged = s.staged ∧ (s.updPtp q f).pool = s.pool ∧ (s.updPtp q f).lines = s.lines ∧
    (s.updPtp q f).stks = s.stks ∧ (s.updPtp q f).layout = s.layout ∧ (s.updPtp q f).rebuild = s.rebuild ∧ (s.updPtp q f).policy = s.policy ∧
    (s.updPtp q f).ctxs = s.ctxs ∧ (s.updPtp q f).extents = s.extents ∧ (s.updPtp q f).revocations = s.revocations ∧ (s.updPtp q f).sync = s.sync ∧
    (s.updPtp q f).seqs = s.seqs ∧ (s.updPtp q f).scheds = s.scheds ∧ (s.updPtp q f).loads = s.loads ∧ (s.updPtp q f).readyHeld = s.readyHeld ∧
    (s.updPtp q f).startCopies = s.startCopies ∧ (s.updPtp q f).engines = s.engines ∧ (s.updPtp q f).locals = s.locals ∧
    (s.updPtp q f).endpoints = s.endpoints ∧ (s.updPtp q f).forwards = s.forwards ∧ (s.updPtp q f).sessions = s.sessions ∧
    (s.updPtp q f).outstanding = s.outstanding ∧ (s.updPtp q f).reasms = s.reasms ∧ (s.updPtp q f).job = s.job ∧ (s.updPtp q f).qps = s.qps ∧
    (s.updPtp q f).agents = s.agents ∧ (s.updPtp q f).tally = s.tally ∧ (s.updPtp q f).txns = s.txns ∧ (s.updPtp q f).cohQueue = s.cohQueue ∧
    (s.updPtp q f).ncReqs = s.ncReqs ∧ (s.updPtp q f).xbar = s.xbar ∧ (s.updPtp q f).xcache = s.xcache ∧ (s.updPtp q f).drains = s.drains ∧
    (s.updPtp q f).meters = s.meters ∧ (s.updPtp q f).epMeters = s.epMeters ∧ (s.updPtp q f).classMap = s.classMap ∧ (s.updPtp q f).quads = s.quads ∧
    (s.updPtp q f).ports = s.ports ∧ (s.updPtp q f).staging = s.staging ∧ (s.updPtp q f).counters = s.counters ∧ (s.updPtp q f).streams = s.streams ∧
    (s.updPtp q f).counts = s.counts ∧ (s.updPtp q f).arrivals = s.arrivals ∧ (s.updPtp q f).wire = s.wire ∧ (s.updPtp q f).free = s.free := by
  simp [State.updPtp]

@[simp] theorem State.updPtp_ptpPort (q : Nat) (f : PtpPort → PtpPort) : (s.updPtp q f).ptpPort q = f (s.ptpPort q) := by simp [State.updPtp, State.ptpPort]

theorem State.updPtp_ptpPort_other {q : Nat} (f : PtpPort → PtpPort) {j : Nat} (h : j ≠ q) : (s.updPtp q f).ptpPort j = s.ptpPort j := by
  simp [State.updPtp, State.ptpPort, tgetD_tupd_other _ _ _ h]

/-- `updStream` changes `streams` alone. -/
@[simp] theorem State.updStream_keeps (n : Nat) (f : Stream → Stream) :
    (s.updStream n f).pending = s.pending ∧ (s.updStream n f).build = s.build ∧ (s.updStream n f).now = s.now ∧ (s.updStream n f).clock = s.clock ∧
    (s.updStream n f).pins = s.pins ∧ (s.updStream n f).aon = s.aon ∧ (s.updStream n f).flash = s.flash ∧ (s.updStream n f).dev = s.dev ∧
    (s.updStream n f).pages = s.pages ∧ (s.updStream n f).lastServed = s.lastServed ∧ (s.updStream n f).taken = s.taken ∧
    (s.updStream n f).auth = s.auth ∧ (s.updStream n f).pendings = s.pendings ∧ (s.updStream n f).staged = s.staged ∧
    (s.updStream n f).pool = s.pool ∧ (s.updStream n f).lines = s.lines ∧ (s.updStream n f).stks = s.stks ∧ (s.updStream n f).layout = s.layout ∧
    (s.updStream n f).rebuild = s.rebuild ∧ (s.updStream n f).policy = s.policy ∧ (s.updStream n f).ctxs = s.ctxs ∧
    (s.updStream n f).extents = s.extents ∧ (s.updStream n f).revocations = s.revocations ∧ (s.updStream n f).sync = s.sync ∧
    (s.updStream n f).seqs = s.seqs ∧ (s.updStream n f).scheds = s.scheds ∧ (s.updStream n f).loads = s.loads ∧
    (s.updStream n f).readyHeld = s.readyHeld ∧ (s.updStream n f).startCopies = s.startCopies ∧ (s.updStream n f).engines = s.engines ∧
    (s.updStream n f).locals = s.locals ∧ (s.updStream n f).endpoints = s.endpoints ∧ (s.updStream n f).forwards = s.forwards ∧
    (s.updStream n f).sessions = s.sessions ∧ (s.updStream n f).outstanding = s.outstanding ∧ (s.updStream n f).reasms = s.reasms ∧
    (s.updStream n f).job = s.job ∧ (s.updStream n f).qps = s.qps ∧ (s.updStream n f).agents = s.agents ∧ (s.updStream n f).tally = s.tally ∧
    (s.updStream n f).txns = s.txns ∧ (s.updStream n f).cohQueue = s.cohQueue ∧ (s.updStream n f).ncReqs = s.ncReqs ∧
    (s.updStream n f).xbar = s.xbar ∧ (s.updStream n f).xcache = s.xcache ∧ (s.updStream n f).drains = s.drains ∧
    (s.updStream n f).meters = s.meters ∧ (s.updStream n f).epMeters = s.epMeters ∧ (s.updStream n f).classMap = s.classMap ∧
    (s.updStream n f).quads = s.quads ∧ (s.updStream n f).ports = s.ports ∧ (s.updStream n f).ptp = s.ptp ∧ (s.updStream n f).staging = s.staging ∧
    (s.updStream n f).counters = s.counters ∧ (s.updStream n f).counts = s.counts ∧ (s.updStream n f).arrivals = s.arrivals ∧
    (s.updStream n f).wire = s.wire ∧ (s.updStream n f).free = s.free := by
  simp [State.updStream]

@[simp] theorem State.updStream_stream (n : Nat) (f : Stream → Stream) : (s.updStream n f).stream n = f (s.stream n) := by simp [State.updStream, State.stream]

theorem State.updStream_stream_other {n : Nat} (f : Stream → Stream) {j : Nat} (h : j ≠ n) : (s.updStream n f).stream j = s.stream j := by
  simp [State.updStream, State.stream, tgetD_tupd_other _ _ _ h]

/-- `updAon` changes `aon` alone. -/
@[simp] theorem State.updAon_keeps (f : Aon → Aon) :
    (s.updAon f).pending = s.pending ∧ (s.updAon f).build = s.build ∧ (s.updAon f).now = s.now ∧ (s.updAon f).clock = s.clock ∧
    (s.updAon f).pins = s.pins ∧ (s.updAon f).flash = s.flash ∧ (s.updAon f).dev = s.dev ∧ (s.updAon f).pages = s.pages ∧
    (s.updAon f).lastServed = s.lastServed ∧ (s.updAon f).taken = s.taken ∧ (s.updAon f).auth = s.auth ∧ (s.updAon f).pendings = s.pendings ∧
    (s.updAon f).staged = s.staged ∧ (s.updAon f).pool = s.pool ∧ (s.updAon f).lines = s.lines ∧ (s.updAon f).stks = s.stks ∧
    (s.updAon f).layout = s.layout ∧ (s.updAon f).rebuild = s.rebuild ∧ (s.updAon f).policy = s.policy ∧ (s.updAon f).ctxs = s.ctxs ∧
    (s.updAon f).extents = s.extents ∧ (s.updAon f).revocations = s.revocations ∧ (s.updAon f).sync = s.sync ∧ (s.updAon f).seqs = s.seqs ∧
    (s.updAon f).scheds = s.scheds ∧ (s.updAon f).loads = s.loads ∧ (s.updAon f).readyHeld = s.readyHeld ∧ (s.updAon f).startCopies = s.startCopies ∧
    (s.updAon f).engines = s.engines ∧ (s.updAon f).locals = s.locals ∧ (s.updAon f).endpoints = s.endpoints ∧ (s.updAon f).forwards = s.forwards ∧
    (s.updAon f).sessions = s.sessions ∧ (s.updAon f).outstanding = s.outstanding ∧ (s.updAon f).reasms = s.reasms ∧ (s.updAon f).job = s.job ∧
    (s.updAon f).qps = s.qps ∧ (s.updAon f).agents = s.agents ∧ (s.updAon f).tally = s.tally ∧ (s.updAon f).txns = s.txns ∧
    (s.updAon f).cohQueue = s.cohQueue ∧ (s.updAon f).ncReqs = s.ncReqs ∧ (s.updAon f).xbar = s.xbar ∧ (s.updAon f).xcache = s.xcache ∧
    (s.updAon f).drains = s.drains ∧ (s.updAon f).meters = s.meters ∧ (s.updAon f).epMeters = s.epMeters ∧ (s.updAon f).classMap = s.classMap ∧
    (s.updAon f).quads = s.quads ∧ (s.updAon f).ports = s.ports ∧ (s.updAon f).ptp = s.ptp ∧ (s.updAon f).staging = s.staging ∧
    (s.updAon f).counters = s.counters ∧ (s.updAon f).streams = s.streams ∧ (s.updAon f).counts = s.counts ∧ (s.updAon f).arrivals = s.arrivals ∧
    (s.updAon f).wire = s.wire ∧ (s.updAon f).free = s.free := by
  simp [State.updAon]

@[simp] theorem State.updAon_aon (f : Aon → Aon) : (s.updAon f).aon = f s.aon := rfl

/-- `updDev` changes `dev` alone. -/
@[simp] theorem State.updDev_keeps (f : Dev → Dev) :
    (s.updDev f).pending = s.pending ∧ (s.updDev f).build = s.build ∧ (s.updDev f).now = s.now ∧ (s.updDev f).clock = s.clock ∧
    (s.updDev f).pins = s.pins ∧ (s.updDev f).aon = s.aon ∧ (s.updDev f).flash = s.flash ∧ (s.updDev f).pages = s.pages ∧
    (s.updDev f).lastServed = s.lastServed ∧ (s.updDev f).taken = s.taken ∧ (s.updDev f).auth = s.auth ∧ (s.updDev f).pendings = s.pendings ∧
    (s.updDev f).staged = s.staged ∧ (s.updDev f).pool = s.pool ∧ (s.updDev f).lines = s.lines ∧ (s.updDev f).stks = s.stks ∧
    (s.updDev f).layout = s.layout ∧ (s.updDev f).rebuild = s.rebuild ∧ (s.updDev f).policy = s.policy ∧ (s.updDev f).ctxs = s.ctxs ∧
    (s.updDev f).extents = s.extents ∧ (s.updDev f).revocations = s.revocations ∧ (s.updDev f).sync = s.sync ∧ (s.updDev f).seqs = s.seqs ∧
    (s.updDev f).scheds = s.scheds ∧ (s.updDev f).loads = s.loads ∧ (s.updDev f).readyHeld = s.readyHeld ∧ (s.updDev f).startCopies = s.startCopies ∧
    (s.updDev f).engines = s.engines ∧ (s.updDev f).locals = s.locals ∧ (s.updDev f).endpoints = s.endpoints ∧ (s.updDev f).forwards = s.forwards ∧
    (s.updDev f).sessions = s.sessions ∧ (s.updDev f).outstanding = s.outstanding ∧ (s.updDev f).reasms = s.reasms ∧ (s.updDev f).job = s.job ∧
    (s.updDev f).qps = s.qps ∧ (s.updDev f).agents = s.agents ∧ (s.updDev f).tally = s.tally ∧ (s.updDev f).txns = s.txns ∧
    (s.updDev f).cohQueue = s.cohQueue ∧ (s.updDev f).ncReqs = s.ncReqs ∧ (s.updDev f).xbar = s.xbar ∧ (s.updDev f).xcache = s.xcache ∧
    (s.updDev f).drains = s.drains ∧ (s.updDev f).meters = s.meters ∧ (s.updDev f).epMeters = s.epMeters ∧ (s.updDev f).classMap = s.classMap ∧
    (s.updDev f).quads = s.quads ∧ (s.updDev f).ports = s.ports ∧ (s.updDev f).ptp = s.ptp ∧ (s.updDev f).staging = s.staging ∧
    (s.updDev f).counters = s.counters ∧ (s.updDev f).streams = s.streams ∧ (s.updDev f).counts = s.counts ∧ (s.updDev f).arrivals = s.arrivals ∧
    (s.updDev f).wire = s.wire ∧ (s.updDev f).free = s.free := by
  simp [State.updDev]

@[simp] theorem State.updDev_dev (f : Dev → Dev) : (s.updDev f).dev = f s.dev := rfl

/-- `updFlash` changes `flash` alone. -/
@[simp] theorem State.updFlash_keeps (f : Flash → Flash) :
    (s.updFlash f).pending = s.pending ∧ (s.updFlash f).build = s.build ∧ (s.updFlash f).now = s.now ∧ (s.updFlash f).clock = s.clock ∧
    (s.updFlash f).pins = s.pins ∧ (s.updFlash f).aon = s.aon ∧ (s.updFlash f).dev = s.dev ∧ (s.updFlash f).pages = s.pages ∧
    (s.updFlash f).lastServed = s.lastServed ∧ (s.updFlash f).taken = s.taken ∧ (s.updFlash f).auth = s.auth ∧ (s.updFlash f).pendings = s.pendings ∧
    (s.updFlash f).staged = s.staged ∧ (s.updFlash f).pool = s.pool ∧ (s.updFlash f).lines = s.lines ∧ (s.updFlash f).stks = s.stks ∧
    (s.updFlash f).layout = s.layout ∧ (s.updFlash f).rebuild = s.rebuild ∧ (s.updFlash f).policy = s.policy ∧ (s.updFlash f).ctxs = s.ctxs ∧
    (s.updFlash f).extents = s.extents ∧ (s.updFlash f).revocations = s.revocations ∧ (s.updFlash f).sync = s.sync ∧ (s.updFlash f).seqs = s.seqs ∧
    (s.updFlash f).scheds = s.scheds ∧ (s.updFlash f).loads = s.loads ∧ (s.updFlash f).readyHeld = s.readyHeld ∧
    (s.updFlash f).startCopies = s.startCopies ∧ (s.updFlash f).engines = s.engines ∧ (s.updFlash f).locals = s.locals ∧
    (s.updFlash f).endpoints = s.endpoints ∧ (s.updFlash f).forwards = s.forwards ∧ (s.updFlash f).sessions = s.sessions ∧
    (s.updFlash f).outstanding = s.outstanding ∧ (s.updFlash f).reasms = s.reasms ∧ (s.updFlash f).job = s.job ∧ (s.updFlash f).qps = s.qps ∧
    (s.updFlash f).agents = s.agents ∧ (s.updFlash f).tally = s.tally ∧ (s.updFlash f).txns = s.txns ∧ (s.updFlash f).cohQueue = s.cohQueue ∧
    (s.updFlash f).ncReqs = s.ncReqs ∧ (s.updFlash f).xbar = s.xbar ∧ (s.updFlash f).xcache = s.xcache ∧ (s.updFlash f).drains = s.drains ∧
    (s.updFlash f).meters = s.meters ∧ (s.updFlash f).epMeters = s.epMeters ∧ (s.updFlash f).classMap = s.classMap ∧ (s.updFlash f).quads = s.quads ∧
    (s.updFlash f).ports = s.ports ∧ (s.updFlash f).ptp = s.ptp ∧ (s.updFlash f).staging = s.staging ∧ (s.updFlash f).counters = s.counters ∧
    (s.updFlash f).streams = s.streams ∧ (s.updFlash f).counts = s.counts ∧ (s.updFlash f).arrivals = s.arrivals ∧ (s.updFlash f).wire = s.wire ∧
    (s.updFlash f).free = s.free := by
  simp [State.updFlash]

@[simp] theorem State.updFlash_flash (f : Flash → Flash) : (s.updFlash f).flash = f s.flash := rfl

/-- `updClock` changes `clock` alone. -/
@[simp] theorem State.updClock_keeps (f : Clock → Clock) :
    (s.updClock f).pending = s.pending ∧ (s.updClock f).build = s.build ∧ (s.updClock f).now = s.now ∧ (s.updClock f).pins = s.pins ∧
    (s.updClock f).aon = s.aon ∧ (s.updClock f).flash = s.flash ∧ (s.updClock f).dev = s.dev ∧ (s.updClock f).pages = s.pages ∧
    (s.updClock f).lastServed = s.lastServed ∧ (s.updClock f).taken = s.taken ∧ (s.updClock f).auth = s.auth ∧ (s.updClock f).pendings = s.pendings ∧
    (s.updClock f).staged = s.staged ∧ (s.updClock f).pool = s.pool ∧ (s.updClock f).lines = s.lines ∧ (s.updClock f).stks = s.stks ∧
    (s.updClock f).layout = s.layout ∧ (s.updClock f).rebuild = s.rebuild ∧ (s.updClock f).policy = s.policy ∧ (s.updClock f).ctxs = s.ctxs ∧
    (s.updClock f).extents = s.extents ∧ (s.updClock f).revocations = s.revocations ∧ (s.updClock f).sync = s.sync ∧ (s.updClock f).seqs = s.seqs ∧
    (s.updClock f).scheds = s.scheds ∧ (s.updClock f).loads = s.loads ∧ (s.updClock f).readyHeld = s.readyHeld ∧
    (s.updClock f).startCopies = s.startCopies ∧ (s.updClock f).engines = s.engines ∧ (s.updClock f).locals = s.locals ∧
    (s.updClock f).endpoints = s.endpoints ∧ (s.updClock f).forwards = s.forwards ∧ (s.updClock f).sessions = s.sessions ∧
    (s.updClock f).outstanding = s.outstanding ∧ (s.updClock f).reasms = s.reasms ∧ (s.updClock f).job = s.job ∧ (s.updClock f).qps = s.qps ∧
    (s.updClock f).agents = s.agents ∧ (s.updClock f).tally = s.tally ∧ (s.updClock f).txns = s.txns ∧ (s.updClock f).cohQueue = s.cohQueue ∧
    (s.updClock f).ncReqs = s.ncReqs ∧ (s.updClock f).xbar = s.xbar ∧ (s.updClock f).xcache = s.xcache ∧ (s.updClock f).drains = s.drains ∧
    (s.updClock f).meters = s.meters ∧ (s.updClock f).epMeters = s.epMeters ∧ (s.updClock f).classMap = s.classMap ∧ (s.updClock f).quads = s.quads ∧
    (s.updClock f).ports = s.ports ∧ (s.updClock f).ptp = s.ptp ∧ (s.updClock f).staging = s.staging ∧ (s.updClock f).counters = s.counters ∧
    (s.updClock f).streams = s.streams ∧ (s.updClock f).counts = s.counts ∧ (s.updClock f).arrivals = s.arrivals ∧ (s.updClock f).wire = s.wire ∧
    (s.updClock f).free = s.free := by
  simp [State.updClock]

@[simp] theorem State.updClock_clock (f : Clock → Clock) : (s.updClock f).clock = f s.clock := rfl

/-- `addCount` changes `counts` alone. -/
@[simp] theorem State.addCount_keeps (i n : Nat) :
    (s.addCount i n).pending = s.pending ∧ (s.addCount i n).build = s.build ∧ (s.addCount i n).now = s.now ∧ (s.addCount i n).clock = s.clock ∧
    (s.addCount i n).pins = s.pins ∧ (s.addCount i n).aon = s.aon ∧ (s.addCount i n).flash = s.flash ∧ (s.addCount i n).dev = s.dev ∧
    (s.addCount i n).pages = s.pages ∧ (s.addCount i n).lastServed = s.lastServed ∧ (s.addCount i n).taken = s.taken ∧
    (s.addCount i n).auth = s.auth ∧ (s.addCount i n).pendings = s.pendings ∧ (s.addCount i n).staged = s.staged ∧ (s.addCount i n).pool = s.pool ∧
    (s.addCount i n).lines = s.lines ∧ (s.addCount i n).stks = s.stks ∧ (s.addCount i n).layout = s.layout ∧ (s.addCount i n).rebuild = s.rebuild ∧
    (s.addCount i n).policy = s.policy ∧ (s.addCount i n).ctxs = s.ctxs ∧ (s.addCount i n).extents = s.extents ∧
    (s.addCount i n).revocations = s.revocations ∧ (s.addCount i n).sync = s.sync ∧ (s.addCount i n).seqs = s.seqs ∧
    (s.addCount i n).scheds = s.scheds ∧ (s.addCount i n).loads = s.loads ∧ (s.addCount i n).readyHeld = s.readyHeld ∧
    (s.addCount i n).startCopies = s.startCopies ∧ (s.addCount i n).engines = s.engines ∧ (s.addCount i n).locals = s.locals ∧
    (s.addCount i n).endpoints = s.endpoints ∧ (s.addCount i n).forwards = s.forwards ∧ (s.addCount i n).sessions = s.sessions ∧
    (s.addCount i n).outstanding = s.outstanding ∧ (s.addCount i n).reasms = s.reasms ∧ (s.addCount i n).job = s.job ∧ (s.addCount i n).qps = s.qps ∧
    (s.addCount i n).agents = s.agents ∧ (s.addCount i n).tally = s.tally ∧ (s.addCount i n).txns = s.txns ∧ (s.addCount i n).cohQueue = s.cohQueue ∧
    (s.addCount i n).ncReqs = s.ncReqs ∧ (s.addCount i n).xbar = s.xbar ∧ (s.addCount i n).xcache = s.xcache ∧ (s.addCount i n).drains = s.drains ∧
    (s.addCount i n).meters = s.meters ∧ (s.addCount i n).epMeters = s.epMeters ∧ (s.addCount i n).classMap = s.classMap ∧
    (s.addCount i n).quads = s.quads ∧ (s.addCount i n).ports = s.ports ∧ (s.addCount i n).ptp = s.ptp ∧ (s.addCount i n).staging = s.staging ∧
    (s.addCount i n).counters = s.counters ∧ (s.addCount i n).streams = s.streams ∧ (s.addCount i n).arrivals = s.arrivals ∧
    (s.addCount i n).wire = s.wire ∧ (s.addCount i n).free = s.free := by
  simp [State.addCount]

end Sys2Proof.Machine
end

