-- ==== Sys2Proof/Laws/Mailbox.lean ====
section
/-!
SUPPORT. The laws of the mailbox protocol: what a command that runs leaves, what a refused one leaves, and which fields the
shared operations touch.
-/

namespace Sys2Proof.Machine

open Sys2Proof

/-! ### Choices of the part -/

/-- What the part picks is one of the choices. -/
theorem pick_mem {k : Nat} {l : List Nat} {x : Nat} (h : pick k l = some x) : x ∈ l := List.mem_of_getElem? h

/-- Where there is a choice, the part picks. -/
theorem pick_some {k : Nat} {l : List Nat} (h : l ≠ []) : ∃ x, pick k l = some x :=
  ⟨_, List.getElem?_eq_getElem (Nat.mod_lt _ (List.length_pos_iff.mpr h))⟩

/-! ### Frames of the shared operations -/

/-- Counting changes `counters` alone. -/
theorem bump_frame (s : State) (g : Group) (i idx n : Nat) : ∃ c, bump s g i idx n = { s with counters := c } := by
  unfold bump
  split
  · exact ⟨_, rfl⟩
  · split <;> exact ⟨_, rfl⟩

/-- A fold of steps that each change one field changes that field alone. -/
theorem foldl_frame {α β : Type} (put : State → β → State) (hput : ∀ s b b', put (put s b) b' = put s b')
    (h0 : ∀ s, ∃ b, s = put s b) (f : State → α → State) (hf : ∀ s a, ∃ b, f s a = put s b) (l : List α) (s : State) : ∃ b, l.foldl f s = put s b := by
  induction l generalizing s with
  | nil => exact h0 s
  | cons a r ih =>
    obtain ⟨b, hb⟩ := hf s a
    obtain ⟨b', hb'⟩ := ih (f s a)
    exact ⟨b', by rw [List.foldl_cons, hb', hb, hput]⟩

/-- A SEND changes queue pairs alone. -/
theorem queueSend_frame (s : State) (n : Nat) (b : Bytes) (i : Option (BitVec 16)) : ∃ x, queueSend s n b i = { s with qps := x } := by
  unfold queueSend
  dsimp only
  split
  · exact ⟨_, rfl⟩
  · exact ⟨_, rfl⟩

/-- The SENDs of event records change queue pairs alone. -/
theorem sendEvents_frame (s : State) (m : Nat) (i : BitVec 16) : ∃ x, sendEvents s m i = { s with qps := x } := by
  unfold sendEvents
  dsimp only
  split
  · exact ⟨_, rfl⟩
  · refine foldl_frame (fun s x => { s with qps := x }) (fun _ _ _ => rfl) (fun s => ⟨s.qps, rfl⟩) _ (fun s n => ?_) _ s
    exact foldl_frame (fun s x => { s with qps := x }) (fun _ _ _ => rfl) (fun s => ⟨s.qps, rfl⟩) _ (fun s r => queueSend_frame s n r none) _ s

/-- An event touches pages and queue pairs alone. -/
theorem postEvent_frame (s : State) (m code ty id : Nat) (d : Bytes) (st : Nat) :
    ∃ p x, postEvent s m code ty id d st = { s with pages := p, qps := x } := by
  unfold postEvent
  obtain ⟨x, hx⟩ := sendEvents_frame (s.updPage m (·.post { code := code, status := st, objType := ty, objId := id, time := s.ct, data := d })) m (s.page m).evqPi
  exact ⟨_, x, by rw [hx]; rfl⟩

/-- A COMPLETION touches pages, queue pairs and pending commands alone. -/
theorem postCompletion_frame (s : State) (p : Pending) (st t : Nat) (d : Bytes) :
    ∃ g x e, postCompletion s p st t d = { s with pages := g, qps := x, pendings := e } := by
  unfold postCompletion
  dsimp only
  split
  · exact ⟨_, _, _, rfl⟩
  · split
    · obtain ⟨x, hx⟩ := sendEvents_frame (s.updPage p.mailbox (fun _ => ((s.page p.mailbox).flushOverflow t).putEvent (completionOf p st t d))) p.mailbox (s.page p.mailbox).evqPi
      rw [hx]
      exact ⟨_, _, _, rfl⟩
    · split
      · exact ⟨_, _, _, rfl⟩
      · exact ⟨_, _, _, rfl⟩

/-- A response touches pages and queue pairs alone. -/
theorem respond_frame (s : State) (q : Req) (st d : Nat) (r x : Bytes) : ∃ g n, respond s q st d r x = { s with pages := g, qps := n } := by
  unfold respond
  dsimp only
  split
  · rename_i n _
    obtain ⟨y, hy⟩ := queueSend_frame (s.updPage q.m (fun p =>
      { p with mem := mwriteN (mwriteN p.mem (0xB000 + q.xargOff) (x.take q.room)) (0x5000 + 64 * (q.index.toNat % 256))
                 (padTo (natLe st 2 ++ natLe q.tag.toNat 2 ++ natLe q.index.toNat 2 ++ natLe (x.take q.room).length 2 ++ natLe d 4 ++ r) 64), rspPi := q.index + 1 })) n
      (padTo (natLe st 2 ++ natLe q.tag.toNat 2 ++ natLe q.index.toNat 2 ++ natLe (x.take q.room).length 2 ++ natLe d 4 ++ r) 64 ++ x.take q.room) (some q.index)
    rw [hy]
    exact ⟨_, _, rfl⟩
  · exact ⟨_, _, rfl⟩

/-- A response with its NOTIFY touches pages, queue pairs and pending commands alone. -/
theorem closeWith_frame (s : State) (q : Req) (st d : Nat) (r x : Bytes) :
    ∃ g n e, closeWith s q st d r x = { s with pages := g, qps := n, pendings := e } := by
  unfold closeWith notifyDone
  obtain ⟨g, n, h⟩ := respond_frame s q st d r x
  rw [h]
  split
  · obtain ⟨g', n', e', h'⟩ := postCompletion_frame { s with pages := g, qps := n } q.owes st ({ s with pages := g, qps := n } : State).ct []
    rw [h']
    exact ⟨_, _, _, rfl⟩
  · exact ⟨_, _, _, rfl⟩

/-- An audit record touches flash and a counter alone. -/
theorem auditWrite_frame (s : State) (m : Nat) (b : BitVec 32) (op : BitVec 16) (role key st : Nat) (dg : BitVec 256) :
    ∃ f c, auditWrite s m b op role key st dg = { s with flash := f, counters := c } := by
  unfold auditWrite
  dsimp only
  obtain ⟨c, h⟩ := bump_frame s .device 0 11 1
  rw [h]
  exact ⟨_, _, rfl⟩

/-- Taking a request up touches its page, the turn, the count of requests and a counter alone. -/
theorem takeUp_frame (s : State) (q : Req) : ∃ g c, takeUp s q = { s with pages := g, counters := c, lastServed := q.m, taken := s.taken + 1 } := by
  unfold takeUp
  dsimp only
  obtain ⟨c, h⟩ := bump_frame ({ s with lastServed := q.m, taken := s.taken + 1 }.updPage q.m (fun p => { p with reqCi := p.reqCi + 1 })) .device 0 10 1
  rw [h]
  exact ⟨_, _, rfl⟩

/-! ### Commands -/

/-- Taking a request up does not change the mode. -/
@[simp] theorem takeUp_mode (s : State) (q : Req) : (takeUp s q).dev = s.dev := by
  obtain ⟨g, c, h⟩ := takeUp_frame s q
  rw [h]

/-- A request that a command takes reaches the command's body. -/
theorem serve_taken {c : Cmd} {m : Nat} {s s1 : State} {q : Req} (h : taken c m s = some (q, s1)) : serve m c s = .next (conclude c q s1) := by
  unfold taken at h
  split at h
  · cases h
  · rename_i q0 hq0
    dsimp only at h
    split at h
    · cases h
    · rename_i hc
      simp only [Bool.or_eq_true, Bool.not_eq_true', not_or, Bool.not_eq_false, Bool.not_eq_true] at hc
      obtain ⟨hop, hmin⟩ := hc
      split at h
      · cases h
      · rename_i q' s' ha
        split at h
        · cases h
        · rename_i hs
          simp only [Option.some.injEq, Prod.mk.injEq] at h
          obtain ⟨rfl, rfl⟩ := h
          have hs' : slotFault { q' with owes := owesOf c q' } = none := by simpa using hs
          unfold serve
          simp only [hq0, hop, if_true]
          unfold answer
          simp only [hmin, ha, hs', Bool.false_eq_true, if_false]

/-- A command that is ready and whose body answers OK or PENDING: the body's effect and response from the recorded state,
then what follows the response. -/
theorem serve_ready {c : Cmd} {m : Nat} {s v : State} {q : Req} (h : Ready c m s q v) (hg : (c.body q v).good = true) :
    serve m c s = .next (c.after q (effectOf q (c.body q (recorded c q v)) (recorded c q v))) := by
  obtain ⟨ht, hb, hv, hw⟩ := h
  rw [serve_taken ht]
  congr 1
  unfold conclude recorded
  simp only [hg, hb, hv, Bool.not_true, Bool.false_eq_true, if_false]
  split
  · rename_i hch
    rw [hch] at hw
    simp only [Bool.true_and, Bool.not_eq_false'] at hw
    simp only [hw, if_true] <;> rfl
  · rfl

/-- A ready command whose body answers OK. -/
theorem serve_done {c : Cmd} {m : Nat} {s v w w' : State} {q : Req} {r x r' x' : Bytes} (h : Ready c m s q v)
    (hv : c.body q v = .done w r x) (hu : c.body q (recorded c q v) = .done w' r' x') :
    serve m c s = .next (c.after q (okay w' q r' x')) := by
  rw [serve_ready h (by rw [hv]; rfl), hu]
  rfl

/-- A ready command whose body answers PENDING. -/
theorem serve_pend {c : Cmd} {m : Nat} {s v w w' : State} {q : Req} {r r' : Bytes} (h : Ready c m s q v)
    (hv : c.body q v = .pend w r) (hu : c.body q (recorded c q v) = .pend w' r') :
    serve m c s = .next (c.after q (pending w' q r')) := by
  rw [serve_ready h (by rw [hv]; rfl), hu]
  rfl

/-- A command that its body refuses: the response carries the status, and nothing else follows; a want of resources gives way to BUSY. -/
theorem serve_refuses {c : Cmd} {m : Nat} {s v : State} {q : Req} {st d : Nat} (ht : taken c m s = some (q, v)) (hbody : c.body q v = .fail st d)
    (hst : 2 ≤ st) (hb : st ≠ stNoResource ∨ c.blocked q v = false) : serve m c s = .next (refusal v q st d) := by
  rw [serve_taken ht]
  congr 1
  have hgood : (Reply.fail st d).good = false := by
    simp [Reply.good, Reply.status, stOk, stPending]
    omega
  have hbusy : ((Reply.fail st d).status == stNoResource && c.blocked q v) = false := by
    rcases hb with h | h
    · simp [Reply.status, h]
    · simp [h]
  unfold conclude
  simp only [hbody, hgood, hbusy, Bool.not_false, Bool.false_eq_true, if_true, if_false]
  rfl

/-- Where the unlaid bytes are 0, the first faulty byte is that of a faulty field. -/
theorem firstBad_of {q : Req} {used : List (Nat × Nat)} (h : RestZero q used) (bad : List (Nat × Bool)) :
    q.firstBad used bad = ((bad.filter (·.2)).map (·.1)).min? := by
  unfold RestZero Req.firstBad at h
  unfold Req.firstBad
  have h' : (rangeFrom 20 44).filter (fun b => q.slot.getD b 0 != 0 && !used.any (fun u => u.1 ≤ b && b < u.1 + u.2)) = [] := by
    simpa using h
  simp only [h', List.nil_append]

/-- A request whose unlaid bytes are 0 and of whose fields none is faulty has no faulty byte. -/
theorem firstBad_none {q : Req} {used : List (Nat × Nat)} {bad : List (Nat × Bool)} (h : RestZero q used) (hb : bad.all (fun b => !b.2) = true) :
    q.firstBad used bad = none := by
  rw [firstBad_of h]
  simp only [List.all_eq_true, Bool.not_eq_true'] at hb
  rw [List.filter_eq_nil_iff.mpr (fun b h => by simp [hb b h])]
  rfl

/-- The state before and after a command's audit record differ in flash and a counter alone. -/
theorem recorded_frame (c : Cmd) (q : Req) (s : State) : ∃ f k, recorded c q s = { s with flash := f, counters := k } := by
  unfold recorded
  split
  · exact auditWrite_frame ..
  · exact ⟨_, _, rfl⟩

end Sys2Proof.Machine
end

