-- ==== Sys2Proof/WellFormed.lean ====
section
/-!
DEFINITION. Well-formed commands: the bounds of their operands that the operand types do not already say.
-/

namespace Sys2Proof

/-- Extents of the larger build (03 R66): those of an H3 part are fewer. -/
def maxExtents : Nat := 1776

/-- A data line address: a multiple of 128 (03 R64). -/
def lineWf (line : Nat) : Bool := line % 128 == 0

/-- A CSR access covers whole 4-byte words, at most 8,192 bytes (12 R276; 02 R29). -/
def accessWf (addr len : Nat) : Bool := addr % 4 == 0 && len % 4 == 0 && 4 ≤ len && len ≤ 8192

/-- A CSR_READ that comes with its fields. -/
def CsrReadSource.wf : CsrReadSource → Bool
  | .port _ => true
  | .direct _ addr len => accessWf addr.toNat len

/-- A CSR_WRITE that comes with its fields. -/
def CsrWriteSource.wf : CsrWriteSource → Bool
  | .port _ => true
  | .direct _ addr data => accessWf addr.toNat data.length

/-- What a stack reports with a line: each symbol named once, below 144, with a nonzero XOR (09 R220). -/
def LineObs.wf (o : LineObs) : Bool :=
  o.errs.all (fun e => e.1 < 144 && e.2 != 0) && (o.errs.map (·.1)).Nodup

/-- Units that hold an array (17 R388): paddocks, quads, port indices, tally slices, the shepherd. -/
def arrayUnits : ArrayKind → Nat
  | .paddockStore | .queryRows | .vectorRegisters | .accumulator | .instructionMemory => 16
  | .replayBuffer => 16
  | .ingressBuffer => 64
  | .tallyEntry | .tallyTransaction => 4
  | .shepherdSram => 1

/-- A unit ID of a dump (17 R397). -/
def dumpUnit (u : Nat) : Bool :=
  (0x10 ≤ u && u < 0x40) || (0x40 ≤ u && u < 0x80 && u % 16 < 4) || u == 0x80 || u == 0x90

/-- What the stacks report at bring-up names stacks below 16 and rails below 3 (09 R208, R209). -/
def BringUpEnv.wf (e : BringUpEnv) : Bool :=
  e.rails.all (fun x => x.1 < 16 && x.2.1 < 3)
    && e.lanes.all (fun x => x.1 < 16) && e.totals.all (fun x => x.1 < 16)

/-- A frame on the wire has at least 64 bytes, and six preamble bytes that can hold a tag (11 R249, R259). -/
def RxFrame.wf (f : RxFrame) : Bool := 64 ≤ f.frame.len && f.preamble.length == 6

/-- A command is well-formed. -/
def Instr.wellFormed : Instr → Bool
  | .csrWrite src => src.wf
  | .csrRead src => src.wf
  | .homeMemoryDataIn _ line => lineWf line
  | .compAckTimeout _ line => lineWf line
  | .snoopTimeout _ line _ => lineWf line
  | .stashOfferTimeout _ line => lineWf line
  | .linkFrameReceive _ _ f => f.wf
  | .temperatureRead _ temps => temps.length == 16
  | .dieTemperatureRead _ temps => 4 ≤ temps.length
  | .stackAccessComplete _ _ line obs => line % 128 == 0 && obs.wf
  | .patrolScrubRead _ _ obs => obs.wf
  | .fenceDrained _ e => e < maxExtents
  | .fenceDrainTimeout _ e => e < maxExtents
  | .clearingComplete _ e => e < maxExtents
  | .arrayUe _ array unit _ => unit < arrayUnits array
  | .dumpUnitTimeout _ unit => dumpUnit unit.toNat
  | .stackBringUpDone _ env => env.wf
  | .deviceStatus _ | .roleChallenge _ | .roleProve _ | .roleEnd _ | .setAcctPeriod _ | .mailboxReset _ | .contextCreate _ | .contextDestroy _
  | .contextStatus _ | .leaseSet _ | .leaseRenew _ | .translationFlush _ | .translationFlushDone _ _ _ | .limitsSet _ | .segmentSet _ | .segmentClear _
  | .segmentQuery _ | .extentGrant _ | .extentRevoke _ | .extentStatus _ | .extentList _ | .schedLoad _ | .schedLoadDone _ _ | .schedAdmit _
  | .schedArm _ | .armingComplete _ _ | .schedDisarm _ | .schedAbort _ | .schedUnload _ | .schedStatus _ | .syncAlloc _ | .syncFree _ | .syncOpRead _
  | .syncOpSignal _ | .syncOpReset _ | .seqAssign _ | .seqRelease _ | .seqRead _ | .clockStatus _ | .portConfig _ | .portStatus _ | .quadReset _
  | .linkParamsSet _ | .timeConfig _ | .localIdSet _ | .endpointSet _ | .endpointClear _ | .forwardSet _ | .forwardClear _ | .tableRead _
  | .sessionAssign _ | .sessionRelease _ | .sessionOpen _ | .sessionClose _ | .sessionStatus _ | .peerKeySet _ | .qpAssign _ | .qpOpen _
  | .qpClose _ | .qpStatus _ | .meterSet _ | .meterStatus _ | .shaperSet _ | .gateSet _ | .classMapSet _ | .tcStatus _ | .agentLimitSet _
  | .agentRegister _ | .agentDeregister _ | .agentRenew _ | .agentStatus _ | .lostOwnedRead _ | .stackStatus _ | .stackProfileRead _ | .stackProfileAccept _
  | .memPolicySet _ | .stackFlagsClear _ | .stackDiagRead _ | .stackFail _ | .rebuildStatus _ | .rebuildControl _ | .counterEnable _ | .counterRead _
  | .traceSet _ | .traceRead _ | .traceStatus _ | .stageOpen _ | .stageWrite _ | .stageCommit _ | .stageCommitDone _ _ | .stageAbort _ | .recordRead _
  | .attest _ | .auditRead _ | .identityEnrol _ | .jobOpen _ | .jobClose _ | .jobStatus _ | .errorLogRead _ | .dumpRead _ | .faultStatus _
  | .alertClear _ | .engineReset _ | .engineResetDone _ _ | .deviceReset _ | .watchdogSet _ | .reqPiWrite _ _ _ | .rspCiWrite _ _ _ | .evqCiWrite _ _ _
  | .evqEnableWrite _ _ _ | .badDoorbellClear _ _ _ | .evqOverflowClear _ _ _ | .clusterTimeLoRead _ | .accountingPeriodBoundary _ | .opNop _
  | .opHalt _ | .opBr _ | .opLoop _ | .opAdd _ | .opAddi _ | .opSub _ | .opMul _ | .opAnd _ | .opOr _ | .opXor _ | .opShl _ | .opShr _ | .opSra _
  | .opLi _ | .opLih _ | .opCmp _ | .opCmpi _ | .opPlog _ | .opAset _ | .opAadd _ | .opAaddi _ | .opAget _ | .opLds _ | .opSts _ | .opMvstat _
  | .opWaitTime _ | .opWaitSync _ | .opWaitMover _ | .opWaitUnit _ | .opSignal _ | .opSyncReset _ | .opDone _ | .opOvl _ | .overlayComplete _
  | .opOvlWait _ | .opTrace _ | .opMvIssue _ | .opMvIssuex _ | .moverDescriptorComplete _ _ _ | .opPrQload _ | .opPrPass _ | .prismPassComplete _ _
  | .opPrClr _ | .opAttend _ | .opAppend _ | .opMerge _ | .opSetlen _ | .lensWalkComplete _ _ | .opVld _ | .opVst _ | .opVacc _ | .opVaccw _
  | .opVmovq _ | .opVadd _ | .opVsub _ | .opVmul _ | .opVfma _ | .opVmax _ | .opVmin _ | .opVbcast _ | .opVseti _ | .opVredsum _ | .opVredmax _
  | .opVexp2 _ | .opVlog2 _ | .opVrcp _ | .opVrsqrt _ | .opVsilu _ | .opVsigm _ | .opVrope _ | .opVtopk _ | .programEnd _ _ | .startLatch _ _
  | .t0Reached _ _ | .deadlineExpiry _ _ _ | .releaseWaitExpiry _ _ | .readyRecordExpiry _ _ | .startRecordReady _ | .startRecordRelease _
  | .startRecordAbort _ | .read _ | .write _ | .writeStash _ | .atomicAdd _ | .atomicCompareSwap _ | .atomicMinUnsigned _ | .atomicMaxUnsigned _
  | .atomicMinSigned _ | .atomicMaxSigned _ | .signalFrame _ | .schedFrame _ | .mailbox _ | .invalidate _ | .invalidateDrained _ _ _ | .keyExchangePhase1 _
  | .keyExchangePhase2 _ | .keyExchangePhase3 _ | .keyWaitExpiry _ _ | .opcodeOnlyAPartSends _ | .traceFrame _ | .undefinedErunoOpcode _
  | .erunoSegment _ | .reassemblyTimeout _ _ _ | .erunoResponse _ | .translateResponse _ | .pageRequestResponse _ | .erunoRequestTimeout _ _ _
  | .forward _ | .rdShared _ | .rdOwn _ | .upgrade _ | .wb _ | .compAck _ | .rspI _ | .rspS _ | .rspDataI _ | .rspDataS _ | .accept _ | .decline _
  | .agentResolutionDone _ _ | .agentLeaseExpiry _ _ | .dataS _ | .dataE _ | .dataM _ | .grantM _ | .wbAck _ | .snpShared _ | .snpInv _
  | .stashFill _ | .lldpdu _ | .initSendTimer _ _ | .ackDelayExpiry _ _ | .replayTimerExpiry _ _ | .egressFrameBoundary _ _ | .pcsLockLost _ _
  | .linkLossTimeExpiry _ _ | .portTrained _ _ | .negotiationTimeout _ _ | .downRetrainTimer _ _ | .quadResetHoldEnd _ _ | .trainLimitExpiry _ _
  | .pfcFrame _ | .pfcPauseExpiry _ _ _ | .pfcXoffRepeat _ _ _ | .pauseFrame _ | .rdmaWriteFirst _ | .rdmaWriteMiddle _ | .rdmaWriteLast _
  | .rdmaWriteOnly _ | .rdmaReadRequest _ | .compareSwap _ | .fetchAdd _ | .sendFirst _ | .sendMiddle _ | .sendLast _ | .sendOnly _ | .roceUnsupportedPacket _
  | .roceAck _ | .roceNak _ | .roceAckTimeout _ _ | .cnp _ | .cnpRateRecovery _ _ | .shaperRefill _ | .gateEntryBoundary _ _ _ | .sync _
  | .followUp _ | .delayReq _ | .delayResp _ | .pdelayReq _ | .pdelayResp _ | .pdelayRespFollowUp _ | .announce _ | .ptpManagementSignaling _
  | .syncTransmitTimer _ _ | .pdelayReqTimer _ _ | .announceTimeout _ | .sampleTimeout _ | .holdoverBoundExceeded _ | .timePpsInEdge _ | .ppsOutEdge _
  | .timeRefInQualified _ | .timeRefInLost _ | .refreshTick _ _ _ _ | .refreshIdleIssue _ _ _ | .refreshWindowOpen _ _ _ | .refreshPreT0 _ _
  | .reserveIntervalStart _ _ | .idleCloseExpiry _ _ _ _ | .modeRegisterReadTimeout _ _ | .stackRailOutOfTarget _ _ | .stackFailureDeclaration _ _
  | .repairWrite _ _ | .combineIdleExpiry _ _ _ | .rebuildSlotStart _ | .rebuildSlotComplete _ | .leaseWarningTimer _ _ | .leaseExpiry _ _
  | .roleSessionIdleTimeout _ _ | .authLockoutExpiry _ _ | .traceFlushTimer _ _ | .progressWatchdogExpiry _ _ | .faultedEngineNotIdle _ _
  | .escalation _ _ | .heartbeatExpiry _ | .resetNFall _ | .warmRstNFall _ | .pwrGoodFall _ | .vddAonLoss _ | .dumpTimerExpiry _ | .dumpComplete _
  | .start _ _ | .readyPoint _ | .startLimitExpiry _ | .dumpCopyDone _ | .thermalTrip _ _ | .refclkEthLoss _ _ | .refclkMemLoss _ _ | .refclkSysLoss _
  | .undefinedMailboxOpcode _ | .pcsLockRegained _ _ | .lldpTransmitTimer _ _ | .announceTransmitTimer _ _ | .delayReqTransmitTimer _ _
  | .timePpsOutFall _ | .startRecordCopyTimer _ | .rnrRetryTimerExpiry _ _ | .orderedDeviceReset _ => true

end Sys2Proof
end

