-- ==== Sys2Proof/Tests/Slice0.lean ====
section
/-!
SUPPORT. The tests: terms that WellFormed refuses, values that spec/ works out, and for every obligation that has hypotheses a state and
operands that meet them, clause by clause.
-/

namespace Sys2Proof.Tests

open Sys2Proof Sys2Proof.Machine

/-! ### From a computed check to a witness -/

/-- The request that a command takes from a mailbox is ready, and it and the state in which it is judged pass a check. -/
def meets (c : Cmd) (m : Nat) (s : State) (p : Req → State → Bool) : Bool :=
  match taken c m s with
  | some (q, v) => !c.blocked q v && !(q.validateOnly && !c.query) && !(c.changes q && q.party.isRole && !c.idle q v && !v.flash.writeOk) && p q v
  | none => false

theorem exists_ready {c : Cmd} {m : Nat} {s : State} {P : Req → State → Prop} [d : ∀ q v, Decidable (P q v)]
    (h : meets c m s (fun q v => decide (P q v)) = true) : ∃ q v, Ready c m s q v ∧ P q v := by
  unfold meets at h
  split at h
  · rename_i q v ht
    simp only [Bool.and_eq_true, Bool.not_eq_true', decide_eq_true_eq] at h
    exact ⟨q, v, ⟨ht, h.1.1.1, h.1.1.2, h.1.2⟩, h.2⟩
  · cases h

theorem some1 {α : Type} {o : Option α} {P : α → Prop} [d : ∀ a, Decidable (P a)] (h : o.any (fun a => decide (P a)) = true) : ∃ a, o = some a ∧ P a := by
  cases o with
  | none => cases h
  | some a => exact ⟨a, rfl, by simpa using h⟩

theorem some2 {α β : Type} {o : Option (α × β)} {P : α → β → Prop} [d : ∀ a b, Decidable (P a b)] (h : o.any (fun x => decide (P x.1 x.2)) = true) :
    ∃ a b, o = some (a, b) ∧ P a b := by
  cases o with
  | none => cases h
  | some x => exact ⟨x.1, x.2, rfl, by simpa using h⟩

theorem some3 {α β γ : Type} {o : Option (α × β × γ)} {P : α → β → γ → Prop} [d : ∀ a b c, Decidable (P a b c)]
    (h : o.any (fun x => decide (P x.1 x.2.1 x.2.2)) = true) : ∃ a b c, o = some (a, b, c) ∧ P a b c := by
  cases o with
  | none => cases h
  | some x => exact ⟨x.1, x.2.1, x.2.2, rfl, by simpa using h⟩

theorem some5 {α β γ δ ε : Type} {o : Option (α × β × γ × δ × ε)} {P : α → β → γ → δ → ε → Prop} [d : ∀ a b c x y, Decidable (P a b c x y)]
    (h : o.any (fun x => decide (P x.1 x.2.1 x.2.2.1 x.2.2.2.1 x.2.2.2.2)) = true) : ∃ a b c x y, o = some (a, b, c, x, y) ∧ P a b c x y := by
  cases o with
  | none => cases h
  | some x => exact ⟨x.1, x.2.1, x.2.2.1, x.2.2.2.1, x.2.2.2.2, rfl, by simpa using h⟩

/-! ### Mailbox requests -/

/-- A request's slot: TAG 7, no FLAGS, XARG_OFF 0, and the fields (byte, width, value) of `a`. -/
def slotWith (op xlen room session : Nat) (a : List (Nat × Nat × Nat)) : Bytes :=
  a.foldl (fun b x => putNat b x.1 x.2.1 x.2.2)
    (natLe op 2 ++ natLe 7 2 ++ natLe 0 2 ++ natLe xlen 2 ++ natLe 0 2 ++ natLe room 2 ++ natLe session 4 ++ natLe session 4 ++ List.replicate 44 0)

/-- The state `s` in service with one request in mailbox `m`, under a session of its role where it is a role's. -/
def asked (s : State) (m op : Nat) (a : List (Nat × Nat × Nat)) (xarg : Bytes := []) (room : Nat := 0) : State :=
  let role := roleOfCode (m + 2)
  { s with dev := { s.dev with mode := .inService, installer := { present := true, bytes := [(24, 1)], len := 13880 } }
           pages := [(m, { reqPi := 1, mem := mwriteN (mwriteN [] 0x1000 (slotWith op xarg.length room (if role.isSome then 1 else 0) a)) 0xB000 xarg })]
           auth := { s.auth with sessions := match role with
             | some r => [{ id := 1, role := r, keyIndex := 0, key := List.replicate 1952 0, binding := 0, counter := 0, lastCommand := s.now }]
             | none => [] } }

/-- Context 0 is ACTIVE with room for everything. -/
def tenant : State := { ctxs := [(0, { st := .active, leaseMs := 2000, syncLimit := 65536, extentLimit := 1776, agentLimit := 64 })] }

/-! ### States that the witnesses stand in -/

/-- A TIME_CONFIG with every limit at an end of its range. -/
def timeBytes : Bytes :=
  [(0, 1, 0), (1, 1, 63), (2, 1, 0xFF), (8, 1, 2), (24, 4, 2), (28, 4, 20), (32, 4, 5), (36, 4, 200), (60, 4, 500000000)].foldl
    (fun b x => putNat b x.1 x.2.1 x.2.2) (List.replicate 192 0)

theorem natLe_length (n k : Nat) : (natLe n k).length = k := by
  induction k generalizing n with
  | zero => rfl
  | succ k ih => simp [natLe, ih]

theorem padTo_length (b : Bytes) (n : Nat) : (padTo b n).length = n := by
  simp only [padTo, List.length_take, List.length_append, List.length_replicate]
  omega

theorem digest_length (a : Area) : a.digest.length = 32 := by
  unfold Area.digest
  split
  · exact padTo_length ..
  · exact natLe_length ..

theorem body_length {s : State} (c : Nat) (n : Bytes) (h : s.scheds = []) : (reportBody s c n).length = 240 := by
  unfold reportBody
  rw [h]
  simp only [List.filter_nil, List.flatMap_nil, List.append_nil, List.length_append, natLe_length, padTo_length, digest_length]

theorem report_length {s : State} (c : Nat) (n : Bytes) (h : s.scheds = []) : (report s c n false).length = 3549 := by
  unfold report
  simp only [List.length_append, body_length c n h, padTo_length]
  simp

theorem attest_ready : ∃ (m : Fin 1029) (s : State) (q : Req) (v : State), Ready cmdAttest m s q v ∧ RestZero q [(20, 1)] ∧ q.arg 20 1 ≤ 1 ∧ q.xargLen = 32 ∧ (report v q.tenant q.xarg (decide (q.arg 20 1 = 1))).length ≤ q.room := by
  have h : ∃ q v, Ready cmdAttest 5 (asked tenant 5 cmdAttest.op [] (List.replicate 32 7) 3552) q v ∧
      (RestZero q [(20, 1)] ∧ q.arg 20 1 = 0 ∧ q.xargLen = 32 ∧ v.scheds = [] ∧ q.room = 3552) := exists_ready (by decide +kernel)
  obtain ⟨q, v, hr, h1, h2, h3, h4, h5⟩ := h
  refine ⟨5, _, q, v, hr, h1, by omega, h3, ?_⟩
  rw [h2, h5]
  simp [report_length _ _ h4]

/-- An image whose only section is a REFRESH or RESERVE section with one entry: stack 15, the first 1,000 ns. -/
def windowImage (type : Nat) : Bytes :=
  putBytes (putNat (putNat (putNat (putNat (List.replicate 184 0) 12 2 1) 128 2 type) 136 8 160) 144 8 24) 160 (natLe 0x8000 2 ++ natLe 0 10 ++ natLe 2000 4 ++ natLe 50 8)

/-- An image whose only section holds paddock 15's trigger 0, at the start and due after 1 ns. -/
def lateImage : Bytes :=
  putBytes (putNat (putNat (putNat (putNat (putNat (List.replicate 176 0) 12 2 1) 128 2 2) 130 2 15) 136 8 160) 144 8 16) 160 (natLe 0 10 ++ natLe 1 4 ++ natLe 0 2)

/-- Paddock 15 runs a schedule whose trigger 0 is late. -/
def late : State :=
  { dev := { mode := .inService }, clock := { fold3 := 2000 }, scheds := [(63, { ctx := 0, image := lateImage, st := .running, t0 := some 0 })], engines := [(15, { sched := some 63 })] }

/-- The request of an ATOMIC of a SUBOP with `n` operand bytes, on the last 8 bytes of the last extent. -/
def atomicAsked (k n : Nat) : State :=
  { dev := { mode := .inService }, locals := [{ id := 1, ipv6 := false, ip := 0 }], sessions := [(64, { st := .opened, ctx := some 0, peer := 2, window := 16, w := 16 })]
    ctxs := [(0, { st := .active, segs := [(7, { flags := 0x17, base := 0, list := [{ extent := 1775, gen := 0 }] })] })], extents := [(1775, { st := .granted, owner := 0 })]
    stks := (List.range 16).map (fun t => (t, { inService := true }))
    ports := [(63, { link := .up, rx := [{ frame := { len := 200, body := .eruno { opcode := 4, dst := 1, src := 2, session := 64, subop := BitVec.ofNat 8 k, operand := 0x3FFFFFF8, payload := List.replicate n 3 } }, stamp := 0, opened := true }] })] }

/-- An image whose only section gives paddock 15 a partition of 512 KiB and a receive range of its first 4,096 bytes. -/
def receiveImage : Bytes :=
  putBytes (putNat (putNat (putNat (putNat (putNat (List.replicate 176 0) 12 2 1) 128 2 3) 130 2 15) 136 8 160) 144 8 16) 160 ([1, 1] ++ List.replicate 6 0 ++ natLe 0 4 ++ natLe 4096 4)

/-- The answer with opcode `op` to a request of a kind stands at port 63. -/
def hostAnswered (k : OutKind) (op : Nat) : State :=
  { dev := { mode := .inService }, locals := [{ id := 1, ipv6 := false, ip := 0 }], sessions := [(65535, { st := .opened, ctx := some 0, peer := 2 })]
    outstanding := [{ session := 65535, tag := 9, seq := 0, kind := k, issuedAt := 0 }]
    ports := [(63, { link := .up, rx := [{ frame := { len := 200, body := .eruno { opcode := BitVec.ofNat 8 op, flags := 1, dst := 1, src := 2, session := 65535, tag := 9 } }, stamp := 0, opened := true }] })] }

/-- An Eruno frame stands at port 63 of the endpoint 1. -/
def sent (e : Eruno) : State :=
  { dev := { mode := .inService }, locals := [{ id := 1, ipv6 := false, ip := 0 }], ports := [(63, { link := .up, rx := [{ frame := { len := 200, body := .eruno e }, stamp := 0 }] })] }

/-- A packet stands at port 63, for the last queue pair, which is ready. -/
def packet (r : Roce) (x : Qp) : State :=
  { dev := { mode := .inService }, qps := [(16383, { x with st := .ready, ctx := some 0 })], ports := [(63, { link := .up, rx := [{ frame := { len := 200, udpPort := 4791, body := .roce r }, stamp := 0 }] })] }

/-- A PTP message stands at port 63. -/
def message (m : Ptp) (c : TimeConfig) (p : PtpPort) : State :=
  { dev := { mode := .inService }, clock := { config := c }, ptp := [(63, p)], ports := [(63, { link := .up, rx := [{ frame := { len := 200, body := .ptp m }, stamp := 0 }] })] }

/-! ### The engine -/

/-- An image with paddock 15's trigger 0 at the start, and its stream of one bundle. -/
def issueImage : Bytes :=
  let b := putNat (putNat (putNat (putNat (putNat (List.replicate 272 0) 12 2 2) 128 2 2) 130 2 15) 136 8 192) 144 8 16
  putNat (putNat (putNat (putNat b 160 2 1) 162 2 15) 168 8 208) 176 8 64

/-- Paddock 15 stands before a bundle with a slot, in a running schedule of context 0, which owns sync object 65535 and sequence 0. -/
def issuing (k : Nat) (x : Slot) (store : Memory := []) (more : Engine → Engine := id) : State :=
  let z := slotOf 0
  let w := match k with | 0 => bundleOf x z z z | 1 => bundleOf z x z z | 2 => bundleOf z z x z | _ => bundleOf z z z x
  { dev := { mode := .inService }, ctxs := [(0, { st := .active })], sync := [(65535, { owner := some 0, value := 5 })], seqs := [(0, { owner := some 0, n := 5 })]
    scheds := [(63, { ctx := 0, image := issueImage, st := .running, t0 := some 0 })]
    engines := [(15, more { sched := some 63, issuing := true, partition := 524288, imem := [(0, w)], store := store, qlen := [(0, 1024)] })] }

/-- The mover descriptor of kind 2: 64 bytes of the store's start to the pool. -/
def moverBytes : Bytes := putNat (putNat (putNat (putNat (List.replicate 64 0) 0 1 2) 2 2 0xFFFF) 4 4 64) 8 4 1

/-- A slot for each operation, with the slot's number and the opcode's operation. -/
def opRows : List (Nat × Slot × Op) :=
  let z := slotOf 0
  [(0, z, .nop), (0, { z with op := 0x01 }, .halt), (0, { z with op := 0x02, imm := 16383 }, .br), (0, { z with op := 0x03, imm := 4096, imm2 := 3 }, .loop),
   (0, { z with op := 0x08, d := 63, a := 1 }, .add), (0, { z with op := 0x09, d := 63, imm := 0xFFFFFFFF }, .addi), (0, { z with op := 0x0A, d := 63 }, .sub),
   (0, { z with op := 0x0B, d := 63 }, .mul), (0, { z with op := 0x0C, d := 63 }, .and), (0, { z with op := 0x0D, d := 63 }, .or), (0, { z with op := 0x0E, d := 63 }, .xor),
   (0, { z with op := 0x0F, d := 63 }, .shl), (0, { z with op := 0x10, d := 63 }, .shr), (0, { z with op := 0x11, d := 63 }, .sra), (0, { z with op := 0x12, d := 63 }, .li),
   (0, { z with op := 0x13, d := 63 }, .lih), (0, { z with op := 0x18, d := 7, c := 5 }, .cmp), (0, { z with op := 0x19, d := 7, c := 5 }, .cmpi),
   (0, { z with op := 0x1A, d := 7, c := 3 }, .plog), (0, { z with op := 0x20, d := 31, c := 1 }, .aset), (0, { z with op := 0x21, d := 31 }, .aadd),
   (0, { z with op := 0x22, d := 31 }, .aaddi), (0, { z with op := 0x23, d := 63, a := 31 }, .aget), (0, { z with op := 0x24, d := 63, imm := 64 }, .lds),
   (0, { z with op := 0x25, b := 1, imm := 64 }, .sts), (0, { z with op := 0x26, d := 63, a := 3 }, .mvstat), (0, { z with op := 0x30 }, .waitTime),
   (0, { z with op := 0x31, x := 65535, imm := 5 }, .waitSync), (0, { z with op := 0x32, a := 3 }, .waitMover), (0, { z with op := 0x33, c := 7 }, .waitUnit),
   (0, { z with op := 0x34, x := 65535, imm := 0xFFFFFFFF }, .signal), (0, { z with op := 0x35, x := 65535 }, .syncReset), (0, { z with op := 0x36 }, .done),
   (0, { z with op := 0x38, x := 16383, imm2 := 1 }, .ovl), (0, { z with op := 0x39 }, .ovlWait), (0, { z with op := 0x3A, x := 5 }, .trace),
   (1, { z with op := 0x01, d := 3 }, .mvIssue), (1, { z with op := 0x02, d := 3, b := 0xFF, c := 0xFF }, .mvIssuex),
   (2, { z with op := 0x01, d := 15, c := 0xA, imm := 32 }, .prQload), (2, { z with op := 0x02, b := 1, c := 0xAA, imm := 1, imm2 := 32 }, .prPass),
   (2, { z with op := 0x04, imm := 64 }, .prClr),
   (3, { z with op := 0x01, d := 31, c := 0xA }, .vld), (3, { z with op := 0x02, b := 31, c := 0xA, d := 1 }, .vst), (3, { z with op := 0x03, d := 31 }, .vacc),
   (3, { z with op := 0x04, a := 31 }, .vaccw), (3, { z with op := 0x05, d := 15, b := 1, c := 0xA }, .vmovq), (3, { z with op := 0x08, d := 31 }, .vadd),
   (3, { z with op := 0x09, d := 31 }, .vsub), (3, { z with op := 0x0A, d := 31 }, .vmul), (3, { z with op := 0x0B, d := 31 }, .vfma), (3, { z with op := 0x0C, d := 31 }, .vmax),
   (3, { z with op := 0x0D, d := 31 }, .vmin), (3, { z with op := 0x0E, d := 31 }, .vbcast), (3, { z with op := 0x0F, d := 31 }, .vseti), (3, { z with op := 0x14, d := 63 }, .vredsum),
   (3, { z with op := 0x15, d := 63 }, .vredmax), (3, { z with op := 0x18, d := 31 }, .vexp2), (3, { z with op := 0x19, d := 31 }, .vlog2), (3, { z with op := 0x1A, d := 31 }, .vrcp),
   (3, { z with op := 0x1B, d := 31 }, .vrsqrt), (3, { z with op := 0x1C, d := 31 }, .vsilu), (3, { z with op := 0x1D, d := 31 }, .vsigm), (3, { z with op := 0x20, d := 31 }, .vrope),
   (3, { z with op := 0x21, d := 31, c := 64 }, .vtopk)]

/-- The store of a Lens walk: at 64 and 128 the descriptors of two BF16 ranges of dimension 64 and sequence 0, at 192 their run of 32 tokens,
at 256 the list of one block, and at 320 that block; at 0 the descriptor of a walk. -/
def walkStore (w : Bytes) : Memory :=
  let range := fun role => natLe 0xA 1 ++ natLe role 1 ++ natLe 64 2 ++ natLe 0 2 ++ natLe 1 2 ++ natLe 32 4 ++ natLe 192 4
  mwriteN (mwriteN (mwriteN (mwriteN (mwriteN (mwriteN [] 0 w) 64 (range 0)) 128 (range 1)) 192 (natLe 4096 8 ++ natLe 32 4)) 256 (natLe 320 4)) 320 [0, 0, 1, 0, 64, 0]

/-- The descriptors of a walk of each mode over these ranges. -/
def walks : List Bytes :=
  [putNat (putNat (putNat (putNat (putNat (List.replicate 64 0) 3 1 1) 4 1 0xA) 20 4 64) 24 4 128) 28 4 640,
   putNat (putNat (putNat (putNat (List.replicate 64 0) 0 1 1) 3 1 1) 20 4 64) 24 4 128,
   putNat (putNat (putNat (List.replicate 64 0) 0 1 2) 3 1 1) 32 4 256,
   putNat (putNat (List.replicate 64 0) 0 1 3) 20 4 64]

/-- A request of 64 zero bytes in mailbox 5. -/
def plain : Req := { m := 5, index := 255, slot := List.replicate 64 0, xarg := [], binding := 0, room := 8, owes := { objType := 0x0A, objId := 0, mailbox := 5, tag := 0, opcode := 0 } }

/-- The lease of context 0 ran out a second ago. -/
def leaseRunOut (s : State) : State := { s with now := 2000000000, ctxs := [(0, { st := .active, leaseMs := 1000, leaseStart := 0 })] }

set_option Elab.async false
set_option maxRecDepth 100000
set_option linter.unusedVariables false

/-! ### Well-formedness refuses -/

theorem wf_csr_write : (Instr.csrWrite (.direct .mgmt 0x1002 [1, 2, 3, 4])).wellFormed = false := by decide
theorem wf_csr_read_length : (Instr.csrRead (.direct .mgmt 0 8196)).wellFormed = false := by decide
theorem wf_home_data_line : (Instr.homeMemoryDataIn 0 64).wellFormed = false := by decide
theorem wf_comp_ack_line : (Instr.compAckTimeout 0 1).wellFormed = false := by decide
theorem wf_snoop_line : (Instr.snoopTimeout 0 127 0).wellFormed = false := by decide
theorem wf_stash_line : (Instr.stashOfferTimeout 0 129).wellFormed = false := by decide
theorem wf_short_frame : (Instr.linkFrameReceive 0 0 { preamble := List.replicate 6 0, frame := { len := 63, body := .other } }).wellFormed = false := by decide
theorem wf_preamble : (Instr.linkFrameReceive 0 0 { preamble := List.replicate 7 0, frame := { len := 64, body := .other } }).wellFormed = false := by decide
theorem wf_stack_temperatures : (Instr.temperatureRead 0 (List.replicate 15 40)).wellFormed = false := by decide
theorem wf_die_temperatures : (Instr.dieTemperatureRead 0 [40, 40, 40]).wellFormed = false := by decide
theorem wf_access_line : (Instr.stackAccessComplete 0 0 64 {}).wellFormed = false := by decide
theorem wf_access_symbol_twice : (Instr.stackAccessComplete 0 0 128 { errs := [(5, 1), (5, 2)] }).wellFormed = false := by decide
theorem wf_scrub_symbol : (Instr.patrolScrubRead 0 0 { errs := [(144, 1)] }).wellFormed = false := by decide
theorem wf_scrub_no_error : (Instr.patrolScrubRead 0 0 { errs := [(3, 0)] }).wellFormed = false := by decide
theorem wf_fence_extent : (Instr.fenceDrained 0 1776).wellFormed = false := by decide
theorem wf_fence_timeout_extent : (Instr.fenceDrainTimeout 0 1776).wellFormed = false := by decide
theorem wf_clearing_extent : (Instr.clearingComplete 0 1776).wellFormed = false := by decide
theorem wf_array_unit : (Instr.arrayUe 0 .tallyEntry 4 0).wellFormed = false := by decide
theorem wf_dump_unit : (Instr.dumpUnitTimeout 0 0x44).wellFormed = false := by decide
theorem wf_bring_up_rail : (Instr.stackBringUpDone 0 { rails := [(0, 3, 1000)] }).wellFormed = false := by decide
theorem wf_bring_up_stack : (Instr.stackBringUpDone 0 { totals := [(16, 1)] }).wellFormed = false := by decide

/-! ### The spec's worked values -/

/-- 03, worked mappings: address 1. -/
theorem test_home_address_1 :
    stripeOf 1000000 = 17 ∧ unitOf 1000000 = 6 ∧ parityHome 17 = 1 ∧ spareStack 17 = 2 ∧ dataHome 17 6 = 9 ∧ localOf 1000000 = 70208 := by decide
/-- 03, worked mappings: address 2, and its reversal. -/
theorem test_home_address_2 :
    stripeOf 1073741824000 = 18724571 ∧ unitOf 1073741824000 = 6 ∧ dataHome 18724571 6 = 3 ∧ localOf 1073741824000 = 76695842816 ∧
    contentOf 3 76695842816 = .data 18724571 6 ∧ unitAddr 18724571 6 = 1073741824000 := by decide
/-- 03, worked mappings: address 3, before and after stack 4 has been rebuilt. -/
theorem test_home_address_3 :
    stripeOf 0x01BC00000000 = 33254838 ∧ dataHome 33254838 12 = 4 ∧ localOf 0x01BC00000000 = 136211816448 ∧ placed State.reset 33254838 4 = 4 ∧
    placed { layout := { st := .rebuilt, f := some 4 } } 33254838 4 = 7 := by decide
/-- 09: address 1 lies in group 1, bank 1, row 0, and its byte 64 on die 12. -/
theorem test_line_map : groupOf State.reset 70144 = 1 ∧ lgOf State.reset 70144 = 132 ∧ bankOf State.reset 70144 = 1 ∧ rowOf State.reset 70144 = 0 ∧ dieOf State.reset 70144 8 = 12 := by decide
/-- 04, a bundle encoded. -/
theorem test_bundle_encoded :
    (bundleOps (BitVec.ofNat 512 (0x00110000_00000030 + 0x04000001 * 2 ^ 128 + 0x0000040000000400_0000A00100000002 * 2 ^ 256))).map (·.op) = [.waitTime, .mvIssue, .prPass, .nop] ∧
    (slotOf 0x0011000000000030).x = 17 ∧ (slotOf 0x04000001).a = 4 ∧
    (slotOf 0x00000400000004000000A00100000002) = { slotOf 0 with op := 2, b := 1, c := 0xA0, imm := 1024, imm2 := 1024 } := by decide +kernel
/-- 04, a pass worked through (MXFP4), and the traced step's pass (FP8 E4M3). -/
theorem test_pass_bytes :
    (({ mover := 0, row := 0, rows := 16, wfmt := 6, qfmt := 0xA, acc := 0, n := 2048, k := 4096, accumulate := false } : Pass).bytes = 4456448) ∧
    (({ mover := 0, row := 0, rows := 16, wfmt := 6, qfmt := 0xA, acc := 0, n := 2048, k := 4096, accumulate := false } : Pass).entries = 32768) ∧
    (({ mover := 0, row := 0, rows := 1, wfmt := 0, qfmt := 0xA, acc := 0, n := 1024, k := 1024, accumulate := false } : Pass).bytes = 1048576) := by decide
/-- 09, the window check worked: refused with LENGTH 1,000, admitted with 1,200, refused where the interval halves. -/
theorem test_windows :
    windowsPass 7800 390 24000 [(2000, 3000), (9000, 9800)] = false ∧ windowsPass 7800 390 24000 [(2000, 3200), (9000, 9800)] = true ∧
    windowsPass 3900 390 24000 [(2000, 3200), (9000, 9800)] = false := by decide
/-- 08: trigger 98 fires in step k at T0 + 605,563 + k × 1,178,000. -/
theorem test_trigger_instant : ({ offset := 605563, period := 1178000, deadline := 400, abort := false } : Trigger).instant 1000 3 = 1000 + 605563 + 3 * 1178000 := by decide
/-- 06: a block of four rows of dimension 128 is 2,144 bytes. -/
theorem test_block_length : blockLen 4 128 = 2144 := by decide
/-- 07 R190: a signal saturates at 2^32 − 1. -/
theorem test_signal_saturates : ((syncSignal { sync := [(5, { owner := some 0, value := 0xFFFFFFFE })] } 5 2).syncObj 5).value = 0xFFFFFFFF := by decide
/-- 05: 1 + 1 = 2, 1 + 2^-24 rounds to 1, −0 + −0 = −0, 1.5 × 2 = 3. -/
theorem test_fp32 : addF 0x3F800000 0x3F800000 = 0x40000000 ∧ addF 0x3F800000 0x33800000 = 0x3F800000 ∧ addF 0x80000000 0x80000000 = 0x80000000 ∧
    mulF 0x3FC00000 0x40000000 = 0x40400000 := by decide

/-! ### Every hypothesis is met -/

/-- What the hypotheses of `Obligations.SessionCommandsComplete` ask for is met. -/
theorem witness_SessionCommandsComplete :
    (∃ (m : Fin 1029) (s : State) (q : Req) (v : State), Ready cmdDeviceStatus m s q v ∧ (RestZero q [])) ∧
    (∃ (m : Fin 1029) (s : State) (q : Req) (v : State), Ready cmdSetAcctPeriod m s q v ∧ (RestZero q [(20, 8)] ∧ 100000 ≤ q.arg 20 8 ∧ q.arg 20 8 ≤ 10000000000)) ∧
    (∃ (m : Fin 1029) (s : State) (q : Req) (v : State), Ready cmdMailboxReset m s q v ∧ (RestZero q [])) ∧
    (∃ (m : Fin 1029) (s : State) (r : Role) (q : Req) (v : State), Ready cmdRoleChallenge m s q v ∧ (RestZero q [(20, 1)] ∧ roleOfCode (q.arg 20 1) = some r ∧ roleLocked v r = false)) ∧
    (∃ (m : Fin 1029) (s : State) (r : Role) (n : Nonce) (q : Req) (v : State), Ready cmdRoleProve m s q v ∧ (RestZero q [(20, 1)] ∧ roleOfCode (q.arg 20 1) = some r ∧ roleLocked v r = false ∧ openSessions v r < 8 ∧ v.auth.nonces.find? (fun x => x.role == r && x.binding == q.binding) = some n ∧ v.now - n.issued ≤ secNs 10)) ∧
    (∃ (m : Fin 1029) (s : State) (q : Req) (v : State), Ready cmdRoleEnd m s q v ∧ (RestZero q [])) :=
  ⟨⟨5, asked {} 5 cmdDeviceStatus.op [] [] 0, exists_ready (by decide +kernel)⟩,
    ⟨0, asked {} 0 cmdSetAcctPeriod.op [(20, 8, 10000000000)] [] 0, exists_ready (by decide +kernel)⟩,
    ⟨5, asked {} 5 cmdMailboxReset.op [] [] 0, exists_ready (by decide +kernel)⟩,
    ⟨3, asked {} 3 cmdRoleChallenge.op [(20, 1, 4)] [] 0, .maker, exists_ready (by decide +kernel)⟩,
    ⟨3, asked { auth := { nonces := [{ role := .operator, binding := 0, value := 5, issued := 0 }] } } 3 cmdRoleProve.op [(20, 1, 2)] (List.replicate 3309 0) 0, .operator, { role := .operator, binding := 0, value := 5, issued := 0 }, exists_ready (by decide +kernel)⟩,
    ⟨0, asked {} 0 cmdRoleEnd.op [] [] 0, exists_ready (by decide +kernel)⟩⟩

/-- What the hypotheses of `Obligations.ContextCommandsComplete` ask for is met. -/
theorem witness_ContextCommandsComplete :
    (∃ (m : Fin 1029) (s : State) (q : Req) (v : State), Ready cmdContextCreate m s q v ∧ (RestZero q [(20, 12)] ∧ q.arg 20 2 ≤ 1023 ∧ (q.arg 22 4 = 0 ∨ (100 ≤ q.arg 22 4 ∧ q.arg 22 4 ≤ 60000)) ∧ q.arg 26 4 ≤ 65536 ∧ q.arg 30 2 ≤ v.tenantExtents ∧ (v.ctx (q.arg 20 2)).st = .none)) ∧
    (∃ (m : Fin 1029) (s : State) (q : Req) (v : State), Ready cmdContextDestroy m s q v ∧ (RestZero q [(20, 2)] ∧ q.arg 20 2 ≤ 1023 ∧ ((v.ctx (q.arg 20 2)).st = .active ∨ (v.ctx (q.arg 20 2)).st = .lapsed))) ∧
    (∃ (m : Fin 1029) (s : State) (q : Req) (v : State), Ready cmdContextStatus m s q v ∧ (RestZero q [(20, 2)] ∧ (q.ctx? = none → q.arg 20 2 ≤ 1023))) ∧
    (∃ (m : Fin 1029) (s : State) (q : Req) (v : State), Ready cmdLeaseSet m s q v ∧ (RestZero q [(20, 6)] ∧ q.arg 20 2 ≤ 1023 ∧ 100 ≤ q.arg 22 4 ∧ q.arg 22 4 ≤ 60000 ∧ ((v.ctx (q.arg 20 2)).st = .active ∨ (v.ctx (q.arg 20 2)).st = .lapsed))) ∧
    (∃ (m : Fin 1029) (s : State) (q : Req) (v : State), Ready cmdLeaseRenew m s q v ∧ (RestZero q [(20, 2), (24, 4)] ∧ (q.ctx? = none → q.arg 20 2 ≤ 1023) ∧ (v.ctx (namedCtx q)).st = .active ∧ q.arg 24 4 = v.aon.bootEpoch.toNat)) ∧
    (∃ (m : Fin 1029) (s : State) (q : Req) (v : State), Ready cmdLimitsSet m s q v ∧ (RestZero q [(20, 2), (26, 6)] ∧ q.arg 20 2 ≤ 1023 ∧ q.arg 26 4 ≤ 65536 ∧ q.arg 30 2 ≤ v.tenantExtents ∧ (v.ctx (q.arg 20 2)).st ≠ .none)) ∧
    (∃ (m : Fin 1029) (s : State) (c : Nat) (q : Req) (v : State), Ready cmdTranslationFlush m s q v ∧ (RestZero q [(20, 2)] ∧ flushCtx v q = some c ∧ (q.arg 20 2 = 0xFFFF ∨ (v.session (q.arg 20 2)).ctx = some c))) :=
  ⟨⟨0, asked {} 0 cmdContextCreate.op [(20, 2, 1023), (22, 4, 60000), (26, 4, 65536), (30, 2, 1776)] [] 0, exists_ready (by decide +kernel)⟩,
    ⟨0, asked tenant 0 cmdContextDestroy.op [] [] 0, exists_ready (by decide +kernel)⟩,
    ⟨5, asked {} 5 cmdContextStatus.op [] [] 0, exists_ready (by decide +kernel)⟩,
    ⟨0, asked tenant 0 cmdLeaseSet.op [(22, 4, 100)] [] 0, exists_ready (by decide +kernel)⟩,
    ⟨5, asked tenant 5 cmdLeaseRenew.op [] [] 0, exists_ready (by decide +kernel)⟩,
    ⟨0, asked tenant 0 cmdLimitsSet.op [(26, 4, 65536), (30, 2, 1776)] [] 0, exists_ready (by decide +kernel)⟩,
    ⟨5, asked tenant 5 cmdTranslationFlush.op [(20, 2, 0xFFFF)] [] 0, 0, exists_ready (by decide +kernel)⟩⟩

/-- What the hypotheses of `Obligations.SegmentCommandsComplete` ask for is met. -/
theorem witness_SegmentCommandsComplete :
    (∃ (m : Fin 1029) (s : State) (q : Req) (v : State), Ready cmdSegmentSet m s q v ∧ (RestZero q [(20, 12)] ∧ q.arg 20 1 ≤ 7 ∧ q.arg 21 1 < 64 ∧ (bit (q.arg 21 1) 2 = true → bit (q.arg 21 1) 1 = true) ∧ 1 ≤ q.arg 22 2 ∧ q.arg 22 2 ≤ 256 ∧ q.arg 24 8 % 2 ^ 30 = 0 ∧ q.arg 24 8 + q.arg 22 2 * 2 ^ 30 ≤ 2 ^ 48 ∧ q.xargLen = 4 * q.arg 22 2 ∧ entryRangeFault v q.xarg (q.arg 22 2) = none ∧ (∀ e ∈ segEntries q.xarg (q.arg 22 2), extentOf v q.tenant e.extent = true) ∧ (∀ g ∈ otherSegments v q.tenant (q.arg 20 1), segOverlap (q.arg 24 8) (q.arg 22 2) g = false) ∧ entryFault v (otherSegments v q.tenant (q.arg 20 1)) (segEntries q.xarg (q.arg 22 2)) 0 [] = none ∧ agentOn v q.tenant (q.arg 20 1) = false)) ∧
    (∃ (m : Fin 1029) (s : State) (g : Segment) (q : Req) (v : State), Ready cmdSegmentClear m s q v ∧ (RestZero q [(20, 1)] ∧ q.arg 20 1 ≤ 7 ∧ tget? (v.ctx q.tenant).segs (q.arg 20 1) = some g ∧ (g.coherent = true → agentOn v q.tenant (q.arg 20 1) = false))) ∧
    (∃ (m : Fin 1029) (s : State) (g : Segment) (q : Req) (v : State), Ready cmdSegmentQuery m s q v ∧ (RestZero q [(20, 1)] ∧ q.arg 20 1 ≤ 7 ∧ tget? (v.ctx q.tenant).segs (q.arg 20 1) = some g)) ∧
    (∃ (m : Fin 1029) (s : State) (q : Req) (v : State), Ready cmdSegmentQuery m s q v ∧ (RestZero q [(20, 1)] ∧ q.arg 20 1 ≤ 7 ∧ tget? (v.ctx q.tenant).segs (q.arg 20 1) = none)) :=
  ⟨⟨5, asked { tenant with extents := [(0, { st := .granted, owner := 0 })] } 5 cmdSegmentSet.op [(20, 1, 7), (21, 1, 0x37), (22, 2, 1), (24, 8, 0)] [0, 0, 0, 0] 0, exists_ready (by decide +kernel)⟩,
    ⟨5, asked { tenant with ctxs := [(0, { st := .active, segs := [(0, { flags := 0x13, base := 0, list := [{ extent := 0, gen := 0 }] })] })] } 5 cmdSegmentClear.op [] [] 0, { flags := 0x13, base := 0, list := [{ extent := 0, gen := 0 }] }, exists_ready (by decide +kernel)⟩,
    ⟨5, asked { tenant with ctxs := [(0, { st := .active, segs := [(0, { flags := 0x13, base := 0, list := [{ extent := 0, gen := 0 }] })] })] } 5 cmdSegmentQuery.op [] [] 0, { flags := 0x13, base := 0, list := [{ extent := 0, gen := 0 }] }, exists_ready (by decide +kernel)⟩,
    ⟨5, asked tenant 5 cmdSegmentQuery.op [(20, 1, 7)] [] 0, exists_ready (by decide +kernel)⟩⟩

/-- What the hypotheses of `Obligations.ExtentCommandsComplete` ask for is met. -/
theorem witness_ExtentCommandsComplete :
    (∃ (m : Fin 1029) (s : State) (q : Req) (v : State), Ready cmdExtentGrant m s q v ∧ (RestZero q [(20, 6)] ∧ q.arg 20 2 ≤ 1023 ∧ 1 ≤ q.arg 24 2 ∧ q.arg 24 2 ≤ 256 ∧ q.arg 22 2 + q.arg 24 2 ≤ v.tenantExtents ∧ (v.ctx (q.arg 20 2)).st = .active ∧ (∀ e, q.arg 22 2 ≤ e → e < q.arg 22 2 + q.arg 24 2 → (v.extent e).st = .free) ∧ (heldExtents v (q.arg 20 2)).length + q.arg 24 2 ≤ (v.ctx (q.arg 20 2)).extentLimit)) ∧
    (∃ (m : Fin 1029) (s : State) (q : Req) (v : State), Ready cmdExtentRevoke m s q v ∧ (RestZero q [(22, 4)] ∧ 1 ≤ q.arg 24 2 ∧ q.arg 24 2 ≤ 256 ∧ q.arg 22 2 + q.arg 24 2 ≤ v.tenantExtents ∧ (∀ e, q.arg 22 2 ≤ e → e < q.arg 22 2 + q.arg 24 2 → (v.extent e).st = .granted))) ∧
    (∃ (m : Fin 1029) (s : State) (q : Req) (v : State), Ready cmdExtentStatus m s q v ∧ (RestZero q [(22, 2)] ∧ q.arg 22 2 < v.tenantExtents ∧ (q.ctx?.isSome = true → (v.extent (q.arg 22 2)).st ≠ .free ∧ (v.extent (q.arg 22 2)).owner = q.tenant))) ∧
    (∃ (m : Fin 1029) (s : State) (q : Req) (v : State), Ready cmdExtentList m s q v ∧ (RestZero q [(20, 2)] ∧ (q.ctx? = none → q.arg 20 2 ≤ 1023))) :=
  ⟨⟨0, asked tenant 0 cmdExtentGrant.op [(22, 2, 1520), (24, 2, 256)] [] 0, exists_ready (by decide +kernel)⟩,
    ⟨0, asked { tenant with extents := [(1775, { st := .granted, owner := 0 })] } 0 cmdExtentRevoke.op [(22, 2, 1775), (24, 2, 1)] [] 0, exists_ready (by decide +kernel)⟩,
    ⟨5, asked { tenant with extents := [(1775, { st := .granted, owner := 0 })] } 5 cmdExtentStatus.op [(22, 2, 1775)] [] 0, exists_ready (by decide +kernel)⟩,
    ⟨0, asked {} 0 cmdExtentList.op [(20, 2, 1023)] [] 0, exists_ready (by decide +kernel)⟩⟩

/-- What the hypotheses of `Obligations.ScheduleCommandsComplete` ask for is met. -/
theorem witness_ScheduleCommandsComplete :
    (∃ (m : Fin 1029) (s : State) (q : Req) (v : State), Ready cmdSchedLoad m s q v ∧ (RestZero q [(20, 16)] ∧ 1 ≤ q.arg 28 8 ∧ q.arg 28 8 ≤ 2 ^ 30)) ∧
    (∃ (m : Fin 1029) (s : State) (x : Sched) (q : Req) (v : State), Ready cmdSchedAdmit m s q v ∧ (RestZero q [(20, 1)] ∧ q.arg 20 1 ≤ 63 ∧ v.sched? (q.arg 20 1) = some x ∧ x.st.live = false ∧ admissible v x.image = true ∧ q.ctx? = none)) ∧
    (∃ (m : Fin 1029) (s : State) (x : Sched) (q : Req) (v : State), Ready cmdSchedArm m s q v ∧ (RestZero q [(20, 1), (24, 16)] ∧ q.arg 20 1 ≤ 63 ∧ v.sched? (q.arg 20 1) = some x ∧ q.ctx? = some x.ctx ∧ x.st.live = false ∧ (imagePrivileged x.image = true → x.admitted = true) ∧ (bellwether x.image = 0xFFFF → q.arg 24 8 ≠ 0 ∧ v.ct + 200000 ≤ q.arg 24 8) ∧ (bellwether x.image ≠ 0xFFFF → q.arg 24 8 = 0) ∧ imageEpoch x.image = v.layout.epoch.toNat ∧ imageOwned v x.image = true ∧ (v.clock.st = .locked ∨ imageDevices x.image = 1) ∧ paddocksFree v (q.arg 20 1) x.image = true ∧ windowsFree v (q.arg 20 1) x.image = true)) ∧
    (∃ (m : Fin 1029) (s : State) (x : Sched) (q : Req) (v : State), Ready cmdSchedDisarm m s q v ∧ (RestZero q [(20, 1)] ∧ q.arg 20 1 ≤ 63 ∧ v.sched? (q.arg 20 1) = some x ∧ q.ctx? = some x.ctx ∧ x.st = .armed ∧ x.latched = false ∧ (x.t0).all (fun t0 => decide (v.ct + 2000 < t0)) = true)) ∧
    (∃ (m : Fin 1029) (s : State) (x : Sched) (q : Req) (v : State), Ready cmdSchedAbort m s q v ∧ (RestZero q [(20, 1)] ∧ q.arg 20 1 ≤ 63 ∧ v.sched? (q.arg 20 1) = some x ∧ (q.ctx?).all (fun c => decide (x.ctx = c)) = true ∧ x.st.live = true)) ∧
    (∃ (m : Fin 1029) (s : State) (x : Sched) (q : Req) (v : State), Ready cmdSchedUnload m s q v ∧ (RestZero q [(20, 1)] ∧ q.arg 20 1 ≤ 63 ∧ v.sched? (q.arg 20 1) = some x ∧ (q.ctx?).all (fun c => decide (x.ctx = c)) = true ∧ x.st.live = false)) ∧
    (∃ (m : Fin 1029) (s : State) (x : Sched) (q : Req) (v : State), Ready cmdSchedStatus m s q v ∧ (RestZero q [(20, 1)] ∧ q.arg 20 1 ≤ 63 ∧ v.sched? (q.arg 20 1) = some x ∧ (q.ctx?).all (fun c => decide (x.ctx = c)) = true)) :=
  ⟨⟨5, asked tenant 5 cmdSchedLoad.op [(28, 8, 1073741824)] [] 0, exists_ready (by decide +kernel)⟩,
    ⟨0, asked { tenant with clock := { st := .locked }, scheds := [(63, { ctx := 0, image := [] })] } 0 cmdSchedAdmit.op [(20, 1, 63)] [] 0, { ctx := 0, image := [] }, exists_ready (by decide +kernel)⟩,
    ⟨5, asked { tenant with layout := { epoch := 0 }, clock := { st := .locked }, scheds := [(63, { ctx := 0, image := [] })] } 5 cmdSchedArm.op [(20, 1, 63)] [] 0, { ctx := 0, image := [] }, exists_ready (by decide +kernel)⟩,
    ⟨5, asked { tenant with clock := { st := .locked }, scheds := [(63, { ctx := 0, image := [], st := .armed, t0 := some 2001 })] } 5 cmdSchedDisarm.op [(20, 1, 63)] [] 0, { ctx := 0, image := [], st := .armed, t0 := some 2001 }, exists_ready (by decide +kernel)⟩,
    ⟨0, asked { tenant with clock := { st := .locked }, scheds := [(63, { ctx := 0, image := [], st := .armed, t0 := some 2001 })] } 0 cmdSchedAbort.op [(20, 1, 63)] [] 0, { ctx := 0, image := [], st := .armed, t0 := some 2001 }, exists_ready (by decide +kernel)⟩,
    ⟨5, asked { tenant with clock := { st := .locked }, scheds := [(63, { ctx := 0, image := [] })] } 5 cmdSchedUnload.op [(20, 1, 63)] [] 0, { ctx := 0, image := [] }, exists_ready (by decide +kernel)⟩,
    ⟨5, asked { tenant with clock := { st := .locked }, scheds := [(63, { ctx := 0, image := [] })] } 5 cmdSchedStatus.op [(20, 1, 63)] [] 0, { ctx := 0, image := [] }, exists_ready (by decide +kernel)⟩⟩

/-- What the hypotheses of `Obligations.SyncCommandsComplete` ask for is met. -/
theorem witness_SyncCommandsComplete :
    (∃ (m : Fin 1029) (s : State) (q : Req) (v : State), Ready cmdSyncAlloc m s q v ∧ (RestZero q [(20, 4)] ∧ 1 ≤ q.arg 22 2 ∧ q.arg 22 2 ≤ 16384 ∧ q.arg 20 2 + q.arg 22 2 ≤ 65536 ∧ (∀ i ∈ idRange q, (v.syncObj i).owner = none) ∧ syncOwned v q.tenant + q.arg 22 2 ≤ (v.ctx q.tenant).syncLimit)) ∧
    (∃ (m : Fin 1029) (s : State) (q : Req) (v : State), Ready cmdSyncFree m s q v ∧ (RestZero q [(20, 4)] ∧ 1 ≤ q.arg 22 2 ∧ q.arg 22 2 ≤ 16384 ∧ q.arg 20 2 + q.arg 22 2 ≤ 65536 ∧ (∀ i ∈ idRange q, (v.syncObj i).owner = some q.tenant) ∧ syncDeclared v (q.arg 20 2) (q.arg 22 2) = false)) ∧
    (∃ (m : Fin 1029) (s : State) (q : Req) (v : State), Ready (cmdSyncOp (fun q => q.arg 22 1 != 1 && q.arg 22 1 != 2) (fun _ _ s => s)) m s q v ∧ (RestZero q [(20, 3), (24, 4)] ∧ q.arg 22 1 = 0 ∧ (v.syncObj (q.arg 20 2)).owner = some q.tenant)) ∧
    (∃ (m : Fin 1029) (s : State) (q : Req) (v : State), Ready (cmdSyncOp (fun q => q.arg 22 1 == 1) (fun i n s => syncSignal s i n)) m s q v ∧ (RestZero q [(20, 3), (24, 4)] ∧ q.arg 22 1 = 1 ∧ (v.syncObj (q.arg 20 2)).owner = some q.tenant)) ∧
    (∃ (m : Fin 1029) (s : State) (q : Req) (v : State), Ready (cmdSyncOp (fun q => q.arg 22 1 == 2) (fun i _ s => syncReset s i)) m s q v ∧ (RestZero q [(20, 3), (24, 4)] ∧ q.arg 22 1 = 2 ∧ (v.syncObj (q.arg 20 2)).owner = some q.tenant)) ∧
    (∃ (m : Fin 1029) (s : State) (q : Req) (v : State), Ready cmdSeqAssign m s q v ∧ (RestZero q [(20, 4)] ∧ 1 ≤ q.arg 22 2 ∧ q.arg 20 2 + q.arg 22 2 ≤ 4096 ∧ (∀ i ∈ idRange q, (v.seqEntry i).owner = none))) ∧
    (∃ (m : Fin 1029) (s : State) (q : Req) (v : State), Ready cmdSeqRelease m s q v ∧ (RestZero q [(20, 4)] ∧ 1 ≤ q.arg 22 2 ∧ q.arg 20 2 + q.arg 22 2 ≤ 4096 ∧ (∀ i ∈ idRange q, (v.seqEntry i).owner = some q.tenant) ∧ seqDeclared v (q.arg 20 2) (q.arg 22 2) = false)) ∧
    (∃ (m : Fin 1029) (s : State) (q : Req) (v : State), Ready cmdSeqRead m s q v ∧ (RestZero q [(20, 2)] ∧ q.arg 20 2 < 4096 ∧ (v.seqEntry (q.arg 20 2)).owner = some q.tenant)) :=
  ⟨⟨5, asked tenant 5 cmdSyncAlloc.op [(20, 2, 65535), (22, 2, 1)] [] 0, exists_ready (by decide +kernel)⟩,
    ⟨5, asked { tenant with sync := [(65535, { owner := some 0, value := 0xFFFFFFFF })] } 5 cmdSyncFree.op [(20, 2, 65535), (22, 2, 1)] [] 0, exists_ready (by decide +kernel)⟩,
    ⟨5, asked { tenant with sync := [(65535, { owner := some 0, value := 0xFFFFFFFF })] } 5 0x040A [(20, 2, 65535)], exists_ready (by decide +kernel)⟩,
    ⟨5, asked { tenant with sync := [(65535, { owner := some 0, value := 0xFFFFFFFF })] } 5 0x040A [(20, 2, 65535), (22, 1, 1), (24, 4, 1)], exists_ready (by decide +kernel)⟩,
    ⟨5, asked { tenant with sync := [(65535, { owner := some 0, value := 0xFFFFFFFF })] } 5 0x040A [(20, 2, 65535), (22, 1, 2)], exists_ready (by decide +kernel)⟩,
    ⟨5, asked tenant 5 cmdSeqAssign.op [(20, 2, 4095), (22, 2, 1)] [] 0, exists_ready (by decide +kernel)⟩,
    ⟨5, asked { tenant with seqs := [(4095, { owner := some 0 })] } 5 cmdSeqRelease.op [(20, 2, 4095), (22, 2, 1)] [] 0, exists_ready (by decide +kernel)⟩,
    ⟨5, asked { tenant with seqs := [(4095, { owner := some 0 })] } 5 cmdSeqRead.op [(20, 2, 4095)] [] 0, exists_ready (by decide +kernel)⟩⟩

/-- What the hypotheses of `Obligations.PortAndTimeCommandsComplete` ask for is met. -/
theorem witness_PortAndTimeCommandsComplete :
    (∃ (m : Fin 1029) (s : State) (q : Req) (v : State), Ready cmdPortConfig m s q v ∧ (quadFault (q.slot.drop 20) = none ∧ v.job.isOpen = false ∧ quadRefusal v (field (q.slot.drop 20) 0 1) (field (q.slot.drop 20) 1 1) = none)) ∧
    (∃ (m : Fin 1029) (s : State) (q : Req) (v : State), Ready cmdPortStatus m s q v ∧ (RestZero q [(20, 1)] ∧ q.arg 20 1 ≤ 15)) ∧
    (∃ (m : Fin 1029) (s : State) (q : Req) (v : State), Ready cmdQuadReset m s q v ∧ (RestZero q [(20, 1)] ∧ q.arg 20 1 ≤ 15 ∧ ((v.quad (q.arg 20 1)).st = .training ∨ (v.quad (q.arg 20 1)).st = .active))) ∧
    (∃ (m : Fin 1029) (s : State) (q : Req) (v : State), Ready cmdLinkParamsSet m s q v ∧ (RestZero q [(22, 18)] ∧ 1000 ≤ q.arg 30 4 ∧ q.arg 30 4 ≤ 100000 ∧ q.arg 30 4 * 2 ≤ q.arg 36 4 * 1000 ∧ q.arg 34 2 ≤ 2000 ∧ q.arg 34 2 * 2 < q.arg 30 4 ∧ 10 ≤ q.arg 36 4 ∧ q.arg 36 4 ≤ 100000)) ∧
    (∃ (m : Fin 1029) (s : State) (q : Req) (v : State), Ready cmdTimeConfig m s q v ∧ (RestZero q [] ∧ q.xargLen = 192 ∧ timeFault q.xarg = none ∧ anyLive v = false)) ∧
    (∃ (m : Fin 1029) (s : State) (q : Req) (v : State), Ready cmdTimeConfig m s q v ∧ (RestZero q [] ∧ q.xargLen = 192 ∧ timeFault q.xarg = none ∧ anyLive v = false ∧ (timeConfigOf q.xarg).mode ≠ 0)) ∧
    (∃ (m : Fin 1029) (s : State) (q : Req) (v : State), Ready cmdClockStatus m s q v ∧ (RestZero q [])) :=
  ⟨⟨1, asked {} 1 cmdPortConfig.op [(20, 1, 15), (21, 1, 3), (24, 2, 1518), (32, 2, 9216), (40, 2, 1518), (48, 2, 1518)] [] 0, exists_ready (by decide +kernel)⟩,
    ⟨0, asked {} 0 cmdPortStatus.op [(20, 1, 15)] [] 0, exists_ready (by decide +kernel)⟩,
    ⟨0, asked { quads := [(15, { st := .active })] } 0 cmdQuadReset.op [(20, 1, 15)] [] 0, exists_ready (by decide +kernel)⟩,
    ⟨1, asked {} 1 cmdLinkParamsSet.op [(22, 8, 2 ^ 64 - 1), (30, 4, 1000), (34, 2, 499), (36, 4, 10)] [] 0, exists_ready (by decide +kernel)⟩,
    ⟨1, asked {} 1 cmdTimeConfig.op [] timeBytes 0, exists_ready (by decide +kernel)⟩,
    ⟨1, asked {} 1 cmdTimeConfig.op [] (putNat timeBytes 0 1 1) 0, exists_ready (by decide +kernel)⟩,
    ⟨5, asked {} 5 cmdClockStatus.op [] [] 0, exists_ready (by decide +kernel)⟩⟩

/-- What the hypotheses of `Obligations.FabricTableCommandsComplete` ask for is met. -/
theorem witness_FabricTableCommandsComplete :
    (∃ (m : Fin 1029) (s : State) (q : Req) (v : State), Ready cmdLocalIdSet m s q v ∧ (RestZero q [(20, 3)] ∧ 1024 ≤ q.arg 20 2 ∧ 1 ≤ q.arg 22 1 ∧ q.arg 22 1 ≤ 16 ∧ q.xargLen = 24 * q.arg 22 1 ∧ entryBad q.xarg 24 (q.arg 22 1) localBad = none)) ∧
    (∃ (m : Fin 1029) (s : State) (q : Req) (v : State), Ready cmdEndpointSet m s q v ∧ (RestZero q [(20, 2)] ∧ 1 ≤ q.arg 20 2 ∧ q.arg 20 2 ≤ 640 ∧ q.xargLen = 32 * q.arg 20 2 ∧ entryBad q.xarg 32 (q.arg 20 2) endpointBad = none)) ∧
    (∃ (m : Fin 1029) (s : State) (q : Req) (v : State), Ready (cmdEndpointClear (headNames m s (fun i => (tget? s.endpoints i).isSome))) m s q v ∧ (RestZero q [(20, 3)])) ∧
    (∃ (m : Fin 1029) (s : State) (q : Req) (v : State), Ready cmdForwardSet m s q v ∧ (RestZero q [(20, 2)] ∧ 1 ≤ q.arg 20 2 ∧ q.arg 20 2 ≤ 1280 ∧ q.xargLen = 16 * q.arg 20 2 ∧ entryBad q.xarg 16 (q.arg 20 2) forwardBad = none)) ∧
    (∃ (m : Fin 1029) (s : State) (q : Req) (v : State), Ready (cmdForwardClear (headNames m s (fun i => (tget? s.forwards i).isSome))) m s q v ∧ (RestZero q [(20, 3)])) ∧
    (∃ (m : Fin 1029) (s : State) (size : Nat) (rows : List Bytes) (q : Req) (v : State), Ready cmdTableRead m s q v ∧ (RestZero q [(20, 1), (24, 4)] ∧ ((q.arg 20 1 = 0 ∧ size = 24 ∧ rows = v.locals.map (·.bytes)) ∨ (q.arg 20 1 = 1 ∧ size = 32 ∧ rows = v.endpoints.map (fun e => Endpoint.bytes e.1 e.2)) ∨ (q.arg 20 1 = 2 ∧ size = 16 ∧ rows = v.forwards.map (fun e => Forward.bytes e.1 e.2))))) :=
  ⟨⟨1, asked {} 1 cmdLocalIdSet.op [(20, 2, 1024), (22, 1, 16)] (List.replicate 384 0) 0, exists_ready (by decide +kernel)⟩,
    ⟨1, asked {} 1 cmdEndpointSet.op [(20, 2, 1)] (putNat (List.replicate 32 0) 0 3 0xFFFFFF) 0, exists_ready (by decide +kernel)⟩,
    ⟨1, asked {} 1 0x0512 [(20, 3, 0xFFFFFF)], exists_ready (by decide +kernel)⟩,
    ⟨1, asked {} 1 cmdForwardSet.op [(20, 2, 1)] (putNat (List.replicate 16 0) 0 4 0x3FFFFFFF) 0, exists_ready (by decide +kernel)⟩,
    ⟨1, asked {} 1 0x0514 [(20, 3, 0xFFFFFF)], exists_ready (by decide +kernel)⟩,
    ⟨1, asked { forwards := [(7, { port := 63, nextHop := 0, flags := 0 })] } 1 cmdTableRead.op [(20, 1, 2)] [] 16, 16, [Forward.bytes 7 { port := 63, nextHop := 0, flags := 0 }], exists_ready (by decide +kernel)⟩⟩

/-- What the hypotheses of `Obligations.SessionTableCommandsComplete` ask for is met. -/
theorem witness_SessionTableCommandsComplete :
    (∃ (m : Fin 1029) (s : State) (q : Req) (v : State), Ready cmdSessionAssign m s q v ∧ (RestZero q [(20, 6)] ∧ 64 ≤ q.arg 20 2 ∧ 1 ≤ q.arg 22 2 ∧ q.arg 20 2 + q.arg 22 2 ≤ 65536 ∧ q.arg 24 2 ≤ 1023 ∧ ((v.ctx (q.arg 24 2)).st = .active ∨ (v.ctx (q.arg 24 2)).st = .lapsed) ∧ (∀ k ∈ rangeFrom (q.arg 20 2) (q.arg 22 2), (v.session k).st = .unassigned))) ∧
    (∃ (m : Fin 1029) (s : State) (q : Req) (v : State), Ready cmdSessionRelease m s q v ∧ (RestZero q [(20, 4)] ∧ 64 ≤ q.arg 20 2 ∧ 1 ≤ q.arg 22 2 ∧ q.arg 20 2 + q.arg 22 2 ≤ 65536 ∧ (∀ k ∈ rangeFrom (q.arg 20 2) (q.arg 22 2), (v.session k).st = .closed))) ∧
    (∃ (m : Fin 1029) (s : State) (q : Req) (v : State), Ready cmdSessionOpen m s q v ∧ (RestZero q [(20, 20)] ∧ (q.arg 20 2 < 64 → q.ctx?.isSome = true) ∧ q.arg 22 1 < 4 ∧ q.arg 23 1 ≤ 15 ∧ q.arg 27 1 < 16 ∧ q.arg 27 1 < v.locals.length ∧ (q.arg 32 4 = 0 ∨ (1000 ≤ q.arg 32 4 ∧ q.arg 32 4 ≤ 100000000)) ∧ 1 ≤ q.arg 36 2 ∧ q.arg 36 2 ≤ 256 ∧ (q.arg 38 2 = 0 ∨ (10 ≤ q.arg 38 2 ∧ q.arg 38 2 ≤ 60000)) ∧ (q.ctx?).all (fun c => decide ((v.session (q.arg 20 2)).ctx = some c)) = true ∧ (v.session (q.arg 20 2)).st = .closed ∧ bit (q.arg 22 1) 0 = false)) ∧
    (∃ (m : Fin 1029) (s : State) (q : Req) (v : State), Ready cmdSessionOpen m s q v ∧ (RestZero q [(20, 20)] ∧ (q.arg 20 2 < 64 → q.ctx?.isSome = true) ∧ q.arg 22 1 < 4 ∧ q.arg 23 1 ≤ 15 ∧ q.arg 27 1 < 16 ∧ q.arg 27 1 < v.locals.length ∧ (q.arg 32 4 = 0 ∨ (1000 ≤ q.arg 32 4 ∧ q.arg 32 4 ≤ 100000000)) ∧ 1 ≤ q.arg 36 2 ∧ q.arg 36 2 ≤ 256 ∧ (q.arg 38 2 = 0 ∨ (10 ≤ q.arg 38 2 ∧ q.arg 38 2 ≤ 60000)) ∧ (q.ctx?).all (fun c => decide ((v.session (q.arg 20 2)).ctx = some c)) = true ∧ (v.session (q.arg 20 2)).st = .closed ∧ bit (q.arg 22 1) 0 = true ∧ (tget? (v.ctx ((v.session (q.arg 20 2)).ctx.getD 0)).peerKeys (q.arg 23 1)).isSome = true)) ∧
    (∃ (m : Fin 1029) (s : State) (q : Req) (v : State), Ready cmdSessionOpen m s q v ∧ (RestZero q [(20, 20)] ∧ (q.arg 20 2 < 64 → q.ctx?.isSome = true) ∧ q.arg 22 1 < 4 ∧ q.arg 23 1 ≤ 15 ∧ q.arg 27 1 < 16 ∧ q.arg 27 1 < v.locals.length ∧ (q.arg 32 4 = 0 ∨ (1000 ≤ q.arg 32 4 ∧ q.arg 32 4 ≤ 100000000)) ∧ 1 ≤ q.arg 36 2 ∧ q.arg 36 2 ≤ 256 ∧ (q.arg 38 2 = 0 ∨ (10 ≤ q.arg 38 2 ∧ q.arg 38 2 ≤ 60000)) ∧ (q.ctx?).all (fun c => decide ((v.session (q.arg 20 2)).ctx = some c)) = true ∧ (v.session (q.arg 20 2)).st = .closed ∧ bit (q.arg 22 1) 0 = true ∧ (tget? (v.ctx ((v.session (q.arg 20 2)).ctx.getD 0)).peerKeys (q.arg 23 1)).isSome = true ∧ bit (q.arg 22 1) 1 = false)) ∧
    (∃ (m : Fin 1029) (s : State) (q : Req) (v : State), Ready cmdSessionClose m s q v ∧ (RestZero q [(20, 2)] ∧ 64 ≤ q.arg 20 2 ∧ (q.ctx?).all (fun c => decide ((v.session (q.arg 20 2)).ctx = some c)) = true ∧ (v.session (q.arg 20 2)).st = .opened)) ∧
    (∃ (m : Fin 1029) (s : State) (q : Req) (v : State), Ready cmdSessionStatus m s q v ∧ (RestZero q [(20, 2)] ∧ (q.ctx?).all (fun c => decide ((v.session (q.arg 20 2)).ctx = some c)) = true)) ∧
    (∃ (m : Fin 1029) (s : State) (q : Req) (v : State), Ready cmdPeerKeySet m s q v ∧ (RestZero q [(20, 1)] ∧ q.arg 20 1 ≤ 15 ∧ q.xargLen = 1952)) :=
  ⟨⟨0, asked tenant 0 cmdSessionAssign.op [(20, 2, 65534), (22, 2, 2)] [] 0, exists_ready (by decide +kernel)⟩,
    ⟨0, asked { sessions := [(64, { st := .closed })] } 0 cmdSessionRelease.op [(20, 2, 64), (22, 2, 1)] [] 0, exists_ready (by decide +kernel)⟩,
    ⟨5, asked { tenant with locals := [{ id := 1, ipv6 := false, ip := 0 }], sessions := [(63, { st := .closed, ctx := some 0 })] } 5 cmdSessionOpen.op [(20, 2, 63), (22, 1, 2), (36, 2, 256)] [] 0, exists_ready (by decide +kernel)⟩,
    ⟨0, asked { ctxs := [(0, { st := .active, peerKeys := [(15, [1])] })], locals := [{ id := 1, ipv6 := false, ip := 0 }], sessions := [(64, { st := .closed, ctx := some 0 })] } 0 cmdSessionOpen.op [(20, 2, 64), (22, 1, 3), (23, 1, 15), (36, 2, 1)] [] 0, exists_ready (by decide +kernel)⟩,
    ⟨0, asked { ctxs := [(0, { st := .active, peerKeys := [(15, [1])] })], locals := [{ id := 1, ipv6 := false, ip := 0 }], sessions := [(64, { st := .closed, ctx := some 0 })] } 0 cmdSessionOpen.op [(20, 2, 64), (22, 1, 1), (23, 1, 15), (36, 2, 1)] [] 0, exists_ready (by decide +kernel)⟩,
    ⟨5, asked { tenant with sessions := [(64, { st := .opened, ctx := some 0 })] } 5 cmdSessionClose.op [(20, 2, 64)] [] 0, exists_ready (by decide +kernel)⟩,
    ⟨5, asked { tenant with sessions := [(64, { st := .opened, ctx := some 0 })] } 5 cmdSessionStatus.op [(20, 2, 64)] [] 0, exists_ready (by decide +kernel)⟩,
    ⟨5, asked tenant 5 cmdPeerKeySet.op [(20, 1, 15)] (List.replicate 1952 0) 0, exists_ready (by decide +kernel)⟩⟩

/-- What the hypotheses of `Obligations.QueuePairAndJobCommandsComplete` ask for is met. -/
theorem witness_QueuePairAndJobCommandsComplete :
    (∃ (m : Fin 1029) (s : State) (q : Req) (v : State), Ready cmdQpAssign m s q v ∧ (RestZero q [(20, 8)] ∧ 1 ≤ q.arg 24 2 ∧ q.arg 20 4 + q.arg 24 2 ≤ 16384 ∧ q.arg 26 2 ≤ 1023 ∧ ((v.ctx (q.arg 26 2)).st = .active ∨ (v.ctx (q.arg 26 2)).st = .lapsed) ∧ (∀ i ∈ rangeFrom (q.arg 20 4) (q.arg 24 2), (v.qp i).ctx = none))) ∧
    (∃ (m : Fin 1029) (s : State) (q : Req) (v : State), Ready cmdQpOpen m s q v ∧ (RestZero q [(20, 44)] ∧ q.arg 20 4 < 16384 ∧ q.arg 24 1 < 8 ∧ q.arg 25 1 ≤ 4 ∧ q.arg 26 1 ≤ 63 ∧ q.arg 27 1 < 16 ∧ q.arg 27 1 < v.locals.length ∧ q.arg 32 4 < 2 ^ 24 ∧ (bit (q.arg 24 1) 1 = false → q.arg 52 12 = 0) ∧ q.ctx? = (v.qp (q.arg 20 4)).ctx ∧ q.ctx?.isSome = true ∧ (v.qp (q.arg 20 4)).st = .closed)) ∧
    (∃ (m : Fin 1029) (s : State) (q : Req) (v : State), Ready cmdQpClose m s q v ∧ (RestZero q [(20, 4)] ∧ q.arg 20 4 < 16384 ∧ (q.ctx?).all (fun c => decide ((v.qp (q.arg 20 4)).ctx = some c)) = true ∧ (v.qp (q.arg 20 4)).st ≠ .closed)) ∧
    (∃ (m : Fin 1029) (s : State) (q : Req) (v : State), Ready cmdQpStatus m s q v ∧ (RestZero q [(20, 4)] ∧ q.arg 20 4 < 16384 ∧ (q.ctx?).all (fun c => decide ((v.qp (q.arg 20 4)).ctx = some c)) = true)) ∧
    (∃ (m : Fin 1029) (s : State) (q : Req) (v : State), Ready cmdJobOpen m s q v ∧ (RestZero q [(20, 4)] ∧ q.arg 20 4 ≠ 0 ∧ v.job.isOpen = false)) ∧
    (∃ (m : Fin 1029) (s : State) (q : Req) (v : State), Ready cmdJobClose m s q v ∧ (RestZero q [] ∧ v.job.isOpen = true)) ∧
    (∃ (m : Fin 1029) (s : State) (q : Req) (v : State), Ready cmdJobStatus m s q v ∧ (RestZero q [])) :=
  ⟨⟨0, asked tenant 0 cmdQpAssign.op [(20, 4, 16383), (24, 2, 1)] [] 0, exists_ready (by decide +kernel)⟩,
    ⟨5, asked { tenant with locals := [{ id := 1, ipv6 := false, ip := 0 }], qps := [(16383, { ctx := some 0 })] } 5 cmdQpOpen.op [(20, 4, 16383), (24, 1, 7), (25, 1, 4), (26, 1, 63), (32, 4, 0xFFFFFF), (52, 8, 1)] [] 0, exists_ready (by decide +kernel)⟩,
    ⟨5, asked { tenant with qps := [(16383, { ctx := some 0, st := .ready })] } 5 cmdQpClose.op [(20, 4, 16383)] [] 0, exists_ready (by decide +kernel)⟩,
    ⟨5, asked { tenant with qps := [(16383, { ctx := some 0, st := .ready })] } 5 cmdQpStatus.op [(20, 4, 16383)] [] 0, exists_ready (by decide +kernel)⟩,
    ⟨0, asked {} 0 cmdJobOpen.op [(20, 4, 1)] [] 0, exists_ready (by decide +kernel)⟩,
    ⟨0, asked { job := { isOpen := true } } 0 cmdJobClose.op [] [] 0, exists_ready (by decide +kernel)⟩,
    ⟨0, asked {} 0 cmdJobStatus.op [] [] 0, exists_ready (by decide +kernel)⟩⟩

/-- What the hypotheses of `Obligations.TrafficCommandsComplete` ask for is met. -/
theorem witness_TrafficCommandsComplete :
    (∃ (m : Fin 1029) (s : State) (q : Req) (v : State), Ready cmdMeterSet m s q v ∧ (RestZero q [(20, 6), (28, 16)] ∧ (meterFaults q).all (fun b => !b.2) = true ∧ (q.arg 20 1 = 1 → (meterOf q).enabled = true → (slotIds v).length < 4096 ∨ (slotIds v).contains (q.arg 21 3) = true))) ∧
    (∃ (m : Fin 1029) (s : State) (q : Req) (v : State), Ready cmdMeterStatus m s q v ∧ (RestZero q [(20, 5)] ∧ q.arg 20 1 ≤ 1 ∧ (q.arg 20 1 = 0 → q.arg 21 3 ≤ 1023) ∧ q.arg 24 1 ≤ 1 ∧ (q.ctx?).all (fun c => decide (q.arg 20 1 = 0 ∧ c = q.arg 21 3)) = true)) ∧
    (∃ (m : Fin 1029) (s : State) (q : Req) (v : State), Ready cmdShaperSet m s q v ∧ (RestZero q [(20, 20)] ∧ q.arg 20 1 ≤ 63 ∧ q.arg 21 1 ≤ 7 ∧ q.arg 22 1 ≤ 63 ∧ q.arg 23 1 ≤ 1 ∧ 1 ≤ q.arg 24 4 ∧ q.arg 24 4 ≤ 800000 ∧ 1024 ≤ q.arg 28 4 ∧ q.arg 28 4 ≤ 16777216 ∧ 4096 ≤ q.arg 32 4 ∧ q.arg 32 4 ≤ 1048576 ∧ (q.arg 21 1 = 0 ∨ q.arg 21 1 = 1 ∨ q.arg 21 1 = 7 ∨ q.arg 36 4 = 0))) ∧
    (∃ (m : Fin 1029) (s : State) (q : Req) (v : State), Ready cmdGateSet m s q v ∧ (RestZero q [(20, 2), (24, 8)] ∧ q.arg 20 1 ≤ 63 ∧ BitVec.ofNat 8 (q.arg 21 1) = 0 ∧ q.xargLen = 0)) ∧
    (∃ (m : Fin 1029) (s : State) (q : Req) (v : State), Ready cmdGateSet m s q v ∧ (RestZero q [(20, 2), (24, 8)] ∧ q.arg 20 1 ≤ 63 ∧ BitVec.ofNat 8 (q.arg 21 1) ≠ 0 ∧ 16 ≤ q.xargLen ∧ q.xargLen = 8 + 8 * field q.xarg 4 2 ∧ gateFault q.xarg (BitVec.ofNat 8 (q.arg 21 1)) = none)) ∧
    (∃ (m : Fin 1029) (s : State) (q : Req) (v : State), Ready cmdClassMapSet m s q v ∧ (RestZero q [] ∧ q.xargLen = 24 ∧ (∀ c < 8, field q.xarg c 1 ≤ 63) ∧ (∀ d < 64, mapColour q.xarg d ≠ 3))) ∧
    (∃ (m : Fin 1029) (s : State) (q : Req) (v : State), Ready cmdTcStatus m s q v ∧ (RestZero q [(20, 2)] ∧ q.arg 20 1 ≤ 63 ∧ q.arg 21 1 ≤ 7)) :=
  ⟨⟨0, asked {} 0 cmdMeterSet.op [(20, 1, 1), (21, 3, 0xFFFFFF), (24, 1, 1), (25, 1, 15), (28, 4, 1600000), (32, 4, 2147483648), (36, 4, 1600000), (40, 4, 16384)] [] 0, exists_ready (by decide +kernel)⟩,
    ⟨5, asked tenant 5 cmdMeterStatus.op [] [] 0, exists_ready (by decide +kernel)⟩,
    ⟨1, asked {} 1 cmdShaperSet.op [(20, 1, 63), (21, 1, 7), (22, 1, 63), (23, 1, 1), (24, 4, 800000), (28, 4, 1024), (32, 4, 4096), (36, 4, 0xFFFFFFFF)] [] 0, exists_ready (by decide +kernel)⟩,
    ⟨1, asked {} 1 cmdGateSet.op [(20, 1, 63)] [] 0, exists_ready (by decide +kernel)⟩,
    ⟨1, asked {} 1 cmdGateSet.op [(20, 1, 63), (21, 1, 0x81)] (natLe 1000 4 ++ natLe 2 2 ++ natLe 0 2 ++ natLe 100 4 ++ natLe 0x01 4 ++ natLe 900 4 ++ natLe 0x80 4) 0, exists_ready (by decide +kernel)⟩,
    ⟨1, asked {} 1 cmdClassMapSet.op [] (List.replicate 8 63 ++ List.replicate 16 0xAA) 0, exists_ready (by decide +kernel)⟩,
    ⟨1, asked {} 1 cmdTcStatus.op [(20, 1, 63), (21, 1, 7)] [] 0, exists_ready (by decide +kernel)⟩⟩

/-- What the hypotheses of `Obligations.AgentCommandsComplete` ask for is met. -/
theorem witness_AgentCommandsComplete :
    (∃ (m : Fin 1029) (s : State) (q : Req) (v : State), Ready cmdAgentLimitSet m s q v ∧ (RestZero q [(20, 3)] ∧ q.arg 20 2 ≤ 1023 ∧ q.arg 22 1 ≤ 64 ∧ ((v.ctx (q.arg 20 2)).st = .active ∨ (v.ctx (q.arg 20 2)).st = .lapsed))) ∧
    (∃ (m : Fin 1029) (s : State) (q : Req) (v : State), Ready cmdAgentRegister m s q v ∧ (RestZero q [(20, 5), (28, 4)] ∧ q.arg 22 1 ≠ 0 ∧ (∀ k < 8, bit (q.arg 22 1) k = true → (tget? (v.ctx q.tenant).segs k).any (·.coherent) = true) ∧ 2 ≤ q.arg 23 1 ∧ q.arg 23 1 ≤ 15 ∧ 1 ≤ q.arg 24 1 ∧ q.arg 24 1 ≤ 16 ∧ 2 ^ q.arg 23 1 * q.arg 24 1 * 128 ≤ 4194304 ∧ (q.arg 28 4 = 0 ∨ (100 ≤ q.arg 28 4 ∧ q.arg 28 4 ≤ 60000)) ∧ (v.session (q.arg 20 2)).st = .opened ∧ (v.session (q.arg 20 2)).ctx = some q.tenant ∧ v.agents.any (fun a => a.1 < 64 && a.2.session == q.arg 20 2) = false ∧ (∃ a < 64, v.agent? a = none) ∧ agentsOf v q.tenant < (v.ctx q.tenant).agentLimit)) ∧
    (∃ (m : Fin 1029) (s : State) (g : Agent) (q : Req) (v : State), Ready cmdAgentDeregister m s q v ∧ (RestZero q [(20, 1)] ∧ ownAgent v q = some g)) ∧
    (∃ (m : Fin 1029) (s : State) (g : Agent) (q : Req) (v : State), Ready cmdAgentRenew m s q v ∧ (RestZero q [(20, 1)] ∧ ownAgent v q = some g)) ∧
    (∃ (m : Fin 1029) (s : State) (g : Agent) (q : Req) (v : State), Ready cmdAgentStatus m s q v ∧ (RestZero q [(20, 1)] ∧ v.agent? (q.arg 20 1) = some g ∧ (q.ctx?).all (fun c => decide (c = g.ctx)) = true)) ∧
    (∃ (m : Fin 1029) (s : State) (q : Req) (v : State), Ready cmdAgentStatus m s q v ∧ (RestZero q [(20, 1)] ∧ v.agent? (q.arg 20 1) = none ∧ q.ctx? = none)) ∧
    (∃ (m : Fin 1029) (s : State) (q : Req) (v : State), Ready cmdLostOwnedRead m s q v ∧ (RestZero q [(20, 1), (22, 2)] ∧ q.arg 20 1 ≤ 7 ∧ (q.ctx? = none → q.arg 22 2 ≤ 1023))) :=
  ⟨⟨0, asked tenant 0 cmdAgentLimitSet.op [(22, 1, 64)] [] 0, exists_ready (by decide +kernel)⟩,
    ⟨5, asked { ctxs := [(0, { st := .active, agentLimit := 1, segs := [(7, { flags := 0x1B, base := 0, list := [{ extent := 0, gen := 0 }] })] })], sessions := [(64, { st := .opened, ctx := some 0 })] } 5 cmdAgentRegister.op [(20, 2, 64), (22, 1, 0x80), (23, 1, 15), (24, 1, 1), (28, 4, 100)] [] 0, exists_ready (by decide +kernel)⟩,
    ⟨5, asked { tenant with agents := [(63, { ctx := 0, session := 64, mask := 0x80, n := 15, ways := 1, leaseMs := 100, leaseStart := 0 })] } 5 cmdAgentDeregister.op [(20, 1, 63)] [] 0, { ctx := 0, session := 64, mask := 0x80, n := 15, ways := 1, leaseMs := 100, leaseStart := 0 }, exists_ready (by decide +kernel)⟩,
    ⟨5, asked { tenant with agents := [(63, { ctx := 0, session := 64, mask := 0x80, n := 15, ways := 1, leaseMs := 100, leaseStart := 0 })] } 5 cmdAgentRenew.op [(20, 1, 63)] [] 0, { ctx := 0, session := 64, mask := 0x80, n := 15, ways := 1, leaseMs := 100, leaseStart := 0 }, exists_ready (by decide +kernel)⟩,
    ⟨0, asked { tenant with agents := [(79, { ctx := 0, session := 64, mask := 0x80, n := 15, ways := 1, leaseMs := 100, leaseStart := 0 })] } 0 cmdAgentStatus.op [(20, 1, 79)] [] 0, { ctx := 0, session := 64, mask := 0x80, n := 15, ways := 1, leaseMs := 100, leaseStart := 0 }, exists_ready (by decide +kernel)⟩,
    ⟨0, asked {} 0 cmdAgentStatus.op [(20, 1, 0x50)] [] 0, exists_ready (by decide +kernel)⟩,
    ⟨0, asked {} 0 cmdLostOwnedRead.op [(20, 1, 7), (22, 2, 1023)] [] 8, exists_ready (by decide +kernel)⟩⟩

/-- What the hypotheses of `Obligations.StackCommandsComplete` ask for is met. -/
theorem witness_StackCommandsComplete :
    (∃ (m : Fin 1029) (s : State) (q : Req) (v : State), Ready cmdStackStatus m s q v ∧ (RestZero q [(20, 1)] ∧ q.arg 20 1 ≤ 15)) ∧
    (∃ (m : Fin 1029) (s : State) (q : Req) (v : State), Ready cmdStackProfileRead m s q v ∧ (RestZero q [(20, 2)] ∧ q.arg 20 1 ≤ 15 ∧ q.arg 21 1 ≤ 1 ∧ v.profileSize ≤ q.room)) ∧
    (∃ (m : Fin 1029) (s : State) (q : Req) (v : State), Ready cmdStackProfileAccept m s q v ∧ (RestZero q [(20, 2)] ∧ q.arg 20 2 ≤ 1023 ∧ q.xargLen = 32 ∧ v.job.isOpen = false)) ∧
    (∃ (m : Fin 1029) (s : State) (q : Req) (v : State), Ready cmdMemPolicySet m s q v ∧ (RestZero q [(20, 15)] ∧ 5 ≤ q.arg 20 1 ∧ q.arg 20 1 ≤ 50 ∧ q.arg 21 2 ≤ 720 ∧ q.arg 27 1 ≤ 1 ∧ 1 ≤ q.arg 28 2 ∧ 1 ≤ q.arg 30 1 ∧ 1000 ≤ q.arg 31 4 ∧ q.arg 31 4 ≤ 1000000)) ∧
    (∃ (m : Fin 1029) (s : State) (q : Req) (v : State), Ready cmdStackFlagsClear m s q v ∧ (RestZero q [(20, 2)] ∧ q.arg 20 1 ≤ 15 ∧ q.arg 21 1 < 64)) ∧
    (∃ (m : Fin 1029) (s : State) (q : Req) (v : State), Ready cmdStackDiagRead m s q v ∧ (RestZero q [(20, 1), (22, 6)] ∧ q.arg 20 1 ≤ 15 ∧ q.arg 22 6 % 128 = 0 ∧ q.arg 22 6 < v.stripes * 4096 ∧ 161 ≤ q.room ∧ diagDenied v (q.arg 20 1) (q.arg 22 6) = false)) ∧
    (∃ (m : Fin 1029) (s : State) (q : Req) (v : State), Ready cmdStackFail m s q v ∧ (RestZero q [(20, 2)] ∧ q.arg 20 1 ≤ 15 ∧ q.arg 21 1 ≤ 1 ∧ (v.stack (q.arg 20 1)).st = .serving ∧ (lossAhead v = true → q.arg 21 1 = 1))) ∧
    (∃ (m : Fin 1029) (s : State) (q : Req) (v : State), Ready cmdRebuildStatus m s q v ∧ (RestZero q [])) ∧
    (∃ (m : Fin 1029) (s : State) (f : Nat) (q : Req) (v : State), Ready cmdRebuildControl m s q v ∧ (RestZero q [(20, 1)] ∧ q.arg 20 1 ≤ 2 ∧ v.layout.f = some f ∧ (v.stack f).st = .rebuilding)) :=
  ⟨⟨0, asked {} 0 cmdStackStatus.op [(20, 1, 15)] [] 0, exists_ready (by decide +kernel)⟩,
    ⟨1, asked {} 1 cmdStackProfileRead.op [(20, 1, 15), (21, 1, 1)] [] 6016, exists_ready (by decide +kernel)⟩,
    ⟨1, asked {} 1 cmdStackProfileAccept.op [(20, 2, 1023)] (List.replicate 32 0) 0, exists_ready (by decide +kernel)⟩,
    ⟨0, asked {} 0 cmdMemPolicySet.op [(20, 1, 50), (21, 2, 720), (27, 1, 1), (28, 2, 1), (30, 1, 1), (31, 4, 1000000)] [] 0, exists_ready (by decide +kernel)⟩,
    ⟨0, asked {} 0 cmdStackFlagsClear.op [(20, 1, 15), (21, 1, 63)] [] 0, exists_ready (by decide +kernel)⟩,
    ⟨2, asked {} 2 cmdStackDiagRead.op [(20, 1, 15), (22, 6, 137438953344)] [] 168, exists_ready (by decide +kernel)⟩,
    ⟨0, asked { stks := [(0, { st := .fenced })] } 0 cmdStackFail.op [(20, 1, 15), (21, 1, 1)] [] 0, exists_ready (by decide +kernel)⟩,
    ⟨0, asked {} 0 cmdRebuildStatus.op [] [] 0, exists_ready (by decide +kernel)⟩,
    ⟨0, asked { layout := { st := .rebuilding, f := some 15 }, stks := [(15, { st := .rebuilding })] } 0 cmdRebuildControl.op [(20, 1, 2)] [] 0, 15, exists_ready (by decide +kernel)⟩⟩

/-- What the hypotheses of `Obligations.CounterAndTraceCommandsComplete` ask for is met. -/
theorem witness_CounterAndTraceCommandsComplete :
    (∃ (m : Fin 1029) (s : State) (g : Group) (q : Req) (v : State), Ready cmdCounterEnable m s q v ∧ (RestZero q [(20, 6)] ∧ counterGroup (q.arg 20 1) = some g ∧ q.arg 21 1 ≤ 1 ∧ q.arg 22 2 < g.named ∧ 1 ≤ q.arg 24 2 ∧ q.arg 24 2 ≤ 1024 ∧ q.arg 22 2 + q.arg 24 2 ≤ g.named)) ∧
    (∃ (m : Fin 1029) (s : State) (g : Group) (q : Req) (v : State), Ready cmdCounterRead m s q v ∧ (RestZero q [(20, 1), (22, 2)] ∧ counterGroup (q.arg 20 1) = some g ∧ q.arg 22 2 < g.instances ∧ g.blockSize ≤ q.room ∧ (match q.party with | .tenant c => decide (instanceCtx v g (q.arg 22 2) = some c) | _ => true) = true)) ∧
    (∃ (m : Fin 1029) (s : State) (q : Req) (v : State), Ready cmdTraceSet m s q v ∧ (RestZero q [(20, 10), (32, 16)] ∧ q.arg 20 1 ≤ 15 ∧ q.arg 21 1 = 0)) ∧
    (∃ (m : Fin 1029) (s : State) (q : Req) (v : State), Ready cmdTraceSet m s q v ∧ (RestZero q [(20, 10), (32, 16)] ∧ q.arg 20 1 ≤ 15 ∧ q.arg 21 1 = 1 ∧ q.arg 22 2 < 1024 ∧ maskBad (BitVec.ofNat 32 (q.arg 24 4)) = false ∧ q.arg 32 8 % 65536 = 0 ∧ q.arg 40 8 % 65536 = 0 ∧ 65536 ≤ q.arg 40 8 ∧ q.arg 32 8 + q.arg 40 8 ≤ traceRegion ∧ sliceTaken v (q.arg 20 1) (q.arg 32 8) (q.arg 40 8) = false)) ∧
    (∃ (m : Fin 1029) (s : State) (q : Req) (v : State), Ready cmdTraceRead m s q v ∧ (RestZero q [(20, 4)] ∧ q.arg 20 1 ≤ 15 ∧ q.arg 21 1 ≤ 1 ∧ 1 ≤ q.arg 22 2 ∧ q.arg 22 2 ≤ 640 ∧ (match q.party with | .tenant c => decide ((v.stream (q.arg 20 1)).source = c) | _ => true) = true ∧ (v.stream (q.arg 20 1)).toSession = false)) ∧
    (∃ (m : Fin 1029) (s : State) (q : Req) (v : State), Ready cmdTraceStatus m s q v ∧ (RestZero q [(20, 1)] ∧ q.arg 20 1 ≤ 15 ∧ (match q.party with | .tenant c => decide ((v.stream (q.arg 20 1)).source = c) | _ => true) = true)) :=
  ⟨⟨0, asked {} 0 cmdCounterEnable.op [(20, 1, 7), (21, 1, 1), (22, 2, 0), (24, 2, 1024)] [] 0, .session, exists_ready (by decide +kernel)⟩,
    ⟨5, asked tenant 5 cmdCounterRead.op [(20, 1, 5)] [] 1024, .context, exists_ready (by decide +kernel)⟩,
    ⟨0, asked {} 0 cmdTraceSet.op [(20, 1, 15)] [] 0, exists_ready (by decide +kernel)⟩,
    ⟨0, asked {} 0 cmdTraceSet.op [(20, 1, 15), (21, 1, 1), (22, 2, 1023), (32, 8, 4294901760), (40, 8, 65536)] [] 0, exists_ready (by decide +kernel)⟩,
    ⟨5, asked { tenant with streams := [(15, { source := 0 })] } 5 cmdTraceRead.op [(20, 1, 15), (21, 1, 1), (22, 2, 640)] [] 32, exists_ready (by decide +kernel)⟩,
    ⟨5, asked { tenant with streams := [(15, { source := 0 })] } 5 cmdTraceStatus.op [(20, 1, 15)] [] 0, exists_ready (by decide +kernel)⟩⟩

/-- What the hypotheses of `Obligations.StagingCommandsComplete` ask for is met. -/
theorem witness_StagingCommandsComplete :
    (∃ (m : Fin 1029) (s : State) (q : Req) (v : State), Ready cmdStageOpen m s q v ∧ (RestZero q [(20, 1), (24, 4)] ∧ 1 ≤ q.arg 20 1 ∧ q.arg 20 1 ≤ 3 ∧ stageLenOk v (q.arg 20 1) (q.arg 24 4) = true ∧ kindRole (q.arg 20 1) q.party = true ∧ v.staging = none)) ∧
    (∃ (m : Fin 1029) (s : State) (g : Staging) (q : Req) (v : State), Ready cmdStageWrite m s q v ∧ (RestZero q [(24, 4)] ∧ v.staging = some g ∧ g.opener = q.roleSession ∧ g.committing = false ∧ q.arg 24 4 = g.held ∧ g.held + q.xarg.length ≤ g.length)) ∧
    (∃ (m : Fin 1029) (s : State) (g : Staging) (q : Req) (v : State), Ready cmdStageCommit m s q v ∧ (RestZero q [] ∧ v.staging = some g ∧ g.opener = q.roleSession ∧ g.committing = false)) ∧
    (∃ (m : Fin 1029) (s : State) (g : Staging) (q : Req) (v : State), Ready cmdStageAbort m s q v ∧ (RestZero q [] ∧ v.staging = some g ∧ g.opener = q.roleSession ∧ g.committing = false)) ∧
    (∃ (m : Fin 1029) (s : State) (q : Req) (v : State), Ready cmdRecordRead m s q v ∧ (RestZero q [(20, 1), (24, 4)] ∧ 1 ≤ q.arg 20 1 ∧ q.arg 20 1 ≤ 3 ∧ q.arg 24 4 ≤ (v.flash.area (q.arg 20 1)).len ∧ kindRole (q.arg 20 1) q.party = true)) ∧
    (∃ (m : Fin 1029) (s : State) (q : Req) (v : State), Ready cmdAuditRead m s q v ∧ (RestZero q [(20, 10)] ∧ 1 ≤ q.arg 28 2 ∧ q.arg 28 2 ≤ 158 ∧ 32 ≤ q.room)) ∧
    (∃ (m : Fin 1029) (s : State) (q : Req) (v : State), Ready cmdAttest m s q v ∧ RestZero q [(20, 1)] ∧ q.arg 20 1 ≤ 1 ∧ q.xargLen = 32 ∧ (report v q.tenant q.xarg (decide (q.arg 20 1 = 1))).length ≤ q.room) ∧
    (∃ (m : Fin 1029) (s : State) (q : Req) (v : State), Ready cmdIdentityEnrol m s q v ∧ (RestZero q [] ∧ v.dev.package.present = false ∧ 6048 ≤ q.room)) :=
  ⟨⟨1, asked {} 1 cmdStageOpen.op [(20, 1, 3), (24, 4, 17189)] [] 0, exists_ready (by decide +kernel)⟩,
    ⟨1, asked { staging := some { kind := 3, length := 17189, opener := 1, held := 17187 } } 1 cmdStageWrite.op [(24, 4, 17187)] [5, 6] 0, { kind := 3, length := 17189, opener := 1, held := 17187 }, exists_ready (by decide +kernel)⟩,
    ⟨1, asked { staging := some { kind := 3, length := 17189, opener := 1, held := 17187 } } 1 cmdStageCommit.op [] [] 0, { kind := 3, length := 17189, opener := 1, held := 17187 }, exists_ready (by decide +kernel)⟩,
    ⟨1, asked { staging := some { kind := 3, length := 17189, opener := 1, held := 17187 } } 1 cmdStageAbort.op [] [] 0, { kind := 3, length := 17189, opener := 1, held := 17187 }, exists_ready (by decide +kernel)⟩,
    ⟨2, asked { flash := { firmware := { present := true, len := 5 } } } 2 cmdRecordRead.op [(20, 1, 1), (24, 4, 5)] [] 0, exists_ready (by decide +kernel)⟩,
    ⟨0, asked {} 0 cmdAuditRead.op [(28, 2, 158)] [] 160, exists_ready (by decide +kernel)⟩,
    attest_ready,
    ⟨2, asked {} 2 cmdIdentityEnrol.op [] [] 6048, exists_ready (by decide +kernel)⟩⟩

/-- What the hypotheses of `Obligations.FaultCommandsComplete` ask for is met. -/
theorem witness_FaultCommandsComplete :
    (∃ (m : Fin 1029) (s : State) (q : Req) (v : State), Ready cmdErrorLogRead m s q v ∧ (RestZero q [(20, 1), (24, 6)] ∧ q.arg 20 1 ≤ 1 ∧ 1 ≤ q.arg 28 2 ∧ q.arg 28 2 ≤ 160)) ∧
    (∃ (m : Fin 1029) (s : State) (d : Dump) (q : Req) (v : State), Ready cmdDumpRead m s q v ∧ (RestZero q [(20, 1), (24, 4)] ∧ q.arg 20 1 ≤ 1 ∧ (if q.arg 20 1 = 0 then v.aon.dump else v.flash.dumpCopy) = some d ∧ q.arg 24 4 ≤ d.length)) ∧
    (∃ (m : Fin 1029) (s : State) (q : Req) (v : State), Ready cmdFaultStatus m s q v ∧ (RestZero q [])) ∧
    (∃ (m : Fin 1029) (s : State) (q : Req) (v : State), Ready cmdAlertClear m s q v ∧ (RestZero q [(20, 1)])) ∧
    (∃ (m : Fin 1029) (s : State) (q : Req) (v : State), Ready cmdEngineReset m s q v ∧ (RestZero q [(20, 1)] ∧ q.arg 20 1 ≤ 15)) ∧
    (∃ (m : Fin 1029) (s : State) (q : Req) (v : State), Ready cmdWatchdogSet m s q v ∧ (RestZero q [(20, 4)] ∧ 100 ≤ q.arg 20 4 ∧ q.arg 20 4 ≤ 100000)) ∧
    (∃ (m : Fin 1029) (s : State) (q : Req) (v : State), Ready cmdDeviceReset m s q v ∧ (RestZero q [(20, 1)] ∧ q.arg 20 1 ≤ 1)) ∧
    (∃ (m : Fin 1029) (s : State) (q : Req) (v : State), Ready cmdDeviceReset m s q v ∧ (RestZero q [(20, 1)] ∧ q.arg 20 1 ≤ 1 ∧ v.aon.ordered = none ∧ v.aon.dumping = none)) ∧
    (∃ (m : Fin 1029) (s : State) (q : Req), headOf s m = some q ∧ (mailOpcode q.opcode = false ∧ (s.page m).mem.wf = true)) :=
  ⟨⟨0, asked {} 0 cmdErrorLogRead.op [(20, 1, 1), (28, 2, 160)] [] 128, exists_ready (by decide +kernel)⟩,
    ⟨0, asked { aon := { dump := some { first := 0, bootEpoch := 0, time := 0, reason := 0, errorSeq := 0 } } } 0 cmdDumpRead.op [] [] 0, { first := 0, bootEpoch := 0, time := 0, reason := 0, errorSeq := 0 }, exists_ready (by decide +kernel)⟩,
    ⟨1, asked {} 1 cmdFaultStatus.op [] [] 0, exists_ready (by decide +kernel)⟩,
    ⟨0, asked {} 0 cmdAlertClear.op [(20, 1, 3)] [] 0, exists_ready (by decide +kernel)⟩,
    ⟨0, asked {} 0 cmdEngineReset.op [(20, 1, 15)] [] 0, exists_ready (by decide +kernel)⟩,
    ⟨0, asked {} 0 cmdWatchdogSet.op [(20, 4, 100000)] [] 0, exists_ready (by decide +kernel)⟩,
    ⟨0, asked {} 0 cmdDeviceReset.op [(20, 1, 1)] [] 0, exists_ready (by decide +kernel)⟩,
    ⟨0, asked {} 0 cmdDeviceReset.op [(20, 1, 0)] [] 0, exists_ready (by decide +kernel)⟩,
    ⟨5, asked {} 5 0xFFFF [], some1 (by decide +kernel)⟩⟩

/-- What the hypotheses of `Obligations.EmptyQueueLetsTimePass` ask for is met. -/
theorem witness_EmptyQueueLetsTimePass :
    (∃ s : State, s.pending = []) ∧
    (∃ s : State, s.pending = [] ∧ s.clocked = false) :=
  ⟨⟨State.reset, rfl⟩,
    ⟨State.reset, rfl, rfl⟩⟩

/-- What the hypotheses of `Obligations.ClockEventsComplete` ask for is met. -/
theorem witness_ClockEventsComplete :
    (∃ (t : Nat) (s : State) (u : State), u = advance s t ∧ (u.clocked = true ∧ u.clock.config.mode ≠ 0 ∧ max u.clock.lastQualified u.clock.since + 4 * sampleNs u.clock.config ≤ u.now ∧ u.clock.st = .locked)) ∧
    (∃ (t : Nat) (s : State) (u : State), u = advance s t ∧ (u.clocked = true ∧ usesPtp u.clock.config = true ∧ max u.clock.lastAnnounce u.clock.since + u.clock.config.announceTimeout * announceNs ≤ u.now ∧ u.clock.st = .acquiring)) ∧
    (∃ (t : Nat) (s : State) (u : State), u = advance s t ∧ (u.clocked = true ∧ u.clock.st = .holdover ∧ u.clock.config.holdoverBound * 1000000000 < errNow u)) ∧
    (∃ (t : Nat) (s : State) (u : State), u = advance s t ∧ (u.clocked = true ∧ u.clock.st = .locked ∧ u.clock.since + secNs 16 ≤ u.now ∧ u.clock.refQualified = false)) ∧
    (∃ (t : Nat) (s : State) (u : State), u = advance s t ∧ (u.clocked = true ∧ u.clock.refQualified = true)) ∧
    (∃ (t : Nat) (s : State) (u : State), u = advance s t ∧ (u.clocked = true ∧ u.clock.config.mode = 2 ∧ u.clock.st = .free)) ∧
    (∃ (t : Nat) (s : State) (u : State), u = advance s t ∧ (u.clocked = true ∧ u.clock.st ≠ .free ∧ ppsWhole u ≠ u.clock.ppsOutSecond)) ∧
    (∃ (t : Nat) (s : State) (u : State), u = advance s t ∧ (u.clocked = true ∧ u.clock.ppsOut = true ∧ u.clock.ppsOutSince + u.clock.config.ppsOutWidth ≤ u.now)) :=
  ⟨⟨0, { dev := { mode := .inService }, now := 1000000000000, clock := { st := .locked, config := { mode := 3 }, lastQualified := 996000000000 } }, _, rfl, by decide +kernel⟩,
    ⟨0, { dev := { mode := .inService }, now := 1000000000000, clock := { st := .acquiring, config := { mode := 1 }, lastAnnounce := 994000000000 } }, _, rfl, by decide +kernel⟩,
    ⟨0, { dev := { mode := .inService }, now := 1000000000000, clock := { st := .holdover, errGrown := 25000000001 } }, _, rfl, by decide +kernel⟩,
    ⟨0, { dev := { mode := .inService }, now := 1000000000000, clock := { st := .locked, since := 984000000000 } }, _, rfl, by decide +kernel⟩,
    ⟨0, { dev := { mode := .inService }, now := 1000000000000, clock := { refQualified := true } }, _, rfl, by decide +kernel⟩,
    ⟨0, { dev := { mode := .inService }, now := 1000000000000, clock := { config := { mode := 2 } } }, _, rfl, by decide +kernel⟩,
    ⟨0, { dev := { mode := .inService }, now := 1000000000000, clock := { st := .locked, fold0 := 2000000000, ppsOutSecond := 1 } }, _, rfl, by decide +kernel⟩,
    ⟨0, { dev := { mode := .inService }, now := 1000000000000, clock := { ppsOut := true, ppsOutSince := 999999900000 } }, _, rfl, by decide +kernel⟩⟩

/-- What the hypotheses of `Obligations.PortEventsComplete` ask for is met. -/
theorem witness_PortEventsComplete :
    (∃ (t : Nat) (q : Fin 65) (s : State) (u : State), u = advance s t ∧ (u.clocked = true ∧ portExists u q = true ∧ (u.port q).link = .training)) ∧
    (∃ (t : Nat) (q : Fin 65) (s : State) (u : State), u = advance s t ∧ (u.clocked = true ∧ portExists u q = true ∧ (u.port q).link = .down ∧ (u.port q).since + msNs 10 ≤ u.now ∧ (q.val = mgmtPort ∨ (u.quad (q / 4)).st = .training ∨ (u.quad (q / 4)).st = .active))) ∧
    (∃ (t : Nat) (k : Fin 16) (s : State) (u : State), u = advance s t ∧ (u.clocked = true ∧ (u.quad k).st = .resetting ∧ (u.quad k).since + msNs 1 ≤ u.now)) ∧
    (∃ (t : Nat) (q : Fin 65) (s : State) (u : State), u = advance s t ∧ (u.clocked = true ∧ (u.port q).carries = true ∧ (u.port q).lockLost = none)) ∧
    (∃ (t : Nat) (q : Fin 65) (s : State) (u : State), u = advance s t ∧ (u.clocked = true ∧ (u.port q).lockLost.isSome = true)) ∧
    (∃ (t : Nat) (q : Fin 65) (s : State) (u : State), u = advance s t ∧ (u.clocked = true ∧ (u.port q).carries = true ∧ reached u (u.port q).lockLost = true)) :=
  ⟨⟨0, 63, { dev := { mode := .inService }, now := 1000000000000, quads := [(15, { st := .active, mode := 3 })], ports := [(63, { link := .training, relMode := 2 })] }, _, rfl, by decide +kernel⟩,
    ⟨0, 63, { dev := { mode := .inService }, now := 1000000000000, quads := [(15, { st := .active, mode := 3 })], ports := [(63, { link := .down, since := 999990000000 })] }, _, rfl, by decide +kernel⟩,
    ⟨0, 15, { dev := { mode := .inService }, now := 1000000000000, quads := [(15, { st := .resetting, since := 999999000000 })] }, _, rfl, by decide +kernel⟩,
    ⟨0, 63, { dev := { mode := .inService }, now := 1000000000000, quads := [(15, { st := .active, mode := 3 })], ports := [(63, { link := .up })] }, _, rfl, by decide +kernel⟩,
    ⟨0, 63, { dev := { mode := .inService }, now := 1000000000000, quads := [(15, { st := .active, mode := 3 })], ports := [(63, { link := .up, lockLost := some 5 })] }, _, rfl, by decide +kernel⟩,
    ⟨0, 63, { dev := { mode := .inService }, now := 1000000000000, quads := [(15, { st := .active, mode := 3 })], ports := [(63, { link := .up, lockLost := some 1000000000000 })] }, _, rfl, by decide +kernel⟩⟩

/-- What the hypotheses of `Obligations.TrafficEventsComplete` ask for is met. -/
theorem witness_TrafficEventsComplete :
    (∃ (t : Nat) (s : State) (u : State), u = advance s t ∧ (u.clocked = true ∧ u.dev.lastRefill / 1000 < u.ct / 1000 ∧ (∀ x ∈ u.staged, u.ct < x.at_))) ∧
    (∃ (t : Nat) (q : Fin 64) (g : GateList) (s : State) (u : State), u = advance s t ∧ (u.clocked = true ∧ (u.port q).gates = some g ∧ g.sync u.ct ≠ g)) ∧
    (∃ (t : Nat) (q : Fin 64) (g : GateList) (s : State) (u : State), u = advance s t ∧ (u.clocked = true ∧ (u.port q).schedGates = some g ∧ g.sync u.ct ≠ g)) ∧
    (∃ (q : Fin 64) (s : State) (classes : BitVec 8) (quanta : List (BitVec 16)) (x : RxItem) (w : State), arrival s q (fun f => match f.body with | .pfc _ _ => true | _ => false) = some (x, w) ∧ (x.frame.body = .pfc classes quanta ∧ classes &&& 0xC1 = 0)) ∧
    (∃ (q : Fin 64) (s : State) (classes : BitVec 8) (quanta : List (BitVec 16)) (x : RxItem) (w : State), arrival s q (fun f => match f.body with | .pfc _ _ => true | _ => false) = some (x, w) ∧ (x.frame.body = .pfc classes quanta ∧ classes &&& 0xC1 ≠ 0)) ∧
    (∃ (q : Fin 64) (s : State) (x : RxItem) (w : State), arrival s q (fun f => f.body == .pause) = some (x, w) ∧ (True)) ∧
    (∃ (t : Nat) (q : Fin 64) (tc : Fin 8) (s : State) (u : State), u = advance s t ∧ (u.clocked = true ∧ reached u ((u.port q).cls tc).pausedUntil = true)) ∧
    (∃ (t : Nat) (q : Fin 64) (tc : Fin 8) (s : State) (u : State), u = advance s t ∧ (u.clocked = true ∧ (u.port q).running = true ∧ ((u.port q).cls tc).xoff = true ∧ xonAt u q < ((u.port q).cls tc).occupied ∧ ((u.port q).cls tc).xoffAt + quantaNs u q 0xFFFF / 2 ≤ u.now)) ∧
    (∃ (t : Nat) (q : Fin 65) (s : State) (u : State), u = advance s t ∧ (u.clocked = true)) ∧
    (∃ (q : Nat) (s : State) (x : LinkTag) (r : List LinkTag), (s.port q).link = .up ∧ (s.port q).control = x :: r) :=
  ⟨⟨0, { dev := { mode := .inService }, now := 1000000000000, clock := { fold0 := 1000 } }, _, rfl, by decide +kernel⟩,
    ⟨0, 63, { covered := 0x81, base := 0, cycle := 1000, entries := [(100, 1), (900, 0x80)] }, { dev := { mode := .inService }, now := 1000000000000, clock := { fold0 := 100 }, ports := [(63, { gates := some { covered := 0x81, base := 0, cycle := 1000, entries := [(100, 1), (900, 0x80)] } })] }, _, rfl, by decide +kernel⟩,
    ⟨0, 63, { covered := 0x81, base := 0, cycle := 1000, entries := [(100, 1), (900, 0x80)] }, { dev := { mode := .inService }, now := 1000000000000, clock := { fold0 := 100 }, ports := [(63, { schedGates := some { covered := 0x81, base := 0, cycle := 1000, entries := [(100, 1), (900, 0x80)] } })] }, _, rfl, by decide +kernel⟩,
    ⟨63, { dev := { mode := .inService }, now := 1000000000000, ports := [(63, { rx := [{ frame := { len := 64, body := .pfc 0x3E (List.replicate 8 0xFFFF) }, stamp := 0 }] })] }, 0x3E, (List.replicate 8 0xFFFF), some2 (by decide +kernel)⟩,
    ⟨63, { dev := { mode := .inService }, now := 1000000000000, ports := [(63, { rx := [{ frame := { len := 64, body := .pfc 0x3F (List.replicate 8 0xFFFF) }, stamp := 0 }] })] }, 0x3F, (List.replicate 8 0xFFFF), some2 (by decide +kernel)⟩,
    ⟨63, { dev := { mode := .inService }, now := 1000000000000, ports := [(63, { rx := [{ frame := { len := 64, body := .pause }, stamp := 0 }] })] }, some2 (by decide +kernel)⟩,
    ⟨0, 63, 7, { dev := { mode := .inService }, now := 1000000000000, ports := [(63, { classes := [(7, { pausedUntil := some 1000000000000 })] })] }, _, rfl, by decide +kernel⟩,
    ⟨0, 63, 7, { dev := { mode := .inService }, now := 1000000000000, quads := [(15, { st := .active, mode := 3 })], ports := [(63, { link := .up, classes := [(7, { xoff := true, occupied := 100000000 })] })] }, _, rfl, by decide +kernel⟩,
    ⟨0, 0, { dev := { mode := .inService }, now := 1000000000000 }, _, rfl, by decide +kernel⟩,
    ⟨63, { dev := { mode := .inService }, now := 1000000000000, ports := [(63, { link := .up, control := [{ init := true }] })] }, { init := true }, [], by decide +kernel⟩⟩

/-- What the hypotheses of `Obligations.CoherenceRequestsComplete` ask for is met. -/
theorem witness_CoherenceRequestsComplete :
    (∃ (src : CohSource) (s : State) (line : Nat) (g : Agent) (r : CohReq) (u : State), cohRequest s src 0x10 = some (g, r, u) ∧ (cohCheck (bump u .context g.ctx 14 1) g r.agent r.opcode r.va = (stOk, line))) ∧
    (∃ (src : CohSource) (s : State) (line : Nat) (g : Agent) (r : CohReq) (u : State), cohRequest s src 0x11 = some (g, r, u) ∧ (cohCheck (bump u .context g.ctx 14 1) g r.agent r.opcode r.va = (stOk, line))) ∧
    (∃ (src : CohSource) (s : State) (line : Nat) (g : Agent) (r : CohReq) (u : State), cohRequest s src 0x12 = some (g, r, u) ∧ (cohCheck (bump u .context g.ctx 14 1) g r.agent r.opcode r.va = (stOk, line))) ∧
    (∃ (src : CohSource) (s : State) (line : Nat) (g : Agent) (r : CohReq) (u : State), cohRequest s src 0x13 = some (g, r, u) ∧ (cohCheck (bump u .context g.ctx 14 1) g r.agent r.opcode r.va = (stOk, line))) ∧
    (∃ (q : Fin 64) (s : State) (a : Nat) (g : Agent) (t : Txn) (r : InReq) (u : State), requested s q (fun e => e.op == 0x14) = some (r, u) ∧ (agentOfSession u r.i = some a ∧ u.agent? a = some g ∧ ackFrameBad g r.e = false ∧ u.txns.find? (fun t => t.phase == .ack && t.agent == a && t.va == r.e.arg 0 48) = some t)) ∧
    (∃ (p : Fin 16) (s : State) (t : Txn) (m : XMsg) (u : State), sentHome s p (fun m => m.opcode == 0x14) = some (m, u) ∧ (u.txns.find? (fun t => t.phase == .ack && t.agent == 64 + p.val && t.va == m.va) = some t)) :=
  ⟨⟨(.paddock 0), { dev := { mode := .inService }, now := 1000000000000, ctxs := [(0, { st := .active, segs := [(0, { flags := 0x3B, base := 0, list := [{ extent := 0, gen := 0 }] })] })], extents := [(0, { st := .granted, owner := 0 })], agents := [(64, { ctx := 0, session := 0, mask := 0xFF, n := 4, ways := 16, leaseMs := 0, leaseStart := 0 })], xbar := [{ toHome := true, paddock := 0, opcode := 0x10, subop := 0, va := 256, way := 3, data := [] }] }, 2, some3 (by decide +kernel)⟩,
    ⟨(.paddock 0), { dev := { mode := .inService }, now := 1000000000000, ctxs := [(0, { st := .active, segs := [(0, { flags := 0x3B, base := 0, list := [{ extent := 0, gen := 0 }] })] })], extents := [(0, { st := .granted, owner := 0 })], agents := [(64, { ctx := 0, session := 0, mask := 0xFF, n := 4, ways := 16, leaseMs := 0, leaseStart := 0 })], xbar := [{ toHome := true, paddock := 0, opcode := 0x11, subop := 0, va := 256, way := 3, data := [] }] }, 2, some3 (by decide +kernel)⟩,
    ⟨(.paddock 0), { dev := { mode := .inService }, now := 1000000000000, ctxs := [(0, { st := .active, segs := [(0, { flags := 0x3B, base := 0, list := [{ extent := 0, gen := 0 }] })] })], extents := [(0, { st := .granted, owner := 0 })], agents := [(64, { ctx := 0, session := 0, mask := 0xFF, n := 4, ways := 16, leaseMs := 0, leaseStart := 0 })], xbar := [{ toHome := true, paddock := 0, opcode := 0x12, subop := 0, va := 256, way := 3, data := [] }] }, 2, some3 (by decide +kernel)⟩,
    ⟨(.paddock 0), { dev := { mode := .inService }, now := 1000000000000, ctxs := [(0, { st := .active, segs := [(0, { flags := 0x3B, base := 0, list := [{ extent := 0, gen := 0 }] })] })], extents := [(0, { st := .granted, owner := 0 })], agents := [(64, { ctx := 0, session := 0, mask := 0xFF, n := 4, ways := 16, leaseMs := 0, leaseStart := 0 })], xbar := [{ toHome := true, paddock := 0, opcode := 0x13, subop := 0, va := 256, way := 3, data := List.replicate 128 1 }] }, 2, some3 (by decide +kernel)⟩,
    ⟨63, { dev := { mode := .inService }, now := 1000000000000, locals := [{ id := 1, ipv6 := false, ip := 0 }], sessions := [(64, { st := .opened, ctx := some 0, peer := 2, window := 16, w := 16 })], ctxs := [(0, { st := .active, segs := [(0, { flags := 0x3B, base := 0, list := [{ extent := 0, gen := 0 }] })] })], extents := [(0, { st := .granted, owner := 0 })], agents := [(7, { ctx := 0, session := 64, mask := 0xFF, n := 4, ways := 16, leaseMs := 100, leaseStart := 0 })], ports := [(63, { link := .up, rx := [{ frame := { len := 200, body := .eruno { opcode := 0x14, flags := 0x40, dst := 1, src := 2, session := 64, tag := 0, subop := 0, status := 0, operand := 256 } }, stamp := 0, opened := true }] })], txns := [{ line := 2, va := 256, kind := .rdShared, agent := 7, way := 3, phase := .ack, awaited := [] }] }, 7, { ctx := 0, session := 64, mask := 0xFF, n := 4, ways := 16, leaseMs := 100, leaseStart := 0 }, { line := 2, va := 256, kind := .rdShared, agent := 7, way := 3, phase := .ack, awaited := [] }, some2 (by decide +kernel)⟩,
    ⟨0, { dev := { mode := .inService }, now := 1000000000000, xbar := [{ toHome := true, paddock := 0, opcode := 0x14, subop := 0, va := 256, way := 3 }], txns := [{ line := 2, va := 256, kind := .rdShared, agent := 64, way := 3, phase := .ack, awaited := [] }] }, { line := 2, va := 256, kind := .rdShared, agent := 64, way := 3, phase := .ack, awaited := [] }, some2 (by decide +kernel)⟩⟩

/-- What the hypotheses of `Obligations.HomeServesByOpcode` ask for is met. -/
theorem witness_HomeServesByOpcode :
    (∃ (s : State) (r : CohReq), r.nc = none ∧ r.opcode = 0x10) ∧
    (∃ (s : State) (r : CohReq), r.nc = none ∧ r.opcode = 0x11) ∧
    (∃ (s : State) (r : CohReq), r.nc = none ∧ r.opcode = 0x12 ∧ (holders (bump s .device 0 0 1) r.line).contains r.agent = true ∧ lineOwner (bump s .device 0 0 1) r.line ≠ some r.agent) ∧
    (∃ (s : State) (r : CohReq), r.nc = none ∧ r.opcode = 0x12 ∧ (holders (bump s .device 0 0 1) r.line).contains r.agent = false) ∧
    (∃ (s : State) (r : CohReq), r.nc = none ∧ r.opcode = 0x13 ∧ ownsAt (bump s .device 0 0 1) r.agent r.va r.way r.line = true) ∧
    (∃ (s : State) (r : CohReq), r.nc = none ∧ r.opcode = 0x13 ∧ ownsAt (bump s .device 0 0 1) r.agent r.va r.way r.line = false) :=
  ⟨⟨{ dev := { mode := .inService }, now := 1000000000000, ctxs := [(0, { st := .active, segs := [(0, { flags := 0x3B, base := 0, list := [{ extent := 0, gen := 0 }] })] })], extents := [(0, { st := .granted, owner := 0 })], agents := [(64, { ctx := 0, session := 0, mask := 0xFF, n := 4, ways := 16, leaseMs := 0, leaseStart := 0 })] }, { line := 2, va := 256, opcode := 0x10, agent := 64, way := 3 }, by decide +kernel⟩,
    ⟨{ dev := { mode := .inService }, now := 1000000000000, ctxs := [(0, { st := .active, segs := [(0, { flags := 0x3B, base := 0, list := [{ extent := 0, gen := 0 }] })] })], extents := [(0, { st := .granted, owner := 0 })], agents := [(64, { ctx := 0, session := 0, mask := 0xFF, n := 4, ways := 16, leaseMs := 0, leaseStart := 0 })] }, { line := 2, va := 256, opcode := 0x11, agent := 64, way := 3 }, by decide +kernel⟩,
    ⟨{ dev := { mode := .inService }, now := 1000000000000, ctxs := [(0, { st := .active, segs := [(0, { flags := 0x3B, base := 0, list := [{ extent := 0, gen := 0 }] })] })], extents := [(0, { st := .granted, owner := 0 })], agents := [(64, { ctx := 0, session := 0, mask := 0xFF, n := 4, ways := 16, leaseMs := 0, leaseStart := 0 })], tally := [(tallyKey 64 (setOf 4 256) 3, { line := 2, owned := false })] }, { line := 2, va := 256, opcode := 0x12, agent := 64, way := 3 }, by decide +kernel⟩,
    ⟨{ dev := { mode := .inService }, now := 1000000000000, ctxs := [(0, { st := .active, segs := [(0, { flags := 0x3B, base := 0, list := [{ extent := 0, gen := 0 }] })] })], extents := [(0, { st := .granted, owner := 0 })], agents := [(64, { ctx := 0, session := 0, mask := 0xFF, n := 4, ways := 16, leaseMs := 0, leaseStart := 0 })] }, { line := 2, va := 256, opcode := 0x12, agent := 64, way := 3 }, by decide +kernel⟩,
    ⟨{ dev := { mode := .inService }, now := 1000000000000, ctxs := [(0, { st := .active, segs := [(0, { flags := 0x3B, base := 0, list := [{ extent := 0, gen := 0 }] })] })], extents := [(0, { st := .granted, owner := 0 })], agents := [(64, { ctx := 0, session := 0, mask := 0xFF, n := 4, ways := 16, leaseMs := 0, leaseStart := 0 })], tally := [(tallyKey 64 (setOf 4 256) 3, { line := 2, owned := true })] }, { line := 2, va := 256, opcode := 0x13, agent := 64, way := 3 }, by decide +kernel⟩,
    ⟨{ dev := { mode := .inService }, now := 1000000000000, ctxs := [(0, { st := .active, segs := [(0, { flags := 0x3B, base := 0, list := [{ extent := 0, gen := 0 }] })] })], extents := [(0, { st := .granted, owner := 0 })], agents := [(64, { ctx := 0, session := 0, mask := 0xFF, n := 4, ways := 16, leaseMs := 0, leaseStart := 0 })], tally := [(tallyKey 64 (setOf 4 256) 3, { line := 2, owned := false })] }, { line := 2, va := 256, opcode := 0x13, agent := 64, way := 3 }, by decide +kernel⟩⟩

/-- What the hypotheses of `Obligations.SnoopAnswersComplete` ask for is met. -/
theorem witness_SnoopAnswersComplete :
    (∃ (src : CohSource) (s : State) (t : Txn) (a : Nat) (line : Nat) (way : Nat) (d : Bytes) (w : State), answerFrom s src [0x18, 0x19] 0x10 = some (a, line, way, d, w) ∧ (txnOn w line = some t ∧ t.phase = .snp ∧ t.awaited.contains a = true ∧ homeHeld w line = false)) ∧
    (∃ (src : CohSource) (s : State) (t : Txn) (a : Nat) (line : Nat) (way : Nat) (d : Bytes) (w : State), answerFrom s src [0x18, 0x19] 0x11 = some (a, line, way, d, w) ∧ (txnOn w line = some t ∧ t.phase = .snp ∧ t.awaited.contains a = true ∧ homeHeld w line = false)) ∧
    (∃ (src : CohSource) (s : State) (t : Txn) (a : Nat) (line : Nat) (way : Nat) (d : Bytes) (w : State), answerFrom s src [0x18, 0x19] 0x12 = some (a, line, way, d, w) ∧ (txnOn w line = some t ∧ t.phase = .snp ∧ t.awaited.contains a = true ∧ homeHeld w line = false)) ∧
    (∃ (src : CohSource) (s : State) (t : Txn) (a : Nat) (line : Nat) (way : Nat) (d : Bytes) (w : State), answerFrom s src [0x18, 0x19] 0x13 = some (a, line, way, d, w) ∧ (txnOn w line = some t ∧ t.phase = .snp ∧ t.awaited.contains a = true ∧ homeHeld w line = false)) ∧
    (∃ (src : CohSource) (s : State) (t : Txn) (g : Agent) (a : Nat) (line : Nat) (way : Nat) (d : Bytes) (w : State), answerFrom s src [0x1A] 0x20 = some (a, line, way, d, w) ∧ (txnOn w line = some t ∧ t.phase = .sth ∧ t.agent = a ∧ w.agent? a = some g ∧ way < g.ways)) ∧
    (∃ (src : CohSource) (s : State) (t : Txn) (a : Nat) (line : Nat) (way : Nat) (d : Bytes) (w : State), answerFrom s src [0x1A] 0x21 = some (a, line, way, d, w) ∧ (txnOn w line = some t ∧ t.phase = .sth ∧ t.agent = a)) :=
  ⟨⟨(.paddock 0), { dev := { mode := .inService }, now := 1000000000000, ctxs := [(0, { st := .active, segs := [(0, { flags := 0x3B, base := 0, list := [{ extent := 0, gen := 0 }] })] })], extents := [(0, { st := .granted, owner := 0 })], agents := [(64, { ctx := 0, session := 0, mask := 0xFF, n := 4, ways := 16, leaseMs := 0, leaseStart := 0 })], xbar := [{ toHome := true, paddock := 0, opcode := 0x18, subop := 0x10, va := 256, way := 3, data := [] }], txns := [{ line := 2, va := 256, kind := .rdShared, agent := 7, way := 3, phase := .snp, awaited := [64] }] }, { line := 2, va := 256, kind := .rdShared, agent := 7, way := 3, phase := .snp, awaited := [64] }, some5 (by decide +kernel)⟩,
    ⟨(.paddock 0), { dev := { mode := .inService }, now := 1000000000000, ctxs := [(0, { st := .active, segs := [(0, { flags := 0x3B, base := 0, list := [{ extent := 0, gen := 0 }] })] })], extents := [(0, { st := .granted, owner := 0 })], agents := [(64, { ctx := 0, session := 0, mask := 0xFF, n := 4, ways := 16, leaseMs := 0, leaseStart := 0 })], xbar := [{ toHome := true, paddock := 0, opcode := 0x19, subop := 0x11, va := 256, way := 3, data := [] }], txns := [{ line := 2, va := 256, kind := .rdShared, agent := 7, way := 3, phase := .snp, awaited := [64] }] }, { line := 2, va := 256, kind := .rdShared, agent := 7, way := 3, phase := .snp, awaited := [64] }, some5 (by decide +kernel)⟩,
    ⟨(.paddock 0), { dev := { mode := .inService }, now := 1000000000000, ctxs := [(0, { st := .active, segs := [(0, { flags := 0x3B, base := 0, list := [{ extent := 0, gen := 0 }] })] })], extents := [(0, { st := .granted, owner := 0 })], agents := [(64, { ctx := 0, session := 0, mask := 0xFF, n := 4, ways := 16, leaseMs := 0, leaseStart := 0 })], xbar := [{ toHome := true, paddock := 0, opcode := 0x18, subop := 0x12, va := 256, way := 3, data := List.replicate 128 1 }], txns := [{ line := 2, va := 256, kind := .rdShared, agent := 7, way := 3, phase := .snp, awaited := [64] }] }, { line := 2, va := 256, kind := .rdShared, agent := 7, way := 3, phase := .snp, awaited := [64] }, some5 (by decide +kernel)⟩,
    ⟨(.paddock 0), { dev := { mode := .inService }, now := 1000000000000, ctxs := [(0, { st := .active, segs := [(0, { flags := 0x3B, base := 0, list := [{ extent := 0, gen := 0 }] })] })], extents := [(0, { st := .granted, owner := 0 })], agents := [(64, { ctx := 0, session := 0, mask := 0xFF, n := 4, ways := 16, leaseMs := 0, leaseStart := 0 })], xbar := [{ toHome := true, paddock := 0, opcode := 0x19, subop := 0x13, va := 256, way := 3, data := List.replicate 128 1 }], txns := [{ line := 2, va := 256, kind := .rdShared, agent := 7, way := 3, phase := .snp, awaited := [64] }] }, { line := 2, va := 256, kind := .rdShared, agent := 7, way := 3, phase := .snp, awaited := [64] }, some5 (by decide +kernel)⟩,
    ⟨(.paddock 0), { dev := { mode := .inService }, now := 1000000000000, ctxs := [(0, { st := .active, segs := [(0, { flags := 0x3B, base := 0, list := [{ extent := 0, gen := 0 }] })] })], extents := [(0, { st := .granted, owner := 0 })], agents := [(64, { ctx := 0, session := 0, mask := 0xFF, n := 4, ways := 16, leaseMs := 0, leaseStart := 0 })], xbar := [{ toHome := true, paddock := 0, opcode := 0x1A, subop := 0x20, va := 256, way := 3, data := [] }], txns := [{ line := 2, va := 256, kind := .rdShared, agent := 64, way := 3, phase := .sth, awaited := [] }] }, { line := 2, va := 256, kind := .rdShared, agent := 64, way := 3, phase := .sth, awaited := [] }, { ctx := 0, session := 0, mask := 0xFF, n := 4, ways := 16, leaseMs := 0, leaseStart := 0 }, some5 (by decide +kernel)⟩,
    ⟨(.paddock 0), { dev := { mode := .inService }, now := 1000000000000, ctxs := [(0, { st := .active, segs := [(0, { flags := 0x3B, base := 0, list := [{ extent := 0, gen := 0 }] })] })], extents := [(0, { st := .granted, owner := 0 })], agents := [(64, { ctx := 0, session := 0, mask := 0xFF, n := 4, ways := 16, leaseMs := 0, leaseStart := 0 })], xbar := [{ toHome := true, paddock := 0, opcode := 0x1A, subop := 0x21, va := 256, way := 3, data := [] }], txns := [{ line := 2, va := 256, kind := .rdShared, agent := 64, way := 3, phase := .sth, awaited := [] }] }, { line := 2, va := 256, kind := .rdShared, agent := 64, way := 3, phase := .sth, awaited := [] }, some5 (by decide +kernel)⟩⟩

/-- What the hypotheses of `Obligations.HomeEventsComplete` ask for is met. -/
theorem witness_HomeEventsComplete :
    (∃ (t : Nat) (line : Nat) (x : Txn) (s : State) (u : State), u = advance s t ∧ (u.clocked = true ∧ txnOn u line = some x ∧ x.phase = .snp ∧ x.needMem = true ∧ x.memIn = false ∧ homeHeld u line = false)) ∧
    (∃ (t : Nat) (line : Nat) (x : Txn) (s : State) (u : State), u = advance s t ∧ (u.clocked = true ∧ txnOn u line = some x ∧ x.phase = .ack ∧ agentLate u x.agent x.since = true)) ∧
    (∃ (t : Nat) (line : Nat) (a : Fin 80) (x : Txn) (s : State) (u : State), u = advance s t ∧ (u.clocked = true ∧ txnOn u line = some x ∧ x.phase = .snp ∧ x.awaited.contains a.val = true ∧ x.unsent.contains a.val = false ∧ agentLate u a (askedAt u x a) = true)) ∧
    (∃ (t : Nat) (a : Fin 80) (g : Agent) (cause : Nat) (s : State) (u : State), u = advance s t ∧ (u.clocked = true ∧ u.agent? a = some g ∧ g.dead = some cause ∧ cause ≠ 6)) ∧
    (∃ (t : Nat) (line : Nat) (x : Txn) (s : State) (u : State), u = advance s t ∧ (u.clocked = true ∧ txnOn u line = some x ∧ x.phase = .sth ∧ x.unsent = [] ∧ agentLate u x.agent (askedAt u x x.agent) = true)) ∧
    (∃ (t : Nat) (a : Fin 64) (g : Agent) (s : State) (u : State), u = advance s t ∧ (u.clocked = true ∧ u.agent? a = some g ∧ g.dead = none ∧ g.leaseStart + msNs g.leaseMs ≤ u.now)) :=
  ⟨⟨0, 2, { line := 2, va := 256, kind := .rdShared, agent := 7, way := 3, phase := .snp, awaited := [64] }, { dev := { mode := .inService }, now := 1000000000000, txns := [{ line := 2, va := 256, kind := .rdShared, agent := 7, way := 3, phase := .snp, awaited := [64] }] }, _, rfl, by decide +kernel⟩,
    ⟨0, 2, { line := 2, va := 256, kind := .rdShared, agent := 7, way := 3, phase := .ack, awaited := [] }, { dev := { mode := .inService }, now := 1000000000000, sessions := [(64, { st := .opened, timeoutNs := 50000 })], ctxs := [(0, { st := .active, segs := [(0, { flags := 0x3B, base := 0, list := [{ extent := 0, gen := 0 }] })] })], extents := [(0, { st := .granted, owner := 0 })], agents := [(7, { ctx := 0, session := 64, mask := 0xFF, n := 4, ways := 16, leaseMs := 100, leaseStart := 0 })], txns := [{ line := 2, va := 256, kind := .rdShared, agent := 7, way := 3, phase := .ack, awaited := [] }] }, _, rfl, by decide +kernel⟩,
    ⟨0, 2, 7, { line := 2, va := 256, kind := .rdShared, agent := 3, way := 3, phase := .snp, awaited := [7] }, { dev := { mode := .inService }, now := 1000000000000, sessions := [(64, { st := .opened, timeoutNs := 50000 })], ctxs := [(0, { st := .active, segs := [(0, { flags := 0x3B, base := 0, list := [{ extent := 0, gen := 0 }] })] })], extents := [(0, { st := .granted, owner := 0 })], agents := [(7, { ctx := 0, session := 64, mask := 0xFF, n := 4, ways := 16, leaseMs := 100, leaseStart := 0 })], txns := [{ line := 2, va := 256, kind := .rdShared, agent := 3, way := 3, phase := .snp, awaited := [7] }] }, _, rfl, by decide +kernel⟩,
    ⟨0, 79, { ctx := 0, session := 0, mask := 1, n := 2, ways := 1, leaseMs := 0, leaseStart := 0, dead := some 7 }, 7, { dev := { mode := .inService }, now := 1000000000000, agents := [(79, { ctx := 0, session := 0, mask := 1, n := 2, ways := 1, leaseMs := 0, leaseStart := 0, dead := some 7 })] }, _, rfl, by decide +kernel⟩,
    ⟨0, 2, { line := 2, va := 256, kind := .rdShared, agent := 7, way := 3, phase := .sth, awaited := [] }, { dev := { mode := .inService }, now := 1000000000000, sessions := [(64, { st := .opened, timeoutNs := 50000 })], ctxs := [(0, { st := .active, segs := [(0, { flags := 0x3B, base := 0, list := [{ extent := 0, gen := 0 }] })] })], extents := [(0, { st := .granted, owner := 0 })], agents := [(7, { ctx := 0, session := 64, mask := 0xFF, n := 4, ways := 16, leaseMs := 100, leaseStart := 0 })], txns := [{ line := 2, va := 256, kind := .rdShared, agent := 7, way := 3, phase := .sth, awaited := [] }] }, _, rfl, by decide +kernel⟩,
    ⟨0, 63, { ctx := 0, session := 0, mask := 1, n := 2, ways := 1, leaseMs := 100, leaseStart := 999900000000 }, { dev := { mode := .inService }, now := 1000000000000, agents := [(63, { ctx := 0, session := 0, mask := 1, n := 2, ways := 1, leaseMs := 100, leaseStart := 999900000000 })] }, _, rfl, by decide +kernel⟩⟩

/-- What the hypotheses of `Obligations.LineCacheMessagesComplete` ask for is met. -/
theorem witness_LineCacheMessagesComplete :
    (∃ (p : Fin 16) (s : State) (w : Way) (m : XMsg) (u : State), delivered s p (fun m => m.opcode ≤ 0x12 && m.subop == 1) = some (m, u) ∧ (tget? (u.engine p).ways (wayKey (u.engine p) m.va m.way) = some w ∧ w.va = m.va ∧ w.st = .isD)) ∧
    (∃ (p : Fin 16) (s : State) (w : Way) (m : XMsg) (u : State), delivered s p (fun m => m.opcode ≤ 0x12 && m.subop == 2) = some (m, u) ∧ (tget? (u.engine p).ways (wayKey (u.engine p) m.va m.way) = some w ∧ w.va = m.va ∧ w.st = .isD)) ∧
    (∃ (p : Fin 16) (s : State) (w : Way) (m : XMsg) (u : State), delivered s p (fun m => m.opcode ≤ 0x12 && m.subop == 3) = some (m, u) ∧ (tget? (u.engine p).ways (wayKey (u.engine p) m.va m.way) = some w ∧ w.va = m.va ∧ (w.st = .imD ∨ w.st = .smA))) ∧
    (∃ (p : Fin 16) (s : State) (w : Way) (m : XMsg) (u : State), delivered s p (fun m => m.opcode ≤ 0x12 && m.subop == 4) = some (m, u) ∧ (tget? (u.engine p).ways (wayKey (u.engine p) m.va m.way) = some w ∧ w.va = m.va ∧ w.st = .smA)) ∧
    (∃ (p : Fin 16) (s : State) (k : Nat) (w : Way) (m : XMsg) (u : State), delivered s p (fun m => m.opcode == 0x13 && m.subop == 5) = some (m, u) ∧ (wayOf (u.engine p) m.va = some (k, w) ∧ (w.st = .miA ∨ w.st = .iiA))) ∧
    (∃ (p : Fin 16) (s : State) (m : XMsg) (u : State), delivered s p (fun m => m.opcode == 0x18) = some (m, u) ∧ (wayOf (u.engine p) m.va = none)) ∧
    (∃ (p : Fin 16) (s : State) (k : Nat) (subop : Nat) (w : Way) (withData : Bool) (st : Option LineState) (m : XMsg) (u : State), delivered s p (fun m => m.opcode == 0x18) = some (m, u) ∧ (wayOf (u.engine p) m.va = some (k, w) ∧ Machine.snpShared w.st = (subop, withData, st))) ∧
    (∃ (p : Fin 16) (s : State) (m : XMsg) (u : State), delivered s p (fun m => m.opcode == 0x19) = some (m, u) ∧ (wayOf (u.engine p) m.va = none)) ∧
    (∃ (p : Fin 16) (s : State) (k : Nat) (subop : Nat) (w : Way) (withData : Bool) (st : Option LineState) (m : XMsg) (u : State), delivered s p (fun m => m.opcode == 0x19) = some (m, u) ∧ (wayOf (u.engine p) m.va = some (k, w) ∧ Machine.snpInv w.st = (subop, withData, st))) ∧
    (∃ (p : Fin 16) (s : State) (m : XMsg) (u : State), delivered s p (fun m => m.opcode == 0x1A) = some (m, u) ∧ (wayOf (u.engine p) m.va = none ∧ (u.engine p).partition ≠ 0 ∧ lineCurrent u p m.va m.line = true ∧ openWays (u.engine p) m.va ≠ [])) :=
  ⟨⟨15, { dev := { mode := .inService }, now := 1000000000000, xbar := [{ toHome := false, paddock := 15, opcode := 0x10, subop := 1, va := 256, way := 3 }], engines := [(15, { partition := 4096, ways := [(setOf (cacheN 4096) 256 * 16 + 3, { va := 256, st := .isD })] })], agents := [(79, { ctx := 0, session := 0, mask := 1, n := 2, ways := 1, leaseMs := 0, leaseStart := 0 })], ctxs := [(0, { st := .active, segs := [(7, { flags := 0x1F, base := 0, list := [{ extent := 0, gen := 0 }] })] })] }, { va := 256, st := .isD }, some2 (by decide +kernel)⟩,
    ⟨15, { dev := { mode := .inService }, now := 1000000000000, xbar := [{ toHome := false, paddock := 15, opcode := 0x10, subop := 2, va := 256, way := 3 }], engines := [(15, { partition := 4096, ways := [(setOf (cacheN 4096) 256 * 16 + 3, { va := 256, st := .isD })] })] }, { va := 256, st := .isD }, some2 (by decide +kernel)⟩,
    ⟨15, { dev := { mode := .inService }, now := 1000000000000, xbar := [{ toHome := false, paddock := 15, opcode := 0x11, subop := 3, va := 256, way := 3 }], engines := [(15, { partition := 4096, ways := [(setOf (cacheN 4096) 256 * 16 + 3, { va := 256, st := .imD })] })] }, { va := 256, st := .imD }, some2 (by decide +kernel)⟩,
    ⟨15, { dev := { mode := .inService }, now := 1000000000000, xbar := [{ toHome := false, paddock := 15, opcode := 0x12, subop := 4, va := 256, way := 3 }], engines := [(15, { partition := 4096, ways := [(setOf (cacheN 4096) 256 * 16 + 3, { va := 256, st := .smA })] })] }, { va := 256, st := .smA }, some2 (by decide +kernel)⟩,
    ⟨15, { dev := { mode := .inService }, now := 1000000000000, xbar := [{ toHome := false, paddock := 15, opcode := 0x13, subop := 5, va := 256, way := 3 }], engines := [(15, { partition := 4096, ways := [(setOf (cacheN 4096) 256 * 16 + 3, { va := 256, st := .miA })] })] }, (setOf (cacheN 4096) 256 * 16 + 3), { va := 256, st := .miA }, some2 (by decide +kernel)⟩,
    ⟨15, { dev := { mode := .inService }, now := 1000000000000, xbar := [{ toHome := false, paddock := 15, opcode := 0x18, subop := 0, va := 256, way := 3 }], engines := [(15, { partition := 4096, ways := [] })] }, some2 (by decide +kernel)⟩,
    ⟨15, { dev := { mode := .inService }, now := 1000000000000, xbar := [{ toHome := false, paddock := 15, opcode := 0x18, subop := 0, va := 256, way := 3 }], engines := [(15, { partition := 4096, ways := [(setOf (cacheN 4096) 256 * 16 + 3, { va := 256, st := .m })] })] }, (setOf (cacheN 4096) 256 * 16 + 3), (Machine.snpShared .m).1, { va := 256, st := .m }, (Machine.snpShared .m).2.1, (Machine.snpShared .m).2.2, some2 (by decide +kernel)⟩,
    ⟨15, { dev := { mode := .inService }, now := 1000000000000, xbar := [{ toHome := false, paddock := 15, opcode := 0x19, subop := 0, va := 256, way := 3 }], engines := [(15, { partition := 4096, ways := [] })] }, some2 (by decide +kernel)⟩,
    ⟨15, { dev := { mode := .inService }, now := 1000000000000, xbar := [{ toHome := false, paddock := 15, opcode := 0x19, subop := 0, va := 256, way := 3 }], engines := [(15, { partition := 4096, ways := [(setOf (cacheN 4096) 256 * 16 + 3, { va := 256, st := .m })] })] }, (setOf (cacheN 4096) 256 * 16 + 3), (Machine.snpInv .m).1, { va := 256, st := .m }, (Machine.snpInv .m).2.1, (Machine.snpInv .m).2.2, some2 (by decide +kernel)⟩,
    ⟨15, { dev := { mode := .inService }, now := 1000000000000, xbar := [{ toHome := false, paddock := 15, opcode := 0x1A, subop := 0, va := 256, way := 3 }], engines := [(15, { partition := 4096, ways := [] })], agents := [(79, { ctx := 0, session := 0, mask := 1, n := 2, ways := 1, leaseMs := 0, leaseStart := 0 })], ctxs := [(0, { st := .active, segs := [(7, { flags := 0x1F, base := 0, list := [{ extent := 0, gen := 0 }] })] })] }, some2 (by decide +kernel)⟩⟩

/-- What the hypotheses of `Obligations.RefreshEventsComplete` ask for is met. -/
theorem witness_RefreshEventsComplete :
    (∃ (t : Nat) (k : Fin 16) (c : Fin 64) (b : Bool) (s : State) (u : State), u = advance s t ∧ (refreshes u k = true ∧ c.val < u.pcs ∧ 2 * tgetD (u.stack k).lastTick 0 c + tickHalfNs u k c ≤ 2 * u.now ∧ tgetD (u.stack k).owed 0 c + 1 < 8 ∧ (u.stack k).preT0 = false ∧ windowSched u 7 k = none ∧ b = true)) ∧
    (∃ (t : Nat) (k : Fin 16) (c : Fin 64) (b : Bool) (s : State) (u : State), u = advance s t ∧ (refreshes u k = true ∧ c.val < u.pcs ∧ 2 * tgetD (u.stack k).lastTick 0 c + tickHalfNs u k c ≤ 2 * u.now ∧ tgetD (u.stack k).owed 0 c = 7)) ∧
    (∃ (t : Nat) (k : Fin 16) (c : Fin 64) (s : State) (u : State), u = advance s t ∧ (refreshes u k = true ∧ c.val < u.pcs ∧ windowSched u 7 k = none ∧ tgetD (u.stack k).lastDemand 0 (c.val / 16) + mclkNs u k 16 ≤ u.now ∧ tgetD (u.stack k).owed 0 c ≤ 8)) ∧
    (∃ (t : Nat) (k : Fin 16) (c : Fin 64) (left : Nat) (s : State) (u : State), u = advance s t ∧ (refreshes u k = true ∧ c.val < u.pcs ∧ windowLeft u 7 k = some left)) ∧
    (∃ (t : Nat) (k : Fin 16) (s : State) (u : State), u = advance s t ∧ (refreshes u k = true ∧ preT0Due u k = true)) ∧
    (∃ (t : Nat) (k : Fin 16) (n : Nat) (t0 : Nat) (left : Nat) (b : Bytes) (s : State) (u : State), u = advance s t ∧ (u.clocked = true ∧ windowSched u 8 k = some (n, t0, b) ∧ windowLeft u 8 k = some left)) ∧
    (∃ (t : Nat) (l : List Int) (s : State) (u : State), u = advance s t ∧ (u.clocked = true ∧ readingDue u u.dev.dieReadAt = true ∧ (∀ x ∈ l, 0 ≤ x))) ∧
    (∃ (t : Nat) (l : List Int) (s : State) (u : State), u = advance s t ∧ (u.clocked = true ∧ readingDue u u.dev.stackReadAt = true ∧ (∀ x ∈ l, 0 ≤ x))) ∧
    (∃ (l : List Int) (x : Int), x ∈ l ∧ x < 0) :=
  ⟨⟨0, 15, 63, true, { dev := { mode := .inService, profile := { bytes := [(15 * 6016 + 4, 64), (15 * 6016 + 5, 31)] } }, now := 1000000000000, stks := [(15, { inService := true, owed := [(63, 6)] })] }, _, rfl, by decide +kernel⟩,
    ⟨0, 15, 63, false, { dev := { mode := .inService, profile := { bytes := [(15 * 6016 + 4, 64), (15 * 6016 + 5, 31)] } }, now := 1000000000000, stks := [(15, { inService := true, owed := [(63, 7)] })] }, _, rfl, by decide +kernel⟩,
    ⟨0, 15, 63, { dev := { mode := .inService, profile := { bytes := [(15 * 6016 + 4, 64), (15 * 6016 + 5, 31)] } }, now := 1000000000000, stks := [(15, { inService := true, owed := [(63, 8)] })] }, _, rfl, by decide +kernel⟩,
    ⟨0, 15, 63, 2000, { dev := { mode := .inService, profile := { bytes := [(15 * 6016 + 4, 64), (15 * 6016 + 5, 31)] } }, now := 1000000000000, stks := [(15, { inService := true })], scheds := [(0, { ctx := 0, image := windowImage 7, st := .running, t0 := some 0 })] }, _, rfl, by decide +kernel⟩,
    ⟨0, 15, { dev := { mode := .inService, profile := { bytes := [(15 * 6016 + 4, 64), (15 * 6016 + 5, 31)] } }, now := 1000000000000, stks := [(15, { inService := true })], scheds := [(0, { ctx := 0, image := windowImage 7, st := .armed, t0 := some 20000 })] }, _, rfl, by decide +kernel⟩,
    ⟨0, 15, 0, 0, 2000, (windowImage 8), { dev := { mode := .inService, profile := { bytes := [(15 * 6016 + 4, 64), (15 * 6016 + 5, 31)] } }, now := 1000000000000, stks := [(15, { inService := true })], scheds := [(0, { ctx := 0, image := windowImage 8, st := .running, t0 := some 0 })] }, _, rfl, by decide +kernel⟩,
    ⟨0, [0, 105], { dev := { mode := .inService }, now := 1000000000000 }, _, rfl, by decide +kernel⟩,
    ⟨0, [0, 95], { dev := { mode := .inService }, now := 1000000000000 }, _, rfl, by decide +kernel⟩,
    ⟨[5, -1], -1, by decide⟩⟩

/-- What the hypotheses of `Obligations.StackEventsComplete` ask for is met. -/
theorem witness_StackEventsComplete :
    (∃ (t : Nat) (k : Fin 64) (b : Fin 64) (n : Fin 16) (r : OpenRow) (s : State) (u : State), u = advance s t ∧ (u.clocked = true ∧ (u.stack n).clocked = true ∧ tget? (u.stack n).rows (k.val / 16 * 64 + b.val) = some r ∧ r.last + mclkNs u n u.dev.idleClose ≤ u.now)) ∧
    (∃ (t : Nat) (n : Fin 16) (l : Nat) (o : LineObs) (s : State) (u : State), u = advance s t ∧ (u.clocked = true ∧ l % 128 = 0 ∧ l < u.stripes * 4096 ∧ controllerRuns u n = true)) ∧
    (∃ (t : Nat) (n : Fin 16) (s : State) (u : State), u = advance s t ∧ (u.clocked = true ∧ (u.stack n).inService = true ∧ (u.stack n).clocked = true)) ∧
    (∃ (t : Nat) (f : Fin 4) (s : State) (u : State), u = advance s t ∧ (u.clocked = true)) ∧
    (∃ (t : Nat) (n : Fin 16) (s : State) (u : State), u = advance s t ∧ (firmwareRuns u = true ∧ nextDeclared u n = true)) ∧
    (∃ (t : Nat) (n : Fin 16) (o : LineObs) (s : State) (u : State), u = advance s t ∧ (u.clocked = true ∧ controllerRuns u n = true ∧ scrubDue u (u.stack n) = true)) ∧
    (∃ (t : Nat) (n : Fin 16) (l : Nat) (r : List Nat) (s : State) (u : State), u = advance s t ∧ (u.clocked = true ∧ controllerRuns u n = true ∧ (u.stack n).repairs = l :: r)) ∧
    (∃ (t : Nat) (n : Fin 16) (k : Nat) (c : Combine) (s : State) (u : State), u = advance s t ∧ (u.clocked = true ∧ (u.stack n).clocked = true ∧ parityHome k = n.val ∧ combineOf u k = some c ∧ c.last + u.policy.combineIdle ≤ u.now)) ∧
    (∃ (t : Nat) (f : Nat) (l : Nat) (s : State) (u : State), u = advance s t ∧ (u.clocked = true ∧ stacksClocked u = true ∧ u.layout.st = .rebuilding ∧ u.rebuild.mode ≠ 1 ∧ u.rebuild.inSlot = false ∧ slotStripe u f < u.stripes ∧ u.layout.f = some f ∧ u.rebuild.lastSlot = some l ∧ l + mclkNs u f (spacing u) ≤ u.now)) ∧
    (∃ (t : Nat) (f : Nat) (s : State) (u : State), u = advance s t ∧ (u.clocked = true ∧ stacksClocked u = true ∧ u.layout.st = .rebuilding ∧ u.rebuild.inSlot = true ∧ u.layout.f = some f ∧ (u.rebuild.settled = true ∨ stackServes u (spareStack (slotStripe u f)) = true))) :=
  ⟨⟨0, 63, 63, 15, { row := 5, last := 0 }, { dev := { mode := .inService, profile := { bytes := [(15 * 6016 + 4, 64), (15 * 6016 + 5, 31)] } }, now := 1000000000000, stks := [(15, { inService := true, rows := [(3 * 64 + 63, { row := 5, last := 0 })] })] }, _, rfl, by decide +kernel⟩,
    ⟨0, 15, 137438953344, {}, { dev := { mode := .inService, profile := { bytes := [(15 * 6016 + 4, 64), (15 * 6016 + 5, 31)] } }, now := 1000000000000, stks := [(15, { inService := true })] }, _, rfl, by decide +kernel⟩,
    ⟨0, 15, { dev := { mode := .inService, profile := { bytes := [(15 * 6016 + 4, 64), (15 * 6016 + 5, 31)] } }, now := 1000000000000, stks := [(15, { inService := true })] }, _, rfl, by decide +kernel⟩,
    ⟨0, 3, { dev := { mode := .inService }, now := 1000000000000 }, _, rfl, by decide +kernel⟩,
    ⟨0, 15, { dev := { mode := .inService, profile := { bytes := [(15 * 6016 + 4, 64), (15 * 6016 + 5, 31)] } }, now := 1000000000000, stks := [(15, { inService := true, st := .fenced })] }, _, rfl, by decide +kernel⟩,
    ⟨0, 15, {}, { dev := { mode := .inService, profile := { bytes := [(15 * 6016 + 4, 64), (15 * 6016 + 5, 31)] } }, now := 1000000000000, stks := [(15, { inService := true })] }, _, rfl, by decide +kernel⟩,
    ⟨0, 15, 128, [], { dev := { mode := .inService, profile := { bytes := [(15 * 6016 + 4, 64), (15 * 6016 + 5, 31)] } }, now := 1000000000000, stks := [(15, { inService := true, repairs := [128] })] }, _, rfl, by decide +kernel⟩,
    ⟨0, 15, 15, { stripe := 15 }, { dev := { mode := .inService, profile := { bytes := [(15 * 6016 + 4, 64), (15 * 6016 + 5, 31)] } }, now := 1000000000000, stks := [(15, { inService := true, combining := [{ stripe := 15 }] })] }, _, rfl, by decide +kernel⟩,
    ⟨0, 15, 0, { dev := { mode := .inService, profile := { bytes := [(15 * 6016 + 4, 64), (15 * 6016 + 5, 31)] } }, now := 1000000000000, stks := [(15, { inService := true })], layout := { st := .rebuilding, f := some 15, w := 33554431 }, rebuild := { lastSlot := some 0 } }, _, rfl, by decide +kernel⟩,
    ⟨0, 15, { dev := { mode := .inService }, now := 1000000000000, stks := [(1, { inService := true })], layout := { st := .rebuilding, f := some 15, w := 0 }, rebuild := { inSlot := true } }, _, rfl, by decide +kernel⟩⟩

/-- What the hypotheses of `Obligations.PageRegistersComplete` ask for is met. -/
theorem witness_PageRegistersComplete :
    (∃ (m : Fin 1029) (p : Path) (v : BitVec 16) (s : State), pathAllows s p m = true ∧ (v - (s.page m).reqPi).toNat ≤ 256 ∧ (v - (s.page m).rspCi).toNat ≤ 256) ∧
    (∃ (m : Fin 1029) (p : Path) (v : BitVec 16) (s : State), pathAllows s p m = true ∧ (256 < (v - (s.page m).reqPi).toNat ∨ 256 < (v - (s.page m).rspCi).toNat)) ∧
    (∃ (m : Fin 1029) (p : Path) (v : BitVec 16) (s : State), pathAllows s p m = true) ∧
    (∃ (m : Fin 1029) (p : Path) (v : BitVec 16) (s : State), pathAllows s p m = true) ∧
    (∃ (m : Fin 1029) (p : Path) (v : BitVec 16) (s : State), pathAllows s p m = true ∧ (s.page m).held = [] ∧ (s.page m).dropped = 0) ∧
    (∃ (m : Fin 1029) (p : Path) (v : BitVec 32) (s : State), pathAllows s p m = true) ∧
    (∃ (m : Fin 1029) (p : Path) (b : Bool) (s : State), pathAllows s p m = true) ∧
    (∃ (m : Fin 1029) (p : Path) (b : Bool) (s : State), pathAllows s p m = true) ∧
    (∃ (p : Path) (s : State), identityReached s p = true) ∧
    (∃ (p : Path) (a : BitVec 32) (d : Bytes) (s : State), s.clocked = true ∧ csrRangeOk a.toNat d.length = true ∧ (∀ k < d.length / 4, csrWritable s p (csrPlace (a.toNat + 4 * k)) = true)) ∧
    (∃ (p : Path) (a : BitVec 32) (n : Nat) (s : State), s.clocked = true ∧ csrRangeOk a.toNat n = true ∧ (∀ k < n / 4, csrReadable s p (csrPlace (a.toNat + 4 * k)) = true)) :=
  ⟨⟨5, (.session 64 3), 0x00FF, { dev := { mode := .inService }, now := 1000000000000, sessions := [(64, { st := .opened, ctx := some 0, gen := 3 })], ctxs := [(0, { st := .active })], pages := [(5, { reqPi := 0xFFFF, rspCi := 0xFFFF })] }, by decide +kernel⟩,
    ⟨5, (.session 64 3), 0x0101, { dev := { mode := .inService }, now := 1000000000000, sessions := [(64, { st := .opened, ctx := some 0, gen := 3 })], ctxs := [(0, { st := .active })], pages := [(5, { reqPi := 0, rspCi := 0 })] }, by decide +kernel⟩,
    ⟨5, (.session 64 3), 5, { dev := { mode := .inService }, now := 1000000000000, sessions := [(64, { st := .opened, ctx := some 0, gen := 3 })], ctxs := [(0, { st := .active })], pages := [(5, {})] }, by decide +kernel⟩,
    ⟨5, (.session 64 3), 5, { dev := { mode := .inService }, now := 1000000000000, sessions := [(64, { st := .opened, ctx := some 0, gen := 3 })], ctxs := [(0, { st := .active })], pages := [(5, {})] }, by decide +kernel⟩,
    ⟨5, (.session 64 3), 9, { dev := { mode := .inService }, now := 1000000000000, sessions := [(64, { st := .opened, ctx := some 0, gen := 3 })], ctxs := [(0, { st := .active })], pages := [(5, { evqPi := 9 })] }, by decide +kernel⟩,
    ⟨5, (.session 64 3), 0, { dev := { mode := .inService }, now := 1000000000000, sessions := [(64, { st := .opened, ctx := some 0, gen := 3 })], ctxs := [(0, { st := .active })], pages := [(5, {})] }, by decide +kernel⟩,
    ⟨5, (.session 64 3), true, { dev := { mode := .inService }, now := 1000000000000, sessions := [(64, { st := .opened, ctx := some 0, gen := 3 })], ctxs := [(0, { st := .active })], pages := [(5, { badDoorbell := true })] }, by decide +kernel⟩,
    ⟨5, (.session 64 3), false, { dev := { mode := .inService }, now := 1000000000000, sessions := [(64, { st := .opened, ctx := some 0, gen := 3 })], ctxs := [(0, { st := .active })], pages := [(5, { evqOverflow := true })] }, by decide +kernel⟩,
    ⟨.mgmt, { dev := { mode := .inService }, now := 1000000000000 }, by decide +kernel⟩,
    ⟨.mgmt, 0x40FF8, (List.replicate 8 0), { dev := { mode := .inService }, now := 1000000000000, ports := [(64, { link := .up })] }, by decide +kernel⟩,
    ⟨.i3c, 0x50000, 8192, { dev := { mode := .inService }, now := 1000000000000 }, by decide +kernel⟩⟩

/-- What the hypotheses of `Obligations.PagesOutOfReachKeep` ask for is met. -/
theorem witness_PagesOutOfReachKeep :
    (∃ (m : Fin 1029) (p : Path) (s : State), pathAllows s p m = false) :=
  ⟨6, (.session 64 3), { dev := { mode := .inService }, now := 1000000000000, sessions := [(64, { st := .opened, ctx := some 0, gen := 3 })], ctxs := [(0, { st := .active })] }, by decide +kernel⟩

/-- What the hypotheses of `Obligations.ScheduleEventsComplete` ask for is met. -/
theorem witness_ScheduleEventsComplete :
    (∃ (t : Nat) (c : Fin 1024) (x : Load) (s : State) (u : State), u = advance s t ∧ (u.clocked = true ∧ u.loads.find? (fun y => y.ctx == c.val) = some x)) ∧
    (∃ (t : Nat) (n : Fin 64) (x : Sched) (s : State) (u : State), u = advance s t ∧ (u.clocked = true ∧ u.sched? n = some x ∧ x.arming = true ∧ (∀ p ∈ imagePaddocks x.image, (u.engine p).reset = none ∧ ∀ g, u.agent? (64 + p) = some g → g.dead = none))) ∧
    (∃ (t : Nat) (t0 : Nat) (n : Fin 64) (x : Sched) (s : State) (u : State), u = advance s t ∧ (u.clocked = true ∧ u.sched? n = some x ∧ x.arming = false ∧ x.st = .armed ∧ x.latched = false ∧ x.t0 = some t0 ∧ t0 ≤ u.ct + 2000)) ∧
    (∃ (t : Nat) (t0 : Nat) (n : Fin 64) (x : Sched) (s : State) (u : State), u = advance s t ∧ (u.clocked = true ∧ u.sched? n = some x ∧ x.arming = true ∧ x.t0 = some t0 ∧ t0 ≤ u.ct + 2000)) ∧
    (∃ (t : Nat) (t0 : Nat) (n : Fin 64) (x : Sched) (s : State) (u : State), u = advance s t ∧ (u.clocked = true ∧ u.sched? n = some x ∧ x.st = .armed ∧ x.t0 = some t0 ∧ t0 ≤ u.ct)) ∧
    (∃ (t : Nat) (n : Nat) (k : Nat) (p : Fin 16) (i : BitVec 16) (x : Sched) (s : State) (u : State), u = advance s t ∧ (u.clocked = true ∧ runningOn u p = some (n, x) ∧ lateOcc u x p i.toNat = some k)) ∧
    (∃ (t : Nat) (n : Fin 64) (x : Sched) (s : State) (u : State), u = advance s t ∧ (u.clocked = true ∧ u.sched? n = some x ∧ x.st = .running ∧ allHalted u n = true)) ∧
    (∃ (t : Nat) (n : Fin 64) (x : Sched) (s : State) (u : State), u = advance s t ∧ (u.clocked = true ∧ u.sched? n = some x ∧ x.st = .armed ∧ x.t0 = none ∧ x.armedAt + releaseWait x.image ≤ u.now)) ∧
    (∃ (t : Nat) (g : BitVec 64) (r : ReadyRec) (s : State) (u : State), u = advance s t ∧ (u.clocked = true ∧ r ∈ u.readyHeld ∧ r.tag = g ∧ r.since + tagWait u g ≤ u.now)) ∧
    (∃ (t : Nat) (x : StartCopy) (s : State) (u : State), u = advance s t ∧ (u.clocked = true ∧ x ∈ u.startCopies ∧ x.last + 1000 ≤ u.now)) ∧
    (∃ (q : Fin 64) (s : State) (r : InReq) (u : State), requested s q (fun e => e.op == 0x31 && e.flag 9 && (!recFormed e.payload || recKind e.payload == 1)) = some (r, u) ∧ (True)) ∧
    (∃ (q : Fin 64) (s : State) (r : InReq) (u : State), requested s q (fun e => e.op == 0x31 && e.flag 9 && (recFormed e.payload && recKind e.payload == 2)) = some (r, u) ∧ (True)) ∧
    (∃ (q : Fin 64) (s : State) (r : InReq) (u : State), requested s q (fun e => e.op == 0x31 && e.flag 9 && (recFormed e.payload && recKind e.payload == 3)) = some (r, u) ∧ (True)) :=
  ⟨⟨0, 1023, { ctx := 1023, tag := 0, va := 0, len := 64, mailbox := 1028 }, { dev := { mode := .inService }, now := 1000000000000, loads := [{ ctx := 1023, tag := 0, va := 0, len := 64, mailbox := 1028 }] }, _, rfl, by decide +kernel⟩,
    ⟨0, 63, { ctx := 0, image := [], arming := true, t0 := some 12001 }, { dev := { mode := .inService }, now := 1000000000000, clock := { fold0 := 10000, fold1 := 10000, fold2 := 10000, fold3 := 10000 }, scheds := [(63, { ctx := 0, image := [], arming := true, t0 := some 12001 })] }, _, rfl, by decide +kernel⟩,
    ⟨0, 12000, 63, { ctx := 0, image := [], st := .armed, t0 := some 12000 }, { dev := { mode := .inService }, now := 1000000000000, clock := { fold0 := 10000, fold1 := 10000, fold2 := 10000, fold3 := 10000 }, scheds := [(63, { ctx := 0, image := [], st := .armed, t0 := some 12000 })] }, _, rfl, by decide +kernel⟩,
    ⟨0, 12000, 63, { ctx := 0, image := [], arming := true, t0 := some 12000 }, { dev := { mode := .inService }, now := 1000000000000, clock := { fold0 := 10000, fold1 := 10000, fold2 := 10000, fold3 := 10000 }, scheds := [(63, { ctx := 0, image := [], arming := true, t0 := some 12000 })] }, _, rfl, by decide +kernel⟩,
    ⟨0, 10000, 63, { ctx := 0, image := [], st := .armed, t0 := some 10000 }, { dev := { mode := .inService }, now := 1000000000000, clock := { fold0 := 10000, fold1 := 10000, fold2 := 10000, fold3 := 10000 }, scheds := [(63, { ctx := 0, image := [], st := .armed, t0 := some 10000 })] }, _, rfl, by decide +kernel⟩,
    ⟨0, 63, 0, 15, 0, { ctx := 0, image := lateImage, st := .running, t0 := some 0 }, late, _, rfl, by decide +kernel⟩,
    ⟨0, 63, { ctx := 0, image := [], st := .running }, { dev := { mode := .inService }, now := 1000000000000, clock := { fold0 := 10000, fold1 := 10000, fold2 := 10000, fold3 := 10000 }, scheds := [(63, { ctx := 0, image := [], st := .running })] }, _, rfl, by decide +kernel⟩,
    ⟨0, 63, { ctx := 0, image := [], st := .armed }, { dev := { mode := .inService }, now := 1000000000000, clock := { fold0 := 10000, fold1 := 10000, fold2 := 10000, fold3 := 10000 }, scheds := [(63, { ctx := 0, image := [], st := .armed })] }, _, rfl, by decide +kernel⟩,
    ⟨0, 5, { tag := 5, sender := 1, session := 64, since := 940000000000 }, { dev := { mode := .inService }, now := 1000000000000, readyHeld := [{ tag := 5, sender := 1, session := 64, since := 940000000000 }] }, _, rfl, by decide +kernel⟩,
    ⟨0, { sched := 0, session := 64, kind := 1, sender := 0, tag := 5, t0 := 0, reason := 0, left := 2, last := 999999999000 }, { dev := { mode := .inService }, now := 1000000000000, startCopies := [{ sched := 0, session := 64, kind := 1, sender := 0, tag := 5, t0 := 0, reason := 0, left := 2, last := 999999999000 }] }, _, rfl, by decide +kernel⟩,
    ⟨63, { dev := { mode := .inService }, now := 1000000000000, locals := [{ id := 1, ipv6 := false, ip := 0 }], sessions := [(64, { st := .opened, ctx := some 0, peer := 2, window := 16, w := 16 })], ports := [(63, { link := .up, rx := [{ frame := { len := 200, body := .eruno { opcode := 0x31, flags := 0x240, dst := 1, src := 2, session := 64, tag := 0, subop := 0, status := 0, payload := putNat (List.replicate 32 0) 0 1 1 } }, stamp := 0, opened := true }] })] }, some2 (by decide +kernel)⟩,
    ⟨63, { dev := { mode := .inService }, now := 1000000000000, locals := [{ id := 1, ipv6 := false, ip := 0 }], sessions := [(64, { st := .opened, ctx := some 0, peer := 2, window := 16, w := 16 })], ports := [(63, { link := .up, rx := [{ frame := { len := 200, body := .eruno { opcode := 0x31, flags := 0x240, dst := 1, src := 2, session := 64, tag := 0, subop := 0, status := 0, payload := putNat (List.replicate 32 0) 0 1 2 } }, stamp := 0, opened := true }] })] }, some2 (by decide +kernel)⟩,
    ⟨63, { dev := { mode := .inService }, now := 1000000000000, locals := [{ id := 1, ipv6 := false, ip := 0 }], sessions := [(64, { st := .opened, ctx := some 0, peer := 2, window := 16, w := 16 })], ports := [(63, { link := .up, rx := [{ frame := { len := 200, body := .eruno { opcode := 0x31, flags := 0x240, dst := 1, src := 2, session := 64, tag := 0, subop := 0, status := 0, payload := putNat (List.replicate 32 0) 0 1 3 } }, stamp := 0, opened := true }] })] }, some2 (by decide +kernel)⟩⟩

/-- What the hypotheses of `Obligations.TenancyEventsComplete` ask for is met. -/
theorem witness_TenancyEventsComplete :
    (∃ (t : Nat) (c : Fin 1024) (s : State) (u : State), u = advance s t ∧ (u.clocked = true ∧ (u.ctx c).st = .active ∧ (u.ctx c).warned = false ∧ (u.ctx c).leaseStart * 4 + msNs (u.ctx c).leaseMs * 3 ≤ u.now * 4 ∧ u.now < (u.ctx c).leaseStart + msNs (u.ctx c).leaseMs)) ∧
    (∃ (t : Nat) (c : Fin 1024) (s : State) (u : State), u = advance s t ∧ (u.clocked = true ∧ (u.ctx c).st = .active ∧ (u.ctx c).leaseStart + msNs (u.ctx c).leaseMs ≤ u.now)) ∧
    (∃ (t : Nat) (e : Nat) (s : State) (u : State), u = advance s t ∧ (u.clocked = true ∧ (u.extent e).st = .fenced ∧ drained u e = true)) ∧
    (∃ (t : Nat) (e : Nat) (s : State) (u : State), u = advance s t ∧ (u.clocked = true ∧ (u.extent e).st = .fenced ∧ (u.extent e).fencedAt + msNs 1 ≤ u.now)) ∧
    (∃ (e : Nat) (u : State), drained u e = true) ∧
    (∃ (e : Nat) (u : State), unaccepted u e = []) ∧
    (∃ (e : Nat) (ids : List Nat) (u : State), unaccepted u e ≠ [] ∧ ids = [3]) ∧
    (∃ (t : Nat) (e : Nat) (s : State) (u : State), u = advance s t ∧ (u.clocked = true ∧ stacksClocked u = true ∧ (u.extent e).st = .clearing ∧ u.layout.st ≠ .lost)) ∧
    (∃ (t : Nat) (c : Fin 1024) (i : BitVec 16) (d : Drain) (p : Pending) (s : State) (u : State), u = advance s t ∧ (u.clocked = true ∧ u.drains.find? (fun d => d.flushCtx == some c.val && d.session == i.toNat && drainOver u d) = some d ∧ pendingOf u (fun p => p.opcode == 0x0206 && p.id == d.cmd) = some p)) ∧
    (∃ (t : Nat) (i : BitVec 16) (g : BitVec 16) (d : Drain) (s : State) (u : State), u = advance s t ∧ (u.clocked = true ∧ u.drains.find? (fun d => d.flushCtx.isNone && d.session == i.toNat && d.tag == g && drainOver u d) = some d)) :=
  ⟨⟨0, 1023, { dev := { mode := .inService }, now := 1000000000000, ctxs := [(1023, { st := .active, leaseMs := 100, leaseStart := 999925000000 })] }, _, rfl, by decide +kernel⟩,
    ⟨0, 1023, { dev := { mode := .inService }, now := 1000000000000, ctxs := [(1023, { st := .active, leaseMs := 100, leaseStart := 999900000000 })] }, _, rfl, by decide +kernel⟩,
    ⟨0, 1775, { dev := { mode := .inService }, now := 1000000000000, extents := [(1775, { st := .fenced })] }, _, rfl, by decide +kernel⟩,
    ⟨0, 1775, { dev := { mode := .inService }, now := 1000000000000, extents := [(1775, { st := .fenced, fencedAt := 999999000000 })] }, _, rfl, by decide +kernel⟩,
    ⟨1775, { dev := { mode := .inService }, now := 1000000000000, txns := [{ line := 1775 * 2 ^ 23, va := 0, kind := .upgrade, phase := .ack }] }, by decide +kernel⟩,
    ⟨1775, { dev := { mode := .inService }, now := 1000000000000, txns := [{ line := 1775 * 2 ^ 23, va := 0, kind := .upgrade }] }, by decide +kernel⟩,
    ⟨1775, [3], { dev := { mode := .inService }, now := 1000000000000, cohQueue := [{ line := 1775 * 2 ^ 23, va := 0, opcode := 1, agent := 255, way := 0, nc := some 3 }] }, by decide +kernel, rfl⟩,
    ⟨0, 1775, { dev := { mode := .inService }, now := 1000000000000, extents := [(1775, { st := .clearing })] }, _, rfl, by decide +kernel⟩,
    ⟨0, 1023, 64, { session := 64, tag := 7, seq := 0, flushCtx := some 1023, requests := [] }, { objType := 0x0A, objId := 0, mailbox := 1028, tag := 7, opcode := 0x0206 }, { dev := { mode := .inService }, now := 1000000000000, drains := [{ session := 64, tag := 7, seq := 0, flushCtx := some 1023, requests := [] }], pendings := [{ objType := 0x0A, objId := 0, mailbox := 1028, tag := 7, opcode := 0x0206 }] }, _, rfl, by decide +kernel⟩,
    ⟨0, 64, 7, { session := 64, tag := 7, seq := 0, requests := [] }, { dev := { mode := .inService }, now := 1000000000000, drains := [{ session := 64, tag := 7, seq := 0, requests := [] }] }, _, rfl, by decide +kernel⟩⟩

/-- What the hypotheses of `Obligations.ResetAndStartComplete` ask for is met. -/
theorem witness_ResetAndStartComplete :
    (∃ (t : Nat) (s u : State), u = advance s t) ∧
    (∃ (t : Nat) (s : State) (u : State), u = advance s t ∧ u.pins.resetN = true) ∧
    (∃ (t : Nat) (s : State) (u : State), u = advance s t ∧ u.pins.resetN = false) ∧
    (∃ (t : Nat) (s : State) (u : State), u = advance s t ∧ (warmPinTaken u = true ∧ (u.aon.dumping.isSome = true ∨ u.dev.mode = .resetting))) ∧
    (∃ (t : Nat) (s : State) (u : State), u = advance s t ∧ (warmPinTaken u = true ∧ u.aon.dumping = none ∧ u.dev.mode ≠ .resetting)) ∧
    (∃ (t : Nat) (s u : State), u = advance s t) ∧
    (∃ (t : Nat) (f : Fin 4) (s : State) (u : State), u = advance s t ∧ (u.pins.thermtripN = true)) ∧
    (∃ (t : Nat) (s : State) (u : State), u = advance s t ∧ (u.clocked = true)) ∧
    (∃ (t : Nat) (f : Fin 4) (s : State) (u : State), u = advance s t ∧ (u.clocked = true)) ∧
    (∃ (t : Nat) (k : Fin 8) (s : State) (u : State), u = advance s t ∧ (u.clocked = true)) ∧
    (∃ (t : Nat) (o : ResetOrder) (s : State) (u : State), u = advance s t ∧ (u.aon.ordered = some o ∧ u.aon.dumping = none)) ∧
    (∃ (t : Nat) (d : Nat) (b : BitVec 8) (s : State) (u : State), u = advance s t ∧ (u.aon.dumping = some d ∧ d + 100000 ≤ u.now ∧ b.toNat ∈ dumpUnits)) ∧
    (∃ (t : Nat) (d : Nat) (o : ResetOrder) (s : State) (u : State), u = advance s t ∧ (u.aon.dumping = some d ∧ u.aon.ordered = some o)) ∧
    (∃ (t : Nat) (d : Nat) (o : ResetOrder) (s : State) (u : State), u = advance s t ∧ (u.aon.dumping = some d ∧ d + 20000000 ≤ u.now ∧ u.aon.ordered = some o)) ∧
    (∃ (t : Nat) (s : State) (u : State), u = advance s t ∧ (firmwareRuns u = true ∧ stacksClocked u = true ∧ u.aon.dumpHeld = .held)) ∧
    (∃ (t : Nat) (v : StartEnv) (s : State) (u : State), u = advance s t ∧ (u.dev.mode = .resetting ∧ u.aon.dumping = none ∧ u.pins.thermtripN = true)) ∧
    (∃ (t : Nat) (v : StartEnv) (s : State) (u : State), u = advance s t ∧ (u.dev.mode = .resetting ∧ u.aon.dumping = none ∧ u.pins.thermtripN = true ∧ v.bootSrc = true ∧ u.aon.vddLost = false)) ∧
    (∃ (t : Nat) (v : BringUpEnv) (s : State) (u : State), u = advance s t ∧ (u.clocked = true ∧ u.dev.mode = .starting ∧ u.dev.stacksReady = false ∧ u.aon.ordered = none ∧ badRails u v = [] ∧ (liveStacks u).any (delayFails u v) = false ∧ u.dev.startAt + bringUpNs u ≤ u.now)) ∧
    (∃ (t : Nat) (v : BringUpEnv) (x : Nat × Nat × Nat) (l : List (Nat × Nat × Nat)) (s : State) (u : State), u = advance s t ∧ (u.clocked = true ∧ u.dev.mode = .starting ∧ u.dev.stacksReady = false ∧ u.aon.ordered = none ∧ badRails u v = x :: l ∧ u.dev.startAt + 100000000 ≤ u.now)) ∧
    (∃ (t : Nat) (k : Nat) (v : BringUpEnv) (l : List Nat) (s : State) (u : State), u = advance s t ∧ (u.clocked = true ∧ u.dev.mode = .starting ∧ u.dev.stacksReady = false ∧ u.aon.ordered = none ∧ badRails u v = [] ∧ (liveStacks u).filter (delayFails u v) = k :: l ∧ u.dev.startAt + 325000000 ≤ u.now)) ∧
    (∃ (t : Nat) (s : State) (u : State), u = advance s t ∧ (u.clocked = true ∧ u.dev.mode = .starting ∧ stacksUp u = true ∧ u.aon.ordered = none ∧ (∀ e ∈ u.ports, e.2.required = true → e.2.link = .up ∨ e.2.link = .reliable))) ∧
    (∃ (t : Nat) (s : State) (u : State), u = advance s t ∧ (u.clocked = true ∧ u.dev.mode = .starting ∧ u.dev.startAt + 4000000000 ≤ u.now)) :=
  ⟨⟨0, State.reset, _, rfl⟩,
    ⟨0, { dev := { mode := .inService }, now := 1000000000000, pins := { resetN := true, pwrGood := true } }, _, rfl, by decide +kernel⟩,
    ⟨0, { dev := { mode := .inService }, now := 1000000000000 }, _, rfl, by decide +kernel⟩,
    ⟨0, { aon := { dumping := some 0 }, now := 5, pins := { resetN := true, pwrGood := true } }, _, rfl, by decide +kernel⟩,
    ⟨0, { dev := { mode := .inService }, now := 1000000000000, pins := { resetN := true, pwrGood := true } }, _, rfl, by decide +kernel⟩,
    ⟨5, State.reset, _, rfl⟩,
    ⟨0, 3, { dev := { mode := .inService }, now := 1000000000000, pins := { resetN := true, pwrGood := true } }, _, rfl, by decide +kernel⟩,
    ⟨0, { dev := { mode := .inService }, now := 1000000000000 }, _, rfl, by decide +kernel⟩,
    ⟨0, 3, { dev := { mode := .inService }, now := 1000000000000 }, _, rfl, by decide +kernel⟩,
    ⟨0, 7, { dev := { mode := .inService }, now := 1000000000000 }, _, rfl, by decide +kernel⟩,
    ⟨0, { reason := 4, dump := true, at_ := 0, errorSeq := 0 }, { dev := { mode := .inService }, now := 1000000000000, aon := { ordered := some { reason := 4, dump := true, at_ := 0, errorSeq := 0 } } }, _, rfl, by decide +kernel⟩,
    ⟨0, 0, 0x90, { aon := { dumping := some 0 }, now := 100000 }, _, rfl, by decide +kernel⟩,
    ⟨0, 0, { reason := 4, dump := true, at_ := 0, errorSeq := 0 }, { aon := { dumping := some 0, ordered := some { reason := 4, dump := true, at_ := 0, errorSeq := 0 } } }, _, rfl, by decide +kernel⟩,
    ⟨0, 0, { reason := 4, dump := true, at_ := 0, errorSeq := 0 }, { aon := { dumping := some 0, ordered := some { reason := 4, dump := true, at_ := 0, errorSeq := 0 } }, now := 20000000 }, _, rfl, by decide +kernel⟩,
    ⟨0, { dev := { mode := .inService }, now := 1000000000000, aon := { dumpHeld := .held } }, _, rfl, by decide +kernel⟩,
    ⟨0, {}, {}, _, rfl, by decide +kernel⟩,
    ⟨0, { bootSrc := true }, { aon := { vddLost := false } }, _, rfl, by decide +kernel⟩,
    ⟨0, {}, { dev := { mode := .starting }, now := 392100000 }, _, rfl, by decide +kernel⟩,
    ⟨0, { rails := [(0, 0, 993), (0, 0, 1054)] }, (0, 0, 993), [], { dev := { mode := .starting, profile := { bytes := [(113, 4)], len := 96256 } }, now := 100000000 }, _, rfl, by decide +kernel⟩,
    ⟨0, 15, { lanes := [(15, 40, 1)] }, [], { dev := { mode := .starting }, now := 325000000 }, _, rfl, by decide +kernel⟩,
    ⟨0, { dev := { mode := .starting, stacksReady := true }, ports := [(63, { required := true, link := .up })] }, _, rfl, by decide +kernel⟩,
    ⟨0, { dev := { mode := .starting }, now := 4000000000 }, _, rfl, by decide +kernel⟩⟩

/-- What the hypotheses of `Obligations.DeviceEventsComplete` ask for is met. -/
theorem witness_DeviceEventsComplete :
    (∃ (t : Nat) (i : BitVec 32) (r : RoleSession) (s : State) (u : State), u = advance s t ∧ (u.clocked = true ∧ r ∈ u.auth.sessions ∧ r.id = i ∧ 600000000000 ≤ u.now - r.lastCommand)) ∧
    (∃ (t : Nat) (n : Nat) (r : Role) (s : State) (u : State), u = advance s t ∧ (u.clocked = true ∧ (u.auth.role r).lockUntil = some n ∧ n ≤ u.now)) ∧
    (∃ (t : Nat) (s : State) (u : State), u = advance s t ∧ (u.clocked = true ∧ u.dev.lastBoundary < boundaryNow u)) ∧
    (∃ (t : Nat) (s : State) (u : State), u = advance s t ∧ (u.clocked = true ∧ u.dev.lastBoundary < boundaryNow u ∧ u.staged = [])) ∧
    (∃ (t : Nat) (n : Fin 16) (s : State) (u : State), u = advance s t ∧ (u.clocked = true ∧ flushDue u (u.stream n) = true)) ∧
    (∃ (t : Nat) (ok : Bool) (g : Staging) (s : State) (u : State), u = advance s t ∧ (u.clocked = true ∧ u.staging = some g ∧ g.committing = true ∧ g.written = none)) ∧
    (∃ (t : Nat) (ok : Bool) (g : Staging) (s : State) (u : State), u = advance s t ∧ (u.clocked = true ∧ u.staging = some g ∧ g.committing = true ∧ g.written = none)) ∧
    (∃ (t : Nat) (ok : Bool) (g : Staging) (s : State) (u : State), u = advance s t ∧ (u.clocked = true ∧ u.staging = some g ∧ g.committing = true ∧ g.written = none ∧ pendingOf u (fun p => p.opcode == 0x0A03 && p.id == g.commitId) = none)) ∧
    (∃ (t : Nat) (ok : Bool) (g : Staging) (p : Pending) (s : State) (u : State), u = advance s t ∧ (u.clocked = true ∧ u.staging = some g ∧ g.committing = true ∧ g.written = none ∧ pendingOf u (fun p => p.opcode == 0x0A03 && p.id == g.commitId) = some p ∧ ((u.page p.mailbox).evqEnable = false ∨ ((u.page p.mailbox).flushOverflow u.ct).evqRoom = true))) ∧
    (∃ (t : Nat) (p : Fin 16) (r : EngineReset) (s : State) (u : State), u = advance s t ∧ (u.clocked = true ∧ (u.engine p).reset = some r ∧ (u.agent? (64 + p)).all (fun g => decide (g.dead = none)) = true)) ∧
    (∃ (t : Nat) (p : Fin 16) (s : State) (u : State), u = advance s t ∧ (u.clocked = true ∧ watchdogDue u p = true)) ∧
    (∃ (t : Nat) (p : Fin 16) (f : EngineFault) (s : State) (u : State), u = advance s t ∧ (u.clocked = true ∧ (u.engine p).fault = some f ∧ f.time + 5000000 ≤ u.now ∧ (u.engine p).idle = false ∧ (u.engine p).reset = none)) ∧
    (∃ (t : Nat) (p : Fin 16) (r : EngineReset) (s : State) (u : State), u = advance s t ∧ (firmwareRuns u = true ∧ (u.engine p).reset = some r ∧ r.since + 5000000 ≤ u.now)) ∧
    (∃ (t : Nat) (s : State) (u : State), u = advance s t ∧ (u.dev.mode ≠ .resetting ∧ escalates u = none)) ∧
    (∃ (t : Nat) (p : Nat) (r : EngineReset) (s : State) (u : State), u = advance s t ∧ (u.dev.mode ≠ .resetting ∧ escalates u = some (p, r))) ∧
    (∃ (t : Nat) (k : ArrayKind) (i : Nat) (n : Nat) (s : State) (u : State), u = advance s t ∧ (u.clocked = true)) ∧
    (∃ (t : Nat) (p : Fin 16) (n : Nat) (s : State) (u : State), u = advance s t ∧ (u.clocked = true ∧ (u.engine p).reset.isSome = true)) :=
  ⟨⟨0, 9, { id := 9, role := .maker, keyIndex := 0, key := [], binding := 5, counter := 0, lastCommand := 400000000000 }, { dev := { mode := .inService }, now := 1000000000000, auth := { sessions := [{ id := 9, role := .maker, keyIndex := 0, key := [], binding := 5, counter := 0, lastCommand := 400000000000 }] } }, _, rfl, by decide +kernel⟩,
    ⟨0, 1000000000000, .maker, { dev := { mode := .inService }, now := 1000000000000, auth := { maker := { lockUntil := some 1000000000000 } } }, _, rfl, by decide +kernel⟩,
    ⟨0, { dev := { mode := .inService }, now := 1000000000000, clock := { fold0 := 1000000 } }, _, rfl, by decide +kernel⟩,
    ⟨0, { dev := { mode := .inService }, now := 1000000000000, clock := { fold0 := 1000000 } }, _, rfl, by decide +kernel⟩,
    ⟨0, 15, { dev := { mode := .inService }, now := 1000000000000, streams := [(15, { st := .running, toSession := true, queue := [{ type := 0, source := 0, flags := 0, ctx := 0, seq := 0, time := 0, data := [] }], oldest := 999999990000 })] }, _, rfl, by decide +kernel⟩,
    ⟨0, false, { kind := 3, length := 17189, opener := 1, committing := true }, { dev := { mode := .inService }, now := 1000000000000, staging := some { kind := 3, length := 17189, opener := 1, committing := true } }, _, rfl, by decide +kernel⟩,
    ⟨0, true, { kind := 3, length := 17189, opener := 1, committing := true }, { dev := { mode := .inService }, now := 1000000000000, staging := some { kind := 3, length := 17189, opener := 1, committing := true } }, _, rfl, by decide +kernel⟩,
    ⟨0, true, { kind := 3, length := 17189, opener := 1, committing := true }, { dev := { mode := .inService }, now := 1000000000000, staging := some { kind := 3, length := 17189, opener := 1, committing := true } }, _, rfl, by decide +kernel⟩,
    ⟨0, true, { kind := 3, length := 17189, opener := 1, committing := true }, { objType := 0x0A, objId := 0, mailbox := 3, tag := 7, opcode := 0x0A03 }, { dev := { mode := .inService }, now := 1000000000000, staging := some { kind := 3, length := 17189, opener := 1, committing := true }, pendings := [{ objType := 0x0A, objId := 0, mailbox := 3, tag := 7, opcode := 0x0A03 }] }, _, rfl, by decide +kernel⟩,
    ⟨0, 15, { cause := 1, since := 0 }, { dev := { mode := .inService }, now := 1000000000000, engines := [(15, { reset := some { cause := 1, since := 0 } })] }, _, rfl, by decide +kernel⟩,
    ⟨0, 15, { dev := { mode := .inService }, now := 1000000000000, scheds := [(63, { ctx := 0, image := [], st := .running })], engines := [(15, { sched := some 63, issuing := true, lastIssue := 999998000000 })] }, _, rfl, by decide +kernel⟩,
    ⟨0, 15, { code := 1, bundle := 0, time := 999995000000 }, { dev := { mode := .inService }, now := 1000000000000, engines := [(15, { fault := some { code := 1, bundle := 0, time := 999995000000 }, prism := [.lens { addr := 0, bundle := 0, desc := [] }] })] }, _, rfl, by decide +kernel⟩,
    ⟨0, 15, { cause := 1, since := 999995000000 }, { dev := { mode := .inService }, now := 1000000000000, engines := [(15, { reset := some { cause := 1, since := 999995000000 } })] }, _, rfl, by decide +kernel⟩,
    ⟨0, { dev := { mode := .inService }, now := 1000000000000 }, _, rfl, by decide +kernel⟩,
    ⟨0, 15, { cause := 1, since := 999995000000 }, { dev := { mode := .inService }, now := 1000000000000, engines := [(15, { reset := some { cause := 1, since := 999995000000 } })] }, _, rfl, by decide +kernel⟩,
    ⟨0, .tallyEntry, 3, 0, { dev := { mode := .inService }, now := 1000000000000 }, _, rfl, by decide +kernel⟩,
    ⟨0, 15, 0, { dev := { mode := .inService }, now := 1000000000000, engines := [(15, { reset := some { cause := 1, since := 0 } })] }, _, rfl, by decide +kernel⟩⟩

/-- What the hypotheses of `Obligations.PoolRequestsComplete` ask for is met. -/
theorem witness_PoolRequestsComplete :
    (∃ (q : Fin 64) (s : State) (c : Nat) (r : InReq) (u : State), requested s q (fun e => e.op == 0x01) = some (r, u) ∧ (readBad r.e = false ∧ r.ctx = some c ∧ (match segCheck u c (r.e.arg 0 48) (r.e.arg 48 16) (needRead ||| needFabric) with | .ok ps _ g => !g.coherent && !accessHeld u false ps && (readPieces u demand ps).1.isSome | .no _ => false) = true ∧ r.e.noResponse = false)) ∧
    (∃ (q : Fin 64) (s : State) (c : Nat) (r : InReq) (u : State), requested s q (fun e => e.op == 0x02) = some (r, u) ∧ (writeBad r.e false = false ∧ r.ctx = some c ∧ (match segCheck u c (r.e.arg 0 48) (r.e.arg 48 16) (needWrite ||| needFabric) with | .ok ps _ g => !g.coherent && !accessHeld u true ps && (writePieces u demand ps r.e.payload).1 | .no _ => false) = true)) ∧
    (∃ (q : Fin 64) (s : State) (c : Nat) (r : InReq) (u : State), requested s q (fun e => e.op == 0x03) = some (r, u) ∧ (writeBad r.e true = false ∧ r.ctx = some c ∧ (match segCheck u c (r.e.arg 0 48) (r.e.arg 48 16) (needWrite ||| needFabric) with | .ok ps _ g => !g.coherent && !accessHeld u true ps && (writePieces u demand ps r.e.payload).1 | .no _ => false) = true ∧ r.e.noResponse = false)) ∧
    (∀ k ∈ [(0, 8), (1, 16), (2, 8), (3, 8), (4, 8), (5, 8)], (requested (atomicAsked k.1 k.2) 63 (fun e => e.op == 0x04 && e.subop.toNat == k.1)).any (fun x =>
      !atomicBad x.1.e && !x.1.e.noResponse && x.1.ctx == some 0 && (match segCheck x.2 0 (x.1.e.arg 0 48) 8 (needAtomic ||| needFabric) with
        | .ok ps _ g => !g.coherent && !accessHeld x.2 true ps && (match readPieces x.2 demand ps with
          | (some old, v) => (writePieces v demand ps (atomicBytes x.1.e.subop.toNat x.1.e.payload old)).1
          | (none, _) => false)
        | .no _ => false)) = true) ∧
    (∃ (q : Fin 64) (s : State) (c : Nat) (r : InReq) (u : State), requested s q (fun e => e.op == 0x01) = some (r, u) ∧ (readBad r.e = false ∧ r.ctx = some c ∧ (match segCheck u c (r.e.arg 0 48) (r.e.arg 48 16) (needRead ||| needFabric) with | .ok ps _ g => g.coherent | .no _ => false) = true)) :=
  ⟨⟨63, { dev := { mode := .inService }, now := 1000000000000, stks := (List.range 16).map (fun t => (t, { inService := true })), locals := [{ id := 1, ipv6 := false, ip := 0 }], sessions := [(64, { st := .opened, ctx := some 0, peer := 2, window := 16, w := 16 })], ctxs := [(0, { st := .active, segs := [(7, { flags := 0x17, base := 0, list := [{ extent := 1775, gen := 0 }] })] })], extents := [(1775, { st := .granted, owner := 0 })], ports := [(63, { link := .up, rx := [{ frame := { len := 200, body := .eruno { opcode := 0x01, flags := 0, dst := 1, src := 2, session := 64, tag := 0, subop := 0, status := 0, operand := 1073733632 + 8192 * 2 ^ 48 } }, stamp := 0, opened := true }] })] }, 0, some2 (by decide +kernel)⟩,
    ⟨63, { dev := { mode := .inService }, now := 1000000000000, stks := (List.range 16).map (fun t => (t, { inService := true })), locals := [{ id := 1, ipv6 := false, ip := 0 }], sessions := [(64, { st := .opened, ctx := some 0, peer := 2, window := 16, w := 16 })], ctxs := [(0, { st := .active, segs := [(7, { flags := 0x17, base := 0, list := [{ extent := 1775, gen := 0 }] })] })], extents := [(1775, { st := .granted, owner := 0 })], ports := [(63, { link := .up, rx := [{ frame := { len := 200, body := .eruno { opcode := 0x02, flags := 0, dst := 1, src := 2, session := 64, tag := 0, subop := 0, status := 0, operand := 1073733632 + 8192 * 2 ^ 48, payload := List.replicate 8192 1 } }, stamp := 0, opened := true }] })] }, 0, some2 (by decide +kernel)⟩,
    ⟨63, { dev := { mode := .inService }, now := 1000000000000, stks := (List.range 16).map (fun t => (t, { inService := true })), locals := [{ id := 1, ipv6 := false, ip := 0 }], sessions := [(64, { st := .opened, ctx := some 0, peer := 2, window := 16, w := 16 })], ctxs := [(0, { st := .active, segs := [(7, { flags := 0x17, base := 0, list := [{ extent := 1775, gen := 0 }] })] })], extents := [(1775, { st := .granted, owner := 0 })], ports := [(63, { link := .up, rx := [{ frame := { len := 200, body := .eruno { opcode := 0x03, flags := 0, dst := 1, src := 2, session := 64, tag := 0, subop := 0, status := 0, operand := 1073733632 + 8192 * 2 ^ 48, payload := List.replicate 8192 1 } }, stamp := 0, opened := true }] })] }, 0, some2 (by decide +kernel)⟩,
    by decide +kernel,
    ⟨63, { dev := { mode := .inService }, now := 1000000000000, stks := (List.range 16).map (fun t => (t, { inService := true })), locals := [{ id := 1, ipv6 := false, ip := 0 }], sessions := [(64, { st := .opened, ctx := some 0, peer := 2, window := 16, w := 16 })], ctxs := [(0, { st := .active, segs := [(7, { flags := 0x1F, base := 0, list := [{ extent := 1775, gen := 0 }] })] })], extents := [(1775, { st := .granted, owner := 0 })], ports := [(63, { link := .up, rx := [{ frame := { len := 200, body := .eruno { opcode := 0x01, flags := 0, dst := 1, src := 2, session := 64, tag := 0, subop := 0, status := 0, operand := 1073733632 + 8192 * 2 ^ 48 } }, stamp := 0, opened := true }] })] }, 0, some2 (by decide +kernel)⟩⟩

/-- What the hypotheses of `Obligations.OtherRequestsComplete` ask for is met. -/
theorem witness_OtherRequestsComplete :
    (∃ (q : Fin 64) (s : State) (c : Nat) (r : InReq) (u : State), requested s q (fun e => e.op == 0x30) = some (r, u) ∧ (flagsBad r.e true = false ∧ r.e.subop = 0 ∧ r.e.operand = 0 ∧ r.e.payload.length = 8 ∧ field r.e.payload 2 2 = 0 ∧ r.ctx = some c ∧ ownsSync u c (field r.e.payload 0 2) = true)) ∧
    (∃ (q : Fin 64) (s : State) (c : Nat) (k : Nat) (r : InReq) (u : State), requested s q (fun e => e.op == 0x31 && !e.flag 9) = some (r, u) ∧ (schedFrameBad r.e = false ∧ 1 ≤ r.e.payload.length ∧ r.e.payload.length ≤ 8192 ∧ r.ctx = some c ∧ frameTaker u c (r.e.arg 24 4) (r.e.arg 0 24) r.e.payload.length = some k ∧ r.e.arg 48 16 = 0)) ∧
    (∃ (q : Fin 64) (s : State) (r : InReq) (u : State), requested s q (fun e => e.op == 0x31 && !e.flag 9) = some (r, u) ∧ (schedFrameBad r.e = true)) ∧
    (∃ (q : Fin 65) (s : State) (r : InReq) (u : State), requested s q (fun e => e.op == 0x32) = some (r, u) ∧ (flagsBad r.e false = false ∧ r.e.subop = 0 ∧ r.e.arg 48 16 = 0 ∧ csrRangeOk (r.e.arg 0 32) (r.e.arg 32 16) = true ∧ r.e.payload = [] ∧ (csrRead u r.path (r.e.arg 0 32) (r.e.arg 32 16)).1.isSome = true)) ∧
    (∃ (q : Fin 65) (s : State) (r : InReq) (u : State), requested s q (fun e => e.op == 0x33) = some (r, u) ∧ (flagsBad r.e false = false ∧ r.e.subop = 0 ∧ r.e.arg 48 16 = 0 ∧ csrRangeOk (r.e.arg 0 32) (r.e.arg 32 16) = true ∧ r.e.payload.length = r.e.arg 32 16 ∧ (csrWrite u r.path (r.e.arg 0 32) r.e.payload).1 = true)) ∧
    (∃ (q : Fin 65) (s : State) (m : Nat) (r : InReq) (u : State), requested s q (fun e => e.op == 0x34) = some (r, u) ∧ (flagsBad r.e false = false ∧ r.e.subop = 0 ∧ r.e.operand = 0 ∧ mailLenOk r.e.payload = true ∧ mailTarget u r = some m ∧ (enqueueMail u m (pathBinding r.path) none r.e.payload).isSome = true)) ∧
    (∃ (q : Fin 64) (s : State) (r : InReq) (u : State), requested s q (fun e => e.op == 0x36) = some (r, u) ∧ (flagsBad r.e false = false ∧ 12 ≤ r.e.subop.toNat ∧ r.e.subop.toNat ≤ 47 ∧ r.e.payload = [] ∧ r.e.operand.toNat % 2 ^ r.e.subop.toNat = 0)) ∧
    (∃ (q : Fin 64) (s : State) (r : InReq) (u : State), requested s q (fun e => !opcodeDefined e.op) = some (r, u) ∧ (True)) ∧
    (∃ (q : Fin 64) (s : State) (r : InReq) (u : State), numbered s q (fun e => onlyPartSends e.op && e.op != 0x38) = some (r, u) ∧ (True)) ∧
    (∃ (q : Fin 64) (s : State) (r : InReq) (u : State), numbered s q (fun e => e.op == 0x38) = some (r, u) ∧ (True)) :=
  ⟨⟨63, { dev := { mode := .inService }, now := 1000000000000, locals := [{ id := 1, ipv6 := false, ip := 0 }], sessions := [(64, { st := .opened, ctx := some 0, peer := 2, window := 16, w := 16 })], ctxs := [(0, { st := .active })], ports := [(63, { link := .up, rx := [{ frame := { len := 200, body := .eruno { opcode := 0x30, flags := 0, dst := 1, src := 2, session := 64, tag := 0, subop := 0, status := 0, payload := natLe 65535 2 ++ [0, 0, 255, 255, 255, 255] } }, stamp := 0, opened := true }] })], sync := [(65535, { owner := some 0, value := 5 })] }, 0, some2 (by decide +kernel)⟩,
    ⟨63, { dev := { mode := .inService }, now := 1000000000000, locals := [{ id := 1, ipv6 := false, ip := 0 }], sessions := [(64, { st := .opened, ctx := some 0, peer := 2, window := 16, w := 16 })], ctxs := [(0, { st := .active })], ports := [(63, { link := .up, rx := [{ frame := { len := 200, body := .eruno { opcode := 0x31, flags := 0x40, dst := 1, src := 2, session := 64, tag := 0, subop := 0, status := 0, operand := 100 + 15 * 2 ^ 24, payload := [1, 2, 3] } }, stamp := 0, opened := true }] })], scheds := [(63, { ctx := 0, image := receiveImage, st := .running, t0 := some 0 })], engines := [(15, { sched := some 63, partition := 524288 })] }, 0, 63, some2 (by decide +kernel)⟩,
    ⟨63, { dev := { mode := .inService }, now := 1000000000000, locals := [{ id := 1, ipv6 := false, ip := 0 }], sessions := [(64, { st := .opened, ctx := some 0, peer := 2, window := 16, w := 16 })], ctxs := [(0, { st := .active })], ports := [(63, { link := .up, rx := [{ frame := { len := 200, body := .eruno { opcode := 0x31, flags := 0x40, dst := 1, src := 2, session := 64, tag := 0, subop := 1, status := 0, operand := 100, payload := [1, 2, 3] } }, stamp := 0, opened := true }] })] }, some2 (by decide +kernel)⟩,
    ⟨63, { dev := { mode := .inService }, now := 1000000000000, locals := [{ id := 1, ipv6 := false, ip := 0 }], sessions := [(64, { st := .opened, ctx := some 0, peer := 2, window := 16, w := 16 })], ctxs := [(0, { st := .active })], ports := [(63, { link := .up, rx := [{ frame := { len := 200, body := .eruno { opcode := 0x32, flags := 0, dst := 1, src := 2, session := 64, tag := 0, subop := 0, status := 0, operand := 0x30000 + 8192 * 2 ^ 32 } }, stamp := 0, opened := true }] })] }, some2 (by decide +kernel)⟩,
    ⟨63, { dev := { mode := .inService }, now := 1000000000000, locals := [{ id := 1, ipv6 := false, ip := 0 }], sessions := [(64, { st := .opened, ctx := some 0, peer := 2, window := 16, w := 16 })], ctxs := [(0, { st := .active })], ports := [(63, { link := .up, rx := [{ frame := { len := 200, body := .eruno { opcode := 0x33, flags := 0, dst := 1, src := 2, session := 64, tag := 0, subop := 0, status := 0, operand := 0x1001000 + 4 * 2 ^ 32, payload := [1, 0, 0, 0] } }, stamp := 0, opened := true }] })] }, some2 (by decide +kernel)⟩,
    ⟨63, { dev := { mode := .inService }, now := 1000000000000, locals := [{ id := 1, ipv6 := false, ip := 0 }], sessions := [(64, { st := .opened, ctx := some 0, peer := 2, window := 16, w := 16 })], ctxs := [(0, { st := .active })], ports := [(63, { link := .up, rx := [{ frame := { len := 200, body := .eruno { opcode := 0x34, flags := 0, dst := 1, src := 2, session := 64, tag := 0, subop := 0, status := 0, payload := List.replicate 64 0 } }, stamp := 0, opened := true }] })] }, 5, some2 (by decide +kernel)⟩,
    ⟨63, { dev := { mode := .inService }, now := 1000000000000, locals := [{ id := 1, ipv6 := false, ip := 0 }], sessions := [(64, { st := .opened, ctx := some 0, peer := 2, window := 16, w := 16 })], ctxs := [(0, { st := .active })], ports := [(63, { link := .up, rx := [{ frame := { len := 200, body := .eruno { opcode := 0x36, flags := 0, dst := 1, src := 2, session := 64, tag := 0, subop := 47, status := 0, operand := 0x800000000000 } }, stamp := 0, opened := true }] })] }, some2 (by decide +kernel)⟩,
    ⟨63, { dev := { mode := .inService }, now := 1000000000000, locals := [{ id := 1, ipv6 := false, ip := 0 }], sessions := [(64, { st := .opened, ctx := some 0, peer := 2, window := 16, w := 16 })], ctxs := [(0, { st := .active })], ports := [(63, { link := .up, rx := [{ frame := { len := 200, body := .eruno { opcode := 0xFF, flags := 0, dst := 1, src := 2, session := 64, tag := 0, subop := 0, status := 0 } }, stamp := 0, opened := true }] })] }, some2 (by decide +kernel)⟩,
    ⟨63, { dev := { mode := .inService }, now := 1000000000000, locals := [{ id := 1, ipv6 := false, ip := 0 }], sessions := [(64, { st := .opened, ctx := some 0, peer := 2, window := 16, w := 16 })], ctxs := [(0, { st := .active })], ports := [(63, { link := .up, rx := [{ frame := { len := 200, body := .eruno { opcode := 0x35, flags := 0, dst := 1, src := 2, session := 64, tag := 0, subop := 0, status := 0 } }, stamp := 0 }] })] }, some2 (by decide +kernel)⟩,
    ⟨63, { dev := { mode := .inService }, now := 1000000000000, locals := [{ id := 1, ipv6 := false, ip := 0 }], sessions := [(64, { st := .opened, ctx := some 0, peer := 2, window := 16, w := 16 })], ctxs := [(0, { st := .active })], ports := [(63, { link := .up, rx := [{ frame := { len := 200, body := .eruno { opcode := 0x38, flags := 0, dst := 1, src := 2, session := 64, tag := 0, subop := 0, status := 0 } }, stamp := 0 }] })] }, some2 (by decide +kernel)⟩⟩

/-- What the hypotheses of `Obligations.ResponsesAndKeysComplete` ask for is met. -/
theorem witness_ResponsesAndKeysComplete :
    (∃ (q : Fin 64) (s : State) (r : InReq) (u : State), requested s q (fun e => e.op == 0x39 && e.subop.toNat != 3) = some (r, u) ∧ (r.e.subop.toNat = 1 ∧ r.e.payload.length = 4529 ∧ r.e.operand = 0 ∧ r.e.noResponse = false ∧ (u.session r.i).initiate = false ∧ initiatorProven u r = true)) ∧
    (∃ (q : Fin 64) (s : State) (o : Outstanding) (e : Eruno) (w : State), answered s q (fun e => localEndpoint s e.dst && e.isResponse && !e.segmented && e.op == 0x39 && e.subop != 3) = some (o, e, w) ∧ (o.kind = .keyExchange)) ∧
    (∃ (q : Fin 64) (s w : State) (o : Outstanding) (e : Eruno), phase3Response s q = true ∧ answered s q (fun e => localEndpoint s e.dst && e.isResponse && !e.segmented && e.op == 0x39 && e.subop == 3) = some (o, e, w) ∧ (o.kind = .keyExchange ∧ e.status = 0)) ∧
    (∃ (q : Fin 64) (s u : State) (r : InReq), phase3Response s q = false ∧ requested s q (fun e => e.op == 0x39 && decide (e.subop.toNat = 3)) = some (r, u) ∧ (r.e.payload = [] ∧ r.e.operand = 0 ∧ r.e.noResponse = false ∧ (u.session r.i).keys.isSome = true ∧ (u.session r.i).initiate = false)) ∧
    (∃ (t : Nat) (i : BitVec 16) (s : State) (u : State), u = advance s t ∧ (u.clocked = true ∧ (u.session i.toNat).st = .keying ∧ 64 ≤ i.toNat ∧ (u.session i.toNat).keyDeadline ≤ u.now)) ∧
    (∃ (q : Fin 64) (s : State) (p : Nat) (mv : Nat) (page : Nat) (b : Bool) (o : Outstanding) (e : Eruno) (w : State), answered s q (fun e => localEndpoint s e.dst && e.isResponse && !e.segmented && e.op == 0x35) = some (o, e, w) ∧ (o.kind = .translate p mv page b)) ∧
    (∃ (q : Fin 64) (s : State) (p : Nat) (mv : Nat) (page : Nat) (o : Outstanding) (e : Eruno) (w : State), answered s q (fun e => localEndpoint s e.dst && e.isResponse && !e.segmented && e.op == 0x37) = some (o, e, w) ∧ (o.kind = .pageRequest p mv page)) ∧
    (∀ y ∈ [(OutKind.hostRead 15 3 0 64 0 12, 0x01), (.hostWrite 15 3 64 0 12, 0x02)], (answered (hostAnswered y.1 y.2) 63
      (fun e => localEndpoint (hostAnswered y.1 y.2) e.dst && e.isResponse && !e.segmented && e.op != 0x39 && e.op != 0x35 && e.op != 0x37 && !answerFormed e)).any
      (fun x => decide (x.1.kind = y.1 ∧ x.2.1.op = y.2)) = true) ∧
    (∃ (t : Nat) (i : BitVec 16) (g : BitVec 16) (o : Outstanding) (s : State) (u : State), u = advance s t ∧ (u.clocked = true ∧ u.outstanding.find? (fun o => o.session == i.toNat && o.tag == g && o.issuedAt + (u.session i.toNat).timeoutNs ≤ u.now) = some o)) :=
  ⟨⟨63, { dev := { mode := .inService }, now := 1000000000000, locals := [{ id := 1, ipv6 := false, ip := 0 }], sessions := [(3, { st := .keying, peer := 2 })], ports := [(63, { link := .up, rx := [{ frame := { len := 200, body := .eruno { opcode := 0x39, flags := 0, dst := 1, src := 2, session := 3, tag := 0, subop := 1, status := 0, payload := List.replicate 4529 0 } }, stamp := 0, opened := true }] })] }, some2 (by decide +kernel)⟩,
    ⟨63, { dev := { mode := .inService }, now := 1000000000000, locals := [{ id := 1, ipv6 := false, ip := 0 }], sessions := [(65535, { st := .keying, peer := 2, initiate := true })], outstanding := [{ session := 65535, tag := 9, seq := 0, kind := .keyExchange, issuedAt := 0 }], ports := [(63, { link := .up, rx := [{ frame := { len := 200, body := .eruno { opcode := 0x39, flags := 1, dst := 1, src := 2, session := 65535, tag := 9, subop := 1, status := 0 } }, stamp := 0, opened := true }] })] }, some3 (by decide +kernel)⟩,
    (some3 (by decide +kernel)).elim (fun o h => h.elim (fun e h => h.elim (fun w h => ⟨63, { dev := { mode := .inService }, now := 1000000000000, locals := [{ id := 1, ipv6 := false, ip := 0 }], sessions := [(65535, { st := .keying, peer := 2, initiate := true })], outstanding := [{ session := 65535, tag := 9, seq := 0, kind := .keyExchange, issuedAt := 0 }], ports := [(63, { link := .up, rx := [{ frame := { len := 200, body := .eruno { opcode := 0x39, flags := 1, dst := 1, src := 2, session := 65535, tag := 9, subop := 3, status := 0 } }, stamp := 0, opened := true }] })] }, w, o, e, by decide +kernel, h⟩))),
    (some2 (by decide +kernel)).elim (fun r h => h.elim (fun u h => ⟨63, { dev := { mode := .inService }, now := 1000000000000, locals := [{ id := 1, ipv6 := false, ip := 0 }], sessions := [(65535, { st := .keying, peer := 2, keys := some {} })], ports := [(63, { link := .up, rx := [{ frame := { len := 200, body := .eruno { opcode := 0x39, flags := 0, dst := 1, src := 2, session := 65535, tag := 0, subop := 3, status := 0 } }, stamp := 0, opened := true }] })] }, u, r, by decide +kernel, h⟩)),
    ⟨0, 65535, { dev := { mode := .inService }, now := 1000000000000, sessions := [(65535, { st := .keying, keyDeadline := 1000000000000 })] }, _, rfl, by decide +kernel⟩,
    ⟨63, { dev := { mode := .inService }, now := 1000000000000, locals := [{ id := 1, ipv6 := false, ip := 0 }], sessions := [(65535, { st := .opened, ctx := some 0, peer := 2 })], outstanding := [{ session := 65535, tag := 9, seq := 0, kind := .translate 15 3 0 true, issuedAt := 0 }], ports := [(63, { link := .up, rx := [{ frame := { len := 200, body := .eruno { opcode := 0x35, flags := 1, dst := 1, src := 2, session := 65535, tag := 9, subop := 0, status := 0 } }, stamp := 0, opened := true }] })] }, 15, 3, 0, true, some3 (by decide +kernel)⟩,
    ⟨63, { dev := { mode := .inService }, now := 1000000000000, locals := [{ id := 1, ipv6 := false, ip := 0 }], sessions := [(65535, { st := .opened, ctx := some 0, peer := 2 })], outstanding := [{ session := 65535, tag := 9, seq := 0, kind := .pageRequest 15 3 0, issuedAt := 0 }], ports := [(63, { link := .up, rx := [{ frame := { len := 200, body := .eruno { opcode := 0x37, flags := 1, dst := 1, src := 2, session := 65535, tag := 9, subop := 0, status := 0 } }, stamp := 0, opened := true }] })] }, 15, 3, 0, some3 (by decide +kernel)⟩,
    by decide +kernel,
    ⟨0, 65535, 9, { session := 65535, tag := 9, seq := 0, kind := .hostRead 15 3 0 64 0 12, issuedAt := 999999950000 }, { dev := { mode := .inService }, now := 1000000000000, locals := [{ id := 1, ipv6 := false, ip := 0 }], sessions := [(65535, { st := .opened, ctx := some 0, peer := 2 })], outstanding := [{ session := 65535, tag := 9, seq := 0, kind := .hostRead 15 3 0 64 0 12, issuedAt := 999999950000 }] }, _, rfl, by decide +kernel⟩⟩

/-- What the hypotheses of `Obligations.SegmentsAndForwardingComplete` ask for is met. -/
theorem witness_SegmentsAndForwardingComplete :
    ((arrival (sent { flags := 0x100, dst := 1, src := 2, session := 65535 }) 63 (fun f => (erunoOf f).any (fun e => localEndpoint (sent { flags := 0x100, dst := 1, src := 2, session := 65535 }) e.dst && e.segmented))).any
      (fun x => (erunoOf x.1.frame).isSome) = true) ∧
    (∃ (t : Nat) (i : BitVec 16) (n : BitVec 32) (r : Reasm) (s : State) (u : State), u = advance s t ∧ (u.clocked = true ∧ r ∈ u.reasms ∧ r.session % mgmtSession = i.toNat ∧ r.seq = n ∧ r.since + 1000000 ≤ u.now)) ∧
    ((sent { dst := 9 }).clocked = true ∧ (takeFrame (sent { dst := 9 }) 63 (fun f => (erunoOf f).any (fun e => !localEndpoint (sent { dst := 9 }) e.dst))).any
      (fun x => (erunoOf x.1.frame).isSome) = true) :=
  ⟨by decide +kernel,
    ⟨0, 65535, 7, { session := 65535, seq := 7, first := {}, total := 0, data := [], have_ := [], since := 999999000000 }, { dev := { mode := .inService }, now := 1000000000000, reasms := [{ session := 65535, seq := 7, first := {}, total := 0, data := [], have_ := [], since := 999999000000 }] }, _, rfl, by decide +kernel⟩,
    by decide +kernel⟩

/-- What the hypotheses of `Obligations.RoceRequestsComplete` ask for is met. -/
theorem witness_RoceRequestsComplete :
    (∀ y ∈ [RoceOp.writeFirst, .writeMiddle, .writeLast, .writeOnly, .readRequest, .compareSwap, .fetchAdd, .sendFirst, .sendMiddle, .sendLast, .sendOnly], (arrival (packet { op := y, destQp := 16383 } {}) 63 (fun f => (roceOf f).any (fun r => r.op == y && !qpWaits (packet { op := y, destQp := 16383 } {}) r.destQp.toNat))).any
      (fun x => (roceOf x.1.frame).any (fun r => decide (r.destQp.toNat < qpMax ∧ (x.2.qp r.destQp.toNat).st = .ready ∧
        r.psn = ((sendCnp x.2 r.destQp.toNat x.1.frame.ce).qp r.destQp.toNat).expectedPsn))) = true) ∧
    (∃ (s : State) (i : RoceIn), (s.qp i.n).mailbox = true) ∧
    (∃ (s : State) (i : RoceIn), (s.qp i.n).mailbox = false) ∧
    ((arrival (packet { op := .unsupported, destQp := 16383 } {}) 63 (fun f => (roceOf f).any (fun r =>
        (r.op == .unsupported || r.op == .otherService || r.op == .readResponse || r.op == .atomicAck) && !qpWaits (packet { op := .unsupported, destQp := 16383 } {}) r.destQp.toNat))).any
      (fun x => (roceOf x.1.frame).any (fun r => decide (r.op = .unsupported ∧ r.destQp.toNat < qpMax ∧ (x.2.qp r.destQp.toNat).st = .ready ∧
        r.psn = ((sendCnp x.2 r.destQp.toNat x.1.frame.ce).qp r.destQp.toNat).expectedPsn))) = true) ∧
    (∀ y ∈ [RoceOp.otherService, .readResponse, .atomicAck], (arrival (packet { op := y, destQp := 16383 } {}) 63 (fun f => (roceOf f).any (fun r =>
        (r.op == .unsupported || r.op == .otherService || r.op == .readResponse || r.op == .atomicAck) && !qpWaits (packet { op := y, destQp := 16383 } {}) r.destQp.toNat))).any
      (fun x => (roceOf x.1.frame).any (fun r => decide (r.op ≠ .unsupported ∧ r.destQp.toNat < qpMax ∧ (x.2.qp r.destQp.toNat).st = .ready))) = true) :=
  ⟨by decide +kernel,
    ⟨packet {} { mailbox := true }, { q := 63, n := 16383, r := {}, dscp := 0 }, by decide +kernel⟩,
    ⟨packet {} {}, { q := 63, n := 16383, r := {}, dscp := 0 }, by decide +kernel⟩,
    by decide +kernel,
    by decide +kernel⟩

/-- What the hypotheses of `Obligations.RoceEventsComplete` ask for is met. -/
theorem witness_RoceEventsComplete :
    (∃ (q : Fin 64) (s : State) (r : Roce) (x : RxItem) (w : State), arrival s q (fun f => (roceOf f).any (fun r => r.op == .ack && r.syndrome == .ack)) = some (x, w) ∧ (roceOf x.frame = some r ∧ r.destQp.toNat < qpMax ∧ (w.qp r.destQp.toNat).st = .ready ∧ (w.qp r.destQp.toNat).mailbox = true ∧ x.frame.ce = false)) ∧
    (∃ (q : Fin 64) (s : State) (r : Roce) (x : RxItem) (w : State), arrival s q (fun f => (roceOf f).any (fun r => r.op == .ack && r.syndrome != .ack)) = some (x, w) ∧ (roceOf x.frame = some r ∧ r.destQp.toNat < qpMax ∧ (w.qp r.destQp.toNat).st = .ready ∧ (w.qp r.destQp.toNat).mailbox = true ∧ x.frame.ce = false ∧ r.syndrome = .nakInvalidRequest)) ∧
    (∃ (t : Nat) (n : Fin 16384) (k : QpSend) (a : Nat) (s : State) (u : State), u = advance s t ∧ (u.clocked = true ∧ (u.qp n).st = .ready ∧ (u.qp n).rnrUntil = none ∧ k ∈ (u.qp n).sends ∧ k.sentAt = some a ∧ a + 4190000 ≤ u.now)) ∧
    (∃ (t : Nat) (a : Nat) (n : Fin 16384) (s : State) (u : State), u = advance s t ∧ (u.clocked = true ∧ (u.qp n).rnrUntil = some a ∧ a ≤ u.now ∧ (u.qp n).rnrRetries < 7)) ∧
    (∃ (q : Fin 64) (s : State) (r : Roce) (x : RxItem) (w : State), arrival s q (fun f => (roceOf f).any (fun r => r.op == .cnp)) = some (x, w) ∧ (roceOf x.frame = some r ∧ r.destQp.toNat < qpMax ∧ (w.qp r.destQp.toNat).st = .ready)) ∧
    (∃ (t : Nat) (n : Fin 16384) (s : State) (u : State), u = advance s t ∧ (u.clocked = true ∧ (u.qp n).st = .ready ∧ (u.qp n).rate < portRate u (u.qp n).port * 1000 ∧ (u.qp n).lastCnp + 55000 ≤ u.now)) :=
  ⟨⟨63, packet { op := .ack, destQp := 16383 } { mailbox := true }, { op := .ack, destQp := 16383 }, some2 (by decide +kernel)⟩,
    ⟨63, packet { op := .ack, destQp := 16383, syndrome := .nakInvalidRequest } { mailbox := true }, { op := .ack, destQp := 16383, syndrome := .nakInvalidRequest }, some2 (by decide +kernel)⟩,
    ⟨0, 16383, { psn := 0, op := .sendOnly, bytes := [], sentAt := some 999995810000 }, 999995810000, { dev := { mode := .inService }, now := 1000000000000, qps := [(16383, { st := .ready, sends := [{ psn := 0, op := .sendOnly, bytes := [], sentAt := some 999995810000 }] })] }, _, rfl, by decide +kernel⟩,
    ⟨0, 1000000000000, 16383, { dev := { mode := .inService }, now := 1000000000000, qps := [(16383, { st := .ready, rnrUntil := some 1000000000000, rnrRetries := 6 })] }, _, rfl, by decide +kernel⟩,
    ⟨63, packet { op := .cnp, destQp := 16383 } {}, { op := .cnp, destQp := 16383 }, some2 (by decide +kernel)⟩,
    ⟨0, 16383, { dev := { mode := .inService }, now := 1000000000000, quads := [(15, { st := .active, mode := 3 })], qps := [(16383, { st := .ready, port := 63, rate := 1000, lastCnp := 999999945000 })] }, _, rfl, by decide +kernel⟩⟩

/-- What the hypotheses of `Obligations.LinkProtocolComplete` ask for is met. -/
theorem witness_LinkProtocolComplete :
    (∃ (t : Nat) (q : Fin 65) (f : RxFrame) (s : State) (u : State), u = advance s t ∧ (u.clocked = true)) ∧
    (∃ (t : Nat) (q : Fin 65) (f : RxFrame) (s : State) (u : State), u = advance s t ∧ (u.clocked = true ∧ ((u.port q).link = .down ∨ (u.port q).link = .training))) ∧
    (∃ (t : Nat) (q : Fin 64) (s : State) (u : State), u = advance s t ∧ (u.clocked = true ∧ (u.port q).initOn = true ∧ ((u.port q).lastInit).all (fun a => decide (a + 1000 ≤ u.now)) = true)) ∧
    (∃ (t : Nat) (a : Nat) (q : Fin 64) (s : State) (u : State), u = advance s t ∧ (u.clocked = true ∧ (u.port q).link = .reliable ∧ (u.port q).oweAck = some a ∧ a ≤ u.now)) ∧
    (∃ (t : Nat) (a : Nat) (q : Fin 64) (s : State) (u : State), u = advance s t ∧ (u.clocked = true ∧ (u.port q).link = .reliable ∧ (u.port q).oldest ≠ (u.port q).next ∧ (u.port q).timer = some a ∧ a ≤ u.now)) ∧
    (∃ (q : Fin 65) (s : State) (l : Option Bytes) (x : RxItem) (w : State), arrival s q isLldp = some (x, w) ∧ (x.frame.body = .lldp l)) ∧
    (∃ (t : Nat) (q : Fin 65) (s : State) (u : State), u = advance s t ∧ (u.clocked = true ∧ (u.port q).carries = true)) ∧
    (∃ (t : Nat) (q : Fin 64) (s : State) (u : State), u = advance s t ∧ (u.clocked = true ∧ (u.port q).link = .negotiating ∧ (u.port q).agrees = false ∧ (u.port q).refusalReported = false ∧ (u.port q).since + 500000000 ≤ u.now ∧ ((u.port q).relMode = 2 → (u.port q).required = false))) ∧
    (∃ (t : Nat) (k : Fin 16) (s : State) (u : State), u = advance s t ∧ (u.clocked = true ∧ (u.quad k).st = .training ∧ (u.quad k).configured + 2000000000 ≤ u.now ∧ lateRequired u k = [])) ∧
    (∃ (t : Nat) (q : Nat) (k : Fin 16) (l : List Nat) (s : State) (u : State), u = advance s t ∧ (u.clocked = true ∧ trainLimitPassed u k = true ∧ lateRequired u k = q :: l)) :=
  ⟨⟨0, 63, { preamble := [], frame := { len := 64, body := .other } }, { dev := { mode := .inService }, now := 1000000000000 }, _, rfl, by decide +kernel⟩,
    ⟨0, 63, { preamble := [], frame := { len := 64, body := .other } }, { dev := { mode := .inService }, now := 1000000000000, ports := [(63, { link := .training })] }, _, rfl, by decide +kernel⟩,
    ⟨0, 63, { dev := { mode := .inService }, now := 1000000000000, ports := [(63, { initOn := true, lastInit := some 999999999000 })] }, _, rfl, by decide +kernel⟩,
    ⟨0, 1000000000000, 63, { dev := { mode := .inService }, now := 1000000000000, ports := [(63, { link := .reliable, oweAck := some 1000000000000 })] }, _, rfl, by decide +kernel⟩,
    ⟨0, 1000000000000, 63, { dev := { mode := .inService }, now := 1000000000000, ports := [(63, { link := .reliable, next := 1, timer := some 1000000000000 })] }, _, rfl, by decide +kernel⟩,
    ⟨63, { dev := { mode := .inService }, now := 1000000000000, ports := [(63, { rx := [{ frame := { len := 64, body := .lldp none }, stamp := 0 }] })] }, none, some2 (by decide +kernel)⟩,
    ⟨0, 63, { dev := { mode := .inService }, now := 1000000000000, ports := [(63, { link := .up })] }, _, rfl, by decide +kernel⟩,
    ⟨0, 63, { dev := { mode := .inService }, now := 1000000000000, ports := [(63, { link := .negotiating, relMode := 2, since := 999500000000 })] }, _, rfl, by decide +kernel⟩,
    ⟨0, 15, { dev := { mode := .inService }, now := 1000000000000, quads := [(15, { st := .training, mode := 3, configured := 998000000000 })], ports := [(63, { required := true, link := .up })] }, _, rfl, by decide +kernel⟩,
    ⟨0, 60, 15, [63], { dev := { mode := .starting }, now := 2100000000, ports := [(60, { required := true, link := .training }), (63, { required := true })] }, _, rfl, by decide +kernel⟩⟩

/-- What the hypotheses of `Obligations.PtpComplete` ask for is met. -/
theorem witness_PtpComplete :
    (∃ (q : Fin 64) (s : State) (m : Ptp) (x : RxItem) (w : State), arrival s q (isPtp .sync) = some (x, w) ∧ (x.frame.body = .ptp m ∧ ptpAccepted w x.frame m = true ∧ receives w q = true ∧ fromParent w m = true)) ∧
    (∃ (q : Fin 64) (s : State) (m : Ptp) (x : RxItem) (w : State), arrival s q (isPtp .followUp) = some (x, w) ∧ (x.frame.body = .ptp m ∧ ptpAccepted w x.frame m = true ∧ receives w q = true ∧ fromParent w m = true ∧ (w.ptpPort q).syncSeq = some m.seqId)) ∧
    (∃ (q : Fin 64) (s : State) (m : Ptp) (x : RxItem) (w : State), arrival s q (isPtp .delayReq) = some (x, w) ∧ (x.frame.body = .ptp m ∧ ptpAccepted w x.frame m = true ∧ isTransmitPort w q = true)) ∧
    (∃ (s w : State) (x : RxItem) (m : Ptp) (a : Int), arrival s 63 (isPtp .delayResp) = some (x, w) ∧ x.frame.body = .ptp m ∧ ptpAccepted w x.frame m = true ∧ isSourcePort w 63 = true ∧ (w.ptpPort 63).delayTx = some a ∧ m.requester = portIdentity 63 ∧ m.seqId = (w.ptpPort 63).delaySeq) ∧
    (∃ (q : Fin 64) (s : State) (m : Ptp) (x : RxItem) (w : State), arrival s q (isPtp .pdelayReq) = some (x, w) ∧ (x.frame.body = .ptp m ∧ ptpAccepted w x.frame m = true ∧ hasPtpRole w q = true)) ∧
    (∃ (s w : State) (x : RxItem) (m : Ptp) (a : Int), arrival s 63 (isPtp .pdelayResp) = some (x, w) ∧ x.frame.body = .ptp m ∧ ptpAccepted w x.frame m = true ∧ (w.ptpPort 63).pdelayTx = some a ∧ m.requester = portIdentity 63 ∧ m.seqId = (w.ptpPort 63).pdelaySeq ∧ (w.ptpPort 63).pdelayWaitFollow = false ∧ m.twoStep = false) ∧
    (∃ (s w : State) (x : RxItem) (m : Ptp) (a : Int), arrival s 63 (isPtp .pdelayRespFollowUp) = some (x, w) ∧ x.frame.body = .ptp m ∧ ptpAccepted w x.frame m = true ∧ (w.ptpPort 63).pdelayTx = some a ∧ m.requester = portIdentity 63 ∧ m.seqId = (w.ptpPort 63).pdelaySeq ∧ (w.ptpPort 63).pdelayWaitFollow = true) ∧
    (∃ (q : Fin 64) (s : State) (m : Ptp) (x : RxItem) (w : State), arrival s q (isPtp .announce) = some (x, w) ∧ (x.frame.body = .ptp m ∧ ptpAccepted w x.frame m = true ∧ (receives (hear w q m) q && announceWins (hear w q m) m) = false)) ∧
    (∃ (q : Fin 64) (s : State) (m : Ptp) (x : RxItem) (w : State), arrival s q (isPtp .announce) = some (x, w) ∧ (x.frame.body = .ptp m ∧ ptpAccepted w x.frame m = true ∧ receives (hear w q m) q = true ∧ announceWins (hear w q m) m = true)) ∧
    (∃ (q : Fin 64) (s : State) (x : RxItem) (w : State), arrival s q isPtpOther = some (x, w) ∧ (True)) ∧
    (∃ (t : Nat) (q : Fin 64) (s : State) (u : State), u = advance s t ∧ (u.clocked = true ∧ isTransmitPort u q = true ∧ (u.ptpPort q).lastSyncTx + logNs u.clock.config.logSync ≤ u.now)) ∧
    (∃ (t : Nat) (q : Fin 64) (s : State) (u : State), u = advance s t ∧ (u.clocked = true ∧ isTransmitPort u q = true ∧ (u.ptpPort q).lastAnnounceTx + announceNs ≤ u.now)) ∧
    (∃ (t : Nat) (q : Fin 64) (s : State) (u : State), u = advance s t ∧ (u.clocked = true ∧ isSourcePort u q = true)) ∧
    (∃ (t : Nat) (q : Fin 64) (s : State) (u : State), u = advance s t ∧ (u.clocked = true ∧ hasPtpRole u q = true ∧ (u.ptpPort q).lastPdelayTx + logNs u.clock.config.logPdelay ≤ u.now)) :=
  ⟨⟨63, message { kind := .sync } { mode := 1, portConfig := 1, timePort := 63 } {}, { kind := .sync }, some2 (by decide +kernel)⟩,
    ⟨63, message { kind := .followUp, seqId := 3 } { mode := 1, portConfig := 1, timePort := 63 } { syncSeq := some 3 }, { kind := .followUp, seqId := 3 }, some2 (by decide +kernel)⟩,
    ⟨63, message { kind := .delayReq } { mode := 1, portConfig := 1, transmitPorts := 0x8000000000000000 } {}, { kind := .delayReq }, some2 (by decide +kernel)⟩,
    ⟨message { kind := .delayResp, requester := portIdentity 63 } { mode := 1, portConfig := 1, timePort := 63 } { delayTx := some 5 }, _, _, { kind := .delayResp, requester := portIdentity 63 }, 5, rfl, rfl, by decide +kernel, by decide +kernel, rfl, rfl, by decide +kernel⟩,
    ⟨63, message { kind := .pdelayReq } { mode := 1, portConfig := 1, transmitPorts := 0x8000000000000000 } {}, { kind := .pdelayReq }, some2 (by decide +kernel)⟩,
    ⟨message { kind := .pdelayResp, requester := portIdentity 63 } { mode := 1, portConfig := 1, timePort := 63 } { pdelayTx := some 5 }, _, _, { kind := .pdelayResp, requester := portIdentity 63 }, 5, rfl, rfl, by decide +kernel, rfl, rfl, by decide +kernel, by decide +kernel, by decide +kernel⟩,
    ⟨message { kind := .pdelayRespFollowUp, requester := portIdentity 63 } { mode := 1, portConfig := 1, timePort := 63 } { pdelayTx := some 5, pdelayWaitFollow := true }, _, _, { kind := .pdelayRespFollowUp, requester := portIdentity 63 }, 5, rfl, rfl, by decide +kernel, rfl, rfl, by decide +kernel, by decide +kernel⟩,
    ⟨63, message { kind := .announce } { mode := 1, timePort := 62 } {}, { kind := .announce }, some2 (by decide +kernel)⟩,
    ⟨63, message { kind := .announce, stepsRemoved := 1 } { mode := 1, portConfig := 1, timePort := 63 } {}, { kind := .announce, stepsRemoved := 1 }, some2 (by decide +kernel)⟩,
    ⟨63, message { kind := .signaling } {} {}, some2 (by decide +kernel)⟩,
    ⟨0, 63, { dev := { mode := .inService }, now := 1000000000000, clock := { config := { mode := 1, portConfig := 1, transmitPorts := 0x8000000000000000 } }, ptp := [(63, { lastSyncTx := 999937500000 })] }, _, rfl, by decide +kernel⟩,
    ⟨0, 63, { dev := { mode := .inService }, now := 1000000000000, clock := { config := { mode := 1, portConfig := 1, transmitPorts := 0x8000000000000000 } } }, _, rfl, by decide +kernel⟩,
    ⟨0, 63, { dev := { mode := .inService }, now := 1000000000000, clock := { config := { mode := 1, portConfig := 1, timePort := 63 } } }, _, rfl, by decide +kernel⟩,
    ⟨0, 63, { dev := { mode := .inService }, now := 1000000000000, clock := { config := { mode := 1, portConfig := 1, transmitPorts := 0x8000000000000000 } } }, _, rfl, by decide +kernel⟩⟩

/-- What the hypotheses of `Obligations.BundlesIssueWhole` ask for is met, for every operation in both clauses. -/
theorem witness_BundlesIssueWhole :
    (∀ x ∈ opRows, (∃ o ∈ bundleOps ((issuing x.1 x.2.1 (mwriteN [] 0 moverBytes)).engine 15).bundle, o.op = x.2.2) ∧
      (canIssue (issuing x.1 x.2.1 (mwriteN [] 0 moverBytes)) 15).isSome = true) ∧
    (∀ x ∈ opRows, (let s := issuing x.1 x.2.1 [] (fun e => { e with overlays := [{ target := 0, source := 0, count := 1 }] })
      (runningOn s 15).isSome && s.clocked && (s.engine 15).issuing && overlaid (s.engine 15)) = true) :=
  ⟨by decide +kernel, by decide +kernel⟩

/-- What the hypotheses of `Obligations.ScalarResults`, `Obligations.PredicateAndAddressResults`, `Obligations.ControlFlowResults`,
`Obligations.VectorAndStoreResults`, `Obligations.SyncObjectRule` and `Obligations.EngineReachesOut` ask for of an operation that issues alone is met. -/
theorem witness_IssuesAlone :
    (∀ x ∈ opRows.tail, (issuesAlone (issuing x.1 x.2.1 (mwriteN [] 0 moverBytes)) 15).any (fun y => decide (y.2.2.op = x.2.2)) = true) ∧
    ((canIssue (issuing 0 (slotOf 0)) 15).isSome = true ∧ (∀ o ∈ bundleOps ((issuing 0 (slotOf 0)).engine 15).bundle, o.op = .nop) ∧
      (flowOf ((issuing 0 (slotOf 0)).engine 15)).2 < imemSize) :=
  ⟨by decide +kernel, by decide +kernel, by decide +kernel, by decide +kernel⟩

/-- What the other hypotheses of `Obligations.ControlFlowResults` and `Obligations.VectorAndStoreResults` ask for is met: a LOOP with the count 0
outside every loop. -/
theorem witness_ControlFlowResults :
    (issuesAlone (issuing 0 { slotOf 0 with op := 0x03, imm := 4096 }) 15).any
      (fun y => decide (y.2.2.op = .loop ∧ loopCount ((issuing 0 { slotOf 0 with op := 0x03, imm := 4096 }).engine 15) y.2.2.x = 0)) = true ∧
    ((issuing 0 { slotOf 0 with op := 0x03, imm := 4096 }).engine 15).loops = [] := by decide +kernel

/-- What the other hypotheses of `Obligations.EngineReachesOut` ask for is met. -/
theorem witness_EngineReachesOut :
    (∀ k ∈ [0, 1, 2, 3], let s := issuing 2 { slotOf 0 with op := 0x03 } (walkStore (walks.getD k []))
      (canIssue s 15).isSome = true ∧ ∃ o ∈ bundleOps (s.engine 15).bundle, o.op = .prLens ∧ (walkOf (lensDesc (s.engine 15) o)).mode = k) ∧
    (∃ (p : Fin 16) (s : State) (o : Overlay) (r : List Overlay) (n : Nat) (g : Sched),
      s.clocked = true ∧ (s.engine p).overlays = o :: r ∧ (s.engine p).sched = some n ∧ s.sched? n = some g ∧ accessHeld s false (overlayRanges s g p o) = false) ∧
    (∃ (t : Nat) (p : Fin 16) (mv : Fin 4) (s u : State) (d : Desc), u = advance s t ∧ u.clocked = true ∧ headDesc u p mv = some d) ∧
    (∃ (t : Nat) (p : Fin 16) (s u : State) (x : Pass), u = advance s t ∧ u.clocked = true ∧ passDue (u.engine p) = some x) ∧
    (∃ (t : Nat) (p : Fin 16) (s u : State) (x : Walk), u = advance s t ∧ u.clocked = true ∧ walkRunning (u.engine p) = some x) :=
  ⟨by decide +kernel,
    ⟨15, issuing 0 (slotOf 0) [] (fun e => { e with overlays := [{ target := 16383, source := 0, count := 1 }] }), { target := 16383, source := 0, count := 1 }, [], 63, _, by decide +kernel, rfl, rfl, rfl, by decide +kernel⟩,
    ⟨0, 15, 3, issuing 0 (slotOf 0) [] (fun e => { e with movers := [(3, { queue := [descOf moverBytes] })] }), _, _, rfl, by decide +kernel, rfl⟩,
    ⟨0, 15, issuing 0 (slotOf 0) [] (fun e => { e with prism := [.pass { mover := 3, row := 0, rows := 1, wfmt := 0xA, qfmt := 0xA, acc := 0, n := 1, k := 32, accumulate := false }], movers := [(3, { stream := List.replicate 64 0 })] }), _, { mover := 3, row := 0, rows := 1, wfmt := 0xA, qfmt := 0xA, acc := 0, n := 1, k := 32, accumulate := false }, rfl, by decide +kernel, by decide +kernel⟩,
    ⟨0, 15, issuing 0 (slotOf 0) [] (fun e => { e with prism := [.lens { addr := 0, bundle := 0, desc := [], started := true }] }), _, { addr := 0, bundle := 0, desc := [], started := true }, rfl, by decide +kernel, rfl⟩⟩

/-- What the hypotheses of `Obligations.PageStepsKeepMemories` ask for is met. -/
theorem witness_PageStepsKeepMemories :
    ∃ (s t : State) (c : Instr) (r : List Instr), s.pending = c :: r ∧ onPage c = true ∧ MemoriesCanonical s ∧ (∀ e ∈ s.pages, e.2.heldOnlyEnabled) ∧ step s = .next t :=
  ⟨{ pending := [.reqPiWrite 5 (.session 64 0) 1], pages := [(5, { mem := [(4096, 1)] })] }, _, _, _, rfl, rfl, ⟨by decide, by decide, by decide⟩, by simp [Page.heldOnlyEnabled], rfl⟩

/-- What the hypotheses of `Obligations.BundleLayoutRoundTrip` ask for is met. -/
theorem witness_BundleLayoutRoundTrip :
    (∃ x : Slot, x.wf = true) ∧ (∃ w, w < 2 ^ 128) ∧ (∃ x0 x1 x2 x3 : Slot, x0.wf = true ∧ x1.wf = true ∧ x2.wf = true ∧ x3.wf = true) ∧ (∃ (b : Bytes) (k : Nat), b.length = 64 ∧ k < 4) :=
  let z := slotOf (2 ^ 128 - 1)
  ⟨⟨z, by decide⟩, ⟨2 ^ 128 - 1, by decide⟩, ⟨z, z, z, z, by decide, by decide, by decide, by decide⟩, ⟨List.replicate 64 255, 3, by decide, by decide⟩⟩

/-- What the hypotheses of `Obligations.ResponseStandsInItsSlot` ask for is met. -/
theorem witness_ResponseStandsInItsSlot : ∃ (s : State) (q : Req), (s.page q.m).mem.wf = true ∧ q.owes.mailbox = q.m ∧ q.xargOff + q.room ≤ 20480 :=
  ⟨tenant, plain, by decide⟩

/-- What the hypotheses of `Obligations.HostWritesKeepResponses` ask for is met, for a write across the end of the request ring and one of the
argument buffer's last byte. -/
theorem witness_HostWritesKeepResponses :
    ∃ (s : State) (m : Nat), (s.page m).mem.wf = true ∧ (s.page m).held = [] ∧ (s.page m).dropped = 0 ∧
      (∃ (off : Nat) (b : Bytes) (k : Nat), k < b.length ∧ 0x1000 ≤ off + k ∧ off + k < 0x5000 ∧ 0x5000 < off + b.length) ∧
      (∃ (off : Nat) (b : Bytes) (k : Nat), k < b.length ∧ 0xB000 ≤ off + k ∧ off + k < 0x10000) :=
  ⟨tenant, 5, by decide, by decide, by decide, ⟨0x4FFC, List.replicate 8 1, 3, by decide⟩, ⟨0xFFFF, [1], 0, by decide⟩⟩

/-- What the hypotheses of `Obligations.SyncObjectRule` ask for is met. -/
theorem witness_SyncObjectRule :
    (∃ (s : State) (i n c : Nat), (s.syncObj i).owner = some c ∧ 2 ^ 32 ≤ (s.syncObj i).value.toNat + n) ∧
    (∃ (s : State) (i n : Nat), (s.syncObj i).value.toNat + n < 2 ^ 32) ∧ (∃ (e : Engine) (o : Placed), o.op = .waitSync ∧ o.enabled e = true) :=
  ⟨⟨issuing 0 (slotOf 0), 65535, 2 ^ 32 - 5, 0, by decide +kernel⟩, ⟨issuing 0 (slotOf 0), 65535, 2 ^ 32 - 6, by decide +kernel⟩, ⟨{}, { op := .waitSync, x := slotOf 0 }, by decide⟩⟩

/-- What the hypotheses of `Obligations.ReductionsPairLanes` ask for is met. -/
theorem witness_ReductionsPairLanes : ∀ f ∈ [addF, maxF], ∃ (l : List F32) (y : Nat → Nat → F32), l.length = 512 ∧ (∀ j, j < 512 → y 0 j = l.getD j 0) ∧
    (∀ k j, k < 9 → y (k + 1) j = f (y k (2 * j)) (y k (2 * j + 1))) :=
  fun f _ => ⟨List.replicate 512 0, fun k => Nat.rec (fun j => (List.replicate 512 0).getD j 0) (fun _ z j => f (z (2 * j)) (z (2 * j + 1))) k, by decide, fun _ _ => rfl, fun _ _ _ => rfl⟩

/-- What the hypotheses of `Obligations.HomeAndContentAreInverse` ask for is met. -/
theorem witness_HomeAndContentAreInverse : ∃ t l st k, t < 16 ∧ contentOf t l = .data st k := ⟨15, 4095, 0, 13, by decide⟩

/-- What the hypotheses of `Obligations.ElementsRoundTrip` ask for is met, for every format, and the NaNs of those that have them. -/
theorem witness_ElementsRoundTrip :
    (∀ f ∈ [(0x0, 8), (0x1, 8), (0x6, 4), (0x8, 8), (0xA, 16), (0xB, 16)], 2 ^ f.2 - 2 < 2 ^ f.2 ∧ elemFv f.1 1 ≠ .nan) ∧
    (∀ f ∈ [(0x0, 0x7F), (0x1, 0xFF), (0xA, 0x7FC0), (0xB, 0x7E00)], elemFv f.1 f.2 = .nan) := by decide

/-- What the hypotheses of `Obligations.AlertStatusRule` ask for is met. -/
theorem witness_AlertStatusRule :
    (∃ (s : State) (code unit : Nat), tgetD s.dev.written 0 (code * 256 + unit) < 64) ∧ (∃ (t : Nat) (v : StartEnv) (s u : State), u = advance s t ∧ u.dev.mode = .resetting ∧ u.aon.dumping = none ∧ u.pins.thermtripN = true) ∧
    (∃ (m : Fin 1029) (s v : State) (q : Req), Ready cmdAlertClear m s q v ∧ RestZero q [(20, 1)]) :=
  ⟨⟨State.reset, 0x10, 0x20, by decide⟩, ⟨5, {}, { aon := { nextReason := 6 } }, _, rfl, rfl, rfl, rfl⟩,
    (exists_ready (by decide +kernel)).elim (fun q h => h.elim (fun v h => ⟨0, asked {} 0 cmdAlertClear.op [(20, 1, 3)] [] 0, v, q, h⟩))⟩

/-- What the hypotheses of `Obligations.TenantsMayNotIssueRoleCommands` ask for is met, by a command without events that come first and by
LEASE_SET where the lease that it names has run out. -/
theorem witness_TenantsMayNotIssueRoleCommands :
    ∀ x ∈ [(cmdAlertClear, asked {} 1028 cmdAlertClear.op [(20, 1, 3)]), (cmdLeaseSet, asked (leaseRunOut {}) 5 cmdLeaseSet.op [(22, 4, 100)])], ∃ (m : Nat) (q : Req) (w : State),
      5 ≤ m ∧ m < 1029 ∧ x.1.issuers (.tenant (m - 5)) = false ∧ x.2.dev.mode = .inService ∧ headOf x.2 m = some q ∧ q.opcode = x.1.op ∧ x.1.form q = true ∧
      w = x.1.before { q with owes := owesOf x.1 q } x.2 ∧ w.dev.mode = .inService ∧ (w.page m).mem.wf = true ∧ (w.page m).reqCi = q.index := by
  have h (m : Nat) (c : Cmd) (s : State) (p : (headOf s m).any (fun q => decide (q.opcode = c.op ∧ c.form q = true ∧ (c.before { q with owes := owesOf c q } s).dev.mode = .inService ∧
      ((c.before { q with owes := owesOf c q } s).page m).mem.wf = true ∧ ((c.before { q with owes := owesOf c q } s).page m).reqCi = q.index)) = true) :
      ∃ (q : Req) (w : State), headOf s m = some q ∧ q.opcode = c.op ∧ c.form q = true ∧ w = c.before { q with owes := owesOf c q } s ∧ w.dev.mode = .inService ∧
        (w.page m).mem.wf = true ∧ (w.page m).reqCi = q.index := by
    obtain ⟨q, h0, h1, h2, h3⟩ := some1 (P := fun q => q.opcode = c.op ∧ c.form q = true ∧ (c.before { q with owes := owesOf c q } s).dev.mode = .inService ∧
      ((c.before { q with owes := owesOf c q } s).page m).mem.wf = true ∧ ((c.before { q with owes := owesOf c q } s).page m).reqCi = q.index) p
    exact ⟨q, _, h0, h1, h2, rfl, h3⟩
  intro x hx
  simp only [List.mem_cons, List.not_mem_nil, or_false] at hx
  obtain rfl | rfl := hx
  · obtain ⟨q, w, r⟩ := h 1028 cmdAlertClear (asked {} 1028 cmdAlertClear.op [(20, 1, 3)]) (by decide +kernel)
    exact ⟨1028, q, w, by decide, by decide, by decide, rfl, r⟩
  · obtain ⟨q, w, r⟩ := h 5 cmdLeaseSet (asked (leaseRunOut {}) 5 cmdLeaseSet.op [(22, 4, 100)]) (by decide +kernel)
    exact ⟨5, q, w, by decide, by decide, by decide, rfl, r⟩

/-- What the hypotheses of `Obligations.StepRunsFrontCommand` ask for is met, and a queue is empty after reset. -/
theorem witness_StepRunsFrontCommand : (∃ (c : Instr) (s t : State), step { s with pending := [c] } = .next t) ∧ State.reset.pending = [] :=
  ⟨⟨.reqPiWrite 5 (.session 64 0) 1, State.reset, _, rfl⟩, rfl⟩

end Sys2Proof.Tests
end

