-- ==== Sys2Proof/Proofs/AddressFunction.lean ====
section
/-!
PROOF. The address function home() and its inverse content() (03 R62, R63). A data unit is never on the parity or the spare stack of
its stripe; an address is its stripe, its unit and its offset; and over 16 consecutive stripes a unit visits every stack once.
-/

namespace Sys2Proof.Machine

open Sys2Proof

/-! ### A data address and its parts -/

theorem unitOf_lt (a : Nat) : unitOf a < 14 := Nat.mod_lt _ (by decide)

@[simp] theorem localOf_div (a : Nat) : localOf a / 4096 = stripeOf a := by
  unfold localOf; omega

@[simp] theorem localOf_mod (a : Nat) : localOf a % 4096 = a % 4096 := by
  unfold localOf; omega

theorem unitAddr_add_offset (a : Nat) : unitAddr (stripeOf a) (unitOf a) + a % 4096 = a := by
  unfold unitAddr stripeOf unitOf; omega

theorem stripeOf_unitAddr_add {st k o : Nat} (hk : k < 14) (ho : o < 4096) : stripeOf (unitAddr st k + o) = st := by
  unfold stripeOf unitAddr; omega

theorem localOf_unitAddr_add {st k o : Nat} (hk : k < 14) (ho : o < 4096) : localOf (unitAddr st k + o) = st * 4096 + o := by
  have hmod : (unitAddr st k + o) % 4096 = o := by unfold unitAddr; omega
  rw [localOf, stripeOf_unitAddr_add hk ho, hmod]

/-! ### The stacks of one stripe -/

theorem dataHome_ne_parityHome {st k : Nat} (hk : k < 14) : dataHome st k ≠ parityHome st := by
  unfold dataHome parityHome; omega

theorem dataHome_ne_spareStack {st k : Nat} (hk : k < 14) : dataHome st k ≠ spareStack st := by
  unfold dataHome spareStack; omega

theorem contentOf_dataHome {st k l : Nat} (hk : k < 14) (hl : l / 4096 = st) : contentOf (dataHome st k) l = .data st k := by
  have hunit : (dataHome st k + 16 - st % 16 + 14) % 16 = k := by unfold dataHome; omega
  simp [contentOf, hl, dataHome_ne_parityHome hk, dataHome_ne_spareStack hk, hunit]

/-- Of a stack's byte only what is neither parity nor spare is data, and its unit is the one that `dataHome` puts on that stack. -/
theorem dataHome_of_contentOf {t l st k : Nat} (ht : t < 16) (h : contentOf t l = .data st k) :
    l / 4096 = st ∧ k < 14 ∧ dataHome st k = t := by
  simp only [contentOf] at h
  split at h
  case isTrue hparity => cases h
  case isFalse hparity =>
    split at h
    case isTrue hspare => cases h
    case isFalse hspare =>
      cases h
      unfold parityHome at hparity
      unfold spareStack at hspare
      unfold dataHome
      omega

/-! ### The rotation over 16 consecutive stripes -/

theorem existsUnique_add_mod_sixteen (c : Nat) {t : Nat} (ht : t < 16) : ∃! i, i < 16 ∧ (c + i) % 16 = t :=
  ⟨(t + 16 - c % 16) % 16, by constructor <;> omega, fun i hi => by omega⟩

theorem existsUnique_parityHome (n : Nat) {t : Nat} (ht : t < 16) : ∃! i, i < 16 ∧ parityHome (n + i) = t :=
  existsUnique_add_mod_sixteen n ht

theorem existsUnique_spareStack (n : Nat) {t : Nat} (ht : t < 16) : ∃! i, i < 16 ∧ spareStack (n + i) = t := by
  simpa only [spareStack, Nat.add_right_comm] using existsUnique_add_mod_sixteen (n + 1) ht

theorem existsUnique_dataHome (n k : Nat) {t : Nat} (ht : t < 16) : ∃! i, i < 16 ∧ dataHome (n + i) k = t := by
  simpa only [dataHome, Nat.add_right_comm] using existsUnique_add_mod_sixteen (n + 2 + k) ht

theorem card_stripes_dataHome (n k : Nat) {t : Nat} (ht : t < 16) :
    ((Finset.range 16).filter (fun i => dataHome (n + i) k = t)).card = 1 := by
  obtain ⟨i, hi, huniq⟩ := existsUnique_dataHome n k ht
  refine Finset.card_eq_one.mpr ⟨i, Finset.eq_singleton_iff_unique_mem.mpr ⟨by simpa using hi, fun j hj => huniq j ?_⟩⟩
  simpa using hj

/-- The listed units of 16 stripes, counted stripe by stripe: a list over `List.range` has the length of the `Finset.range` by definition. -/
theorem length_flatMap_units (n t : Nat) :
    ((List.range 16).flatMap (fun i => (List.range 14).filter (fun k => dataHome (n + i) k == t))).length
      = ∑ i ∈ Finset.range 16, ((Finset.range 14).filter (fun k => dataHome (n + i) k = t)).card := by
  rw [List.length_flatMap]
  rfl

/-- Counted by unit instead of by stripe: each of the 14 units of a stripe stands on stack `t` in one of 16 consecutive stripes. -/
theorem sum_card_units_dataHome (n : Nat) {t : Nat} (ht : t < 16) :
    ∑ i ∈ Finset.range 16, ((Finset.range 14).filter (fun k => dataHome (n + i) k = t)).card = 14 := by
  calc ∑ i ∈ Finset.range 16, ((Finset.range 14).filter (fun k => dataHome (n + i) k = t)).card
      = ∑ k ∈ Finset.range 14, ((Finset.range 16).filter (fun i => dataHome (n + i) k = t)).card :=
        Finset.sum_card_bipartiteAbove_eq_sum_card_bipartiteBelow (fun i k => dataHome (n + i) k = t)
    _ = ∑ _k ∈ Finset.range 14, 1 := Finset.sum_congr rfl fun k _ => card_stripes_dataHome n k ht
    _ = 14 := by simp

theorem length_units_of_sixteen_stripes (n : Nat) {t : Nat} (ht : t < 16) :
    ((List.range 16).flatMap (fun i => (List.range 14).filter (fun k => dataHome (n + i) k == t))).length = 14 :=
  (length_flatMap_units n t).trans (sum_card_units_dataHome n ht)

/-! ### The obligation -/

/-- Settles O57: an address is recovered from its stripe, unit and offset, content() inverts home() on the data units, and the rotation
by the stripe number meets each residue modulo 16 once in 16 consecutive stripes. -/
theorem homeAndContentAreInverse : Obligations.HomeAndContentAreInverse := by
  unfold Obligations.HomeAndContentAreInverse
  refine ⟨fun a => ?home, fun a => ?contentOfHome, fun t l st k ht h => ?homeOfContent,
    fun t n ht => ⟨existsUnique_parityHome n ht, existsUnique_spareStack n ht⟩, fun t n ht => length_units_of_sixteen_stripes n ht⟩
  case home =>
    have hk : a / 4096 % 14 < 14 := unitOf_lt a
    exact ⟨rfl, rfl, rfl, rfl, rfl, rfl, dataHome_ne_parityHome hk, dataHome_ne_spareStack hk⟩
  case contentOfHome =>
    rw [localOf_mod]
    exact ⟨contentOf_dataHome (unitOf_lt a) (localOf_div a), unitAddr_add_offset a⟩
  case homeOfContent =>
    obtain ⟨rfl, hk, hhome⟩ := dataHome_of_contentOf ht h
    refine ⟨hhome, hk, ?_⟩
    rw [localOf_unitAddr_add hk (Nat.mod_lt l (by decide)), Nat.div_add_mod']

end Sys2Proof.Machine
end

