-- ==== Sys2Proof/Proofs/SyncObjects.lean ====
section
/-!
PROOF. Sync objects (07 R190): what a signal, a reset and a wait do on the table, and what SIGNAL and SYNC_RESET of an engine do where
they alone take effect in their bundle. The bundle itself changes its engine and counters, so the table and the contexts change by the
operation alone.
-/

namespace Sys2Proof.Machine

open Sys2Proof

/-! ### Counting leaves sync objects and contexts alone -/

@[simp] theorem bump_sync (s : State) (g : Group) (i idx n : Nat) : (bump s g i idx n).sync = s.sync := by
  obtain ⟨c, hc⟩ := bump_frame s g i idx n
  rw [hc]

@[simp] theorem bump_ctxs (s : State) (g : Group) (i idx n : Nat) : (bump s g i idx n).ctxs = s.ctxs := by
  obtain ⟨c, hc⟩ := bump_frame s g i idx n
  rw [hc]

/-! ### Signal and reset -/

/-- The object after a signal: its value saturates (07 R190). -/
def SyncObj.signalled (x : SyncObj) (n : Nat) : SyncObj := { x with value := BitVec.ofNat 32 (min (x.value.toNat + n) syncMax) }

theorem SyncObj.signalled_toNat (x : SyncObj) (n : Nat) : (x.signalled n).value.toNat = min (x.value.toNat + n) (2 ^ 32 - 1) := by
  simp only [signalled, syncMax, BitVec.toNat_ofNat]
  omega

/-- The context whose flag a signal sets: the owner, where the signal saturates. -/
def SyncObj.saturatedOwner (x : SyncObj) (n : Nat) : Option Nat := if x.value.toNat + n > syncMax then x.owner else none

theorem SyncObj.saturatedOwner_of_lt {x : SyncObj} {n : Nat} (h : x.value.toNat + n < 2 ^ 32) : x.saturatedOwner n = none :=
  if_neg (by unfold syncMax; omega)

theorem SyncObj.saturatedOwner_of_le {x : SyncObj} {n : Nat} (h : 2 ^ 32 ≤ x.value.toNat + n) : x.saturatedOwner n = x.owner :=
  if_pos (by unfold syncMax; omega)

/-- The context after a signal of one of its objects has saturated. -/
def Ctx.saturated (k : Ctx) : Ctx := { k with syncSaturated := true, syncSaturatedCnt := k.syncSaturatedCnt + 1 }

/-- A signal changes its object, and where it saturates the owner's flag and the counts of that flag. -/
theorem syncSignal_eq (s : State) (i n : Nat) :
    syncSignal s i n = ((s.syncObj i).saturatedOwner n).elim (s.updSync i (·.signalled n))
      (fun c => bump ((s.updSync i (·.signalled n)).updCtx c Ctx.saturated) .context c 13 1) := by
  unfold syncSignal SyncObj.saturatedOwner
  dsimp only
  split
  · next c howner =>
    rw [howner]
    rfl
  · next hnone =>
    rw [hnone]
    rfl

theorem syncSignal_sync (s : State) (i n : Nat) : (syncSignal s i n).sync = (s.updSync i (·.signalled n)).sync := by
  rw [syncSignal_eq]
  cases (s.syncObj i).saturatedOwner n <;> simp

theorem syncSignal_ctxs (s : State) (i n : Nat) :
    (syncSignal s i n).ctxs = ((s.syncObj i).saturatedOwner n).elim s.ctxs (fun c => (s.updCtx c Ctx.saturated).ctxs) := by
  rw [syncSignal_eq]
  cases (s.syncObj i).saturatedOwner n <;> simp [State.updCtx]

theorem syncSignal_syncObj (s : State) (i n k : Nat) : (syncSignal s i n).syncObj k = (s.updSync i (·.signalled n)).syncObj k := by
  simp only [State.syncObj, syncSignal_sync]

/-! ### Waits -/

theorem waits_waitSync_eq_false_iff {s : State} {e : Engine} {g : Sched} {p : Nat} {o : Placed} (hop : o.op = .waitSync) (hon : o.enabled e = true) :
    o.waits s e g p = false ↔ (if o.x.c = 1 then (e.s o.x.a).toNat else o.x.imm) ≤ (s.syncObj o.x.x).value.toNat := by
  simp [Placed.waits, hop, hon]

/-! ### A bundle in which one operation alone takes effect -/

theorem mem_of_mem_effective {e : Engine} {l : List Placed} {o : Placed} (h : o ∈ effective e l) : o ∈ l := by
  unfold effective at h
  have hmem := (List.mem_filter.mp h).1
  split at hmem
  · simp only [List.mem_cons, List.not_mem_nil, or_false] at hmem ⊢
    tauto
  · exact hmem

/-- The sole operation is the one that takes effect and is no NOP. -/
theorem filter_effective_of_soleOp {e : Engine} {o : Placed} (h : soleOp e = some o) :
    (effective e (bundleOps e.bundle)).filter (fun o => o.op != .nop) = [o] := by
  unfold soleOp at h
  split at h
  · next heq => rw [heq, Option.some.inj h]
  · cases h

theorem soleOp_mem {e : Engine} {o : Placed} (h : soleOp e = some o) : o ∈ bundleOps e.bundle := by
  have hmem : o ∈ (effective e (bundleOps e.bundle)).filter (fun o => o.op != .nop) := by
    simp [filter_effective_of_soleOp h]
  exact mem_of_mem_effective (List.mem_filter.mp hmem).1

/-- What `issuesAlone` says, taken apart. -/
theorem issuesAlone_parts {s : State} {p n : Nat} {g : Sched} {o : Placed} (h : issuesAlone s p = some (n, g, o)) :
    canIssue s p = some (n, g) ∧ soleOp (s.engine p) = some o ∧ (flowOf (s.engine p)).2 < imemSize := by
  unfold issuesAlone at h
  split at h
  · next hcan hsole =>
    split at h
    · next hpc =>
      cases h
      exact ⟨hcan, hsole, hpc⟩
    · cases h
  · cases h

theorem issueBundle_of_canIssue {s : State} {p n : Nat} {g : Sched} (h : canIssue s p = some (n, g)) :
    s.clocked = true ∧ (s.engine p).issuing = true ∧ issueBundle s p = applyBundle s p n g (bundleOps (s.engine p).bundle) := by
  unfold canIssue at h
  dsimp only at h
  split at h
  · cases h
  · next hrun =>
    split at h
    · next hcond =>
      cases h
      simp only [Bool.and_eq_true, Bool.not_eq_true', beq_iff_eq] at hcond
      obtain ⟨⟨⟨⟨⟨⟨hclocked, hissuing⟩, hoverlaid⟩, hheld⟩, howner⟩, hwaits⟩, hfault⟩ := hcond
      refine ⟨hclocked, hissuing, ?_⟩
      simp [issueBundle, hrun, hoverlaid, hheld, howner, hwaits, hfault]
    · cases h

/-- A row whose operation stands in a bundle that can issue issues the bundle. -/
theorem issueOp_of_canIssue {s : State} {p n : Nat} {g : Sched} {o : Placed} (h : canIssue s p = some (n, g))
    (ho : o ∈ bundleOps (s.engine p).bundle) : issueOp s p o.op = .next (applyBundle s p n g (bundleOps (s.engine p).bundle)) := by
  obtain ⟨hclocked, hissuing, hbundle⟩ := issueBundle_of_canIssue h
  have hany : (bundleOps (s.engine p).bundle).any (fun x => x.op == o.op) = true := List.any_eq_true.mpr ⟨o, ho, beq_self_eq_true _⟩
  simp only [issueOp, issueRow, hclocked, hissuing, hany, hbundle, Bool.and_self, if_true]

theorem Placed.outside_of_nop {o : Placed} (h : o.op = .nop) (s : State) (n : Nat) (g : Sched) (p : Nat) (e : Engine) : o.outside s n g p e = s := by
  simp [Placed.outside, h]

/-- NOPs do nothing outside the engine, so the bundle does there what its sole operation does. -/
theorem foldl_outside_of_soleOp {e : Engine} {o : Placed} (h : soleOp e = some o) (s : State) (n : Nat) (g : Sched) (p : Nat) :
    (effective e (bundleOps e.bundle)).foldl (fun s o => o.outside s n g p e) s = o.outside s n g p e := by
  have hskip : (fun (s : State) (o : Placed) => o.outside s n g p e) = fun s o => if o.op != .nop then o.outside s n g p e else s := by
    funext s o
    by_cases hop : o.op = .nop
    · simp [hop, Placed.outside_of_nop hop]
    · simp [hop]
  rw [hskip, ← List.foldl_filter, filter_effective_of_soleOp h, List.foldl_cons, List.foldl_nil]

/-- The engine of paddock `p` after its bundle: every effective operation has acted on it, and issue goes on (04 R82, R88). -/
def issuedEngine (s : State) (p : Nat) (g : Sched) : Engine :=
  let e := s.engine p
  { (effective e (bundleOps e.bundle)).foldl (Placed.effect s g p e) e with loops := (flowOf e).1, pc := (flowOf e).2, lastIssue := s.now }

/-- Counting once more still changes counters alone. -/
theorem bump_frame_of_frame {u v : State} (h : ∃ c, v = { u with counters := c }) (g : Group) (i idx n : Nat) :
    ∃ c, bump v g i idx n = { u with counters := c } := by
  obtain ⟨c, rfl⟩ := h
  exact bump_frame _ g i idx n

/-- A bundle whose sole operation takes effect changes, but for that operation's effect outside the engine, its engine and counters. -/
theorem applyBundle_of_soleOp {s : State} {p n : Nat} {g : Sched} {o : Placed} (ho : soleOp (s.engine p) = some o)
    (hpc : (flowOf (s.engine p)).2 < imemSize) :
    ∃ c, applyBundle s p n g (bundleOps (s.engine p).bundle)
      = { o.outside (s.updEngine p (fun _ => issuedEngine s p g)) n g p (s.engine p) with counters := c } := by
  have hstay : ¬ (flow (s.engine p) (((bundleOps (s.engine p).bundle).head?).getD { op := .nop, x := slotOf 0 })).2 ≥ imemSize := Nat.not_le.mpr hpc
  simp only [applyBundle, foldl_outside_of_soleOp ho, hstay, decide_false, Bool.false_and, Bool.false_eq_true, if_false]
  have hcounted := bump_frame_of_frame (bump_frame (o.outside (s.updEngine p (fun _ => issuedEngine s p g)) n g p (s.engine p)) .engine p 0 1) .schedule n 0 1
  split
  · exact bump_frame_of_frame hcounted .engine p 8 1
  · exact hcounted

/-! ### SIGNAL and SYNC_RESET -/

theorem syncSignal_updEngine_sync (s : State) (p : Nat) (f : Engine → Engine) (i n : Nat) :
    (syncSignal (s.updEngine p f) i n).sync = (syncSignal s i n).sync := by
  simp only [syncSignal_sync, State.updSync, State.updEngine_keeps]

theorem syncSignal_updEngine_ctxs (s : State) (p : Nat) (f : Engine → Engine) (i n : Nat) :
    (syncSignal (s.updEngine p f) i n).ctxs = (syncSignal s i n).ctxs := by
  simp only [syncSignal_ctxs, State.syncObj, State.updCtx, State.updEngine_keeps]

theorem syncReset_updEngine_sync (s : State) (p : Nat) (f : Engine → Engine) (i : Nat) :
    (syncReset (s.updEngine p f) i).sync = (syncReset s i).sync := by
  simp only [syncReset, State.updSync, State.updEngine_keeps]

/-- The row of an operation that issues alone leaves the sync objects and contexts that its effect outside the engine leaves. -/
theorem issueOp_of_issuesAlone {s : State} {p n : Nat} {g : Sched} {o : Placed} (h : issuesAlone s p = some (n, g, o)) :
    ∃ t u, issueOp s p o.op = .next t ∧ u = s.updEngine p (fun _ => issuedEngine s p g) ∧
      t.sync = (o.outside u n g p (s.engine p)).sync ∧ t.ctxs = (o.outside u n g p (s.engine p)).ctxs := by
  obtain ⟨hcan, hsole, hpc⟩ := issuesAlone_parts h
  obtain ⟨c, happly⟩ := applyBundle_of_soleOp (n := n) (g := g) hsole hpc
  exact ⟨_, _, issueOp_of_canIssue hcan (soleOp_mem hsole), rfl, by rw [happly], by rw [happly]⟩

theorem opSignal_completes {p : Fin 16} {s : State} {n : Nat} {g : Sched} {o : Placed} (h : issuesAlone s p = some (n, g, o)) (hop : o.op = .signal) :
    Completes (.opSignal p) s (fun t => t.sync = (syncSignal s o.x.x o.x.imm).sync ∧ t.ctxs = (syncSignal s o.x.x o.x.imm).ctxs) := by
  obtain ⟨t, u, hrow, rfl, hsync, hctxs⟩ := issueOp_of_issuesAlone h
  have hout (u : State) : o.outside u n g p (s.engine p) = syncSignal u o.x.x o.x.imm := by simp only [Placed.outside, hop]
  rw [hop] at hrow
  rw [hout] at hsync hctxs
  exact ⟨t, hrow, by rw [hsync, syncSignal_updEngine_sync], by rw [hctxs, syncSignal_updEngine_ctxs]⟩

theorem opSyncReset_completes {p : Fin 16} {s : State} {n : Nat} {g : Sched} {o : Placed} (h : issuesAlone s p = some (n, g, o))
    (hop : o.op = .syncReset) : Completes (.opSyncReset p) s (fun t => t.sync = (syncReset s o.x.x).sync) := by
  obtain ⟨t, u, hrow, rfl, hsync, -⟩ := issueOp_of_issuesAlone h
  have hout (u : State) : o.outside u n g p (s.engine p) = syncReset u o.x.x := by simp only [Placed.outside, hop]
  rw [hop] at hrow
  rw [hout, syncReset_updEngine_sync] at hsync
  exact ⟨t, hrow, hsync⟩

/-! ### The obligation -/

/-- Settles O55: a signal is `SyncObj.signalled` on its object and, where it saturates, `Ctx.saturated` on the owner; SIGNAL and SYNC_RESET
are the effect outside the engine of an operation that issues alone. -/
theorem syncObjectRule : Obligations.SyncObjectRule := by
  unfold Obligations.SyncObjectRule
  refine ⟨fun s i n => ⟨?value, fun k hk => ?others, fun c hc hsat => ?saturates, fun hfits => ?fits⟩,
    fun s i => ⟨?resets, fun k hk => State.updSync_syncObj_other s _ hk⟩, fun s e g p o hop hon => waits_waitSync_eq_false_iff hop hon,
    fun p s n g o h => ⟨opSignal_completes h, opSyncReset_completes h⟩⟩
  case value => rw [syncSignal_syncObj, State.updSync_syncObj, SyncObj.signalled_toNat]
  case others => rw [syncSignal_syncObj, State.updSync_syncObj_other s _ hk]
  case saturates =>
    have hctx : (syncSignal s i n).ctx c = (s.ctx c).saturated := by
      rw [State.ctx, syncSignal_ctxs, SyncObj.saturatedOwner_of_le hsat, hc]
      exact State.updCtx_ctx s c _
    rw [hctx]
    exact ⟨rfl, rfl⟩
  case fits => rw [syncSignal_ctxs, SyncObj.saturatedOwner_of_lt hfits, Option.elim_none]
  case resets => rw [syncReset, State.updSync_syncObj]

end Sys2Proof.Machine
end

