-- ==== Sys2Proof/Proofs/DeviceRegisters.lean ====
section
/-!
SUPPORT. What leaves the device-wide registers alone: events, trace records, the links and quads of the ports, session generations.
-/

namespace Sys2Proof.Machine

open Sys2Proof

/-- A fold of steps that each keep what `g` reads keeps it. -/
theorem foldl_keeps {α β : Type} (g : State → β) {f : State → α → State} (h : ∀ s a, g (f s a) = g s) (l : List α) (s : State) :
    g (l.foldl f s) = g s := by
  rw [← List.foldl_hom g (g₂ := fun x _ => x) (fun s a => (h s a).symm), List.foldl_fixed]

/-! ### Events and trace records -/

@[simp] theorem bump_dev (s : State) (g : Group) (i idx n : Nat) : (bump s g i idx n).dev = s.dev := by
  obtain ⟨c, hc⟩ := bump_frame s g i idx n
  rw [hc]

@[simp] theorem postEvent_dev (s : State) (m code ty id : Nat) (d : Bytes) (st : Nat) : (postEvent s m code ty id d st).dev = s.dev := by
  obtain ⟨p, x, h⟩ := postEvent_frame s m code ty id d st
  rw [h]

@[simp] theorem postRoles_dev (s : State) (rs : List Role) (code ty id : Nat) (d : Bytes) (st : Nat) : (postRoles s rs code ty id d st).dev = s.dev :=
  foldl_keeps State.dev (fun s r => postEvent_dev s (roleMailbox r) code ty id d st) rs s

@[simp] theorem writeLoss_dev (s : State) (n : Nat) : (writeLoss s n).dev = s.dev := by
  unfold writeLoss
  dsimp only
  split
  · rfl
  · split <;> simp

@[simp] theorem streamTake_dev (s : State) (n : Nat) (r : TraceRec) : (streamTake s n r).dev = s.dev := by
  unfold streamTake
  split <;> simp

@[simp] theorem trace_dev (s : State) (type unit : Nat) (ctx : Option Nat) (time : Nat) (d : Bytes) : (trace s type unit ctx time d).dev = s.dev := by
  unfold trace
  split
  · rfl
  · exact foldl_keeps State.dev (fun s n => streamTake_dev s n _) _ s

/-! ### Ports and quads -/

@[simp] theorem setLink_dev (s : State) (q : Nat) (new : LinkState) (cause : Nat) : (setLink s q new cause).dev = s.dev := by
  unfold setLink reportLink
  dsimp only
  split <;> simp

@[simp] theorem portTrain_dev (s : State) (q : Nat) : (portTrain s q).dev = s.dev := by
  unfold portTrain
  split <;> simp

@[simp] theorem emit_dev (s : State) (q : Nat) (tag : Option LinkTag) (f : Frame) : (emit s q tag f).dev = s.dev := by
  unfold emit
  dsimp only
  split <;> simp

@[simp] theorem sendPfc_dev (s : State) (q c quanta : Nat) : (sendPfc s q c quanta).dev = s.dev := by
  unfold sendPfc sendMac
  split
  · rfl
  · dsimp only
    split <;> simp

@[simp] theorem releaseOrigin_dev (s : State) (o : Option (Nat × Nat)) (f : Frame) : (releaseOrigin s o f).dev = s.dev := by
  unfold releaseOrigin releaseIngress checkXon
  split
  · split
    · dsimp only
      split <;> simp
    · rfl
  · rfl

@[simp] theorem portDown_dev (s : State) (q cause : Nat) : (portDown s q cause).dev = s.dev := by
  unfold portDown
  dsimp only
  split
  · rfl
  · rw [setLink_dev, foldl_keeps State.dev, foldl_keeps State.dev]
    · simp
    · exact fun s x => releaseOrigin_dev s x.origin x.frame
    · intro s x
      split
      · simp [failMover]
      · rfl

@[simp] theorem quadDown_dev (s : State) (k : Nat) : (quadDown s k).dev = s.dev :=
  foldl_keeps State.dev (fun s q => portDown_dev s q 5) _ s

@[simp] theorem setQuad_dev (s : State) (k : Nat) (st : QuadState) : (setQuad s k st).dev = s.dev := by
  simp [setQuad]

@[simp] theorem quadReset_dev (s : State) (k : Nat) : (quadReset s k).dev = s.dev := by
  simp [quadReset]

@[simp] theorem setPorts_dev (s : State) (k : Nat) (b : Bytes) : (setPorts s k b).dev = s.dev := by
  refine foldl_keeps State.dev (fun s n => ?_) _ s
  rfl

@[simp] theorem configureQuad_dev (s : State) (b : Bytes) : (configureQuad s b).dev = s.dev := by
  unfold configureQuad
  dsimp only
  split_ifs <;> simp

@[simp] theorem configurePorts_dev (s : State) : (configurePorts s).dev = s.dev := by
  unfold configurePorts foldKeys foldRange
  dsimp only
  split
  · rfl
  · rw [foldl_keeps State.dev, foldl_keeps State.dev]
    · intro s k
      split <;> simp
    · simp

/-! ### Sessions, the always-on domain and the layout -/

@[simp] theorem slotWaits_dev (s : State) (i : Nat) (gen : BitVec 16) : (slotWaits s i gen).dev = s.dev := by
  simp [slotWaits]

@[simp] theorem roleSlotWaits_dev (s : State) (i : Nat) : (roleSlotWaits s i).dev = s.dev := by
  simp [roleSlotWaits, stepGen]

@[simp] theorem startRoleSlots_dev (s : State) (lost : Bool) : (startRoleSlots s lost).dev = s.dev := by
  refine foldl_keeps State.dev (fun s i => ?_) _ s
  split <;> simp

@[simp] theorem startAon_dev (s : State) (counts : Bool) : (startAon s counts).dev = s.dev := by
  simp [startAon]

@[simp] theorem orderReset_dev (s : State) (o : ResetOrder) : (orderReset s o).dev = s.dev := by
  unfold orderReset
  split <;> simp

end Sys2Proof.Machine
end

