-- ==== Sys2Proof/Proofs/Alerts.lean ====
section
/-!
PROOF. ALERT_STATUS and ALERT_N (17 R403). The bits are read off the sum that `State.alertStatus` is; bit 0 follows what a record of
the error log does to the device-wide registers; bit 1 follows a start, of which only `startRecords` touches it; and ALERT_CLEAR is
run through the mailbox protocol.
-/

namespace Sys2Proof.Machine

open Sys2Proof

/-! ### The bits of ALERT_STATUS -/

/-- Six flags at six places of a number are read back one by one. -/
theorem bit_sum_b2n : ∀ b0 b1 b2 b3 b4 b5 : Bool,
    [0, 1, 2, 3, 4, 5].map (bit (b2n b0 0 + b2n b1 1 + b2n b2 2 + b2n b3 3 + b2n b4 4 + b2n b5 5)) = [b0, b1, b2, b3, b4, b5] := by
  decide

theorem bits_alertStatus (s : State) :
    bit s.alertStatus 0 = s.dev.alert0 ∧ bit s.alertStatus 1 = s.dev.alert1 ∧ bit s.alertStatus 2 = s.stks.any (fun e => e.2.st != .serving) ∧
      bit s.alertStatus 3 = (s.dev.mode == .minimal) ∧ bit s.alertStatus 4 = (s.aon.dumpHeld == .held) := by
  have h := bit_sum_b2n s.dev.alert0 s.dev.alert1 (s.stks.any (fun e => e.2.st != .serving)) (s.dev.mode == .minimal) (s.aon.dumpHeld == .held) s.thermal
  simp only [List.map_cons, List.cons.injEq] at h
  obtain ⟨h0, h1, h2, h3, h4, -⟩ := h
  exact ⟨h0, h1, h2, h3, h4⟩

theorem alertN_eq_false_iff (s : State) : s.alertN = false ↔ s.alertStatus ≠ 0 := beq_eq_false_iff_ne

/-! ### Records of the error log and bit 0 -/

/-- A record, or its suppression, touches the always-on domain and the counts of records, and sets bit 0 where its class is 0x3. -/
theorem logError_frame (s : State) (code cls unit : Nat) (d : Bytes) (st : Nat) :
    ∃ a x y n, let w : State := { s with aon := a, dev := { s.dev with written := x, suppressed := y, suppressedTotal := n } }
      logError s code cls unit d st = if cls = 3 ∧ tgetD s.dev.written 0 (code * 256 + unit) < 64 then setAlert w 0 else w := by
  unfold logError
  dsimp only
  split
  · next hsupp =>
    have hno : ¬ (cls = 3 ∧ tgetD s.dev.written 0 (code * 256 + unit) < 64) := by
      simp only [Bool.and_eq_true, decide_eq_true_eq] at hsupp
      omega
    exact ⟨s.aon, _, _, _, by rw [if_neg hno]; rfl⟩
  · next hwritten =>
    have hcls : (cls = 3 ∧ tgetD s.dev.written 0 (code * 256 + unit) < 64) ↔ cls = 3 := by
      refine and_iff_left_of_imp fun h => ?_
      simpa [h] using hwritten
    exact ⟨_, _, _, s.dev.suppressedTotal, by simp only [hcls]; rfl⟩

/-- A written record of class 0x3 sets and counts bit 0, and leaves bit 1. -/
theorem logError_class3 {s : State} {code unit : Nat} (d : Bytes) (st : Nat) (h : tgetD s.dev.written 0 (code * 256 + unit) < 64) :
    let t := logError s code 3 unit d st
    t.dev.alert0 = true ∧ t.dev.alert1 = s.dev.alert1 ∧ tgetD t.dev.alertCnts 0 0 = tgetD s.dev.alertCnts 0 0 + 1 := by
  obtain ⟨a, x, y, n, hlog⟩ := logError_frame s code 3 unit d st
  dsimp only
  rw [hlog, if_pos ⟨rfl, h⟩]
  simp [setAlert]

theorem logError_other_class (s : State) (code : Nat) {cls : Nat} (unit : Nat) (d : Bytes) (st : Nat) (h : cls ≠ 3) :
    (logError s code cls unit d st).dev.alert0 = s.dev.alert0 ∧ (logError s code cls unit d st).dev.alert1 = s.dev.alert1 := by
  obtain ⟨a, x, y, n, hlog⟩ := logError_frame s code cls unit d st
  rw [hlog, if_neg fun hc => h hc.1]
  exact ⟨rfl, rfl⟩

/-! ### Starts and bit 1 -/

/-- What a start's alert is about: the start reason, bit 1 of ALERT_STATUS and the count of its settings. -/
structure StartAlert where
  reason : Nat
  isSet : Bool
  count : Nat

/-- The start reason, bit 1 and its count as a state has them. -/
def State.startAlert (s : State) : StartAlert := { reason := s.dev.reason, isSet := s.dev.alert1, count := tgetD s.dev.alertCnts 0 1 }

/-- Bit 1 is set and counted where the reason is 0x05 or 0x06 (17 R403). -/
def StartAlert.raised (x : StartAlert) : StartAlert := if x.reason = 5 ∨ x.reason = 6 then { x with isSet := true, count := x.count + 1 } else x

@[simp] theorem StartAlert.raised_reason (x : StartAlert) : x.raised.reason = x.reason := by
  unfold raised
  split <;> rfl

theorem startAlert_of_dev {s t : State} (h : t.dev = s.dev) : t.startAlert = s.startAlert := by
  simp [State.startAlert, h]

@[simp] theorem startAlert_logError (s : State) (code cls unit : Nat) (d : Bytes) (st : Nat) :
    (logError s code cls unit d st).startAlert = s.startAlert := by
  obtain ⟨a, x, y, n, hlog⟩ := logError_frame s code cls unit d st
  rw [hlog]
  split
  · simp [State.startAlert, setAlert, tgetD_tupd_other]
  · rfl

/-- The bits that follow their conditions are counted at 2 and above. -/
@[simp] theorem startAlert_countAlerts (old s : State) : (countAlerts old s).startAlert = s.startAlert := by
  refine foldl_keeps State.startAlert (fun s i => ?_) _ s
  split
  · simp [State.startAlert, tgetD_tupd_other]
  · rfl

@[simp] theorem startAlert_setStackState (s : State) (t : Nat) (st : StackState) : (setStackState s t st).startAlert = s.startAlert := by
  rw [setStackState, startAlert_countAlerts]
  exact startAlert_of_dev rfl

@[simp] theorem startAlert_startStacks (s : State) : (startStacks s).startAlert = s.startAlert := by
  unfold startStacks
  dsimp only
  split <;> split <;> split <;> simp

@[simp] theorem startAlert_loadLayout (s : State) : (loadLayout s).startAlert = s.startAlert := by
  unfold loadLayout
  split
  · rw [startAlert_startStacks]
    rfl
  · rw [startAlert_logError]
    rfl

@[simp] theorem startAlert_failStart (s : State) (cause unit : Nat) : (failStart s cause unit).startAlert = s.startAlert := by
  unfold failStart
  dsimp only
  split
  · rfl
  · rw [startAlert_of_dev (orderReset_dev _ _), startAlert_logError]
    rfl

@[simp] theorem startAlert_configurePorts (s : State) : (configurePorts s).startAlert = s.startAlert :=
  startAlert_of_dev (configurePorts_dev s)

@[simp] theorem startAlert_persistAs (s : State) (l : Layout) : (persistAs s l).startAlert = s.startAlert := rfl

@[simp] theorem startAlert_bootChecks (s : State) (puf : Bytes) : (bootChecks s puf).startAlert = s.startAlert := by
  unfold bootChecks
  dsimp only
  split_ifs <;> simp only [startAlert_failStart, startAlert_configurePorts] <;> rfl

/-- Of the records that a start writes first none touches bit 1; the start's reason then does. -/
@[simp] theorem startAlert_startRecords (s : State) (taken : Bool) (skipped : Option (BitVec 32)) :
    (startRecords s taken skipped).startAlert = s.startAlert.raised := by
  unfold startRecords
  extract_lets started dumped written
  have hdumped : dumped.startAlert = s.startAlert := by
    unfold dumped
    split <;> simp [started]
  have hwritten : written.startAlert = s.startAlert := by
    unfold written
    split <;> simp [hdumped]
  have hreason : written.dev.reason = s.startAlert.reason := congrArg StartAlert.reason hwritten
  rw [StartAlert.raised, ← hreason, ← hwritten]
  split_ifs with hbool hprop hprop
  · simp [State.startAlert, setAlert]
  · simp [hprop] at hbool
  · simp [hprop] at hbool
  · rfl

/-- A start takes its reason anew and touches bit 1 for that reason alone. -/
theorem startAlert_bootPart (s : State) (env : StartEnv) :
    ∃ r, (bootPart s env).startAlert = (StartAlert.mk r s.dev.alert1 (tgetD s.dev.alertCnts 0 1)).raised := by
  unfold bootPart
  extract_lets read minimal reason taken skipped lost flashed was domain _ pinned registers clocked recorded _ counted trained
  have hclocked : clocked.startAlert = ⟨reason, s.dev.alert1, tgetD s.dev.alertCnts 0 1⟩ := by
    simp [clocked, registers, pinned, domain, State.startAlert]
  have htrained : trained.startAlert = clocked.startAlert.raised := by
    rw [startAlert_of_dev (portTrain_dev _ _), startAlert_countAlerts, startAlert_startRecords, startAlert_loadLayout]
  refine ⟨reason, ?_⟩
  rw [← hclocked, ← htrained]
  split
  · rfl
  · rw [startAlert_bootChecks, startAlert_persistAs, startAlert_of_dev (startRoleSlots_dev _ _)]

/-- START of a part held in reset, with no dump and no thermal trip, is `bootPart`. -/
theorem exec_start {t : Nat} {env : StartEnv} {s : State} (hmode : (advance s t).dev.mode = .resetting) (hdump : (advance s t).aon.dumping = none)
    (htrip : (advance s t).pins.thermtripN = true) : exec (.start t env) s = .next (bootPart (advance s t) env) := by
  change execStart t env s = _
  exact timed_due (by simp [hmode, hdump, htrip])

theorem start_completes {t : Nat} {env : StartEnv} {s : State} (hmode : (advance s t).dev.mode = .resetting) (hdump : (advance s t).aon.dumping = none)
    (htrip : (advance s t).pins.thermtripN = true) :
    Completes (.start t env) s (fun w => if w.dev.reason = 5 ∨ w.dev.reason = 6
      then w.dev.alert1 = true ∧ tgetD w.dev.alertCnts 0 1 = tgetD (advance s t).dev.alertCnts 0 1 + 1
      else w.dev.alert1 = (advance s t).dev.alert1 ∧ tgetD w.dev.alertCnts 0 1 = tgetD (advance s t).dev.alertCnts 0 1) := by
  refine ⟨_, exec_start hmode hdump htrip, ?_⟩
  obtain ⟨r, hboot⟩ := startAlert_bootPart (advance s t) env
  have hreason : (bootPart (advance s t) env).dev.reason = r := by
    simpa [State.startAlert] using congrArg StartAlert.reason hboot
  rw [hreason]
  unfold StartAlert.raised at hboot
  split_ifs at hboot ⊢ <;> exact ⟨congrArg StartAlert.isSet hboot, congrArg StartAlert.count hboot⟩

/-! ### ALERT_CLEAR -/

/-- A state after ALERT_CLEAR: a 1 of the mask clears its bit. -/
def State.alertsCleared (s : State) (mask : Nat) : State :=
  s.updDev (fun d => { d with alert0 := d.alert0 && !bit mask 0, alert1 := d.alert1 && !bit mask 1 })

theorem cmdAlertClear_body {q : Req} (h : RestZero q [(20, 1)]) (s : State) : cmdAlertClear.body q s = .done (s.alertsCleared (q.arg 20 1)) [] [] := by
  simp only [cmdAlertClear, h]
  rfl

theorem alertClear_completes {m : Fin 1029} {s v : State} {q : Req} (hready : Ready cmdAlertClear m s q v) (hrest : RestZero q [(20, 1)]) :
    Completes (.alertClear m) s (fun t => t.dev = (v.alertsCleared (q.arg 20 1)).dev ∧ t.stks = v.stks ∧ t.aon = v.aon) := by
  refine ⟨_, serve_done hready (cmdAlertClear_body hrest v) (cmdAlertClear_body hrest _), ?_⟩
  obtain ⟨g, n, e, hclose⟩ := closeWith_frame ((recorded cmdAlertClear q v).alertsCleared (q.arg 20 1)) q stOk 0 [] []
  obtain ⟨f, k, hrecorded⟩ := recorded_frame cmdAlertClear q v
  have hafter (w : State) : cmdAlertClear.after q w = w := rfl
  rw [hafter, okay, hclose, hrecorded]
  exact ⟨rfl, rfl, rfl⟩

/-! ### The obligation -/

/-- Settles O59: the bits are those that `State.alertStatus` adds up; what `logError` does to bit 0 follows from its frame; a start leaves
bit 1 as `StartAlert.raised` gives it; and ALERT_CLEAR is `State.alertsCleared`. -/
theorem alertStatusRule : Obligations.AlertStatusRule := by
  unfold Obligations.AlertStatusRule
  refine ⟨fun s => ?bits, fun s code unit st d h => logError_class3 d st h, fun s code cls unit st d h => logError_other_class s code unit d st h,
    fun t env s u hu hmode hdump htrip => ?start, fun m s v q hready hrest => alertClear_completes hready hrest⟩
  case bits =>
    obtain ⟨h0, h1, h2, h3, h4⟩ := bits_alertStatus s
    exact ⟨alertN_eq_false_iff s, h0, h1, by simp [h2], by simp [h3], by simp [h4]⟩
  case start =>
    subst hu
    exact start_completes hmode hdump htrip

end Sys2Proof.Machine
end

