-- ==== Sys2Proof/Proofs/PageRegisters.lean ====
section
/-!
PROOF. The registers of mailbox pages (02 R29 to R34, R41). Held COMPLETIONs are freed by `freeHeld` and written by `flushHeld`;
their laws say what each leaves alone. The invariant is about one page, `Page.Sound`, and every register write keeps it page by page.
-/

namespace Sys2Proof.Machine

open Sys2Proof

/-! ### Pending commands freed with a held COMPLETION -/

theorem foldl_erase_cons {α : Type} [DecidableEq α] {a : α} {l : List α} (h : a ∉ l) (x : List α) : l.foldl List.erase (a :: x) = a :: l.foldl List.erase x := by
  induction l generalizing x with
  | nil => rfl
  | cons b r ih =>
    simp only [List.mem_cons, not_or] at h
    rw [List.foldl_cons, List.erase_cons_tail (by simpa using h.1), ih h.2, List.foldl_cons]

/-- Erasing one by one the elements that pass a test leaves those that fail it. -/
theorem foldl_erase_filter {α : Type} [DecidableEq α] (p : α → Bool) (l : List α) : (l.filter p).foldl List.erase l = l.filter (fun x => !p x) := by
  induction l with
  | nil => rfl
  | cons a r ih =>
    by_cases ha : p a = true
    · simp [ha, ih]
    · simp only [List.filter_cons, ha, Bool.false_eq_true, if_false, Bool.not_false, if_true]
      rw [foldl_erase_cons (by simp [ha]), ih]

/-- The end of a pending command touches the staging transfer and the device-wide registers alone. -/
theorem endPending_frame (s : State) (p : Pending) : ∃ g d, endPending s p = { s with staging := g, dev := d } := by
  unfold endPending endCommit
  split_ifs
  · split
    · split
      · exact ⟨_, _, rfl⟩
      · exact ⟨_, _, rfl⟩
    · exact ⟨_, _, rfl⟩
  · exact ⟨_, _, rfl⟩

theorem foldl_endPending_frame (l : List Pending) (s : State) :
    ∃ g d, l.foldl (fun s p => endPending (dropPending s p) p) s = { s with pendings := l.foldl List.erase s.pendings, staging := g, dev := d } := by
  induction l generalizing s with
  | nil => exact ⟨_, _, rfl⟩
  | cons p r ih =>
    obtain ⟨g, d, h⟩ := endPending_frame (dropPending s p) p
    obtain ⟨g', d', h'⟩ := ih (endPending (dropPending s p) p)
    exact ⟨g', d', by rw [List.foldl_cons, h', h]; rfl⟩

/-- The command of a held record is no longer pending; beside it only the staging transfer and the device-wide registers change. -/
theorem freeHeld_frame (s : State) (h : Nat × Event) :
    ∃ g d, freeHeld s h = { s with pendings := s.pendings.filter (fun p => !heldOf h p), staging := g, dev := d } := by
  obtain ⟨g, d, hf⟩ := foldl_endPending_frame (s.pendings.filter (heldOf h)) s
  exact ⟨g, d, by rw [freeHeld, hf, foldl_erase_filter]⟩

theorem foldl_freeHeld_frame (l : List (Nat × Event)) (s : State) :
    ∃ e g d, l.foldl freeHeld s = { s with pendings := e, staging := g, dev := d } ∧ ∀ x, x ∈ e ↔ x ∈ s.pendings ∧ ∀ h ∈ l, heldOf h x = false := by
  induction l generalizing s with
  | nil => exact ⟨_, _, _, rfl, by simp⟩
  | cons h r ih =>
    obtain ⟨g, d, hf⟩ := freeHeld_frame s h
    obtain ⟨e', g', d', hf', hm⟩ := ih (freeHeld s h)
    refine ⟨e', g', d', by rw [List.foldl_cons, hf', hf], fun x => ?_⟩
    rw [hm, hf]
    simp [and_assoc]

/-! ### One page -/

/-- A page whose memory is canonical and that holds COMPLETIONs back only where its event queue is on. -/
def Page.Sound (p : Page) : Prop := p.mem.wf = true ∧ p.heldOnlyEnabled

theorem Page.sound_default : Page.Sound {} := ⟨Memory.wf_nil, fun _ => rfl⟩

theorem Page.Sound.putEvent {p : Page} (h : p.Sound) (e : Event) : (p.putEvent e).Sound := ⟨mwriteN_wf _ _ h.1, h.2⟩

theorem Page.Sound.flushOverflow {p : Page} (h : p.Sound) (t : Nat) : (p.flushOverflow t).Sound := by
  unfold Page.flushOverflow
  split
  · exact h.putEvent _
  · exact h

theorem Page.flushOverflow_evqEnable (p : Page) (t : Nat) : (p.flushOverflow t).evqEnable = p.evqEnable := by
  unfold Page.flushOverflow
  split <;> rfl

theorem Page.flushOverflow_of_dropped {p : Page} (h : p.dropped = 0) (t : Nat) : p.flushOverflow t = p := by
  simp [Page.flushOverflow, h]

/-- Records may be held on a page whose queue is on. -/
theorem Page.Sound.hold {p : Page} (h : p.Sound) (hon : p.evqEnable = true) (l : List (Nat × Event)) : Page.Sound { p with held := l } :=
  ⟨h.1, fun hoff => absurd hoff (by simp [hon])⟩

theorem Page.Sound.doorbell {p : Page} (h : p.Sound) (v : BitVec 16) (b : BitVec 32) : (p.doorbell v b).Sound := by
  unfold Page.doorbell
  split <;> exact h

/-- A page after a write of EVQ_ENABLE. -/
def Page.setEnable (p : Page) (on : Bool) : Page := { p with evqEnable := on, held := if on then p.held else [] }

theorem Page.Sound.setEnable {p : Page} (h : p.Sound) (on : Bool) : (p.setEnable on).Sound :=
  ⟨h.1, fun hoff => by simp [Page.setEnable, show on = false from hoff]⟩

/-! ### Every page -/

/-- Every page is sound. -/
def State.PagesSound (s : State) : Prop := ∀ e ∈ s.pages, e.2.Sound

theorem tget?_mem {α : Type} {t : Tab α} {a : Nat} {x : α} (h : tget? t a = some x) : (a, x) ∈ t := by
  induction t with
  | nil => cases h
  | cons e r ih =>
    obtain ⟨k, v⟩ := e
    simp only [tget?] at h
    split at h
    · cases h
      subst_vars
      exact List.mem_cons_self
    · exact List.mem_cons_of_mem _ (ih h)

theorem State.PagesSound.page {s : State} (h : s.PagesSound) (m : Nat) : (s.page m).Sound := by
  unfold State.page tgetD
  cases hm : tget? s.pages m with
  | none => exact Page.sound_default
  | some p => exact h _ (tget?_mem hm)

theorem State.PagesSound.updPage {s : State} (h : s.PagesSound) {m : Nat} {f : Page → Page} (hf : (f (s.page m)).Sound) : (s.updPage m f).PagesSound := by
  intro e he
  rcases mem_tput he with he | he
  · rw [he]
    exact hf
  · exact h e he

theorem State.PagesSound.of_pages {s t : State} (h : s.PagesSound) (hp : t.pages = s.pages) : t.PagesSound := by
  unfold State.PagesSound
  rw [hp]
  exact h

theorem State.PagesSound.sendEvents {s : State} (h : s.PagesSound) (m : Nat) (i : BitVec 16) : (sendEvents s m i).PagesSound := by
  obtain ⟨x, hx⟩ := sendEvents_frame s m i
  exact h.of_pages (by rw [hx])

theorem State.PagesSound.freeHeld {s : State} (h : s.PagesSound) (x : Nat × Event) : (freeHeld s x).PagesSound := by
  obtain ⟨g, d, hx⟩ := freeHeld_frame s x
  exact h.of_pages (by rw [hx])

theorem page_freeHeld (s : State) (x : Nat × Event) (m : Nat) : (Machine.freeHeld s x).page m = s.page m := by
  obtain ⟨g, d, hx⟩ := freeHeld_frame s x
  rw [hx]
  rfl

theorem State.PagesSound.flushHeld {s : State} (h : s.PagesSound) {m : Nat} (hon : (s.page m).evqEnable = true) (l : List (Nat × Event)) :
    (flushHeld s m l).PagesSound := by
  induction l generalizing s with
  | nil => exact h.updPage ((h.page m).hold hon _)
  | cons x r ih =>
    unfold Machine.flushHeld
    split
    · refine ih ((h.updPage ((h.page m).putEvent x.2)).freeHeld x) ?_
      rw [page_freeHeld, State.updPage_page]
      exact hon
    · exact h.updPage ((h.page m).hold hon _)

theorem State.PagesSound.drainEvents {s : State} (h : s.PagesSound) (m : Nat) : (drainEvents s m).PagesSound := by
  unfold Machine.drainEvents
  split
  · next hon =>
    refine ((h.updPage ((h.page m).flushOverflow s.ct)).flushHeld ?_ _).sendEvents _ _
    rw [State.updPage_page]
    exact (Page.flushOverflow_evqEnable _ _).trans hon
  · exact h

/-- EVQ_ENABLE is set on the page; where it is cleared, the commands of held COMPLETIONs are free. -/
theorem setEvqEnable_eq (s : State) (m : Nat) (on : Bool) :
    setEvqEnable s m on = (if on then s.updPage m (·.setEnable on) else (s.page m).held.foldl freeHeld (s.updPage m (·.setEnable on))) := rfl

theorem State.PagesSound.setEvqEnable {s : State} (h : s.PagesSound) (m : Nat) (on : Bool) : (setEvqEnable s m on).PagesSound := by
  have hset := h.updPage (f := (·.setEnable on)) ((h.page m).setEnable on)
  rw [setEvqEnable_eq]
  split
  · exact hset
  · obtain ⟨e, g, d, hf, -⟩ := foldl_freeHeld_frame (s.page m).held (s.updPage m (·.setEnable on))
    exact hset.of_pages (by rw [hf])

/-! ### What register writes leave alone -/

theorem flushHeld_frame (l : List (Nat × Event)) (s : State) (m : Nat) :
    ∃ p e g d, flushHeld s m l = { s with pages := p, pendings := e, staging := g, dev := d } := by
  induction l generalizing s with
  | nil => exact ⟨_, _, _, _, rfl⟩
  | cons x r ih =>
    unfold flushHeld
    split
    · obtain ⟨g, d, hx⟩ := freeHeld_frame (s.updPage m (·.putEvent x.2)) x
      obtain ⟨p', e', g', d', hr⟩ := ih (freeHeld (s.updPage m (·.putEvent x.2)) x)
      exact ⟨p', e', g', d', by rw [hr, hx]; rfl⟩
    · exact ⟨_, _, _, _, rfl⟩

/-- Event space that returns touches pages, queue pairs, pending commands, the staging transfer and the device-wide registers alone. -/
theorem drainEvents_frame (s : State) (m : Nat) :
    ∃ p n e g d, drainEvents s m = { s with pages := p, qps := n, pendings := e, staging := g, dev := d } := by
  unfold drainEvents
  split
  · dsimp only
    obtain ⟨p, e, g, d, hf⟩ := flushHeld_frame ((s.updPage m (·.flushOverflow s.ct)).page m).held (s.updPage m (·.flushOverflow s.ct)) m
    obtain ⟨x, hx⟩ := sendEvents_frame (flushHeld (s.updPage m (·.flushOverflow s.ct)) m ((s.updPage m (·.flushOverflow s.ct)).page m).held) m (s.page m).evqPi
    exact ⟨p, x, e, g, d, by rw [hx, hf]; rfl⟩
  · exact ⟨_, _, _, _, _, rfl⟩

theorem setEvqEnable_frame (s : State) (m : Nat) (on : Bool) :
    ∃ p e g d, setEvqEnable s m on = { s with pages := p, pendings := e, staging := g, dev := d } := by
  rw [setEvqEnable_eq]
  split
  · exact ⟨_, _, _, _, rfl⟩
  · obtain ⟨e, g, d, hf, -⟩ := foldl_freeHeld_frame (s.page m).held (s.updPage m (·.setEnable on))
    exact ⟨_, e, g, d, by rw [hf]; rfl⟩

/-- An action on a page register: it keeps sound pages sound, and touches neither the pool nor an engine nor the queue. -/
structure PageAction (act : State → State) : Prop where
  sound : ∀ s : State, s.PagesSound → (act s).PagesSound
  pool : ∀ s, (act s).pool = s.pool
  engines : ∀ s, (act s).engines = s.engines
  pending : ∀ s, (act s).pending = s.pending

theorem pageAction_updPage {m : Nat} {f : Page → Page} (hf : ∀ p : Page, p.Sound → (f p).Sound) : PageAction (·.updPage m f) :=
  ⟨fun _ h => h.updPage (hf _ (h.page m)), fun _ => rfl, fun _ => rfl, fun _ => rfl⟩

theorem PageAction.comp {f g : State → State} (hf : PageAction f) (hg : PageAction g) : PageAction (fun s => f (g s)) :=
  ⟨fun s h => hf.sound _ (hg.sound s h), fun s => by rw [hf.pool, hg.pool], fun s => by rw [hf.engines, hg.engines], fun s => by rw [hf.pending, hg.pending]⟩

theorem pageAction_id : PageAction (fun s => s) := ⟨fun _ h => h, fun _ => rfl, fun _ => rfl, fun _ => rfl⟩

theorem pageAction_drainEvents (m : Nat) : PageAction (drainEvents · m) := by
  refine ⟨fun s h => h.drainEvents m, fun s => ?_, fun s => ?_, fun s => ?_⟩ <;> obtain ⟨p, n, e, g, d, hf⟩ := drainEvents_frame s m <;> rw [hf]

theorem pageAction_setEvqEnable (m : Nat) (on : Bool) : PageAction (setEvqEnable · m on) := by
  refine ⟨fun s h => h.setEvqEnable m on, fun s => ?_, fun s => ?_, fun s => ?_⟩ <;> obtain ⟨p, e, g, d, hf⟩ := setEvqEnable_frame s m on <;> rw [hf]

theorem pageAction_latchTimeHi : PageAction latchTimeHi := ⟨fun _ h => h, fun _ => rfl, fun _ => rfl, fun _ => rfl⟩

/-- A write through a path acts or does nothing, and both are actions on a page. -/
theorem pageAction_of_pageWrite {m : Nat} {p : Path} {s t : State} {act : State → State} (h : pageWrite m p s act = .next t) (hact : PageAction act) :
    ∃ f, PageAction f ∧ t = f s := by
  unfold pageWrite at h
  cases h
  split
  · exact ⟨act, hact, rfl⟩
  · exact ⟨_, pageAction_id, rfl⟩

/-- Every command on a page's registers acts on it alone. -/
theorem pageAction_of_onPage {c : Instr} {s t : State} (hc : onPage c = true) (h : exec c s = .next t) : ∃ f, PageAction f ∧ t = f s := by
  cases c
  case reqPiWrite m p v => exact pageAction_of_pageWrite (act := (·.updPage m (·.doorbell v (pathBinding p)))) h (pageAction_updPage fun _ hp => hp.doorbell v _)
  case rspCiWrite m p v => exact pageAction_of_pageWrite (act := (·.updPage m (·.consume v))) h (pageAction_updPage fun _ hp => hp)
  case evqCiWrite m p v =>
    exact pageAction_of_pageWrite (act := fun s => drainEvents (s.updPage m (fun g => { g with evqCi := v })) m) h
      ((pageAction_drainEvents m).comp (pageAction_updPage fun _ hp => hp))
  case evqEnableWrite m p v => exact pageAction_of_pageWrite (act := (setEvqEnable · m (bit v.toNat 0))) h (pageAction_setEvqEnable m _)
  case badDoorbellClear m p b => exact pageAction_of_pageWrite (act := (·.updPage m (·.clearBadDoorbell b))) h (pageAction_updPage fun _ hp => hp)
  case evqOverflowClear m p b => exact pageAction_of_pageWrite (act := (·.updPage m (·.clearOverflow b))) h (pageAction_updPage fun _ hp => hp)
  case clusterTimeLoRead p =>
    change Host.Outcome.next (if identityReached s p then latchTimeHi s else s) = .next t at h
    cases h
    split
    · exact ⟨_, pageAction_latchTimeHi, rfl⟩
    · exact ⟨_, pageAction_id, rfl⟩
  all_goals cases hc

/-- Settles O51: the register writes are actions on a page, which keep every page sound and touch no other memory. -/
theorem pageStepsKeepMemories : Obligations.PageStepsKeepMemories := by
  unfold Obligations.PageStepsKeepMemories
  intro s t c r hq hc ⟨hpool, hmem, heng⟩ hheld h
  rw [step, hq] at h
  obtain ⟨f, hf, rfl⟩ := pageAction_of_onPage hc h
  have hsound := hf.sound { s with pending := r } fun e he => ⟨hmem e he, hheld e he⟩
  refine ⟨⟨?_, fun e he => (hsound e he).1, ?_⟩, fun e he => (hsound e he).2, hf.pending _⟩
  · rw [hf.pool]
    exact hpool
  · rw [hf.engines]
    exact heng

end Sys2Proof.Machine
end

