-- ==== Sys2Proof/Proofs/PageWrites.lean ====
section
/-!
PROOF. What a write of a page's register does where its path reaches the page, and that it does nothing where it does not (02 R31
to R34, R41; 00 R11).
-/

namespace Sys2Proof.Machine

open Sys2Proof

/-- A command whose next state meets the postcondition completes. -/
theorem completes_of_exec {i : Instr} {s t : State} {P : State → Prop} (h : exec i s = .next t) (hp : P t) : Completes i s P := ⟨t, h, hp⟩

/-- A write through a path that reaches the page acts. -/
theorem pageWrite_reached {m : Nat} {p : Path} {s : State} (h : pathAllows s p m = true) (act : State → State) : pageWrite m p s act = .next (act s) := by
  simp [pageWrite, h]

/-! ### Doorbells and consumed responses -/

theorem Page.length_slotRanges (p : Page) (b : BitVec 32) (n : Nat) (i : BitVec 16) : (p.slotRanges b n i).length = n := by
  induction n generalizing i with
  | zero => rfl
  | succ n ih => simp [slotRanges, ih]

theorem Page.doorbell_ok {p : Page} {v : BitVec 16} (b : BitVec 32) (h1 : (v - p.reqPi).toNat ≤ 256) (h2 : (v - p.rspCi).toNat ≤ 256) :
    p.doorbell v b = { p with reqPi := v, ranges := p.ranges ++ p.slotRanges b (v - p.reqPi).toNat p.reqPi } :=
  if_pos (by simp only [doorbellOk, h1, h2, decide_true, Bool.and_self])

theorem Page.doorbell_bad {p : Page} {v : BitVec 16} (b : BitVec 32) (h : 256 < (v - p.reqPi).toNat ∨ 256 < (v - p.rspCi).toNat) :
    p.doorbell v b = { p with badDoorbell := true, badDoorbellCnt := p.badDoorbellCnt + 1 } :=
  if_neg (by simp only [doorbellOk, Bool.and_eq_true, decide_eq_true_eq, not_and_or, not_le]; exact h)

theorem Page.mem_ranges_consume (p : Page) (v : BitVec 16) (r : Range) : r ∈ (p.consume v).ranges ↔ r ∈ p.ranges ∧ passed v r.index = false := by
  simp [consume]

/-! ### The event queue -/

theorem bit_zero_eq_getLsbD (v : BitVec 32) : bit v.toNat 0 = v.getLsbD 0 := by
  simp only [bit, BitVec.getLsbD, Nat.pow_zero, Nat.div_one, Nat.testBit_zero, beq_eq_decide]

/-- Where nothing is held and nothing was dropped, the space that returns is for later events. -/
theorem drainEvents_of_quiet {s : State} {m : Nat} (hheld : (s.page m).held = []) (hdrop : (s.page m).dropped = 0) :
    ((drainEvents s m).page m).evqCi = (s.page m).evqCi ∧ ((drainEvents s m).page m).evqPi = (s.page m).evqPi ∧ (drainEvents s m).pendings = s.pendings := by
  unfold drainEvents
  split
  · have hflush : flushHeld (s.updPage m (·.flushOverflow s.ct)) m ((s.updPage m (·.flushOverflow s.ct)).page m).held
        = (s.updPage m (·.flushOverflow s.ct)).updPage m (fun p => { p with held := [] }) := by
      simp only [State.updPage_page, Page.flushOverflow_of_dropped hdrop, hheld, flushHeld]
    dsimp only
    rw [hflush]
    obtain ⟨x, hx⟩ := sendEvents_frame ((s.updPage m (·.flushOverflow s.ct)).updPage m (fun p => { p with held := [] })) m (s.page m).evqPi
    have hpage : (sendEvents ((s.updPage m (·.flushOverflow s.ct)).updPage m (fun p => { p with held := [] })) m (s.page m).evqPi).page m
        = { s.page m with held := [] } := by
      rw [hx]
      change ((s.updPage m (·.flushOverflow s.ct)).updPage m (fun p => { p with held := [] })).page m = _
      rw [State.updPage_page, State.updPage_page, Page.flushOverflow_of_dropped hdrop]
    exact ⟨by rw [hpage], by rw [hpage], by rw [hx]; rfl⟩
  · exact ⟨rfl, rfl, rfl⟩

theorem setEvqEnable_page (s : State) (m : Nat) (on : Bool) : (setEvqEnable s m on).page m = (s.page m).setEnable on := by
  rw [setEvqEnable_eq]
  split
  · rw [State.updPage_page]
  · obtain ⟨e, g, d, hf, -⟩ := foldl_freeHeld_frame (s.page m).held (s.updPage m (·.setEnable on))
    rw [hf]
    exact State.updPage_page s m (·.setEnable on)

/-- Clearing EVQ_ENABLE frees the commands whose COMPLETIONs were held. -/
theorem mem_pendings_setEvqEnable_off (s : State) (m : Nat) (x : Pending) :
    x ∈ (setEvqEnable s m false).pendings ↔ x ∈ s.pendings ∧ ∀ e ∈ (s.page m).held, heldOf e x = false := by
  obtain ⟨e, g, d, hf, hm⟩ := foldl_freeHeld_frame (s.page m).held (s.updPage m (·.setEnable false))
  rw [setEvqEnable_eq, if_neg Bool.false_ne_true, hf]
  exact hm x

/-! ### CSR space -/

theorem csrWrite_of_writable {s : State} {p : Path} {a : Nat} {b : Bytes} (h : ∀ k < b.length / 4, csrWritable s p (csrPlace (a + 4 * k)) = true) :
    csrWrite s p a b = (true, csrWritePages s p 2 a b) :=
  if_pos (List.all_eq_true.mpr fun k hk => h k (List.mem_range.mp hk))

theorem csrRead_state_of_readable {s : State} {p : Path} {a n : Nat} (h : ∀ k < n / 4, csrReadable s p (csrPlace (a + 4 * k)) = true) :
    (csrRead s p a n).2 = if a ≤ 0x30010 ∧ 0x30010 < a + n then latchTimeHi s else s := by
  have hall : (List.range (n / 4)).all (fun k => csrReadable s p (csrPlace (a + 4 * k))) = true := List.all_eq_true.mpr fun k hk => h k (List.mem_range.mp hk)
  simp only [csrRead, hall, Bool.not_true, Bool.false_eq_true, if_false, Bool.and_eq_true, decide_eq_true_eq]

/-! ### The rows -/

section
variable {m : Fin 1029} {p : Path} {s : State}

theorem exec_reqPiWrite (h : pathAllows s p m = true) (v : BitVec 16) :
    exec (.reqPiWrite m p v) s = .next (s.updPage m (·.doorbell v (pathBinding p))) :=
  pageWrite_reached h (·.updPage m (·.doorbell v (pathBinding p)))

theorem exec_rspCiWrite (h : pathAllows s p m = true) (v : BitVec 16) : exec (.rspCiWrite m p v) s = .next (s.updPage m (·.consume v)) :=
  pageWrite_reached h (·.updPage m (·.consume v))

theorem exec_evqCiWrite (h : pathAllows s p m = true) (v : BitVec 16) :
    exec (.evqCiWrite m p v) s = .next (drainEvents (s.updPage m (fun g => { g with evqCi := v })) m) :=
  pageWrite_reached h (fun s => drainEvents (s.updPage m (fun g => { g with evqCi := v })) m)

theorem exec_evqEnableWrite (h : pathAllows s p m = true) (v : BitVec 32) : exec (.evqEnableWrite m p v) s = .next (setEvqEnable s m (bit v.toNat 0)) :=
  pageWrite_reached h (setEvqEnable · m (bit v.toNat 0))

theorem exec_badDoorbellClear (h : pathAllows s p m = true) (b : Bool) : exec (.badDoorbellClear m p b) s = .next (s.updPage m (·.clearBadDoorbell b)) :=
  pageWrite_reached h (·.updPage m (·.clearBadDoorbell b))

theorem exec_evqOverflowClear (h : pathAllows s p m = true) (b : Bool) : exec (.evqOverflowClear m p b) s = .next (s.updPage m (·.clearOverflow b)) :=
  pageWrite_reached h (·.updPage m (·.clearOverflow b))

end

/-! ### The obligations -/

/-- Settles O29: each write through a path that reaches the page is its action on the page, whose laws stand above. -/
theorem pageRegistersComplete : Obligations.PageRegistersComplete := by
  unfold Obligations.PageRegistersComplete
  refine ⟨fun m p v s h h1 h2 => completes_of_exec (exec_reqPiWrite h v) ?rung, fun m p v s h h1 => completes_of_exec (exec_reqPiWrite h v) ?badRing,
    fun m p v s h => completes_of_exec (exec_rspCiWrite h v) ?consumed, fun m p v s h => exec_evqCiWrite h v,
    fun m p v s h hheld hdrop => completes_of_exec (exec_evqCiWrite h v) ?quiet, fun m p v s h => completes_of_exec (exec_evqEnableWrite h v) ?enabled,
    fun m p b s h => completes_of_exec (exec_badDoorbellClear h b) ?doorbellFlag, fun m p b s h => completes_of_exec (exec_evqOverflowClear h b) ?overflowFlag,
    fun p s h => ⟨latchTimeHi s, ?reads, rfl⟩, fun p a d s hc hr h => ?writes, fun p a n s hc hr h => ?csrReads⟩
  case rung =>
    rw [State.updPage_page, Page.doorbell_ok _ h1 h2]
    exact ⟨rfl, rfl, by simp [Page.length_slotRanges], fun k hk => State.updPage_page_other s _ hk⟩
  case badRing =>
    rw [State.updPage_page, Page.doorbell_bad _ h1]
    exact ⟨rfl, rfl, rfl⟩
  case consumed =>
    rw [State.updPage_page]
    exact ⟨rfl, Page.mem_ranges_consume _ v⟩
  case quiet =>
    obtain ⟨hci, hpi, hpend⟩ := drainEvents_of_quiet (s := s.updPage m (fun g => { g with evqCi := v })) (m := m)
      (by rw [State.updPage_page]; exact hheld) (by rw [State.updPage_page]; exact hdrop)
    rw [State.updPage_page] at hci hpi
    exact ⟨hci, hpi, hpend⟩
  case enabled =>
    rw [setEvqEnable_page, bit_zero_eq_getLsbD]
    refine ⟨rfl, fun hoff => ?_⟩
    rw [hoff]
    exact ⟨rfl, mem_pendings_setEvqEnable_off s m⟩
  case doorbellFlag =>
    rw [State.updPage_page]
    cases b <;> simp [Page.clearBadDoorbell, w1c]
  case overflowFlag =>
    rw [State.updPage_page]
    cases b <;> simp [Page.clearOverflow, w1c]
  case reads =>
    change Host.Outcome.next (if identityReached s p then latchTimeHi s else s) = _
    rw [if_pos h]
  case writes =>
    change Host.Outcome.next (if s.clocked && csrRangeOk a.toNat d.length then (csrWrite s p a.toNat d).2 else s) = _
    rw [csrWrite_of_writable h, hc, hr]
    rfl
  case csrReads =>
    change Host.Outcome.next (if s.clocked && csrRangeOk a.toNat n then (csrRead s p a.toNat n).2 else s) = _
    rw [csrRead_state_of_readable h, hc, hr]
    rfl

/-- Settles O30: every one of these commands is a `pageWrite`. -/
theorem pagesOutOfReachKeep : Obligations.PagesOutOfReachKeep := by
  unfold Obligations.PagesOutOfReachKeep
  intro m p v w b s h i hi
  simp only [List.mem_cons, List.not_mem_nil, or_false] at hi
  rcases hi with rfl | rfl | rfl | rfl | rfl | rfl <;> exact congrArg Host.Outcome.next (if_neg (Bool.not_eq_true _ ▸ h))

end Sys2Proof.Machine
end

