-- ==== Sys2Proof/Proofs/StepAndReset.lean ====
section
/-!
PROOF. The rules of the whole block: what a step runs, that time passes on an empty queue (01 R22; log entry 2), and what holds after
a cold reset (01 R24; 03 R76; 07 R162; 16 R363).
-/

namespace Sys2Proof.Machine

open Sys2Proof

/-- While the functional clocks stand, time touches uptime alone. -/
theorem advance_of_not_clocked {s : State} (h : s.clocked = false) (t : Nat) : advance s t = { s with now := max s.now t } := by
  unfold advance
  rw [if_neg (by simp [h])]

/-- Settles O1: it is the equation of `step` on a queue that is not empty. -/
theorem stepRunsFrontCommand : Obligations.StepRunsFrontCommand := fun _ _ _ => rfl

/-- Settles O2: the step on an empty queue is `idle`, which advances the clock by one nanosecond. -/
theorem emptyQueueLetsTimePass : Obligations.EmptyQueueLetsTimePass := by
  unfold Obligations.EmptyQueueLetsTimePass
  intro s hq
  have hstep : step s = .next (advance s (s.now + 1)) := by rw [step, hq, idle]
  have hnow : max s.now (s.now + 1) = s.now + 1 := by omega
  by_cases hc : s.clocked = true
  · obtain ⟨k, hk⟩ := advance_frame s (s.now + 1)
    exact ⟨k, by rw [hstep, hk, hnow], fun h => absurd h (by simp [hc])⟩
  · exact ⟨s.clock, by rw [hstep, advance_of_not_clocked (by simpa using hc), hnow], fun _ => rfl⟩

/-- Settles O49: after reset every table is empty, so every accessor reads its default. -/
theorem resetValues : Obligations.ResetValues := by
  unfold Obligations.ResetValues
  refine ⟨rfl, rfl, rfl, rfl, rfl, rfl, rfl, rfl, fun _ => ⟨rfl, rfl⟩, fun _ => rfl, fun i h => ?noSession, fun _ => ⟨rfl, rfl⟩, fun _ => rfl⟩
  case noSession =>
    have hst : (State.reset.session i).st = .unassigned := rfl
    rw [hst] at h
    cases h

/-- Settles O50: the pool is empty and no page and no engine is listed. -/
theorem resetMemoriesCanonical : Obligations.ResetMemoriesCanonical := by
  unfold Obligations.ResetMemoriesCanonical
  exact ⟨⟨Memory.wf_nil, List.forall_mem_nil _, List.forall_mem_nil _⟩, List.forall_mem_nil _⟩

end Sys2Proof.Machine
end

