-- ==== Sys2Proof/Proofs/Responses.lean ====
section
/-!
PROOF. What a response leaves on its page (02 R34, R35, R37, R41), what a tenant's forbidden request leaves of the part (02 R46, R47),
and what a host's write can change of a page (02 R29). Beside the response itself a page changes in its event queue alone.
-/

namespace Sys2Proof.Machine

open Sys2Proof

/-! ### Lengths -/

@[simp] theorem length_natLe (n k : Nat) : (natLe n k).length = k := by
  induction k generalizing n with
  | zero => rfl
  | succ k ih => simp [natLe, ih]

@[simp] theorem length_padTo (b : Bytes) (n : Nat) : (padTo b n).length = n := by
  simp only [padTo, List.length_take, List.length_append, List.length_replicate]
  omega

@[simp] theorem Event.length_bytes (e : Event) : e.bytes.length = 32 := by
  simp [bytes]

/-- A prefix of a write reads back. -/
theorem mreadN_mwriteN_prefix (m : Memory) (a : Nat) (x y : Bytes) : mreadN (mwriteN m a (x ++ y)) a x.length = x := by
  rw [mreadN_eq_map]
  apply List.ext_getElem
  · simp
  · intro i h1 h2
    have hi : i < (x ++ y).length := by simp; omega
    simp only [List.getElem_map, List.getElem_range]
    rw [mread_mwriteN_same m _ hi, List.getElem_append_left h2]

@[simp] theorem length_mreadN (m : Memory) (a n : Nat) : (mreadN m a n).length = n := by
  simp [mreadN_eq_map]

theorem mreadN_add (m : Memory) (a k n : Nat) : mreadN m a (k + n) = mreadN m a k ++ mreadN m (a + k) n := by
  rw [mreadN_eq_map, mreadN_eq_map, mreadN_eq_map, List.range_add, List.map_append, List.map_map]
  simp [Function.comp_def, Nat.add_assoc]

theorem padTo_append {x : Bytes} (y : Bytes) {n : Nat} (h : x.length ≤ n) : ∃ z, padTo (x ++ y) n = x ++ z := by
  refine ⟨((y ++ List.replicate (n - (x ++ y).length) 0).take (n - x.length)), ?_⟩
  rw [padTo, List.append_assoc, List.take_append, List.take_of_length_le h]

/-! ### The event queue of a page -/

/-- `q` is page `p` but for its event queue: its registers, what is held or dropped, and its bytes 0x9000 to 0xAFFF. -/
structure Page.EventsOnly (p q : Page) : Prop where
  reqPi : q.reqPi = p.reqPi
  reqCi : q.reqCi = p.reqCi
  rspPi : q.rspPi = p.rspPi
  rspCi : q.rspCi = p.rspCi
  ranges : q.ranges = p.ranges
  bytes : ∀ b, b < 0x9000 ∨ 0xB000 ≤ b → mread q.mem b = mread p.mem b

theorem Page.EventsOnly.refl (p : Page) : p.EventsOnly p := ⟨rfl, rfl, rfl, rfl, rfl, fun _ _ => rfl⟩

theorem Page.EventsOnly.trans {p q r : Page} (h : p.EventsOnly q) (h' : q.EventsOnly r) : p.EventsOnly r :=
  ⟨h'.reqPi.trans h.reqPi, h'.reqCi.trans h.reqCi, h'.rspPi.trans h.rspPi, h'.rspCi.trans h.rspCi, h'.ranges.trans h.ranges,
    fun b hb => (h'.bytes b hb).trans (h.bytes b hb)⟩

theorem Page.EventsOnly.readN {p q : Page} (h : p.EventsOnly q) {a n : Nat} (ha : a + n ≤ 0x9000 ∨ 0xB000 ≤ a) : mreadN q.mem a n = mreadN p.mem a n := by
  rw [mreadN_eq_map, mreadN_eq_map]
  refine List.map_congr_left fun i hi => h.bytes _ ?_
  have := List.mem_range.mp hi
  omega

theorem Page.eventsOnly_putEvent (p : Page) (e : Event) : p.EventsOnly (p.putEvent e) := by
  refine ⟨rfl, rfl, rfl, rfl, rfl, fun b hb => mread_mwriteN_other _ _ ?_⟩
  rw [Event.length_bytes]
  omega

theorem Page.eventsOnly_flushOverflow (p : Page) (t : Nat) : p.EventsOnly (p.flushOverflow t) := by
  unfold Page.flushOverflow
  split
  · exact (p.eventsOnly_putEvent (p.overflowRec t)).trans ⟨rfl, rfl, rfl, rfl, rfl, fun _ _ => rfl⟩
  · exact Page.EventsOnly.refl p

theorem Page.eventsOnly_held (p : Page) (l : List (Nat × Event)) : p.EventsOnly { p with held := l } := ⟨rfl, rfl, rfl, rfl, rfl, fun _ _ => rfl⟩

theorem page_of_pages {s t : State} (h : t.pages = s.pages) (k : Nat) : t.page k = s.page k := by rw [State.page, h, State.page]

@[simp] theorem page_bump (s : State) (g : Group) (i idx n k : Nat) : (bump s g i idx n).page k = s.page k := by
  obtain ⟨c, hc⟩ := bump_frame s g i idx n
  exact page_of_pages (by rw [hc]) k

theorem page_sendEvents (s : State) (m : Nat) (i : BitVec 16) (k : Nat) : (sendEvents s m i).page k = s.page k := by
  obtain ⟨x, hx⟩ := sendEvents_frame s m i
  rw [hx]
  rfl

theorem page_dropPending (s : State) (p : Pending) (k : Nat) : (dropPending s p).page k = s.page k := rfl

/-- A COMPLETION changes the event queue of its mailbox's page alone. -/
theorem page_postCompletion (s : State) (p : Pending) (st t : Nat) (d : Bytes) :
    (s.page p.mailbox).EventsOnly ((postCompletion s p st t d).page p.mailbox) ∧ ∀ k, k ≠ p.mailbox → (postCompletion s p st t d).page k = s.page k := by
  have hover := (s.page p.mailbox).eventsOnly_flushOverflow t
  unfold postCompletion
  dsimp only
  split
  · exact ⟨Page.EventsOnly.refl _, fun k _ => rfl⟩
  · split
    · refine ⟨?_, fun k hk => ?_⟩
      · rw [page_dropPending, page_sendEvents, State.updPage_page]
        exact hover.trans (Page.eventsOnly_putEvent _ _)
      · rw [page_dropPending, page_sendEvents, State.updPage_page_other s _ hk]
    · have hheld := hover.trans (Page.eventsOnly_held ((s.page p.mailbox).flushOverflow t)
        (((s.page p.mailbox).flushOverflow t).held ++ [(p.id, completionOf p st t d)]))
      split
      · exact ⟨by rw [State.updPage_page]; exact hheld, fun k hk => State.updPage_page_other s _ hk⟩
      · refine ⟨?_, fun k hk => ?_⟩
        · change (s.page p.mailbox).EventsOnly ((s.updPage p.mailbox (fun _ => _)).page p.mailbox)
          rw [State.updPage_page]
          exact hheld
        · change (s.updPage p.mailbox (fun _ => _)).page k = s.page k
          exact State.updPage_page_other s _ hk

/-! ### A response -/

/-- The 64 bytes of a response (02 R37). -/
def Req.responseBytes (q : Req) (st d : Nat) (r x : Bytes) : Bytes :=
  padTo (natLe st 2 ++ natLe q.tag.toNat 2 ++ natLe q.index.toNat 2 ++ natLe (x.take q.room).length 2 ++ natLe d 4 ++ r) 64

/-- A page with a response in its slot and its extended results in their place. -/
def Page.answered (p : Page) (q : Req) (st d : Nat) (r x : Bytes) : Page :=
  { p with mem := mwriteN (mwriteN p.mem (0xB000 + q.xargOff) (x.take q.room)) (0x5000 + 64 * (q.index.toNat % 256)) (q.responseBytes st d r x), rspPi := q.index + 1 }

theorem page_queueSend (s : State) (n : Nat) (b : Bytes) (i : Option (BitVec 16)) (k : Nat) : (queueSend s n b i).page k = s.page k := by
  obtain ⟨x, hx⟩ := queueSend_frame s n b i
  rw [hx]
  rfl

theorem page_respond (s : State) (q : Req) (st d : Nat) (r x : Bytes) :
    (respond s q st d r x).page q.m = (s.page q.m).answered q st d r x ∧ ∀ k, k ≠ q.m → (respond s q st d r x).page k = s.page k := by
  unfold respond
  dsimp only
  split
  · exact ⟨by rw [page_queueSend, State.updPage_page]; rfl, fun k hk => by rw [page_queueSend, State.updPage_page_other s _ hk]⟩
  · exact ⟨State.updPage_page s q.m _, fun k hk => State.updPage_page_other s _ hk⟩

/-- A response with its NOTIFY: the page with the answer, and at most its event queue beside it. -/
theorem page_closeWith {s : State} {q : Req} (hq : q.owes.mailbox = q.m) (st d : Nat) (r x : Bytes) :
    ((s.page q.m).answered q st d r x).EventsOnly ((closeWith s q st d r x).page q.m) ∧ ∀ k, k ≠ q.m → (closeWith s q st d r x).page k = s.page k := by
  obtain ⟨hown, hother⟩ := page_respond s q st d r x
  unfold closeWith notifyDone
  split
  · obtain ⟨hown', hother'⟩ := page_postCompletion (respond s q st d r x) q.owes st (respond s q st d r x).ct []
    rw [hq, hown] at hown'
    exact ⟨hown', fun k hk => by rw [hother' k (by rw [hq]; exact hk), hother k hk]⟩
  · exact ⟨by rw [hown]; exact Page.EventsOnly.refl _, hother⟩

/-- Response slots end where the event queue begins. -/
theorem responseSlot_le (i : BitVec 16) : 0x5000 + 64 * (i.toNat % 256) + 64 ≤ 0x9000 := by omega

theorem Req.length_responseBytes (q : Req) (st d : Nat) (r x : Bytes) : (q.responseBytes st d r x).length = 64 := length_padTo _ _

theorem Page.readN_answered_slot (p : Page) (q : Req) (st d : Nat) (r x : Bytes) :
    mreadN (p.answered q st d r x).mem (0x5000 + 64 * (q.index.toNat % 256)) 64 = q.responseBytes st d r x := by
  have h := mreadN_mwriteN (mwriteN p.mem (0xB000 + q.xargOff) (x.take q.room)) (0x5000 + 64 * (q.index.toNat % 256)) (q.responseBytes st d r x)
  rwa [Req.length_responseBytes] at h

/-- The first fields of a response as its slot reads back. -/
theorem Page.readN_answered_head {p : Page} {q : Req} {st d : Nat} {r x h t : Bytes} (hb : q.responseBytes st d r x = h ++ t) :
    mreadN (p.answered q st d r x).mem (0x5000 + 64 * (q.index.toNat % 256)) h.length = h := by
  unfold Page.answered
  dsimp only
  rw [hb]
  exact mreadN_mwriteN_prefix _ _ _ _

theorem Page.readN_answered_results (p : Page) (q : Req) (st d : Nat) (r x : Bytes) :
    mreadN (p.answered q st d r x).mem (0xB000 + q.xargOff) (x.take q.room).length = x.take q.room := by
  have hslot := responseSlot_le q.index
  unfold Page.answered
  dsimp only
  rw [mreadN_mwriteN_other _ _ (by rw [Req.length_responseBytes]; omega), mreadN_mwriteN]

theorem Page.read_answered_other (p : Page) (q : Req) (st d : Nat) (r x : Bytes) {b : Nat}
    (hslot : b < 0x5000 + 64 * (q.index.toNat % 256) ∨ 0x5000 + 64 * (q.index.toNat % 256) + 64 ≤ b)
    (hres : b < 0xB000 + q.xargOff ∨ 0xB000 + q.xargOff + (x.take q.room).length ≤ b) : mread (p.answered q st d r x).mem b = mread p.mem b := by
  unfold Page.answered
  dsimp only
  rw [mread_mwriteN_other _ _ (by rw [Req.length_responseBytes]; exact hslot), mread_mwriteN_other _ _ hres]

/-- Settles O53: a response leaves its page as `Page.answered` gives it, but for the event queue. -/
theorem responseStandsInItsSlot : Obligations.ResponseStandsInItsSlot := by
  unfold Obligations.ResponseStandsInItsSlot
  intro s q st d r x _ hq _
  obtain ⟨hev, hother⟩ := page_closeWith (s := s) hq st d r x
  have hslot := responseSlot_le q.index
  refine ⟨hev.rspPi, ?_, ?_, fun b hb hx hev' => ?_, hother, closeWith_frame s q st d r x⟩
  · rw [hev.readN (.inl hslot)]
    exact Page.readN_answered_slot ..
  · rw [hev.readN (.inr (by omega))]
    exact Page.readN_answered_results ..
  · rw [hev.bytes b hev']
    exact Page.read_answered_other _ _ _ _ _ _ hb hx

/-! ### Requests that get no further than a refusal -/

theorem page_takeUp_same (s : State) (q : Req) : (takeUp s q).page q.m = { s.page q.m with reqCi := (s.page q.m).reqCi + 1 } := by
  rw [takeUp, page_bump, State.updPage_page]
  rfl

theorem page_takeUp_other (s : State) (q : Req) {k : Nat} (h : k ≠ q.m) : (takeUp s q).page k = s.page k := by
  rw [takeUp, page_bump, State.updPage_page_other _ _ h]
  rfl

/-- What a request that is taken up and only answered leaves of the part: its answer, the turn and counts (02 R35, R37). -/
theorem takeUp_answered {w : State} {q : Req} (hq : q.owes.mailbox = q.m) (hci : (w.page q.m).reqCi = q.index) (st : Nat) :
    let t := closeWith (takeUp w q) q st 0 [] []
    (t.page q.m).rspPi = q.index + 1 ∧ (t.page q.m).reqCi = q.index + 1 ∧
      mreadN (t.page q.m).mem (0x5000 + 64 * (q.index.toNat % 256)) 4 = natLe st 2 ++ natLe q.tag.toNat 2 ∧ (∀ k, k ≠ q.m → t.page k = w.page k) ∧
      ∃ p n e k, t = { w with pages := p, qps := n, pendings := e, counters := k, lastServed := q.m, taken := w.taken + 1 } := by
  obtain ⟨hev, hother⟩ := page_closeWith (s := takeUp w q) hq st 0 [] []
  have hslot := responseSlot_le q.index
  refine ⟨hev.rspPi, ?_, ?_, fun k hk => by rw [hother k hk, page_takeUp_other w q hk], ?_⟩
  · rw [hev.reqCi, page_takeUp_same]
    change (w.page q.m).reqCi + 1 = q.index + 1
    rw [hci]
  · obtain ⟨z, hz⟩ := padTo_append (x := natLe st 2 ++ natLe q.tag.toNat 2) (natLe q.index.toNat 2 ++ natLe 0 2 ++ natLe 0 4) (n := 64) (by simp)
    have hhead := Page.readN_answered_head (p := (takeUp w q).page q.m) (q := q) (st := st) (d := 0) (r := []) (x := [])
      (h := natLe st 2 ++ natLe q.tag.toNat 2) (t := z) (by rw [← hz, Req.responseBytes]; simp)
    rw [hev.readN (.inl (by omega))]
    simpa using hhead
  · obtain ⟨g, n, e, hc⟩ := closeWith_frame (takeUp w q) q st 0 [] []
    obtain ⟨p, k, ht⟩ := takeUp_frame w q
    exact ⟨g, n, e, k, by rw [hc, ht]⟩

theorem headOf_m {s : State} {m : Nat} {q : Req} (h : headOf s m = some q) : q.m = m ∧ q.index = (s.page m).reqCi := by
  unfold headOf at h
  split at h
  · cases h
    exact ⟨rfl, rfl⟩
  · cases h

theorem partyOf_ctxMailbox {s : State} {q : Req} (h : 5 ≤ q.m) : partyOf s q = .tenant (q.m - 5) := by
  unfold partyOf
  split
  case h_6 => rfl
  all_goals omega

/-- Check 3 turns away a tenant whose commands do not include this one (02 R46, R47). -/
theorem authorise_tenant_denied {s : State} {c : Cmd} {q : Req} (hm : 5 ≤ q.m) (hc : c.issuers (.tenant (q.m - 5)) = false) (hmode : s.dev.mode = .inService) :
    authorise s c q = (none, s) := by
  have hlt : ¬ q.m < 5 := by omega
  simp [authorise, keyRemoved, hlt, partyOf_ctxMailbox hm, hc, hmode]

/-- Settles O60: check 3 ends the request before its body, so only taking it up and the answer touch the part. -/
theorem tenantsMayNotIssueRoleCommands : Obligations.TenantsMayNotIssueRoleCommands := by
  unfold Obligations.TenantsMayNotIssueRoleCommands
  intro c m s q hm _ hc hmode hq hop hform w hw hwmode _ hci
  obtain ⟨rfl, -⟩ := headOf_m hq
  have hrun : serve q.m c s = .next (closeWith (takeUp w { q with owes := owesOf c q }) { q with owes := owesOf c q } stDenied 0 [] []) := by
    have hdenied := authorise_tenant_denied (s := takeUp w { q with owes := owesOf c q }) (c := c) (q := { q with owes := owesOf c q }) hm hc (by simp [hwmode])
    simp only [serve, hq, hop, hform, beq_self_eq_true, Bool.and_self, if_true, answer, ← hw, hdenied, takeUp_mode, hwmode]
    rfl
  obtain ⟨hpi, hreq, hslot, hother, hframe⟩ := takeUp_answered (w := w) (q := { q with owes := owesOf c q }) rfl hci stDenied
  refine ⟨_, hrun, hpi, hreq, ?_, hother, hframe⟩
  exact (List.append_inj ((mreadN_add _ _ 2 2).symm.trans hslot) (by rw [length_natLe, length_mreadN])).1

end Sys2Proof.Machine
end

