-- ==== Sys2Proof/Proofs/HostWrites.lean ====
section
/-!
PROOF. A host's CSR write to a mailbox page (02 R29, R30): its bytes land in the request ring and the extended argument buffer alone,
and the registers that it covers then act on the event queue at most.
-/

namespace Sys2Proof.Machine

open Sys2Proof

/-! ### The bytes of the write -/

/-- Offsets of a page that a host writes as they stand (02 R29). -/
def pageWritable (off : Nat) : Prop := (0x1000 ≤ off ∧ off < 0x5000) ∨ (0xB000 ≤ off ∧ off < 0x10000)

/-- A byte reaches the memory of the page where it is writable, and nothing else of the page changes. -/
theorem pageByteWrite_eq (p : Page) (off : Nat) (b : Byte) :
    (pageWritable off ∧ pageByteWrite p off b = { p with mem := mwrite p.mem off b }) ∨ (¬ pageWritable off ∧ pageByteWrite p off b = p) := by
  unfold pageByteWrite pageWritable
  simp only [Bool.or_eq_true, Bool.and_eq_true, decide_eq_true_eq]
  split
  · next h => exact .inl ⟨h, rfl⟩
  · next h => exact .inr ⟨h, rfl⟩

theorem pageByteWrite_read_other (p : Page) {off a : Nat} (b : Byte) (h : a ≠ off ∨ ¬ pageWritable a) : mread (pageByteWrite p off b).mem a = mread p.mem a := by
  rcases pageByteWrite_eq p off b with ⟨hw, he⟩ | ⟨hw, he⟩ <;> rw [he]
  refine mread_mwrite_other _ _ ?_
  rcases h with h | h
  · exact h
  · exact fun heq => h (heq ▸ hw)

theorem pageByteWrite_read_same (p : Page) {off : Nat} (b : Byte) (h : pageWritable off) : mread (pageByteWrite p off b).mem off = b := by
  rcases pageByteWrite_eq p off b with ⟨hw, he⟩ | ⟨hw, he⟩
  · rw [he]
    exact mread_mwrite_same _ _ _
  · exact absurd h hw

theorem pageBytesWrite_read_other (p : Page) {off a : Nat} (b : Bytes) (h : a < off ∨ ¬ pageWritable a) : mread (pageBytesWrite p off b).mem a = mread p.mem a := by
  induction b generalizing p off with
  | nil => rfl
  | cons x r ih =>
    rw [pageBytesWrite, ih _ (h.imp_left (Nat.lt_succ_of_lt ·)), pageByteWrite_read_other p x (h.imp_left (fun h => by omega))]

theorem pageBytesWrite_read_same (p : Page) {off k : Nat} {b : Bytes} (hk : k < b.length) (h : pageWritable (off + k)) :
    mread (pageBytesWrite p off b).mem (off + k) = b.getD k 0 := by
  induction b generalizing p off k with
  | nil => exact absurd hk (Nat.not_lt_zero k)
  | cons x r ih =>
    rw [pageBytesWrite]
    cases k with
    | zero =>
      refine (pageBytesWrite_read_other _ _ (.inl (Nat.lt_succ_self off))).trans ?_
      exact pageByteWrite_read_same p x h
    | succ j =>
      have hoff : off + (j + 1) = off + 1 + j := by omega
      rw [hoff] at h ⊢
      exact ih _ (by simpa using hk) h

theorem pageBytesWrite_waits (p : Page) (off : Nat) (b : Bytes) : (pageBytesWrite p off b).held = p.held ∧ (pageBytesWrite p off b).dropped = p.dropped := by
  induction b generalizing p off with
  | nil => exact ⟨rfl, rfl⟩
  | cons x r ih =>
    rw [pageBytesWrite, (ih _ _).1, (ih _ _).2]
    rcases pageByteWrite_eq p off x with ⟨-, he⟩ | ⟨-, he⟩ <;> rw [he] <;> exact ⟨rfl, rfl⟩

/-! ### The registers that the write covers -/

/-- No event waits for space on the page. -/
def Page.Quiet (p : Page) : Prop := p.held = [] ∧ p.dropped = 0

/-- Beyond the event queue page `q` has the bytes of page `p`; it has all of them where no event waits, and then none waits on it either. -/
structure Page.BytesKept (p q : Page) : Prop where
  beyond : ∀ b, b < 0x9000 ∨ 0xB000 ≤ b → mread q.mem b = mread p.mem b
  quiet : p.Quiet → q.Quiet ∧ q.mem = p.mem

theorem Page.BytesKept.trans {p q r : Page} (h : p.BytesKept q) (h' : q.BytesKept r) : p.BytesKept r := by
  refine ⟨fun b hb => (h'.beyond b hb).trans (h.beyond b hb), fun hq => ?_⟩
  obtain ⟨hq', hm⟩ := h.quiet hq
  obtain ⟨hq'', hm'⟩ := h'.quiet hq'
  exact ⟨hq'', hm'.trans hm⟩

theorem Page.BytesKept.of_eq {p q : Page} (hm : q.mem = p.mem) (hq : p.Quiet → q.Quiet) : p.BytesKept q := ⟨fun _ _ => by rw [hm], fun h => ⟨hq h, hm⟩⟩

theorem Page.bytesKept_doorbell (p : Page) (v : BitVec 16) (b : BitVec 32) : p.BytesKept (p.doorbell v b) := by
  unfold Page.doorbell
  split <;> exact .of_eq rfl (fun h => h)

theorem Page.bytesKept_flushOverflow (p : Page) (t : Nat) : p.BytesKept (p.flushOverflow t) :=
  ⟨(p.eventsOnly_flushOverflow t).bytes, fun h => by rw [Page.flushOverflow_of_dropped h.2]; exact ⟨h, rfl⟩⟩

/-- Of `t` against `s`: page `m` keeps its bytes, and every other page is as it was. -/
structure PageKept (m : Nat) (s t : State) : Prop where
  own : (s.page m).BytesKept (t.page m)
  others : ∀ n, n ≠ m → t.page n = s.page n

theorem PageKept.refl (m : Nat) (s : State) : PageKept m s s := ⟨.of_eq rfl id, fun _ _ => rfl⟩

theorem PageKept.trans {m : Nat} {s t u : State} (h : PageKept m s t) (h' : PageKept m t u) : PageKept m s u :=
  ⟨h.own.trans h'.own, fun n hn => (h'.others n hn).trans (h.others n hn)⟩

theorem pageKept_updPage {m : Nat} (s : State) {f : Page → Page} (hf : (s.page m).BytesKept (f (s.page m))) : PageKept m s (s.updPage m f) :=
  ⟨by rw [State.updPage_page]; exact hf, fun _ hn => State.updPage_page_other s f hn⟩

theorem pageKept_of_pages {m : Nat} {s t : State} (h : t.pages = s.pages) : PageKept m s t :=
  ⟨by rw [page_of_pages h]; exact .of_eq rfl id, fun n _ => page_of_pages h n⟩

theorem pageKept_sendEvents (s : State) (m : Nat) (i : BitVec 16) : PageKept m s (sendEvents s m i) := by
  obtain ⟨x, hx⟩ := sendEvents_frame s m i
  exact pageKept_of_pages (by rw [hx])

theorem pageKept_freeHeld (s : State) (m : Nat) (h : Nat × Event) : PageKept m s (freeHeld s h) := by
  obtain ⟨g, d, hf⟩ := freeHeld_frame s h
  exact pageKept_of_pages (by rw [hf])

/-- Held records are written where some are held. -/
theorem pageKept_flushHeld (m : Nat) {s : State} {l : List (Nat × Event)} (hl : (s.page m).Quiet → l = []) : PageKept m s (flushHeld s m l) := by
  induction l generalizing s with
  | nil => exact pageKept_updPage s (.of_eq rfl fun h => ⟨rfl, h.2⟩)
  | cons h r ih =>
    have hbusy : ¬ (s.page m).Quiet := fun hq => List.cons_ne_nil h r (hl hq)
    unfold flushHeld
    split
    · have hput : PageKept m s (freeHeld (s.updPage m (·.putEvent h.2)) h) :=
        (pageKept_updPage s ⟨((s.page m).eventsOnly_putEvent h.2).bytes, fun hq => absurd hq hbusy⟩).trans (pageKept_freeHeld _ m h)
      refine hput.trans (ih fun hq => absurd ?_ hbusy)
      rw [page_freeHeld, State.updPage_page] at hq
      exact hq
    · exact pageKept_updPage s (.of_eq rfl fun hq => absurd hq hbusy)

theorem pageKept_drainEvents (s : State) (m : Nat) : PageKept m s (drainEvents s m) := by
  unfold drainEvents
  split
  · exact ((pageKept_updPage s ((s.page m).bytesKept_flushOverflow s.ct)).trans (pageKept_flushHeld m fun hq => hq.1)).trans (pageKept_sendEvents _ m _)
  · exact .refl m s

theorem pageKept_setEvqEnable (s : State) (m : Nat) (on : Bool) : PageKept m s (setEvqEnable s m on) := by
  have hset : PageKept m s (s.updPage m (·.setEnable on)) := pageKept_updPage s (.of_eq rfl fun h => ⟨by cases on <;> simp [Page.setEnable, h.1], h.2⟩)
  rw [setEvqEnable_eq]
  split
  · exact hset
  · obtain ⟨e, g, d, hf, -⟩ := foldl_freeHeld_frame (s.page m).held (s.updPage m (·.setEnable on))
    exact hset.trans (pageKept_of_pages (by rw [hf]))

theorem pageKept_onReg {m : Nat} (s : State) (v : Option Nat) {act : State → Nat → State} (h : ∀ s n, PageKept m s (act s n)) : PageKept m s (onReg s v act) := by
  unfold onReg
  split
  · exact h s _
  · exact .refl m s

theorem pageKept_ite {m : Nat} (s : State) (c : Bool) {f : Page → Page} (h : ∀ p : Page, p.BytesKept (f p)) : PageKept m s (if c then s.updPage m f else s) := by
  split
  · exact pageKept_updPage s (h _)
  · exact .refl m s

/-- After its bytes, a host's write only lets registers act. -/
theorem pageKept_writePage (s : State) (m : Nat) (i : BitVec 32) (off : Nat) (b : Bytes) :
    PageKept m (s.updPage m (pageBytesWrite · off b)) (writePage s m i off b) := by
  unfold writePage
  extract_lets reg flags written cleared clearedBoth consumed rung drained
  have hcleared : PageKept m written cleared := pageKept_ite written _ fun p => .of_eq rfl (fun h => h)
  have hclearedBoth : PageKept m cleared clearedBoth := pageKept_ite cleared _ fun p => .of_eq rfl (fun h => h)
  have hconsumed : PageKept m clearedBoth consumed := pageKept_onReg _ _ fun s _ => pageKept_updPage s (.of_eq rfl fun h => h)
  have hrung : PageKept m consumed rung := pageKept_onReg _ _ fun s _ => pageKept_updPage s (Page.bytesKept_doorbell _ _ _)
  have hdrained : PageKept m rung drained :=
    pageKept_onReg _ _ fun s _ => (pageKept_updPage s (.of_eq rfl fun h => h)).trans (pageKept_drainEvents _ m)
  exact hcleared.trans (hclearedBoth.trans (hconsumed.trans (hrung.trans (hdrained.trans (pageKept_onReg _ _ fun s _ => pageKept_setEvqEnable s m _)))))

/-- Settles O54: the write's bytes are `pageBytesWrite`, and what follows keeps the bytes of the page. -/
theorem hostWritesKeepResponses : Obligations.HostWritesKeepResponses := by
  unfold Obligations.HostWritesKeepResponses
  intro s m i off b _
  obtain ⟨⟨hbeyond, hquiet⟩, hothers⟩ := pageKept_writePage s m i off b
  rw [State.updPage_page] at hbeyond hquiet
  have hread {a : Nat} (ha : ¬ pageWritable a) : mread (pageBytesWrite (s.page m) off b).mem a = mread (s.page m).mem a :=
    pageBytesWrite_read_other _ _ (.inr ha)
  obtain ⟨hheld, hdropped⟩ := pageBytesWrite_waits (s.page m) off b
  refine ⟨fun a h1 h2 => ?ring, fun h0 h0' a h1 h2 => ?queue, fun k hk hw => ?bytes, fun n hn => ?others⟩
  case ring => rw [hbeyond a (.inl h2), hread (by unfold pageWritable; omega)]
  case queue => rw [(hquiet ⟨hheld.trans h0, hdropped.trans h0'⟩).2, hread (by unfold pageWritable; omega)]
  case bytes => rw [hbeyond _ (by omega), pageBytesWrite_read_same _ hk hw]
  case others => rw [hothers n hn, State.updPage_page_other s _ hn]

end Sys2Proof.Machine
end

