-- ==== Sys2Proof/Proofs/MailboxCommands.lean ====
section
/-!
SUPPORT. The shapes in which a ready mailbox command ends (02 R37, R38, R49): a query, a command done, a command left pending. Each takes
what the command's body answers on the state that it is judged in, with any audit log and any counters, since the audit record that comes
first touches those alone.
-/

namespace Sys2Proof.Machine

open Sys2Proof

/-! ### The request that a command takes -/

theorem authorise_m {s s' : State} {c : Cmd} {q q' : Req} (h : authorise s c q = (some q', s')) : q'.m = q.m := by
  unfold authorise at h
  dsimp only at h
  split_ifs at h
  · cases h
    rfl
  · cases h
  · cases h
  · split at h
    · split at h
      · cases h
        rfl
      · cases h
    · cases h
      rfl

theorem owes_of_taken {c : Cmd} {m : Nat} {s v : State} {q : Req} (h : taken c m s = some (q, v)) : q.owes.mailbox = q.m ∧ q.m = m := by
  unfold taken at h
  split at h
  · cases h
  · next q0 hq0 =>
    dsimp only at h
    split at h
    · cases h
    · split at h
      · cases h
      · next ha =>
        split at h
        · cases h
        · cases h
          exact ⟨rfl, (authorise_m ha).trans (headOf_m hq0).1⟩

theorem owes_of_ready {c : Cmd} {m : Nat} {s v : State} {q : Req} (h : Ready c m s q v) : q.owes.mailbox = q.m ∧ q.m = m := owes_of_taken h.1

theorem not_validateOnly_of_ready {c : Cmd} {m : Nat} {s v : State} {q : Req} (h : Ready c m s q v) (hc : c.query = false) : q.validateOnly = false := by
  obtain ⟨-, -, hv, -⟩ := h
  simpa [hc] using hv

/-! ### The state after the audit record -/

/-- Flash with the audit log of `l` in place of its own. -/
def Flash.withLog (f l : Flash) : Flash := { f with auditNext := l.auditNext, auditChain := l.auditChain, auditBase := l.auditBase, audit := l.audit }

theorem auditWrite_log (s : State) (m : Nat) (b : BitVec 32) (op : BitVec 16) (role key st : Nat) (dg : BitVec 256) :
    ∃ l k, auditWrite s m b op role key st dg = { s with flash := s.flash.withLog l, counters := k } := by
  obtain ⟨k, h⟩ := bump_frame s .device 0 11 1
  refine ⟨(auditWrite s m b op role key st dg).flash, k, ?_⟩
  unfold auditWrite
  dsimp only
  rw [h]
  rfl

/-- A command's audit record touches the audit log and a counter alone. -/
theorem recorded_log (c : Cmd) (q : Req) (s : State) : ∃ l k, recorded c q s = { s with flash := s.flash.withLog l, counters := k } := by
  unfold recorded
  split
  · exact auditWrite_log ..
  · exact ⟨s.flash, s.counters, rfl⟩

/-- A command that changes nothing under a role writes no audit record. -/
theorem recorded_of_not_changes {c : Cmd} {q : Req} (h : c.changes q = false) (s : State) : recorded c q s = s := by
  simp [recorded, h]

/-- The answer PENDING touches pages and queue pairs, and its command joins those that are pending. -/
theorem pending_frame (u : State) (q : Req) (res : Bytes) : ∃ g n, pending u q res = { u with pages := g, qps := n, pendings := u.pendings ++ [q.owes] } := by
  obtain ⟨g, n, h⟩ := respond_frame { u with pendings := u.pendings ++ [q.owes] } q stPending 0 res []
  exact ⟨g, n, by simp only [pending, closeWith, notifyDone, h, bne_self_eq_false, Bool.and_false, Bool.false_eq_true, if_false]⟩

/-! ### How a ready command ends -/

section
variable {c : Cmd} {m : Nat} {s v : State} {q : Req}

/-- A command that is done and writes no audit record. -/
theorem serve_done_unrecorded {w : State} {res xres : Bytes} (h : Ready c m s q v) (hc : c.changes q = false) (hbody : c.body q v = .done w res xres) :
    serve m c s = .next (c.after q (okay w q res xres)) := serve_done h hbody (by rw [recorded_of_not_changes hc]; exact hbody)

/-- A query that is ready answers from the state as it stands. -/
theorem serve_query {res xres : Bytes} (h : Ready c m s q v) (hc : c.changes q = false) (hbody : c.body q v = .done v res xres) :
    serve m c s = .next (c.after q (okay v q res xres)) := serve_done_unrecorded h hc hbody

/-- What is known of a command that is done and writes no audit record, beside its answer. -/
theorem completes_unrecorded {i : Instr} {P : State → Prop} {w : State} {res xres : Bytes} (hi : exec i s = serve m c s) (hafter : ∀ w, c.after q w = w)
    (h : Ready c m s q v) (hc : c.changes q = false) (hbody : c.body q v = .done w res xres) (hp : ∀ g n e, P { w with pages := g, qps := n, pendings := e }) : Completes i s P := by
  refine ⟨_, hi.trans (serve_done_unrecorded h hc hbody), ?_⟩
  obtain ⟨g, n, e, hclose⟩ := closeWith_frame w q stOk 0 res xres
  rw [hafter, okay, hclose]
  exact hp g n e

/-- A command that is done, with its effect on the recorded state. -/
theorem serve_done_recorded {eff : State → State} {res xres : Bytes} (h : Ready c m s q v)
    (hbody : ∀ f k, c.body q { v with flash := v.flash.withLog f, counters := k } = .done (eff { v with flash := v.flash.withLog f, counters := k }) res xres) :
    serve m c s = .next (c.after q (okay (eff (recorded c q v)) q res xres)) := by
  obtain ⟨f, k, hrec⟩ := recorded_log c q v
  exact serve_done h (hbody v.flash v.counters) (by rw [hrec]; exact hbody f k)

/-- A command that is left pending, with its effect on the recorded state. -/
theorem serve_pend_recorded {eff : State → State} {res : Bytes} (h : Ready c m s q v)
    (hbody : ∀ f k, c.body q { v with flash := v.flash.withLog f, counters := k } = .pend (eff { v with flash := v.flash.withLog f, counters := k }) res) :
    serve m c s = .next (c.after q (pending (eff (recorded c q v)) q res)) := by
  obtain ⟨f, k, hrec⟩ := recorded_log c q v
  exact serve_pend h (hbody v.flash v.counters) (by rw [hrec]; exact hbody f k)

/-- What is known of a command that is done, beside its answer and its audit record. -/
theorem completes_done {i : Instr} {P : State → Prop} {eff : State → State} {res xres : Bytes} (hi : exec i s = serve m c s) (hafter : ∀ w, c.after q w = w)
    (h : Ready c m s q v) (hbody : ∀ f k, c.body q { v with flash := v.flash.withLog f, counters := k } = .done (eff { v with flash := v.flash.withLog f, counters := k }) res xres)
    (hp : ∀ f k g n e, P { eff { v with flash := v.flash.withLog f, counters := k } with pages := g, qps := n, pendings := e }) : Completes i s P := by
  refine ⟨_, hi.trans (serve_done_recorded h hbody), ?_⟩
  obtain ⟨f, k, hrec⟩ := recorded_log c q v
  obtain ⟨g, n, e, hclose⟩ := closeWith_frame (eff (recorded c q v)) q stOk 0 res xres
  rw [hafter, okay, hclose, hrec]
  exact hp f k g n e

/-- What is known of a command that is left pending, beside its answer and its audit record. -/
theorem completes_pend {i : Instr} {P : State → Prop} {eff : State → State} {res : Bytes} (hi : exec i s = serve m c s) (hafter : ∀ w, c.after q w = w)
    (h : Ready c m s q v) (hbody : ∀ f k, c.body q { v with flash := v.flash.withLog f, counters := k } = .pend (eff { v with flash := v.flash.withLog f, counters := k }) res)
    (hp : ∀ f k g n, P { eff { v with flash := v.flash.withLog f, counters := k } with
      pages := g, qps := n, pendings := (eff { v with flash := v.flash.withLog f, counters := k }).pendings ++ [q.owes] }) : Completes i s P := by
  refine ⟨_, hi.trans (serve_pend_recorded h hbody), ?_⟩
  obtain ⟨f, k, hrec⟩ := recorded_log c q v
  obtain ⟨g, n, hpend⟩ := pending_frame (eff (recorded c q v)) q res
  rw [hafter, hpend, hrec]
  exact hp f k g n

/-- A body that fails with an effect of its own, of a command that is not asked for validation alone. -/
theorem serve_failed {w : State} {st : Nat} (h : Ready c m s q v) (hv : q.validateOnly = false) (hbody : c.body q v = .failed w st) (hst : 2 ≤ st) :
    serve m c s = .next (closeWith w q st 0 [] []) := by
  have hgood : (Reply.failed w st).good = false := by
    simp [Reply.good, Reply.status, stOk, stPending]
    omega
  rw [serve_taken h.1]
  simp only [conclude, hbody, hgood, hv, Bool.not_false, if_true, Bool.false_eq_true, if_false, effectOf]

end

/-! ### Staged changes -/

end Sys2Proof.Machine
end

