-- ==== Sys2Proof/Proofs/SessionCommands.lean ====
section
/-!
PROOF. The mailbox service and authentication commands (02 R42 to R44, R57, R60, R446).
-/

namespace Sys2Proof.Machine

open Sys2Proof

section
variable {q : Req}

theorem cmdDeviceStatus_body (h : RestZero q []) (w : State) : cmdDeviceStatus.body q w = .done w (natLe w.deviceId 4 ++ natLe w.aon.bootEpoch.toNat 4
    ++ natLe w.deviceMode 4 ++ natLe w.layout.epoch.toNat 1 ++ natLe 0 3 ++ natLe (if w.job.isOpen then w.job.number.toNat else 0) 4) [] := by
  simp only [cmdDeviceStatus, h]

theorem cmdSetAcctPeriod_body (h : RestZero q [(20, 8)]) (h1 : 100000 ≤ q.arg 20 8) (h2 : q.arg 20 8 ≤ 10000000000) (w : State) :
    cmdSetAcctPeriod.body q w = .pend (stage w (.period (q.arg 20 8)) (some q.owes)) [] := by
  have hbad := firstBad_none (bad := [(20, !(100000 ≤ q.arg 20 8 && q.arg 20 8 ≤ 10000000000))]) h (by simp [h1, h2])
  simp only [cmdSetAcctPeriod, hbad]

theorem cmdMailboxReset_body (h : RestZero q []) (w : State) : cmdMailboxReset.body q w = .done w [] [] := by
  simp only [cmdMailboxReset, h]

theorem cmdRoleEnd_body (h : RestZero q []) (w : State) : cmdRoleEnd.body q w = .done (endRoleSession w q.roleSession) [] [] := by
  simp only [cmdRoleEnd, h]

theorem firstBad_roleCode (h : RestZero q [(20, 1)]) (r : Role) : q.firstBad [(20, 1)] [(20, (some r).isNone)] = none := firstBad_none h rfl

end

/-! ### MAILBOX_RESET -/

theorem answerBusy_reqPi (p : Page) (n : Nat) (i : BitVec 16) : (answerBusy p n i).reqPi = p.reqPi := by
  induction n generalizing p i with
  | zero => rfl
  | succ n ih =>
    unfold answerBusy
    exact ih _ _

/-- The page after MAILBOX_RESET: nothing waits, no response is unread, no range is owned (02 R446). -/
theorem resetPage_registers (p : Page) (i : BitVec 16) :
    (resetPage p i).reqCi = p.reqPi ∧ (resetPage p i).rspPi = p.reqPi ∧ (resetPage p i).reqPi = p.reqPi ∧ (resetPage p i).ranges = [] :=
  ⟨rfl, rfl, answerBusy_reqPi p _ _, rfl⟩

theorem cmdMailboxReset_after_page (q : Req) (s : State) : (cmdMailboxReset.after q s).page q.m = resetPage (s.page q.m) q.index := by
  have hsends (l : List Range) (u : State) :
      (l.foldl (fun u r => match r.qp with | some n => queueSend u n (busySlot (s.page q.m) r.index) none | none => u) u).page q.m = u.page q.m :=
    foldl_keeps (fun u => u.page q.m) (fun u r => by
      split
      · exact page_queueSend _ _ _ _ _
      · rfl) l u
  exact (hsends _ _).trans (State.updPage_page s q.m _)

/-! ### Role sessions -/

theorem sessionId_ne_zero (s : State) : sessionId s ≠ 0 := by
  unfold sessionId
  dsimp only
  cases hfind : ((List.range (s.auth.sessions.length + 2)).map (fun i => BitVec.ofNat 32 (Config.choice s.free) + BitVec.ofNat 32 i)).find?
      (fun x => x != 0 && !s.auth.sessions.any (·.id == x)) with
  | none =>
    rw [Option.getD_none]
    decide
  | some x =>
    have hx := List.find?_some hfind
    simp only [Bool.and_eq_true, bne_iff_ne] at hx
    exact hx.1

theorem endRoleSession_sessions (s : State) (id : BitVec 32) : (endRoleSession s id).auth.sessions = s.auth.sessions.filter (fun r => r.id != id) := by
  unfold endRoleSession
  split
  · next hnone =>
    refine (List.filter_eq_self.mpr fun r hr => ?_).symm
    have := List.find?_eq_none.mp hnone r hr
    simpa using this
  · rfl

/-- A failed ROLE_PROVE keeps nonces and sessions. -/
theorem proveFailed_auth (q : Req) (r : Role) (s : State) : (proveFailed q r s).auth.nonces = s.auth.nonces ∧ (proveFailed q r s).auth.sessions = s.auth.sessions := by
  have hset (a : Auth) (x : RoleAuth) : (a.setRole r x).nonces = a.nonces ∧ (a.setRole r x).sessions = a.sessions := by cases r <;> exact ⟨rfl, rfl⟩
  have haudit (u : State) (m : Nat) (b : BitVec 32) (op : BitVec 16) (role key st : Nat) (dg : BitVec 256) :
      (auditWrite u m b op role key st dg).auth = u.auth := by
    obtain ⟨f, c, h⟩ := auditWrite_frame u m b op role key st dg
    rw [h]
  unfold proveFailed
  dsimp only
  split <;> simp only [haudit, hset, and_self]

/-- The state in which ROLE_PROVE goes on: the nonce of the role and path is used up (02 R42). -/
def State.nonceUsed (s : State) (r : Role) (b : BitVec 32) : State :=
  { s with auth := { s.auth with nonces := s.auth.nonces.filter (fun x => !(x.role == r && x.binding == b)) } }

/-- ROLE_PROVE with a nonce that is still good: it opens a session under the key that verifies, or fails. -/
theorem cmdRoleProve_body {q : Req} {v : State} {r : Role} {n : Nonce} (h : RestZero q [(20, 1)]) (hr : roleOfCode (q.arg 20 1) = some r)
    (hlock : roleLocked v r = false) (hopen : openSessions v r < 8) (hn : v.auth.nonces.find? (fun x => x.role == r && x.binding == q.binding) = some n)
    (hage : v.now - n.issued ≤ secNs 10) :
    cmdRoleProve.body q v = match provenKey v r (proofMessage v n) q.xarg with
      | none => .failed (proveFailed q r (v.nonceUsed r q.binding)) stDenied
      | some (i, key) =>
        let x : RoleSession := { id := sessionId (v.nonceUsed r q.binding), role := r, keyIndex := i, key := key, binding := q.binding, counter := 0, lastCommand := v.now }
        .done { drawn (v.nonceUsed r q.binding) with auth := { (v.nonceUsed r q.binding).auth with sessions := v.auth.sessions ++ [x] } } (natLe x.id.toNat 4 ++ natLe i 1) [] := by
  have hlock' : roleLocked (v.nonceUsed r q.binding) r = false := hlock
  have hopen' : ¬ openSessions (v.nonceUsed r q.binding) r ≥ roleSessions := Nat.not_le.mpr hopen
  have hage' : (v.nonceUsed r q.binding).now - n.issued ≤ secNs 10 := hage
  have hkey : provenKey (v.nonceUsed r q.binding) r (proofMessage (v.nonceUsed r q.binding) n) q.xarg = provenKey v r (proofMessage v n) q.xarg := rfl
  simp only [State.nonceUsed] at hlock' hopen' hage' hkey ⊢
  simp only [cmdRoleProve, hr, firstBad_roleCode h, hn, hlock', hopen', Option.bind_some, hage', if_true, hkey, Bool.false_eq_true, if_false] <;> rfl

theorem roleProve_completes {m : Fin 1029} {s v : State} {q : Req} {r : Role} {n : Nonce} (hready : Ready cmdRoleProve m s q v) (h : RestZero q [(20, 1)])
    (hr : roleOfCode (q.arg 20 1) = some r) (hlock : roleLocked v r = false) (hopen : openSessions v r < 8)
    (hn : v.auth.nonces.find? (fun x => x.role == r && x.binding == q.binding) = some n) (hage : v.now - n.issued ≤ secNs 10) :
    Completes (.roleProve m) s (fun t => t.auth.nonces = v.auth.nonces.filter (fun x => !(x.role == r && x.binding == q.binding)) ∧
      (∀ i key, provenKey v r (proofMessage v n) q.xarg = some (i, key) →
        ∃ id, id ≠ 0 ∧ t.auth.sessions = v.auth.sessions ++ [{ id := id, role := r, keyIndex := i, key := key, binding := q.binding, counter := 0, lastCommand := v.now }]) ∧
      (provenKey v r (proofMessage v n) q.xarg = none → t.auth.sessions = v.auth.sessions)) := by
  have hbody := cmdRoleProve_body h hr hlock hopen hn hage
  cases hkey : provenKey v r (proofMessage v n) q.xarg with
  | none =>
    rw [hkey] at hbody
    refine completes_of_exec (serve_failed hready (not_validateOnly_of_ready hready rfl) hbody (by decide)) ?_
    obtain ⟨g, k, e, hclose⟩ := closeWith_frame (proveFailed q r (v.nonceUsed r q.binding)) q stDenied 0 [] []
    obtain ⟨hnonces, hsessions⟩ := proveFailed_auth q r (v.nonceUsed r q.binding)
    rw [hclose]
    exact ⟨hnonces, fun _ _ hk => absurd hk.symm (Option.some_ne_none _), fun _ => hsessions⟩
  | some x =>
    obtain ⟨i, key⟩ := x
    rw [hkey] at hbody
    refine completes_unrecorded rfl (fun _ => rfl) hready rfl hbody fun g k e => ?_
    refine ⟨rfl, fun i' key' hk => ?_, fun hk => nomatch hk⟩
    cases hk
    exact ⟨_, sessionId_ne_zero _, rfl⟩

/-- ROLE_CHALLENGE: the new nonce takes the place of the one of the same role and path. -/
theorem cmdRoleChallenge_body {q : Req} {v : State} {r : Role} (h : RestZero q [(20, 1)]) (hr : roleOfCode (q.arg 20 1) = some r) (hlock : roleLocked v r = false) :
    let n : Nonce := { role := r, binding := q.binding, value := Config.nonce v.free, issued := v.now }
    cmdRoleChallenge.body q v = .done { v with free := v.free + 1, auth := { v.auth with
      nonces := v.auth.nonces.filter (fun x => !(x.role == r && x.binding == q.binding)) ++ [n] } } (natLe n.value.toNat 32) [] := by
  simp only [cmdRoleChallenge, hr, firstBad_roleCode h, hlock, Bool.false_eq_true, if_false]

/-! ### The obligation -/

/-- Settles O3: each command's body answers OK or PENDING, and its effect survives the response. -/
theorem sessionCommandsComplete : Obligations.SessionCommandsComplete := by
  unfold Obligations.SessionCommandsComplete
  refine ⟨fun m s q v hready h => ?status, fun m s q v hready h h1 h2 => ?period, fun m s q v hready h => ?reset, fun m s q v r hready h hr hlock => ?challenge,
    fun m s q v r n hready h hr hlock hopen hn hage => roleProve_completes hready h hr hlock hopen hn hage, fun m s q v hready h => ?ends⟩
  case status => exact serve_query hready rfl (cmdDeviceStatus_body h v)
  case period =>
    exact completes_pend (eff := (stage · (.period (q.arg 20 8)) (some q.owes))) rfl (fun _ => rfl) hready (fun f k => cmdSetAcctPeriod_body h h1 h2 _) fun f k g n => ⟨rfl, rfl⟩
  case reset =>
    refine completes_of_exec (serve_done_recorded (eff := id) hready fun f k => cmdMailboxReset_body h _) ?_
    obtain ⟨hev, -⟩ := page_closeWith (s := recorded cmdMailboxReset q v) (owes_of_ready hready).1 stOk 0 [] []
    obtain ⟨f, k, hrec⟩ := recorded_frame cmdMailboxReset q v
    have hpi : ((okay (recorded cmdMailboxReset q v) q [] []).page q.m).reqPi = (v.page q.m).reqPi := by
      rw [okay, hev.reqPi, hrec]
      rfl
    rw [cmdMailboxReset_after_page, ← hpi]
    exact resetPage_registers _ _
  case challenge =>
    exact ⟨_, rfl, rfl, rfl, serve_done_unrecorded hready rfl (cmdRoleChallenge_body h hr hlock)⟩
  case ends =>
    exact completes_done (eff := (endRoleSession · q.roleSession)) rfl (fun _ => rfl) hready (fun f k => cmdRoleEnd_body h _) fun f k g n e => endRoleSession_sessions _ _

end Sys2Proof.Machine
end

