-- ==== Sys2Proof/Proofs/TenancyCommands.lean ====
section
/-!
PROOF. The context, segment and extent commands (03 R71 to R73; 15 R345 to R351, R358, R361, R362): what each body answers, then the
effect that its response leaves.
-/

namespace Sys2Proof.Machine

open Sys2Proof

/-! ### Contexts -/

section
variable {q : Req} {w : State}

/-- The state in which a context has been made with an empty page (15 R345, R346). -/
def State.contextMade (w : State) (c : Nat) (x : Ctx) : State :=
  zeroBlock ({ w with ctxs := tput w.ctxs c x }.updPage (ctxMailbox c) (·.renewed)) .context c c

theorem cmdContextCreate_body (h : RestZero q [(20, 12)]) (hc : q.arg 20 2 ≤ 1023) (hms : q.arg 22 4 = 0 ∨ (100 ≤ q.arg 22 4 ∧ q.arg 22 4 ≤ 60000))
    (hsync : q.arg 26 4 ≤ 65536) (hext : q.arg 30 2 ≤ w.tenantExtents) (hst : (w.ctx (q.arg 20 2)).st = .none) :
    cmdContextCreate.body q w = .done (w.contextMade (q.arg 20 2)
      { st := .active, leaseMs := if q.arg 22 4 = 0 then 2000 else q.arg 22 4, leaseStart := w.now, syncLimit := q.arg 26 4, extentLimit := q.arg 30 2 }) [] [] := by
  simp only [cmdContextCreate]
  rw [firstBad_none h (by simp [hc, hms, hsync, hext]), hst]
  rfl

theorem cmdContextDestroy_body (h : RestZero q [(20, 2)]) (hc : q.arg 20 2 ≤ 1023) (hst : (w.ctx (q.arg 20 2)).st = .active ∨ (w.ctx (q.arg 20 2)).st = .lapsed) :
    cmdContextDestroy.body q w = .pend (beginEnding w (q.arg 20 2)) [] := by
  simp only [cmdContextDestroy]
  rw [firstBad_none h (by simp [hc])]
  rcases hst with hst | hst <;> simp only [hst]

theorem ctx?_eq_none_iff : q.ctx? = none ↔ tenantOnly q.party = false := by
  unfold Req.ctx? tenantOnly
  cases q.party <;> simp

theorem badCtxField_eq_false (h : q.ctx? = none → q.arg 20 2 ≤ 1023) : badCtxField q = false := by
  unfold badCtxField
  cases ht : tenantOnly q.party with
  | true => rfl
  | false => simpa using h (ctx?_eq_none_iff.mpr ht)

theorem cmdContextStatus_body (h : RestZero q [(20, 2)]) (hc : q.ctx? = none → q.arg 20 2 ≤ 1023) :
    cmdContextStatus.body q w = .done w (natLe (w.ctx (namedCtx q)).st.code 1 ++ natLe 0 1 ++ natLe (heldExtents w (namedCtx q)).length 2
      ++ natLe (w.ctx (namedCtx q)).leaseMs 4 ++ natLe (leaseLeft w (namedCtx q)) 4 ++ natLe w.aon.bootEpoch.toNat 4) [] := by
  simp only [cmdContextStatus]
  rw [firstBad_none h (by simp [badCtxField_eq_false hc])]

theorem cmdLeaseSet_body (h : RestZero q [(20, 6)]) (hc : q.arg 20 2 ≤ 1023) (h1 : 100 ≤ q.arg 22 4) (h2 : q.arg 22 4 ≤ 60000)
    (hst : (w.ctx (q.arg 20 2)).st = .active ∨ (w.ctx (q.arg 20 2)).st = .lapsed) :
    cmdLeaseSet.body q w = .done (restartLease (w.updCtx (q.arg 20 2) (fun x => { x with leaseMs := q.arg 22 4 })) (q.arg 20 2)) [] [] := by
  simp only [cmdLeaseSet]
  rw [firstBad_none h (by simp [hc, h1, h2])]
  rcases hst with hst | hst <;> simp only [hst]

theorem cmdLeaseRenew_body (h : RestZero q [(20, 2), (24, 4)]) (hc : q.ctx? = none → q.arg 20 2 ≤ 1023) (hst : (w.ctx (namedCtx q)).st = .active)
    (hboot : q.arg 24 4 = w.aon.bootEpoch.toNat) :
    cmdLeaseRenew.body q w = .done (restartLease w (namedCtx q)) (natLe (w.ctx (namedCtx q)).leaseMs 4) [] := by
  simp only [cmdLeaseRenew]
  rw [firstBad_none h (by simp [badCtxField_eq_false hc])]
  simp only [hst, hboot, if_true]

theorem cmdLimitsSet_body (h : RestZero q [(20, 2), (26, 6)]) (hc : q.arg 20 2 ≤ 1023) (hsync : q.arg 26 4 ≤ 65536) (hext : q.arg 30 2 ≤ w.tenantExtents)
    (hst : (w.ctx (q.arg 20 2)).st ≠ .none) :
    cmdLimitsSet.body q w = .done (w.updCtx (q.arg 20 2) (fun x => { x with syncLimit := q.arg 26 4, extentLimit := q.arg 30 2 })) [] [] := by
  simp only [cmdLimitsSet]
  rw [firstBad_none h (by simp [hc, hsync, hext])]
  simp only [beq_eq_false_iff_ne.mpr hst, Bool.false_eq_true, if_false]

/-- The sessions whose translations a TRANSLATION_FLUSH withdraws: all of the context's, or the one named (15 R358). -/
def flushes (q : Req) (w : State) (c k : Nat) : Bool := if q.arg 20 2 = 0xFFFF then (w.session k).ctx == some c else k == q.arg 20 2

/-- The state in which a flush of context `c` has begun. -/
def State.flushing (w : State) (q : Req) (c : Nat) : State :=
  { w with
    xcache := w.xcache.filter (fun x => !flushes q w c x.session)
    drains := w.drains ++ [{ session := q.arg 20 2, tag := q.tag, seq := 0, flushCtx := some c, cmd := q.serial, requests := issuedUnder w (flushes q w c) }]
    outstanding := w.outstanding.map (fun o => if flushes q w c o.session then { o with withdrawn := true } else o) }

theorem cmdTranslationFlush_body {c : Nat} (h : RestZero q [(20, 2)]) (hc : flushCtx w q = some c) (hi : q.arg 20 2 = 0xFFFF ∨ (w.session (q.arg 20 2)).ctx = some c) :
    cmdTranslationFlush.body q w = .pend (w.flushing q c) [] := by
  have hok : (q.arg 20 2 != 0xFFFF && (w.session (q.arg 20 2)).ctx != some c) = false := by
    rcases hi with hi | hi <;> simp [hi]
  simp only [cmdTranslationFlush, firstBad_none h (bad := []) rfl, hc, hok, Bool.false_eq_true, if_false]
  rfl

end

/-- Settles O4: each body is judged and run on the same context, since the audit record touches flash and counters alone. -/
theorem contextCommandsComplete : Obligations.ContextCommandsComplete := by
  unfold Obligations.ContextCommandsComplete
  refine ⟨fun m s v q hready h hc hms hsync hext hst => ?create, fun m s v q hready h hc hst => ?destroy, fun m s v q hready h hc => ?status,
    fun m s v q hready h hc h1 h2 hst => ?leaseSet, fun m s v q hready h hc hst hboot => ?leaseRenew, fun m s v q hready h hc hsync hext hst => ?limits,
    fun m s v q c hready h hc hi => ?flush⟩
  case create =>
    refine completes_done (eff := fun w => w.contextMade (q.arg 20 2) { st := .active, leaseMs := if q.arg 22 4 = 0 then 2000 else q.arg 22 4, leaseStart := w.now, syncLimit := q.arg 26 4, extentLimit := q.arg 30 2 })
      rfl (fun _ => rfl) hready (fun f k => cmdContextCreate_body h hc hms hsync hext hst) fun f k g n e => ?_
    exact tgetD_tput_same _ _ _ _
  case destroy =>
    exact serve_pend_recorded (eff := (beginEnding · (q.arg 20 2))) hready fun f k => cmdContextDestroy_body h hc hst
  case status => exact serve_query hready rfl (cmdContextStatus_body h hc)
  case leaseSet =>
    refine completes_done (eff := fun w => restartLease (w.updCtx (q.arg 20 2) (fun x => { x with leaseMs := q.arg 22 4 })) (q.arg 20 2))
      rfl (fun _ => rfl) hready (fun f k => cmdLeaseSet_body h hc h1 h2 hst) fun f k g n e => ?_
    simp [State.ctx, restartLease, State.updCtx]
  case leaseRenew =>
    refine completes_done (eff := (restartLease · (namedCtx q))) (res := natLe (v.ctx (namedCtx q)).leaseMs 4) rfl (fun _ => rfl) hready (fun f k => cmdLeaseRenew_body h hc hst hboot) fun f k g n e => ?_
    have hactive : (tgetD v.ctxs {} (namedCtx q)).st = .active := hst
    simp [State.ctx, restartLease, State.updCtx, ← hactive]
  case limits =>
    refine completes_done (eff := fun w => w.updCtx (q.arg 20 2) (fun x => { x with syncLimit := q.arg 26 4, extentLimit := q.arg 30 2 }))
      rfl (fun _ => rfl) hready (fun f k => cmdLimitsSet_body h hc hsync hext hst) fun f k g n e => ?_
    simp [State.ctx, State.updCtx]
  case flush =>
    exact completes_pend (eff := (·.flushing q c)) rfl (fun _ => rfl) hready (fun f k => cmdTranslationFlush_body h hc hi) fun f k g n => ⟨rfl, rfl⟩

/-! ### Segments -/

section
variable {q : Req} {w : State}

theorem cmdSegmentSet_body (h : RestZero q [(20, 12)]) (hslot : q.arg 20 1 ≤ 7) (hflags : q.arg 21 1 < 64) (hbits : bit (q.arg 21 1) 2 = true → bit (q.arg 21 1) 1 = true)
    (h1 : 1 ≤ q.arg 22 2) (h2 : q.arg 22 2 ≤ 256) (halign : q.arg 24 8 % 2 ^ 30 = 0) (hend : q.arg 24 8 + q.arg 22 2 * 2 ^ 30 ≤ 2 ^ 48) (hlen : q.xargLen = 4 * q.arg 22 2)
    (hrange : entryRangeFault w q.xarg (q.arg 22 2) = none) (hown : ∀ e ∈ segEntries q.xarg (q.arg 22 2), extentOf w q.tenant e.extent = true)
    (hfree : ∀ g ∈ otherSegments w q.tenant (q.arg 20 1), segOverlap (q.arg 24 8) (q.arg 22 2) g = false)
    (hentry : entryFault w (otherSegments w q.tenant (q.arg 20 1)) (segEntries q.xarg (q.arg 22 2)) 0 [] = none) (hagent : agentOn w q.tenant (q.arg 20 1) = false) :
    cmdSegmentSet.body q w = .pend (stage w (.segment q.tenant (q.arg 20 1)
      (some { flags := BitVec.ofNat 8 (q.arg 21 1), base := q.arg 24 8, list := segEntries q.xarg (q.arg 22 2) })) (some q.owes)) [] := by
  have hbase : q.arg 24 8 < 2 ^ 48 := by omega
  have hsealed : (decide (q.arg 21 1 ≥ 64) || (bit (q.arg 21 1) 2 && !bit (q.arg 21 1) 1)) = false := by
    cases hb : bit (q.arg 21 1) 2 with
    | false => simp [hflags]
    | true => simp [hflags, hbits hb]
  have hin : (q.arg 24 8 % 2 ^ 30 != 0 || decide (q.arg 24 8 ≥ 2 ^ 48) || decide (q.arg 24 8 + q.arg 22 2 * 2 ^ 30 > 2 ^ 48)) = false := by
    simp only [halign, Nat.not_le.mpr hbase, Nat.not_lt.mpr hend, bne_self_eq_false, decide_false, Bool.or_self]
  have hdenied : (segEntries q.xarg (q.arg 22 2)).any (fun e => !extentOf w q.tenant e.extent && !staleEntry w q.tenant e) = false :=
    List.any_eq_false.mpr fun e he => by simp [hown e he]
  have hoverlap : (otherSegments w q.tenant (q.arg 20 1)).any (segOverlap (q.arg 24 8) (q.arg 22 2)) = false :=
    List.any_eq_false.mpr fun g hg => by simp [hfree g hg]
  simp only [cmdSegmentSet]
  rw [hsealed, hin, firstBad_none h (by simp [hslot, h1, h2])]
  simp only [hlen, hrange, hdenied, hoverlap, hentry, hagent, bne_self_eq_false, Bool.and_false, Bool.false_eq_true, if_false]

theorem cmdSegmentClear_body {g : Segment} (h : RestZero q [(20, 1)]) (hslot : q.arg 20 1 ≤ 7) (hg : tget? (w.ctx q.tenant).segs (q.arg 20 1) = some g)
    (hagent : g.coherent = true → agentOn w q.tenant (q.arg 20 1) = false) :
    cmdSegmentClear.body q w = .pend (stage w (.segment q.tenant (q.arg 20 1) none) (some q.owes)) [] := by
  have hidle : (g.coherent && agentOn w q.tenant (q.arg 20 1)) = false := by
    cases hc : g.coherent with
    | false => rfl
    | true => simp [hagent hc]
  simp only [cmdSegmentClear]
  rw [firstBad_none h (by simp [hslot])]
  simp only [hg, hidle, Bool.false_eq_true, if_false]

theorem cmdSegmentQuery_body_some {g : Segment} (h : RestZero q [(20, 1)]) (hslot : q.arg 20 1 ≤ 7) (hg : tget? (w.ctx q.tenant).segs (q.arg 20 1) = some g) :
    cmdSegmentQuery.body q w = .done w (natLe 1 1 ++ natLe g.flags.toNat 1 ++ natLe g.list.length 2 ++ natLe g.base 8
      ++ natLe (b2n (stagedSegment w q.tenant (q.arg 20 1)).isSome 0) 1) ((g.list.take (q.room / 4)).flatMap (·.bytes)) := by
  simp only [cmdSegmentQuery]
  rw [firstBad_none h (by simp [hslot])]
  simp only [hg]

theorem cmdSegmentQuery_body_none (h : RestZero q [(20, 1)]) (hslot : q.arg 20 1 ≤ 7) (hg : tget? (w.ctx q.tenant).segs (q.arg 20 1) = none) :
    cmdSegmentQuery.body q w = .done w (natLe 0 12 ++ natLe (b2n (stagedSegment w q.tenant (q.arg 20 1)).isSome 0) 1) [] := by
  simp only [cmdSegmentQuery]
  rw [firstBad_none h (by simp [hslot])]
  simp only [hg]

end

/-- Check 3 of 03 R72 reads the extents alone. -/
theorem entryFault_of_extents {s t : State} (h : t.extents = s.extents) (others : List Segment) (es : List SegEntry) (j : Nat) (seen : List Nat) :
    entryFault t others es j seen = entryFault s others es j seen := by
  have hextent (e : Nat) : t.extent e = s.extent e := by rw [State.extent, h, State.extent]
  induction es generalizing j seen with
  | nil => rfl
  | cons x r ih => simp only [entryFault, ih, hextent]

/-- Settles O5: SEGMENT_SET and SEGMENT_CLEAR are `stage`, which leaves every context alone. -/
theorem segmentCommandsComplete : Obligations.SegmentCommandsComplete := by
  unfold Obligations.SegmentCommandsComplete
  refine ⟨fun m s v q hready h hslot hflags hbits h1 h2 halign hend hlen hrange hown hfree hentry hagent => ?set, fun m s v q g hready h hslot hg hagent => ?clear,
    fun m s v q g hready h hslot hg => serve_query hready rfl (cmdSegmentQuery_body_some h hslot hg),
    fun m s v q hready h hslot hg => serve_query hready rfl (cmdSegmentQuery_body_none h hslot hg)⟩
  case set =>
    have hentry' (f : Flash) (k : Tab CounterBlk) :
        entryFault { v with flash := v.flash.withLog f, counters := k } (otherSegments v q.tenant (q.arg 20 1)) (segEntries q.xarg (q.arg 22 2)) 0 [] = none :=
      (entryFault_of_extents (s := v) (t := { v with flash := v.flash.withLog f, counters := k }) rfl _ _ _ _).trans hentry
    exact completes_pend (eff := (stage · _ (some q.owes))) rfl (fun _ => rfl) hready
      (fun f k => cmdSegmentSet_body h hslot hflags hbits h1 h2 halign hend hlen hrange hown hfree (hentry' f k) hagent) fun f k g n => ⟨rfl, rfl⟩
  case clear =>
    exact completes_pend (eff := (stage · (.segment q.tenant (q.arg 20 1) none) (some q.owes))) rfl (fun _ => rfl) hready
      (fun f k => cmdSegmentClear_body h hslot hg hagent) fun f k g n => ⟨rfl, rfl⟩

/-! ### Extents -/

theorem mem_rangeFrom {a n x : Nat} : x ∈ rangeFrom a n ↔ a ≤ x ∧ x < a + n := by
  induction n generalizing a with
  | zero => simp [rangeFrom]
  | succ n ih => simp only [rangeFrom, List.mem_cons, ih]; omega

@[simp] theorem length_rangeFrom (a n : Nat) : (rangeFrom a n).length = n := by
  induction n generalizing a with
  | zero => rfl
  | succ n ih => simp [rangeFrom, ih]

/-- Changing extents one after the other, by a change that a second one of the same instant repeats, changes each of them, and extents alone. -/
theorem foldKeys_updExtent {f : Nat → Extent → Extent} (hf : ∀ t x, f t (f t x) = f t x) (es : List Nat) (s : State) :
    ∃ x, foldKeys es s (fun s e => s.updExtent e (f s.ct)) = { s with extents := x } ∧
      ∀ e, tgetD x {} e = if e ∈ es then f s.ct (s.extent e) else s.extent e := by
  induction es generalizing s with
  | nil => exact ⟨s.extents, rfl, fun e => by simp [State.extent]⟩
  | cons a r ih =>
    obtain ⟨x, hx, hget⟩ := ih (s.updExtent a (f s.ct))
    refine ⟨x, hx, fun e => ?_⟩
    have hct : (s.updExtent a (f s.ct)).ct = s.ct := rfl
    rw [hget, hct]
    by_cases hea : e = a
    · subst hea
      rw [State.updExtent_extent, hf]
      simp
    · rw [State.updExtent_extent_other s _ hea]
      simp [hea]

/-- An extent that EXTENT_GRANT gives to a context. -/
def Extent.given (c t : Nat) (x : Extent) : Extent := { x with st := .granted, owner := c, changed := t }

/-- An extent whose fence is staged. -/
def Extent.revoked (cause t : Nat) (x : Extent) : Extent := { x with st := .revoking, cause := cause, changed := t }

/-- The extents of a revocation go to REVOKING, and a fence is staged for each. -/
theorem revokeExtents_spec (s : State) {es : List Nat} (hes : es ≠ []) (cause : Nat) :
    ∃ x g k, revokeExtents s es cause = { s with extents := x, staged := s.staged ++ g, free := k } ∧ g.map (·.change) = es.map .fence ∧
      ∀ e, tgetD x {} e = if e ∈ es then (s.extent e).revoked cause s.ct else s.extent e := by
  obtain ⟨x, hx, hget⟩ := foldKeys_updExtent (f := fun t => Extent.revoked cause t) (fun _ _ => rfl) es s
  have hne : es.isEmpty = false := by simpa using hes
  refine ⟨x, (es.map Change.fence).zipIdx.map (fun c => { at_ := joinBoundary s, change := c.1, owes := if c.2 = 0 then none else none }), s.free + 1, ?_, ?_, hget⟩
  · unfold revokeExtents
    rw [if_neg (by simp [hne])]
    exact congrArg (fun w => stageAll w (es.map .fence) none) hx
  · simp [List.map_map, Function.comp_def, List.zipIdx_map_fst]

section
variable {q : Req} {w : State}

theorem cmdExtentGrant_body (h : RestZero q [(20, 6)]) (hc : q.arg 20 2 ≤ 1023) (h1 : 1 ≤ q.arg 24 2) (h2 : q.arg 24 2 ≤ 256)
    (hend : q.arg 22 2 + q.arg 24 2 ≤ w.tenantExtents) (hst : (w.ctx (q.arg 20 2)).st = .active)
    (hfree : ∀ e, q.arg 22 2 ≤ e → e < q.arg 22 2 + q.arg 24 2 → (w.extent e).st = .free)
    (hlimit : (heldExtents w (q.arg 20 2)).length + q.arg 24 2 ≤ (w.ctx (q.arg 20 2)).extentLimit) :
    cmdExtentGrant.body q w = .done (foldKeys (rangeFrom (q.arg 22 2) (q.arg 24 2)) w (fun s e => s.updExtent e ((·.given (q.arg 20 2) s.ct)))) []
      ((rangeFrom (q.arg 22 2) (q.arg 24 2)).flatMap (fun e => natLe (w.extent e).gen.toNat 1)) := by
  have hfirst : q.arg 22 2 < w.tenantExtents := by omega
  have hnone : (rangeFrom (q.arg 22 2) (q.arg 24 2)).find? (fun e => (w.extent e).st != .free) = none :=
    List.find?_eq_none.mpr fun e he => by
      obtain ⟨hlo, hhi⟩ := mem_rangeFrom.mp he
      simp [hfree e hlo hhi]
  simp only [cmdExtentGrant]
  rw [firstBad_none h (by simp [hc, h1, h2, hfirst, hend]), hst, hnone]
  simp only [bne_self_eq_false, Bool.false_eq_true, if_false, Nat.not_lt.mpr hlimit]
  rfl

theorem cmdExtentRevoke_body (h : RestZero q [(22, 4)]) (h1 : 1 ≤ q.arg 24 2) (h2 : q.arg 24 2 ≤ 256) (hend : q.arg 22 2 + q.arg 24 2 ≤ w.tenantExtents)
    (hst : ∀ e, q.arg 22 2 ≤ e → e < q.arg 22 2 + q.arg 24 2 → (w.extent e).st = .granted) :
    cmdExtentRevoke.body q w = .pend { revokeExtents w (rangeFrom (q.arg 22 2) (q.arg 24 2)) 1 with
      revocations := w.revocations ++ [{ first := q.arg 22 2, count := q.arg 24 2 }] } [] := by
  have hfirst : q.arg 22 2 < w.tenantExtents := by omega
  have hgranted {e : Nat} (he : e ∈ rangeFrom (q.arg 22 2) (q.arg 24 2)) : (w.extent e).st = .granted := by
    obtain ⟨hlo, hhi⟩ := mem_rangeFrom.mp he
    exact hst e hlo hhi
  have hbusy : (rangeFrom (q.arg 22 2) (q.arg 24 2)).any (fun e => (w.extent e).st != .free && (w.extent e).st != .granted) = false :=
    List.any_eq_false.mpr fun e he => by simp [hgranted he]
  have hnone : (rangeFrom (q.arg 22 2) (q.arg 24 2)).find? (fun e => (w.extent e).st == .free) = none :=
    List.find?_eq_none.mpr fun e he => by simp [hgranted he]
  simp only [cmdExtentRevoke]
  rw [firstBad_none h (by simp [h1, h2, hfirst, hend]), hbusy, hnone]
  rfl

theorem cmdExtentStatus_body (h : RestZero q [(22, 2)]) (he : q.arg 22 2 < w.tenantExtents)
    (hown : q.ctx?.isSome = true → (w.extent (q.arg 22 2)).st ≠ .free ∧ (w.extent (q.arg 22 2)).owner = q.tenant) :
    cmdExtentStatus.body q w = .done w (natLe (w.extent (q.arg 22 2)).st.code 1 ++ natLe (w.extent (q.arg 22 2)).gen.toNat 1
      ++ natLe (if (w.extent (q.arg 22 2)).st = .free then 0xFFFF else (w.extent (q.arg 22 2)).owner) 2 ++ natLe (w.extent (q.arg 22 2)).changed 8) [] := by
  have hallowed : (tenantOnly q.party && !((w.extent (q.arg 22 2)).st != .free && (w.extent (q.arg 22 2)).owner == q.tenant)) = false := by
    cases ht : tenantOnly q.party with
    | false => rfl
    | true =>
      obtain ⟨hst, howner⟩ := hown (Option.isSome_iff_ne_none.mpr fun hn => by simp [ctx?_eq_none_iff, ht] at hn)
      simp [hst, howner]
  simp only [cmdExtentStatus]
  rw [firstBad_none h (by simp [he])]
  simp only [hallowed, Bool.false_eq_true, if_false, beq_iff_eq]

theorem cmdExtentList_body (h : RestZero q [(20, 2)]) (hc : q.ctx? = none → q.arg 20 2 ≤ 1023) :
    cmdExtentList.body q w = .done w (natLe ((extentsOf w (namedCtx q) (· != .free)).take (q.room / 4)).length 4)
      (((extentsOf w (namedCtx q) (· != .free)).take (q.room / 4)).flatMap (fun e => natLe e 2 ++ natLe (w.extent e).gen.toNat 1 ++ natLe (w.extent e).st.code 1)) := by
  simp only [cmdExtentList]
  rw [firstBad_none h (by simp [badCtxField_eq_false hc])]

end

/-- Settles O6: the extents of the range change one by one, each by the same rule. -/
theorem extentCommandsComplete : Obligations.ExtentCommandsComplete := by
  unfold Obligations.ExtentCommandsComplete
  refine ⟨fun m s v q hready h hc h1 h2 hend hst hfree hlimit => ?grant, fun m s v q hready h h1 h2 hend hst => ?revoke,
    fun m s v q hready h he hown => serve_query hready rfl (cmdExtentStatus_body h he hown), fun m s v q hready h hc => serve_query hready rfl (cmdExtentList_body h hc)⟩
  case grant =>
    refine completes_done (eff := fun w => foldKeys (rangeFrom (q.arg 22 2) (q.arg 24 2)) w (fun s e => s.updExtent e ((·.given (q.arg 20 2) s.ct))))
      (xres := (rangeFrom (q.arg 22 2) (q.arg 24 2)).flatMap (fun e => natLe (v.extent e).gen.toNat 1)) rfl (fun _ => rfl) hready
      (fun f k => cmdExtentGrant_body h hc h1 h2 hend hst hfree hlimit) fun f k g n e => ?_
    obtain ⟨x, hx, hget⟩ := foldKeys_updExtent (f := fun t => Extent.given (q.arg 20 2) t) (fun _ _ => rfl) (rangeFrom (q.arg 22 2) (q.arg 24 2)) { v with flash := v.flash.withLog f, counters := k }
    rw [hx]
    exact ⟨fun e hlo hhi => (hget e).trans (if_pos (mem_rangeFrom.mpr ⟨hlo, hhi⟩)), fun e he => (hget e).trans (if_neg fun hm => by have := mem_rangeFrom.mp hm; omega)⟩
  case revoke =>
    refine completes_pend (eff := fun w => { revokeExtents w (rangeFrom (q.arg 22 2) (q.arg 24 2)) 1 with
        revocations := w.revocations ++ [{ first := q.arg 22 2, count := q.arg 24 2 }] }) rfl (fun _ => rfl) hready
      (fun f k => cmdExtentRevoke_body h h1 h2 hend hst) fun f k g n => ?_
    have hne : rangeFrom (q.arg 22 2) (q.arg 24 2) ≠ [] := List.ne_nil_of_length_pos (by rw [length_rangeFrom]; exact h1)
    obtain ⟨x, l, d, hx, hl, hget⟩ := revokeExtents_spec { v with flash := v.flash.withLog f, counters := k } hne 1
    rw [hx]
    exact ⟨fun e hlo hhi => (hget e).trans (if_pos (mem_rangeFrom.mpr ⟨hlo, hhi⟩)), by simp [hl]⟩

end Sys2Proof.Machine
end

