-- ==== Sys2Proof/Proofs/ScheduleCommands.lean ====
section
/-!
PROOF. The commands of schedules, sync objects and the sequence table (07 R174 to R177, R182, R189, R190, R198, R200).
-/

namespace Sys2Proof.Machine

open Sys2Proof

/-! ### Schedules -/

theorem State.updSched_sched? {s : State} {n : Nat} {x : Sched} (h : s.sched? n = some x) (f : Sched → Sched) : (s.updSched n f).sched? n = some (f x) := by
  have h' : tget? s.scheds n = some x := h
  simp only [State.updSched, h', State.sched?, tget?_tput_same]

theorem endWindows_scheds (s : State) (n : Nat) : (endWindows s n).scheds = s.scheds := by
  unfold endWindows foldKeys
  exact foldl_keeps State.scheds (f := fun s t => s.updStack t (fun x => { x with reserved := none, preT0 := false })) (fun _ _ => rfl) _ s

section
variable {q : Req} {w : State} {x : Sched}

/-- A command on a loaded schedule that its party may name runs its own part. -/
theorem onSched_eq {used : List (Nat × Nat)} {body : Nat → Sched → Reply} (h : RestZero q ((20, 1) :: used)) (hn : q.arg 20 1 ≤ 63)
    (hx : w.sched? (q.arg 20 1) = some x) (hc : ∀ c, q.ctx? = some c → x.ctx = c) : onSched q w used body = body (q.arg 20 1) x := by
  simp only [onSched]
  rw [firstBad_none h (by simp [hn]), hx]
  cases hp : q.party with
  | tenant c => simp [hc c (by rw [Req.ctx?, hp])]
  | nobody => rfl
  | role r => rfl

theorem cmdSchedLoad_body (h : RestZero q [(20, 16)]) (h1 : 1 ≤ q.arg 28 8) (h2 : q.arg 28 8 ≤ 2 ^ 30) :
    cmdSchedLoad.body q w = .pend { w with
      loads := w.loads ++ [{ ctx := q.tenant, tag := q.tag, va := q.arg 20 8, len := q.arg 28 8, mailbox := q.m, cmd := q.serial }] } [] := by
  have hlen : (decide (q.arg 28 8 = 0) || decide (q.arg 28 8 > schedImageMax)) = false := by
    unfold schedImageMax
    simp only [Bool.or_eq_false_iff, decide_eq_false_iff_not, gt_iff_lt, not_lt]
    exact ⟨by omega, h2⟩
  simp only [cmdSchedLoad]
  rw [hlen, firstBad_none h rfl]

theorem cmdSchedAdmit_body (h : RestZero q [(20, 1)]) (hn : q.arg 20 1 ≤ 63) (hx : w.sched? (q.arg 20 1) = some x) (hlive : x.st.live = false)
    (hpass : admissible w x.image = true) (hc : q.ctx? = none) :
    cmdSchedAdmit.body q w = .done (w.updSched (q.arg 20 1) (fun x => { x with admitted := true })) [] [] := by
  rw [cmdSchedAdmit]
  simp only [onSched_eq h hn hx (fun c hq => by rw [hc] at hq; cases hq), hlive, hpass, Bool.false_eq_true, Bool.not_true, if_false]

theorem cmdSchedArm_body (h : RestZero q [(20, 1), (24, 16)]) (hn : q.arg 20 1 ≤ 63) (hx : w.sched? (q.arg 20 1) = some x) (hc : q.ctx? = some x.ctx)
    (hlive : x.st.live = false) (hpriv : imagePrivileged x.image = true → x.admitted = true)
    (halone : bellwether x.image = 0xFFFF → q.arg 24 8 ≠ 0 ∧ w.ct + 200000 ≤ q.arg 24 8) (hled : bellwether x.image ≠ 0xFFFF → q.arg 24 8 = 0)
    (hepoch : imageEpoch x.image = w.layout.epoch.toNat) (hown : imageOwned w x.image = true) (hclock : w.clock.st = .locked ∨ imageDevices x.image = 1)
    (hpads : paddocksFree w (q.arg 20 1) x.image = true) (hwins : windowsFree w (q.arg 20 1) x.image = true) :
    cmdSchedArm.body q w = .pend (beginArming w (q.arg 20 1) x (q.arg 24 8) (q.arg 32 8)) [] := by
  have hmay : (imagePrivileged x.image && !x.admitted || !imageOwned w x.image) = false := by
    cases hp : imagePrivileged x.image with
    | false => simp [hown]
    | true => simp [hown, hpriv hp]
  have ht0 : t0Ok w x.image (q.arg 24 8) = true := by
    unfold t0Ok
    split
    · next hb => simp [halone hb, usNs]
    · next hb => simp [hled hb]
  have hlocked : (w.clock.st != .locked && imageDevices x.image != 1) = false := by
    rcases hclock with hl | hl <;> simp [hl]
  rw [cmdSchedArm]
  simp only [onSched_eq h hn hx (fun c hq => by rw [hc] at hq; exact Option.some.inj hq), hmay, ht0, hlive, hepoch, hlocked, hpads, hwins, bne_self_eq_false,
    Bool.false_eq_true, Bool.not_true, if_false]

theorem cmdSchedDisarm_body (h : RestZero q [(20, 1)]) (hn : q.arg 20 1 ≤ 63) (hx : w.sched? (q.arg 20 1) = some x) (hc : q.ctx? = some x.ctx)
    (hst : x.st = .armed) (hlatch : x.latched = false) (ht0 : ∀ t0, x.t0 = some t0 → w.ct + 2000 < t0) :
    cmdSchedDisarm.body q w = .done { (endWindows w (q.arg 20 1)).updSched (q.arg 20 1) (fun x => { x with st := .loaded, t0 := none }) with
      startCopies := w.startCopies.filter (fun c => c.sched != q.arg 20 1) } [] [] := by
  have hdue : latchDue w x = false := by
    unfold latchDue usNs
    cases hx0 : x.t0 with
    | none => rfl
    | some t0 => simpa using ht0 t0 hx0
  rw [cmdSchedDisarm]
  simp only [onSched_eq h hn hx (fun c hq => by rw [hc] at hq; exact Option.some.inj hq), hst, hlatch, hdue, beq_self_eq_true, Bool.not_false, Bool.and_self, if_true]

theorem cmdSchedAbort_body (h : RestZero q [(20, 1)]) (hn : q.arg 20 1 ≤ 63) (hx : w.sched? (q.arg 20 1) = some x) (hc : ∀ c, q.ctx? = some c → x.ctx = c)
    (hlive : x.st.live = true) : cmdSchedAbort.body q w = .done (stopWith w (q.arg 20 1) { reason := 1, status := stOk }) [] [] := by
  rw [cmdSchedAbort]
  simp only [onSched_eq h hn hx hc, hlive, if_true]
  rfl

theorem cmdSchedUnload_body (h : RestZero q [(20, 1)]) (hn : q.arg 20 1 ≤ 63) (hx : w.sched? (q.arg 20 1) = some x) (hc : ∀ c, q.ctx? = some c → x.ctx = c)
    (hlive : x.st.live = false) : cmdSchedUnload.body q w = .done (removeSched w (q.arg 20 1)) [] [] := by
  rw [cmdSchedUnload]
  simp only [onSched_eq h hn hx hc, hlive, Bool.false_eq_true, if_false]

end

/-- Settles O7: each command names a loaded schedule that its party may name, and its own part of the body then answers. -/
theorem scheduleCommandsComplete : Obligations.ScheduleCommandsComplete := by
  unfold Obligations.ScheduleCommandsComplete
  refine ⟨fun m s v q hready h h1 h2 => ?load, fun m s v q x hready h hn hx hlive hpass hc => ?admits,
    fun m s v q x hready h hn hx hc hlive hpriv halone hled hepoch hown hclock hpads hwins => ?arm, fun m s v q x hready h hn hx hc hst hlatch ht0 => ?disarm,
    fun m s v q x hready h hn hx hc hlive => ?abort, fun m s v q x hready h hn hx hc hlive => ?unload, fun m s v q x hready h hn hx hc => ?status⟩
  case load =>
    exact completes_pend (eff := fun w => { w with loads := w.loads ++ [{ ctx := q.tenant, tag := q.tag, va := q.arg 20 8, len := q.arg 28 8, mailbox := q.m, cmd := q.serial }] })
      rfl (fun _ => rfl) hready (fun f k => cmdSchedLoad_body h h1 h2) fun f k g n => ⟨rfl, rfl, rfl⟩
  case admits =>
    exact completes_done (eff := (·.updSched (q.arg 20 1) (fun x => { x with admitted := true }))) rfl (fun _ => rfl) hready
      (fun f k => cmdSchedAdmit_body h hn hx hlive hpass hc) fun f k g n e => State.updSched_sched? (s := { v with flash := v.flash.withLog f, counters := k }) hx _
  case arm =>
    exact serve_pend_recorded (eff := (beginArming · (q.arg 20 1) x (q.arg 24 8) (q.arg 32 8))) hready fun f k =>
      cmdSchedArm_body h hn hx hc hlive hpriv halone hled hepoch hown hclock hpads hwins
  case disarm =>
    refine completes_done (eff := fun w => { (endWindows w (q.arg 20 1)).updSched (q.arg 20 1) (fun x => { x with st := .loaded, t0 := none }) with
      startCopies := w.startCopies.filter (fun c => c.sched != q.arg 20 1) }) rfl (fun _ => rfl) hready (fun f k => cmdSchedDisarm_body h hn hx hc hst hlatch ht0) fun f k g n e => ?_
    have hx' : (endWindows { v with flash := v.flash.withLog f, counters := k } (q.arg 20 1)).sched? (q.arg 20 1) = some x := by
      rw [State.sched?, endWindows_scheds]
      exact hx
    exact State.updSched_sched? hx' _
  case abort =>
    exact serve_done_recorded (eff := (stopWith · (q.arg 20 1) { reason := 1, status := stOk })) hready fun f k => cmdSchedAbort_body h hn hx hc hlive
  case unload => exact serve_done_recorded (eff := (removeSched · (q.arg 20 1))) hready fun f k => cmdSchedUnload_body h hn hx hc hlive
  case status =>
    refine serve_query hready rfl ?_
    simp only [cmdSchedStatus]
    exact onSched_eq h hn hx hc

/-! ### Sync objects and the sequence table -/

/-- Changing entries one after the other, by changes that a second one repeats, changes each of them. -/
theorem tgetD_foldl_tupd {α : Type} (d : α) {f : Nat → α → α} (hf : ∀ i x, f i (f i x) = f i x) (es : List Nat) (t : Tab α) (e : Nat) :
    tgetD (es.foldl (fun t i => tupd t d i (f i)) t) d e = if e ∈ es then f e (tgetD t d e) else tgetD t d e := by
  induction es generalizing t with
  | nil => simp
  | cons a r ih =>
    rw [List.foldl_cons, ih]
    by_cases hea : e = a
    · subst hea
      simp [hf]
    · rw [tgetD_tupd_other _ _ _ hea]
      simp [hea]

theorem foldKeys_updSync (f : SyncObj → SyncObj) (es : List Nat) (s : State) :
    foldKeys es s (fun s i => s.updSync i f) = { s with sync := es.foldl (fun t i => tupd t {} i f) s.sync } := by
  induction es generalizing s with
  | nil => rfl
  | cons a r ih => exact ih (s.updSync a f)

theorem foldKeys_updSeq (f : SeqEntry → SeqEntry) (es : List Nat) (s : State) :
    foldKeys es s (fun s i => s.updSeq i f) = { s with seqs := es.foldl (fun t i => tupd t {} i f) s.seqs } := by
  induction es generalizing s with
  | nil => rfl
  | cons a r ih => exact ih (s.updSeq a f)

theorem mem_idRange {q : Req} {i : Nat} : i ∈ idRange q ↔ q.arg 20 2 ≤ i ∧ i < q.arg 20 2 + q.arg 22 2 := mem_rangeFrom

section
variable {q : Req} {w : State}

theorem cmdSyncAlloc_body (h : RestZero q [(20, 4)]) (h1 : 1 ≤ q.arg 22 2) (h2 : q.arg 22 2 ≤ 16384) (hend : q.arg 20 2 + q.arg 22 2 ≤ 65536)
    (hfree : ∀ i ∈ idRange q, (w.syncObj i).owner = none) (hlimit : syncOwned w q.tenant + q.arg 22 2 ≤ (w.ctx q.tenant).syncLimit) :
    cmdSyncAlloc.body q w = .done (foldKeys (idRange q) w (fun s i => s.updSync i (fun x => { x with owner := some q.tenant }))) [] [] := by
  have hany : ((idRange q).any (fun i => (w.syncObj i).owner.isSome) || decide (syncOwned w q.tenant + q.arg 22 2 > (w.ctx q.tenant).syncLimit)) = false := by
    rw [Bool.or_eq_false_iff, List.any_eq_false]
    exact ⟨fun i hi => by simp [hfree i hi], by simpa using hlimit⟩
  simp only [cmdSyncAlloc]
  rw [firstBad_none h (by simp [h1, h2, hend])]
  simp only [hany, Bool.false_eq_true, if_false]

theorem cmdSyncFree_body (h : RestZero q [(20, 4)]) (h1 : 1 ≤ q.arg 22 2) (h2 : q.arg 22 2 ≤ 16384) (hend : q.arg 20 2 + q.arg 22 2 ≤ 65536)
    (hown : ∀ i ∈ idRange q, (w.syncObj i).owner = some q.tenant) (hdecl : syncDeclared w (q.arg 20 2) (q.arg 22 2) = false) :
    cmdSyncFree.body q w = .done (foldKeys (idRange q) w (fun s i => s.updSync i (fun x => { x with owner := none }))) [] [] := by
  have hany : (idRange q).any (fun i => !ownsSync w q.tenant i) = false := List.any_eq_false.mpr fun i hi => by simp [ownsSync, hown i hi]
  simp only [cmdSyncFree]
  rw [firstBad_none h (by simp [h1, h2, hend])]
  simp only [hany, hdecl, Bool.false_eq_true, if_false]

theorem cmdSyncOp_body {form : Req → Bool} {act : Nat → Nat → State → State} (h : RestZero q [(20, 3), (24, 4)]) (hop : q.arg 22 1 ≤ 2)
    (hown : (w.syncObj (q.arg 20 2)).owner = some q.tenant) :
    (cmdSyncOp form act).body q w
      = .done (act (q.arg 20 2) (q.arg 24 4) w) (natLe ((act (q.arg 20 2) (q.arg 24 4) w).syncObj (q.arg 20 2)).value.toNat 4) [] := by
  simp only [cmdSyncOp]
  rw [firstBad_none h (by simp [hop])]
  simp only [ownsSync, hown, beq_self_eq_true, Bool.not_true, Bool.false_eq_true, if_false]

theorem cmdSeqAssign_body (h : RestZero q [(20, 4)]) (h1 : 1 ≤ q.arg 22 2) (hend : q.arg 20 2 + q.arg 22 2 ≤ 4096) (hfree : ∀ i ∈ idRange q, (w.seqEntry i).owner = none) :
    cmdSeqAssign.body q w = .done (foldKeys (idRange q) w (fun s i => s.updSeq i (fun _ => { owner := some q.tenant, n := 0 }))) [] [] := by
  have h2 : q.arg 22 2 ≤ 4096 := by omega
  have hany : (idRange q).any (fun i => (w.seqEntry i).owner.isSome) = false := List.any_eq_false.mpr fun i hi => by simp [hfree i hi]
  simp only [cmdSeqAssign]
  rw [firstBad_none h (by simp [h1, h2, hend, seqMax])]
  simp only [hany, Bool.false_eq_true, if_false]

theorem cmdSeqRelease_body (h : RestZero q [(20, 4)]) (h1 : 1 ≤ q.arg 22 2) (hend : q.arg 20 2 + q.arg 22 2 ≤ 4096)
    (hown : ∀ i ∈ idRange q, (w.seqEntry i).owner = some q.tenant) (hdecl : seqDeclared w (q.arg 20 2) (q.arg 22 2) = false) :
    cmdSeqRelease.body q w = .done (foldKeys (idRange q) w (fun s i => s.updSeq i (fun _ => {}))) [] [] := by
  have h2 : q.arg 22 2 ≤ 4096 := by omega
  have hany : (idRange q).any (fun i => (w.seqEntry i).owner != some q.tenant) = false := List.any_eq_false.mpr fun i hi => by simp [hown i hi]
  simp only [cmdSeqRelease]
  rw [firstBad_none h (by simp [h1, h2, hend, seqMax])]
  simp only [hany, hdecl, Bool.false_eq_true, if_false]

theorem cmdSeqRead_body (h : RestZero q [(20, 2)]) (hi : q.arg 20 2 < 4096) (hown : (w.seqEntry (q.arg 20 2)).owner = some q.tenant) :
    cmdSeqRead.body q w = .done w (natLe (w.seqEntry (q.arg 20 2)).n 4) [] := by
  simp only [cmdSeqRead]
  rw [firstBad_none h (by simp [hi, seqMax])]
  simp only [hown, bne_self_eq_false, Bool.false_eq_true, if_false]

end

/-- What SYNC_OP leaves: it is no command of a role, so its action runs on the state in which it is judged. -/
theorem syncOp_completes {i : Instr} {m : Nat} {s v : State} {q : Req} {form : Req → Bool} {act : Nat → Nat → State → State} {P : State → Prop}
    (hi : exec i s = serve m (cmdSyncOp form act) s) (hready : Ready (cmdSyncOp form act) m s q v) (h : RestZero q [(20, 3), (24, 4)]) (hop : q.arg 22 1 ≤ 2)
    (hown : (v.syncObj (q.arg 20 2)).owner = some q.tenant)
    (hp : ∀ g n e, P { act (q.arg 20 2) (q.arg 24 4) v with pages := g, qps := n, pendings := e }) : Completes i s P :=
  completes_unrecorded hi (fun _ => rfl) hready rfl (cmdSyncOp_body h hop hown) hp

theorem syncSignal_value (s : State) (i n : Nat) : ((syncSignal s i n).syncObj i).value.toNat = min ((s.syncObj i).value.toNat + n) (2 ^ 32 - 1) := by
  rw [syncSignal_syncObj, State.updSync_syncObj, SyncObj.signalled_toNat]

/-- A signal that saturates marks the owner. -/
theorem syncSignal_owner {s : State} {i n c : Nat} (hc : (s.syncObj i).owner = some c) (h : 2 ^ 32 ≤ (s.syncObj i).value.toNat + n) :
    (syncSignal s i n).ctx c = (s.ctx c).saturated := by
  rw [State.ctx, syncSignal_ctxs, SyncObj.saturatedOwner_of_le h, hc]
  exact State.updCtx_ctx s c _

/-- Settles O8: a range of objects or entries changes one by one, each by the same rule. -/
theorem syncCommandsComplete : Obligations.SyncCommandsComplete := by
  unfold Obligations.SyncCommandsComplete
  refine ⟨fun m s v q hready h h1 h2 hend hfree hlimit => ?alloc, fun m s v q hready h h1 h2 hend hown hdecl => ?frees, fun m s v q hready h hop hown => ?reads,
    fun m s v q hready h hop hown => ?signals, fun m s v q hready h hop hown => ?resets, fun m s v q hready h h1 hend hfree => ?assign,
    fun m s v q hready h h1 hend hown hdecl => ?release, fun m s v q hready h hi hown => serve_query hready rfl (cmdSeqRead_body h hi hown)⟩
  case alloc =>
    refine completes_done (eff := fun w => foldKeys (idRange q) w (fun s i => s.updSync i (fun x => { x with owner := some q.tenant }))) rfl (fun _ => rfl) hready
      (fun f k => cmdSyncAlloc_body h h1 h2 hend hfree hlimit) fun f k g n e i => ?_
    rw [foldKeys_updSync]
    refine (tgetD_foldl_tupd {} (f := fun _ x => { x with owner := some q.tenant }) (fun _ _ => rfl) (idRange q) v.sync i).trans ?_
    simp only [mem_idRange]
    rfl
  case frees =>
    refine completes_done (eff := fun w => foldKeys (idRange q) w (fun s i => s.updSync i (fun x => { x with owner := none }))) rfl (fun _ => rfl) hready
      (fun f k => cmdSyncFree_body h h1 h2 hend hown hdecl) fun f k g n e i => ?_
    rw [foldKeys_updSync]
    refine (tgetD_foldl_tupd {} (f := fun _ x => { x with owner := none }) (fun _ _ => rfl) (idRange q) v.sync i).trans ?_
    simp only [mem_idRange]
    rfl
  case reads => exact serve_query hready rfl (cmdSyncOp_body h (by omega) hown)
  case signals =>
    refine syncOp_completes rfl hready h (by omega) hown fun g n e => ⟨syncSignal_value v _ _, fun hsat => ?_⟩
    have hctx := syncSignal_owner (n := q.arg 24 4) hown (by omega)
    exact ⟨congrArg Ctx.syncSaturated hctx, congrArg Ctx.syncSaturatedCnt hctx⟩
  case resets =>
    refine syncOp_completes rfl hready h (by omega) hown fun g n e => ?_
    exact congrArg SyncObj.value (State.updSync_syncObj v (q.arg 20 2) (fun x => { x with value := 0 }))
  case assign =>
    refine completes_done (eff := fun w => foldKeys (idRange q) w (fun s i => s.updSeq i (fun _ => { owner := some q.tenant, n := 0 }))) rfl (fun _ => rfl) hready
      (fun f k => cmdSeqAssign_body h h1 hend hfree) fun f k g n e i => ?_
    rw [foldKeys_updSeq]
    refine (tgetD_foldl_tupd {} (f := fun _ _ => { owner := some q.tenant, n := 0 }) (fun _ _ => rfl) (idRange q) v.seqs i).trans ?_
    simp only [mem_idRange]
    rfl
  case release =>
    refine completes_done (eff := fun w => foldKeys (idRange q) w (fun s i => s.updSeq i (fun _ => {}))) rfl (fun _ => rfl) hready
      (fun f k => cmdSeqRelease_body h h1 hend hown hdecl) fun f k g n e i => ?_
    rw [foldKeys_updSeq]
    refine (tgetD_foldl_tupd {} (f := fun _ _ => {}) (fun _ _ => rfl) (idRange q) v.seqs i).trans ?_
    simp only [mem_idRange]
    rfl

end Sys2Proof.Machine
end

