-- ==== Sys2Proof/Proofs/PortAndTimeCommands.lean ====
section
/-!
PROOF. The commands of ports and of cluster time (11 R253, R254, R265, R269; 07 R168, R200).
-/

namespace Sys2Proof.Machine

open Sys2Proof

/-! ### Ports -/

theorem foldKeys_updPort (f : Port → Port) (ks : List Nat) (s : State) :
    foldKeys ks s (fun s i => s.updPort i f) = { s with ports := ks.foldl (fun t i => tupd t {} i f) s.ports } := by
  induction ks generalizing s with
  | nil => rfl
  | cons a r ih => exact ih (s.updPort a f)

theorem mem_maskPorts {n p : Nat} (h : p < 64) : p ∈ maskPorts n ↔ bit n p = true := by
  simp [maskPorts, h]

section
variable {q : Req} {w : State}

theorem cmdPortConfig_body (hfields : quadFault (q.slot.drop 20) = none) (hjob : w.job.isOpen = false)
    (hquad : quadRefusal w (field (q.slot.drop 20) 0 1) (field (q.slot.drop 20) 1 1) = none) :
    cmdPortConfig.body q w = .done (configureQuad w (q.slot.drop 20)) [] [] := by
  simp only [cmdPortConfig, hfields, hjob, hquad, Bool.false_eq_true, if_false]

theorem cmdPortStatus_body (h : RestZero q [(20, 1)]) (hk : q.arg 20 1 ≤ 15) :
    cmdPortStatus.body q w = .done w (natLe (w.quad (q.arg 20 1)).st.code 1 ++ natLe (w.quad (q.arg 20 1)).mode 1 ++ natLe 0 2
      ++ (List.range 4).flatMap (fun n => natLe (w.port (4 * q.arg 20 1 + n)).link.code 1 ++ natLe (w.port (4 * q.arg 20 1 + n)).cause 1
        ++ natLe (w.port (4 * q.arg 20 1 + n)).outstanding 2 ++ natLe (w.port (4 * q.arg 20 1 + n)).replays 4)
      ++ natLe ((w.now - (w.quad (q.arg 20 1)).since) / 1000000) 4) [] := by
  simp only [cmdPortStatus]
  rw [firstBad_none h (by simp [hk])]

theorem cmdQuadReset_body (h : RestZero q [(20, 1)]) (hk : q.arg 20 1 ≤ 15) (hst : (w.quad (q.arg 20 1)).st = .training ∨ (w.quad (q.arg 20 1)).st = .active) :
    cmdQuadReset.body q w = .done (logQuadReset (quadReset w (q.arg 20 1)) (q.arg 20 1) 1) [] [] := by
  simp only [cmdQuadReset]
  rw [firstBad_none h (by simp [hk])]
  rcases hst with hst | hst <;> rw [hst]

/-- What LINK_PARAMS_SET gives each port of its mask. -/
def Port.withParams (replay ack loss : Nat) (p : Port) : Port := { p with replayTimer := replay, ackDelay := ack, lossTime := loss * 1000 }

theorem cmdLinkParamsSet_body (h : RestZero q [(22, 18)]) (hr1 : 1000 ≤ q.arg 30 4) (hr2 : q.arg 30 4 ≤ 100000) (hloss : q.arg 30 4 * 2 ≤ q.arg 36 4 * 1000)
    (ha : q.arg 34 2 ≤ 2000) (hack : q.arg 34 2 * 2 < q.arg 30 4) (hl1 : 10 ≤ q.arg 36 4) (hl2 : q.arg 36 4 ≤ 100000) :
    cmdLinkParamsSet.body q w
      = .done (foldKeys (maskPorts (q.arg 22 8)) w (fun s p => s.updPort p (Port.withParams (q.arg 30 4) (q.arg 34 2) (q.arg 36 4)))) [] [] := by
  simp only [cmdLinkParamsSet]
  rw [firstBad_none h (by simp [hr1, hr2, hloss, ha, hack, hl1, hl2])]
  rfl

theorem cmdTimeConfig_body (h : RestZero q []) (hlen : q.xargLen = 192) (hfields : timeFault q.xarg = none) (hlive : anyLive w = false) :
    cmdTimeConfig.body q w = .done (setTimeConfig w (timeConfigOf q.xarg)) [] [] := by
  simp only [cmdTimeConfig]
  rw [show q.firstBad [] [] = none from h]
  simp only [hlen, hfields, hlive, bne_self_eq_false, Bool.false_eq_true, if_false]

theorem cmdClockStatus_body (h : RestZero q []) :
    cmdClockStatus.body q w = .done { w with free := w.free + 1 } (natLe w.clock.st.code 1 ++ natLe (clockSource w.clock) 1 ++ natLe 0 2
      ++ natLe (unsigned (w.clock.lastOffset / 65536) 64) 8 ++ natLe (errorEstimate w) 4 ++ natLe w.clock.grandmaster.toNat 8 ++ natLe w.clock.stepsRemoved 1 ++ natLe 0 3
      ++ natLe ((w.now - w.clock.since) / 1000000) 4) [] := by
  simp only [cmdClockStatus]
  rw [show q.firstBad [] [] = none from h]

end

theorem setTimeConfig_clock (s : State) {c : TimeConfig} (h : c.mode ≠ 0) :
    (setTimeConfig s c).clock = { s.clock with config := c, onBackup := false, ppsSeen := false, ptpOffset := none, parent := 0
                                               increment := clampInc c.slewMax (s.clock.increment - nominalInc), ppsOutSecond := (s.ct + c.ppsOutDelay) / 1000000000 } := by
  simp only [setTimeConfig, h, if_false]
  rfl

/-- Settles O9: the commands that can take a link down end as any other, and the clock then looks at its source. -/
theorem portAndTimeCommandsComplete : Obligations.PortAndTimeCommandsComplete := by
  unfold Obligations.PortAndTimeCommandsComplete
  refine ⟨fun m s v q hready hfields hjob hquad => ?config, fun m s v q hready h hk => serve_query hready rfl (cmdPortStatus_body h hk),
    fun m s v q hready h hk hst => ?reset, fun m s v q hready h hr1 hr2 hloss ha hack hl1 hl2 => ?params,
    fun m s v q hready h hlen hfields hlive => ⟨?time, fun hmode => ?clock⟩, fun m s v q hready h => ?status⟩
  case config =>
    exact congrArg (watchSource (!sourceDown s)) (serve_done_recorded (eff := (configureQuad · (q.slot.drop 20))) hready fun f k => cmdPortConfig_body hfields hjob hquad)
  case reset =>
    exact congrArg (watchSource (!sourceDown s)) (serve_done_recorded (eff := fun w => logQuadReset (quadReset w (q.arg 20 1)) (q.arg 20 1) 1) hready
      fun f k => cmdQuadReset_body h hk hst)
  case params =>
    refine completes_done (eff := fun w => foldKeys (maskPorts (q.arg 22 8)) w (fun s p => s.updPort p (Port.withParams (q.arg 30 4) (q.arg 34 2) (q.arg 36 4))))
      rfl (fun _ => rfl) hready (fun f k => cmdLinkParamsSet_body h hr1 hr2 hloss ha hack hl1 hl2) fun f k g n e p hp => ?_
    rw [foldKeys_updPort]
    refine (tgetD_foldl_tupd {} (f := fun _ => Port.withParams (q.arg 30 4) (q.arg 34 2) (q.arg 36 4)) (fun _ _ => rfl) (maskPorts (q.arg 22 8)) v.ports p).trans ?_
    simp only [mem_maskPorts hp]
    rfl
  case time =>
    exact serve_done_recorded (eff := (setTimeConfig · (timeConfigOf q.xarg))) hready fun f k => cmdTimeConfig_body h hlen hfields hlive
  case clock =>
    obtain ⟨f, k, hrec⟩ := recorded_frame cmdTimeConfig q v
    rw [setTimeConfig_clock _ hmode, hrec]
    rfl
  case status =>
    exact serve_done_unrecorded hready rfl (cmdClockStatus_body h)

end Sys2Proof.Machine
end

