-- ==== Sys2Proof/Proofs/Notices.lean ====
section
/-!
SUPPORT. What events, trace records, error records and link reports touch.
-/

namespace Sys2Proof.Machine

open Sys2Proof

/-! ### Events and trace records -/

theorem postRoles_frame (s : State) (rs : List Role) (code ty id : Nat) (d : Bytes) (st : Nat) :
    ∃ p x, postRoles s rs code ty id d st = { s with pages := p, qps := x } := by
  obtain ⟨⟨p, x⟩, h⟩ := foldl_frame (fun s (b : Tab Page × Tab Qp) => { s with pages := b.1, qps := b.2 }) (fun _ _ _ => rfl) (fun s => ⟨(s.pages, s.qps), rfl⟩)
    (fun s r => postEvent s (roleMailbox r) code ty id d st) (fun s r => by
      obtain ⟨p, x, h⟩ := postEvent_frame s (roleMailbox r) code ty id d st
      exact ⟨(p, x), h⟩) rs s
  exact ⟨p, x, h⟩

theorem writeLoss_frame (s : State) (n : Nat) : ∃ p x m, writeLoss s n = { s with pages := p, qps := x, streams := m } := by
  unfold writeLoss
  dsimp only
  split
  · exact ⟨_, _, _, rfl⟩
  · split
    · exact ⟨_, _, _, rfl⟩
    · obtain ⟨p, x, h⟩ := postEvent_frame s (s.stream n).owner 0xF 0x09 n (natLe (s.stream n).firstDrop 8 ++ natLe (s.stream n).drops 4) 0
      rw [h]
      exact ⟨_, _, _, rfl⟩

theorem streamTake_frame (s : State) (n : Nat) (r : TraceRec) : ∃ p x m, streamTake s n r = { s with pages := p, qps := x, streams := m } := by
  unfold streamTake
  split
  · exact ⟨_, _, _, rfl⟩
  · exact ⟨_, _, _, rfl⟩
  · obtain ⟨p, x, m, h⟩ := writeLoss_frame s n
    rw [h]
    exact ⟨_, _, _, rfl⟩

theorem trace_frame (s : State) (type unit : Nat) (ctx : Option Nat) (time : Nat) (d : Bytes) :
    ∃ p x m, trace s type unit ctx time d = { s with pages := p, qps := x, streams := m } := by
  unfold trace
  split
  · exact ⟨_, _, _, rfl⟩
  · obtain ⟨⟨p, x, m⟩, h⟩ := foldl_frame (fun s (b : Tab Page × Tab Qp × Tab Stream) => { s with pages := b.1, qps := b.2.1, streams := b.2.2 })
      (fun _ _ _ => rfl) (fun s => ⟨(s.pages, s.qps, s.streams), rfl⟩)
      (fun s n => streamTake s n { type := type, source := unit, flags := 0, ctx := ctx.getD 0xFFFF, seq := 0, time := time, data := padTo d 16 }) (fun s n => by
        obtain ⟨p, x, m, h⟩ := streamTake_frame s n { type := type, source := unit, flags := 0, ctx := ctx.getD 0xFFFF, seq := 0, time := time, data := padTo d 16 }
        exact ⟨(p, x, m), h⟩) (tkeys s.streams (fun _ x => x.selects type ctx)) s
    exact ⟨p, x, m, h⟩

theorem logError_devFrame (s : State) (code cls unit : Nat) (d : Bytes) (st : Nat) : ∃ a v, logError s code cls unit d st = { s with aon := a, dev := v } := by
  obtain ⟨a, x, y, n, h⟩ := logError_frame s code cls unit d st
  dsimp only at h
  rw [h]
  split <;> exact ⟨_, _, rfl⟩

/-! ### Links and quads -/

theorem reportLink_frame (s : State) (q : Nat) (new old : LinkState) (cause : Nat) : ∃ p x m, reportLink s q new old cause = { s with pages := p, qps := x, streams := m } := by
  unfold reportLink
  split
  · exact ⟨_, _, _, rfl⟩
  · dsimp only
    obtain ⟨p, x, h⟩ := postRoles_frame s [.installer, .operator] 0xC 4 (q / 4) (linkData (s.port q) q new old cause) 0
    rw [h]
    obtain ⟨p, x, m, h⟩ := trace_frame { s with pages := p, qps := x } 6 (0x30 + q / 4) none s.ct (linkData (s.port q) q new old cause ++ natLe (q / 4) 1)
    exact ⟨p, x, m, h⟩

/-- A port in another state of its link, since `now` (11 R255). -/
def Port.inLink (p : Port) (new : LinkState) (cause now : Nat) : Port := { p with link := new, cause := cause, since := now, refusalReported := false }

theorem setLink_frame (s : State) (q : Nat) (new : LinkState) (cause : Nat) :
    ∃ p x m, setLink s q new cause = { s.updPort q (·.inLink new cause s.now) with pages := p, qps := x, streams := m } :=
  reportLink_frame (s.updPort q (·.inLink new cause s.now)) q new (s.port q).link cause

theorem setLink_port (s : State) (q : Nat) (new : LinkState) (cause : Nat) : (setLink s q new cause).port q = (s.port q).inLink new cause s.now := by
  obtain ⟨p, x, m, h⟩ := setLink_frame s q new cause
  rw [h]
  exact State.updPort_port s q (·.inLink new cause s.now)

theorem portTrain_quads (s : State) (q : Nat) : (portTrain s q).quads = s.quads := by
  unfold portTrain
  split
  · obtain ⟨p, x, m, h⟩ := setLink_frame s q .training 8
    rw [h]
    rfl
  · rfl

end Sys2Proof.Machine
end

