-- ==== Sys2Proof/Proofs/ClockAndPortEvents.lean ====
section
/-!
PROOF. The timed events of the cluster clock, of quads and of ports (07 R161 to R167; 11 R253 to R268; 19 R433).
-/

namespace Sys2Proof.Machine

open Sys2Proof

/-! ### How a timed happening that is due ends -/

section
variable {i : Instr} {o : Host.Outcome State Fault Refusal} {t : Nat} {s : State} {due : State → Bool} {act : State → State} {P : State → Prop}

/-- A timed row, named `o`, that is due. -/
theorem completes_timed (hi : exec i s = o) (ho : o = timed t s due act) (h : due (advance s t) = true) (hp : P (act (advance s t))) : Completes i s P :=
  completes_of_exec (hi.trans (ho.trans (timed_due h))) hp

theorem ticking_due (hc : (advance s t).clocked = true) (h : due (advance s t) = true) : ticking t s due act = .next (act (advance s t)) :=
  timed_due (by simp [hc, h])

/-- A timed row of what runs on the functional clocks. -/
theorem completes_ticking (hi : exec i s = o) (ho : o = ticking t s due act) (hc : (advance s t).clocked = true) (h : due (advance s t) = true)
    (hp : P (act (advance s t))) : Completes i s P := completes_of_exec (hi.trans (ho.trans (ticking_due hc h))) hp

end

/-! ### The cluster clock -/

/-- The loss of its source takes a LOCKED clock to HOLDOVER. -/
theorem sourceLost_of_locked {s : State} (h : s.clock.st = .locked) : (sourceLost s).clock.st = .holdover ∧ (sourceLost s).clock.since = s.now := by
  unfold sourceLost
  rw [h]
  dsimp only
  split <;> exact ⟨rfl, rfl⟩

theorem sourceLost_of_acquiring {s : State} (h : s.clock.st = .acquiring) : sourceLost s = enterFree s := by
  unfold sourceLost
  rw [h]

theorem takeSample_of_free {s : State} (h : s.clock.st = .free) (off : Int) :
    (takeSample s off).clock.st = .acquiring ∧ (takeSample s off).clock.since = s.now ∧ (takeSample s off).clock.ppsSeen = s.clock.ppsSeen := by
  unfold takeSample
  simp only [State.updClock_clock, h]
  exact ⟨rfl, rfl, rfl⟩

/-- The first edge of TIME_PPS_IN in mode 2. -/
theorem ppsSample_of_free {s : State} (hm : s.clock.config.mode = 2) (h : s.clock.st = .free) :
    (ppsSample s).clock.st = .acquiring ∧ (ppsSample s).clock.since = s.now ∧ (ppsSample s).clock.ppsSeen = true := by
  unfold ppsSample
  simp only [hm, if_true]
  refine takeSample_of_free ?_ _
  exact h

/-- Settles O10: every event is due, and acts on the clock as its source's state has it. -/
theorem clockEventsComplete : Obligations.ClockEventsComplete := by
  unfold Obligations.ClockEventsComplete
  refine ⟨?sample, ?announce, ?bound, ?qualified, ?lost, ?edge, ?outEdge, ?fall⟩
  case sample =>
    rintro t s u rfl hc hm hlast hst
    exact completes_timed (o := execSampleTimeout t s) rfl rfl (by simp [hc, hm, hlast]) (sourceLost_of_locked hst)
  case announce =>
    rintro t s u rfl hc hm hlast hst
    rw [← sourceLost_of_acquiring hst]
    change execAnnounceTimeout t s = _
    exact timed_due (by simp [hc, hm, hlast])
  case bound =>
    rintro t s u rfl hc hst hbound
    change execHoldoverBoundExceeded t s = _
    exact timed_due (by simp [hc, hst, hbound])
  case qualified =>
    rintro t s u rfl hc hst hsince href
    exact completes_timed (o := execTimeRefInQualified t s) rfl rfl (by simp [hc, hst, hsince, href]) rfl
  case lost =>
    rintro t s u rfl hc href
    exact completes_timed (o := execTimeRefInLost t s) rfl rfl (by simp [hc, href]) rfl
  case edge =>
    rintro t s u rfl hc hm hst
    exact completes_timed (o := execTimePpsInEdge t s) rfl rfl (by simp [hc, usesPps, hm]) (ppsSample_of_free hm hst)
  case outEdge =>
    rintro t s u rfl hc hst hsecond
    exact completes_timed (o := execPpsOutEdge t s) rfl rfl (by simp [hc, hst, hsecond]) rfl
  case fall =>
    rintro t s u rfl hc hout hsince
    exact completes_ticking (o := execTimePpsOutFall t s) rfl rfl hc (by simp [hout, hsince]) rfl

/-! ### Ports and quads -/

theorem portTrained_port (s : State) (q : Nat) :
    (portTrained s q).port q = (s.port q).inLink (if (s.port q).relMode ≥ 1 then .negotiating else .up) 1 s.now := by
  unfold portTrained
  dsimp only
  generalize (if (s.port q).relMode ≥ 1 then LinkState.negotiating else .up) = new
  split
  · exact setLink_port s q new 1
  · exact setLink_port s q new 1

/-- The quad after its hold: its ports train, it has its new state. -/
theorem holdEnd_quads (s : State) (k : Nat) (st : QuadState) (ps : List Nat) : (foldKeys ps (setQuad s k st) portTrain).quad k = { s.quad k with st := st, since := s.now } := by
  have hports : (foldKeys ps (setQuad s k st) portTrain).quads = (setQuad s k st).quads := foldl_keeps State.quads portTrain_quads _ _
  rw [State.quad, hports]
  exact State.updQuad_quad s k _

/-- Settles O11: a link that changes reports it, which no port or quad sees. -/
theorem portEventsComplete : Obligations.PortEventsComplete := by
  unfold Obligations.PortEventsComplete
  refine ⟨?trained, ?retrain, ?hold, ?lost, ?regained, ?expiry⟩
  case trained =>
    rintro t q s u rfl hc hq hst
    refine completes_timed (o := execPortTrained t q s) rfl rfl (by simp [hc, hq, hst]) ?_
    rw [portTrained_port]
    exact ⟨rfl, rfl⟩
  case retrain =>
    rintro t q s u rfl hc hq hst hsince hquad
    refine completes_ticking (o := execDownRetrainTimer t q s) rfl rfl hc (by simpa [hq, hst, hsince, or_assoc] using hquad) ?_
    rw [portTrain, if_pos hst, setLink_port]
    exact ⟨rfl, rfl⟩
  case hold =>
    rintro t k s u rfl hc hst hsince
    refine completes_ticking (o := execQuadResetHoldEnd t k s) rfl rfl hc (by simp [hst, hsince]) ?_
    rw [holdEnd_quads]
    exact ⟨rfl, rfl⟩
  case lost =>
    rintro t q s u rfl hc hcarries hlock
    exact completes_ticking (o := execPcsLockLost t q s) rfl rfl hc (by simp [hcarries, hlock]) (State.updPort_port _ _ _)
  case regained =>
    rintro t q s u rfl hc hlock
    exact completes_ticking (o := execPcsLockRegained t q s) rfl rfl hc hlock (State.updPort_port _ _ _)
  case expiry =>
    rintro t q s u rfl hc hcarries hlock
    change execLinkLossTimeExpiry t q s = _
    unfold execLinkLossTimeExpiry
    rw [ticking_due hc (by simp [hcarries, hlock])]
    simp only [hlock, if_true]
    rfl

end Sys2Proof.Machine
end

