-- ==== Sys2Proof/Proofs/FabricCommands.lean ====
section
/-!
PROOF. The commands of the fabric tables, sessions, queue pairs and jobs (12 R272, R286, R287, R292, R295, R296, R299, R301, R305).
-/

namespace Sys2Proof.Machine

open Sys2Proof

/-! ### Tables -/

section
variable {q : Req} {w : State}

theorem cmdLocalIdSet_body (h : RestZero q [(20, 3)]) (hp : 1024 ≤ q.arg 20 2) (h1 : 1 ≤ q.arg 22 1) (h2 : q.arg 22 1 ≤ 16) (hlen : q.xargLen = 24 * q.arg 22 1)
    (hgood : entryBad q.xarg 24 (q.arg 22 1) localBad = none) :
    cmdLocalIdSet.body q w = .done { w.updDev (fun d => { d with erunoPort := BitVec.ofNat 16 (q.arg 20 2) }) with locals := (entriesOf q.xarg 24).map localIdOf } [] [] := by
  simp only [cmdLocalIdSet]
  rw [firstBad_none h (by simp [hp, h1, h2])]
  simp only [hlen, hgood, bne_self_eq_false, Bool.false_eq_true, if_false]

/-- The endpoint table with the entries of an ENDPOINT_SET. -/
def withEndpoints (t : Tab Endpoint) (b : Bytes) : Tab Endpoint := (entriesOf b 32).foldl (fun t e => tput t (field e 0 3)
  { flags := BitVec.ofNat 8 (field e 3 1), vlan := BitVec.ofNat 16 (field e 4 2), udpPort := BitVec.ofNat 16 (field e 6 2), ip := BitVec.ofNat 128 (field e 8 16) }) t

/-- The forwarding table with the entries of a FORWARD_SET. -/
def withForwards (t : Tab Forward) (b : Bytes) : Tab Forward := (entriesOf b 16).foldl (fun t e => tput t (field e 0 3)
  { port := BitVec.ofNat 8 (field e 3 1), nextHop := BitVec.ofNat 48 (field e 4 6), flags := BitVec.ofNat 8 (field e 10 1) }) t

theorem cmdEndpointSet_body (h : RestZero q [(20, 2)]) (h1 : 1 ≤ q.arg 20 2) (h2 : q.arg 20 2 ≤ 640) (hlen : q.xargLen = 32 * q.arg 20 2)
    (hgood : entryBad q.xarg 32 (q.arg 20 2) endpointBad = none) (hroom : (withEndpoints w.endpoints q.xarg).length ≤ 65536) :
    cmdEndpointSet.body q w = .done { w with endpoints := withEndpoints w.endpoints q.xarg } [] [] := by
  simp only [cmdEndpointSet]
  rw [firstBad_none h (by simp [h1, h2])]
  simp only [hlen, hgood, bne_self_eq_false, Bool.false_eq_true, if_false]
  exact if_neg (Nat.not_lt.mpr hroom)

theorem cmdForwardSet_body (h : RestZero q [(20, 2)]) (h1 : 1 ≤ q.arg 20 2) (h2 : q.arg 20 2 ≤ 1280) (hlen : q.xargLen = 16 * q.arg 20 2)
    (hgood : entryBad q.xarg 16 (q.arg 20 2) forwardBad = none) (hroom : (withForwards w.forwards q.xarg).length ≤ 65536) :
    cmdForwardSet.body q w = .done { w with forwards := withForwards w.forwards q.xarg } [] [] := by
  simp only [cmdForwardSet]
  rw [firstBad_none h (by simp [h1, h2])]
  simp only [hlen, hgood, bne_self_eq_false, Bool.false_eq_true, if_false]
  exact if_neg (Nat.not_lt.mpr hroom)

theorem cmdEndpointClear_body (held : Bool) (h : RestZero q [(20, 3)]) :
    (cmdEndpointClear held).body q w = .done { w with endpoints := tdel w.endpoints (q.arg 20 3) } [] [] := by
  simp only [cmdEndpointClear]
  rw [firstBad_none h rfl]

theorem cmdForwardClear_body (held : Bool) (h : RestZero q [(20, 3)]) :
    (cmdForwardClear held).body q w = .done { w with forwards := tdel w.forwards (q.arg 20 3) } [] [] := by
  simp only [cmdForwardClear]
  rw [firstBad_none h rfl]

/-- TABLE_READ: the size and the rows of the table that the request names. -/
theorem cmdTableRead_body {size : Nat} {rows : List Bytes} (h : RestZero q [(20, 1), (24, 4)])
    (ht : (q.arg 20 1 = 0 ∧ size = 24 ∧ rows = w.locals.map (·.bytes)) ∨ (q.arg 20 1 = 1 ∧ size = 32 ∧ rows = w.endpoints.map (fun e => Endpoint.bytes e.1 e.2))
      ∨ (q.arg 20 1 = 2 ∧ size = 16 ∧ rows = w.forwards.map (fun e => Forward.bytes e.1 e.2))) :
    cmdTableRead.body q w = .done w (natLe ((rows.drop (q.arg 24 4)).take (q.room / size)).length 4) ((rows.drop (q.arg 24 4)).take (q.room / size)).flatten := by
  have hsmall : q.arg 20 1 ≤ 2 := by omega
  simp only [cmdTableRead]
  rw [firstBad_none h (by simp [hsmall])]
  rcases ht with ⟨hk, rfl, rfl⟩ | ⟨hk, rfl, rfl⟩ | ⟨hk, rfl, rfl⟩ <;> simp only [hk]

end

/-- Settles O12: the table is written before the response, and no response or record touches it. -/
theorem fabricTableCommandsComplete : Obligations.FabricTableCommandsComplete := by
  unfold Obligations.FabricTableCommandsComplete
  refine ⟨fun m s v q hready h hp h1 h2 hlen hgood => ?locals, fun m s v q hready h h1 h2 hlen hgood hroom => ?endpoints, fun m s v q hready h => ?endpointClear,
    fun m s v q hready h h1 h2 hlen hgood hroom => ?forwards, fun m s v q hready h => ?forwardClear,
    fun m s v q size rows hready h ht => serve_query hready rfl (cmdTableRead_body h ht)⟩
  case locals =>
    exact completes_done (eff := fun w => { w.updDev (fun d => { d with erunoPort := BitVec.ofNat 16 (q.arg 20 2) }) with locals := (entriesOf q.xarg 24).map localIdOf })
      rfl (fun _ => rfl) hready (fun f k => cmdLocalIdSet_body h hp h1 h2 hlen hgood) fun f k g n e => ⟨rfl, rfl⟩
  case endpoints =>
    exact completes_done (eff := fun w => { w with endpoints := withEndpoints w.endpoints q.xarg }) rfl (fun _ => rfl) hready
      (fun f k => cmdEndpointSet_body h h1 h2 hlen hgood hroom) fun f k g n e => rfl
  case endpointClear =>
    exact completes_done (eff := fun w => { w with endpoints := tdel w.endpoints (q.arg 20 3) }) rfl (fun _ => rfl) hready
      (fun f k => cmdEndpointClear_body _ h) fun f k g n e => rfl
  case forwards =>
    exact completes_done (eff := fun w => { w with forwards := withForwards w.forwards q.xarg }) rfl (fun _ => rfl) hready
      (fun f k => cmdForwardSet_body h h1 h2 hlen hgood hroom) fun f k g n e => rfl
  case forwardClear =>
    exact completes_done (eff := fun w => { w with forwards := tdel w.forwards (q.arg 20 3) }) rfl (fun _ => rfl) hready
      (fun f k => cmdForwardClear_body _ h) fun f k g n e => rfl

/-! ### Sessions -/

/-- A session as SESSION_ASSIGN leaves it. -/
def Session.assigned (c : Nat) (g : BitVec 16) (x : Session) : Session := { x.left with st := .closed, ctx := some c, gen := g }

/-- Assigning sessions, each with its block of counters, changes each of them. -/
theorem assignSessions_sessions (c : Nat) (ks : List Nat) (s : State) :
    (foldKeys ks s (fun s k => zeroBlock (s.updSession k (Session.assigned c (genNow s k))) .session k c)).sessions
      = ks.foldl (fun t k => tupd t {} k (Session.assigned c (genNow s k))) s.sessions := by
  unfold foldKeys
  induction ks generalizing s with
  | nil => rfl
  | cons a r ih =>
    rw [List.foldl_cons, List.foldl_cons, ih]
    rfl

theorem tgetD_map {α : Type} (t : Tab α) (f : Nat → α → α) {d : α} {a : Nat} (h : f a d = d) : tgetD (tmap t f) d a = f a (tgetD t d a) := by
  unfold tgetD
  rw [tget?_map]
  cases tget? t a with
  | none => exact h.symm
  | some x => rfl

theorem notOwnSession_eq_false {w : State} {q : Req} {i : Nat} (h : ∀ c, q.ctx? = some c → (w.session i).ctx = some c) : notOwnSession w q i = false := by
  unfold notOwnSession
  cases hp : q.party with
  | tenant c => simp [h c (by rw [Req.ctx?, hp])]
  | nobody => rfl
  | role r => rfl

theorem tenantOnly_of_ctx {q : Req} (h : q.ctx?.isSome = true) : tenantOnly q.party = true := by
  unfold Req.ctx? at h
  cases hp : q.party with
  | tenant c => rfl
  | nobody => simp [hp] at h
  | role r => simp [hp] at h

/-- A session that does not key under this part's lead is not stuck. -/
theorem endStuck_eq {w : State} {i : Nat} (h : ((w.session i).st == .keying && (w.session i).initiate) = false) : endStuck w i = w := by
  simp [endStuck, exchangeStuck, h]

theorem openWith_session (s : State) (q : Req) (i : Nat) :
    ((openWith s q i).session i).gen = nextGen (genNow s i) ∧ ((openWith s q i).session i).window = q.arg 36 2 ∧ ((openWith s q i).session i).keys = none
      ∧ ((openWith s q i).session i).nextSeq = 0 ∧ ((openWith s q i).session i).initiate = (bit (q.arg 22 1) 0 && bit (q.arg 22 1) 1) := by
  unfold openWith
  rw [State.updSession_session]
  refine ⟨?_, rfl, rfl, rfl, rfl⟩
  exact congrArg Session.gen (State.updSession_session _ i _)

/-- The session that SESSION_OPEN names, open or keying. -/
def openedAs (s : State) (q : Req) (st : SessState) : State := (openWith s q (q.arg 20 2)).updSession (q.arg 20 2) (fun x => { x with st := st })

theorem openedAs_session (s : State) (q : Req) (st : SessState) :
    ((openedAs s q st).session (q.arg 20 2)).st = st ∧ ((openedAs s q st).session (q.arg 20 2)).gen = nextGen (genNow s (q.arg 20 2))
      ∧ ((openedAs s q st).session (q.arg 20 2)).window = q.arg 36 2 ∧ ((openedAs s q st).session (q.arg 20 2)).keys = none
      ∧ ((openedAs s q st).session (q.arg 20 2)).nextSeq = 0
      ∧ ((openedAs s q st).session (q.arg 20 2)).initiate = (bit (q.arg 22 1) 0 && bit (q.arg 22 1) 1) := by
  obtain ⟨hgen, hwindow, hkeys, hseq, hinit⟩ := openWith_session s q (q.arg 20 2)
  unfold openedAs
  rw [State.updSession_session]
  exact ⟨rfl, hgen, hwindow, hkeys, hseq, hinit⟩

theorem sessionNumber_openedAs (s : State) (q : Req) (st : SessState) :
    sessionNumber (openedAs s q st) (q.arg 20 2) = q.arg 20 2 + (nextGen (genNow s (q.arg 20 2))).toNat * 65536 := by
  obtain ⟨-, hgen, -⟩ := openedAs_session s q st
  rw [sessionNumber, hgen]

theorem sessionNumber_openWith (s : State) (q : Req) : sessionNumber (openWith s q (q.arg 20 2)) (q.arg 20 2) = q.arg 20 2 + (nextGen (genNow s (q.arg 20 2))).toNat * 65536 := by
  obtain ⟨hgen, -⟩ := openWith_session s q (q.arg 20 2)
  rw [sessionNumber, hgen]

theorem sessionNumber_openedAs_congr {s t : State} (h : t.aon = s.aon) (q : Req) (st : SessState) :
    sessionNumber (openedAs t q st) (q.arg 20 2) = sessionNumber (openedAs s q st) (q.arg 20 2) := by
  rw [sessionNumber_openedAs, sessionNumber_openedAs, genNow, genNow, h]

/-- Responses leave sessions alone. -/
theorem closeWith_sessions (s : State) (q : Req) (st d : Nat) (r x : Bytes) : (closeWith s q st d r x).sessions = s.sessions := by
  obtain ⟨g, n, e, h⟩ := closeWith_frame s q st d r x
  rw [h]

theorem pending_sessions (s : State) (q : Req) (r : Bytes) : (pending s q r).sessions = s.sessions := by
  obtain ⟨g, n, h⟩ := pending_frame s q r
  rw [h]

section
variable {q : Req} {w : State}

theorem cmdSessionAssign_body (h : RestZero q [(20, 6)]) (hi : 64 ≤ q.arg 20 2) (h1 : 1 ≤ q.arg 22 2) (hend : q.arg 20 2 + q.arg 22 2 ≤ 65536) (hc : q.arg 24 2 ≤ 1023)
    (hst : (w.ctx (q.arg 24 2)).st = .active ∨ (w.ctx (q.arg 24 2)).st = .lapsed) (hfree : ∀ k ∈ rangeFrom (q.arg 20 2) (q.arg 22 2), (w.session k).st = .unassigned) :
    cmdSessionAssign.body q w = .done (foldKeys (rangeFrom (q.arg 20 2) (q.arg 22 2)) w
      (fun s k => zeroBlock (s.updSession k (Session.assigned (q.arg 24 2) (genNow s k))) .session k (q.arg 24 2))) [] [] := by
  have hfind : (rangeFrom (q.arg 20 2) (q.arg 22 2)).find? (fun k => (w.session k).st != .unassigned) = none :=
    List.find?_eq_none.mpr fun k hk => by simp [hfree k hk]
  have hnone : ((w.ctx (q.arg 24 2)).st == .none) = false := by rcases hst with hst | hst <;> rw [hst] <;> rfl
  have hending : ((w.ctx (q.arg 24 2)).st == .ending) = false := by rcases hst with hst | hst <;> rw [hst] <;> rfl
  have h1' : q.arg 22 2 ≠ 0 := by omega
  simp only [cmdSessionAssign]
  rw [firstBad_none h (by simp [hi, h1', hend, hc]), hfind]
  simp only [hnone, hending, Bool.false_eq_true, if_false]
  rfl

theorem cmdSessionRelease_body (h : RestZero q [(20, 4)]) (hi : 64 ≤ q.arg 20 2) (h1 : 1 ≤ q.arg 22 2) (hend : q.arg 20 2 + q.arg 22 2 ≤ 65536)
    (hclosed : ∀ k ∈ rangeFrom (q.arg 20 2) (q.arg 22 2), (w.session k).st = .closed) :
    cmdSessionRelease.body q w
      = .done { w with sessions := tmap w.sessions (fun k x => if q.arg 20 2 ≤ k && k < q.arg 20 2 + q.arg 22 2 then x.left else x) } [] [] := by
  have hfind : (rangeFrom (q.arg 20 2) (q.arg 22 2)).find? (fun k => (w.session k).st != .closed) = none :=
    List.find?_eq_none.mpr fun k hk => by simp [hclosed k hk]
  have h1' : q.arg 22 2 ≠ 0 := by omega
  simp only [cmdSessionRelease]
  rw [firstBad_none h (by simp [hi, h1', hend]), hfind]

/-- What SESSION_OPEN asks of its request and of the session that it names (12 R287, R305). -/
structure SessionOpens (w : State) (q : Req) : Prop where
  rest : RestZero q [(20, 20)]
  slot : q.arg 20 2 < 64 → q.ctx?.isSome = true
  flags : q.arg 22 1 < 4
  key : q.arg 23 1 ≤ 15
  index : q.arg 27 1 < 16
  localId : q.arg 27 1 < w.locals.length
  timeout : q.arg 32 4 = 0 ∨ (1000 ≤ q.arg 32 4 ∧ q.arg 32 4 ≤ 100000000)
  window : 1 ≤ q.arg 36 2 ∧ q.arg 36 2 ≤ 256
  wait : q.arg 38 2 = 0 ∨ (10 ≤ q.arg 38 2 ∧ q.arg 38 2 ≤ 60000)
  own : ∀ c, q.ctx? = some c → (w.session (q.arg 20 2)).ctx = some c
  closed : (w.session (q.arg 20 2)).st = .closed

/-- SESSION_OPEN on a session that it may open, whose peer key is there where the session is private. -/
theorem cmdSessionOpen_body (ho : SessionOpens w q)
    (hkey : (bit (q.arg 22 1) 0 && (w.session (q.arg 20 2)).ctx.any (fun c => (tget? (w.ctx c).peerKeys (q.arg 23 1)).isNone)) = false) :
    cmdSessionOpen.body q w = if bit (q.arg 22 1) 0 then
        .pend (if ((openedAs w q .keying).session (q.arg 20 2)).initiate then startExchange (openedAs w q .keying) (q.arg 20 2) else openedAs w q .keying)
          (natLe (sessionNumber (openedAs w q .keying) (q.arg 20 2)) 4)
      else .done (openedAs w q .opened) (natLe (sessionNumber (openedAs w q .opened) (q.arg 20 2)) 4) [] := by
  have hslot : (isRoleSlot (q.arg 20 2) && !tenantOnly q.party) = false := by
    by_cases hi : q.arg 20 2 < 64
    · simp [tenantOnly_of_ctx (ho.slot hi)]
    · simp [isRoleSlot, hi]
  have hlocal : ¬ q.arg 27 1 ≥ w.locals.length := Nat.not_le.mpr ho.localId
  obtain ⟨hw1, hw2⟩ := ho.window
  have hbad := firstBad_none ho.rest (bad := [(20, isRoleSlot (q.arg 20 2) && !tenantOnly q.party), (22, q.arg 22 1 ≥ 4), (23, q.arg 23 1 ≥ 16), (27, q.arg 27 1 ≥ 16)
    , (32, !(q.arg 32 4 = 0 || (1000 ≤ q.arg 32 4 && q.arg 32 4 ≤ 100000000))), (36, !(1 ≤ q.arg 36 2 && q.arg 36 2 ≤ 256))
    , (38, !(q.arg 38 2 = 0 || (10 ≤ q.arg 38 2 && q.arg 38 2 ≤ 60000)))])
    (by simp [hslot, ho.flags, Nat.lt_succ_of_le ho.key, ho.index, ho.timeout, hw1, hw2, ho.wait])
  simp only [cmdSessionOpen]
  rw [hbad, notOwnSession_eq_false ho.own, ho.closed]
  simp only [hkey, hlocal, bne_self_eq_false, Bool.false_eq_true, if_false, sessionNumber_openedAs, sessionNumber_openWith]
  rw [← openedAs, ← openedAs, sessionNumber_openedAs]

theorem cmdSessionClose_body (h : RestZero q [(20, 2)]) (hi : 64 ≤ q.arg 20 2) (hown : ∀ c, q.ctx? = some c → (w.session (q.arg 20 2)).ctx = some c)
    (hst : (w.session (q.arg 20 2)).st = .opened) : cmdSessionClose.body q w = .done (leaveSession w (q.arg 20 2) .closed) [] [] := by
  simp only [cmdSessionClose]
  rw [firstBad_none h (by simp [isRoleSlot, hi]), notOwnSession_eq_false hown, hst]
  rfl

theorem cmdSessionStatus_body (h : RestZero q [(20, 2)]) (hown : ∀ c, q.ctx? = some c → (w.session (q.arg 20 2)).ctx = some c) :
    cmdSessionStatus.body q w = .done w (natLe (w.session (q.arg 20 2)).st.code 1 ++ natLe (b2n (w.session (q.arg 20 2)).priv 0) 1 ++ natLe (w.session (q.arg 20 2)).window 2
      ++ natLe (sessionNumber w (q.arg 20 2)) 4 ++ natLe (((w.session (q.arg 20 2)).h.map (·.toNat)).getD 0) 4 ++ natLe (w.session (q.arg 20 2)).timeouts 4
      ++ natLe (w.session (q.arg 20 2)).discarded 4) [] := by
  simp only [cmdSessionStatus]
  rw [firstBad_none h rfl, notOwnSession_eq_false hown]
  rfl

theorem cmdPeerKeySet_body (h : RestZero q [(20, 1)]) (hk : q.arg 20 1 ≤ 15) (hlen : q.xargLen = 1952) :
    cmdPeerKeySet.body q w = .done (w.updCtx q.tenant (fun c => { c with peerKeys := tput c.peerKeys (q.arg 20 1) q.xarg })) [] [] := by
  simp only [cmdPeerKeySet]
  rw [firstBad_none h (by simp [hk])]
  simp only [hlen, bne_self_eq_false, Bool.false_eq_true, if_false]

end

/-- A public session is open at once, with the state that SESSION_OPEN gives it. -/
theorem sessionOpen_public {m : Fin 1029} {s v : State} {q : Req} (hready : Ready cmdSessionOpen m s q v) (ho : SessionOpens v q) (hpub : bit (q.arg 22 1) 0 = false) :
    Completes (.sessionOpen m) s (fun t => (t.session (q.arg 20 2)).st = .opened ∧ (t.session (q.arg 20 2)).gen = nextGen (genNow v (q.arg 20 2))
      ∧ (t.session (q.arg 20 2)).window = q.arg 36 2 ∧ (t.session (q.arg 20 2)).keys = none ∧ (t.session (q.arg 20 2)).nextSeq = 0) := by
  have hbody (f : Flash) (k : Tab CounterBlk) : cmdSessionOpen.body q { v with flash := v.flash.withLog f, counters := k }
      = .done (openedAs { v with flash := v.flash.withLog f, counters := k } q .opened) (natLe (sessionNumber (openedAs v q .opened) (q.arg 20 2)) 4) [] := by
    rw [cmdSessionOpen_body (w := { v with flash := v.flash.withLog f, counters := k }) { ho with } (by simp [hpub]), hpub,
      sessionNumber_openedAs_congr (s := v) (t := { v with flash := v.flash.withLog f, counters := k }) rfl]
    exact if_neg Bool.false_ne_true
  refine completes_of_exec (serve_done_recorded (eff := (openedAs · q .opened)) hready hbody) ?_
  obtain ⟨f, k, hrec⟩ := recorded_log cmdSessionOpen q v
  obtain ⟨hst, hgen, hwindow, hkeys, hseq, -⟩ := openedAs_session (recorded cmdSessionOpen q v) q .opened
  have hsession (r : Bytes) : (okay (openedAs (recorded cmdSessionOpen q v) q .opened) q r []).session = (openedAs (recorded cmdSessionOpen q v) q .opened).session := by
    unfold State.session
    rw [okay, closeWith_sessions]
  have hafter (w : State) : cmdSessionOpen.after q w = endStuck w (q.arg 20 2) := rfl
  rw [hafter, endStuck_eq (by rw [hsession, hst]; rfl), hsession]
  exact ⟨hst, hgen.trans (by rw [hrec]; rfl), hwindow, hkeys, hseq⟩

/-- A private session keys: its COMPLETION is owed, and phase 1 has left where the part leads. -/
theorem sessionOpen_private {m : Fin 1029} {s v : State} {q : Req} (hready : Ready cmdSessionOpen m s q v) (ho : SessionOpens v q) (hpriv : bit (q.arg 22 1) 0 = true)
    (hkey : (tget? (v.ctx ((v.session (q.arg 20 2)).ctx.getD 0)).peerKeys (q.arg 23 1)).isSome = true) :
    let w := openedAs (recorded cmdSessionOpen q v) q .keying
    let t := pending (if bit (q.arg 22 1) 1 then startExchange w (q.arg 20 2) else w) q (natLe (sessionNumber w (q.arg 20 2)) 4)
    exec (.sessionOpen m) s = .next (endStuck t (q.arg 20 2)) ∧ (bit (q.arg 22 1) 1 = false → endStuck t (q.arg 20 2) = t ∧ (t.session (q.arg 20 2)).st = .keying) := by
  obtain ⟨f, k, hrec⟩ := recorded_log cmdSessionOpen q v
  obtain ⟨hst, -, -, -, -, hinit⟩ := openedAs_session (recorded cmdSessionOpen q v) q .keying
  have hany : ((v.session (q.arg 20 2)).ctx.any (fun c => (tget? (v.ctx c).peerKeys (q.arg 23 1)).isNone)) = false := by
    cases hc : (v.session (q.arg 20 2)).ctx with
    | none => rfl
    | some c =>
      rw [hc] at hkey
      simpa [Option.isSome_iff_ne_none] using hkey
  have hbody (f : Flash) (k : Tab CounterBlk) : cmdSessionOpen.body q { v with flash := v.flash.withLog f, counters := k }
      = .pend (if bit (q.arg 22 1) 1 then startExchange (openedAs { v with flash := v.flash.withLog f, counters := k } q .keying) (q.arg 20 2)
          else openedAs { v with flash := v.flash.withLog f, counters := k } q .keying) (natLe (sessionNumber (openedAs v q .keying) (q.arg 20 2)) 4) := by
    obtain ⟨-, -, -, -, -, hinit⟩ := openedAs_session { v with flash := v.flash.withLog f, counters := k } q .keying
    rw [cmdSessionOpen_body (w := { v with flash := v.flash.withLog f, counters := k }) { ho with } (by rw [hpriv]; exact hany), hinit, hpriv,
      sessionNumber_openedAs_congr (s := v) (t := { v with flash := v.flash.withLog f, counters := k }) rfl]
    rw [Bool.true_and]
    exact if_pos rfl
  have hnumber := sessionNumber_openedAs_congr (s := v) (t := recorded cmdSessionOpen q v) (by rw [hrec]) q .keying
  dsimp only
  refine ⟨(serve_pend_recorded (eff := fun w => if bit (q.arg 22 1) 1 then startExchange (openedAs w q .keying) (q.arg 20 2) else openedAs w q .keying) hready hbody).trans ?_,
    fun hfollows => ?_⟩
  · rw [hnumber]
    rfl
  · rw [hfollows]
    simp only [Bool.false_eq_true, if_false]
    have hsession (r : Bytes) : (pending (openedAs (recorded cmdSessionOpen q v) q .keying) q r).session = (openedAs (recorded cmdSessionOpen q v) q .keying).session := by
      unfold State.session
      rw [pending_sessions]
    exact ⟨endStuck_eq (by rw [hsession, hinit, hfollows, Bool.and_false, Bool.and_false]), by rw [hsession, hst]⟩

/-- Settles O13: a range of sessions changes one by one; a session that opens is described by `openedAs`. -/
theorem sessionTableCommandsComplete : Obligations.SessionTableCommandsComplete := by
  unfold Obligations.SessionTableCommandsComplete
  refine ⟨fun m s v q hready h hi h1 hend hc hst hfree => ?assign, fun m s v q hready h hi h1 hend hclosed => ?release, ?opens,
    fun m s v q hready h hi hown hst => ?close, fun m s v q hready h hown => serve_query hready rfl (cmdSessionStatus_body h hown), fun m s v q hready h hk hlen => ?key⟩
  case assign =>
    refine completes_done (eff := fun w => foldKeys (rangeFrom (q.arg 20 2) (q.arg 22 2)) w
      (fun s k => zeroBlock (s.updSession k (Session.assigned (q.arg 24 2) (genNow s k))) .session k (q.arg 24 2))) rfl (fun _ => rfl) hready
      (fun f k => cmdSessionAssign_body h hi h1 hend hc hst hfree) fun f c g n e k hk => ?_
    simp only [State.session]
    rw [assignSessions_sessions]
    refine (tgetD_foldl_tupd {} (f := fun k => Session.assigned (q.arg 24 2) (genNow v k)) (fun _ _ => rfl) _ v.sessions k).trans ?_
    rw [if_pos hk]
    rfl
  case release =>
    refine completes_done (eff := fun w => { w with sessions := tmap w.sessions (fun k x => if q.arg 20 2 ≤ k && k < q.arg 20 2 + q.arg 22 2 then x.left else x) })
      rfl (fun _ => rfl) hready (fun f k => cmdSessionRelease_body h hi h1 hend hclosed) fun f c g n e k hk => ?_
    have hmem : (decide (q.arg 20 2 ≤ k) && decide (k < q.arg 20 2 + q.arg 22 2)) = true := by simpa using mem_rangeFrom.mp hk
    refine (tgetD_map v.sessions (fun k x => if q.arg 20 2 ≤ k && k < q.arg 20 2 + q.arg 22 2 then x.left else x) (by simp [Session.left])).trans ?_
    rw [if_pos hmem]
    rfl
  case opens =>
    intro m s v q hready h hslot hflags hkey hindex hlocal htime hw1 hw2 hwait hown hst
    have ho : SessionOpens v q :=
      { rest := h, slot := hslot, flags := hflags, key := hkey, index := hindex, localId := hlocal, timeout := htime, window := ⟨hw1, hw2⟩, wait := hwait, own := hown, closed := hst }
    exact ⟨sessionOpen_public hready ho, sessionOpen_private hready ho⟩
  case close => exact serve_done_recorded (eff := (leaveSession · (q.arg 20 2) .closed)) hready fun f k => cmdSessionClose_body h hi hown hst
  case key =>
    exact completes_done (eff := (·.updCtx q.tenant (fun c => { c with peerKeys := tput c.peerKeys (q.arg 20 1) q.xarg }))) rfl (fun _ => rfl) hready
      (fun f k => cmdPeerKeySet_body h hk hlen) fun f k g n e => State.updCtx_ctx v q.tenant (fun c => { c with peerKeys := tput c.peerKeys (q.arg 20 1) q.xarg })

/-! ### Queue pairs and jobs -/

theorem notOwnQp_eq_false {w : State} {q : Req} {n : Nat} (h : ∀ c, q.ctx? = some c → (w.qp n).ctx = some c) : notOwnQp w q n = false := by
  unfold notOwnQp
  cases hp : q.party with
  | tenant c => simp [h c (by rw [Req.ctx?, hp])]
  | nobody => rfl
  | role r => rfl

theorem closeQp_qp (s : State) (n : Nat) : (closeQp s n).qp n = (s.qp n).left (s.qp n).ctx := State.updQp_qp s n (fun x => x.left x.ctx)

section
variable {q : Req} {w : State}

theorem cmdQpAssign_body (h : RestZero q [(20, 8)]) (h1 : 1 ≤ q.arg 24 2) (hend : q.arg 20 4 + q.arg 24 2 ≤ 16384) (hc : q.arg 26 2 ≤ 1023)
    (hst : (w.ctx (q.arg 26 2)).st = .active ∨ (w.ctx (q.arg 26 2)).st = .lapsed) (hfree : ∀ i ∈ rangeFrom (q.arg 20 4) (q.arg 24 2), (w.qp i).ctx = none) :
    cmdQpAssign.body q w = .done (foldKeys (rangeFrom (q.arg 20 4) (q.arg 24 2)) w (fun s i => s.updQp i (·.left (some (q.arg 26 2))))) [] [] := by
  have hany : (rangeFrom (q.arg 20 4) (q.arg 24 2)).any (fun i => (w.qp i).ctx.isSome) = false := List.any_eq_false.mpr fun i hi => by simp [hfree i hi]
  have hnone : ((w.ctx (q.arg 26 2)).st == .none) = false := by rcases hst with hst | hst <;> rw [hst] <;> rfl
  have hending : ((w.ctx (q.arg 26 2)).st == .ending) = false := by rcases hst with hst | hst <;> rw [hst] <;> rfl
  have h1' : q.arg 24 2 ≠ 0 := by omega
  have hn : q.arg 20 4 < 16384 := by omega
  simp only [cmdQpAssign, qpMax]
  rw [firstBad_none h (by simp [h1', hend, hn, hc])]
  simp only [hnone, hending, hany, Bool.false_eq_true, if_false]

theorem cmdQpOpen_body (h : RestZero q [(20, 44)]) (hn : q.arg 20 4 < 16384) (hflags : q.arg 24 1 < 8) (hmtu : q.arg 25 1 ≤ 4) (hport : q.arg 26 1 ≤ 63)
    (hindex : q.arg 27 1 < 16) (hlocal : q.arg 27 1 < w.locals.length) (hremote : q.arg 32 4 < 2 ^ 24) (hip : bit (q.arg 24 1) 1 = false → q.arg 52 12 = 0)
    (hown : q.ctx? = (w.qp (q.arg 20 4)).ctx) (hst : (w.qp (q.arg 20 4)).st = .closed) :
    cmdQpOpen.body q w = .done (w.updQp (q.arg 20 4) (fun _ => qpOf w q)) [] [] := by
  have hip' : (!bit (q.arg 24 1) 1 && q.arg 52 12 != 0) = false := by
    cases hb : bit (q.arg 24 1) 1 with
    | true => rfl
    | false => simp [hip hb]
  have hlocal' : ¬ q.arg 27 1 ≥ w.locals.length := Nat.not_le.mpr hlocal
  have hbad := firstBad_none h (bad := [(20, q.arg 20 4 ≥ qpMax), (24, q.arg 24 1 ≥ 8), (25, q.arg 25 1 > 4), (26, q.arg 26 1 > 63), (27, q.arg 27 1 ≥ 16)
    , (32, q.arg 32 4 ≥ 2 ^ 24), (52, !bit (q.arg 24 1) 1 && q.arg 52 12 != 0)]) (by
      rw [hip']
      simp [qpMax, hn, hflags, hmtu, hport, hindex]
      exact hremote)
  simp only [cmdQpOpen]
  rw [hbad, notOwnQp_eq_false fun c hc => hown.symm.trans hc, hst]
  simp only [hlocal', bne_self_eq_false, Bool.false_eq_true, if_false]

theorem cmdQpClose_body (h : RestZero q [(20, 4)]) (hn : q.arg 20 4 < 16384) (hown : ∀ c, q.ctx? = some c → (w.qp (q.arg 20 4)).ctx = some c)
    (hst : (w.qp (q.arg 20 4)).st ≠ .closed) : cmdQpClose.body q w = .done (closeQp w (q.arg 20 4)) [] [] := by
  have hst' : ((w.qp (q.arg 20 4)).st == .closed) = false := by simpa using hst
  simp only [cmdQpClose]
  rw [firstBad_none h (by simp [qpMax, hn]), notOwnQp_eq_false hown]
  simp only [hst', Bool.false_eq_true, if_false]

theorem cmdQpStatus_body (h : RestZero q [(20, 4)]) (hn : q.arg 20 4 < 16384) (hown : ∀ c, q.ctx? = some c → (w.qp (q.arg 20 4)).ctx = some c) :
    cmdQpStatus.body q w = .done w (natLe (w.qp (q.arg 20 4)).st.code 1 ++ natLe (w.qp (q.arg 20 4)).sendPsn.toNat 3 ++ natLe (w.qp (q.arg 20 4)).expectedPsn.toNat 3
      ++ natLe 0 1 ++ natLe (w.qp (q.arg 20 4)).naks 4 ++ natLe (w.qp (q.arg 20 4)).cnps 4) [] := by
  simp only [cmdQpStatus]
  rw [firstBad_none h (by simp [qpMax, hn]), notOwnQp_eq_false hown]
  rfl

theorem cmdJobOpen_body (h : RestZero q [(20, 4)]) (hn : q.arg 20 4 ≠ 0) (hjob : w.job.isOpen = false) :
    cmdJobOpen.body q w = .done { w with job := { isOpen := true, number := BitVec.ofNat 32 (q.arg 20 4), changed := w.ct } } [] [] := by
  simp only [cmdJobOpen]
  rw [firstBad_none h (by simp [hn]), hjob]
  rfl

theorem cmdJobClose_body (h : RestZero q []) (hjob : w.job.isOpen = true) :
    cmdJobClose.body q w = .done { w with job := { w.job with isOpen := false, changed := w.ct } } [] [] := by
  simp only [cmdJobClose]
  rw [firstBad_none h rfl, hjob]
  rfl

theorem cmdJobStatus_body (h : RestZero q []) :
    cmdJobStatus.body q w = .done w (natLe w.job.code 1 ++ natLe 0 3 ++ natLe w.job.number.toNat 4 ++ natLe w.job.changed 8) [] := by
  simp only [cmdJobStatus]
  rw [firstBad_none h rfl]

end

/-- Settles O14: each command names a queue pair of its party, or the part's one job. -/
theorem queuePairAndJobCommandsComplete : Obligations.QueuePairAndJobCommandsComplete := by
  unfold Obligations.QueuePairAndJobCommandsComplete
  refine ⟨fun m s v q hready h h1 hend hc hst hfree => ?assign,
    fun m s v q hready h hn hflags hmtu hport hindex hlocal hremote hip hown hsome hst => ⟨?opens, rfl, rfl, rfl⟩,
    fun m s v q hready h hn hown hst => ⟨?close, ?left⟩, fun m s v q hready h hn hown => serve_query hready rfl (cmdQpStatus_body h hn hown),
    fun m s v q hready h hn hjob => ?jobOpen, fun m s v q hready h hjob => ?jobClose, fun m s v q hready h => serve_query hready rfl (cmdJobStatus_body h)⟩
  case assign =>
    exact serve_done_recorded (eff := fun w => foldKeys (rangeFrom (q.arg 20 4) (q.arg 24 2)) w (fun s i => s.updQp i (·.left (some (q.arg 26 2))))) hready
      fun f k => cmdQpAssign_body h h1 hend hc hst hfree
  case opens =>
    exact serve_done_recorded (eff := (·.updQp (q.arg 20 4) (fun _ => qpOf v q))) hready
      fun f k => cmdQpOpen_body h hn hflags hmtu hport hindex hlocal hremote hip hown hst
  case close => exact serve_done_recorded (eff := (closeQp · (q.arg 20 4))) hready fun f k => cmdQpClose_body h hn hown hst
  case left =>
    obtain ⟨f, k, hrec⟩ := recorded_frame cmdQpClose q v
    rw [closeQp_qp, hrec]
    rfl
  case jobOpen =>
    exact completes_done (eff := fun w => { w with job := { isOpen := true, number := BitVec.ofNat 32 (q.arg 20 4), changed := w.ct } }) rfl (fun _ => rfl) hready
      (fun f k => cmdJobOpen_body h hn hjob) fun f k g n e => rfl
  case jobClose =>
    exact completes_done (eff := fun w => { w with job := { w.job with isOpen := false, changed := w.ct } }) rfl (fun _ => rfl) hready
      (fun f k => cmdJobClose_body h hjob) fun f k g n e => rfl

end Sys2Proof.Machine
end

