-- ==== Sys2Proof/Proofs/TrafficControl.lean ====
section
/-!
PROOF. The commands and the events of traffic control (13 R307 to R323; 11 R249).
-/

namespace Sys2Proof.Machine

open Sys2Proof

/-! ### Commands -/

section
variable {q : Req} {w : State}

theorem cmdMeterSet_body (h : RestZero q [(20, 6), (28, 16)]) (hfaults : (meterFaults q).all (fun b => !b.2) = true)
    (hroom : q.arg 20 1 = 1 → (meterOf q).enabled = true → (slotIds w).length < 4096 ∨ (slotIds w).contains (q.arg 21 3) = true) :
    cmdMeterSet.body q w = .pend (stage w (.meter (decide (q.arg 20 1 = 1)) (q.arg 21 3) (decide (q.arg 24 1 = 1)) (meterOf q)) (some q.owes)) [] := by
  have hfull : (decide (q.arg 20 1 = 1) && (meterOf q).enabled && decide ((slotIds w).length ≥ endpointSlots) && !(slotIds w).contains (q.arg 21 3)) = false := by
    by_cases hk : q.arg 20 1 = 1
    · cases hen : (meterOf q).enabled with
      | false => simp
      | true =>
        rcases hroom hk hen with hlen | hmem
        · simp [endpointSlots, hlen]
        · rw [hmem, Bool.not_true, Bool.and_false]
    · simp [hk]
  simp only [cmdMeterSet]
  rw [firstBad_none h hfaults]
  simp only [hfull, Bool.false_eq_true, if_false]

theorem cmdMeterStatus_body (h : RestZero q [(20, 5)]) (hk : q.arg 20 1 ≤ 1) (hid : q.arg 20 1 = 0 → q.arg 21 3 ≤ 1023) (hdir : q.arg 24 1 ≤ 1)
    (hown : ∀ c, q.ctx? = some c → q.arg 20 1 = 0 ∧ c = q.arg 21 3) :
    let o := tgetD (if q.arg 20 1 = 1 then w.epMeters else w.meters) {} (meterKey (q.arg 21 3) (decide (q.arg 24 1 = 1)))
    let x := if o.enabled then o.refill w.now else o
    cmdMeterStatus.body q w = .done w (natLe (unsigned (x.committed / byteTokens) 32) 4 ++ natLe (unsigned (x.excess / byteTokens) 32) 4
      ++ natLe x.green 8 ++ natLe x.yellow 8 ++ natLe x.red 8) [] := by
  have hother : (q.ctx?.any (fun c => decide (q.arg 20 1 = 1) || c != q.arg 21 3)) = false := by
    cases hc : q.ctx? with
    | none => rfl
    | some c =>
      obtain ⟨hk0, rfl⟩ := hown c hc
      simp [hk0]
  have hid' : (decide (q.arg 20 1 = 0) && decide (q.arg 21 3 > 1023)) = false := by
    by_cases hk0 : q.arg 20 1 = 0
    · simp [hid hk0]
    · simp [hk0]
  have hbad := firstBad_none h (bad := [(20, q.arg 20 1 > 1), (21, decide (q.arg 20 1 = 0) && decide (q.arg 21 3 > 1023)), (24, q.arg 24 1 > 1)]) (by
    rw [hid']
    simp [hk, hdir])
  simp only [cmdMeterStatus]
  rw [hbad, hother]
  simp only [Bool.false_eq_true, if_false]

/-- The shaper that SHAPER_SET describes. -/
def shaperOf (q : Req) : ShaperSet :=
  { shaped := bit (q.arg 23 1) 0, overhead := q.arg 22 1, rate := q.arg 24 4, burst := q.arg 28 4, ecnThresh := q.arg 32 4, quantum := q.arg 36 4 }

theorem cmdShaperSet_body (h : RestZero q [(20, 20)]) (hp : q.arg 20 1 ≤ 63) (hc : q.arg 21 1 ≤ 7) (ho : q.arg 22 1 ≤ 63) (hf : q.arg 23 1 ≤ 1) (hr1 : 1 ≤ q.arg 24 4)
    (hr2 : q.arg 24 4 ≤ 800000) (hb1 : 1024 ≤ q.arg 28 4) (hb2 : q.arg 28 4 ≤ 16777216) (he1 : 4096 ≤ q.arg 32 4) (he2 : q.arg 32 4 ≤ 1048576)
    (hq : q.arg 21 1 = 0 ∨ q.arg 21 1 = 1 ∨ q.arg 21 1 = 7 ∨ q.arg 36 4 = 0) :
    cmdShaperSet.body q w = .pend (stage w (.shaper (q.arg 20 1) (q.arg 21 1) (shaperOf q)) (some q.owes)) [] := by
  have hquantum : (q.arg 21 1 != 0 && q.arg 21 1 != 1 && q.arg 21 1 != 7 && q.arg 36 4 != 0) = false := by rcases hq with hq | hq | hq | hq <;> simp [hq]
  simp only [cmdShaperSet]
  rw [hquantum, firstBad_none h (by simp [hp, hc, ho, hf, hr1, hr2, hb1, hb2, he1, he2])]
  rfl

theorem cmdGateSet_body_clear (h : RestZero q [(20, 2), (24, 8)]) (hp : q.arg 20 1 ≤ 63) (hcov : BitVec.ofNat 8 (q.arg 21 1) = 0) (hlen : q.xargLen = 0) :
    cmdGateSet.body q w = .pend (stage w (.gate (q.arg 20 1) none) (some q.owes)) [] := by
  simp only [cmdGateSet]
  rw [firstBad_none h (by simp [hp])]
  simp only [hcov, hlen, if_true, bne_self_eq_false, Bool.false_eq_true, if_false]

theorem cmdGateSet_body_list (h : RestZero q [(20, 2), (24, 8)]) (hp : q.arg 20 1 ≤ 63) (hcov : BitVec.ofNat 8 (q.arg 21 1) ≠ 0) (hmin : 16 ≤ q.xargLen)
    (hlen : q.xargLen = 8 + 8 * field q.xarg 4 2) (hgood : gateFault q.xarg (BitVec.ofNat 8 (q.arg 21 1)) = none) :
    cmdGateSet.body q w = .pend (stage w (.gate (q.arg 20 1) (some (gateList q.xarg (BitVec.ofNat 8 (q.arg 21 1)) (q.arg 24 8)))) (some q.owes)) [] := by
  have hsize : (decide (q.xargLen < 16) || q.xargLen != 8 + 8 * field q.xarg 4 2) = false := by
    rw [Bool.or_eq_false_iff]
    exact ⟨by simpa using hmin, by simpa using hlen⟩
  simp only [cmdGateSet]
  rw [firstBad_none h (by simp [hp])]
  simp only [hcov, hsize, hgood, Bool.false_eq_true, if_false]

/-- The class map that CLASS_MAP_SET describes: colours other than green alone are kept. -/
def classMapOf (b : Bytes) : ClassMap :=
  { dscp := (List.range 8).map (fun c => BitVec.ofNat 6 (field b c 1))
    colours := ((List.range 64).filter (fun d => mapColour b d != 0)).map (fun d => (d, mapColour b d)) }

theorem classMapOf_colour (b : Bytes) {d : Nat} (hd : d < 64) : (((classMapOf b).colours.find? (fun e => e.1 == d)).map (·.2)).getD 0 = mapColour b d := by
  simp only [classMapOf, List.find?_map, Option.map_map]
  cases hfind : ((List.range 64).filter (fun d => mapColour b d != 0)).find? ((fun e : Nat × Nat => e.1 == d) ∘ fun d => (d, mapColour b d)) with
  | some x =>
    have hx : x = d := by simpa using List.find?_some hfind
    simp [hx]
  | none =>
    have hno := List.find?_eq_none.mp hfind
    have hzero : mapColour b d = 0 := by
      by_contra hne
      exact hno d (List.mem_filter.mpr ⟨List.mem_range.mpr hd, by simpa using hne⟩) (by simp)
    simp [hzero]

theorem cmdClassMapSet_body (h : RestZero q []) (hlen : q.xargLen = 24) (hdscp : ∀ c < 8, field q.xarg c 1 ≤ 63) (hcolour : ∀ d < 64, mapColour q.xarg d ≠ 3) :
    cmdClassMapSet.body q w = .pend (stage w (.classMap (classMapOf q.xarg)) (some q.owes)) [] := by
  have h1 : (List.range 8).find? (fun c => decide (field q.xarg c 1 > 63)) = none :=
    List.find?_eq_none.mpr fun c hc => by simpa using hdscp c (List.mem_range.mp hc)
  have h2 : (List.range 64).find? (fun d => decide (mapColour q.xarg d = 3)) = none :=
    List.find?_eq_none.mpr fun d hd => by simpa using hcolour d (List.mem_range.mp hd)
  simp only [cmdClassMapSet]
  rw [firstBad_none h rfl, h1, h2]
  simp only [hlen, bne_self_eq_false, Bool.false_eq_true, if_false]
  rfl

theorem cmdTcStatus_body (h : RestZero q [(20, 2)]) (hp : q.arg 20 1 ≤ 63) (hc : q.arg 21 1 ≤ 7) :
    let p := (syncGates w (q.arg 20 1)).port (q.arg 20 1)
    let x := p.cls (q.arg 21 1)
    cmdTcStatus.body q w = .done w (natLe x.bytes 4 ++ natLe (b2n (x.pausedUntil.any (fun u => w.now < u)) 0) 1 ++ natLe (b2n (p.gateOpen (q.arg 21 1)) 0) 1
      ++ natLe 0 2 ++ natLe (unsigned (x.tokens / 8) 32) 4 ++ natLe x.sent 8 ++ natLe x.ceMarks 4 ++ natLe x.limitDiscards 4 ++ natLe x.overlongDiscards 4) [] := by
  simp only [cmdTcStatus]
  rw [firstBad_none h (by simp [hp, hc])]

end

/-- What a command that stages one change leaves: the change waits for its boundary, and its COMPLETION is owed. -/
theorem completes_stage {i : Instr} {c : Cmd} {m : Nat} {s v : State} {q : Req} {x : Change} {P : State → Prop} (hi : exec i s = serve m c s) (hafter : ∀ w, c.after q w = w)
    (h : Ready c m s q v) (hbody : ∀ w : State, w.staged = v.staged → w.epMeters = v.epMeters → c.body q w = .pend (stage w x (some q.owes)) [])
    (hp : ∀ f k g n, P { stage { v with flash := f, counters := k } x (some q.owes) with pages := g, qps := n, pendings := v.pendings ++ [q.owes] }) : Completes i s P :=
  completes_pend (eff := (stage · x (some q.owes))) hi hafter h (fun _ _ => hbody _ rfl rfl) fun f k g n => hp (v.flash.withLog f) k g n

theorem slotIds_congr {s t : State} (hstaged : t.staged = s.staged) (hmeters : t.epMeters = s.epMeters) : slotIds t = slotIds s := by
  simp only [slotIds, hstaged, hmeters]

/-- Settles O15: a command that sets stages its change, and changes nothing before the boundary. -/
theorem trafficCommandsComplete : Obligations.TrafficCommandsComplete := by
  unfold Obligations.TrafficCommandsComplete
  refine ⟨fun m s v q hready h hfaults hroom => ?meter, fun m s v q hready h hk hid hdir hown => serve_query hready rfl (cmdMeterStatus_body h hk hid hdir hown),
    fun m s v q hready h hp hc ho hf hr1 hr2 hb1 hb2 he1 he2 hq => ?shaper, fun m s v q hready h hp => ⟨fun hcov hlen => ?gateClear, fun hcov hmin hlen hgood => ?gateList⟩,
    fun m s v q hready h hlen hdscp hcolour => ?classMap, fun m s v q hready h hp hc => serve_query hready rfl (cmdTcStatus_body h hp hc)⟩
  case meter =>
    refine completes_stage rfl (fun _ => rfl) hready (fun w hstaged hmeters => cmdMeterSet_body h hfaults ?_) fun f k g n => ⟨rfl, rfl, rfl, rfl⟩
    rw [slotIds_congr hstaged hmeters]
    exact hroom
  case shaper =>
    exact completes_stage rfl (fun _ => rfl) hready (fun w _ _ => cmdShaperSet_body h hp hc ho hf hr1 hr2 hb1 hb2 he1 he2 hq) fun f k g n => ⟨rfl, rfl, rfl⟩
  case gateClear => exact completes_stage rfl (fun _ => rfl) hready (fun w _ _ => cmdGateSet_body_clear h hp hcov hlen) fun f k g n => ⟨rfl, rfl⟩
  case gateList => exact completes_stage rfl (fun _ => rfl) hready (fun w _ _ => cmdGateSet_body_list h hp hcov hmin hlen hgood) fun f k g n => ⟨rfl, rfl⟩
  case classMap =>
    exact completes_stage rfl (fun _ => rfl) hready (fun w _ _ => cmdClassMapSet_body h hlen hdscp hcolour) fun f k g n =>
      ⟨rfl, rfl, classMapOf q.xarg, rfl, fun d hd => classMapOf_colour q.xarg hd, rfl⟩

/-! ### Shaper refills -/

/-- A staged change at the instant of a refill: a shaper's whose boundary has come commits. -/
def shaperDue (s : State) (x : Staged) : State :=
  match x.change with
  | .shaper q c v => if x.at_ ≤ s.ct && boundaryFrom s x.at_ ≤ s.ct then commitShaper s q c (boundaryFrom s x.at_) v else s
  | _ => s

theorem dueShapers_eq_foldl (s : State) : dueShapers s = s.staged.foldl shaperDue s := rfl

theorem shaperDue_of_later {s : State} {x : Staged} (h : s.ct < x.at_) : shaperDue s x = s := by
  have hx : ¬ x.at_ ≤ s.ct := Nat.not_le.mpr h
  unfold shaperDue
  split
  · simp [hx]
  · rfl

/-- No shaper change whose boundary is yet to come commits. -/
theorem dueShapers_of_later {s : State} (h : ∀ x ∈ s.staged, s.ct < x.at_) : dueShapers s = s := by
  rw [dueShapers_eq_foldl]
  generalize s.staged = l at h
  induction l with
  | nil => rfl
  | cons x r ih =>
    rw [List.foldl_cons, shaperDue_of_later (h x List.mem_cons_self)]
    exact ih fun y hy => h y (List.mem_cons_of_mem _ hy)

/-- The refills of a shaped class that has no change to take. -/
theorem PortClass.refill_tokens {k : PortClass} (hshaped : k.shaped = true) (hnext : k.next = none) {m n : Nat} (h : m < n) :
    (k.refill m n).tokens = min (k.tokens + k.rate * ((n - m : Nat) : Int)) (k.burst * 8 : Nat) := by
  have hn : 1 ≤ n - m := by omega
  simp [PortClass.refill, hnext, PortClass.add, hshaped, hn]

theorem PortClass.refill_default (m n : Nat) : ({} : PortClass).refill m n = {} := rfl

/-- The classes of every port with a change of their own. -/
theorem cls_tmap_ports {s : State} {f : PortClass → PortClass} (hf : f {} = {}) (q c : Nat) :
    ((tgetD (tmap s.ports (fun _ p => { p with classes := tmap p.classes (fun _ k => f k) })) {} q).cls c) = f ((s.port q).cls c) := by
  rw [tgetD_map s.ports (fun _ p => { p with classes := tmap p.classes (fun _ k => f k) }) rfl]
  exact tgetD_map (s.port q).classes (fun _ k => f k) hf

/-! ### Flow control -/

theorem Port.updCls_cls (p : Port) (c : Nat) (f : PortClass → PortClass) : (p.updCls c f).cls c = f (p.cls c) := by simp [Port.updCls, Port.cls]

theorem Port.updCls_cls_other (p : Port) {c d : Nat} (f : PortClass → PortClass) (h : d ≠ c) : (p.updCls c f).cls d = p.cls d := by
  simp [Port.updCls, Port.cls, tgetD_tupd_other _ _ _ h]

/-- When a pause of `n` quanta that starts now ends; 0 ends one (13 R309). -/
def pauseEnd (s : State) (q n : Nat) : Option Nat := if n = 0 then none else some (s.now + quantaNs s q n)

/-- A PFC frame pauses the classes that it names, one after the other. -/
theorem pauses_pausedUntil {w : State} {q : Nat} (named : Nat → Bool) (quanta : Nat → Nat) (cs : List Nat) {s : State} (hnow : s.now = w.now) (hrate : portRate s q = portRate w q)
    (c : Nat) : (((cs.foldl (fun s c => if named c then s.updPort q (·.updCls c (fun x => { x with pausedUntil := pauseEnd s q (quanta c) })) else s) s).port q).cls c).pausedUntil
      = if c ∈ cs ∧ named c = true then pauseEnd w q (quanta c) else ((s.port q).cls c).pausedUntil := by
  induction cs generalizing s with
  | nil => simp
  | cons a r ih =>
    rw [List.foldl_cons]
    by_cases ha : named a = true
    · rw [if_pos ha, ih (s := s.updPort q _) hnow hrate, State.updPort_port]
      have hend : pauseEnd s q (quanta a) = pauseEnd w q (quanta a) := by simp only [pauseEnd, quantaNs, hnow, hrate]
      by_cases hca : c = a
      · subst hca
        rw [Port.updCls_cls, hend]
        simp [ha]
      · rw [Port.updCls_cls_other _ _ hca]
        simp [hca]
    · rw [if_neg ha, ih hnow hrate]
      by_cases hca : c = a
      · subst hca
        simp [ha]
      · simp [hca]

/-- A PFC frame that names none of TC0, TC6 and TC7. -/
theorem takePfc_pausedUntil {w : State} {q : Nat} {classes : BitVec 8} {quanta : List (BitVec 16)} (h : classes &&& 0xC1 = 0) {c : Nat} (hc : c < 8) :
    (((takePfc w q classes quanta).port q).cls c).pausedUntil = if classes.getLsbD c = true
      then (if quanta.getD c 0 = 0 then none else some (w.now + quantaNs w q (quanta.getD c 0).toNat)) else ((w.port q).cls c).pausedUntil := by
  obtain ⟨k, hbump⟩ := bump_frame w .port q 9 1
  have hnames : classes.getLsbD c = true → 1 ≤ c ∧ c < 6 := by
    intro hb
    have hbit : (classes &&& 0xC1).getLsbD c = false := by rw [h]; simp
    rw [BitVec.getLsbD_and, hb, Bool.true_and] at hbit
    have hmask : ∀ d : Fin 8, (0xC1 : BitVec 8).getLsbD d = false → 1 ≤ d.val ∧ d.val < 6 := by decide
    exact hmask ⟨c, hc⟩ hbit
  unfold takePfc foldRange
  rw [hbump]
  simp only [h, bne_self_eq_false, Bool.false_eq_true, if_false]
  refine (pauses_pausedUntil (w := { w with counters := k }) (s := { w with counters := k }) (fun c => classes.getLsbD c) (fun c => (quanta.getD c 0).toNat) (rangeFrom 1 5)
    rfl rfl c).trans ?_
  have hzero : (quanta.getD c 0).toNat = 0 ↔ quanta.getD c 0 = 0 := ⟨fun hz => BitVec.eq_of_toNat_eq hz, fun hz => by rw [hz]; rfl⟩
  by_cases hb : classes.getLsbD c = true
  · have hmem : c ∈ rangeFrom 1 5 := mem_rangeFrom.mpr (hnames hb)
    rw [if_pos ⟨hmem, hb⟩, if_pos hb]
    simp only [pauseEnd, hzero]
    rfl
  · rw [if_neg fun hx => hb hx.2, if_neg hb]
    rfl

/-! ### Sending -/

theorem emit_port_cls (s : State) (q : Nat) (tag : Option LinkTag) (f : Frame) (c : Nat) : ((emit s q tag f).port q).cls c = (s.port q).cls c := by
  obtain ⟨k, hk⟩ := bump_frame_of_frame (bump_frame s .port q 2 1) .port q 3 f.len
  unfold emit
  dsimp only
  rw [hk]
  split
  · simp [State.port, State.updPort, Port.cls]
  · rfl

theorem emit_wire (s : State) (q : Nat) (tag : Option LinkTag) (f : Frame) : (emit s q tag f).wire = s.wire ++ [{ port := q, preamble := preambleOf tag, frame := f }] := by
  obtain ⟨k, hk⟩ := bump_frame_of_frame (bump_frame s .port q 2 1) .port q 3 f.len
  unfold emit
  dsimp only
  rw [hk]
  split <;> rfl

/-- A PFC frame leaves at once, and no class of the port sees it. -/
theorem sendPfc_running {s : State} {q : Nat} (h : (s.port q).running = true) (c quanta d : Nat) :
    ((sendPfc s q c quanta).port q).cls d = (s.port q).cls d ∧
      (sendPfc s q c quanta).wire = s.wire ++ [{ port := q, preamble := preambleOf (s.port q).plainTag, frame := macFrame s q (pfcOf c quanta) }] := by
  have hcls := emit_port_cls s q (s.port q).plainTag (macFrame s q (pfcOf c quanta)) d
  have hwire := emit_wire s q (s.port q).plainTag (macFrame s q (pfcOf c quanta))
  unfold sendPfc sendMac
  simp only [h, Bool.not_true, Bool.false_eq_true, if_false]
  split
  · exact ⟨hcls, hwire⟩
  · obtain ⟨k, hk⟩ := bump_frame (emit s q (s.port q).plainTag (macFrame s q (pfcOf c quanta))) .port q 8 1
    rw [hk]
    exact ⟨hcls, hwire⟩

/-! ### The obligation -/

/-- A row of received frames, named `o`, whose frame has arrived. -/
theorem completes_frame {i : Instr} {o : Host.Outcome State Fault Refusal} {s w : State} {q : Nat} {want : Frame → Bool} {act : State → RxItem → State} {x : RxItem}
    {P : State → Prop} (hi : exec i s = o) (ho : o = onFrame s q want act) (h : arrival s q want = some (x, w)) (hp : P (act w x)) : Completes i s P :=
  completes_of_exec (hi.trans (ho.trans (onFrame_arrival h))) hp

/-- Settles O16: the events of a port's classes, each on the classes that it names. -/
theorem trafficEventsComplete : Obligations.TrafficEventsComplete := by
  unfold Obligations.TrafficEventsComplete
  refine ⟨?refill, ?gates, ?schedGates, ?pfc, ?pfcIgnored, ?pause, ?pauseEnds, ?xoff, ?boundary, ?control⟩
  case refill =>
    rintro t s u rfl hc hlast hstaged
    refine completes_timed (o := execShaperRefill t s) rfl rfl (by simp [hc, hlast]) ?_
    rw [dueShapers_of_later hstaged]
    refine ⟨rfl, fun q c hshaped hnext => ?_⟩
    refine (congrArg PortClass.tokens (cls_tmap_ports (s := advance s t) (PortClass.refill_default _ _) q c)).trans ?_
    exact PortClass.refill_tokens hshaped hnext hlast
  case gates =>
    rintro t q s u g rfl hc hg hsync
    refine completes_timed (o := execGateEntryBoundary t q false s) rfl rfl (by simp [hc, hg, hsync]) ?_
    rw [State.updPort_port]
    simp [hg, GateList.sync]
  case schedGates =>
    rintro t q s u g rfl hc hg hsync
    refine completes_timed (o := execGateEntryBoundary t q true s) rfl rfl (by simp [hc, hg, hsync]) ?_
    rw [State.updPort_port]
    simp [hg, GateList.sync]
  case pfc =>
    intro q s w x classes quanta harr hbody hmask
    refine completes_frame (o := execPfcFrame q s) rfl rfl harr ?_
    rw [hbody]
    exact fun c hc => takePfc_pausedUntil hmask hc
  case pfcIgnored =>
    intro q s w x classes quanta harr hbody hmask
    refine (onFrame_arrival harr : execPfcFrame q s = _).trans ?_
    have hnames : (classes &&& 0xC1 != 0) = true := bne_iff_ne.mpr hmask
    simp only [hbody, takePfc, hnames, if_true]
  case pause =>
    intro q s w x harr
    exact (onFrame_arrival harr : execPauseFrame q s = _)
  case pauseEnds =>
    rintro t q tc s u rfl hc hreached
    refine completes_ticking (o := execPfcPauseExpiry t q tc s) rfl rfl hc hreached ?_
    rw [State.updPort_port, Port.updCls_cls]
  case xoff =>
    rintro t q tc s u rfl hc hrun hxoff hocc hsince
    refine completes_ticking (o := execPfcXoffRepeat t q tc s) rfl rfl hc (by simp [hrun, hxoff, hocc, hsince]) ?_
    have hport := State.updPort_port (advance s t) q (·.updCls tc (fun x => { x with xoffAt := (advance s t).now }))
    obtain ⟨hcls, hwire⟩ := sendPfc_running (s := (advance s t).updPort q (·.updCls tc (fun x => { x with xoffAt := (advance s t).now }))) (q := q) (by rw [hport]; exact hrun) tc 0xFFFF tc
    refine ⟨?_, hwire.trans ?_⟩
    · rw [hcls, hport, Port.updCls_cls]
    · rw [hport]
      rfl
  case boundary =>
    rintro t q s u rfl hc
    exact (timed_due hc : execEgressFrameBoundary t q s = _)
  case control =>
    intro q s x r hlink hcontrol
    have hport := State.updPort_port s q (fun p => { p with gates := p.gates.map (·.sync s.ct), schedGates := p.schedGates.map (·.sync s.ct) })
    have hl : ((syncGates s q).port q).link = .up := (congrArg Port.link hport).trans hlink
    have hx : ((syncGates s q).port q).control = x :: r := (congrArg Port.control hport).trans hcontrol
    simp only [frameBoundary, hl, hx]
    rfl

end Sys2Proof.Machine
end

