-- ==== Sys2Proof/Proofs/CoherenceRows.lean ====
section
/-!
PROOF. Coherent windows: the agent commands, the home, and the paddock line caches (14 R325 to R344).
-/

namespace Sys2Proof.Machine

open Sys2Proof

/-! ### Agent commands -/

theorem tenantOnly_eq (q : Req) : tenantOnly q.party = q.ctx?.isSome := by
  unfold Req.ctx?
  cases q.party <;> rfl

theorem tenant_of_ctx {q : Req} {c : Nat} (h : q.ctx? = some c) : q.tenant = c := by
  unfold Req.ctx? at h
  unfold Req.tenant
  cases hp : q.party with
  | tenant d =>
    rw [hp] at h
    exact Option.some.inj h
  | nobody => simp [hp] at h
  | role r => simp [hp] at h

theorem State.updAgent_agent? {s : State} {a : Nat} {g : Agent} (h : s.agent? a = some g) (f : Agent → Agent) : (s.updAgent a f).agent? a = some (f g) := by
  have h' : tget? s.agents a = some g := h
  simp only [State.updAgent, h', State.agent?, tget?_tput_same]

theorem ownAgent_agent? {s : State} {q : Req} {g : Agent} (h : ownAgent s q = some g) : s.agent? (q.arg 20 1) = some g := by
  unfold ownAgent at h
  dsimp only at h
  split at h
  · exact (Option.filter_eq_some_iff.mp h).1
  · cases h

/-- A remote agent ID that is free is picked where there is one. -/
theorem freeAgent_some {s : State} (h : ∃ a < 64, s.agent? a = none) : ∃ a < 64, s.agent? a = none ∧ freeAgent s = some a := by
  obtain ⟨b, hb, hfree⟩ := h
  have hmem : b ∈ (List.range 64).filter (fun a => (s.agent? a).isNone) := List.mem_filter.mpr ⟨List.mem_range.mpr hb, by simp [hfree]⟩
  obtain ⟨a, ha⟩ := pick_some (k := s.free) (List.ne_nil_of_mem hmem)
  obtain ⟨hlt, hnone⟩ := List.mem_filter.mp (pick_mem ha)
  exact ⟨a, List.mem_range.mp hlt, by simpa using hnone, ha⟩

/-- The agent that AGENT_REGISTER registers. -/
def agentFor (s : State) (q : Req) : Agent :=
  { ctx := q.tenant, session := q.arg 20 2, mask := BitVec.ofNat 8 (q.arg 22 1), n := q.arg 23 1, ways := q.arg 24 1
    leaseMs := if q.arg 28 4 = 0 then 2000 else q.arg 28 4, leaseStart := s.now }

section
variable {q : Req} {w : State} {g : Agent}

theorem cmdAgentLimitSet_body (h : RestZero q [(20, 3)]) (hc : q.arg 20 2 ≤ 1023) (hn : q.arg 22 1 ≤ 64)
    (hst : (w.ctx (q.arg 20 2)).st = .active ∨ (w.ctx (q.arg 20 2)).st = .lapsed) :
    cmdAgentLimitSet.body q w = .done (w.updCtx (q.arg 20 2) (fun x => { x with agentLimit := q.arg 22 1 })) [] [] := by
  simp only [cmdAgentLimitSet]
  rw [firstBad_none h (by simp [hc, hn])]
  rcases hst with hst | hst <;> rw [hst]

theorem cmdAgentRegister_body {a : Nat} (h : RestZero q [(20, 5), (28, 4)]) (hmask : q.arg 22 1 ≠ 0)
    (hsegs : ∀ k < 8, bit (q.arg 22 1) k = true → ∃ g, tget? (w.ctx q.tenant).segs k = some g ∧ g.coherent = true) (hn1 : 2 ≤ q.arg 23 1) (hn2 : q.arg 23 1 ≤ 15)
    (hw1 : 1 ≤ q.arg 24 1) (hw2 : q.arg 24 1 ≤ 16) (hsize : 2 ^ q.arg 23 1 * q.arg 24 1 * 128 ≤ 4194304)
    (hms : q.arg 28 4 = 0 ∨ (100 ≤ q.arg 28 4 ∧ q.arg 28 4 ≤ 60000)) (hst : (w.session (q.arg 20 2)).st = .opened) (hctx : (w.session (q.arg 20 2)).ctx = some q.tenant)
    (hbears : w.agents.any (fun a => a.1 < 64 && a.2.session == q.arg 20 2) = false) (hfree : freeAgent w = some a) (hlimit : agentsOf w q.tenant < (w.ctx q.tenant).agentLimit) :
    cmdAgentRegister.body q w = .done { drawn w with agents := tput w.agents a (agentFor w q) } (natLe a 1) [] := by
  have hslots : (List.range 8).any (fun k => bit (q.arg 22 1) k && !((tget? (w.ctx q.tenant).segs k).any (·.coherent))) = false := by
    refine List.any_eq_false.mpr fun k hk => ?_
    cases hb : bit (q.arg 22 1) k with
    | false => simp
    | true =>
      obtain ⟨g, hg, hcoh⟩ := hsegs k (List.mem_range.mp hk) hb
      simp [hg, hcoh]
  have hsession : ((w.session (q.arg 20 2)).st != .opened || (w.session (q.arg 20 2)).ctx != some q.tenant) = false := by simp [hst, hctx]
  have hroom : ¬ agentsOf w q.tenant ≥ (w.ctx q.tenant).agentLimit := Nat.not_le.mpr hlimit
  simp only [cmdAgentRegister]
  rw [hslots, firstBad_none h (by simp [hmask, hn1, hn2, hw1, hw2, hsize, hms]), hfree]
  simp only [hsession, hbears, hroom, Bool.false_eq_true, if_false]
  rfl

theorem cmdAgentDeregister_body (h : RestZero q [(20, 1)]) (hg : ownAgent w q = some g) :
    cmdAgentDeregister.body q w
      = .done (declareDead w (q.arg 20 1) 1) (natLe ((((declareDead w (q.arg 20 1) 1).agent? (q.arg 20 1)).map (·.deadO)).getD 0) 4) [] := by
  simp only [cmdAgentDeregister]
  rw [firstBad_none h (by simp [hg])]

theorem cmdAgentRenew_body (h : RestZero q [(20, 1)]) (hg : ownAgent w q = some g) :
    cmdAgentRenew.body q w = .done (w.updAgent (q.arg 20 1) (fun g => { g with leaseStart := w.now })) (natLe g.leaseMs 4) [] := by
  simp only [cmdAgentRenew]
  rw [firstBad_none h (by simp [hg]), hg]

theorem cmdAgentStatus_body_some (h : RestZero q [(20, 1)]) (hg : w.agent? (q.arg 20 1) = some g) (hown : ∀ c, q.ctx? = some c → c = g.ctx) :
    cmdAgentStatus.body q w = .done w (natLe 1 1 ++ natLe g.n 1 ++ natLe g.ways 1 ++ natLe g.mask.toNat 1 ++ natLe (entryCounts w (q.arg 20 1)).1 4
      ++ natLe (entryCounts w (q.arg 20 1)).2 4 ++ natLe g.snoops 4 ++ natLe g.stale 4 ++ natLe (if q.arg 20 1 < 64 then agentLeft w g else 0) 4) [] := by
  have hmine : (w.agent? (q.arg 20 1)).filter (fun g => q.ctx?.all (· == g.ctx)) = some g := by
    rw [hg]
    refine Option.filter_eq_some_iff.mpr ⟨rfl, ?_⟩
    cases hc : q.ctx? with
    | none => rfl
    | some c => simp [hown c hc]
  simp only [cmdAgentStatus]
  rw [hmine, firstBad_none h (by simp)]

theorem cmdAgentStatus_body_none (h : RestZero q [(20, 1)]) (hg : w.agent? (q.arg 20 1) = none) (hc : q.ctx? = none) : cmdAgentStatus.body q w = .done w [] [] := by
  simp only [cmdAgentStatus, hg, Option.filter_none]
  rw [firstBad_none h (by simp [tenantOnly_eq, hc])]

theorem cmdLostOwnedRead_body (h : RestZero q [(20, 1), (22, 2)]) (hk : q.arg 20 1 ≤ 7) (hid : q.ctx? = none → q.arg 22 2 ≤ 1023) :
    cmdLostOwnedRead.body q w = .done w (natLe (tgetD (w.ctx (match q.ctx? with | some c => c | none => q.arg 22 2)).lostOwned 0 (q.arg 20 1)) 8) [] := by
  simp only [cmdLostOwnedRead, tenantOnly_eq]
  cases hc : q.ctx? with
  | none =>
    rw [firstBad_none h (by simp [hk, hid hc])]
    rfl
  | some c =>
    rw [firstBad_none h (by simp [hk]), tenant_of_ctx hc]
    rfl

end

/-- Settles O17: each command names an agent of its party. -/
theorem agentCommandsComplete : Obligations.AgentCommandsComplete := by
  unfold Obligations.AgentCommandsComplete
  refine ⟨fun m s v q hready h hc hn hst => ?limit, fun m s v q hready h hmask hsegs hn1 hn2 hw1 hw2 hsize hms hst hctx hbears hfree hlimit => ?register,
    fun m s v q g hready h hg => ?deregister, fun m s v q g hready h hg => ?renew,
    fun m s v q g hready h hg hown => serve_query hready rfl (cmdAgentStatus_body_some h hg hown),
    fun m s v q hready h hg hc => serve_query hready rfl (cmdAgentStatus_body_none h hg hc),
    fun m s v q hready h hk hid => serve_query hready rfl (cmdLostOwnedRead_body h hk hid)⟩
  case limit =>
    exact completes_done (eff := (·.updCtx (q.arg 20 2) (fun x => { x with agentLimit := q.arg 22 1 }))) rfl (fun _ => rfl) hready
      (fun f k => cmdAgentLimitSet_body h hc hn hst) fun f k g n e => State.updCtx_ctx v (q.arg 20 2) (fun x => { x with agentLimit := q.arg 22 1 })
  case register =>
    obtain ⟨a, ha, hnone, hpick⟩ := freeAgent_some hfree
    exact completes_unrecorded rfl (fun _ => rfl) hready rfl (cmdAgentRegister_body h hmask hsegs hn1 hn2 hw1 hw2 hsize hms hst hctx hbears hpick hlimit) fun g n e =>
      ⟨a, ha, hnone, tget?_tput_same v.agents a (agentFor v q)⟩
  case deregister =>
    dsimp only
    rw [recorded_of_not_changes (c := cmdAgentDeregister) rfl]
    exact serve_done_unrecorded hready rfl (cmdAgentDeregister_body h hg)
  case renew =>
    exact completes_unrecorded rfl (fun _ => rfl) hready rfl (cmdAgentRenew_body h hg) fun _ n e => State.updAgent_agent? (ownAgent_agent? hg) (fun g => { g with leaseStart := v.now })

/-! ### Requests at the home -/

theorem fromAgent_ok {s : State} {g : Agent} {r : CohReq} {line : Nat} (h : cohCheck (bump s .context g.ctx 14 1) g r.agent r.opcode r.va = (stOk, line)) :
    fromAgent s g r = arrive (bump s .context g.ctx 14 1) { r with line := line } := by
  simp only [fromAgent]
  rw [h]
  rfl

/-- A coherence request that its source gives is taken from its agent. -/
theorem onCoh_cohRequest {s u : State} {src : CohSource} {op : Nat} {g : Agent} {r : CohReq} (h : cohRequest s src op = some (g, r, u)) :
    onCoh s src op = .next (fromAgent u g r) := by
  cases src with
  | port q =>
    simp only [cohRequest] at h
    split at h
    · next x w hreq =>
      split at h
      · next a ha =>
        split at h
        · next g' hg =>
          split at h
          · cases h
          · next hgood =>
            cases h
            refine (onRequest_requested hreq).trans ?_
            simp only [cohFrame, ha, hg, hgood, Bool.false_eq_true, if_false]
        · cases h
      · cases h
    · cases h
  | paddock p =>
    simp only [cohRequest] at h
    split at h
    · next m w hsent =>
      split at h
      · next g' hg =>
        split at h
        · cases h
        · next hlive =>
          cases h
          unfold sentHome at hsent
          simp only [onCoh, hsent, hg, hlive, Bool.false_eq_true, if_false]
      · cases h
    · cases h

/-- Settles O18: a request that passes its check arrives at the home. -/
theorem coherenceRequestsComplete : Obligations.CoherenceRequestsComplete := by
  unfold Obligations.CoherenceRequestsComplete
  have hrow {s u : State} {src : CohSource} {op : Nat} {g : Agent} {r : CohReq} {line : Nat} (hreq : cohRequest s src op = some (g, r, u))
      (hcheck : cohCheck (bump u .context g.ctx 14 1) g r.agent r.opcode r.va = (stOk, line)) :
      onCoh s src op = .next (arrive (bump u .context g.ctx 14 1) { r with line := line }) := by
    rw [onCoh_cohRequest hreq, fromAgent_ok hcheck]
  refine ⟨fun src s u g r line hreq hcheck => hrow hreq hcheck, fun src s u g r line hreq hcheck => hrow hreq hcheck, fun src s u g r line hreq hcheck => hrow hreq hcheck,
    fun src s u g r line hreq hcheck => hrow hreq hcheck, fun q s u r a g t hreq ha hg hgood ht => ?port, fun p s u m t hsent ht => ?paddock⟩
  case port =>
    refine (onRequest_requested hreq : execCompAck (.port q) s = _).trans ?_
    simp only [ha, hg, hgood, ht, compAckFrom, Option.bind_some, Option.map_some, Bool.false_eq_true, if_false]
  case paddock =>
    change execCompAck (.paddock p) s = _
    unfold sentHome at hsent
    simp only [execCompAck, hsent, compAckFrom, ht]

/-! ### The home on a stable line -/

/-- Settles O19: the branches of the home's service, by opcode and by what the tally records. -/
theorem homeServesByOpcode : Obligations.HomeServesByOpcode := by
  unfold Obligations.HomeServesByOpcode
  intro s r hnc
  dsimp only
  refine ⟨fun hop => ?shared, fun hop => ?own, fun hop hholds howner => ?upgrade, fun hop hholds => ?upgradeNone, fun hop howns => ?wb, fun hop howns => ?wbOther⟩
  case shared => simp only [serveOne, hnc, hop]
  case own => simp only [serveOne, hnc, hop]
  case upgrade =>
    have howner' : (lineOwner (bump s .device 0 0 1) r.line != some r.agent) = true := bne_iff_ne.mpr howner
    simp only [serveOne, hnc, hop, hholds, howner', Bool.and_self, if_true]
  case upgradeNone => simp only [serveOne, hnc, hop, hholds, Bool.false_and, Bool.false_eq_true, if_false]
  case wb => simp only [serveOne, hnc, hop, serveWb, howns, if_true]
  case wbOther => simp only [serveOne, hnc, hop, serveWb, howns, Bool.false_eq_true, if_false]

/-! ### Answers at the home -/

/-- An answer that its source gives is acted on. -/
theorem onAnswer_answerFrom {s w : State} {src : CohSource} {ops : List Nat} {subop a line way : Nat} {d : Bytes} {act : State → Nat → Nat → Nat → Bytes → State}
    (h : answerFrom s src ops subop = some (a, line, way, d, w)) : onAnswer s src ops subop act = .next (act w a line way d) := by
  cases src with
  | port q =>
    simp only [answerFrom] at h
    split at h
    · next o e u hans =>
      unfold answered at hans
      split at hans
      · next x v harr =>
        split at hans
        · next e' he =>
          split at hans
          · next o' r hmatch =>
            cases hans
            simp only [onAnswer]
            refine (onFrame_arrival harr).trans ?_
            simp only [he, hmatch]
            split at h
            · next b l hkind =>
              split at h
              · cases h
              · next hops =>
                cases h
                simp only [hkind, hops]
                rfl
            · next b l hkind =>
              split at h
              · next hops =>
                cases h
                simp only [hkind, hops]
                rfl
              · cases h
            · cases h
          · cases hans
        · cases hans
      · cases hans
    · cases h
  | paddock p =>
    simp only [answerFrom] at h
    split at h
    · next m u hsent =>
      obtain ⟨l, hl, hx⟩ := Option.map_eq_some_iff.mp h
      cases hx
      unfold sentHome at hsent
      have hsent' : takeMsg s (fun m => m.toHome && m.paddock == p && ops.contains m.opcode && m.subop == subop) = some (m, w) := by
        rw [← hsent]
        simp only [Bool.and_assoc]
      simp only [onAnswer, hsent', hl]
    · cases h

section
variable {w : State} {a line : Nat} {t : Txn}

/-- An awaited snoop answer without data. -/
theorem snoopAnswer_awaited {subop : Nat} (ht : txnOn w line = some t) (hphase : t.phase = .snp) (hawaited : t.awaited.contains a = true) (hheld : homeHeld w line = false) (d : Bytes) :
    snoopAnswer w a line subop d =
      let h := if subop = 0x12 || subop = 0x13 then updTxn (writeHome w line d) line (fun t => { t with data := some d }) else w
      let h := if subop = 0x11 || subop = 0x13 then setShared h a line else dropEntries h a line
      serveQueued (tryComplete (updTxn h line (fun t => { t with awaited := t.awaited.erase a })) line) := by
  simp only [snoopAnswer, ht, hphase, hawaited, hheld, bne_self_eq_false, Bool.not_true, Bool.or_self, Bool.false_eq_true, if_false]

theorem stashAnswer_accept {way : Nat} {g : Agent} (ht : txnOn w line = some t) (hphase : t.phase = .sth) (ha : t.agent = a) (hg : w.agent? a = some g) (hway : way < g.ways) :
    stashAnswer w a line (some way) = serveQueued (closeTxn (bump (setEntry w a t.va way line true) .device 0 4 1) line) := by
  simp only [stashAnswer, ht, hphase, ha, hg, hway, bne_self_eq_false, Bool.or_self, Bool.false_eq_true, if_false, if_true]

theorem stashAnswer_decline (ht : txnOn w line = some t) (hphase : t.phase = .sth) (ha : t.agent = a) : stashAnswer w a line none = serveQueued (closeTxn w line) := by
  simp only [stashAnswer, ht, hphase, ha, bne_self_eq_false, Bool.or_self, Bool.false_eq_true, if_false]

end

/-- Settles O20: an answer is taken, and an awaited one acts by its SUBOP. -/
theorem snoopAnswersComplete : Obligations.SnoopAnswersComplete := by
  unfold Obligations.SnoopAnswersComplete
  refine ⟨fun src s w a line way d t hans ht hphase hawaited hheld => ?rspI, fun src s w a line way d t hans ht hphase hawaited hheld => ?rspS,
    fun src s w a line way d t hans ht hphase hawaited hheld => ?rspDataI, fun src s w a line way d t hans ht hphase hawaited hheld => ?rspDataS,
    fun src s w a line way d t g hans ht hphase ha hg hway => ?accept, fun src s w a line way d t hans ht hphase ha => ?decline⟩
  case rspI =>
    refine (onAnswer_answerFrom hans : execRspI src s = _).trans ?_
    rw [snoopAnswer_awaited ht hphase hawaited hheld]
    rfl
  case rspS =>
    refine (onAnswer_answerFrom hans : execRspS src s = _).trans ?_
    rw [snoopAnswer_awaited ht hphase hawaited hheld]
    rfl
  case rspDataI =>
    refine (onAnswer_answerFrom hans : execRspDataI src s = _).trans ?_
    rw [snoopAnswer_awaited ht hphase hawaited hheld]
    rfl
  case rspDataS =>
    refine (onAnswer_answerFrom hans : execRspDataS src s = _).trans ?_
    rw [snoopAnswer_awaited ht hphase hawaited hheld]
    rfl
  case accept =>
    refine (onAnswer_answerFrom hans : execAccept src s = _).trans ?_
    rw [stashAnswer_accept ht hphase ha hg hway]
  case decline =>
    refine (onAnswer_answerFrom hans : execDecline src s = _).trans ?_
    rw [stashAnswer_decline ht hphase ha]

/-! ### Timed events of the home -/

/-- The end of a resolution removes the agent, but after an engine reset (14 R342). -/
theorem resolutionDone_agent? {s : State} {a : Nat} {g : Agent} {cause : Nat} (h : cause ≠ 6) : (resolutionDone s a g cause).agent? a = none := by
  unfold resolutionDone
  simp only [h, if_false]
  exact tget?_tdel_same _ _

/-- Settles O21: each event is due, and acts as an answer of its agent would. -/
theorem homeEventsComplete : Obligations.HomeEventsComplete := by
  unfold Obligations.HomeEventsComplete
  refine ⟨?memory, ?compAck, ?snoop, ?resolution, ?stash, ?lease⟩
  case memory =>
    rintro t line s u x rfl hc ht hphase hneed hin hheld
    exact (ticking_due hc (by simp [hheld, ht, hphase, hneed, hin]) : execHomeMemoryDataIn t line s = _)
  case compAck =>
    rintro t line s u x rfl hc ht hphase hlate
    exact (ticking_due hc (by simp [ht, hphase, hlate]) : execCompAckTimeout t line s = _)
  case snoop =>
    rintro t line a s u x rfl hc ht hphase hawaited hunsent hlate
    exact (ticking_due hc (by rw [ht, Option.any_some, hphase, hawaited, hunsent, hlate]; rfl) : execSnoopTimeout t line a s = _)
  case resolution =>
    rintro t a s u g cause rfl hc hg hdead hcause
    refine completes_ticking (o := execAgentResolutionDone t a s) rfl rfl hc (by simp [hg, hdead]) ?_
    simp only [hg, hdead]
    exact resolutionDone_agent? hcause
  case stash =>
    rintro t line s u x rfl hc ht hphase hunsent hlate
    refine (ticking_due hc (by simp [ht, hphase, hunsent, hlate]) : execStashOfferTimeout t line s = _).trans ?_
    rw [ht]
    exact congrArg _ (stashAnswer_decline ht hphase rfl)
  case lease =>
    rintro t a s u g rfl hc hg hdead hsince
    exact (ticking_due hc (by simp [agentLeaseDue, hg, hdead, hsince]) : execAgentLeaseExpiry t a s = _)

/-! ### The paddock line caches -/

section
variable {p : Nat} {s u : State} {m : XMsg}

/-- A grant that its way awaits. -/
theorem onGrant_awaited {subop : Nat} {act : LineState → Option LineState} {w : Way} {st : LineState} (h : delivered s p (fun m => m.opcode ≤ 0x12 && m.subop == subop) = some (m, u))
    (hw : tget? (u.engine p).ways (wayKey (u.engine p) m.va m.way) = some w) (hva : w.va = m.va) (hst : act w.st = some st) :
    onGrant s p subop act = .next (toHome (if lineCurrent u p m.va m.line then setWay u p (wayKey (u.engine p) m.va m.way)
      (fun w => { w with st := st, extent := some (lineExtent m.line), data := if m.data.isEmpty then w.data else m.data })
      else freeWay u p (wayKey (u.engine p) m.va m.way)) p 0x14 0 m.va m.way) := by
  have h' : takeMsg s (fun m => !m.toHome && m.paddock == p && decide (m.opcode ≤ 0x12) && m.subop == subop) = some (m, u) := by
    rw [← h, delivered]
    simp only [Bool.and_assoc]
  simp only [onGrant, h', hw, hva, beq_self_eq_true, if_true, hst]

/-- A snoop of a line that the cache does not hold. -/
theorem onSnoop_absent {op : Nat} {table : LineState → Nat × Bool × Option LineState} (h : delivered s p (fun m => m.opcode == op) = some (m, u))
    (hw : wayOf (u.engine p) m.va = none) : onSnoop s p op table = .next (toHome u p op 0x10 m.va m.way []) := by
  unfold delivered at h
  simp only [onSnoop, h, hw]

/-- A snoop of a line that the cache holds, answered by the table of its state. -/
theorem onSnoop_held {op k subop : Nat} {table : LineState → Nat × Bool × Option LineState} {w : Way} {withData : Bool} {next : Option LineState}
    (h : delivered s p (fun m => m.opcode == op) = some (m, u)) (hw : wayOf (u.engine p) m.va = some (k, w)) (hst : table w.st = (subop, withData, next)) :
    onSnoop s p op table = .next (let v := toHome u p op subop m.va m.way (if withData then w.data else [])
      next.elim (freeWay v p k) (fun x => setWay v p k (fun w => { w with st := x }))) := by
  unfold delivered at h
  simp only [onSnoop, h, hw, hst]
  cases next <;> rfl

end

/-- Settles O22: a message meets the way that it names, in each of its states. -/
theorem lineCacheMessagesComplete : Obligations.LineCacheMessagesComplete := by
  unfold Obligations.LineCacheMessagesComplete
  refine ⟨fun p s u m w h hw hva hst => ?dataS, fun p s u m w h hw hva hst => ?dataE, fun p s u m w h hw hva hst => ?dataM, fun p s u m w h hw hva hst => ?grantM,
    fun p s u m k w h hw hst => ?wbAck, fun p s u m h hw => (onSnoop_absent h hw : execSnpShared p s = _), fun p s u m k subop w withData st h hw hst => ?shared, by decide,
    fun p s u m h hw => (onSnoop_absent h hw : execSnpInv p s = _), fun p s u m k subop w withData st h hw hst => ?inv, by decide, fun p s u m h hw hpart hcur hopen => ?stash⟩
  case dataS => exact (onGrant_awaited (st := .s) h hw hva (by simp [hst]) : execDataS p s = _)
  case dataE => exact (onGrant_awaited (st := .e) h hw hva (by simp [hst]) : execDataE p s = _)
  case dataM =>
    exact (onGrant_awaited (st := .m) h hw hva (by rcases hst with hst | hst <;> simp [hst]) : execDataM p s = _)
  case grantM => exact (onGrant_awaited (st := .m) h hw hva (by simp [hst]) : execGrantM p s = _)
  case wbAck =>
    have h' : takeMsg s (fun m => !m.toHome && m.paddock == p && m.opcode == 0x13 && m.subop == 5) = some (m, u) := by
      rw [← h, delivered]
      simp only [Bool.and_assoc]
    have hst' : (w.st == .miA || w.st == .iiA) = true := by simpa using hst
    change execWbAck p s = _
    simp only [execWbAck, h', hw, hst', if_true]
  case shared =>
    refine (onSnoop_held h hw hst : execSnpShared p s = _).trans ?_
    cases st <;> rfl
  case inv =>
    refine (onSnoop_held h hw hst : execSnpInv p s = _).trans ?_
    cases st <;> rfl
  case stash =>
    obtain ⟨x, hx⟩ := pick_some (k := u.free) hopen
    have htaken : ((wayOf (u.engine p) m.va).isSome || decide ((u.engine p).partition = 0) || !lineCurrent u p m.va m.line) = false := by
      simp [hw, hpart, hcur]
    unfold delivered at h
    have hrow : execStashFill p s = .next (toHome ((drawn u).updEngine p (fun e => { e with
        ways := tput e.ways (wayKey e m.va x) { va := m.va, st := .e, extent := some (lineExtent m.line), data := m.data } })) p 0x1A 0x20 m.va x) := by
      simp only [execStashFill, h, htaken, Bool.false_eq_true, if_false, hx]
    refine completes_of_exec hrow ⟨x, pick_mem hx, ?_, rfl⟩
    simp [toHome, drawn, State.engine, State.updEngine, tget?_tput_same]

end Sys2Proof.Machine
end

