-- ==== Sys2Proof/Proofs/StackCommands.lean ====
section
/-!
PROOF. The commands of the stacks and of the rebuild (09 R206, R207, R228, R230, R231; 10 R237, R240, R245).
-/

namespace Sys2Proof.Machine

open Sys2Proof

/-- What is known of a ready command that its body refuses, beside its answer. -/
theorem completes_refused {i : Instr} {c : Cmd} {m : Nat} {s v : State} {q : Req} {st d : Nat} {P : State → Prop} (hi : exec i s = serve m c s) (h : Ready c m s q v)
    (hbody : c.body q v = .fail st d) (hst : 2 ≤ st) (hp : ∀ g n e, P { v with pages := g, qps := n, pendings := e }) : Completes i s P := by
  refine ⟨_, hi.trans (serve_refuses h.1 hbody hst (Or.inr h.2.1)), ?_⟩
  obtain ⟨g, n, e, hclose⟩ := closeWith_frame v q st d [] []
  rw [refusal, hclose]
  exact hp g n e

section
variable {q : Req} {w : State}

theorem cmdStackStatus_body (h : RestZero q [(20, 1)]) (hk : q.arg 20 1 ≤ 15) :
    let x := w.stack (q.arg 20 1)
    cmdStackStatus.body q w = .done w (natLe x.st.code 1 ++ natLe 0 1 ++ natLe x.badDies.toNat 2 ++ natLe (unsigned x.caseTemp 8) 1 ++ natLe x.flags.toNat 1
      ++ natLe x.owedMax 1 ++ natLe 0 1 ++ natLe x.forced 4 ++ natLe x.corrected 4 ++ natLe x.reconstructed 4 ++ natLe x.mediaErrors 4 ++ natLe x.scrubAddr 8
      ++ natLe (match x.scrubDone with | some d => (w.now - d) / secNs 1 | none => 0) 4) [] := by
  simp only [cmdStackStatus]
  rw [firstBad_none h (by simp [hk])] <;> rfl

theorem cmdStackProfileRead_body (h : RestZero q [(20, 2)]) (hk : q.arg 20 1 ≤ 15) (hcopy : q.arg 21 1 ≤ 1) (hroom : w.profileSize ≤ q.room) :
    let set := if q.arg 21 1 = 0 then w.flash.accepted.at_ 0 (16 * w.profileSize) else packageProfiles w w.dev.package
    cmdStackProfileRead.body q w = .done w (setDigest set) (siteProfile w set (q.arg 20 1)) := by
  have hroom' : ¬ q.room < w.profileSize := Nat.not_lt.mpr hroom
  simp only [cmdStackProfileRead]
  rw [firstBad_none h (by simp [hk, hcopy])]
  simp only [hroom', if_false]

/-- The profile set that the package holds is the one that the request accepts, and can be used. -/
abbrev profileAccepted (w : State) (q : Req) : Prop :=
  w.dev.package.present = true ∧ setDigest (packageProfiles w w.dev.package) = q.xarg ∧ setFault w (packageProfiles w w.dev.package) = none

/-- The state with the package's profile set accepted. -/
def acceptProfiles (w : State) (q : Req) : State :=
  w.updFlash (fun f => { f with accepted := Area.of (packageProfiles w w.dev.package), acceptedSig := packageSignature w w.dev.package, idleClose := q.arg 20 2 })

theorem cmdStackProfileAccept_body_accepted (h : RestZero q [(20, 2)]) (hidle : q.arg 20 2 ≤ 1023) (hlen : q.xargLen = 32) (hjob : w.job.isOpen = false)
    (hset : profileAccepted w q) : cmdStackProfileAccept.body q w = .done (acceptProfiles w q) [] [] := by
  obtain ⟨hpresent, hdigest, hgood⟩ := hset
  simp only [cmdStackProfileAccept]
  rw [firstBad_none h (by simp [hidle])]
  simp only [hlen, hpresent, hdigest, hgood, hjob, bne_self_eq_false, Bool.not_true, Bool.or_self, Bool.false_eq_true, if_false]
  rfl

theorem cmdStackProfileAccept_body_refused (h : RestZero q [(20, 2)]) (hidle : q.arg 20 2 ≤ 1023) (hlen : q.xargLen = 32) (hset : ¬ profileAccepted w q) :
    ∃ d, cmdStackProfileAccept.body q w = .fail stBadArg d := by
  simp only [cmdStackProfileAccept]
  rw [firstBad_none h (by simp [hidle])]
  simp only [hlen, bne_self_eq_false, Bool.false_eq_true, if_false]
  split
  · exact ⟨_, rfl⟩
  · next hsame =>
    split
    · exact ⟨_, rfl⟩
    · next hgood =>
      refine absurd ⟨?_, ?_, hgood⟩ hset
      · by_contra hp
        simp [hp] at hsame
      · by_contra hd
        simp [hd] at hsame

/-- The policy that MEM_POLICY_SET describes. -/
def policyOf (q : Req) : Policy :=
  { bgShare := q.arg 20 1, scrubPeriod := q.arg 21 2, dieBadLines := q.arg 23 4, dieLimit := q.arg 27 1, ueLimit := q.arg 28 2, caParityLimit := q.arg 30 1, combineIdle := q.arg 31 4 }

theorem cmdMemPolicySet_body (h : RestZero q [(20, 15)]) (hb1 : 5 ≤ q.arg 20 1) (hb2 : q.arg 20 1 ≤ 50) (hs : q.arg 21 2 ≤ 720) (hd : q.arg 27 1 ≤ 1) (hu : 1 ≤ q.arg 28 2)
    (hc : 1 ≤ q.arg 30 1) (hi1 : 1000 ≤ q.arg 31 4) (hi2 : q.arg 31 4 ≤ 1000000) : cmdMemPolicySet.body q w = .pend (stage w (.policy (policyOf q)) (some q.owes)) [] := by
  have hu' : q.arg 28 2 ≠ 0 := by omega
  have hc' : q.arg 30 1 ≠ 0 := by omega
  simp only [cmdMemPolicySet]
  rw [firstBad_none h (by simp [hb1, hb2, hs, hd, hu', hc', hi1, hi2])]
  rfl

theorem cmdStackFlagsClear_body (h : RestZero q [(20, 2)]) (hk : q.arg 20 1 ≤ 15) (hmask : q.arg 21 1 < 64) :
    cmdStackFlagsClear.body q w = .done (w.updStack (q.arg 20 1) (·.clearFlags (q.arg 21 1))) [] [] := by
  simp only [cmdStackFlagsClear]
  rw [firstBad_none h (by simp [hk, hmask])]

theorem cmdStackDiagRead_body (h : RestZero q [(20, 1), (22, 6)]) (hk : q.arg 20 1 ≤ 15) (hline : q.arg 22 6 % 128 = 0) (hend : q.arg 22 6 < w.stripes * 4096)
    (hroom : 161 ≤ q.room) (hden : diagDenied w (q.arg 20 1) (q.arg 22 6) = false) :
    cmdStackDiagRead.body q w = .done w [] (storedSymbols w (q.arg 20 1) (q.arg 22 6)
      ++ [Config.diagCode (diagOutcome w (q.arg 20 1) (q.arg 22 6))] ++ (List.range 16).flatMap (fun i => natLe (dieOf w (q.arg 22 6) i) 1)) := by
  have hroom' : ¬ q.room < 161 := Nat.not_lt.mpr hroom
  simp only [cmdStackDiagRead]
  rw [firstBad_none h (by simp [hk, hline, hend])]
  simp only [hroom', hden, Bool.false_eq_true, if_false]

theorem cmdStackFail_body (h : RestZero q [(20, 2)]) (hk : q.arg 20 1 ≤ 15) (hforce : q.arg 21 1 ≤ 1) (hst : (w.stack (q.arg 20 1)).st = .serving)
    (hloss : lossAhead w = true → q.arg 21 1 = 1) : cmdStackFail.body q w = .pend (fenceStack w (q.arg 20 1) 4) [] := by
  have hagreed : (lossAhead w && !bit (q.arg 21 1) 0) = false := by
    cases hl : lossAhead w with
    | false => rfl
    | true =>
      rw [hloss hl]
      decide
  simp only [cmdStackFail]
  rw [firstBad_none h (by simp [hk, hforce])]
  simp only [hst, hagreed, bne_self_eq_false, Bool.false_eq_true, if_false]

theorem cmdRebuildStatus_body (h : RestZero q []) :
    cmdRebuildStatus.body q w = .done w (natLe w.layout.st.code 1 ++ natLe (stackByte w.layout.f) 1 ++ natLe (stackByte w.layout.g) 1 ++ natLe (stackByte w.layout.h) 1
      ++ natLe w.layout.w 4 ++ natLe (stripesLeft w) 4 ++ natLe w.rebuild.mode 1 ++ natLe w.policy.bgShare 1 ++ natLe 0 2 ++ natLe (spacing w) 4 ++ natLe w.rebuild.marked 4
      ++ natLe (if w.rebuild.since = 0 then 0 else (w.now - w.rebuild.since) / secNs 1) 4) [] := by
  simp only [cmdRebuildStatus]
  rw [firstBad_none h rfl]

theorem cmdRebuildControl_body {f : Nat} (h : RestZero q [(20, 1)]) (hmode : q.arg 20 1 ≤ 2) (hf : w.layout.f = some f) (hst : (w.stack f).st = .rebuilding) :
    cmdRebuildControl.body q w = .done { w with rebuild := { w.rebuild with mode := q.arg 20 1 } } [] [] := by
  simp only [cmdRebuildControl]
  rw [firstBad_none h (by simp [hmode]), hf]
  simp only [hst, bne_self_eq_false, Bool.false_eq_true, if_false]

end

/-- STACK_PROFILE_ACCEPT takes the set that the package holds, or leaves the accepted one. -/
theorem stackProfileAccept_completes {m : Fin 1029} {s v : State} {q : Req} (hready : Ready cmdStackProfileAccept m s q v) (h : RestZero q [(20, 2)]) (hidle : q.arg 20 2 ≤ 1023)
    (hlen : q.xargLen = 32) (hjob : v.job.isOpen = false) :
    Completes (.stackProfileAccept m) s (fun t => t.dev = v.dev ∧ if profileAccepted v q
      then t.flash.accepted = Area.of (packageProfiles v v.dev.package) ∧ t.flash.idleClose = q.arg 20 2
      else t.flash.accepted = v.flash.accepted ∧ t.flash.idleClose = v.flash.idleClose) := by
  by_cases hset : profileAccepted v q
  · simp only [if_pos hset]
    exact completes_done (eff := (acceptProfiles · q)) rfl (fun _ => rfl) hready
      (fun f k => cmdStackProfileAccept_body_accepted (w := { v with flash := v.flash.withLog f, counters := k }) h hidle hlen hjob hset) fun f k g n e => ⟨rfl, rfl, rfl⟩
  · simp only [if_neg hset]
    obtain ⟨d, hbody⟩ := cmdStackProfileAccept_body_refused h hidle hlen hset
    exact completes_refused rfl hready hbody (by decide) fun g n e => ⟨rfl, rfl, rfl⟩

/-- Settles O23: each command names one stack, or the part's one rebuild. -/
theorem stackCommandsComplete : Obligations.StackCommandsComplete := by
  unfold Obligations.StackCommandsComplete
  refine ⟨fun m s v q hready h hk => serve_query hready rfl (cmdStackStatus_body h hk),
    fun m s v q hready h hk hcopy hroom => serve_query hready rfl (cmdStackProfileRead_body h hk hcopy hroom),
    fun m s v q hready h hidle hlen hjob => stackProfileAccept_completes hready h hidle hlen hjob,
    fun m s v q hready h hb1 hb2 hs hd hu hc hi1 hi2 => ?policy, fun m s v q hready h hk hmask => ?flags, fun m s v q hready h hk hline hend hroom hden => ?diag,
    fun m s v q hready h hk hforce hst hloss => ?fail, fun m s v q hready h => serve_query hready rfl (cmdRebuildStatus_body h),
    fun m s v q f hready h hmode hf hst => ?control⟩
  case policy =>
    exact completes_stage rfl (fun _ => rfl) hready (fun w _ _ => cmdMemPolicySet_body h hb1 hb2 hs hd hu hc hi1 hi2) fun f k g n => ⟨rfl, rfl⟩
  case flags =>
    exact completes_done (eff := (·.updStack (q.arg 20 1) (·.clearFlags (q.arg 21 1)))) rfl (fun _ => rfl) hready (fun f k => cmdStackFlagsClear_body h hk hmask)
      fun f k g n e => State.updStack_stack v (q.arg 20 1) (·.clearFlags (q.arg 21 1))
  case diag => exact serve_done_recorded (eff := id) hready fun f k => cmdStackDiagRead_body h hk hline hend hroom hden
  case fail => exact serve_pend_recorded (eff := (fenceStack · (q.arg 20 1) 4)) hready fun f k => cmdStackFail_body h hk hforce hst hloss
  case control =>
    exact completes_done (eff := fun w => { w with rebuild := { w.rebuild with mode := q.arg 20 1 } }) rfl (fun _ => rfl) hready
      (fun f k => cmdRebuildControl_body h hmode hf hst) fun f k g n e => ⟨rfl, rfl⟩

end Sys2Proof.Machine
end

