-- ==== Sys2Proof/Proofs/StackEvents.lean ====
section
/-!
PROOF. Refresh, temperature readings, and what stacks, patrol and rebuild do at their events (09 R210 to R227; 10 R234 to R240; 07 R194, R195;
19 R437, R442).
-/

namespace Sys2Proof.Machine

open Sys2Proof

/-! ### Refreshing a PC -/

theorem closeRowOn_rows (x : Stack) (key pc : Nat) : ∃ r, closeRowOn x key pc = { x with rows := r } := by
  unfold closeRowOn
  split
  · exact ⟨_, rfl⟩
  · exact ⟨x.rows, rfl⟩

theorem closePc_rows (x : Stack) (pc : Nat) : ∃ r, closePc x pc = { x with rows := r } := by
  unfold closePc
  generalize tkeys x.rows (fun k _ => k / 64 == pc / 16) = ks
  induction ks generalizing x with
  | nil => exact ⟨x.rows, rfl⟩
  | cons k ks ih =>
    obtain ⟨r, hr⟩ := closeRowOn_rows x k (pc % 16)
    obtain ⟨r', hr'⟩ := ih { x with rows := r }
    exact ⟨r', by rw [List.foldl_cons, hr, hr']⟩

theorem bump_stack (s : State) (g : Group) (i idx n t : Nat) : (bump s g i idx n).stack t = s.stack t := by
  obtain ⟨c, h⟩ := bump_frame s g i idx n
  rw [h]
  rfl

theorem trace_stack (s : State) (type unit : Nat) (ctx : Option Nat) (time : Nat) (d : Bytes) (t : Nat) : (trace s type unit ctx time d).stack t = s.stack t := by
  obtain ⟨p, x, m, h⟩ := trace_frame s type unit ctx time d
  rw [h]
  rfl

/-- What `n` refreshes of a PC leave of the count that it owes, and what they count. -/
theorem refreshPc_stack (s : State) (t pc n : Nat) :
    let x := (refreshPc s t pc n).stack t
    tgetD x.owed 0 pc = tgetD (s.stack t).owed 0 pc - n ∧ x.refreshes = (s.stack t).refreshes + min n (tgetD (s.stack t).owed 0 pc) ∧ x.forced = (s.stack t).forced
      ∧ x.lastTick = (s.stack t).lastTick ∧ x.flags = (s.stack t).flags := by
  dsimp only
  unfold refreshPc
  dsimp only
  by_cases hk : min n (tgetD (s.stack t).owed 0 pc) = 0
  · rw [if_pos hk, hk]
    exact ⟨by omega, rfl, rfl, rfl, rfl⟩
  · rw [if_neg hk, bump_stack, State.updStack_stack]
    obtain ⟨r, hr⟩ := closePc_rows { s.stack t with
      owed := tupd (s.stack t).owed 0 pc (· - min n (tgetD (s.stack t).owed 0 pc)), refreshes := (s.stack t).refreshes + min n (tgetD (s.stack t).owed 0 pc)
      refreshEnd := tupd (s.stack t).refreshEnd 0 pc (fun e => max e s.now + min n (tgetD (s.stack t).owed 0 pc) * tRfc s t) } pc
    rw [hr]
    refine ⟨?_, rfl, rfl, rfl, rfl⟩
    simp only [tgetD_tupd_same]
    omega

/-- A forced refresh is one refresh of a stack that has counted and flagged it. -/
theorem forceRefresh_eq (s : State) (t pc : Nat) : ∃ v, forceRefresh s t pc = refreshPc v t pc 1 ∧
    v.stack t = { s.stack t with forced := (s.stack t).forced + 1, flags := (s.stack t).flags ||| 1, flagCnts := tupd (s.stack t).flagCnts 0 0 (· + 1) } := by
  unfold forceRefresh
  refine ⟨_, rfl, ?_⟩
  rw [trace_stack]
  split
  · rw [bump_stack, bump_stack]
    simp [setStackFlag]
  · rw [bump_stack]
    simp [setStackFlag]

/-- A PC that owes some refreshes one at once, ahead of every class. -/
theorem forceRefresh_stack {s : State} {t pc : Nat} (h : 1 ≤ tgetD (s.stack t).owed 0 pc) :
    let x := (forceRefresh s t pc).stack t
    tgetD x.owed 0 pc = tgetD (s.stack t).owed 0 pc - 1 ∧ x.refreshes = (s.stack t).refreshes + 1 ∧ x.forced = (s.stack t).forced + 1 ∧ x.flags.getLsbD 0 = true := by
  obtain ⟨v, heq, hv⟩ := forceRefresh_eq s t pc
  obtain ⟨howed, hrefreshes, hforced, -, hflags⟩ := refreshPc_stack v t pc 1
  dsimp only
  rw [heq, howed, hrefreshes, hforced, hflags, hv]
  exact ⟨rfl, by dsimp only; omega, rfl, by simp⟩

/-! ### Ticks -/

/-- The stack after the tick of a PC: it owes one refresh more (09 R210). -/
def Stack.ticked (x : Stack) (pc now : Nat) : Stack :=
  let y : Stack := { x with lastTick := tput x.lastTick pc now, owed := tupd x.owed 0 pc (· + 1)
                            tickHot := if x.hot then x.tickHot ||| BitVec.ofNat 64 (2 ^ pc) else x.tickHot &&& ~~~(BitVec.ofNat 64 (2 ^ pc)) }
  { y with owedMax := max y.owedMax (tgetD y.owed 0 pc) }

theorem refreshTick_due {t : Nat} {k : Fin 16} {c : Fin 64} {b : Bool} {s : State} (hr : refreshes (advance s t) k = true) (hc : c.val < (advance s t).pcs)
    (htick : 2 * tgetD ((advance s t).stack k).lastTick 0 c + tickHalfNs (advance s t) k c ≤ 2 * (advance s t).now) :
    ∃ v, exec (.refreshTick t k c b) s = .next (afterTick v k c b) ∧ v.stack k = ((advance s t).stack k).ticked c (advance s t).now ∧ v.scheds = (advance s t).scheds := by
  refine ⟨_, (timed_due (by simp [hr, hc, htick]) : execRefreshTick t k c b s = _), ?_, rfl⟩
  rw [State.updStack_stack, State.updStack_stack]
  rfl

theorem windowSched_congr {s v : State} (h : v.scheds = s.scheds) (type t : Nat) : windowSched v type t = windowSched s type t := by
  unfold windowSched
  rw [h]

/-! ### Temperatures -/

/-- Counting alerts changes their counts alone. -/
theorem countAlerts_frame (old s : State) : ∃ c, countAlerts old s = { s with dev := { s.dev with alertCnts := c } } := by
  unfold countAlerts
  exact foldl_frame (fun s c => { s with dev := { s.dev with alertCnts := c } }) (fun _ _ _ => rfl) (fun s => ⟨s.dev.alertCnts, rfl⟩) _ (fun s i => by
    split
    · exact ⟨_, rfl⟩
    · exact ⟨s.dev.alertCnts, rfl⟩) _ s

theorem tooCold_eq_false {l : List Int} (h : ∀ x ∈ l, 0 ≤ x) : tooCold l = false := List.any_eq_false.mpr fun x hx => by simpa using h x hx

theorem tooCold_eq_true {l : List Int} {x : Int} (hx : x ∈ l) (h : x < 0) : tooCold l = true := List.any_eq_true.mpr ⟨x, hx, by simpa using h⟩

theorem setCaseTemp_now (s : State) (t : Nat) (c : Int) : (setCaseTemp s t c).now = s.now := by
  unfold setCaseTemp
  dsimp only
  split_ifs <;> rfl

/-- Settles O24: what a PC owes goes up with a tick and down with its refreshes. -/
theorem refreshEventsComplete : Obligations.RefreshEventsComplete := by
  unfold Obligations.RefreshEventsComplete
  refine ⟨?tick, ?forced, ?idle, ?window, ?preT0, ?reserve, ?die, ?stack, ?cold⟩
  case tick =>
    rintro t k c b s u rfl hr hc htick howed hpre hsched rfl
    obtain ⟨v, hrow, hv, hscheds⟩ := refreshTick_due (b := true) hr hc htick
    refine completes_of_exec hrow ?_
    have howed' : tgetD (v.stack k).owed 0 c = tgetD ((advance s t).stack k).owed 0 c + 1 := by
      rw [hv]
      exact tgetD_tupd_same _ _ _ _
    have hidle : afterTick v k c true = v := by
      have hno : ¬ tgetD (v.stack k).owed 0 c ≥ 8 := by omega
      have hpre' : (v.stack k).preT0 = false := by rw [hv]; exact hpre
      simp only [afterTick, hno, if_false, hpre', windowSched_congr hscheds, hsched, Option.isSome_none, Bool.false_eq_true, if_true]
    rw [hidle]
    refine ⟨howed', ?_, ?_⟩
    · rw [hv]
      exact tgetD_tput_same _ _ _ _
    · rw [hv]
      rfl
  case forced =>
    rintro t k c b s u rfl hr hc htick howed
    obtain ⟨v, hrow, hv, -⟩ := refreshTick_due (b := b) hr hc htick
    have howed' : tgetD (v.stack k).owed 0 c = 8 := by
      rw [hv]
      exact (tgetD_tupd_same _ _ _ _).trans (by rw [howed])
    obtain ⟨hleft, hrefreshes, hforced, hflag⟩ := forceRefresh_stack (s := v) (t := k) (pc := c) (by omega)
    refine completes_of_exec hrow ?_
    have hafter : afterTick v k c b = forceRefresh v k c := by simp [afterTick, howed']
    rw [hafter]
    refine ⟨hforced.trans (by rw [hv]; rfl), hleft.trans (by rw [howed']), hrefreshes.trans (by rw [hv]; rfl), hflag⟩
  case idle =>
    rintro t k c s u rfl hr hc hsched hdemand howed
    refine completes_timed (o := execRefreshIdleIssue t k c s) rfl rfl (by simp [hr, hc, hsched, hdemand]) ?_
    obtain ⟨hleft, hrefreshes, -⟩ := refreshPc_stack (advance s t) k c 8
    exact ⟨hleft.trans (by omega), hrefreshes.trans (by rw [Nat.min_eq_right howed])⟩
  case window =>
    rintro t k c s u left rfl hr hc hleft
    refine completes_timed (o := execRefreshWindowOpen t k c s) rfl rfl (by simp [hr, hc]) ?_
    rw [hleft]
    obtain ⟨howed, -⟩ := refreshPc_stack ((advance s t).updStack k (closePc · c)) k c (refreshesFit (advance s t) k c left)
    refine howed.trans ?_
    obtain ⟨r, hclose⟩ := closePc_rows ((advance s t).stack k) c
    rw [State.updStack_stack, hclose]
  case preT0 =>
    rintro t k s u rfl hr hdue
    exact (timed_due (by simp [hr, hdue]) : execRefreshPreT0 t k s = _)
  case reserve =>
    rintro t k s u n t0 left b rfl hc hsched hleft
    refine completes_timed (o := execReserveIntervalStart t k s) rfl rfl hc ?_
    rw [hsched, hleft]
    exact State.updStack_stack _ _ _
  case die =>
    rintro t l s u rfl hc hdue hwarm
    refine completes_ticking (o := execDieTemperatureRead t l s) rfl (if_neg (by simp [tooCold_eq_false hwarm])) hc hdue ?_
    obtain ⟨n, hcount⟩ := countAlerts_frame (advance s t) ((advance s t).updDev (fun d =>
      { d with dieTemps := l.zipIdx.map (fun x => (x.2, x.1)), dieMax := l.foldl max 0, dieReadAt := some (advance s t).now }))
    rw [hcount]
    exact ⟨rfl, rfl⟩
  case stack =>
    rintro t l s u rfl hc hdue hwarm
    change execTemperatureRead t l s = _
    rw [execTemperatureRead, if_neg (by simp [tooCold_eq_false hwarm]), ticking_due hc hdue]
    have hnow : ((l.take 16).zipIdx.foldl (fun s x => setCaseTemp s x.2 x.1) (advance s t)).now = (advance s t).now :=
      foldl_keeps State.now (fun s (x : Int × Nat) => setCaseTemp_now s x.2 x.1) _ _
    dsimp only
    rw [hnow]
  case cold =>
    intro t l s x hx hneg
    have hcold := tooCold_eq_true hx hneg
    exact ⟨if_pos hcold, if_pos hcold⟩

/-! ### Stacks, patrol and rebuild -/

/-- Settles O25: every event is due, and its action is the one that the chapter names. -/
theorem stackEventsComplete : Obligations.StackEventsComplete := by
  unfold Obligations.StackEventsComplete
  refine ⟨?close, ?access, ?mode, ?rail, ?declare, ?patrol, ?repair, ?combine, ?slotStart, ?slotEnd⟩
  case close =>
    rintro t k b n s u r rfl hc hclock hrow hlast
    exact completes_ticking (o := execIdleCloseExpiry t n k b s) rfl rfl hc (by rw [hrow]; simp [hclock, hlast]) ⟨State.updStack_stack _ _ _, rfl, rfl⟩
  case access =>
    rintro t n l o s u rfl hc hline hend hruns
    exact (ticking_due hc (by simp [lineServed, hline, hend, hruns]) : execStackAccessComplete t n l o s = _)
  case mode =>
    rintro t n s u rfl hc hserv hclock
    exact (ticking_due hc (by simp [hserv, hclock]) : execModeRegisterReadTimeout t n s = _)
  case rail =>
    rintro t f s u rfl hc
    exact (timed_due hc : execStackRailOutOfTarget t f s = _)
  case declare =>
    rintro t n s u rfl hruns hnext
    exact (timed_due (by simp [hruns, hnext]) : execStackFailureDeclaration t n s = _)
  case patrol =>
    rintro t n o s u rfl hc hruns hdue
    exact (ticking_due hc (by simp [hruns, hdue]) : execPatrolScrubRead t n o s = _)
  case repair =>
    rintro t n l r s u rfl hc hruns hrep
    refine (ticking_due hc (by simp [hruns, hrep]) : execRepairWrite t n s = _).trans ?_
    rw [hrep]
  case combine =>
    rintro t n k s u c rfl hc hclock hhome hcomb hlast
    exact (timed_due (by simp [hc, hclock, hhome, hcomb, hlast]) : execCombineIdleExpiry t n k s = _)
  case slotStart =>
    rintro t f l s u rfl hc hclock hst hmode hslot hstripe hf hlast hdue
    refine (timed_due (by simp [hc, hclock, hst, hmode, hslot, hf, hstripe, hlast, hdue]) : execRebuildSlotStart t s = _).trans ?_
    rw [hf]
  case slotEnd =>
    rintro t f s u rfl hc hclock hst hslot hf hready
    refine (timed_due (by simp [hc, hclock, hst, hslot, hf, hready]) : execRebuildSlotComplete t s = _).trans ?_
    rw [hf]
    rfl

end Sys2Proof.Machine
end

