-- ==== Sys2Proof/Proofs/CounterCommands.lean ====
section
/-!
PROOF. The commands of counters and trace streams (18 R412 to R420).
-/

namespace Sys2Proof.Machine

open Sys2Proof

section
variable {q : Req} {w : State}

theorem cmdCounterEnable_body {g : Group} (h : RestZero q [(20, 6)]) (hg : counterGroup (q.arg 20 1) = some g) (hon : q.arg 21 1 ≤ 1) (hfirst : q.arg 22 2 < g.named)
    (hn1 : 1 ≤ q.arg 24 2) (hn2 : q.arg 24 2 ≤ 1024) (hlast : q.arg 22 2 + q.arg 24 2 ≤ g.named) :
    cmdCounterEnable.body q w = .pend (stage w (.counters (q.arg 20 1) (q.arg 22 2) (q.arg 24 2) (decide (q.arg 21 1 = 1))) (some q.owes)) [] := by
  simp only [cmdCounterEnable, hg]
  rw [firstBad_none h (by simp [hon, hfirst, hn1, hn2, hlast])]

theorem cmdCounterRead_body {g : Group} (h : RestZero q [(20, 1), (22, 2)]) (hg : counterGroup (q.arg 20 1) = some g) (hi : q.arg 22 2 < g.instances)
    (hroom : g.blockSize ≤ q.room) (hown : ∀ c, q.party = .tenant c → instanceCtx w g (q.arg 22 2) = some c) :
    cmdCounterRead.body q w = .done w [] (blockBytes w g (q.arg 22 2) g.blockSize) := by
  simp only [cmdCounterRead, hg]
  rw [firstBad_none h rfl]
  cases hp : q.party with
  | tenant c => simp [ownsInstance, hown c hp, Nat.not_le.mpr hi, Nat.not_lt.mpr hroom]
  | role r => simp [Nat.not_le.mpr hi, Nat.not_lt.mpr hroom]
  | nobody => simp [Nat.not_le.mpr hi, Nat.not_lt.mpr hroom]

theorem cmdTraceSet_body_off (h : RestZero q [(20, 10), (32, 16)]) (hn : q.arg 20 1 ≤ 15) (hoff : q.arg 21 1 = 0) :
    cmdTraceSet.body q w = .pend (stage w (.trace (q.arg 20 1) none) (some q.owes)) [] := by
  have hbit : bit 0 0 = false := by decide
  simp only [cmdTraceSet, hoff, hbit, Bool.false_and, Bool.false_eq_true, if_false]
  rw [firstBad_none h (by simp [hn])]

theorem cmdTraceSet_body_slice (h : RestZero q [(20, 10), (32, 16)]) (hn : q.arg 20 1 ≤ 15) (hon : q.arg 21 1 = 1) (hsource : q.arg 22 2 < 1024)
    (hmask : maskBad (BitVec.ofNat 32 (q.arg 24 4)) = false) (hoff : q.arg 32 8 % 65536 = 0) (hsize : q.arg 40 8 % 65536 = 0) (hmin : 65536 ≤ q.arg 40 8)
    (hend : q.arg 32 8 + q.arg 40 8 ≤ traceRegion) (hfree : sliceTaken w (q.arg 20 1) (q.arg 32 8) (q.arg 40 8) = false) :
    cmdTraceSet.body q w = .pend (stage w (.trace (q.arg 20 1) (some (traceSetting q))) (some q.owes)) [] := by
  have hbit0 : bit 1 0 = true := by decide
  have hbit1 : bit 1 1 = false := by decide
  have hmax : q.arg 40 8 ≤ traceRegion := (Nat.le_add_left _ _).trans hend
  simp only [cmdTraceSet, hon, hbit0, Bool.true_and, if_true]
  rw [firstBad_none h (by simp [traceSetting, hon, hbit1, hn, hsource, hmask, hoff, hsize, hmin, hend, hmax, hfree])]

theorem ownsStream_of_tenant {x : Stream} (h : ∀ c, q.party = .tenant c → x.source = c) : ownsStream q x = true := by
  unfold ownsStream
  cases hp : q.party with
  | tenant c => simpa using h c hp
  | role r => rfl
  | nobody => rfl

theorem cmdTraceRead_body (h : RestZero q [(20, 4)]) (hn : q.arg 20 1 ≤ 15) (hadv : q.arg 21 1 ≤ 1) (hk1 : 1 ≤ q.arg 22 2) (hk2 : q.arg 22 2 ≤ 640)
    (hown : ∀ c, q.party = .tenant c → (w.stream (q.arg 20 1)).source = c) (hslice : (w.stream (q.arg 20 1)).toSession = false) :
    let k := min (min (q.arg 22 2) (q.room / 32)) (w.stream (q.arg 20 1)).heldRecs
    let r := readSlots w (q.arg 20 1) k
    let t := if q.arg 21 1 = 1 then r.2.updStream (q.arg 20 1) (·.advance k) else r.2
    cmdTraceRead.body q w = .done t (natLe k 4 ++ natLe (t.stream (q.arg 20 1)).heldRecs 4) r.1 := by
  have hadvances : advances q = decide (q.arg 21 1 = 1) := rfl
  simp only [cmdTraceRead, hadvances]
  rw [firstBad_none h (by simp [hn, hadv, hk1, hk2])]
  simp only [ownsStream_of_tenant hown, hslice, Bool.not_true, Bool.false_eq_true, if_false, decide_eq_true_eq]

theorem cmdTraceStatus_body (h : RestZero q [(20, 1)]) (hn : q.arg 20 1 ≤ 15) (hown : ∀ c, q.party = .tenant c → (w.stream (q.arg 20 1)).source = c) :
    let x := w.stream (q.arg 20 1)
    cmdTraceStatus.body q w = .done w (natLe x.st.code 1 ++ natLe (b2n x.toSession 0) 1 ++ natLe x.source 2 ++ natLe x.written 4 ++ natLe x.dropsTotal 4
      ++ natLe x.losses 4 ++ natLe x.lastDrop 8) [] := by
  simp only [cmdTraceStatus]
  rw [firstBad_none h (by simp [hn])]
  simp only [ownsStream_of_tenant hown, Bool.not_true, Bool.false_eq_true, if_false]

end

theorem sliceTaken_congr {s t : State} (hstreams : t.streams = s.streams) (hstaged : t.staged = s.staged) (n off size : Nat) :
    sliceTaken t n off size = sliceTaken s n off size := by
  simp only [sliceTaken, hstreams, hstaged]

/-- What is known of a command that stages one change where its body also looks at the streams. -/
theorem traceSet_completes {m : Fin 1029} {s v : State} {q : Req} {g : Option Stream} (hready : Ready cmdTraceSet m s q v)
    (hbody : ∀ w : State, w.streams = v.streams → w.staged = v.staged → cmdTraceSet.body q w = .pend (stage w (.trace (q.arg 20 1) g) (some q.owes)) []) :
    Completes (.traceSet m) s (fun t => t.streams = v.streams ∧
      t.staged = v.staged ++ [{ at_ := joinBoundary v, owes := some q.owes, change := .trace (q.arg 20 1) g }]) :=
  completes_pend (eff := (stage · (.trace (q.arg 20 1) g) (some q.owes))) rfl (fun _ => rfl) hready (fun _ _ => hbody _ rfl rfl) fun _ _ _ _ => ⟨rfl, rfl⟩

/-- Settles O26: the setting commands stage their change, and the reading ones answer from the state. -/
theorem counterAndTraceCommandsComplete : Obligations.CounterAndTraceCommandsComplete := by
  unfold Obligations.CounterAndTraceCommandsComplete
  refine ⟨fun m s v q g hready h hg hon hfirst hn1 hn2 hlast => ?enable, fun m s v q g hready h hg hi hroom hown => ?read, fun m s v q hready h hn hoff => ?off,
    fun m s v q hready h hn hon hsource hmask hoff hsize hmin hend hfree => ?slice, fun m s v q hready h hn hadv hk1 hk2 hown hslice => ?traceRead,
    fun m s v q hready h hn hown => ?status⟩
  case enable =>
    exact completes_stage rfl (fun _ => rfl) hready (fun w _ _ => cmdCounterEnable_body h hg hon hfirst hn1 hn2 hlast) fun f k g n => ⟨rfl, rfl⟩
  case read => exact serve_query hready rfl (cmdCounterRead_body h hg hi hroom hown)
  case off => exact traceSet_completes hready fun w _ _ => cmdTraceSet_body_off h hn hoff
  case slice =>
    exact traceSet_completes hready fun w hstreams hstaged =>
      cmdTraceSet_body_slice h hn hon hsource hmask hoff hsize hmin hend ((sliceTaken_congr hstreams hstaged _ _ _).trans hfree)
  case traceRead =>
    obtain ⟨f, k, hrec⟩ := recorded_log cmdTraceRead q v
    have hstream : ((recorded cmdTraceRead q v).stream (q.arg 20 1)) = v.stream (q.arg 20 1) := by
      rw [hrec]
      rfl
    have hdone := serve_done hready (cmdTraceRead_body h hn hadv hk1 hk2 hown hslice)
      (cmdTraceRead_body (w := recorded cmdTraceRead q v) h hn hadv hk1 hk2 (by rwa [hstream]) (by rwa [hstream]))
    dsimp only at hdone ⊢
    rw [← hstream]
    exact hdone
  case status => exact serve_query hready rfl (cmdTraceStatus_body h hn hown)

end Sys2Proof.Machine
end

