-- ==== Sys2Proof/Proofs/StagingCommands.lean ====
section
/-!
PROOF. The commands of staging, records, the audit log, attestation and enrolment (16 R375 to R383).
-/

namespace Sys2Proof.Machine

open Sys2Proof

section
variable {q : Req} {w : State}

theorem notForRole_of_kindRole {kind : Nat} {p : Party} (h : kindRole kind p = true) : notForRole kind p = false := by simp [notForRole, h]

theorem cmdStageOpen_body (h : RestZero q [(20, 1), (24, 4)]) (hk1 : 1 ≤ q.arg 20 1) (hk2 : q.arg 20 1 ≤ 3) (hlen : stageLenOk w (q.arg 20 1) (q.arg 24 4) = true)
    (hrole : kindRole (q.arg 20 1) q.party = true) (hfree : w.staging = none) :
    cmdStageOpen.body q w = .done { w with staging := some { kind := q.arg 20 1, length := q.arg 24 4, opener := q.roleSession } } [] [] := by
  simp only [cmdStageOpen, notForRole_of_kindRole hrole, Bool.false_eq_true, if_false]
  rw [firstBad_none h (by simp [hk1, hk2, hlen])]
  simp only [hfree, Option.isSome_none, Bool.false_eq_true, if_false]

/-- A command of the transfer's opener on a transfer that does not commit. -/
theorem onStaging_eq {used : List (Nat × Nat)} {bad : Staging → Option Reply} {act : Staging → Reply} {g : Staging} (h : RestZero q used) (hg : w.staging = some g)
    (hopener : g.opener = q.roleSession) (hidle : g.committing = false) (hbad : bad g = none) : onStaging q w used bad act = act g := by
  simp only [onStaging, hg, hopener, h, hbad, hidle, Option.any_some, bne_self_eq_false, Option.getD_none, Bool.false_eq_true, if_false]

theorem cmdStageWrite_body {g : Staging} (h : RestZero q [(24, 4)]) (hg : w.staging = some g) (hopener : g.opener = q.roleSession) (hidle : g.committing = false)
    (hoff : q.arg 24 4 = g.held) (hend : g.held + q.xarg.length ≤ g.length) :
    cmdStageWrite.body q w = .done { w with staging := some { g with bytes := mwriteN g.bytes g.held q.xarg, held := g.held + q.xarg.length } }
      (natLe (g.held + q.xarg.length) 4) [] :=
  onStaging_eq h hg hopener hidle (by simp [hoff, Nat.not_lt.mpr hend])

/-- What STAGE_COMMIT answers for a verdict. -/
def commitReply (q : Req) (w : State) (g : Staging) : Verdict → Reply
  | .integrity => .fail stIntegrity 0
  | .bad => badX 0
  | .good => .pend { w with staging := some { g with committing := true, commitId := q.owes.id } } []

theorem cmdStageCommit_body {g : Staging} (h : RestZero q []) (hg : w.staging = some g) (hopener : g.opener = q.roleSession) (hidle : g.committing = false) :
    cmdStageCommit.body q w = commitReply q w g (stageVerdict w g) := by
  refine (onStaging_eq h hg hopener hidle rfl).trans ?_
  cases stageVerdict w g <;> rfl

theorem cmdStageAbort_body {g : Staging} (h : RestZero q []) (hg : w.staging = some g) (hopener : g.opener = q.roleSession) (hidle : g.committing = false) :
    cmdStageAbort.body q w = .done { w with staging := none } [] [] := onStaging_eq h hg hopener hidle rfl

theorem cmdRecordRead_body (h : RestZero q [(20, 1), (24, 4)]) (hk1 : 1 ≤ q.arg 20 1) (hk2 : q.arg 20 1 ≤ 3) (hoff : q.arg 24 4 ≤ (w.flash.area (q.arg 20 1)).len)
    (hrole : kindRole (q.arg 20 1) q.party = true) :
    let a := w.flash.area (q.arg 20 1)
    cmdRecordRead.body q w = .done w (natLe a.len 4) (a.at_ (q.arg 24 4) (min (min q.room xbufLen) (a.len - q.arg 24 4))) := by
  simp only [cmdRecordRead, notForRole_of_kindRole hrole, Bool.false_eq_true, if_false]
  rw [firstBad_none h (by simp [hk1, hk2, hoff])]

theorem cmdAuditRead_body (h : RestZero q [(20, 10)]) (hn1 : 1 ≤ q.arg 28 2) (hn2 : q.arg 28 2 ≤ 158) (hroom : 32 ≤ q.room) :
    let rs := ((w.flash.audit.filter (fun r => q.arg 20 8 ≤ r.seq)).take (q.arg 28 2)).take ((q.room - 32) / 128)
    cmdAuditRead.body q w = .done w (natLe rs.length 4) (natLe (chainBefore w.flash rs).toNat 32 ++ rs.flatMap (·.bytes)) := by
  simp only [cmdAuditRead]
  rw [firstBad_none h (by simp [hn1, hn2])]
  simp only [Nat.not_lt.mpr hroom, if_false]

theorem cmdAttest_body (h : RestZero q [(20, 1)]) (hc : q.arg 20 1 ≤ 1) (hlen : q.xargLen = 32)
    (hroom : (report w q.tenant q.xarg (decide (q.arg 20 1 = 1))).length ≤ q.room) :
    cmdAttest.body q w = .done w [] (report w q.tenant q.xarg (decide (q.arg 20 1 = 1))) := by
  simp only [cmdAttest]
  rw [firstBad_none h (by simp [hc])]
  simp only [hlen, bne_self_eq_false, Nat.not_lt.mpr hroom, Bool.false_eq_true, if_false]

theorem cmdIdentityEnrol_body (h : RestZero q []) (habsent : w.dev.package.present = false) (hroom : 6048 ≤ q.room) :
    let x := padTo (Config.pufHelper w.dev.puf) 4096
    cmdIdentityEnrol.body q w = .done w [] (padTo (Config.identityOf w.dev.puf x) 1952 ++ x) := by
  simp only [cmdIdentityEnrol]
  rw [firstBad_none h rfl]
  simp only [habsent, Nat.not_lt.mpr hroom, Bool.false_eq_true, if_false]

end

/-- The checks of a staged item read neither the audit log nor the counters. -/
theorem stageVerdict_recorded (s : State) (f : Flash) (k : Tab CounterBlk) (g : Staging) :
    stageVerdict { s with flash := f, counters := k } g = stageVerdict s g := rfl

/-- STAGE_COMMIT of a checked item stays pending while the flash is written; a refused one leaves the transfer open. -/
theorem stageCommit_completes {m : Fin 1029} {s v : State} {q : Req} {g : Staging} (hready : Ready cmdStageCommit m s q v) (h : RestZero q [])
    (hg : v.staging = some g) (hopener : g.opener = q.roleSession) (hidle : g.committing = false) :
    Completes (.stageCommit m) s (fun t => t.dev = v.dev ∧
      (stageVerdict v g = .good → t.staging = some { g with committing := true, commitId := q.owes.id } ∧ t.pendings = v.pendings ++ [q.owes]) ∧
      (stageVerdict v g ≠ .good → t.staging = some g)) := by
  have hbody (f : Flash) (k : Tab CounterBlk) : cmdStageCommit.body q { v with flash := f, counters := k }
      = commitReply q { v with flash := f, counters := k } g (stageVerdict v g) := by
    rw [cmdStageCommit_body h (by exact hg) hopener hidle, stageVerdict_recorded]
  cases hverdict : stageVerdict v g with
  | good =>
    rw [hverdict] at hbody
    exact completes_pend (eff := fun w => { w with staging := some { g with committing := true, commitId := q.owes.id } }) rfl (fun _ => rfl) hready
      (fun f k => hbody _ k) fun f k g n => ⟨rfl, fun _ => ⟨rfl, rfl⟩, fun hne => absurd rfl hne⟩
  | bad =>
    rw [hverdict] at hbody
    exact completes_refused rfl hready (hbody v.flash v.counters) (by decide) fun _ _ _ => ⟨rfl, fun hgood => (nomatch hgood), fun _ => hg⟩
  | integrity =>
    rw [hverdict] at hbody
    exact completes_refused rfl hready (hbody v.flash v.counters) (by decide) fun _ _ _ => ⟨rfl, fun hgood => (nomatch hgood), fun _ => hg⟩

/-- Settles O27: a transfer is opened, filled, committed or given up, and the readers answer from flash and identity. -/
theorem stagingCommandsComplete : Obligations.StagingCommandsComplete := by
  unfold Obligations.StagingCommandsComplete
  refine ⟨fun m s v q hready h hk1 hk2 hlen hrole hfree => ?opens, fun m s v q g hready h hg hopener hidle hoff hend => ?write,
    fun m s v q g hready h hg hopener hidle => stageCommit_completes hready h hg hopener hidle, fun m s v q g hready h hg hopener hidle => ?abort,
    fun m s v q hready h hk1 hk2 hoff hrole => serve_query hready rfl (cmdRecordRead_body h hk1 hk2 hoff hrole),
    fun m s v q hready h hn1 hn2 hroom => serve_query hready rfl (cmdAuditRead_body h hn1 hn2 hroom),
    fun m s v q hready h hc hlen hroom => serve_query hready rfl (cmdAttest_body h hc hlen hroom), fun m s v q hready h habsent hroom => ?enrol⟩
  case opens =>
    exact completes_done (eff := fun w => { w with staging := some { kind := q.arg 20 1, length := q.arg 24 4, opener := q.roleSession } }) rfl (fun _ => rfl) hready
      (fun f k => cmdStageOpen_body h hk1 hk2 hlen hrole hfree) fun f k g n e => rfl
  case write =>
    exact completes_done (eff := fun w => { w with staging := some { g with bytes := mwriteN g.bytes g.held q.xarg, held := g.held + q.xarg.length } }) rfl (fun _ => rfl)
      hready (fun f k => cmdStageWrite_body h hg hopener hidle hoff hend) fun f k g n e => rfl
  case abort =>
    exact completes_done (eff := fun w => { w with staging := none }) rfl (fun _ => rfl) hready (fun f k => cmdStageAbort_body h hg hopener hidle) fun f k g n e => rfl
  case enrol => exact serve_done_recorded (eff := id) hready fun f k => cmdIdentityEnrol_body h habsent hroom

end Sys2Proof.Machine
end

