-- ==== Sys2Proof/Proofs/FaultCommands.lean ====
section
/-!
PROOF. The commands of the fault chapter, and opcodes that no chapter defines (17 R387 to R405; 02 R47).
-/

namespace Sys2Proof.Machine

open Sys2Proof

section
variable {q : Req} {w : State}

theorem cmdErrorLogRead_body (h : RestZero q [(20, 1), (24, 6)]) (hs : q.arg 20 1 ≤ 1) (hn1 : 1 ≤ q.arg 28 2) (hn2 : q.arg 28 2 ≤ 160) :
    let log := if q.arg 20 1 = 0 then w.aon.errLog else w.flash.errCopy
    let rs := ((log.filter (fun r => q.arg 24 4 ≤ r.seq)).take (q.arg 28 2)).take (q.room / 128)
    cmdErrorLogRead.body q w = .done w (natLe rs.length 4 ++ natLe ((log.head?.map (·.seq)).getD 0) 4 ++ natLe ((log.getLast?.map (·.seq)).getD 0) 4) (rs.flatMap (·.bytes)) := by
  simp only [cmdErrorLogRead]
  rw [firstBad_none h (by simp [hs, hn1, hn2])]

theorem cmdDumpRead_body {d : Dump} (h : RestZero q [(20, 1), (24, 4)]) (hs : q.arg 20 1 ≤ 1) (hd : (if q.arg 20 1 = 0 then w.aon.dump else w.flash.dumpCopy) = some d)
    (hoff : q.arg 24 4 ≤ d.length) :
    cmdDumpRead.body q w = .done w (natLe d.length 4) (((d.all w.deviceId).drop (q.arg 24 4)).take (min q.room 20480)) := by
  simp only [cmdDumpRead]
  rw [firstBad_none h (by simp [hs]), hd]
  simp only [gt_iff_lt, Nat.not_lt.mpr hoff, if_false]

theorem cmdFaultStatus_body (h : RestZero q []) : cmdFaultStatus.body q w = .done w (natLe (lastErr w) 4 ++ natLe w.dev.suppressedTotal 4 ++ natLe w.aon.overwritten 4
    ++ natLe w.alertStatus 1 ++ natLe w.aon.dumpHeld.code 1 ++ natLe ((w.aon.dump.map (·.noAnswer)).getD 0) 1 ++ natLe 0 1
    ++ natLe ((w.aon.dump.map (·.bootEpoch.toNat)).getD 0) 4) [] := by
  simp only [cmdFaultStatus]
  rw [firstBad_none h rfl]

theorem cmdEngineReset_body (h : RestZero q [(20, 1)]) (hp : q.arg 20 1 ≤ 15) : cmdEngineReset.body q w = .pend (beginEngineReset w (q.arg 20 1) 3 0xFFFF 0xFF) [] := by
  simp only [cmdEngineReset]
  rw [firstBad_none h (by simp [hp])]

theorem cmdWatchdogSet_body (h : RestZero q [(20, 4)]) (h1 : 100 ≤ q.arg 20 4) (h2 : q.arg 20 4 ≤ 100000) :
    cmdWatchdogSet.body q w = .pend (stage w (.watchdog (q.arg 20 4)) (some q.owes)) [] := by
  simp only [cmdWatchdogSet]
  rw [firstBad_none h (by simp [h1, h2])]

/-- The state in which DEVICE_RESET has logged its record. -/
def deviceResetLogged (q : Req) (s : State) : State := logError s 0x45 4 0xFF (natLe 1 1 ++ natLe (q.arg 20 1) 1)

/-- The reset that DEVICE_RESET orders. -/
def resetOrderOf (q : Req) (s : State) : ResetOrder := { reason := 4, dump := decide (q.arg 20 1 = 1), at_ := s.now, errorSeq := lastErr s, command := true }

theorem cmdDeviceReset_body (h : RestZero q [(20, 1)]) (hd : q.arg 20 1 ≤ 1) :
    cmdDeviceReset.body q w = .done (orderReset (deviceResetLogged q w) (resetOrderOf q (deviceResetLogged q w))) [] [] := by
  simp only [cmdDeviceReset]
  rw [firstBad_none h (by simp [hd])]
  rfl

end

/-! ### What an error record leaves of an ordered reset -/

/-- An error record changes neither an ordered reset nor a dump that is taken. -/
theorem logError_order (s : State) (code cls unit : Nat) (d : Bytes) (st : Nat) :
    (logError s code cls unit d st).aon.ordered = s.aon.ordered ∧ (logError s code cls unit d st).aon.dumping = s.aon.dumping := by
  have hpush (a : Aon) (r : ErrRec) : (pushErr a r).ordered = a.ordered ∧ (pushErr a r).dumping = a.dumping := ⟨rfl, rfl⟩
  unfold logError
  dsimp only
  split_ifs
  · exact ⟨rfl, rfl⟩
  · exact hpush s.aon _
  · exact hpush s.aon _

theorem orderReset_ordered {s : State} (o : ResetOrder) (hfree : s.aon.ordered = none) (hdump : s.aon.dumping = none) : (orderReset s o).aon.ordered = some o := by
  simp [orderReset, hfree, hdump, State.updAon]

/-! ### The obligation -/

theorem undefinedMailboxOpcode_completes {m : Fin 1029} {s : State} {q : Req} (hq : headOf s m = some q) (hop : mailOpcode q.opcode = false) :
    Completes (.undefinedMailboxOpcode m) s (fun t => t = answerUndefined s q ∧ t.dev = s.dev ∧ (t.page m).rspPi = q.index + 1 ∧ (t.page m).reqCi = q.index + 1 ∧
      mreadN (t.page m).mem (0x5000 + 64 * (q.index.toNat % 256)) 4 = natLe 0x0101 2 ++ natLe q.tag.toNat 2 ∧ (∀ k, k ≠ m.val → t.page k = s.page k)) := by
  obtain ⟨hm, hindex⟩ := headOf_m hq
  refine completes_of_exec (t := answerUndefined s q) ?_ ?_
  · change execUndefinedMailboxOpcode m s = _
    rw [execUndefinedMailboxOpcode, hq]
    simp only [hop, Bool.false_eq_true, if_false]
  · obtain ⟨hrsp, hci, hslot, hother, p, n, e, k, hframe⟩ :=
      takeUp_answered (w := s) (q := { q with owes := { objType := 0x0A, objId := 0, mailbox := q.m, tag := q.tag, opcode := BitVec.ofNat 16 q.opcode, id := q.serial } })
        rfl (by rw [hm]; exact hindex.symm) stBadOpcode
    rw [← hm]
    exact ⟨rfl, (congrArg State.dev hframe).trans rfl, hrsp, hci, hslot, hother⟩

/-- Settles O28: what the fault chapter's commands read, order and stage, and how an undefined opcode is answered. -/
theorem faultCommandsComplete : Obligations.FaultCommandsComplete := by
  unfold Obligations.FaultCommandsComplete
  refine ⟨fun m s v q hready h hs hn1 hn2 => serve_query hready rfl (cmdErrorLogRead_body h hs hn1 hn2),
    fun m s v q d hready h hs hd hoff => serve_query hready rfl (cmdDumpRead_body h hs hd hoff), fun m s v q hready h => serve_query hready rfl (cmdFaultStatus_body h),
    fun m s v q hready h => ?alert, fun m s v q hready h hp => ?engine, fun m s v q hready h h1 h2 => ?watchdog, fun m s v q hready h hd => ?device,
    fun m s q hq hop _ => undefinedMailboxOpcode_completes hq hop⟩
  case alert =>
    obtain ⟨t, ht, hdev, -, -⟩ := alertClear_completes hready h
    exact ⟨t, ht, hdev⟩
  case engine =>
    exact serve_pend_recorded (eff := fun w => beginEngineReset w (q.arg 20 1) 3 0xFFFF 0xFF) hready fun f k => cmdEngineReset_body h hp
  case watchdog => exact completes_stage rfl (fun _ => rfl) hready (fun w _ _ => cmdWatchdogSet_body h h1 h2) fun f k g n => ⟨rfl, rfl⟩
  case device =>
    refine ⟨serve_done_recorded (eff := fun w => orderReset (deviceResetLogged q w) (resetOrderOf q (deviceResetLogged q w))) hready fun f k => cmdDeviceReset_body h hd,
      fun hfree hdump => ⟨_, orderReset_ordered _ ?_ ?_, rfl⟩⟩
    all_goals
      obtain ⟨f, k, hrec⟩ := recorded_log cmdDeviceReset q v
      rw [hrec]
    · exact (logError_order ..).1.trans hfree
    · exact (logError_order ..).2.trans hdump

end Sys2Proof.Machine
end

