-- ==== Sys2Proof/Proofs/ScheduleEvents.lean ====
section
/-!
PROOF. The events of schedules: loading, arming, the start, deadlines, the end, the waits and the start records (07 R175 to R193).
-/

namespace Sys2Proof.Machine

open Sys2Proof

/-! ### Folds over engines and ports -/

/-- A change of each engine of a list, which takes nothing of the state but its time. -/
theorem foldKeys_updEngine (f : Nat → Engine → Engine) (es : List Nat) (s : State) :
    foldKeys es s (fun s p => s.updEngine p (f s.now)) = { s with engines := es.foldl (fun t p => tupd t {} p (f s.now)) s.engines } := by
  induction es generalizing s with
  | nil => rfl
  | cons a r ih => exact ih (s.updEngine a (f s.now))

theorem openGates_frame (s : State) (n t0 : Nat) (b : Bytes) : ∃ p, openGates s n t0 b = { s with ports := p } := by
  unfold openGates
  generalize gateSects b = gs
  induction gs generalizing s with
  | nil => exact ⟨s.ports, rfl⟩
  | cons g r ih => exact ih _

theorem foldKeys_updStack (f : Stack → Stack) (es : List Nat) (s : State) :
    foldKeys es s (fun s k => s.updStack k f) = { s with stks := es.foldl (fun t k => tupd t {} k f) s.stks } := by
  induction es generalizing s with
  | nil => rfl
  | cons a r ih => exact ih (s.updStack a f)

theorem State.updSched_frame (s : State) (n : Nat) (f : Sched → Sched) : ∃ x, s.updSched n f = { s with scheds := x } := by
  unfold State.updSched
  split
  · exact ⟨_, rfl⟩
  · exact ⟨s.scheds, rfl⟩

/-! ### The start -/

/-- What T0 makes of an engine: it issues from bundle 0, but for a fault that an earlier run has left. -/
def Engine.started (now : Nat) (e : Engine) : Engine := { e with issuing := e.fault.isNone, pc := 0, lastIssue := now }

/-- At T0 a schedule runs, and each of its engines is started. -/
theorem startSched_effect {s : State} {n : Nat} {x : Sched} (hx : s.sched? n = some x) (t0 : Nat) (b : Bytes) :
    (startSched s n t0 b).sched? n = some { x with st := .running, latched := true, startedAt := t0 } ∧
      ∀ p ∈ imagePaddocks b, (startSched s n t0 b).engine p = (s.engine p).started s.now := by
  obtain ⟨y, hy⟩ := State.updSched_frame s n (fun x => { x with st := .running, latched := true, startedAt := t0 })
  have hsched := State.updSched_sched? hx (fun x => { x with st := .running, latched := true, startedAt := t0 })
  have hstart (u : State) : foldKeys (imagePaddocks b) u (fun s p => s.updEngine p (fun e => { e with issuing := e.fault.isNone, pc := 0, lastIssue := s.now }))
      = { u with engines := (imagePaddocks b).foldl (fun t p => tupd t {} p (Engine.started u.now)) u.engines } := foldKeys_updEngine Engine.started (imagePaddocks b) u
  unfold startSched
  dsimp only
  rw [hy] at hsched ⊢
  rw [foldKeys_updStack]
  obtain ⟨g, hg⟩ := openGates_frame { s with scheds := y, stks := (imageStacks b).dedup.foldl (fun t k => tupd t {} k (fun x => { x with preT0 := false })) s.stks } n t0 b
  rw [hg, hstart]
  refine ⟨hsched, fun p hp => ?_⟩
  exact (tgetD_foldl_tupd {} (f := fun _ => Engine.started s.now) (fun _ _ => rfl) (imagePaddocks b) s.engines p).trans (if_pos hp)

/-! ### Start records -/

theorem dropRecord_readyHeld (s : State) : (dropRecord s).readyHeld = s.readyHeld := by
  obtain ⟨c, hc⟩ := bump_frame (tally s .startDiscard) .device 0 12 1
  rw [dropRecord, hc]
  rfl

/-- A READY record of a tag has been held for its RELEASE_WAIT. -/
def readyExpired (g : BitVec 64) (s : State) (r : ReadyRec) : Bool := r.tag == g && decide (r.since + tagWait s g ≤ s.now)

/-- READY records that have been held for their time are dropped. -/
theorem execReadyRecordExpiry_due {t : Nat} {g : BitVec 64} {s : State} (hc : (advance s t).clocked = true) (h : (advance s t).readyHeld.any (readyExpired g (advance s t)) = true) :
    execReadyRecordExpiry t g s = .next (((advance s t).readyHeld.filter (readyExpired g (advance s t))).foldl (fun s _ => dropRecord s)
      { advance s t with readyHeld := (advance s t).readyHeld.filter (fun r => !readyExpired g (advance s t) r) }) := by
  unfold execReadyRecordExpiry
  exact timed_due (due := fun s => s.clocked && s.readyHeld.any (readyExpired g s)) (by simp only [hc, h, Bool.and_self])

/-- A start record that a request carries is refused where its frame is wrong, and otherwise taken. -/
theorem onRecord_requested {s u : State} {q : Nat} {want : Bytes → Bool} {act : State → Bytes → BitVec 32 → State} {r : InReq}
    (h : requested s q (fun e => e.op == 0x31 && e.flag 9 && want e.payload) = some (r, u)) :
    onRecord s q want act = .next (if schedFrameBad r.e then refuseEruno u r stBadArg else act u r.e.payload r.e.session) := onRequest_requested h

/-! ### The obligation -/

/-- Settles O31: each event of a schedule does, where it is due, what its transition is. -/
theorem scheduleEventsComplete : Obligations.ScheduleEventsComplete := by
  unfold Obligations.ScheduleEventsComplete
  refine ⟨?load, ?arming, ?latch, ?late, ?t0, ?deadline, ?ends, ?release, ?expiry, ?copies, ?ready, ?released, ?aborted⟩
  case load =>
    rintro t c s u x rfl hc hx
    have hmem : (advance s t).loads.any (fun y => y.ctx == c.val) = true := List.any_eq_true.mpr ⟨x, List.mem_of_find?_eq_some hx, by simpa using List.find?_some hx⟩
    refine (timed_due (by simp [hc, hmem]) : execSchedLoadDone t c s = _).trans ?_
    rw [hx]
  case arming =>
    rintro t n s u x rfl hc hx harm hready
    have hidle : (imagePaddocks x.image).all (fun p => ((advance s t).engine p).reset.isNone && !((advance s t).agent? (64 + p)).any (fun g => g.dead.isSome)) = true := by
      refine List.all_eq_true.mpr fun p hp => ?_
      obtain ⟨hreset, halive⟩ := hready p hp
      cases hg : (advance s t).agent? (64 + p) with
      | none => simp [hreset]
      | some g => simp [hreset, halive g hg]
    refine (timed_due (by simp only [hc, hx, Option.any_some, harm, hidle, Bool.and_self]) : execArmingComplete t n s = _).trans ?_
    rw [hx]
  case latch =>
    rintro t t0 n s u x rfl hc hx harm hst hlatched ht0 hdue
    have hlatch : latchDue (advance s t) x = true := by simp [latchDue, ht0, usNs, hdue]
    refine completes_of_exec (t := (advance s t).updSched n (fun x => { x with latched := true }))
      ((timed_due (by simp [hc, hx, hlatch, hst, hlatched]) : execStartLatch t n s = _).trans ?_) ⟨State.updSched_sched? hx _, ?_⟩
    · rw [hx]
      simp only [harm, Bool.false_eq_true, if_false]
    · obtain ⟨y, hy⟩ := State.updSched_frame (advance s t) n (fun x => { x with latched := true })
      rw [hy]
  case late =>
    rintro t t0 n s u x rfl hc hx harm ht0 hdue
    have hlatch : latchDue (advance s t) x = true := by simp [latchDue, ht0, usNs, hdue]
    refine (timed_due (by simp [hc, hx, hlatch, harm]) : execStartLatch t n s = _).trans ?_
    rw [hx]
    simp only [harm, if_true]
  case t0 =>
    rintro t t0 n s u x rfl hc hx hst ht0 hdue
    refine completes_of_exec (t := startSched (advance s t) n t0 x.image)
      ((timed_due (by simp [hc, hx, hst, ht0, hdue]) : execT0Reached t n s = _).trans ?_) (startSched_effect hx t0 x.image)
    rw [hx]
    simp only [ht0, Option.getD_some]
  case deadline =>
    rintro t n k p i s u x rfl hc hx hk
    refine (timed_due (by simp [hc, hx, hk]) : execDeadlineExpiry t p i s = _).trans ?_
    rw [hx]
    simp only [hk]
  case ends =>
    rintro t n s u x rfl hc hx hst hhalted
    refine (timed_due (by simp [hc, hx, hst, hhalted]) : execProgramEnd t n s = _).trans ?_
    rw [hx]
  case release =>
    rintro t n s u x rfl hc hx hst ht0 hdue
    exact (timed_due (by simp [hc, hx, hst, ht0, hdue]) : execReleaseWaitExpiry t n s = _)
  case expiry =>
    rintro t g s u r rfl hc hr htag hdue
    refine completes_of_exec (execReadyRecordExpiry_due hc (List.any_eq_true.mpr ⟨r, hr, by simp [readyExpired, htag, hdue]⟩)) fun x => ?_
    rw [foldl_keeps State.readyHeld (fun s _ => dropRecord_readyHeld s)]
    simp [readyExpired, imp_iff_not_or]
  case copies =>
    rintro t s u x rfl hc hx hdue
    have hany : (advance s t).startCopies.any (fun y => decide (y.last + usNs 1 ≤ (advance s t).now)) = true := List.any_eq_true.mpr ⟨x, hx, by simpa [usNs] using hdue⟩
    refine (timed_due (by simp only [hc, hany, Bool.and_self]) : execStartRecordCopyTimer t s = _).trans ?_
    simp only [usNs, Nat.one_mul, decide_eq_true_eq]
  case ready =>
    intro q s u r hreq
    exact (onRecord_requested hreq : execStartRecordReady q s = _)
  case released =>
    intro q s u r hreq
    exact (onRecord_requested hreq : execStartRecordRelease q s = _)
  case aborted =>
    intro q s u r hreq
    exact (onRecord_requested hreq : execStartRecordAbort q s = _)

end Sys2Proof.Machine
end

