-- ==== Sys2Proof/Proofs/PoolAccess.lean ====
section
/-!
PROOF. What the accesses to pool lines leave unchanged (09 R215 to R227; 10 R232 to R239). Every read and write of data space changes the
pool, its lines and stacks, the layout and the rebuild, and what notices and counts change, and nothing else.
-/

namespace Sys2Proof.Machine

open Sys2Proof

/-- A part of the state that no access to the pool touches. -/
def PoolBlind {β : Type} (g : State → β) : Prop :=
  ∀ (s : State) (pool : Memory) (lines : Tab LineErr) (stks : Tab Stack) (layout : Layout) (rebuild : Rebuild) (pages : Tab Page) (qps : Tab Qp) (counters : Tab CounterBlk)
    (streams : Tab Stream) (aon : Aon) (dev : Dev),
    g { s with pool := pool, lines := lines, stks := stks, layout := layout, rebuild := rebuild, pages := pages, qps := qps, counters := counters, streams := streams, aon := aon,
               dev := dev } = g s

section
variable {β : Type} {g : State → β} (hg : PoolBlind g)
include hg

/-! ### Stacks, notices and counts -/

theorem poolBlind_updStack (s : State) (t : Nat) (f : Stack → Stack) : g (s.updStack t f) = g s := hg s ..

theorem poolBlind_bump (s : State) (c : Group) (i k n : Nat) : g (bump s c i k n) = g s := by
  obtain ⟨x, h⟩ := bump_frame s c i k n
  rw [h]
  exact hg s ..

theorem poolBlind_postEvent (s : State) (m code ty id : Nat) (d : Bytes) (st : Nat) : g (postEvent s m code ty id d st) = g s := by
  obtain ⟨p, x, h⟩ := postEvent_frame s m code ty id d st
  rw [h]
  exact hg s ..

theorem poolBlind_postCtx (s : State) (c code ty id : Nat) (d : Bytes) (st : Nat) : g (postCtx s c code ty id d st) = g s := poolBlind_postEvent hg ..

theorem poolBlind_logError (s : State) (code cls unit : Nat) (d : Bytes) (st : Nat) : g (logError s code cls unit d st) = g s := by
  obtain ⟨a, v, h⟩ := logError_devFrame s code cls unit d st
  rw [h]
  exact hg s ..

theorem poolBlind_trace (s : State) (type unit : Nat) (ctx : Option Nat) (time : Nat) (d : Bytes) : g (trace s type unit ctx time d) = g s := by
  obtain ⟨p, x, m, h⟩ := trace_frame s type unit ctx time d
  rw [h]
  exact hg s ..

theorem poolBlind_countAlerts (old s : State) : g (countAlerts old s) = g s := by
  obtain ⟨c, h⟩ := countAlerts_frame old s
  rw [h]
  exact hg s ..

theorem poolBlind_setStackFlag (s : State) (t i : Nat) : g (setStackFlag s t i) = g s := poolBlind_updStack hg ..

theorem poolBlind_discardCombining (s : State) (t : Nat) : g (discardCombining s t) = g s := by
  unfold discardCombining foldKeys
  refine foldl_keeps g (fun s k => ?_) _ s
  rw [apply_ite g, poolBlind_updStack hg, ite_self]

theorem poolBlind_fenceStack (s : State) (t cause : Nat) : g (fenceStack s t cause) = g s := by
  simp only [fenceStack, apply_ite g, poolBlind_countAlerts hg, poolBlind_discardCombining hg, poolBlind_updStack hg, ite_self]

theorem poolBlind_stackCondition (s : State) (t cause : Nat) : g (stackCondition s t cause) = g s := by
  rw [stackCondition, poolBlind_fenceStack hg, poolBlind_setStackFlag hg]

theorem poolBlind_markDies (s : State) (t : Nat) (mask : BitVec 16) : g (markDies s t mask) = g s := by
  simp only [markDies, apply_ite g, poolBlind_stackCondition hg, poolBlind_updStack hg, ite_self]

theorem poolBlind_countDies (s : State) (t l : Nat) (e : LineErr) : g (countDies s t l e) = g s := by
  simp only [countDies, poolBlind_markDies hg, poolBlind_updStack hg]

theorem poolBlind_countUe (s : State) (t : Nat) : g (countUe s t) = g s := by
  simp only [countUe, apply_ite g, poolBlind_stackCondition hg, poolBlind_updStack hg, ite_self]

theorem poolBlind_queueRepair (s : State) (t l : Nat) : g (queueRepair s t l) = g s := by
  simp only [queueRepair, apply_ite g, poolBlind_bump hg, poolBlind_setStackFlag hg, poolBlind_updStack hg, ite_self]

theorem poolBlind_mediaFailed (s : State) (t l : Nat) : g (mediaFailed s t l) = g s := by
  unfold mediaFailed
  dsimp only
  rw [poolBlind_trace hg, poolBlind_logError hg]
  split
  · split
    · rw [poolBlind_postCtx hg, poolBlind_postEvent hg, poolBlind_updStack hg, poolBlind_bump hg, poolBlind_updStack hg]
    · rw [poolBlind_postEvent hg, poolBlind_updStack hg, poolBlind_bump hg, poolBlind_updStack hg]
  · rw [poolBlind_bump hg, poolBlind_updStack hg]

theorem poolBlind_lineReconstructed (s : State) (t l : Nat) : g (lineReconstructed s t l) = g s := by
  simp only [lineReconstructed, poolBlind_logError hg, poolBlind_bump hg, poolBlind_updStack hg]

theorem poolBlind_lineCorrected (s : State) (t l : Nat) : g (lineCorrected s t l) = g s := by
  simp only [lineCorrected, poolBlind_countDies hg, poolBlind_queueRepair hg, poolBlind_bump hg, poolBlind_updStack hg]

/-! ### Lines -/

theorem poolBlind_touchClass (s : State) (t l cls : Nat) : g (touchClass s t l cls) = g s := by
  simp only [touchClass, poolBlind_bump hg, poolBlind_updStack hg]

theorem poolBlind_touchRow (s : State) (t l : Nat) (a : Access) : g (touchRow s t l a) = g s := poolBlind_touchClass hg ..

theorem poolBlind_reportSlices (s : State) (t l : Nat) (mask : BitVec 16) : g (reportSlices s t l mask) = g s := poolBlind_updStack hg ..

theorem poolBlind_storeLine (s : State) (t l : Nat) (b : Bytes) : g (storeLine s t l b) = g s := by
  simp only [storeLine, apply_ite g, poolBlind_updStack hg, poolBlind_reportSlices hg, ite_self]
  exact hg s ..

theorem poolBlind_rewriteLine (s : State) (a : Access) (t l : Nat) : g (rewriteLine s a t l) = g s := by
  rw [rewriteLine, poolBlind_storeLine hg, poolBlind_bump hg, poolBlind_touchRow hg]

theorem poolBlind_settleRepair (s : State) (a : Access) (t l : Nat) : g (settleRepair s a t l) = g s := by
  simp only [settleRepair, apply_ite g, poolBlind_rewriteLine hg, ite_self]

theorem poolBlind_sourceRead (a : Access) (st j : Nat) (s : State) (home : Nat) : g (sourceRead a st j s home) = g s := by
  unfold sourceRead
  dsimp only
  split
  · rw [poolBlind_touchRow hg, poolBlind_settleRepair hg]
  · rw [poolBlind_lineCorrected hg, poolBlind_touchRow hg, poolBlind_settleRepair hg]
  · rw [poolBlind_countUe hg, poolBlind_touchRow hg, poolBlind_settleRepair hg]

theorem poolBlind_readSources (s : State) (a : Access) (st home j : Nat) : g (readSources s a st home j) = g s := by
  rw [readSources, apply_ite g, foldl_keeps g (poolBlind_sourceRead hg a st j), ite_self]

theorem poolBlind_lineSources (s : State) (a : Access) (t l : Nat) : g (lineSources s a t l) = g s := by
  unfold lineSources
  split
  · exact poolBlind_readSources hg ..
  · exact poolBlind_readSources hg ..
  · split
    · rw [apply_ite g, poolBlind_readSources hg, ite_self]
    · rfl

theorem poolBlind_repairLine (s : State) (a : Access) (t l : Nat) : g (repairLine s a t l) = g s := by
  unfold repairLine
  dsimp only
  split_ifs
  · exact poolBlind_rewriteLine hg ..
  · rw [poolBlind_bump hg, poolBlind_touchRow hg]
  · split
    · rw [poolBlind_storeLine hg, poolBlind_lineSources hg, poolBlind_bump hg, poolBlind_touchRow hg]
    · rw [poolBlind_lineSources hg, poolBlind_bump hg, poolBlind_touchRow hg]

theorem poolBlind_repairFirst (s : State) (a : Access) (t l : Nat) : g (repairFirst s a t l) = g s := by
  rw [repairFirst, apply_ite g, poolBlind_repairLine hg, poolBlind_updStack hg, ite_self]

/-! ### Reading -/

theorem poolBlind_readLine (s : State) (a : Access) (addr : Nat) : g (readLine s a addr).2 = g s := by
  unfold readLine
  dsimp only
  split
  · split
    · simp only [poolBlind_touchRow hg, poolBlind_repairFirst hg]
    · simp only [poolBlind_lineCorrected hg, poolBlind_touchRow hg, poolBlind_repairFirst hg]
    · split
      · simp only [poolBlind_mediaFailed hg, poolBlind_countUe hg, poolBlind_touchRow hg, poolBlind_repairFirst hg]
      · split
        · simp only [poolBlind_queueRepair hg, poolBlind_lineReconstructed hg, poolBlind_readSources hg, poolBlind_countUe hg, poolBlind_touchRow hg, poolBlind_repairFirst hg]
        · simp only [poolBlind_mediaFailed hg, poolBlind_readSources hg, poolBlind_countUe hg, poolBlind_touchRow hg, poolBlind_repairFirst hg]
  · split
    · simp only [poolBlind_lineReconstructed hg, poolBlind_readSources hg]
    · simp only [poolBlind_mediaFailed hg, poolBlind_readSources hg]

/-! ### Parity and the rebuild slot -/

theorem poolBlind_writeMark (s : State) (t l : Nat) : g (writeMark s t l) = g s := hg s ..

theorem poolBlind_rebuild (s : State) (r : Rebuild) : g { s with rebuild := r } = g s := hg s ..

theorem poolBlind_layout (s : State) (k : Layout) (r : Rebuild) : g { s with layout := k, rebuild := r } = g s := hg s ..

theorem poolBlind_closeRow (s : State) (c : Combine) (j : Nat) : g (closeRow s c j) = g s := by
  unfold closeRow
  dsimp only
  split
  · rfl
  · generalize hu : touchClass _ _ _ _ = u
    have hread : g u = g s := by rw [← hu, poolBlind_touchClass hg, poolBlind_settleRepair hg]
    rw [← hread]
    split
    · exact poolBlind_storeLine hg ..
    · exact (poolBlind_storeLine hg ..).trans (poolBlind_lineCorrected hg ..)
    · split
      · exact (poolBlind_mediaFailed hg ..).trans (poolBlind_countUe hg ..)
      · split
        · exact ((poolBlind_storeLine hg ..).trans (poolBlind_lineReconstructed hg ..)).trans ((poolBlind_readSources hg ..).trans (poolBlind_countUe hg ..))
        · exact (poolBlind_mediaFailed hg ..).trans ((poolBlind_readSources hg ..).trans (poolBlind_countUe hg ..))

theorem poolBlind_closeCombine (s : State) (st : Nat) : g (closeCombine s st) = g s := by
  unfold closeCombine
  split
  · rfl
  · next c _ =>
    simp only [poolBlind_updStack hg, poolBlind_bump hg, apply_ite g, foldKeys, foldl_keeps g (fun s j => poolBlind_closeRow hg s c j), ite_self]

theorem poolBlind_rebuildLine (s : State) (f st j : Nat) : g (rebuildLine s f st j) = g s := by
  unfold rebuildLine
  dsimp only
  have hread : g (touchRow (readSources s background st f j) (spareStack st) (st * 4096 + 128 * j) background) = g s := by
    rw [poolBlind_touchRow hg, poolBlind_readSources hg]
  split
  · rw [poolBlind_storeLine hg, hread]
  · rw [poolBlind_rebuild hg, poolBlind_writeMark hg, hread]

theorem poolBlind_rebuildStripe (s : State) (f st : Nat) : g (rebuildStripe s f st) = g s := by
  unfold rebuildStripe foldRange
  dsimp only
  rw [poolBlind_layout hg, foldl_keeps g (fun s j => poolBlind_rebuildLine hg s f st j), poolBlind_closeCombine hg]

theorem poolBlind_settleSlot (s : State) (st : Nat) : g (settleSlot s st) = g s := by
  unfold settleSlot
  split
  · rw [poolBlind_rebuild hg, poolBlind_rebuildStripe hg]
  · rfl

/-! ### Writing -/

theorem poolBlind_addDelta (s : State) (st j cls : Nat) (d : Bytes) : g (addDelta s st j cls d) = g s := by
  unfold addDelta
  dsimp only
  rw [poolBlind_updStack hg]
  split
  · split
    · exact poolBlind_closeCombine hg ..
    · rfl
  · rfl

theorem poolBlind_clearDelta (s : State) (st j : Nat) : g (clearDelta s st j) = g s := by
  unfold clearDelta
  split
  · rfl
  · exact poolBlind_updStack hg ..

theorem poolBlind_storeParity (s : State) (a : Access) (st j : Nat) (b : Bytes) : g (storeParity s a st j b) = g s := by
  simp only [storeParity, poolBlind_clearDelta hg, poolBlind_storeLine hg, poolBlind_touchRow hg]

theorem poolBlind_writeThrough (s : State) (a : Access) (st k j : Nat) (b : Bytes) : g (writeThrough s a st k j b) = g s := by
  simp only [writeThrough, apply_ite g, poolBlind_storeParity hg, foldl_keeps g (fun r i => poolBlind_sourceRead hg a st j r (dataHome st i)), ite_self]

theorem poolBlind_writeLine (s : State) (a : Access) (addr : Nat) (b : Bytes) : g (writeLine s a addr b) = g s := by
  unfold writeLine
  dsimp only
  split
  · split
    · simp only [poolBlind_storeLine hg, apply_ite g, poolBlind_addDelta hg, poolBlind_touchRow hg, poolBlind_settleSlot hg, ite_self]
    · simp only [poolBlind_storeLine hg, poolBlind_writeThrough hg, poolBlind_touchRow hg, poolBlind_settleSlot hg]
  · simp only [poolBlind_writeThrough hg, poolBlind_settleSlot hg]

theorem poolBlind_dropRepair (s : State) (t l : Nat) : g (dropRepair s t l) = g s := by
  rw [dropRepair, apply_ite g, poolBlind_updStack hg, ite_self]

theorem poolBlind_writePart (s : State) (a : Access) (addr off : Nat) (b : Bytes) : g (writePart s a addr off b).2 = g s := by
  unfold writePart
  dsimp only
  split
  · exact (poolBlind_mediaFailed hg ..).trans (poolBlind_settleSlot hg ..)
  · have hread (t l : Nat) : g (readLine (dropRepair (settleSlot s (stripeOf addr)) t l) a addr).2 = g s := by
      rw [poolBlind_readLine hg, poolBlind_dropRepair hg, poolBlind_settleSlot hg]
    split
    · next o u h => exact (poolBlind_writeLine hg ..).trans ((congrArg (fun x => g x.2) h).symm.trans (hread ..))
    · next u h => exact (congrArg (fun x => g x.2) h).symm.trans (hread ..)

theorem poolBlind_writeLines (acc : Access) (n : Nat) (s : State) (a : Nat) (b : Bytes) : g (writeLines s acc n a b).2 = g s := by
  induction n generalizing s a b with
  | zero => rfl
  | succ n ih =>
    unfold writeLines
    dsimp only
    rw [ih]
    split
    · exact poolBlind_writeLine hg ..
    · exact poolBlind_writePart hg ..

theorem poolBlind_writeStripe (s : State) (a : Access) (st : Nat) (b : Bytes) : g (writeStripe s a st b) = g s := by
  unfold writeStripe foldKeys
  dsimp only
  have hdata (u : State) (ks js : List Nat) : g (ks.foldl (fun s k => js.foldl (fun s j =>
      if unitPresent s st (dataHome st k) then storeLine (touchRow s (placed s st (dataHome st k)) (st * 4096 + 128 * j) a) (placed s st (dataHome st k)) (st * 4096 + 128 * j)
        ((b.drop (k * 4096 + 128 * j)).take 128) else s) s) u) = g u :=
    foldl_keeps g (fun s k => foldl_keeps g (fun s j => by rw [apply_ite g, poolBlind_storeLine hg, poolBlind_touchRow hg, ite_self]) js s) ks u
  rw [apply_ite g, foldl_keeps g (fun s j => poolBlind_storeParity hg s _ st j _), hdata, poolBlind_settleSlot hg, ite_self]

theorem poolBlind_writeParts (acc : Access) (n : Nat) (s : State) (a : Nat) (b : Bytes) : g (writeParts s acc n a b).2 = g s := by
  induction n generalizing s a b with
  | zero => rfl
  | succ n ih =>
    unfold writeParts
    split
    · rfl
    · split
      · exact (ih ..).trans (poolBlind_writeStripe hg ..)
      · exact (ih ..).trans (poolBlind_writeLines hg ..)

theorem poolBlind_writeData (s : State) (acc : Access) (a : Nat) (b : Bytes) : g (writeData s acc a b).2 = g s := poolBlind_writeParts hg ..

/-! ### Clearing -/

theorem poolBlind_swept (s : State) (p : Memory) (l : Tab LineErr) (x : Tab Stack) : g { s with pool := p, lines := l, stks := x } = g s := hg s ..

theorem poolBlind_clearStripes (s : State) (a b : Nat) : g (clearStripes s a b) = g s := by
  unfold clearStripes foldRange
  dsimp only
  rw [poolBlind_swept hg, foldl_keeps g (fun s t => by rw [apply_ite g, poolBlind_bump hg, ite_self])]
  split
  · rw [apply_ite g, poolBlind_settleSlot hg, ite_self]
  · rfl

theorem poolBlind_clearExtent (s : State) (e : Nat) : g (clearExtent s e) = g s := by
  unfold clearExtent
  rw [poolBlind_clearStripes hg, poolBlind_writeData hg, poolBlind_writeData hg]

end

end Sys2Proof.Machine
end

