-- ==== Sys2Proof/Proofs/TenancyEvents.lean ====
section
/-!
PROOF. The events of contexts, extents and translations (15 R345 to R358).
-/

namespace Sys2Proof.Machine

open Sys2Proof

/-! ### Notices -/

theorem postCtx_frame (s : State) (c code ty id : Nat) (d : Bytes) (st : Nat) : ∃ p x, postCtx s c code ty id d st = { s with pages := p, qps := x } :=
  postEvent_frame s (ctxMailbox c) code ty id d st

/-- An event for the operator and one for the context, together. -/
theorem postBoth_frame (s : State) (m c k1 k2 t1 t2 i1 i2 st1 st2 : Nat) (d1 d2 : Bytes) :
    ∃ p x, postCtx (postEvent s m k1 t1 i1 d1 st1) c k2 t2 i2 d2 st2 = { s with pages := p, qps := x } := by
  obtain ⟨p, x, h⟩ := postEvent_frame s m k1 t1 i1 d1 st1
  obtain ⟨p', x', h'⟩ := postCtx_frame { s with pages := p, qps := x } c k2 t2 i2 d2 st2
  exact ⟨p', x', by rw [h, h']⟩

/-! ### Leases -/

/-- A lapsed lease takes the context to LAPSED and its extents to REVOKING. -/
theorem lapse_effect (s : State) (c : Nat) :
    ((lapse s c).ctx c).st = .lapsed ∧ ∀ e ∈ extentsOf s c (· == .granted), ((lapse s c).extent e).st = .revoking ∧ ((lapse s c).extent e).cause = 2 := by
  have hctx : ((s.updCtx c (fun x => { x with st := .lapsed })).ctx c).st = .lapsed := by rw [State.updCtx_ctx]
  unfold lapse
  dsimp only
  obtain ⟨p, x, hpost⟩ := postBoth_frame (revokeExtents (s.updCtx c (fun x => { x with st := .lapsed })) (extentsOf s c (· == .granted)) 2) 0 c 3 3 0x01 0x01 c c stLease stLease
    (natLe (extentsOf s c (· == .granted)).length 2 ++ natLe (revokeExtents (s.updCtx c (fun x => { x with st := .lapsed })) (extentsOf s c (· == .granted)) 2).aon.bootEpoch.toNat 4)
    (natLe (extentsOf s c (· == .granted)).length 2 ++ natLe (revokeExtents (s.updCtx c (fun x => { x with st := .lapsed })) (extentsOf s c (· == .granted)) 2).aon.bootEpoch.toNat 4)
  rw [hpost]
  by_cases hes : extentsOf s c (· == .granted) = []
  · rw [hes]
    exact ⟨hctx, fun e he => absurd he (List.not_mem_nil)⟩
  · obtain ⟨y, g, k, hrevoke, -, hget⟩ := revokeExtents_spec (s.updCtx c (fun x => { x with st := .lapsed })) hes 2
    rw [hrevoke]
    refine ⟨hctx, fun e he => ?_⟩
    have hrevoked := (hget e).trans (if_pos he)
    change (tgetD y {} e).st = _ ∧ (tgetD y {} e).cause = 2
    rw [hrevoked]
    exact ⟨rfl, rfl⟩

/-! ### Fences -/

/-- Nothing that waits on an extent is left of what is discarded for it. -/
theorem unaccepted_discardWaiting (e : Nat) (ids : List Nat) (u : State) : unaccepted (discardWaiting u e ids) e = [] := by
  unfold discardWaiting
  dsimp only
  generalize (u.txns.filter (snoopWaits e)).foldl (fun s t => t.awaited.foldl (fun s a => forgetAgent s a (some t.line)) s) u = w
  simp only [unaccepted, List.append_eq_nil_iff, List.map_eq_nil_iff, List.filter_eq_nil_iff]
  exact ⟨fun r hr => by simp_all, fun t ht => by simp_all⟩

/-- Where nothing waits on an extent, nothing is discarded. -/
theorem discardWaiting_of_unaccepted {u : State} {e : Nat} (h : unaccepted u e = []) : discardWaiting u e [] = u := by
  obtain ⟨hqueue, htxns⟩ := List.append_eq_nil_iff.mp h
  have hnone : u.txns.filter (snoopWaits e) = [] := List.map_eq_nil_iff.mp htxns
  have hq : u.cohQueue.filter (fun r => !(lineIn e r.line || r.nc.any (([] : List Nat).contains))) = u.cohQueue := by
    refine List.filter_eq_self.mpr fun r hr => ?_
    have := List.filter_eq_nil_iff.mp (List.map_eq_nil_iff.mp hqueue) r hr
    cases r.nc <;> simp [this]
  have ht : u.txns.filter (fun t => !snoopWaits e t) = u.txns := by
    refine List.filter_eq_self.mpr fun t ht => ?_
    simp [List.filter_eq_nil_iff.mp hnone t ht]
  unfold discardWaiting
  simp only [hnone, List.foldl_nil, hq, ht, List.contains_nil, Bool.false_eq_true, if_false, List.map_id', Bool.false_and, Bool.not_false, List.filter_true]

theorem settleFence_of_unaccepted {u : State} {e : Nat} (h : unaccepted u e = []) : settleFence u e = serveQueued u := by
  unfold settleFence
  dsimp only
  rw [h]
  exact congrArg serveQueued (discardWaiting_of_unaccepted h)

/-! ### The obligation -/

/-- Settles O32: each event of a tenancy does, where it is due, what its transition is. -/
theorem tenancyEventsComplete : Obligations.TenancyEventsComplete := by
  unfold Obligations.TenancyEventsComplete
  refine ⟨?warning, ?expiry, ?fence, ?timeout, fun e u h => if_pos h, fun e u h => settleFence_of_unaccepted h, fun e ids u => unaccepted_discardWaiting e ids u,
    ?clearing, ?flush, ?invalidate⟩
  case warning =>
    rintro t c s u rfl hc hst hwarned hfrom hto
    refine completes_ticking (o := execLeaseWarningTimer t c s) rfl rfl hc (by simp [hst, hwarned, hfrom, hto]) ?_
    obtain ⟨p, x, hpost⟩ := postBoth_frame ((advance s t).updCtx c (fun x => { x with warned := true })) 0 c 2 2 0x01 0x01 c c 0 0
      (natLe (leaseLeft (advance s t) c) 4) (natLe (leaseLeft (advance s t) c) 4)
    dsimp only
    rw [hpost]
    exact ⟨by simp [State.ctx, State.updCtx], rfl⟩
  case expiry =>
    rintro t c s u rfl hc hst hover
    exact completes_ticking (o := execLeaseExpiry t c s) rfl rfl hc (by simp [leaseOver, hst, hover]) (lapse_effect _ _)
  case fence =>
    rintro t e s u rfl hc hst hdrained
    exact completes_ticking (o := execFenceDrained t e s) rfl rfl hc (by simp [hst, hdrained]) (by simp [State.extent, State.updExtent])
  case timeout =>
    rintro t e s u rfl hc hst hover
    exact (ticking_due hc (by simp [hst, hover]) : execFenceDrainTimeout t e s = _)
  case clearing =>
    rintro t e s u rfl hc hstacks hst hlayout
    refine (ticking_due hc (by simp [hstacks, hst, hlayout]) : execClearingComplete t e s = _).trans ?_
    have hct : (clearExtent (advance s t) e).ct = (advance s t).ct := congrArg (fun c => c.fold0.toNat) (poolBlind_clearExtent (g := State.clock) (fun _ _ _ _ _ _ _ _ _ _ _ _ => rfl) _ e)
    rw [hct]
  case flush =>
    rintro t c i s u d p rfl hc hd hp
    have hany : (advance s t).drains.any (fun d => d.flushCtx == some c.val && d.session == i.toNat && drainOver (advance s t) d) = true :=
      List.any_eq_true.mpr ⟨d, List.mem_of_find?_eq_some hd, by simpa using List.find?_some hd⟩
    change execTranslationFlushDone t c i s = _
    unfold execTranslationFlushDone
    refine (ticking_due hc hany).trans ?_
    rw [hd]
    have hpending : pendingOf { advance s t with drains := (advance s t).drains.erase d } (fun p => p.opcode == 0x0206 && p.id == d.cmd) = some p := hp
    dsimp only
    rw [hpending]
    rfl
  case invalidate =>
    rintro t i g s u d rfl hc hd
    have hany : (advance s t).drains.any (fun d => d.flushCtx.isNone && d.session == i.toNat && d.tag == g && drainOver (advance s t) d) = true :=
      List.any_eq_true.mpr ⟨d, List.mem_of_find?_eq_some hd, by simpa using List.find?_some hd⟩
    change execInvalidateDrained t i g s = _
    unfold execInvalidateDrained
    refine (timed_due (by simp only [hc, hany, Bool.and_self])).trans ?_
    dsimp only
    rw [hd]

end Sys2Proof.Machine
end

