-- ==== Sys2Proof/Proofs/ResetsAndStarts.lean ====
section
/-!
PROOF. Pins, resets, dumps and starts (16 R363 to R366; 09 R208; 17 R389 to R404; 19 R430 to R443).
-/

namespace Sys2Proof.Machine

open Sys2Proof

/-! ### Holding the part in reset -/

theorem tearWrite_frame (s : State) : ∃ f n, tearWrite s = { s with flash := f, free := n } := by
  unfold tearWrite
  split
  · split
    · exact ⟨_, _, rfl⟩
    · exact ⟨s.flash, s.free, rfl⟩
  · exact ⟨s.flash, s.free, rfl⟩

/-- A part held in reset has what the always-on domain, flash, the pins and the model itself keep, and nothing else. -/
theorem held_frame (s : State) : ∃ f n, held s = kept { s with flash := f, free := n } := by
  obtain ⟨f, n, h⟩ := tearWrite_frame s
  exact ⟨f, n, congrArg kept h⟩

/-- What a release keeps of the always-on domain. -/
def Aon.released (a : Aon) (reason : Nat) : Aon := { a with nextReason := reason, ordered := none, dumping := none, noAnswer := [] }

theorem release_frame (s : State) (reason : Nat) : ∃ f n, release s reason = { kept { s with flash := f, free := n } with aon := s.aon.released reason } := by
  obtain ⟨f, n, h⟩ := held_frame s
  exact ⟨f, n, by rw [release, h]; rfl⟩

theorem Pins.untrip_resetN (p : Pins) : p.untrip.resetN = p.resetN := by
  unfold Pins.untrip
  split <;> rfl

theorem Pins.untrip_pwrGood (p : Pins) : p.untrip.pwrGood = p.pwrGood := by
  unfold Pins.untrip
  split <;> rfl

/-! ### Reference clocks -/

/-- A change of the ports of a list that meet a condition, which the change ends. -/
theorem foldl_updPort_if {c : Port → Bool} {f : Nat → Port → Port} (hf : ∀ t p, c (f t p) = false) (qs : List Nat) (s : State) (q : Nat) :
    (qs.foldl (fun s q => if c (s.port q) then s.updPort q (f s.now) else s) s).port q = if q ∈ qs ∧ c (s.port q) = true then f s.now (s.port q) else s.port q := by
  induction qs generalizing s with
  | nil => simp
  | cons a r ih =>
    rw [List.foldl_cons, ih]
    by_cases ha : c (s.port a) = true
    · have hnow : (s.updPort a (f s.now)).now = s.now := rfl
      rw [if_pos ha, hnow]
      by_cases hq : q = a
      · subst hq
        rw [State.updPort_port]
        simp [ha, hf]
      · rw [State.updPort_port_other _ _ hq]
        simp [hq]
    · rw [if_neg ha]
      by_cases hq : q = a
      · subst hq
        simp [ha]
      · simp [hq]

theorem orderReset_frame (s : State) (o : ResetOrder) : ∃ a, orderReset s o = { s with aon := a } := by
  unfold orderReset
  split
  · exact ⟨s.aon, rfl⟩
  · exact ⟨_, rfl⟩

/-! ### The start instant -/

/-- What a start is about: the device's mode and start reason, the boot epoch, and the count of failed starts. -/
structure StartView where
  mode : Mode
  reason : Nat
  bootEpoch : BitVec 32
  failures : Nat

/-- The mode, the reason, the epoch and the count as a state has them. -/
def State.startView (s : State) : StartView := { mode := s.dev.mode, reason := s.dev.reason, bootEpoch := s.aon.bootEpoch, failures := s.aon.startFailures }

theorem mode_of_startView {s : State} {x : StartView} (h : s.startView = x) : s.dev.mode = x.mode := congrArg StartView.mode h

theorem reason_of_startView {s : State} {x : StartView} (h : s.startView = x) : s.dev.reason = x.reason := congrArg StartView.reason h

theorem bootEpoch_of_startView {s : State} {x : StartView} (h : s.startView = x) : s.aon.bootEpoch = x.bootEpoch := congrArg StartView.bootEpoch h

theorem startFailures_of_startView {s : State} {x : StartView} (h : s.startView = x) : s.aon.startFailures = x.failures := congrArg StartView.failures h

@[simp] theorem startView_logError (s : State) (code cls unit : Nat) (d : Bytes) (st : Nat) : (logError s code cls unit d st).startView = s.startView := by
  unfold logError
  dsimp only
  split_ifs <;> rfl

@[simp] theorem startView_countAlerts (old s : State) : (countAlerts old s).startView = s.startView := by
  obtain ⟨c, h⟩ := countAlerts_frame old s
  rw [h]
  rfl

@[simp] theorem startView_setStackState (s : State) (t : Nat) (st : StackState) : (setStackState s t st).startView = s.startView := by
  rw [setStackState, startView_countAlerts]
  rfl

@[simp] theorem startView_startStacks (s : State) : (startStacks s).startView = s.startView := by
  unfold startStacks
  dsimp only
  split <;> split <;> split <;> simp

@[simp] theorem startView_loadLayout (s : State) : (loadLayout s).startView = s.startView := by
  unfold loadLayout
  split
  · rw [startView_startStacks]
    rfl
  · rw [startView_logError]
    rfl

@[simp] theorem startView_startRecords (s : State) (taken : Bool) (skipped : Option (BitVec 32)) : (startRecords s taken skipped).startView = s.startView := by
  unfold startRecords
  extract_lets started dumped written
  have hdumped : dumped.startView = s.startView := by
    unfold dumped
    split <;> simp [started]
  have hwritten : written.startView = s.startView := by
    unfold written
    split <;> simp [hdumped]
  rw [← hwritten]
  split <;> rfl

@[simp] theorem startView_portTrain (s : State) (q : Nat) : (portTrain s q).startView = s.startView := by
  unfold portTrain
  split
  · obtain ⟨p, x, m, h⟩ := setLink_frame s q .training 8
    rw [h]
    rfl
  · rfl

/-- A start with BOOT_SRC high enters minimal mode with reason 0x80, and increments the boot epoch. -/
theorem startView_bootPart {s : State} {env : StartEnv} (hsrc : env.bootSrc = true) (haon : s.aon.vddLost = false) :
    (bootPart s env).startView = { mode := .minimal, reason := 0x80, bootEpoch := s.aon.bootEpoch + 1, failures := s.aon.startFailures } := by
  unfold bootPart
  extract_lets read minimal reason taken skipped lost flashed was domain _ pinned registers clocked recorded _ counted trained
  have hminimal : minimal = some 0x80 := by rw [show minimal = minimalReason s env.bootSrc read from rfl, hsrc, minimalReason, if_pos rfl]
  have hclocked : clocked.startView = { mode := .minimal, reason := 0x80, bootEpoch := s.aon.bootEpoch + 1, failures := s.aon.startFailures } := by
    simp [clocked, registers, pinned, domain, State.startView, startAon, haon, hminimal, reason, State.updClock, State.updDev, State.updAon]
  rw [if_pos (by rw [hminimal]; rfl), startView_portTrain, startView_countAlerts, startView_startRecords, startView_loadLayout, hclocked]

/-! ### Bring-up and the ready point -/

/-- A stack that bring-up puts in service. -/
def Stack.broughtUp (now pcs : Nat) (x : Stack) : Stack :=
  { x with st := .serving, inService := true, owed := [], lastTick := (List.range pcs).map (fun i => (i, now)) }

theorem foldKeys_broughtUp (ks : List Nat) (s : State) : foldKeys ks s (fun s t => s.updStack t (Stack.broughtUp s.now s.pcs))
    = { s with stks := ks.foldl (fun t k => tupd t {} k (Stack.broughtUp s.now s.pcs)) s.stks } := by
  induction ks generalizing s with
  | nil => rfl
  | cons a r ih => exact ih (s.updStack a (Stack.broughtUp s.now s.pcs))

/-- Bring-up without a fault empties the pool and puts every live stack in service. -/
theorem bringUp_good {s : State} {env : BringUpEnv} (hrails : badRails s env = []) (hdelay : (liveStacks s).any (delayFails s env) = false) :
    (bringUp s env).dev.stacksReady = true ∧ (bringUp s env).pool = [] ∧
      ∀ k ∈ liveStacks s, ((bringUp s env).stack k).st = .serving ∧ ((bringUp s env).stack k).inService = true := by
  have hfails : (liveStacks s).filter (delayFails s env) = [] := by
    refine List.filter_eq_nil_iff.mpr fun k hk hbad => ?_
    rw [List.any_eq_true.mpr ⟨k, hk, hbad⟩] at hdelay
    exact Bool.noConfusion hdelay
  have hfold := foldKeys_broughtUp (liveStacks s) { s with pool := [], lines := [] }
  unfold bringUp
  rw [hrails, hfails]
  dsimp only
  unfold Stack.broughtUp at hfold
  rw [hfold]
  refine ⟨rfl, rfl, fun k hk => ?_⟩
  have hk' := (tgetD_foldl_tupd {} (f := fun _ => Stack.broughtUp s.now s.pcs) (fun _ _ => rfl) (liveStacks s) s.stks k).trans (if_pos hk)
  exact ⟨congrArg Stack.st hk', congrArg Stack.inService hk'⟩

@[simp] theorem startView_startEpochEvent (s : State) : (startEpochEvent s).startView = s.startView := by
  unfold startEpochEvent
  split
  · rfl
  · dsimp only
    obtain ⟨p, x, h⟩ := postEvent_frame (persist (s.updDev (fun d => { d with oldEpoch := none }))) 0 0xB 7
      ((if s.layout.st == .retired || s.layout.st == .lost then s.layout.g else s.layout.f).getD 0)
      (natLe s.layout.epoch.toNat 1 ++ natLe _ 1 ++ natLe (if s.layout.st == .retired || s.layout.st == .lost then 2 else 1) 1 ++ natLe (stackByte s.layout.f) 1
        ++ natLe (stackByte s.layout.g) 1) 0
    rw [h]
    rfl

theorem startView_updFlash (s : State) (f : Flash → Flash) : (s.updFlash f).startView = s.startView := rfl

@[simp] theorem startView_copyErrors (s : State) : (copyErrors s).startView = s.startView := startView_updFlash s _

/-- The ready point puts the part in service and clears the count of failed starts. -/
theorem startView_readyPoint (s : State) : (readyPoint s).startView = { s.startView with mode := .inService, failures := 0 } := by
  unfold readyPoint
  dsimp only
  rw [startView_copyErrors, startView_startEpochEvent, startView_logError]
  rfl

/-! ### The obligation -/

/-- Settles O33: each pin, reset, dump and start does, where it is taken, what its transition is. -/
theorem resetAndStartComplete : Obligations.ResetAndStartComplete := by
  unfold Obligations.ResetAndStartComplete
  refine ⟨?resetN, ?pwrGood, ?pwrGoodHeld, ?warmHeld, ?warm, ?vddAon, ?thermal, ?sysLoss, ?memLoss, ?ethLoss, ?ordered, ?unit, ?complete, ?timer, ?copied, ?start,
    ?bringUp, ?rails, ?delay, ?ready, ?limit⟩
  case resetN =>
    rintro t s u rfl
    refine completes_timed (o := execResetNFall t s) rfl rfl rfl ?_
    obtain ⟨f, n, h⟩ := release_frame { advance s t with pins := { (advance s t).pins with resetN := false }.untrip } 1
    rw [coldReset, h]
    exact ⟨Pins.untrip_resetN _, rfl, rfl, rfl, rfl, rfl, rfl, rfl, rfl, rfl⟩
  case pwrGood =>
    rintro t s u rfl hreset
    refine completes_timed (o := execPwrGoodFall t s) rfl rfl rfl ?_
    obtain ⟨f, n, h⟩ := release_frame { advance s t with pins := { (advance s t).pins with pwrGood := false }.untrip } 1
    dsimp only
    rw [if_pos hreset, coldReset, h]
    exact ⟨Pins.untrip_pwrGood _, rfl, rfl, rfl⟩
  case pwrGoodHeld =>
    rintro t s u rfl hreset
    refine (timed_due rfl : execPwrGoodFall t s = _).trans ?_
    simp [hreset, Pins.untrip]
  case warmHeld =>
    rintro t s u rfl htaken hheld
    refine (timed_due htaken : execWarmRstNFall t s = _).trans ?_
    have hskip : ((advance s t).aon.dumping.isSome || (advance s t).dev.mode == .resetting) = true := by simpa using hheld
    exact congrArg Host.Outcome.next (if_pos hskip)
  case warm =>
    rintro t s u rfl htaken hdump hmode
    refine (timed_due htaken : execWarmRstNFall t s = _).trans ?_
    have hskip : ¬ ((advance s t).aon.dumping.isSome || (advance s t).dev.mode == .resetting) = true := by simp [hdump, hmode]
    exact congrArg Host.Outcome.next (if_neg hskip)
  case vddAon =>
    rintro t s u rfl
    exact completes_timed (o := execVddAonLoss t s) rfl rfl rfl ⟨rfl, rfl, rfl⟩
  case thermal =>
    rintro t f s u rfl hpin
    refine completes_timed (o := execThermalTrip t f s) rfl rfl hpin ?_
    obtain ⟨x, n, h⟩ := release_frame { advance s t with pins := { (advance s t).pins with thermtripN := false } } 1
    dsimp only
    rw [h]
    refine ⟨rfl, rfl, rfl, rfl, rfl, rfl, ?_⟩
    change (if ((advance s t).dev.mode == .starting) = true then _ else _) = _
    simp only [beq_iff_eq]
    rfl
  case sysLoss =>
    rintro t s u rfl hc
    exact completes_timed (o := execRefclkSysLoss t s) rfl rfl hc rfl
  case memLoss =>
    rintro t f s u rfl hc
    refine completes_timed (o := execRefclkMemLoss t f s) rfl rfl hc ?_
    have hfold := foldKeys_updStack (fun x => { x with clocked := false }) (rangeFrom (4 * f) 4) (advance s t)
    have hstack (k : Nat) : tgetD ((rangeFrom (4 * f) 4).foldl (fun t k => tupd t {} k (fun x => { x with clocked := false })) (advance s t).stks) {} k
        = if 4 * f.val ≤ k ∧ k < 4 * f.val + 4 then { (advance s t).stack k with clocked := false } else (advance s t).stack k := by
      refine (tgetD_foldl_tupd {} (f := fun _ x => { x with clocked := false }) (fun _ _ => rfl) (rangeFrom (4 * f) 4) (advance s t).stks k).trans ?_
      simp only [mem_rangeFrom]
      rfl
    dsimp only
    rw [foldRange, ← foldKeys, hfold]
    by_cases hmode : (advance s t).dev.mode = .minimal
    · rw [if_pos (by simpa using hmode)]
      exact ⟨hstack, fun _ => rfl, fun hne => absurd hmode hne⟩
    · rw [if_neg (by simpa using hmode)]
      refine ⟨?_, fun he => absurd he hmode, fun _ hfree hdump => orderReset_ordered _ hfree hdump⟩
      obtain ⟨a, ha⟩ := orderReset_frame { advance s t with stks := (rangeFrom (4 * f) 4).foldl (fun t k => tupd t {} k (fun x => { x with clocked := false })) (advance s t).stks }
        { reason := 4, dump := true, at_ := (advance s t).now, errorSeq := lastErr (advance s t) }
      intro k
      refine (congrArg (fun w : State => w.stack k) ha).trans (hstack k)
  case ethLoss =>
    rintro t k s u rfl hc
    refine completes_timed (o := execRefclkEthLoss t k s) rfl rfl hc fun q => ?_
    refine (foldl_updPort_if (c := fun p => p.carries && p.lockLost.isNone) (f := fun now p => { p with lockLost := some (now + p.lossTime) })
      (fun t p => by simp) (rangeFrom (8 * k) 8) (advance s t) q).trans ?_
    simp only [mem_rangeFrom, Bool.and_eq_true, Option.isNone_iff_eq_none, and_assoc]
  case ordered =>
    rintro t s u o rfl ho hdump
    refine (timed_due (by simp [ho, hdump]) : execOrderedDeviceReset t s = _).trans ?_
    rw [ho]
    simp only [Bool.and_eq_true, beq_iff_eq]
  case unit =>
    rintro t d b s u rfl hdump hdue hunit
    have hover : d + usNs 100 ≤ (advance s t).now := hdue
    refine completes_timed (o := execDumpUnitTimeout t b s) rfl rfl (by rw [hdump, Option.any_some, decide_eq_true hover]; simpa using hunit) ?_
    have hmem (x : Nat) : x ∈ (if (advance s t).aon.noAnswer.contains b.toNat then (advance s t).aon.noAnswer else (advance s t).aon.noAnswer ++ [b.toNat]) ↔
        x = b.toNat ∨ x ∈ (advance s t).aon.noAnswer := by
      split
      · next hin => exact ⟨Or.inr, fun h => h.elim (fun he => he ▸ by simpa using hin) id⟩
      · simp [or_comm]
    exact ⟨(hmem _).mpr (Or.inl rfl), hmem⟩
  case complete =>
    rintro t d s u o rfl hdump ho
    refine completes_of_exec (t := release (takeDump (advance s t) o 66) o.reason) ((timed_due (by simp [hdump]) : execDumpComplete t s = _).trans ?_) ?_
    · rw [endDump, ho]
    · obtain ⟨f, n, h⟩ := release_frame (takeDump (advance s t) o 66) o.reason
      refine ⟨rfl, ?_, ?_⟩
      · rw [h]
        rfl
      · rw [h]
        rfl
  case timer =>
    rintro t d s u o rfl hdump hdue ho
    have hover : d + msNs 20 ≤ (advance s t).now := hdue
    refine (timed_due (by rw [hdump, Option.any_some, decide_eq_true hover]) : execDumpTimerExpiry t s = _).trans ?_
    rw [endDump, ho]
  case copied =>
    rintro t s u rfl hruns hclocks hheld
    exact completes_timed (o := execDumpCopyDone t s) rfl rfl (by simp [hruns, hclocks, hheld]) ⟨rfl, rfl⟩
  case start =>
    rintro t v s u rfl hmode hdump hpin
    refine ⟨exec_start hmode hdump hpin, fun hsrc haon => ?_⟩
    have hview := startView_bootPart (s := advance s t) hsrc haon
    exact ⟨mode_of_startView hview, reason_of_startView hview, bootEpoch_of_startView hview⟩
  case bringUp =>
    rintro t v s u rfl hc hmode hready hfree hrails hdelay hdue
    exact completes_ticking (o := execStackBringUpDone t v s) rfl rfl hc (by simp [hmode, hready, hfree, hrails, hdelay, hdue]) (bringUp_good hrails hdelay)
  case rails =>
    rintro t v s u x l rfl hc hmode hready hfree hrails hdue
    refine (ticking_due hc (by simp [hmode, hready, hfree, hrails, msNs, hdue]) : execStackBringUpDone t v s = _).trans ?_
    rw [bringUp, hrails]
  case delay =>
    rintro t k v s u l rfl hc hmode hready hfree hrails hdelay hdue
    have hany : (liveStacks (advance s t)).any (delayFails (advance s t) v) = true := by
      have hk : k ∈ (liveStacks (advance s t)).filter (delayFails (advance s t) v) := by simp [hdelay]
      obtain ⟨hmem, hfail⟩ := List.mem_filter.mp hk
      exact List.any_eq_true.mpr ⟨k, hmem, hfail⟩
    refine (ticking_due hc (by simp [hmode, hready, hfree, hrails, hany, msNs, hdue]) : execStackBringUpDone t v s = _).trans ?_
    rw [bringUp, hrails, hdelay]
  case ready =>
    rintro t s u rfl hc hmode hup hfree hports
    have hall : (advance s t).ports.all (fun e => !e.2.required || portReady e.2) = true := by
      refine List.all_eq_true.mpr fun e he => ?_
      cases hr : e.2.required with
      | false => rfl
      | true => simpa [portReady] using hports e he hr
    have hview := startView_readyPoint (advance s t)
    exact completes_ticking (o := execReadyPoint t s) rfl rfl hc (by simp only [hmode, hup, hfree, hall, beq_self_eq_true, Option.isNone_none, Bool.and_self])
      ⟨mode_of_startView hview, startFailures_of_startView hview⟩
  case limit =>
    rintro t s u rfl hc hmode hdue
    exact (ticking_due hc (by simp [hmode, secNs, hdue]) : execStartLimitExpiry t s = _)

end Sys2Proof.Machine
end

