-- ==== Sys2Proof/Proofs/DeviceEvents.lean ====
section
/-!
PROOF. The periods, the timers and the fault events of the device (02 R43 to R57; 16 R378, R382; 17 R388 to R402; 18 R406, R416).
-/

namespace Sys2Proof.Machine

open Sys2Proof

/-! ### The accounting period -/

/-- What a boundary makes of the counter block with a key. -/
def latchAt (s : State) (at_ k : Nat) (b : CounterBlk) : CounterBlk :=
  if Group.schedule.key 0 ≤ k && k < Group.schedule.key 64 && (s.sched? (k - Group.schedule.key 0)).isNone then b else b.latch at_

theorem latchCounters_eq (s : State) (at_ : Nat) : latchCounters s at_ = { s with counters := tmap s.counters (latchAt s at_) } := rfl

/-- The instances of two groups have keys apart. -/
theorem Group.key_outside_schedule {g : Group} {i : Nat} (hg : g ≠ .schedule) (hi : i < g.instances) :
    (decide (Group.schedule.key 0 ≤ g.key i) && decide (g.key i < Group.schedule.key 64)) = false := by
  cases g with
  | schedule => exact absurd rfl hg
  | engine | stack | port | device | context | session =>
    rw [← Bool.not_eq_true, Bool.and_eq_true, decide_eq_true_eq, decide_eq_true_eq]
    simp only [Group.key, Group.code, Group.instances] at hi ⊢
    omega

/-- The block of an instance outside the schedules latches at a boundary. -/
theorem latchCounters_block (s : State) (at_ : Nat) {g : Group} {i : Nat} (hg : g ≠ .schedule) (hi : i < g.instances) :
    (latchCounters s at_).block (g.key i) = (s.block (g.key i)).latch at_ := by
  have hlatch (b : CounterBlk) : latchAt s at_ (g.key i) b = b.latch at_ := by
    rw [latchAt, Group.key_outside_schedule hg hi, Bool.false_and]
    exact if_neg Bool.false_ne_true
  rw [latchCounters_eq]
  exact (tgetD_map s.counters (latchAt s at_) (d := {}) (hlatch {})).trans (hlatch _)

/-- A boundary without staged changes latches the counters and begins the period's limits anew. -/
theorem boundary_unstaged {s : State} (at_ : Nat) (h : s.staged = []) :
    boundary s at_ = { latchCounters s at_ with stks := tmap s.stks (fun _ x => { x with mediaEvents := 0 }), dev := { s.dev with lastBoundary := at_, written := [] } } := by
  have hstaged : (latchCounters s at_).staged = [] := h
  unfold boundary
  dsimp only [State.updDev]
  rw [hstaged]
  rfl

/-! ### The end of a commit's flash write -/

theorem isHeld_congr {s t : State} {p : Pending} (h : (t.page p.mailbox).held = (s.page p.mailbox).held) : isHeld t p = isHeld s p := by
  simp only [isHeld, h]

/-- An event that finds room leaves what the page holds back. -/
theorem Page.putEvent_held (p : Page) (e : Event) (t : Nat) : ((p.flushOverflow t).putEvent e).held = p.held := by
  unfold Page.flushOverflow
  split <;> rfl

/-- A COMPLETION that its page takes is not held back. -/
theorem postCompletion_held {s : State} {p : Pending} {t : Nat} (st : Nat) (d : Bytes)
    (h : (s.page p.mailbox).evqEnable = false ∨ ((s.page p.mailbox).flushOverflow t).evqRoom = true) :
    isHeld (postCompletion s p st t d) p = isHeld s p := by
  unfold postCompletion
  dsimp only
  split
  · rfl
  · next hon =>
    rw [if_pos (h.resolve_left (by simpa using hon))]
    refine isHeld_congr ?_
    rw [page_dropPending, page_sendEvents, State.updPage_page]
    exact Page.putEvent_held ..

/-- The state of the open transfer when its command ends. -/
theorem endCommit_staging {s : State} {g : Staging} (h : s.staging = some g) (hc : g.committing = true) : (endCommit s g.commitId).staging = none := by
  simp [endCommit, h, hc]

/-- A pending STAGE_COMMIT that ends closes its transfer, but where its COMPLETION is held back. -/
theorem finish_commit_staging {s : State} {g : Staging} {p : Pending} (h : s.staging = some g) (hc : g.committing = true) (hop : p.opcode = 0x0A03) (hid : p.id = g.commitId)
    (st t : Nat) :
    ((finish s p st t).staging = none ∨ (finish s p st t).staging = some g) ∧
      (isHeld s p = false → (s.page p.mailbox).evqEnable = false ∨ ((s.page p.mailbox).flushOverflow t).evqRoom = true → (finish s p st t).staging = none) := by
  unfold finish
  extract_lets audited posted
  obtain ⟨f, c, haudited⟩ : ∃ f c, audited = { s with flash := f, counters := c } := by
    unfold audited
    split
    · exact auditWrite_frame ..
    · exact ⟨s.flash, s.counters, rfl⟩
  obtain ⟨y, x, e, hposted⟩ := postCompletion_frame audited p st t []
  have hstaging : posted.staging = some g := by
    rw [show posted = _ from hposted, haudited]
    exact h
  have hends : (endPending posted p).staging = none := by
    rw [endPending, if_pos (by simp [hop]), hid]
    exact endCommit_staging hstaging hc
  have hheld : (s.page p.mailbox).evqEnable = false ∨ ((s.page p.mailbox).flushOverflow t).evqRoom = true → isHeld posted p = isHeld s p := by
    intro hroom
    have haud : audited.page p.mailbox = s.page p.mailbox := by
      rw [haudited]
      rfl
    exact (postCompletion_held st [] (by rwa [haud])).trans (isHeld_congr (by rw [haud]))
  refine ⟨?_, fun hfree hroom => ?_⟩
  · split
    · exact Or.inr hstaging
    · exact Or.inl hends
  · rw [if_neg (by simp [hheld hroom, hfree])]
    exact hends

/-- Once its item is written, a committed transfer ends with its command's COMPLETION. -/
theorem stageWritten_staging {u : State} {g : Staging} (ok : Bool) (hc : g.committing = true) :
    ((stageWritten u g ok).staging = none ∨ (stageWritten u g ok).staging = some { g with written := some ok }) ∧
      (pendingOf u (fun p => p.opcode == 0x0A03 && p.id == g.commitId) = none → (stageWritten u g ok).staging = none) ∧
      (∀ p : Pending, pendingOf u (fun p => p.opcode == 0x0A03 && p.id == g.commitId) = some p →
        (u.page p.mailbox).evqEnable = false ∨ ((u.page p.mailbox).flushOverflow u.ct).evqRoom = true → (stageWritten u g ok).staging = none) := by
  unfold stageWritten
  extract_lets written marked
  obtain ⟨f, n, hwritten⟩ : ∃ f n, written = { u with flash := f, free := n } := by
    unfold written
    split
    · exact ⟨_, u.free, rfl⟩
    · exact tearWrite_frame u
  have hmarked : marked = { u with flash := f, free := n, staging := some { g with written := some ok } } := by
    rw [show marked = { written with staging := some { g with written := some ok } } from rfl, hwritten]
  rw [hmarked]
  have hpending : pendingOf { u with flash := f, free := n, staging := some { g with written := some ok } } (fun p => p.opcode == 0x0A03 && p.id == g.commitId)
      = pendingOf u (fun p => p.opcode == 0x0A03 && p.id == g.commitId) := rfl
  rw [hpending]
  cases hp : pendingOf u (fun p => p.opcode == 0x0A03 && p.id == g.commitId) with
  | none =>
    have hends := endCommit_staging (s := { u with flash := f, free := n, staging := some { g with written := some ok } }) (g := { g with written := some ok }) rfl hc
    exact ⟨Or.inl hends, fun _ => hends, fun p h => (nomatch h)⟩
  | some p =>
    have hfound := List.find?_some hp
    simp only [Bool.and_eq_true, beq_iff_eq, Bool.not_eq_true'] at hfound
    obtain ⟨⟨hop, hid⟩, hfree⟩ := hfound
    obtain ⟨heither, hends⟩ := finish_commit_staging (s := { u with flash := f, free := n, staging := some { g with written := some ok } })
      (g := { g with written := some ok }) rfl hc hop hid (if ok then stOk else stFault) u.ct
    refine ⟨heither, fun h => (nomatch h), fun r hr hroom => ?_⟩
    cases hr
    exact hends hfree hroom

/-! ### Array words -/

/-- An array word of an engine that is being reset is recorded, and begins no second reset. -/
theorem arrayError_resetting {u : State} {p : Fin 16} (n : Nat) (h : (u.engine p).reset.isSome = true) :
    arrayError u .paddockStore p n = logArray u .paddockStore 3 (0x10 + p) n := by
  have hp : p.val % 16 = p.val := Nat.mod_eq_of_lt p.isLt
  obtain ⟨a, v, hlog⟩ := logError_devFrame u 0x21 3 (0x10 + p) (natLe (arrayCode .paddockStore) 1 ++ natLe n 4 ++ [Config.arrayAction (arrayCode .paddockStore)]) 0
  have hreset : ((logArray u .paddockStore 3 (0x10 + p) n).engine p).reset.isSome = true := by
    rw [logArray, hlog]
    exact h
  simp only [arrayError, engineArray, hp]
  rw [beginEngineReset, if_pos hreset]

theorem logError_class3_seq {s : State} {code unit : Nat} (d : Bytes) (st : Nat) (h : tgetD s.dev.written 0 (code * 256 + unit) < 64) :
    (logError s code 3 unit d st).aon.errSeq = s.aon.errSeq + 1 := by
  unfold logError
  dsimp only
  rw [if_neg (by simpa using h), if_pos rfl]
  rfl

/-! ### The obligation -/

/-- Settles O34: each period, timer and fault event of the device does, where it is due, what its transition is. -/
theorem deviceEventsComplete : Obligations.DeviceEventsComplete := by
  unfold Obligations.DeviceEventsComplete
  refine ⟨?idle, ?lock, ?boundary, ?latch, ?flush, ?commit, ?reset, ?watchdog, ?notIdle, ?escalation, ?heartbeat, ?heartbeatLate, ?array, ?arrayReset⟩
  case idle =>
    rintro t i s u r rfl hc hr hid hidle
    have hover : (advance s t).now - r.lastCommand ≥ roleIdle := hidle
    have hany : (advance s t).auth.sessions.any (fun r => r.id == i && decide ((advance s t).now - r.lastCommand ≥ roleIdle)) = true :=
      List.any_eq_true.mpr ⟨r, hr, by simp [hid, hover]⟩
    refine completes_ticking (o := execRoleSessionIdleTimeout t i s) rfl rfl hc hany fun x hx => ?_
    rw [endRoleSession_sessions] at hx
    simpa using (List.mem_filter.mp hx).2
  case lock =>
    rintro t n r s u rfl hc hlock hdue
    refine completes_ticking (o := execAuthLockoutExpiry t r s) rfl rfl hc (by rw [hlock]; exact decide_eq_true hdue) ?_
    cases r <;> exact ⟨rfl, rfl⟩
  case boundary =>
    rintro t s u rfl hc hdue
    exact (timed_due (by simp [hc, hdue]) : execAccountingPeriodBoundary t s = _)
  case latch =>
    rintro t s u rfl hc hdue hstaged
    refine completes_timed (o := execAccountingPeriodBoundary t s) rfl rfl (by simp [hc, hdue]) ?_
    rw [boundary_unstaged _ hstaged]
    exact ⟨rfl, fun g i hg hi => latchCounters_block (advance s t) _ hg hi⟩
  case flush =>
    rintro t n s u rfl hc hdue
    exact (timed_due (by simp [hc, hdue]) : execTraceFlushTimer t n s = _)
  case commit =>
    rintro t ok s u g rfl hc hg hcommitting hwritten
    refine ⟨(timed_due (by simp [hc, hg, hcommitting, hwritten]) : execStageCommitDone t ok s = _).trans ?_, stageWritten_staging ok hcommitting⟩
    rw [hg]
  case reset =>
    rintro t p s u r rfl hc hr halive
    have hdead : ((advance s t).agent? (64 + p)).any (fun g => g.dead.isSome) = false := by
      cases hg : (advance s t).agent? (64 + p) with
      | none => rfl
      | some g => simp [halive g hg]
    refine (timed_due (by simp only [hc, hr, hdead, Option.isSome_some, Bool.not_false, Bool.and_self]) : execEngineResetDone t p s = _).trans ?_
    rw [hr]
  case watchdog =>
    rintro t p s u rfl hc hdue
    exact (timed_due (by simp [hc, hdue]) : execProgressWatchdogExpiry t p s = _)
  case notIdle =>
    rintro t p s u f rfl hc hf hdue hidle hr
    have hover : f.time + msNs 5 ≤ (advance s t).now := hdue
    exact (timed_due (by rw [hc, hf, hidle, hr, Option.any_some, decide_eq_true hover]; rfl) : execFaultedEngineNotIdle t p s = _)
  case escalation =>
    rintro t p s u r rfl hruns hr hdue
    have hover : r.since + msNs 5 ≤ (advance s t).now := hdue
    refine (timed_due (by rw [hruns, hr, Option.any_some, decide_eq_true hover]; rfl) : execEscalation t p s = _).trans ?_
    rw [hr]
  case heartbeat =>
    rintro t s u rfl hmode hnone
    refine (timed_due (by simp [hmode]) : execHeartbeatExpiry t s = _).trans ?_
    rw [hnone]
  case heartbeatLate =>
    rintro t p s u r rfl hmode hsome
    refine (timed_due (by simp [hmode]) : execHeartbeatExpiry t s = _).trans ?_
    rw [hsome]
  case array =>
    rintro t k i n s u rfl hc
    exact (timed_due hc : execArrayUe t k i n s = _)
  case arrayReset =>
    rintro t p n s u rfl hc hr
    refine completes_timed (o := execArrayUe t .paddockStore p n s) rfl rfl hc ?_
    obtain ⟨a, v, hlog⟩ := logError_devFrame (advance s t) 0x21 3 (0x10 + p) (natLe (arrayCode .paddockStore) 1 ++ natLe n 4 ++ [Config.arrayAction (arrayCode .paddockStore)]) 0
    rw [arrayError_resetting n hr]
    refine ⟨?_, fun hwritten => ?_⟩
    · rw [logArray, hlog]
    · have hroom : tgetD (advance s t).dev.written 0 (0x21 * 256 + (0x10 + p.val)) < 64 := by
        rw [hwritten]
        exact Nat.zero_lt_succ _
      exact ⟨(logError_class3 _ 0 hroom).1, logError_class3_seq _ 0 hroom⟩

end Sys2Proof.Machine
end

