-- ==== Sys2Proof/Proofs/ErunoRequests.lean ====
section
/-!
PROOF. Eruno requests to the part: accesses to the pool, SIGNAL, SCHED_FRAME, CSR, MAILBOX and INVALIDATE (12 R276 to R284, R451; 07 R192;
02 R28 to R34; 15 R358).
-/

namespace Sys2Proof.Machine

open Sys2Proof

/-! ### Accesses to the pool -/

section
variable {s w : State} {r : InReq} {c : Nat} {x : MemReq} {ps : List (Nat × Nat)} {ra : Nat} {g : Segment}

/-- An access that passes its segment check, to a segment that is not coherent, acts at once. -/
theorem memRequest_plain (hctx : r.ctx = some c) (hcheck : segCheck s c x.va x.len (x.need ||| needFabric) = .ok ps ra g) (hplain : g.coherent = false)
    (hfree : accessHeld s x.isWrite ps = false) : memRequest s r x = plainMem s r c x ps := by
  unfold memRequest
  simp only [hctx, hcheck, hplain, hfree, Bool.false_eq_true, if_false]

/-- An access that passes its segment check, to a coherent segment, becomes a request of the home. -/
theorem memRequest_coherent (hctx : r.ctx = some c) (hcheck : segCheck s c x.va x.len (x.need ||| needFabric) = .ok ps ra g) (hcoherent : g.coherent = true) :
    memRequest s r x = ncStart s { id := 0, ctx := c, owner := .eruno r.q r.i r.e, isWrite := x.isWrite, va := x.va, len := x.len, lines := [], data := x.data,
                                   atomic := x.atomic, stash := x.stash } ps := by
  unfold memRequest
  simp only [hctx, hcheck, hcoherent, if_true]

/-- The answer of an access that was served. -/
theorem answerMem_ok (b : Bytes) : answerMem s r c x stOk b
    = if r.e.noResponse then countServed s c x.isWrite x.atomic.isSome x.len stOk else respondEruno (countServed s c x.isWrite x.atomic.isSome x.len stOk) r stOk b := rfl

theorem plainMem_read {b : Bytes} (hwrite : x.isWrite = false) (hread : readPieces s demand ps = (some b, w)) : plainMem s r c x ps = answerMem w r c x stOk b := by
  unfold plainMem
  rw [hwrite, hread]

theorem plainMem_write (hwrite : x.isWrite = true) (hatomic : x.atomic = none) (hdone : writePieces s demand ps x.data = (true, w)) :
    plainMem s r c x ps = answerMem w r c x stOk [] := by
  unfold plainMem
  rw [hwrite, hatomic]
  simp only [hdone, if_true]

theorem plainMem_atomic {v : State} {sub : Nat} {old : Bytes} (hwrite : x.isWrite = true) (hatomic : x.atomic = some sub) (hread : readPieces s demand ps = (some old, v))
    (hdone : writePieces v demand ps (atomicBytes sub x.data old) = (true, w)) : plainMem s r c x ps = answerMem w r c x stOk old := by
  unfold plainMem
  rw [hwrite, hatomic]
  simp only [hread, hdone, if_true]

end

/-- An ATOMIC that passes its checks, to a segment that is not coherent, acts and answers the old value. -/
theorem atomicRequest_plain {u v w : State} {r : InReq} {c : Nat} {ps : List (Nat × Nat)} {ra : Nat} {g : Segment} {old : Bytes} (hbad : atomicBad r.e = false)
    (hctx : r.ctx = some c) (hcheck : segCheck u c (r.e.arg 0 48) 8 (needAtomic ||| needFabric) = .ok ps ra g) (hplain : g.coherent = false)
    (hfree : accessHeld u true ps = false) (hread : readPieces u demand ps = (some old, v))
    (hdone : writePieces v demand ps (atomicBytes r.e.subop.toNat r.e.payload old) = (true, w)) (hanswer : r.e.noResponse = false) :
    atomicRequest u r = respondEruno (countServed w c true true 8 stOk) r stOk old := by
  unfold atomicRequest
  rw [hbad, if_neg Bool.false_ne_true, memRequest_plain hctx (by exact hcheck) hplain (by exact hfree), plainMem_atomic rfl rfl hread hdone, answerMem_ok, hanswer]
  rfl

/-- Settles O35: an access to the pool that passes its checks acts and is answered, or goes to the home. -/
theorem poolRequestsComplete : Obligations.PoolRequestsComplete := by
  unfold Obligations.PoolRequestsComplete
  refine ⟨?read, ?write, ?stash, ?atomics, ?coherent⟩
  case read =>
    intro q s u w r c ps ra g b hreq hbad hctx hcheck hplain hfree hread hanswer
    refine (onRequest_requested hreq : execRead q s = _).trans ?_
    rw [hbad, if_neg Bool.false_ne_true, memRequest_plain hctx (by exact hcheck) hplain (by exact hfree), plainMem_read rfl hread, answerMem_ok, hanswer]
    rfl
  case write =>
    intro q s u w r c ps ra g hreq hbad hctx hcheck hplain hfree hdone
    refine (onRequest_requested hreq : execWrite q s = _).trans ?_
    rw [hbad, if_neg Bool.false_ne_true, memRequest_plain hctx (by exact hcheck) hplain (by exact hfree), plainMem_write rfl rfl hdone, answerMem_ok]
    rfl
  case stash =>
    intro q s u w r c ps ra g hreq hbad hctx hcheck hplain hfree hdone hanswer
    refine (onRequest_requested hreq : execWriteStash q s = _).trans ?_
    rw [hbad, if_neg Bool.false_ne_true, memRequest_plain hctx (by exact hcheck) hplain (by exact hfree), plainMem_write rfl rfl hdone, answerMem_ok, hanswer]
    rfl
  case atomics =>
    intro q s u v w r c ps ra g old x hx hreq hbad hctx hcheck hplain hfree hread hdone hanswer
    have hatomic : exec x.1 s = onAtomic s q x.2 := by
      simp only [List.mem_cons, List.not_mem_nil, or_false] at hx
      rcases hx with rfl | rfl | rfl | rfl | rfl | rfl <;> rfl
    rw [hatomic, onAtomic, onRequest_requested hreq, atomicRequest_plain hbad hctx hcheck hplain hfree hread hdone hanswer]
  case coherent =>
    intro q s u r c ps ra g hreq hbad hctx hcheck hcoherent
    refine (onRequest_requested hreq : execRead q s = _).trans ?_
    rw [hbad, if_neg Bool.false_ne_true, memRequest_coherent hctx (by exact hcheck) hcoherent]

/-! ### Opcodes that a part never takes -/

/-- Opening a frame leaves its opcode. -/
theorem openFrame_op {x : Session} {n : Nat} {e d : Eruno} (h : openFrame x n e = some d) : d.op = e.op := by
  unfold openFrame at h
  split at h
  · cases h
    rfl
  · split at h
    · obtain ⟨p, -, rfl⟩ := Option.map_eq_some_iff.mp h
      rfl
    · cases h

/-- What `takeFirst` takes passes its test. -/
theorem takeFirst_want {want : RxItem → Bool} {l seen rest : List RxItem} {x : RxItem} (h : takeFirst want seen l = some (x, rest)) : want x = true := by
  induction l generalizing seen with
  | nil => cases h
  | cons a l ih =>
    unfold takeFirst at h
    split at h
    · next ha =>
      cases h
      exact (Bool.and_eq_true_iff.mp ha).1
    · exact ih h

theorem arrival_want {s w : State} {q : Nat} {want : Frame → Bool} {x : RxItem} (h : arrival s q want = some (x, w)) : want x.frame = true := by
  unfold arrival at h
  split at h
  · split at h
    · next y r hy =>
      cases h
      exact (Bool.and_eq_true_iff.mp (takeFirst_want hy)).1
    · cases h
  · cases h

/-- Check 4 refuses a request with an opcode that only a part sends, and no other check is in its way. -/
theorem onRequest_numbered {s u : State} {q : Nat} {want : Eruno → Bool} {body : State → InReq → State} {r : InReq} (hq : q ≠ mgmtPort)
    (hwant : ∀ e, want e = true → onlyPartSends e.op = true) (h : numbered s q want = some (r, u)) : onRequest s q want body = .next (refuseEruno u r stDenied) := by
  unfold numbered at h
  split at h
  · next x w ha =>
    unfold onRequest
    rw [onFrame_arrival ha]
    have hx := arrival_want ha
    split at h
    · next e he =>
      dsimp only at h
      rw [he] at hx
      simp only [Option.any_some, Bool.and_eq_true] at hx
      split at h
      · next d hd =>
        have hmatch : (!sessionMatches w e || x.opened) = false := by
          by_contra hne
          rw [if_pos (Bool.not_eq_false _ ▸ hne)] at hd
          cases hd
        rw [hmatch, if_neg Bool.false_ne_true] at hd
        obtain ⟨hsession, hopened⟩ : sessionMatches w e = true ∧ x.opened = false := by simpa using hmatch
        split at h
        · cases h
        · next hfits =>
          cases h
          obtain ⟨hrebinds, hseq⟩ : rebinds e.index d = false ∧ seqFits (w.session e.index) d.seq = true := by simpa using hfits
          have hop : onlyPartSends d.op = true := openFrame_op hd ▸ hwant e hx.1.2
          have hagent (v : State) : fencedAgent v e.index d = false := by
            have hrange : (decide (0x10 ≤ d.op) && decide (d.op ≤ 0x14)) = false := by
              simp only [onlyPartSends, Bool.or_eq_true, beq_iff_eq] at hop
              rw [← Bool.not_eq_true, Bool.and_eq_true, decide_eq_true_eq, decide_eq_true_eq]
              omega
            rw [fencedAgent, hrange, Bool.false_and]
          have hdenied (v : State) : opcodeAllowed v e.index d = false := by
            have hdefined : opcodeDefined d.op = true := by
              simp only [onlyPartSends, Bool.or_eq_true, beq_iff_eq] at hop
              simp only [opcodeDefined, Bool.or_eq_true, Bool.and_eq_true, decide_eq_true_eq]
              omega
            simp only [opcodeAllowed, hdefined, hop, Bool.not_true, Bool.false_eq_true, if_false, if_true]
          simp only [he, acceptRequest, if_neg hq, hsession, hopened, hd, hrebinds, hseq, hagent, hdenied, Bool.not_true, Bool.not_false, Bool.and_false,
            Bool.false_eq_true, if_false, if_true]
      · cases h
    · cases h
  · cases h

/-! ### The obligation -/

/-- A MAILBOX operation enqueues its request at REQ_PI. -/
theorem enqueueMail_reqPi {s w : State} {m : Nat} {binding : BitVec 32} {qp : Option Nat} {b : Bytes} {i : BitVec 16} (h : enqueueMail s m binding qp b = some (i, w)) :
    i = (s.page m).reqPi ∧ (w.page m).reqPi = i + 1 := by
  unfold enqueueMail at h
  dsimp only at h
  split at h
  · cases h
  · cases h
    exact ⟨rfl, by rw [State.updPage_page]⟩

/-- A SCHED_FRAME that its receiver takes is written to the paddock's store. -/
theorem takeSchedFrame_taken {u : State} {r : InReq} {c k : Nat} (hbad : schedFrameBad r.e = false) (h1 : 1 ≤ r.e.payload.length) (h2 : r.e.payload.length ≤ 8192)
    (hctx : r.ctx = some c) (htaker : frameTaker u c (r.e.arg 24 4) (r.e.arg 0 24) r.e.payload.length = some k) (hsignal : r.e.arg 48 16 = 0) :
    takeSchedFrame u r = bump (u.updEngine (r.e.arg 24 4) (fun e => { e with store := mwriteN e.store (r.e.arg 0 24) r.e.payload })) .schedule k 6 1 := by
  unfold takeSchedFrame
  simp only [hbad, h1, h2, hctx, htaker, hsignal, Option.bind_some, Option.map_some, decide_true, Bool.and_self, Bool.not_true, Bool.or_self, bne_self_eq_false,
    Bool.and_false, Bool.false_eq_true, if_false]

/-- Settles O36: each operation that passes its checks acts and is answered; what a part never takes is refused. -/
theorem otherRequestsComplete : Obligations.OtherRequestsComplete := by
  unfold Obligations.OtherRequestsComplete
  have hport (q : Fin 64) : q.val ≠ mgmtPort := Nat.ne_of_lt q.isLt
  refine ⟨?signal, ?sched, ?schedBad, ?csrRead, ?csrWrite, ?mailbox, ?invalidate, fun q s u r hreq => (onRequest_requested hreq : execUndefinedErunoOpcode q s = _),
    ?partSends, ?traceFrame⟩
  case signal =>
    intro q s u r c hreq hflags hsub hoperand hlen hzero hctx howns
    refine (onRequest_requested hreq : execSignalFrame q s = _).trans ?_
    have hbad : (flagsBad r.e true || r.e.subop != 0 || r.e.operand != 0 || r.e.payload.length != 8 || field r.e.payload 2 2 != 0) = false := by
      simp [hflags, hsub, hoperand, hlen, hzero]
    simp only [hbad, hctx, howns, Bool.not_true, Bool.false_eq_true, if_false]
  case sched =>
    intro q s u r c k hreq hbad h1 h2 hctx htaker hsignal
    refine completes_of_exec (onRequest_requested hreq : execSchedFrame q s = _) ?_
    obtain ⟨x, hbump⟩ := bump_frame (u.updEngine (r.e.arg 24 4) (fun e => { e with store := mwriteN e.store (r.e.arg 0 24) r.e.payload })) .schedule k 6 1
    rw [takeSchedFrame_taken hbad h1 h2 hctx htaker hsignal, hbump]
    exact ⟨by simp [State.engine, State.updEngine], fun p hp => by simp [State.engine, State.updEngine, tgetD_tupd_other, hp]⟩
  case schedBad =>
    intro q s u r hreq hbad
    refine (onRequest_requested hreq : execSchedFrame q s = _).trans ?_
    simp only [takeSchedFrame, hbad, Bool.true_or, if_true]
  case csrRead =>
    intro q s u r hreq hflags hsub hzero hrange hpayload b w hread
    refine (onRequest_requested hreq : execCsrRead (.port q) s = _).trans ?_
    have hbad : (flagsBad r.e false || r.e.subop != 0 || r.e.arg 48 16 != 0 || !csrRangeOk (r.e.arg 0 32) (r.e.arg 32 16) || !r.e.payload.isEmpty) = false := by
      simp [hflags, hsub, hzero, hrange, hpayload]
    dsimp only
    rw [hbad, if_neg Bool.false_ne_true, hread]
  case csrWrite =>
    intro q s u r hreq hflags hsub hzero hrange hlen w hwrite
    refine (onRequest_requested hreq : execCsrWrite (.port q) s = _).trans ?_
    have hbad : (flagsBad r.e false || r.e.subop != 0 || r.e.arg 48 16 != 0 || !csrRangeOk (r.e.arg 0 32) (r.e.arg 32 16) || r.e.payload.length != r.e.arg 32 16) = false := by
      simp [hflags, hsub, hzero, hrange, hlen]
    dsimp only
    rw [hbad, if_neg Bool.false_ne_true, hwrite]
  case mailbox =>
    intro q s u w r m i hreq hflags hsub hoperand hlen htarget henqueue
    refine ⟨(onRequest_requested hreq : execMailbox q s = _).trans ?_, enqueueMail_reqPi henqueue⟩
    have hbad : (flagsBad r.e false || r.e.subop != 0 || r.e.operand != 0 || !mailLenOk r.e.payload) = false := by simp [hflags, hsub, hoperand, hlen]
    rw [hbad, if_neg Bool.false_ne_true, htarget]
    dsimp only
    rw [henqueue]
  case invalidate =>
    intro q s u r hreq hflags hk1 hk2 hpayload halign
    refine completes_of_exec (t := invalidateRange u r r.e.operand.toNat (2 ^ r.e.subop.toNat)) ((onRequest_requested hreq : execInvalidate q s = _).trans ?_)
      ⟨rfl, List.length_append⟩
    have hbad : (flagsBad r.e false || !(decide (12 ≤ r.e.subop.toNat) && decide (r.e.subop.toNat ≤ 47)) || !r.e.payload.isEmpty
        || r.e.operand.toNat % 2 ^ r.e.subop.toNat != 0) = false := by
      simp [hflags, hk1, hk2, hpayload, halign]
    dsimp only
    rw [hbad, if_neg Bool.false_ne_true]
  case partSends =>
    intro q s u r hnumbered
    exact (onRequest_numbered (hport q) (fun e he => (Bool.and_eq_true_iff.mp he).1) hnumbered : execOpcodeOnlyAPartSends q s = _)
  case traceFrame =>
    intro q s u r hnumbered
    exact (onRequest_numbered (hport q) (fun e he => by rw [beq_iff_eq.mp he]; rfl) hnumbered : execTraceFrame q s = _)

end Sys2Proof.Machine
end

