-- ==== Sys2Proof/Proofs/ErunoResponses.lean ====
section
/-!
PROOF. Key establishment, the answers to the part's own requests, segments and forwarding (12 R275 to R298; 15 R357, R359).
-/

namespace Sys2Proof.Machine

open Sys2Proof

/-! ### Answers to the part's requests -/

/-- A response that answers a request has arrived, and matches that request. -/
theorem exists_of_answered {s w : State} {q : Nat} {want : Eruno → Bool} {o : Outstanding} {e : Eruno} (h : answered s q want = some (o, e, w)) :
    ∃ x u f, arrival s q (fun f => (erunoOf f).any want) = some (x, u) ∧ erunoOf x.frame = some f ∧ matchResponse u x f = some (o, e) ∧ w = endOutstanding u o e := by
  unfold answered at h
  split at h
  · next x u ha =>
    split at h
    · next f hf =>
      split at h
      · next o' e' hm =>
        cases h
        exact ⟨x, u, f, ha, hf, hm, rfl⟩
      · cases h
    · cases h
  · cases h

/-- A row of responses acts on the response that answers its request. -/
theorem onResponse_answered {s w t : State} {q : Nat} {want : Eruno → Bool} {act : State → Outstanding → Eruno → Option State} {o : Outstanding} {e : Eruno}
    (h : answered s q (fun e => localEndpoint s e.dst && e.isResponse && !e.segmented && want e) = some (o, e, w)) (hact : act w o e = some t) :
    onResponse s q want act = .next t := by
  obtain ⟨x, u, f, ha, hf, hm, rfl⟩ := exists_of_answered h
  rw [onResponse, onFrame_arrival ha]
  simp only [hf, hm, hact, Option.getD_some]

/-- The rows of the two phases take the responses of their own phase. -/
theorem onExchangeResponse_answered {s w : State} {q phase : Nat} {act : State → Nat → Eruno → State} {want : Eruno → Bool} {o : Outstanding} {e : Eruno}
    (hwant : ∀ e, (localEndpoint s e.dst && e.isResponse && !e.segmented && e.op == 0x39 && decide (phase = 3) == (e.subop == 3)) = want e)
    (h : answered s q want = some (o, e, w)) (hkind : o.kind = .keyExchange) : onExchangeResponse s q phase act = .next (act w o.session e) := by
  obtain ⟨x, u, f, ha, hf, hm, rfl⟩ := exists_of_answered h
  rw [onExchangeResponse, onFrame_arrival (by simpa only [hwant] using ha)]
  simp only [hf, hm, hkind, beq_self_eq_true, if_true]

/-! ### Key establishment -/

theorem execKeyExchangePhase3_of_request {s : State} {q : Fin 64} (h : phase3Response s q = false) :
    execKeyExchangePhase3 q s = onRequest s q (fun e => e.op == 0x39 && e.subop.toNat = 3) (fun s r =>
      if !r.e.payload.isEmpty || r.e.operand != 0 || r.e.noResponse then refuseEruno s r stBadArg
      else if (s.session r.i).keys.isNone || (s.session r.i).initiate then refuseEruno s r stBadState
      else confirmExchange (respondEruno s r stOk [] 3) r.i) := by
  rw [execKeyExchangePhase3, h, if_neg Bool.false_ne_true]

/-- A role slot has no KEY_WAIT; every other session has (12 R287). -/
theorem keyWaitOver_of_due {s : State} {i : Nat} (hst : (s.session i).st = .keying) (hi : 64 ≤ i) (hdue : (s.session i).keyDeadline ≤ s.now) : keyWaitOver s i = true := by
  simp [keyWaitOver, hst, hdue, isRoleSlot, hi]

/-! ### Timeouts -/

/-- A request of a session has waited for its timeout. -/
def requestLate (i g : BitVec 16) (s : State) (o : Outstanding) : Bool :=
  o.session == i.toNat && o.tag == g && decide (o.issuedAt + (s.session i.toNat).timeoutNs ≤ s.now)

theorem execErunoRequestTimeout_due {t : Nat} {i g : BitVec 16} {s : State} {o : Outstanding} (hc : (advance s t).clocked = true)
    (ho : (advance s t).outstanding.find? (requestLate i g (advance s t)) = some o) :
    execErunoRequestTimeout t i g s = .next (sendUnsent (timedOut (bump ({ advance s t with outstanding := (advance s t).outstanding.erase o }.updSession i.toNat
      (fun x => { x with timeouts := x.timeouts + 1 })) .session i.toNat 4 1) o)) := by
  have hany : (advance s t).outstanding.any (requestLate i g (advance s t)) = true := List.any_eq_true.mpr ⟨o, List.mem_of_find?_eq_some ho, List.find?_some ho⟩
  unfold execErunoRequestTimeout
  refine (timed_due (due := fun s => s.clocked && s.outstanding.any (requestLate i g s)) (by simp only [hc, hany, Bool.and_self])).trans ?_
  unfold requestLate at ho
  dsimp only
  rw [ho]

/-- A reassembly has lasted its time. -/
def reasmDead (i : BitVec 16) (n : BitVec 32) (s : State) (r : Reasm) : Bool :=
  r.session % mgmtSession == i.toNat && r.seq == n && decide (r.since + msNs 1 ≤ s.now)

theorem execReassemblyTimeout_due {t : Nat} {i : BitVec 16} {n : BitVec 32} {s : State} (hc : (advance s t).clocked = true)
    (h : (advance s t).reasms.any (reasmDead i n (advance s t)) = true) :
    execReassemblyTimeout t i n s = .next (bump (tally { advance s t with reasms := (advance s t).reasms.filter (fun r => !reasmDead i n (advance s t) r) } .reasmDiscard)
      .device 0 14 1) := by
  unfold execReassemblyTimeout
  exact ticking_due (due := fun s => s.reasms.any (reasmDead i n s)) hc h

theorem reasmDead_eq_true_iff {i : BitVec 16} {n : BitVec 32} {s : State} {r : Reasm} :
    reasmDead i n s r = true ↔ (r.session % mgmtSession = i.toNat ∧ r.seq = n) ∧ r.since + 1000000 ≤ s.now := by
  rw [reasmDead, Bool.and_eq_true, Bool.and_eq_true, beq_iff_eq, beq_iff_eq, decide_eq_true_eq]
  rfl

/-! ### The obligations -/

/-- Settles O37: each phase of key establishment, each answer and each timeout goes where its request was made. -/
theorem responsesAndKeysComplete : Obligations.ResponsesAndKeysComplete := by
  unfold Obligations.ResponsesAndKeysComplete
  refine ⟨?phase1, ?phase2, ?phase3, ?phase3Request, ?keyWait, ?translate, ?pageAnswer, ?hostMove, ?timeout⟩
  case phase1 =>
    intro q s u r hreq hsub hlen hoperand hanswer hresponder hproven
    refine (onRequest_requested hreq : execKeyExchangePhase1 q s = _).trans ?_
    have hbad : (r.e.subop.toNat != 1 || r.e.payload.length != 4529 || r.e.operand != 0 || r.e.noResponse) = false := by simp [hsub, hlen, hoperand, hanswer]
    simp only [hbad, hresponder, hproven, Bool.not_true, Bool.false_eq_true, if_false]
  case phase2 =>
    intro q s w o e hanswered hkind
    exact (onExchangeResponse_answered (fun e => by simp [bne]) hanswered hkind : execKeyExchangePhase2 q s = _)
  case phase3 =>
    intro q s w o e hphase hanswered hkind hst
    have hexec : execKeyExchangePhase3 q s = onExchangeResponse s q 3 (fun s i e => if e.status == 0 then confirmExchange s i else failExchange s i stIntegrity) := by
      rw [execKeyExchangePhase3, hphase, if_pos rfl]
    refine (hexec.trans (onExchangeResponse_answered (fun e => by simp) hanswered hkind) : execKeyExchangePhase3 q s = _).trans ?_
    rw [if_pos (by simpa using hst)]
  case phase3Request =>
    intro q s u r hphase hreq hpayload hoperand hanswer hkeys hresponder
    refine ((execKeyExchangePhase3_of_request hphase).trans (onRequest_requested hreq) : execKeyExchangePhase3 q s = _).trans ?_
    have hbad : (!r.e.payload.isEmpty || r.e.operand != 0 || r.e.noResponse) = false := by simp [hpayload, hoperand, hanswer]
    have hstate : ((u.session r.i).keys.isNone || (u.session r.i).initiate) = false := by
      rw [hresponder, Bool.or_false, ← Option.not_isSome, hkeys, Bool.not_true]
    simp only [hbad, hstate, Bool.false_eq_true, if_false]
  case keyWait =>
    rintro t i s u rfl hc hst hi hdue
    exact (ticking_due hc (keyWaitOver_of_due hst hi hdue) : execKeyWaitExpiry t i s = _)
  case translate =>
    intro q s w o e p mv page b hanswered hkind
    exact (onResponse_answered hanswered (by rw [hkind]) : execTranslateResponse q s = _)
  case pageAnswer =>
    intro q s w o e p mv page hanswered hkind
    exact (onResponse_answered hanswered (by rw [hkind]) : execPageRequestResponse q s = _)
  case hostMove =>
    intro q s w o e p mv store len page log2 hanswered
    obtain ⟨x, u, f, ha, hf, hm, rfl⟩ := exists_of_answered hanswered
    refine ⟨fun hkind hop => ?_, fun hkind hop => ?_⟩
    · refine (onFrame_arrival ha : execErunoResponse q s = _).trans ?_
      simp only [hf, hm, hkind, hop, if_true]
    · refine (onFrame_arrival ha : execErunoResponse q s = _).trans ?_
      simp only [hf, hm, hkind, hop, if_true]
  case timeout =>
    rintro t i g s u o rfl hc ho
    exact execErunoRequestTimeout_due hc ho

/-- Settles O38: segments join their reassembly, which lasts its time, and frames for other endpoints are forwarded. -/
theorem segmentsAndForwardingComplete : Obligations.SegmentsAndForwardingComplete := by
  unfold Obligations.SegmentsAndForwardingComplete
  refine ⟨?segment, ?timeout, ?forwards⟩
  case segment =>
    intro q s w x e ha he
    refine (onFrame_arrival ha : execErunoSegment q s = _).trans ?_
    rw [he]
  case timeout =>
    rintro t i n s u r rfl hc hr hsession hseq hdue
    have hdead : reasmDead i n (advance s t) r = true := reasmDead_eq_true_iff.mpr ⟨⟨hsession, hseq⟩, hdue⟩
    refine completes_of_exec (execReassemblyTimeout_due hc (List.any_eq_true.mpr ⟨r, hr, hdead⟩)) fun x => ?_
    obtain ⟨c, hbump⟩ := bump_frame (tally { advance s t with reasms := (advance s t).reasms.filter (fun r => !reasmDead i n (advance s t) r) } .reasmDiscard) .device 0 14 1
    rw [hbump]
    change x ∈ (advance s t).reasms.filter (fun r => !reasmDead i n (advance s t) r) ↔ _
    rw [List.mem_filter, Bool.not_eq_true', ← Bool.not_eq_true, reasmDead_eq_true_iff, not_and, Nat.not_le, and_imp]
  case forwards =>
    intro q s x r e hc ha he
    change execForward q s = _
    rw [execForward, if_pos hc, ha]
    simp only [he]

end Sys2Proof.Machine
end

