-- ==== Sys2Proof/Proofs/RoceRows.lean ====
section
/-!
PROOF. RoCEv2 packets at the responder and at the requester, and the timers and rates of queue pairs (12 R301 to R304).
-/

namespace Sys2Proof.Machine

open Sys2Proof

/-! ### The responder -/

section Responder
variable {s w : State} {q : Nat} {op : Roce → Bool} {fresh again early : State → RoceIn → State} {x : RxItem} {r : Roce}

/-- A packet of a ready queue pair is judged by its PSN. -/
theorem onRoce_ready (ha : arrival s q (fun f => (roceOf f).any (fun r => op r && !qpWaits s r.destQp.toNat)) = some (x, w)) (hr : roceOf x.frame = some r)
    (hn : r.destQp.toNat < qpMax) (hst : (w.qp r.destQp.toNat).st = .ready) {v : State} (hv : v = sendCnp w r.destQp.toNat x.frame.ce) :
    onRoce s q op fresh again early = .next ((match psnAt (v.qp r.destQp.toNat) r.psn with | .expected => fresh | .duplicate => again | .ahead => early)
      v { q := q, n := r.destQp.toNat, r := r, dscp := x.frame.dscp }) := by
  subst hv
  have hserved : (decide (r.destQp.toNat ≥ qpMax) || (w.qp r.destQp.toNat).st != .ready) = false := by simp [hst, hn]
  refine (onFrame_arrival ha).trans ?_
  simp only [hr, hserved, Bool.false_eq_true, if_false]
  cases psnAt ((sendCnp w r.destQp.toNat x.frame.ce).qp r.destQp.toNat) r.psn <;> rfl

/-- The packet at the expected PSN is fresh. -/
theorem onRoce_expected (ha : arrival s q (fun f => (roceOf f).any (fun r => op r && !qpWaits s r.destQp.toNat)) = some (x, w)) (hr : roceOf x.frame = some r)
    (hn : r.destQp.toNat < qpMax) (hst : (w.qp r.destQp.toNat).st = .ready) {v : State} (hv : v = sendCnp w r.destQp.toNat x.frame.ce)
    (hpsn : r.psn = (v.qp r.destQp.toNat).expectedPsn) :
    onRoce s q op fresh again early = .next (fresh v { q := q, n := r.destQp.toNat, r := r, dscp := x.frame.dscp }) := by
  rw [onRoce_ready ha hr hn hst hv, psnAt, if_pos hpsn]

/-- Where all three judgements of a packet come to the same, its PSN does not matter. -/
theorem onRoce_anyPsn {act : State → RoceIn → State} (ha : arrival s q (fun f => (roceOf f).any (fun r => op r && !qpWaits s r.destQp.toNat)) = some (x, w))
    (hr : roceOf x.frame = some r) (hn : r.destQp.toNat < qpMax) (hst : (w.qp r.destQp.toNat).st = .ready)
    (hfresh : ∀ v i, i.r = r → fresh v i = act v i) (hagain : ∀ v i, i.r = r → again v i = act v i) (hearly : ∀ v i, i.r = r → early v i = act v i) :
    onRoce s q op fresh again early = .next (act (sendCnp w r.destQp.toNat x.frame.ce) { q := q, n := r.destQp.toNat, r := r, dscp := x.frame.dscp }) := by
  rw [onRoce_ready ha hr hn hst rfl]
  cases psnAt ((sendCnp w r.destQp.toNat x.frame.ce).qp r.destQp.toNat) r.psn with
  | expected => exact congrArg _ (hfresh _ _ rfl)
  | duplicate => exact congrArg _ (hagain _ _ rfl)
  | ahead => exact congrArg _ (hearly _ _ rfl)

end Responder

/-- Settles O39: a ready queue pair runs the request packet at its expected PSN; packets that its kind does not take are refused. -/
theorem roceRequestsComplete : Obligations.RoceRequestsComplete := by
  unfold Obligations.RoceRequestsComplete
  refine ⟨?runs, ?mailbox, ?plain, ?unsupported, ?absent⟩
  case runs =>
    intro q s w v x r y hy ha hr hn hst hv hpsn
    simp only [List.mem_cons, List.not_mem_nil, or_false] at hy
    obtain rfl | rfl | rfl | rfl | rfl | rfl | rfl | rfl | rfl | rfl | rfl := hy
    · exact (onRoce_expected ha hr hn hst hv hpsn : execRdmaWriteFirst q s = _)
    · exact (onRoce_expected ha hr hn hst hv hpsn : execRdmaWriteMiddle q s = _)
    · exact (onRoce_expected ha hr hn hst hv hpsn : execRdmaWriteLast q s = _)
    · exact (onRoce_expected ha hr hn hst hv hpsn : execRdmaWriteOnly q s = _)
    · exact (onRoce_expected ha hr hn hst hv hpsn : execRdmaReadRequest q s = _)
    · exact (onRoce_expected ha hr hn hst hv hpsn : execCompareSwap q s = _)
    · exact (onRoce_expected ha hr hn hst hv hpsn : execFetchAdd q s = _)
    · exact (onRoce_expected ha hr hn hst hv hpsn : execSendFirst q s = _)
    · exact (onRoce_expected ha hr hn hst hv hpsn : execSendMiddle q s = _)
    · exact (onRoce_expected ha hr hn hst hv hpsn : execSendLast q s = _)
    · exact (onRoce_expected ha hr hn hst hv hpsn : execSendOnly q s = _)
  case mailbox =>
    intro s i hm b k
    exact ⟨by simp [writeBegin, hm], by simp [readPacket, hm]⟩
  case plain =>
    intro s i b c hm
    simp [sendPacket, hm]
  case unsupported =>
    intro q s w v x r ha hr hop hn hst hv hpsn
    refine (onRoce_expected ha hr hn hst hv hpsn : execRoceUnsupportedPacket q s = _).trans ?_
    rw [if_pos (by rw [hop]; rfl)]
  case absent =>
    intro q s w x r ha hr hop hn hst
    have hother : ∀ i : RoceIn, i.r = r → (i.r.op == .unsupported) = false := fun i hi => by simp [hi, hop]
    exact (onRoce_anyPsn (act := fun s _ => roceDrop s) ha hr hn hst (fun v i hi => by rw [hother i hi]; rfl) (fun _ _ _ => rfl)
      (fun v i hi => by rw [hother i hi]; rfl) : execRoceUnsupportedPacket q s = _)

/-! ### The requester and its timers -/

/-- A packet without the CE mark asks for no CNP. -/
theorem sendCnp_unmarked (s : State) (n : Nat) : sendCnp s n false = s := by
  simp only [sendCnp, Bool.not_false, Bool.true_or, if_true]

/-- An acknowledgement of a ready mailbox queue pair acts on it. -/
theorem onSendAck_ready {s w : State} {q : Nat} {want : Roce → Bool} {act : State → Nat → Roce → State} {x : RxItem} {r : Roce}
    (ha : arrival s q (fun f => (roceOf f).any (fun r => r.op == .ack && want r)) = some (x, w)) (hr : roceOf x.frame = some r) (hn : r.destQp.toNat < qpMax)
    (hst : (w.qp r.destQp.toNat).st = .ready) (hm : (w.qp r.destQp.toNat).mailbox = true) (hce : x.frame.ce = false) :
    onSendAck s q want act = .next (act w r.destQp.toNat r) := by
  have hserved : (decide (r.destQp.toNat ≥ qpMax) || (w.qp r.destQp.toNat).st != .ready || !(w.qp r.destQp.toNat).mailbox) = false := by simp [hst, hn, hm]
  refine (onFrame_arrival ha).trans ?_
  simp only [hr, hserved, Bool.false_eq_true, if_false, hce, sendCnp_unmarked]

/-- A queue pair in error keeps no SEND. -/
theorem qpError_qp (s : State) (n : Nat) : (qpError s n).qp n = { s.qp n with st := .error, sends := [], rnrUntil := none, write := none, recv := none } :=
  State.updQp_qp s n (fun x => { x with st := .error, sends := [], rnrUntil := none, write := none, recv := none })

/-- What goes out again is not sent. -/
theorem Qp.again_unsent (x : Qp) : ∀ k ∈ x.again.sends, k.sentAt = none := by
  intro k hk
  obtain ⟨j, -, rfl⟩ := List.mem_map.mp hk
  rfl

/-- A SEND of queue pair `n` has waited for its acknowledgement beyond the timeout. -/
def sendLate (s : State) (k : QpSend) : Bool := k.sentAt.any (fun a => a + ackTimeout ≤ s.now)

theorem sendLate_of_sentAt {s : State} {k : QpSend} {a : Nat} (ha : k.sentAt = some a) (hdue : a + 4190000 ≤ s.now) : sendLate s k = true := by
  have hover : a + ackTimeout ≤ s.now := hdue
  rw [sendLate, ha, Option.any_some, decide_eq_true hover]

/-- The rate of a slowed queue pair rises by an eighth of its port's rate, up to that rate. -/
theorem execCnpRateRecovery_due {t : Nat} {n : Fin 16384} {s : State} (hc : (advance s t).clocked = true) (hst : ((advance s t).qp n).st = .ready)
    (hslow : ((advance s t).qp n).rate < portRate (advance s t) ((advance s t).qp n).port * 1000)
    (hquiet : ((advance s t).qp n).lastCnp + usNs 55 ≤ (advance s t).now) :
    exec (.cnpRateRecovery t n) s = .next ((advance s t).updQp n (fun x =>
      { x with rate := min (portRate (advance s t) ((advance s t).qp n).port * 1000) (x.rate + portRate (advance s t) ((advance s t).qp n).port * 1000 / 8), lastCnp := (advance s t).now })) := by
  change execCnpRateRecovery t n s = _
  unfold execCnpRateRecovery
  exact timed_due (due := fun s => s.clocked && (s.qp n).st == .ready && (s.qp n).rate < portRate s (s.qp n).port * 1000 && (s.qp n).lastCnp + usNs 55 ≤ s.now)
    (by rw [hc, hst, decide_eq_true hslow, decide_eq_true hquiet]; rfl)

/-- Settles O40: acknowledgements, NAKs and timers act on the queue pair that they are for. -/
theorem roceEventsComplete : Obligations.RoceEventsComplete := by
  unfold Obligations.RoceEventsComplete
  refine ⟨?ack, ?nak, ?timeout, ?rnr, ?cnp, ?recovery⟩
  case ack =>
    intro q s w x r ha hr hn hst hm hce
    exact completes_of_exec (onSendAck_ready ha hr hn hst hm hce : execRoceAck q s = _) (State.updQp_qp w r.destQp.toNat (·.acked r.psn true))
  case nak =>
    intro q s w x r ha hr hn hst hm hce hsyn
    refine completes_of_exec (onSendAck_ready ha hr hn hst hm hce : execRoceNak q s = _) ?_
    simp only [hsyn, qpError_qp, and_self]
  case timeout =>
    rintro t n s u k a rfl hc hst hrnr hk ha hdue
    have hlate : ((advance s t).qp n).sends.any (sendLate (advance s t)) = true := List.any_eq_true.mpr ⟨k, hk, sendLate_of_sentAt ha hdue⟩
    refine completes_of_exec (timed_due (due := fun s => s.clocked && (s.qp n).st == .ready && (s.qp n).rnrUntil.isNone && (s.qp n).sends.any (sendLate s))
      (by simp only [hc, hst, hrnr, hlate, Option.isNone_none, beq_self_eq_true, Bool.and_self]) : execRoceAckTimeout t n s = _) ⟨fun hmany => ?_, fun hfew => ?_⟩
    · rw [if_pos (show _ ≥ retryMax from hmany), qpError_qp]
    · rw [if_neg (by exact Nat.not_le.mpr hfew), State.updQp_qp]
      exact ⟨hst, rfl, Qp.again_unsent _⟩
  case rnr =>
    rintro t a n s u rfl hc hrnr hdue hfew
    refine completes_of_exec (timed_due (by simp [hc, hrnr, hdue]) : execRnrRetryTimerExpiry t n s = _) ?_
    rw [if_neg (by exact Nat.not_le.mpr hfew), State.updQp_qp]
  case cnp =>
    intro q s w x r ha hr hn hst
    have hserved : (decide (r.destQp.toNat ≥ qpMax) || (w.qp r.destQp.toNat).st != .ready) = false := by simp [hst, hn]
    refine completes_of_exec (onFrame_arrival ha : execCnp q s = _) ?_
    simp only [hr, hserved, Bool.false_eq_true, if_false, State.updQp_qp]
  case recovery =>
    rintro t n s u rfl hc hst hslow hdue
    have hquiet : ((advance s t).qp n).lastCnp + usNs 55 ≤ (advance s t).now := hdue
    refine completes_of_exec (execCnpRateRecovery_due hc hst hslow hquiet) ?_
    simp only [State.updQp_qp, and_self]

end Sys2Proof.Machine
end

