-- ==== Sys2Proof/Proofs/LinkAndPtp.lean ====
section
/-!
PROOF. The link protocol, LLDP and training limits, and the PTP messages (11 R252 to R262; 07 R162 to R165).
-/

namespace Sys2Proof.Machine

open Sys2Proof

/-! ### Links -/

/-- A queued link control frame joins the port's. -/
theorem control_port (s : State) (q : Nat) (tag : LinkTag) : (control s q tag).port q = { s.port q with control := (s.port q).control ++ [tag] } :=
  State.updPort_port s q (fun p => { p with control := p.control ++ [tag] })

/-- A replay runs from the oldest frame that is not acknowledged. -/
theorem startReplay_port (s : State) (q : Nat) :
    (startReplay s q).port q = { s.port q with rp := (s.port q).oldest, timer := some (s.now + (s.port q).replayTimer), replays := (s.port q).replays + 1 } := by
  obtain ⟨c, h⟩ := bump_frame (s.updPort q (fun p => { p with rp := p.oldest, timer := some (s.now + p.replayTimer), replays := p.replays + 1 })) .port q 7 1
  rw [startReplay, h]
  exact State.updPort_port s q (fun p => { p with rp := p.oldest, timer := some (s.now + p.replayTimer), replays := p.replays + 1 })

/-- A refused negotiation changes neither what the port demands nor whether a start needs it. -/
theorem refuseNegotiation_demands (s : State) (q : Nat) :
    ((refuseNegotiation s q).port q).relMode = (s.port q).relMode ∧ ((refuseNegotiation s q).port q).required = (s.port q).required := by
  unfold refuseNegotiation
  split
  · obtain ⟨p, x, m, h⟩ := reportLink_frame s q .negotiating .negotiating 7
    rw [h, State.updPort_port]
    exact ⟨rfl, rfl⟩
  · rw [setLink_port]
    exact ⟨rfl, rfl⟩

theorem setQuad_st (s : State) (k : Nat) (st : QuadState) : ((setQuad s k st).quad k).st = st := by
  rw [setQuad, State.updQuad_quad]

/-- A quad that trains beyond its limit has passed it. -/
theorem trainLimitPassed_of_training {s : State} {k : Nat} (hst : (s.quad k).st = .training) (hdue : (s.quad k).configured + 2000000000 ≤ s.now) : trainLimitPassed s k = true := by
  have hover : (s.quad k).configured + secNs 2 ≤ s.now := hdue
  rw [trainLimitPassed, hst, decide_eq_true hover]
  rfl

/-- Settles O41: the link's frames and timers act on their port, and training has its limit. -/
theorem linkProtocolComplete : Obligations.LinkProtocolComplete := by
  unfold Obligations.LinkProtocolComplete
  refine ⟨?receive, ?down, ?init, ?ack, ?replay, ?lldp, ?lldpOut, ?negotiation, ?train, ?late⟩
  case receive =>
    rintro t q f s u rfl hc
    exact (timed_due hc : execLinkFrameReceive t q f s = _)
  case down =>
    rintro t q f s u rfl hc hlink
    refine (timed_due hc : execLinkFrameReceive t q f s = _).trans ?_
    obtain h | h := hlink
    · simp only [receiveFrame, h]
    · simp only [receiveFrame, h]
  case init =>
    rintro t q s u rfl hc hon hlast
    have hdue : ∀ a, ((advance s t).port q).lastInit = some a → a + usNs 1 ≤ (advance s t).now := hlast
    refine completes_of_exec (ticking_due hc ?_ : execInitSendTimer t q s = _) ?_
    · rw [hon, Bool.true_and]
      split
      · next a ha => exact decide_eq_true (hdue a ha)
      · rfl
    · rw [control_port, State.updPort_port]
  case ack =>
    rintro t a q s u rfl hc hlink howe hdue
    refine completes_of_exec (ticking_due hc (by simp [hlink, reached, howe, hdue]) : execAckDelayExpiry t q s = _) ?_
    rw [control_port, State.updPort_port]
  case replay =>
    rintro t a q s u rfl hc hlink hopen htimer hdue
    refine completes_of_exec (ticking_due hc (by simp [hlink, hopen, reached, htimer, hdue]) : execReplayTimerExpiry t q s = _) ?_
    rw [startReplay_port]
  case lldp =>
    intro q s w x l ha hbody
    refine (onFrame_arrival ha : execLldpdu q s = _).trans ?_
    rw [hbody]
  case lldpOut =>
    rintro t q s u rfl hc hcarries
    exact (timed_due (by simp [hc, hcarries]) : execLldpTransmitTimer t q s = _)
  case negotiation =>
    rintro t q s u rfl hc hlink hagrees hreported hdue hinsists
    have hover : ((advance s t).port q).since + msNs 500 ≤ (advance s t).now := hdue
    refine (ticking_due hc (by rw [hlink, hagrees, hreported, decide_eq_true hover]; rfl) : execNegotiationTimeout t q s = _).trans ?_
    obtain ⟨hmode, hrequired⟩ := refuseNegotiation_demands (advance s t) q
    dsimp only
    rw [hmode, hrequired, if_neg (by simpa using hinsists)]
  case train =>
    rintro t k s u rfl hc hst hdue hlate
    refine completes_of_exec (timed_due (by rw [hc, trainLimitPassed_of_training hst hdue]; rfl) : execTrainLimitExpiry t k s = _) ?_
    rw [hlate, if_pos hst]
    exact setQuad_st _ _ _
  case late =>
    rintro t q k s u l rfl hc hpassed hlate
    refine (timed_due (by rw [hc, hpassed]; rfl) : execTrainLimitExpiry t k s = _).trans ?_
    rw [hlate]

/-! ### PTP -/

/-- A PTP message that the part accepts acts. -/
theorem onPtp_accepted {s w : State} {q : Nat} {k : PtpKind} {act : State → Ptp → Int → State} {x : RxItem} {m : Ptp} (ha : arrival s q (isPtp k) = some (x, w))
    (hbody : x.frame.body = .ptp m) (hok : ptpAccepted w x.frame m = true) : onPtp s q k act = .next (act w m (ptpStamp w q x.stamp)) := by
  refine (onFrame_arrival ha).trans ?_
  simp only [hbody, hok, if_true]

/-- A sent message changes no measurement. -/
theorem sendPtp_ptp (s : State) (q : Nat) (x : Ptp) : (sendPtp s q x).ptp = s.ptp := by
  unfold sendPtp enqueue
  split
  · rfl
  · rfl

theorem sendPtp_ptpPort (s : State) (q : Nat) (x : Ptp) (j : Nat) : (sendPtp s q x).ptpPort j = s.ptpPort j := by
  rw [State.ptpPort, sendPtp_ptp, State.ptpPort]

/-- A heard Announce touches the port's measurement alone. -/
theorem hear_frame (s : State) (q : Nat) (x : Ptp) : ∃ p, hear s q x = { s with ptp := p } := by
  unfold hear
  dsimp only
  split
  · exact ⟨_, rfl⟩
  · exact ⟨_, rfl⟩

/-- Settles O42: each PTP message acts at a port in its role, and the part's own leave at their timers. -/
theorem ptpComplete : Obligations.PtpComplete := by
  unfold Obligations.PtpComplete
  refine ⟨?sync, ?followUp, ?delayReq, ?delayResp, ?pdelayReq, ?pdelayResp, ?pdelayFollowUp, ?heard, ?follows, ?other, ?syncOut, ?announceOut, ?delayOut, ?pdelayOut⟩
  case sync =>
    intro q s w x m ha hbody hok hreceives hparent
    refine (onPtp_accepted ha hbody hok : execSync q s = _).trans ?_
    rw [hreceives, hparent, if_neg (by decide)]
  case followUp =>
    intro q s w x m ha hbody hok hreceives hparent hseq
    refine (onPtp_accepted ha hbody hok : execFollowUp q s = _).trans ?_
    dsimp only
    rw [hreceives, hparent, hseq, beq_self_eq_true, if_pos (by rfl)]
  case delayReq =>
    intro q s w x m ha hbody hok htransmits
    refine (onPtp_accepted ha hbody hok : execDelayReq q s = _).trans ?_
    rw [if_pos htransmits]
  case delayResp =>
    intro q s w x m a ha hbody hok hsource htx hrequester hseq
    refine completes_of_exec (onPtp_accepted ha hbody hok : execDelayResp q s = _) ?_
    simp only [htx, hsource, hrequester, hseq, beq_self_eq_true, Bool.and_self, if_true, State.updPtp_ptpPort]
  case pdelayReq =>
    intro q s w x m ha hbody hok hrole
    refine (onPtp_accepted ha hbody hok : execPdelayReq q s = _).trans ?_
    rw [hrole, if_neg (by decide)]
  case pdelayResp =>
    intro q s w x m a ha hbody hok htx hrequester hseq hwait hone
    refine completes_of_exec (onPtp_accepted ha hbody hok : execPdelayResp q s = _) ?_
    simp only [htx, hrequester, hseq, hwait, hone, beq_self_eq_true, Bool.not_false, Bool.not_true, Bool.and_self, Bool.false_eq_true, if_false, peerDelayTaken, State.updPtp_ptpPort]
  case pdelayFollowUp =>
    intro q s w x m a ha hbody hok htx hrequester hseq hwait
    refine (onPtp_accepted ha hbody hok : execPdelayRespFollowUp q s = _).trans ?_
    simp only [htx, hrequester, hseq, hwait, beq_self_eq_true, Bool.and_self, if_true]
  case heard =>
    intro q s w x m ha hbody hok hloses
    refine (onPtp_accepted ha hbody hok : execAnnounce q s = _).trans ?_
    dsimp only
    rw [hloses, if_neg (by decide)]
  case follows =>
    intro q s w x m ha hbody hok hreceives hwins
    refine completes_of_exec (onPtp_accepted ha hbody hok : execAnnounce q s = _) ?_
    dsimp only
    rw [hreceives, hwins, if_pos (by rfl)]
    obtain ⟨p, h⟩ := hear_frame w q m
    rw [h]
    rfl
  case other =>
    intro q s w x ha
    exact (onFrame_arrival ha : execPtpManagementSignaling q s = _)
  case syncOut =>
    rintro t q s u rfl hc htransmits hdue
    exact (timed_due (by simp only [hc, htransmits, decide_eq_true hdue, Bool.and_self]) : execSyncTransmitTimer t q s = _)
  case announceOut =>
    rintro t q s u rfl hc htransmits hdue
    refine completes_of_exec (timed_due (by simp only [hc, htransmits, decide_eq_true hdue, Bool.and_self]) : execAnnounceTransmitTimer t q s = _) ?_
    simp only [sendPtp_ptpPort, State.updPtp_ptpPort, and_self]
  case delayOut =>
    rintro t q s u rfl hc hsource
    cases hpeer : Config.peerDelay q
    · refine completes_of_exec (timed_due (by simp only [hc, hsource, hpeer, Bool.not_false, Bool.and_self]) : execDelayReqTransmitTimer t q s = _) ?_
      simp only [Bool.false_eq_true, if_false, sendPtp_ptpPort, State.updPtp_ptpPort, and_self]
    · exact completes_of_exec (timed_idle (by simp only [hpeer, Bool.not_true, Bool.and_false]) : execDelayReqTransmitTimer t q s = _) (if_pos rfl |>.mpr rfl)
  case pdelayOut =>
    rintro t q s u rfl hc hrole hdue
    cases hpeer : Config.peerDelay q
    · exact completes_of_exec (timed_idle (by simp only [hpeer, Bool.and_false, Bool.false_and]) : execPdelayReqTimer t q s = _) (if_pos rfl |>.mpr rfl)
    · refine completes_of_exec (timed_due (by simp only [hc, hrole, hpeer, decide_eq_true hdue, Bool.and_self]) : execPdelayReqTimer t q s = _) ?_
      simp only [Bool.true_eq_false, if_false, sendPtp_ptpPort, State.updPtp_ptpPort, and_self]

end Sys2Proof.Machine
end

