-- ==== Sys2Proof/Proofs/Bundles.lean ====
section
/-!
PROOF. Bundles issue whole, and what the operations do that write a scalar, a predicate or an address register, or steer issue (04 R82, R84,
R88, R101).
-/

namespace Sys2Proof.Machine

open Sys2Proof

/-! ### Bundles that issue or stall -/

/-- Two functions that agree along a list agree on its members. -/
theorem apply_eq_of_mem {α β : Type} {l : List α} {f g : α → β} (h : l.map f = l.map g) {x : α} (hx : x ∈ l) : f x = g x := List.map_inj_left.mp h x hx

/-- A bundle that an overlay or an interlock holds changes nothing. -/
theorem issueBundle_of_held {s : State} {p n : Nat} {g : Sched} (hrun : runningOn s p = some (n, g))
    (hheld : overlaid (s.engine p) = true ∨ ∃ o ∈ bundleOps (s.engine p).bundle, o.held (s.engine p) = true) : issueBundle s p = s := by
  have hstalls : (overlaid (s.engine p) || (bundleOps (s.engine p).bundle).any (·.held (s.engine p))) = true := by
    rw [Bool.or_eq_true, List.any_eq_true]
    exact hheld
  unfold issueBundle
  dsimp only
  rw [hrun]
  simp only [hstalls, if_true]

/-- A row whose operation stands in a bundle that is held changes nothing. -/
theorem issueOp_of_held {s : State} {p n : Nat} {g : Sched} (op : Op) (hrun : runningOn s p = some (n, g))
    (hheld : overlaid (s.engine p) = true ∨ ∃ o ∈ bundleOps (s.engine p).bundle, o.held (s.engine p) = true) : issueOp s p op = .next s := by
  rw [issueOp, issueRow, issueBundle_of_held hrun hheld, ite_self]

/-- Settles O43: the rows of the operations are one row, that of the bundle that holds the operation. -/
theorem bundlesIssueWhole : Obligations.BundlesIssueWhole := by
  unfold Obligations.BundlesIssueWhole
  rintro p s x hx ⟨o, ho, hop⟩
  have hrow : exec x.1 s = issueOp s p x.2 := apply_eq_of_mem (f := fun x => exec x.1 s) (g := fun x => issueOp s p x.2) rfl hx
  refine ⟨fun n g hcan => ?_, fun n g hrun _ _ hheld => ?_⟩
  · rw [hrow, ← hop, issueOp_of_canIssue hcan ho]
  · rw [hrow, issueOp_of_held x.2 hrun hheld]

/-! ### An operation that stays within its engine -/

/-- The operations whose effect reaches beyond the engine. -/
def Op.reachesOut : Op → Bool
  | .signal | .syncReset | .done | .trace => true
  | _ => false

/-- An operation that does not reach out changes counters alone beyond its engine. -/
theorem Placed.outside_frame {o : Placed} (h : o.op.reachesOut = false) (s : State) (n : Nat) (g : Sched) (p : Nat) (e : Engine) :
    ∃ c, o.outside s n g p e = { s with counters := c } := by
  unfold Placed.outside
  dsimp only
  split
  case h_1 hop | h_2 hop | h_3 hop | h_4 hop =>
    rw [hop] at h
    cases h
  case h_5 => exact bump_frame s .schedule n 9 1
  case h_6 => exact ⟨_, rfl⟩

theorem Placed.effect_of_nop {o : Placed} (h : o.op = .nop) (s : State) (g : Sched) (p : Nat) (e0 e : Engine) : o.effect s g p e0 e = e := by
  simp [Placed.effect, vectorEffect, ctrlEffect, h]

/-- NOPs do nothing in the engine, so the bundle does there what its sole operation does. -/
theorem issuedEngine_of_soleOp {s : State} {p : Nat} {o : Placed} (g : Sched) (h : soleOp (s.engine p) = some o) :
    issuedEngine s p g = { o.effect s g p (s.engine p) (s.engine p) with loops := (flowOf (s.engine p)).1, pc := (flowOf (s.engine p)).2, lastIssue := s.now } := by
  have hskip : Placed.effect s g p (s.engine p) = fun e o => if o.op != .nop then o.effect s g p (s.engine p) e else e := by
    funext e o
    by_cases hop : o.op = .nop
    · simp [hop, Placed.effect_of_nop hop]
    · simp [hop]
  rw [issuedEngine]
  dsimp only
  rw [hskip, ← List.foldl_filter, filter_effective_of_soleOp h, List.foldl_cons, List.foldl_nil, ← hskip]

/-- A state that differs in one engine and in counters. -/
theorem onlyEngine_updEngine (s : State) (p : Nat) (e : Engine) (c : Tab CounterBlk) :
    OnlyEngine s { s.updEngine p (fun _ => { e with loops := (flowOf (s.engine p)).1, pc := (flowOf (s.engine p)).2, lastIssue := s.now }) with counters := c } p e := by
  generalize hf : (fun _ : Engine => { e with loops := (flowOf (s.engine p)).1, pc := (flowOf (s.engine p)).2, lastIssue := s.now }) = f
  refine ⟨rfl, fun k hk => (State.updEngine_engine_other s f hk : _), (State.updEngine_engine s p f).trans ?_⟩
  rw [← hf]

/-- The row of an operation that issues alone and does not reach out has its effect on its engine, and no other. -/
theorem completes_onlyEngine {i : Instr} {p : Nat} {s : State} {n : Nat} {g : Sched} {o : Placed} {e : Engine} {P : State → Prop}
    (h : issuesAlone s p = some (n, g, o)) (hrow : exec i s = issueOp s p o.op) (hin : o.op.reachesOut = false)
    (heffect : o.effect s g p (s.engine p) (s.engine p) = e) (hp : ∀ t, OnlyEngine s t p e → P t) : Completes i s P := by
  obtain ⟨hcan, hsole, hpc⟩ := issuesAlone_parts h
  obtain ⟨c, happly⟩ := applyBundle_of_soleOp (n := n) (g := g) hsole hpc
  obtain ⟨d, hout⟩ := Placed.outside_frame hin (s.updEngine p (fun _ => issuedEngine s p g)) n g p (s.engine p)
  refine completes_of_exec (hrow.trans (issueOp_of_canIssue hcan (soleOp_mem hsole))) (hp _ ?_)
  rw [happly, hout, issuedEngine_of_soleOp g hsole, heffect]
  exact onlyEngine_updEngine s p e c

/-- The engine after a bundle that acts on it alone. -/
theorem OnlyEngine.engine_eq {s t : State} {p : Nat} {e : Engine} (h : OnlyEngine s t p e) :
    t.engine p = { e with loops := (flowOf (s.engine p)).1, pc := (flowOf (s.engine p)).2, lastIssue := s.now } := h.2.2

/-- A list of rows with their operations, none of which reaches out: a row that issues alone has its operation's effect on its engine. -/
theorem completes_of_row {α : Type} {l : List (Instr × Op × α)} {x : Instr × Op × α} {p : Nat} {s : State} {n : Nat} {g : Sched} {o : Placed} {P : State → Prop}
    (w : Instr × Op × α → Engine) (h : issuesAlone s p = some (n, g, o)) (hx : x ∈ l) (hop : o.op = x.2.1)
    (hrow : l.map (fun x => exec x.1 s) = l.map (fun x => issueOp s p x.2.1)) (hin : l.map (fun x => x.2.1.reachesOut) = l.map (fun _ => false))
    (heffect : l.map (fun x => (⟨x.2.1, o.x⟩ : Placed).effect s g p (s.engine p) (s.engine p)) = l.map w) (hp : ∀ t, OnlyEngine s t p (w x) → P t) :
    Completes x.1 s P := by
  have hplaced : o = ⟨x.2.1, o.x⟩ := by rw [← hop]
  exact completes_onlyEngine h (by rw [hop, apply_eq_of_mem hrow hx]) (by rw [hop, apply_eq_of_mem hin hx]) (by rw [hplaced, apply_eq_of_mem heffect hx]) hp

/-! ### Registers -/

section Registers
variable (e : Engine) (i : Nat)

theorem Engine.s_zero : e.s 0 = 0 := if_pos rfl

theorem Engine.setS_s_same {i : Nat} (v : BitVec 64) (h : i ≠ 0) : (e.setS i v).s i = v := by
  rw [Engine.setS, if_neg h, Engine.s, if_neg h]
  exact tgetD_tput_same _ _ _ _

theorem Engine.setS_s_other {i r : Nat} (v : BitVec 64) (h : r ≠ i) : (e.setS i v).s r = e.s r := by
  unfold Engine.setS
  split
  · rfl
  · rw [Engine.s, Engine.s]
    exact congrArg _ (tgetD_tput_other e.sregs 0 v h)

theorem Engine.p_zero : e.p 0 = true := rfl

theorem Engine.setP_p_same {i : Nat} (v : Bool) (h : i ≠ 0) : (e.setP i v).p i = v := by
  have h0 : (i == 0) = false := beq_false_of_ne h
  rw [Engine.setP, if_neg h, Engine.p, h0, Bool.false_or]
  exact tgetD_tput_same _ _ _ _

theorem Engine.setP_p_other {i r : Nat} (v : Bool) (h : r ≠ i) : (e.setP i v).p r = e.p r := by
  unfold Engine.setP
  split
  · rfl
  · exact congrArg (r == 0 || ·) (tgetD_tput_other e.preds false v h)

theorem Engine.setA_a_same (v : AReg) : (e.setA i v).a i = v := tgetD_tput_same e.aregs {} i v

theorem Engine.setA_a_other {i r : Nat} (v : AReg) (h : r ≠ i) : (e.setA i v).a r = e.a r := tgetD_tput_other e.aregs {} v h

theorem Engine.setV_v_same (l : List F32) : (e.setV i l).v i = l := tgetD_tput_same e.vregs _ i l

theorem Engine.setV_v_other {i r : Nat} (l : List F32) (h : r ≠ i) : (e.setV i l).v r = e.v r := tgetD_tput_other e.vregs _ l h

end Registers

/-- Settles O44: an operation on scalars writes its s register alone. -/
theorem scalarResults : Obligations.ScalarResults := by
  unfold Obligations.ScalarResults
  intro p s n g o h x hx hop
  refine completes_of_row (fun x => (s.engine p).setS o.x.d (x.2.2 (s.engine p) o.x)) h hx hop rfl rfl rfl fun t ht => ?_
  rw [ht.engine_eq]
  exact ⟨ht, Engine.s_zero _, fun hd => Engine.setS_s_same (s.engine p) _ hd, fun r hr => Engine.setS_s_other (s.engine p) _ hr⟩

/-- Settles O45: comparisons write a predicate alone, address operations an a register. -/
theorem predicateAndAddressResults : Obligations.PredicateAndAddressResults := by
  unfold Obligations.PredicateAndAddressResults
  intro p s n g o h
  refine ⟨fun x hx hop => ?predicate, fun x hx hop => ?address⟩
  case predicate =>
    refine completes_of_row (fun x => (s.engine p).setP o.x.d (x.2.2 (s.engine p) o.x)) h hx hop rfl rfl rfl fun t ht => ?_
    rw [ht.engine_eq]
    exact ⟨ht, Engine.p_zero _, fun hd => Engine.setP_p_same (s.engine p) _ hd, fun r hr => Engine.setP_p_other (s.engine p) _ hr⟩
  case address =>
    refine completes_of_row (fun x => (s.engine p).setA o.x.d (x.2.2 (s.engine p) o.x)) h hx hop rfl rfl rfl fun t ht => ?_
    rw [ht.engine_eq]
    exact ⟨ht, Engine.setA_a_same (s.engine p) _ _, fun r hr => Engine.setA_a_other (s.engine p) _ hr⟩

/-! ### Control flow -/

/-- The operations that say where issue goes on. -/
def Op.steers : Op → Bool
  | .br | .loop => true
  | _ => false

theorem moverOp_steers (c : Nat) : ((moverOp c).getD .nop).steers = false := by
  unfold moverOp
  split <;> rfl

theorem prismOp_steers (c : Nat) : ((prismOp c).getD .nop).steers = false := by
  unfold prismOp
  split <;> rfl

theorem vectorOp_steers (c : Nat) : ((vectorOp c).getD .nop).steers = false := by
  unfold vectorOp
  split <;> rfl

/-- The operation of another slot than the control slot steers nothing. -/
theorem opOf_steers {k c : Nat} (h : ((opOf k c).getD .nop).steers = true) : k = 0 := by
  match k with
  | 0 => rfl
  | 1 => exact absurd ((moverOp_steers c).symm.trans h) (by decide)
  | 2 => exact absurd ((prismOp_steers c).symm.trans h) (by decide)
  | _ + 3 => exact absurd ((vectorOp_steers c).symm.trans h) (by decide)

/-- BR and LOOP stand in the control slot, the first of their bundle. -/
theorem head?_bundleOps_of_steers {w : BitVec 512} {o : Placed} (ho : o ∈ bundleOps w) (h : o.op.steers = true) : (bundleOps w).head? = some o := by
  obtain ⟨k, -, rfl⟩ := List.mem_map.mp ho
  rw [opOf_steers h]
  rfl

/-- The sole operation is enabled. -/
theorem enabled_of_soleOp {e : Engine} {o : Placed} (h : soleOp e = some o) : o.enabled e = true := by
  have hmem : o ∈ (effective e (bundleOps e.bundle)).filter (fun o => o.op != .nop) := by
    simp [filter_effective_of_soleOp h]
  exact (List.mem_filter.mp (List.mem_filter.mp hmem).1).2

/-- A sole BR or LOOP says where its bundle goes on. -/
theorem flowOf_of_steers {e : Engine} {o : Placed} (hsole : soleOp e = some o) (h : o.op.steers = true) : flowOf e = flow e o := by
  rw [flowOf, head?_bundleOps_of_steers (soleOp_mem hsole) h]
  rfl

theorem flow_br {e : Engine} {o : Placed} (hon : o.enabled e = true) (hop : o.op = .br) :
    flow e o = (loopKeep (brTarget e o.x).toNat e.loops, (brTarget e o.x).toNat) := by
  simp only [flow, hon, hop, Bool.not_true, Bool.false_eq_true, if_false]

theorem flow_loop {e : Engine} {o : Placed} (hon : o.enabled e = true) (hop : o.op = .loop) :
    flow e o = if loopCount e o.x = 0 then loopNext (e.pc + o.x.imm) e.loops
      else ({ first := e.pc + 1, last := e.pc + o.x.imm, remaining := loopCount e o.x } :: e.loops, e.pc + 1) := by
  simp only [flow, hon, hop, Bool.not_true, Bool.false_eq_true, if_false]

/-- A fold whose steps change nothing. -/
theorem foldl_eq_self {α β : Type} {f : α → β → α} {l : List β} {a : α} (h : ∀ b ∈ l, f a b = a) : l.foldl f a = a := by
  induction l with
  | nil => rfl
  | cons b l ih =>
    rw [List.foldl_cons, h b List.mem_cons_self]
    exact ih fun c hc => h c (List.mem_cons_of_mem _ hc)

/-- A bundle of NOPs only moves the pc. -/
theorem applyBundle_of_nops {s : State} {p n : Nat} {g : Sched} (hnop : ∀ o ∈ bundleOps (s.engine p).bundle, o.op = .nop)
    (hpc : (flowOf (s.engine p)).2 < imemSize) : OnlyEngine s (applyBundle s p n g (bundleOps (s.engine p).bundle)) p (s.engine p) := by
  have hon : ∀ o ∈ effective (s.engine p) (bundleOps (s.engine p).bundle), o.op = .nop := fun o ho => hnop o (mem_of_mem_effective ho)
  have hstay : ¬ (flow (s.engine p) (((bundleOps (s.engine p).bundle).head?).getD { op := .nop, x := slotOf 0 })).2 ≥ imemSize := Nat.not_le.mpr hpc
  have hengine : (effective (s.engine p) (bundleOps (s.engine p).bundle)).foldl (Placed.effect s g p (s.engine p)) (s.engine p) = s.engine p :=
    foldl_eq_self fun o ho => Placed.effect_of_nop (hon o ho) s g p (s.engine p) (s.engine p)
  have houtside (u : State) : (effective (s.engine p) (bundleOps (s.engine p).bundle)).foldl (fun v o => o.outside v n g p (s.engine p)) u = u :=
    foldl_eq_self fun o ho => Placed.outside_of_nop (hon o ho) u n g p (s.engine p)
  have hvector : (effective (s.engine p) (bundleOps (s.engine p).bundle)).any (·.op.isVector) = false :=
    List.any_eq_false.mpr fun o ho => by rw [hon o ho]; decide
  simp only [applyBundle, hengine, houtside, hvector, hstay, decide_false, Bool.false_and, Bool.false_eq_true, if_false]
  obtain ⟨c, hcounted⟩ := bump_frame_of_frame (bump_frame (s.updEngine p (fun _ => issuedEngine s p g)) .engine p 0 1) .schedule n 0 1
  have hissued : issuedEngine s p g = { s.engine p with loops := (flowOf (s.engine p)).1, pc := (flowOf (s.engine p)).2, lastIssue := s.now } := by
    rw [issuedEngine, hengine]
  rw [hissued] at hcounted
  exact hcounted ▸ onlyEngine_updEngine s p (s.engine p) c

/-- Settles O46: waits, HALT, OVL, BR and LOOP act on their engine, and BR and LOOP steer it. -/
theorem controlFlowResults : Obligations.ControlFlowResults := by
  unfold Obligations.ControlFlowResults
  refine ⟨fun p s n g hcan hnop hpc => ?nops, fun p s n g o h => ⟨fun x hx hop => ?waits, fun hop => ?halt, fun hop => ?ovl, fun hop => ?br, fun hop => ?loop⟩⟩
  case nops =>
    obtain ⟨o, ho⟩ : ∃ o, o ∈ bundleOps (s.engine p).bundle := ⟨_, List.mem_map_of_mem (List.mem_range.mpr (by decide : 0 < 4))⟩
    have hrow := issueOp_of_canIssue hcan ho
    rw [hnop o ho] at hrow
    exact completes_of_exec (hrow : execOpNop p s = _) (applyBundle_of_nops hnop hpc)
  case waits =>
    have hplaced : o = ⟨x.2, o.x⟩ := by rw [← hop]
    refine completes_onlyEngine h (by rw [hop]; exact apply_eq_of_mem (f := fun x => exec x.1 s) (g := fun x => issueOp s p x.2) rfl hx)
      (by rw [hop]; exact apply_eq_of_mem (f := fun x => x.2.reachesOut) (g := fun _ => false) rfl hx) ?_ fun t ht => ht
    rw [hplaced]
    exact apply_eq_of_mem (f := fun x => (⟨x.2, o.x⟩ : Placed).effect s g p (s.engine p) (s.engine p)) (g := fun _ => s.engine p) rfl hx
  case halt =>
    exact completes_onlyEngine h (by rw [hop]; rfl) (by rw [hop]; rfl) (by simp only [Placed.effect, vectorEffect, ctrlEffect, hop]) fun t ht => ht
  case ovl =>
    exact completes_onlyEngine h (by rw [hop]; rfl) (by rw [hop]; rfl) (by simp only [Placed.effect, vectorEffect, ctrlEffect, hop]) fun t ht => ht
  case br =>
    obtain ⟨-, hsole, -⟩ := issuesAlone_parts h
    refine completes_onlyEngine h (by rw [hop]; rfl) (by rw [hop]; rfl) (by simp only [Placed.effect, vectorEffect, ctrlEffect, hop]) fun t ht => ⟨ht, ?_⟩
    rw [ht.engine_eq, flowOf_of_steers hsole (by rw [hop]; rfl), flow_br (enabled_of_soleOp hsole) hop]
  case loop =>
    obtain ⟨-, hsole, -⟩ := issuesAlone_parts h
    refine completes_onlyEngine h (by rw [hop]; rfl) (by rw [hop]; rfl) (by simp only [Placed.effect, vectorEffect, ctrlEffect, hop]) fun t ht => ⟨ht, fun hcount => ?_, fun hcount hloops => ?_⟩
    · rw [ht.engine_eq, flowOf_of_steers hsole (by rw [hop]; rfl), flow_loop (enabled_of_soleOp hsole) hop, if_neg hcount]
      exact ⟨rfl, rfl⟩
    · rw [ht.engine_eq, flowOf_of_steers hsole (by rw [hop]; rfl), flow_loop (enabled_of_soleOp hsole) hop, if_pos hcount, hloops]
      exact ⟨rfl, rfl⟩

end Sys2Proof.Machine
end

