-- ==== Sys2Proof/Proofs/VectorAndStore.lean ====
section
/-!
PROOF. The operations that write a v register, the store, query rows, accumulators or a queue of their engine (04 R84, R89, R96, R97, R100).
-/

namespace Sys2Proof.Machine

open Sys2Proof

/-- Cleared accumulator entries read +0. -/
theorem Engine.accClear_acc (e : Engine) {x n i : Nat} (hlo : x ≤ i) (hhi : i < x + n) : tgetD (e.accClear x n).acc 0 i = 0 := by
  have hcleared : (!(decide (x ≤ i) && decide (i < x + n))) = false := by simp [hlo, hhi]
  have hget : tget? (e.accClear x n).acc i = none :=
    (tget?_filter e.acc (fun k => !(decide (x ≤ k) && decide (k < x + n))) i).trans (by rw [hcleared]; rfl)
  rw [tgetD, hget]
  rfl

/-- A rounding operation takes a counter. -/
theorem Engine.takeCounter_eq (e : Engine) (d : Nat) : (if d = 1 then { e with roundCtr := e.roundCtr + 1 } else e) = { e with roundCtr := e.roundCtr + (if d = 1 then 1 else 0) } := by
  split <;> rfl

section Effects
variable {s : State} {g : Sched} {p : Nat} {e : Engine} {o : Placed}

theorem effect_sts (hop : o.op = .sts) : o.effect s g p e e = e.save (e.storeAddr o.x.a o.x.imm) (natLe (e.s o.x.b).toNat 8) := by
  simp only [Placed.effect, vectorEffect, ctrlEffect, hop]

theorem effect_vst (hop : o.op = .vst) : o.effect s g p e e =
    { e.save (e.storeAddr o.x.a o.x.imm) (packLanes (o.x.d == 1) (roundKey g) p e.roundCtr o.x.c (e.v o.x.b)) with roundCtr := e.roundCtr + (if o.x.d = 1 then 1 else 0) } := by
  simp only [Placed.effect, vectorEffect, ctrlEffect, hop]
  exact Engine.takeCounter_eq _ _

theorem effect_vmovq (hop : o.op = .vmovq) : o.effect s g p e e =
    { e.loadRow o.x.d (fmtBytes o.x.c o.x.imm) (packLanes (o.x.b == 1) (roundKey g) p e.roundCtr o.x.c (e.v o.x.a)) with roundCtr := e.roundCtr + (if o.x.b = 1 then 1 else 0) } := by
  simp only [Placed.effect, vectorEffect, ctrlEffect, hop]
  exact Engine.takeCounter_eq _ _

theorem effect_prClr (hop : o.op = .prClr) : o.effect s g p e e = e.accClear o.x.x o.x.imm := by
  simp only [Placed.effect, prismEffect, hop]

end Effects

/-- Settles O47: each operation writes what it names in its engine, and nothing else. -/
theorem vectorAndStoreResults : Obligations.VectorAndStoreResults := by
  unfold Obligations.VectorAndStoreResults
  intro p s n g o h
  refine ⟨fun x hx hop => ?vector, fun hop => ?sts, fun hop => ?vst, fun hop => ?vaccw, fun hop => ?vmovq, fun hop => ?prQload, fun hop => ?prClr, fun hop => ?prPass,
    fun hop => ?mvIssue, fun hop => ?mvIssuex⟩
  case vector =>
    refine completes_of_row (fun x => (s.engine p).setV o.x.d (x.2.2 (s.engine p) o.x)) h hx hop rfl rfl ?_ fun t ht => ?_
    · simp only [List.map_cons, List.map_nil, Placed.effect, vectorEffect, ctrlEffect, Engine.lanes2, Engine.lanes1, lanes]
    rw [ht.engine_eq]
    exact ⟨ht, Engine.setV_v_same (s.engine p) _ _, fun r hr => Engine.setV_v_other (s.engine p) _ hr⟩
  case sts =>
    refine completes_onlyEngine h (by rw [hop]; rfl) (by rw [hop]; rfl) (effect_sts hop) fun t ht => ?_
    have hlen : (natLe ((s.engine p).s o.x.b).toNat 8).length = 8 := length_natLe _ _
    rw [ht.engine_eq]
    refine ⟨ht, fun a ha => mread_mwriteN_other _ _ (by rw [hlen]; exact ha), ?_⟩
    calc mreadN (mwriteN (s.engine p).store ((s.engine p).storeAddr o.x.a o.x.imm) (natLe ((s.engine p).s o.x.b).toNat 8)) ((s.engine p).storeAddr o.x.a o.x.imm) 8
        = mreadN (mwriteN (s.engine p).store ((s.engine p).storeAddr o.x.a o.x.imm) (natLe ((s.engine p).s o.x.b).toNat 8)) ((s.engine p).storeAddr o.x.a o.x.imm)
            (natLe ((s.engine p).s o.x.b).toNat 8).length := by rw [hlen]
      _ = natLe ((s.engine p).s o.x.b).toNat 8 := mreadN_mwriteN _ _ _
  case vst =>
    refine completes_onlyEngine h (by rw [hop]; rfl) (by rw [hop]; rfl) (effect_vst hop) fun t ht => ⟨ht, fun a ha => ?_⟩
    rw [ht.engine_eq]
    exact mread_mwriteN_other _ _ ha
  case vaccw => exact completes_onlyEngine h (by rw [hop]; rfl) (by rw [hop]; rfl) (by simp only [Placed.effect, vectorEffect, ctrlEffect, hop]) fun t ht => ht
  case vmovq => exact completes_onlyEngine h (by rw [hop]; rfl) (by rw [hop]; rfl) (effect_vmovq hop) fun t ht => ht
  case prQload => exact completes_onlyEngine h (by rw [hop]; rfl) (by rw [hop]; rfl) (by simp only [Placed.effect, prismEffect, hop]) fun t ht => ht
  case prClr =>
    refine completes_onlyEngine h (by rw [hop]; rfl) (by rw [hop]; rfl) (effect_prClr hop) fun t ht => ⟨ht, fun i hlo hhi => ?_⟩
    rw [ht.engine_eq]
    exact Engine.accClear_acc _ hlo hhi
  case prPass => exact completes_onlyEngine h (by rw [hop]; rfl) (by rw [hop]; rfl) (by simp only [Placed.effect, prismEffect, hop]) fun t ht => ht
  case mvIssue => exact completes_onlyEngine h (by rw [hop]; rfl) (by rw [hop]; rfl) (by simp only [Placed.effect, hop]) fun t ht => ht
  case mvIssuex => exact completes_onlyEngine h (by rw [hop]; rfl) (by rw [hop]; rfl) (by simp only [Placed.effect, hop]) fun t ht => ht

end Sys2Proof.Machine
end

