-- ==== Sys2Proof/Proofs/EngineReach.lean ====
section
/-!
PROOF. Operations that reach beyond their engine, and the completions of overlays, movers, passes and walks (04 R93, R99, R101; 06 R140, R151
to R155; 07 R185, R190).
-/

namespace Sys2Proof.Machine

open Sys2Proof

/-! ### Operations that reach out -/

/-- The engine of a bundle that acts beyond it alone. -/
def Engine.moved (e : Engine) (now : Nat) : Engine := { e with loops := (flowOf e).1, pc := (flowOf e).2, lastIssue := now }

/-- The row of an operation that issues alone and leaves its engine: its effect beyond the engine, and no other but counts. -/
theorem completes_outside {i : Instr} {p : Nat} {s : State} {n : Nat} {g : Sched} {o : Placed} {P : State → Prop} (h : issuesAlone s p = some (n, g, o))
    (hrow : exec i s = issueOp s p o.op) (heffect : o.effect s g p (s.engine p) (s.engine p) = s.engine p)
    (hp : ∀ c, P { o.outside (s.updEngine p (fun e => e.moved s.now)) n g p (s.engine p) with counters := c }) : Completes i s P := by
  obtain ⟨hcan, hsole, hpc⟩ := issuesAlone_parts h
  obtain ⟨c, happly⟩ := applyBundle_of_soleOp (n := n) (g := g) hsole hpc
  refine completes_of_exec (hrow.trans (issueOp_of_canIssue hcan (soleOp_mem hsole))) ?_
  rw [happly, issuedEngine_of_soleOp g hsole, heffect]
  exact hp c

theorem syncSignal_engines (s : State) (i n : Nat) : (syncSignal s i n).engines = s.engines := by
  rw [syncSignal_eq]
  cases (s.syncObj i).saturatedOwner n with
  | none => rfl
  | some c =>
    rw [Option.elim_some]
    obtain ⟨b, h⟩ := bump_frame ((s.updSync i (·.signalled n)).updCtx c Ctx.saturated) .context c 13 1
    rw [h]
    rfl

/-- A maximum counted changes counters alone. -/
theorem bumpMax_frame (s : State) (b : Group) (i idx n : Nat) : ∃ c, bumpMax s b i idx n = { s with counters := c } := by
  unfold bumpMax
  split
  · exact ⟨_, rfl⟩
  · split
    · exact ⟨_, rfl⟩
    · exact ⟨_, rfl⟩

theorem bump_engines (s : State) (b : Group) (i idx n : Nat) : (bump s b i idx n).engines = s.engines := by
  obtain ⟨c, h⟩ := bump_frame s b i idx n
  rw [h]

theorem bumpMax_engines (s : State) (b : Group) (i idx n : Nat) : (bumpMax s b i idx n).engines = s.engines := by
  obtain ⟨c, h⟩ := bumpMax_frame s b i idx n
  rw [h]

theorem State.updSched_engines (s : State) (n : Nat) (f : Sched → Sched) : (s.updSched n f).engines = s.engines := by
  obtain ⟨x, h⟩ := State.updSched_frame s n f
  rw [h]

theorem postCtx_engines (s : State) (c code ty id : Nat) (d : Bytes) (st : Nat) : (postCtx s c code ty id d st).engines = s.engines := by
  obtain ⟨p, x, h⟩ := postCtx_frame s c code ty id d st
  rw [h]

theorem trace_engines (s : State) (type unit : Nat) (ctx : Option Nat) (time : Nat) (d : Bytes) : (trace s type unit ctx time d).engines = s.engines := by
  obtain ⟨p, x, m, h⟩ := trace_frame s type unit ctx time d
  rw [h]

/-- A late occurrence is noticed without the engines. -/
theorem reportLate_engines (s : State) (n p i k late : Nat) (stopped : Bool) : (reportLate s n p i k late stopped).engines = s.engines := by
  unfold reportLate
  split
  · rfl
  · dsimp only
    split
    · simp only [trace_engines, State.updSched_engines, bump_engines, bumpMax_engines]
    · simp only [postCtx_engines, trace_engines, State.updSched_engines, bump_engines, bumpMax_engines]

/-- The engine of paddock `p` without the open occurrence `k` of a trigger. -/
def State.withoutOcc (s : State) (p i k : Nat) : State :=
  s.updEngine p (fun e => { e with triggers := tupd e.triggers {} i (fun o => { o with open_ := o.open_.filter (fun x => x.1 != k) }) })

theorem State.withoutOcc_k (s : State) (p i k : Nat) : (tgetD ((s.withoutOcc p i k).engine p).triggers {} i).k = (tgetD (s.engine p).triggers {} i).k := by
  rw [State.withoutOcc, State.updEngine_engine, tgetD_tupd_same]

/-- The end of an occurrence removes it from the engine's, and changes no engine else. -/
theorem endOccurrence_engines (s : State) (p i k : Nat) : (endOccurrence s p i k).engines = (s.withoutOcc p i k).engines := by
  unfold endOccurrence
  dsimp only
  rw [← State.withoutOcc]
  split
  · rfl
  · split
    · rfl
    · split
      · split
        · rw [reportLate_engines, bump_engines]
        · rw [bump_engines]
      · rw [bump_engines]

theorem endOccurrence_k (s : State) (p i k : Nat) : (tgetD ((endOccurrence s p i k).engine p).triggers {} i).k = (tgetD (s.engine p).triggers {} i).k := by
  rw [State.engine, endOccurrence_engines, ← State.engine, State.withoutOcc_k]

/-- DONE makes the next occurrence current. -/
theorem doneStep_k (s : State) (p i : Nat) : (tgetD ((doneStep s p i).engine p).triggers {} i).k = (tgetD (s.engine p).triggers {} i).k + 1 := by
  unfold doneStep
  dsimp only
  split
  · rw [State.updEngine_engine, tgetD_tupd_same]
  · rw [endOccurrence_k, State.updEngine_engine, tgetD_tupd_same]

/-! ### Overlays -/

/-- Entries put one after the other at `b` and on. -/
theorem tgetD_foldl_tput {α : Type} (d : α) (b : Nat) (v : Nat → α) (l : List Nat) (t : Tab α) (a : Nat) :
    tgetD (l.foldl (fun t i => tput t (b + i) (v i)) t) d a = if b ≤ a ∧ a - b ∈ l then v (a - b) else tgetD t d a := by
  induction l generalizing t with
  | nil => simp
  | cons i r ih =>
    rw [List.foldl_cons, ih]
    by_cases hai : a = b + i
    · subst hai
      simp
    · rw [tgetD_tput_other _ _ _ hai]
      have hiff : (b ≤ a ∧ a - b ∈ i :: r) ↔ (b ≤ a ∧ a - b ∈ r) := by
        rw [List.mem_cons]
        constructor
        · rintro ⟨hle, heq | hmem⟩
          · omega
          · exact ⟨hle, hmem⟩
        · rintro ⟨hle, hmem⟩
          exact ⟨hle, .inr hmem⟩
      simp only [hiff]

/-- The bundles of an overlay stand at its target, and the others as they were. -/
theorem tgetD_placeBundles (m : Tab (BitVec 512)) (o : Overlay) (b : Bytes) (a : Nat) :
    tgetD (placeBundles m o b) 0 a = if o.target ≤ a ∧ a < o.target + o.count then BitVec.ofNat 512 (field b (64 * (a - o.target)) 64) else tgetD m 0 a := by
  have hiff : (o.target ≤ a ∧ a - o.target ∈ rangeFrom 0 o.count) ↔ (o.target ≤ a ∧ a < o.target + o.count) := by
    rw [mem_rangeFrom]
    omega
  rw [placeBundles, foldRange, tgetD_foldl_tput]
  simp only [hiff]

/-! ### The obligation -/

/-- A walk's row whose mode stands in a bundle that can issue issues the bundle. -/
theorem issueLens_of_canIssue {s : State} {p n : Nat} {g : Sched} {o : Placed} {mode : Nat} (h : canIssue s p = some (n, g)) (ho : o ∈ bundleOps (s.engine p).bundle)
    (hop : o.op = .prLens) (hmode : (walkOf (lensDesc (s.engine p) o)).mode = mode) : issueLens s p mode = .next (applyBundle s p n g (bundleOps (s.engine p).bundle)) := by
  obtain ⟨hclocked, hissuing, hbundle⟩ := issueBundle_of_canIssue h
  have hany : (bundleOps (s.engine p).bundle).any (fun o => o.op == .prLens && (let m := (walkOf (lensDesc (s.engine p) o)).mode; m == mode || (mode == 0 && m > 3))) = true :=
    List.any_eq_true.mpr ⟨o, ho, by simp [hop, hmode]⟩
  simp only [issueLens, issueRow, hclocked, hissuing, hany, hbundle, Bool.and_self, if_true]

/-- Settles O48: signals, walks and completions reach what they name. -/
theorem engineReachesOut : Obligations.EngineReachesOut := by
  unfold Obligations.EngineReachesOut
  refine ⟨fun p s n g o h => ⟨fun hop => ?signal, fun hop => ?reset, fun hop => ?done, fun hop => ?trace⟩, fun p s n g o hcan ho hop x hx hmode => ?lens, ?overlay, ?mover, ?pass, ?walk⟩
  case signal =>
    refine completes_outside h (by rw [hop]; rfl) (by simp only [Placed.effect, vectorEffect, ctrlEffect, hop]) fun c => ?_
    have hout (u : State) : o.outside u n g p (s.engine p) = syncSignal u o.x.x o.x.imm := by simp only [Placed.outside, hop]
    rw [hout]
    have hobj (i : Nat) : (syncSignal (s.updEngine p (fun e => e.moved s.now)) o.x.x o.x.imm).syncObj i = (s.updSync o.x.x (·.signalled o.x.imm)).syncObj i := by
      rw [← syncSignal_syncObj, State.syncObj, syncSignal_updEngine_sync, State.syncObj]
    refine ⟨?_, fun i hi => ?_, ?_⟩
    · refine (congrArg (fun x => x.value.toNat) (hobj o.x.x)).trans ?_
      rw [State.updSync_syncObj, SyncObj.signalled_toNat]
    · exact (hobj i).trans (State.updSync_syncObj_other s _ hi)
    · refine (congrArg (fun t => tgetD t {} p.val) (syncSignal_engines (s.updEngine p (fun e => e.moved s.now)) o.x.x o.x.imm)).trans ?_
      exact State.updEngine_engine s p (fun e => e.moved s.now)
  case reset =>
    obtain ⟨t, hexec, hsync⟩ := opSyncReset_completes h hop
    have hobj (i : Nat) : t.syncObj i = (syncReset s o.x.x).syncObj i := by rw [State.syncObj, hsync, State.syncObj]
    refine completes_of_exec hexec ⟨?_, fun i hi => ?_⟩
    · rw [hobj, syncReset, State.updSync_syncObj]
    · rw [hobj, syncReset, State.updSync_syncObj_other s _ hi]
  case done =>
    refine completes_outside h (by rw [hop]; rfl) (by simp only [Placed.effect, vectorEffect, ctrlEffect, hop]) fun c => ?_
    have hout (u : State) : o.outside u n g p (s.engine p) = doneStep u p o.x.x := by simp only [Placed.outside, hop]
    rw [hout]
    refine (doneStep_k (s.updEngine p (fun e => e.moved s.now)) p o.x.x).trans ?_
    rw [State.updEngine_engine]
    rfl
  case trace =>
    refine completes_outside h (by rw [hop]; rfl) (by simp only [Placed.effect, vectorEffect, ctrlEffect, hop]) fun c => ?_
    simp only [Placed.outside, hop]
    exact trace_engines _ _ _ _ _ _
  case lens =>
    have hrow : exec x.1 s = issueLens s p x.2 := apply_eq_of_mem (f := fun x => exec x.1 s) (g := fun x => issueLens s p x.2) rfl hx
    rw [hrow, issueLens_of_canIssue hcan ho hop hmode]
  case overlay =>
    intro p s o r n g hc hover hsched hg hfree
    dsimp only
    refine ⟨?_, fun m i hi => ?_, fun m a ha => ?_⟩
    · change execOverlayComplete p s = _
      rw [execOverlayComplete, hover, hsched, Option.bind_some, hg]
      simp only [hc, hfree, Bool.not_false, Bool.and_self, if_true]
    · rw [tgetD_placeBundles, if_pos (by omega), Nat.add_sub_cancel_left]
    · rw [tgetD_placeBundles, if_neg (by omega)]
  case mover =>
    rintro t p mv s u d rfl hc hhead
    exact (timed_due (by simp [hc, hhead]) : execMoverDescriptorComplete t p mv s = _)
  case pass =>
    rintro t p s u x rfl hc hdue
    refine (timed_due (by simp [hc, hdue]) : execPrismPassComplete t p s = _).trans ?_
    rw [hdue]
  case walk =>
    rintro t p s u x rfl hc hruns
    refine (timed_due (by simp [hc, hruns]) : execLensWalkComplete t p s = _).trans ?_
    rw [hruns]

end Sys2Proof.Machine
end

