-- ==== Sys2Proof/Proofs/BundleLayout.lean ====
section
/-!
PROOF. The layout of slots and bundles (04 R80, R81): both are numbers written in fields, lowest first.
-/

namespace Sys2Proof.Machine

open Sys2Proof

/-! ### Fields of a number -/

/-- A number from bit `lo` on is its field there and the rest above. -/
theorem div_eq_bitsAt_add (w lo n : Nat) : w / 2 ^ lo = bitsAt w lo n + 2 ^ n * (w / 2 ^ (lo + n)) := by
  rw [bitsAt, pow_add, ← Nat.div_div_eq_div_mul]
  exact (Nat.mod_add_div (w / 2 ^ lo) (2 ^ n)).symm

theorem bitsAt_lt (w lo n : Nat) : bitsAt w lo n < 2 ^ n := Nat.mod_lt _ (Nat.two_pow_pos n)

/-- A bit is a field of one bit. -/
theorem b2n_bit (w i : Nat) : b2n (bit w i) i = bitsAt w i 1 * 2 ^ i := by
  have hlt := bitsAt_lt w i 1
  have hbit : bit w i = (bitsAt w i 1 == 1) := rfl
  obtain h | h : bitsAt w i 1 = 0 ∨ bitsAt w i 1 = 1 := by omega
  · rw [hbit, h]
    simp [b2n]
  · rw [hbit, h]
    simp [b2n]

/-- Bytes are a number's digits to base 256: those dropped. -/
theorem leNat_drop (b : Bytes) (n : Nat) : leNat (b.drop n) = leNat b / 256 ^ n := by
  induction n generalizing b with
  | zero => simp
  | succ n ih =>
    cases b with
    | nil => simp [leNat]
    | cons x r =>
      have hx := x.isLt
      have hdigit : (x.toNat + 256 * leNat r) / 256 = leNat r := by omega
      rw [List.drop_succ_cons, ih, leNat, pow_succ', ← Nat.div_div_eq_div_mul, hdigit]

/-- Bytes are a number's digits to base 256: those taken. -/
theorem leNat_take (b : Bytes) (n : Nat) : leNat (b.take n) = leNat b % 256 ^ n := by
  induction n generalizing b with
  | zero => simp [leNat, Nat.mod_one]
  | succ n ih =>
    cases b with
    | nil => simp [leNat]
    | cons x r =>
      have hx := x.isLt
      have hlow : (x.toNat + 256 * leNat r) % 256 = x.toNat := by omega
      have hhigh : (x.toNat + 256 * leNat r) / 256 = leNat r := by omega
      rw [List.take_succ_cons, leNat, ih, leNat, pow_succ', Nat.mod_mul, hlow, hhigh]

/-! ### Slots -/

/-- A slot whose fields fit is below 2^128, and is read back. -/
theorem slotOf_word {x : Slot} (h : x.wf = true) : x.word < 2 ^ 128 ∧ slotOf x.word = x := by
  obtain ⟨op, pred, pneg, res, d, a, b, c, y, imm, imm2⟩ := x
  simp only [Slot.wf, Bool.and_eq_true, decide_eq_true_eq] at h
  obtain ⟨⟨⟨⟨⟨⟨⟨⟨⟨hop, hpred⟩, hres⟩, hd⟩, ha⟩, hb⟩, hc⟩, hy⟩, himm⟩, himm2⟩ := h
  obtain ⟨v, hv, hvlt⟩ : ∃ v, b2n pneg 11 = v * 2048 ∧ v < 2 := by
    cases pneg
    · exact ⟨0, rfl, by decide⟩
    · exact ⟨1, rfl, by decide⟩
  have hbit : pneg = (v == 1) := by
    cases pneg
    · rw [show v = 0 by simp [b2n] at hv; omega]; rfl
    · rw [show v = 1 by simp [b2n] at hv; omega]; rfl
  simp only [slotOf, Slot.word, bitsAt, bit, hv, Slot.mk.injEq]
  rw [hbit]
  refine ⟨by omega, by omega, by omega, ?_, by omega, by omega, by omega, by omega, by omega, by omega, by omega, by omega⟩
  congr 1
  omega

/-- The fields that a slot is read in fit. -/
theorem slotOf_wf (w : Nat) : (slotOf w).wf = true := by
  have hfits (lo n : Nat) : decide (bitsAt w lo n < 2 ^ n) = true := decide_eq_true (bitsAt_lt w lo n)
  simp only [slotOf, Slot.wf, Bool.and_eq_true]
  exact ⟨⟨⟨⟨⟨⟨⟨⟨⟨hfits 0 8, hfits 8 3⟩, hfits 12 4⟩, hfits 16 8⟩, hfits 24 8⟩, hfits 32 8⟩, hfits 40 8⟩, hfits 48 16⟩, hfits 64 32⟩, hfits 96 32⟩

/-- Every value of 128 bits is that of the slot it reads as. -/
theorem word_slotOf {w : Nat} (h : w < 2 ^ 128) : (slotOf w).word = w := by
  have htop : w / 2 ^ 128 = 0 := Nat.div_eq_of_lt h
  have h0 := div_eq_bitsAt_add w 0 8
  have h1 := div_eq_bitsAt_add w 8 3
  have h2 := div_eq_bitsAt_add w 11 1
  have h3 := div_eq_bitsAt_add w 12 4
  have h4 := div_eq_bitsAt_add w 16 8
  have h5 := div_eq_bitsAt_add w 24 8
  have h6 := div_eq_bitsAt_add w 32 8
  have h7 := div_eq_bitsAt_add w 40 8
  have h8 := div_eq_bitsAt_add w 48 16
  have h9 := div_eq_bitsAt_add w 64 32
  have h10 := div_eq_bitsAt_add w 96 32
  simp only [slotOf, Slot.word, b2n_bit]
  omega

/-! ### Bundles -/

/-- Four slots whose fields fit, in one number. -/
theorem toNat_bundleOf {x0 x1 x2 x3 : Slot} (h0 : x0.word < 2 ^ 128) (h1 : x1.word < 2 ^ 128) (h2 : x2.word < 2 ^ 128) (h3 : x3.word < 2 ^ 128) :
    (bundleOf x0 x1 x2 x3).toNat = x0.word + x1.word * 2 ^ 128 + x2.word * 2 ^ 256 + x3.word * 2 ^ 384 := by
  rw [bundleOf, BitVec.toNat_ofNat]
  exact Nat.mod_eq_of_lt (by omega)

theorem bundleSlot_word (w : BitVec 512) (k : Nat) : (bundleSlot w k).word = bitsAt w.toNat (128 * k) 128 := word_slotOf (bitsAt_lt _ _ _)

/-- Slots whose fields fit are read back from their bundle. -/
theorem bundleSlot_bundleOf {x0 x1 x2 x3 : Slot} (h0 : x0.wf = true) (h1 : x1.wf = true) (h2 : x2.wf = true) (h3 : x3.wf = true) :
    bundleSlot (bundleOf x0 x1 x2 x3) 0 = x0 ∧ bundleSlot (bundleOf x0 x1 x2 x3) 1 = x1 ∧ bundleSlot (bundleOf x0 x1 x2 x3) 2 = x2 ∧ bundleSlot (bundleOf x0 x1 x2 x3) 3 = x3 := by
  obtain ⟨l0, r0⟩ := slotOf_word h0
  obtain ⟨l1, r1⟩ := slotOf_word h1
  obtain ⟨l2, r2⟩ := slotOf_word h2
  obtain ⟨l3, r3⟩ := slotOf_word h3
  simp only [bundleSlot, toNat_bundleOf l0 l1 l2 l3]
  refine ⟨(congrArg slotOf ?_).trans r0, (congrArg slotOf ?_).trans r1, (congrArg slotOf ?_).trans r2, (congrArg slotOf ?_).trans r3⟩
  all_goals
    simp only [bitsAt]
    omega

/-- Every bundle is that of the slots it reads as. -/
theorem bundleOf_bundleSlot (w : BitVec 512) : bundleOf (bundleSlot w 0) (bundleSlot w 1) (bundleSlot w 2) (bundleSlot w 3) = w := by
  have htop : w.toNat / 2 ^ (384 + 128) = 0 := Nat.div_eq_of_lt w.isLt
  have h0 := div_eq_bitsAt_add w.toNat 0 128
  have h1 := div_eq_bitsAt_add w.toNat 128 128
  have h2 := div_eq_bitsAt_add w.toNat 256 128
  have h3 := div_eq_bitsAt_add w.toNat 384 128
  rw [htop] at h3
  have hword (k : Nat) : (bundleSlot w k).word < 2 ^ 128 := by
    rw [bundleSlot_word]
    exact bitsAt_lt _ _ _
  refine BitVec.eq_of_toNat_eq ?_
  rw [toNat_bundleOf (hword 0) (hword 1) (hword 2) (hword 3)]
  simp only [bundleSlot_word, Nat.reduceMul]
  omega

/-- Settles O52: fields, slots and bundles are read as they are written. -/
theorem bundleLayoutRoundTrip : Obligations.BundleLayoutRoundTrip := by
  unfold Obligations.BundleLayoutRoundTrip
  refine ⟨fun x h => slotOf_word h, fun w h => ⟨slotOf_wf w, word_slotOf h⟩, fun x0 x1 x2 x3 h0 h1 h2 h3 => bundleSlot_bundleOf h0 h1 h2 h3, bundleOf_bundleSlot, fun b k hb hk => ?_⟩
  have hlt : leNat b < 2 ^ 512 := by
    rw [pow_mul 2 8 64, ← List.take_of_length_le hb.le, leNat_take]
    exact Nat.mod_lt _ (Nat.pow_pos (by decide))
  have hbase : (256 ^ (16 * k) : Nat) = 2 ^ (128 * k) := by rw [pow_mul, pow_mul]; rfl
  rw [bundleSlot, BitVec.toNat_ofNat, Nat.mod_eq_of_lt hlt, leNat_take, leNat_drop, bitsAt, hbase]
  rfl

end Sys2Proof.Machine
end

