-- ==== Sys2Proof/Proofs/Numbers.lean ====
section
/-!
PROOF. Reductions in pairs (05 R119), and conversions to FP32 and back (05 R112, R113): a conversion of an element is exact, and the way
back depends on the value alone.
-/

namespace Sys2Proof.Machine

open Sys2Proof

/-! ### Reductions -/

/-- A level of pairs is half as long, and pairs neighbours. -/
theorem pairUp_spec (f : F32 → F32 → F32) (d : F32) : ∀ (m : Nat) (l : List F32), l.length = 2 * m →
    (pairUp f l).length = m ∧ ∀ j, j < m → (pairUp f l).getD j d = f (l.getD (2 * j) d) (l.getD (2 * j + 1) d)
  | 0, l, h => by
    rw [List.length_eq_zero_iff.mp h]
    exact ⟨rfl, fun j hj => absurd hj (Nat.not_lt_zero j)⟩
  | m + 1, x :: y :: r, h => by
    obtain ⟨hlen, hget⟩ := pairUp_spec f d m r (by simp only [List.length_cons] at h; omega)
    refine ⟨by rw [pairUp, List.length_cons, hlen], fun j hj => ?_⟩
    cases j with
    | zero => rfl
    | succ j => exact hget j (by omega)

/-- The levels of a reduction end on the last. -/
theorem pairLevels_headD {f : F32 → F32 → F32} {y : Nat → Nat → F32} {d : F32} (n k : Nat) (l : List F32) (hlen : l.length = 2 ^ n)
    (hl : ∀ j, j < 2 ^ n → y k j = l.getD j d) (hy : ∀ i j, i < n → y (k + i + 1) j = f (y (k + i) (2 * j)) (y (k + i) (2 * j + 1))) :
    (pairLevels f n l).headD d = y (k + n) 0 := by
  induction n generalizing k l with
  | zero =>
    rw [pairLevels, Nat.add_zero, hl 0 (by decide)]
    cases l <;> rfl
  | succ n ih =>
    obtain ⟨hhalf, hget⟩ := pairUp_spec f d (2 ^ n) l (by rw [hlen, pow_succ']) 
    rw [pairLevels, ih (k + 1) (pairUp f l) hhalf (fun j hj => ?level) (fun i j hi => ?step), Nat.add_right_comm, Nat.add_assoc]
    case level =>
      have hpow : 2 ^ (n + 1) = 2 * 2 ^ n := pow_succ' 2 n
      rw [hget j hj, ← hl (2 * j) (by omega), ← hl (2 * j + 1) (by omega)]
      exact hy 0 j (Nat.succ_pos n)
    case step =>
      have h := hy (i + 1) j (by omega)
      rwa [show k + (i + 1) = k + 1 + i by omega] at h

/-- Settles O56: a reduction is the last of its levels. -/
theorem reductionsPairLanes : Obligations.ReductionsPairLanes := by
  unfold Obligations.ReductionsPairLanes
  intro l f y hlen hl hy
  have hlast : (pairLevels f 9 l).headD 0 = y 9 0 := by
    refine (pairLevels_headD (d := 0) 9 0 l hlen hl fun i j hi => ?_).trans rfl
    rw [Nat.zero_add]
    exact hy i j hi
  exact ⟨fun hf => by rw [redSum, ← hf, hlast], fun hf => by rw [redMax, ← hf, hlast]⟩

/-! ### Rounding depends on the value alone -/

/-- A number without its lowest bits, where they are 0. -/
theorem rneShift_mul_le (n k j : Nat) (h : j ≤ k) : rneShift (n * 2 ^ k) j = n * 2 ^ (k - j) := by
  have hpos : 0 < 2 ^ j := Nat.two_pow_pos j
  have hsplit : n * 2 ^ k = n * 2 ^ (k - j) * 2 ^ j := by rw [Nat.mul_assoc, ← pow_add, Nat.sub_add_cancel h]
  have hzero : ¬ (0 : Nat) = 2 ^ j := hpos.ne
  rw [hsplit, rneShift]
  simp [Nat.mul_div_cancel _ hpos, Nat.mul_mod_left, hzero]

/-- A power of two cancels in a rounding shift. -/
theorem rneShift_mul_add (n k j : Nat) : rneShift (n * 2 ^ k) (j + k) = rneShift n j := by
  have hk : 0 < 2 ^ k := Nat.two_pow_pos k
  have hdiv : n * 2 ^ k / 2 ^ (j + k) = n / 2 ^ j := by rw [pow_add, Nat.mul_div_mul_right _ _ hk]
  have hmod : n * 2 ^ k % 2 ^ (j + k) = n % 2 ^ j * 2 ^ k := by rw [pow_add, Nat.mul_mod_mul_right]
  have hgt : (2 * (n % 2 ^ j * 2 ^ k) > 2 ^ (j + k)) ↔ 2 * (n % 2 ^ j) > 2 ^ j := by
    rw [← Nat.mul_assoc, pow_add]
    exact Nat.mul_lt_mul_right hk
  have heq : (2 * (n % 2 ^ j * 2 ^ k) = 2 ^ (j + k)) ↔ 2 * (n % 2 ^ j) = 2 ^ j := by
    rw [← Nat.mul_assoc, pow_add]
    exact Nat.mul_left_inj hk.ne'
  simp only [rneShift, hdiv, hmod, hgt, Bool.beq_eq_decide_eq, heq]

/-- The last bit of a product with a power of two. -/
theorem log2_mul_two_pow {n : Nat} (h : n ≠ 0) (k : Nat) : (n * 2 ^ k).log2 = n.log2 + k := by
  induction k with
  | zero => simp
  | succ k ih => rw [pow_succ, ← Nat.mul_assoc, Nat.mul_comm, Nat.log2_two_mul (by positivity), ih, Nat.add_assoc]

/-- A quantized value does not depend on the exponent that it is written at. -/
theorem quantize_mul {n : Nat} (hn : n ≠ 0) (p : Nat) (qmin : Int) (k : Nat) (e : Int) :
    quantize rneShift p qmin (n * 2 ^ k) e = quantize rneShift p qmin n (e + k) := by
  have hq : max (e + ((n * 2 ^ k).log2 + 1 : Nat) - p) qmin = max (e + k + (n.log2 + 1 : Nat) - p) qmin := by
    rw [log2_mul_two_pow hn]
    push_cast
    congr 1
    omega
  unfold quantize
  rw [hq]
  dsimp only
  generalize max (e + k + (n.log2 + 1 : Nat) - p) qmin = q
  split
  · next hle =>
    have hshift : (e + k - q).toNat = k + (e - q).toNat := by omega
    rw [if_pos (by omega), hshift, pow_add, Nat.mul_assoc]
  · next hlt =>
    split
    · next hle =>
      have hshift : (e + k - q).toNat = k - (q - e).toNat := by omega
      rw [rneShift_mul_le n k _ (by omega), hshift]
    · next hgt =>
      have hshift : (q - e).toNat = (q - (e + k)).toNat + k := by omega
      rw [hshift, rneShift_mul_add]

/-- A value that needs no rounding is quantized at its exponent, or at a lower one. -/
theorem quantize_exact (round : Nat → Nat → Nat) {p : Nat} {qmin : Int} {n : Nat} {e : Int} (hp : n.log2 < p) (hqmin : qmin ≤ e) :
    quantize round p qmin n e = (n * 2 ^ (e - max (e + (n.log2 + 1 : Nat) - p) qmin).toNat, max (e + (n.log2 + 1 : Nat) - p) qmin) := by
  unfold quantize
  dsimp only
  rw [if_pos (by omega)]

/-! ### Narrow codes -/

/-- The code of a value does not depend on the exponent that it is written at. -/
theorem narrow_mul (mb : Nat) (qmin : Int) (maxM : Nat) (maxQ : Int) (signAt beyond : Nat) (neg : Bool) (n k : Nat) (e : Int) :
    narrow rneShift mb qmin maxM maxQ signAt beyond neg (n * 2 ^ k) e = narrow rneShift mb qmin maxM maxQ signAt beyond neg n (e + k) := by
  by_cases hn : n = 0
  · simp [narrow, hn]
  · have hpos : n * 2 ^ k ≠ 0 := by positivity
    simp only [narrow, hn, hpos, if_false, quantize_mul hn]

/-- A value that a narrow format holds gets its own code: mantissa alone, or exponent and mantissa. -/
theorem narrow_exact {mb : Nat} {qmin : Int} {maxM : Nat} {maxQ : Int} {n : Nat} {e : Int} (signAt beyond : Nat) (neg : Bool) (hn : n ≠ 0) (hlt : n < 2 ^ (mb + 1))
    (hnormal : n < 2 ^ mb → e = qmin) (hqmin : qmin ≤ e) (hmax : e < maxQ ∨ e = maxQ ∧ n ≤ maxM) :
    narrow rneShift mb qmin maxM maxQ signAt beyond neg n e = b2n neg signAt + (if n < 2 ^ mb then n else (e - qmin + 1).toNat * 2 ^ mb + (n - 2 ^ mb)) := by
  have hlog : n.log2 < mb + 1 := (Nat.log2_lt hn).mpr hlt
  have hq : max (e + (n.log2 + 1 : Nat) - (mb + 1 : Nat)) qmin = e := by
    by_cases hsmall : n < 2 ^ mb
    · have := hnormal hsmall
      omega
    · have : mb ≤ n.log2 := (Nat.le_log2 hn).mpr (Nat.le_of_not_lt hsmall)
      omega
  have hbeyond : (decide (e > maxQ) || e == maxQ && decide (n > maxM)) = false := by
    obtain h | ⟨rfl, h⟩ := hmax
    · have hne : ¬ e = maxQ := by omega
      have hle : ¬ e > maxQ := by omega
      simp [hne, hle]
    · simp [h]
  have hquantize : quantize rneShift (mb + 1) qmin n e = (n, e) := by
    rw [quantize_exact rneShift hlog hqmin, hq]
    simp
  rw [narrow, if_neg hn, hquantize]
  dsimp only
  rw [if_neg hlt.ne]
  dsimp only
  rw [hbeyond]
  simp only [Bool.false_eq_true, if_false]
  split
  · rfl
  · rw [Nat.add_assoc]

/-! ### Conversion to FP32 is exact -/

/-- An FP32 from its sign and its other bits. -/
def bitsF (neg : Bool) (v : Nat) : F32 := signBit neg ||| BitVec.ofNat 32 v

theorem bitsF_toNat (neg : Bool) {v : Nat} (h : v < 2 ^ 31) : (bitsF neg v).toNat = (if neg then 2 ^ 31 else 0) + v := by
  have hv : v % 2 ^ 32 = v := Nat.mod_eq_of_lt (by omega)
  rw [bitsF, BitVec.toNat_or, BitVec.toNat_ofNat, hv]
  cases neg
  · simp [signBit]
  · exact (Nat.two_pow_add_eq_or_of_lt h 1).symm

/-- The value of an FP32 from its sign and its other bits, where they are no infinity and no NaN. -/
theorem ofF32_bitsF (neg : Bool) {v : Nat} (h : v / 2 ^ 23 < 255) :
    ofF32 (bitsF neg v) = if v / 2 ^ 23 = 0 then .fin neg (v % 2 ^ 23) (-149) else .fin neg (2 ^ 23 + v % 2 ^ 23) ((v / 2 ^ 23 : Nat) - 150) := by
  have hlt : v < 2 ^ 31 := by omega
  have hnat := bitsF_toNat neg hlt
  have hmsb : (bitsF neg v).msb = neg := by
    rw [BitVec.msb_eq_decide, hnat]
    cases neg
    · simpa using hlt
    · simp
  have hex : (bitsF neg v).toNat / 2 ^ 23 % 256 = v / 2 ^ 23 := by
    rw [hnat]
    split <;> omega
  have hm : (bitsF neg v).toNat % 2 ^ 23 = v % 2 ^ 23 := by
    rw [hnat]
    split <;> omega
  unfold ofF32
  dsimp only
  rw [hmsb, hex, hm, if_neg h.ne]

/-- A value of at most 24 significant bits in the range of FP32 is kept, at an exponent that may be lower. -/
theorem ofF32_toF32 (neg : Bool) {n : Nat} {e : Int} (hn : n < 2 ^ 24) (hmin : -149 ≤ e) (hmax : n ≠ 0 → e + (n.log2 + 1 : Nat) ≤ 128) :
    ∃ k : Nat, ofF32 (toF32 (.fin neg n e)) = .fin neg (n * 2 ^ k) (e - k) := by
  by_cases h0 : n = 0
  · refine ⟨(e + 149).toNat, ?_⟩
    have hzero : toF32 (.fin neg n e) = bitsF neg 0 := by
      simp [toF32, h0, bitsF]
    rw [hzero, ofF32_bitsF neg (by decide), if_pos (by decide), h0, Nat.zero_mul]
    congr 1
    omega
  · have hlog : n.log2 < 24 := (Nat.log2_lt h0).mpr hn
    have hlast := hmax h0
    have hup : n < 2 ^ (n.log2 + 1) := Nat.lt_log2_self
    have hdown : 2 ^ n.log2 ≤ n := Nat.log2_self_le h0
    generalize hq : max (e + (n.log2 + 1 : Nat) - (24 : Nat)) (-149) = q
    obtain ⟨k, rfl⟩ : ∃ k : Nat, e = q + k := ⟨(e - q).toNat, by omega⟩
    have hk : (q + k - q).toNat = k := by omega
    have hquantize : quantize rneShift 24 (-149) n (q + k) = (n * 2 ^ k, q) := by
      rw [quantize_exact rneShift hlog hmin, hq, hk]
    have hlt : n * 2 ^ k < 2 ^ 24 := calc
      n * 2 ^ k < 2 ^ (n.log2 + 1) * 2 ^ k := Nat.mul_lt_mul_of_pos_right hup (Nat.two_pow_pos k)
      _ = 2 ^ (n.log2 + 1 + k) := (pow_add 2 _ _).symm
      _ ≤ 2 ^ 24 := Nat.pow_le_pow_right (by decide) (by omega)
    refine ⟨k, ?_⟩
    rw [toF32, if_neg h0, hquantize]
    dsimp only
    rw [if_neg hlt.ne]
    dsimp only
    split
    · next hsmall =>
      have hlow : q = -149 := by
        by_contra hne
        have hge : 2 ^ 23 ≤ n * 2 ^ k := calc
          2 ^ 23 = 2 ^ n.log2 * 2 ^ k := by rw [← pow_add]; congr 1; omega
          _ ≤ n * 2 ^ k := Nat.mul_le_mul_right _ hdown
        omega
      have hex : n * 2 ^ k / 2 ^ 23 = 0 := Nat.div_eq_of_lt hsmall
      refine (ofF32_bitsF neg (by omega)).trans ?_
      rw [if_pos hex, Nat.mod_eq_of_lt hsmall]
      congr 1
      omega
    · next hlarge =>
      rw [if_neg (by omega)]
      obtain ⟨m, hm⟩ : ∃ m, n * 2 ^ k = 2 ^ 23 + m := ⟨n * 2 ^ k - 2 ^ 23, by omega⟩
      have hsub : n * 2 ^ k - 2 ^ 23 = m := by omega
      obtain ⟨x, hx⟩ : ∃ x : Nat, q + 150 = x := ⟨(q + 150).toNat, by omega⟩
      have hxn : (q + 150).toNat = x := by omega
      rw [hsub, hxn]
      have hex : (x * 2 ^ 23 + m) / 2 ^ 23 = x := by omega
      have hrest : (x * 2 ^ 23 + m) % 2 ^ 23 = m := by omega
      have hx0 : ¬ x = 0 := by omega
      have hexp : (x : Int) - 150 = q + k - k := by omega
      refine (ofF32_bitsF neg (by omega)).trans ?_
      simp only [hex, hrest, hx0, if_false, hm, hexp]

/-! ### Codes of floating-point elements -/

/-- A code is its sign, its exponent field and its mantissa. -/
theorem code_eq {eb mb c : Nat} (h : c < 2 ^ (eb + mb + 1)) : b2n (bit c (eb + mb)) (eb + mb) + (c / 2 ^ mb % 2 ^ eb * 2 ^ mb + c % 2 ^ mb) = c := by
  have hsign : c / 2 ^ (eb + mb) % 2 ^ 1 = c / 2 ^ (eb + mb) :=
    Nat.mod_eq_of_lt ((Nat.div_lt_iff_lt_mul (Nat.two_pow_pos _)).mpr (by rwa [← pow_add, Nat.add_comm 1]))
  have hhigh : c / 2 ^ mb = 2 ^ eb * (c / 2 ^ (eb + mb)) + c / 2 ^ mb % 2 ^ eb := by
    rw [Nat.add_comm eb mb, pow_add, ← Nat.div_div_eq_div_mul]
    exact (Nat.div_add_mod _ _).symm
  rw [b2n_bit, bitsAt, hsign]
  calc c / 2 ^ (eb + mb) * 2 ^ (eb + mb) + (c / 2 ^ mb % 2 ^ eb * 2 ^ mb + c % 2 ^ mb)
      = 2 ^ mb * (2 ^ eb * (c / 2 ^ (eb + mb)) + c / 2 ^ mb % 2 ^ eb) + c % 2 ^ mb := by rw [pow_add]; ring
    _ = 2 ^ mb * (c / 2 ^ mb) + c % 2 ^ mb := by rw [← hhigh]
    _ = c := Nat.div_add_mod c (2 ^ mb)

/-- The value of a finite code, converted to FP32 and back, gives the code. -/
theorem narrow_smallFloat {eb mb c maxM : Nat} {bias maxQ : Int} (beyond : Nat) (hc : c < 2 ^ (eb + mb + 1)) (hmb : mb < 24) (hmin : -149 ≤ 1 - bias - mb)
    (htop : maxQ + mb + 1 ≤ 128) (hsub : 1 - bias - mb < maxQ)
    (hmax : ((c / 2 ^ mb % 2 ^ eb : Nat) : Int) - bias - mb < maxQ ∨ ((c / 2 ^ mb % 2 ^ eb : Nat) : Int) - bias - mb = maxQ ∧ 2 ^ mb + c % 2 ^ mb ≤ maxM) :
    ∃ neg n e, ofF32 (toF32 (smallFloat eb mb bias c)) = .fin neg n e ∧ narrow rneShift mb (1 - bias - mb) maxM maxQ (eb + mb) beyond neg n e = c := by
  have hcode := code_eq hc
  have hm : c % 2 ^ mb < 2 ^ mb := Nat.mod_lt _ (Nat.two_pow_pos mb)
  have hdouble : 2 ^ (mb + 1) = 2 * 2 ^ mb := pow_succ' 2 mb
  have hbits : 2 ^ (mb + 1) ≤ 2 ^ 24 := Nat.pow_le_pow_right (by decide) hmb
  have hlog (n : Nat) (h0 : n ≠ 0) (hn : n < 2 ^ (mb + 1)) : n.log2 + 1 ≤ mb + 1 := (Nat.log2_lt h0).mpr hn
  unfold smallFloat
  dsimp only
  generalize hx : c / 2 ^ mb % 2 ^ eb = x at hcode hmax ⊢
  generalize c % 2 ^ mb = m at hcode hmax hm ⊢
  generalize bit c (eb + mb) = neg at hcode ⊢
  split
  · next h0 =>
    obtain ⟨k, hk⟩ := ofF32_toF32 neg (n := m) (e := 1 - bias - mb) (by omega) hmin (fun hne => by have := hlog m hne (by omega); omega)
    refine ⟨_, _, _, hk, ?_⟩
    rw [narrow_mul, Int.sub_add_cancel]
    by_cases hne : m = 0
    · rw [narrow, if_pos hne]
      rw [h0, hne] at hcode
      simpa using hcode
    · rw [narrow_exact _ _ _ hne (by omega) (fun _ => rfl) le_rfl (.inl hsub), if_pos hm]
      rw [h0] at hcode
      simpa using hcode
  · next hpos =>
    obtain ⟨k, hk⟩ := ofF32_toF32 neg (n := 2 ^ mb + m) (e := x - bias - mb) (by omega) (by omega) (fun hne => by have := hlog (2 ^ mb + m) hne (by omega); omega)
    refine ⟨_, _, _, hk, ?_⟩
    have hexp : ((x : Int) - bias - mb - (1 - bias - mb) + 1).toNat = x := by omega
    rw [narrow_mul, Int.sub_add_cancel, narrow_exact _ _ _ (by have := Nat.two_pow_pos mb; omega) (by omega) (fun h => by omega) (by omega) hmax, if_neg (by omega), hexp,
      Nat.add_sub_cancel_left, hcode]

/-! ### INT8 -/

/-- Zero is quantized as zero. -/
theorem quantize_zero (p : Nat) (qmin e : Int) : (quantize rneShift p qmin 0 e).1 = 0 := by
  have hzero (j : Nat) : rneShift 0 j = 0 := by simpa using rneShift_mul_le 0 j j le_rfl
  unfold quantize
  dsimp only
  split
  · exact Nat.zero_mul _
  · exact hzero _

/-- An integer of 8 bits is kept. -/
theorem narrowInt_shifted {n : Nat} (neg : Bool) (k : Nat) (hlow : (if neg then -(n : Int) else n) < 128) (hhigh : -128 ≤ (if neg then -(n : Int) else n)) :
    narrowInt rneShift 8 neg (n * 2 ^ k) (0 - k) = unsigned (if neg then -(n : Int) else n) 8 := by
  obtain ⟨r, q, hquantize, hvalue⟩ : ∃ r q, quantize rneShift ((n * 2 ^ k).log2 + 400) 0 (n * 2 ^ k) (0 - k) = (r, q) ∧ r * 2 ^ q.toNat = n := by
    by_cases hn : n = 0
    · refine ⟨_, _, Prod.mk.eta.symm, ?_⟩
      rw [hn, Nat.zero_mul, quantize_zero, Nat.zero_mul]
    · have hlog := log2_mul_two_pow hn k
      refine ⟨_, _, (quantize_mul hn _ 0 k (0 - k)).trans (quantize_exact rneShift (by omega) (by omega)), ?_⟩
      have hq : max ((0 : Int) - k + k + (n.log2 + 1 : Nat) - ((n * 2 ^ k).log2 + 400 : Nat)) 0 = 0 := by omega
      rw [hq]
      simp
  unfold narrowInt
  rw [hquantize]
  dsimp only
  rw [hvalue, show ((2 ^ (8 - 1) : Nat) : Int) = 128 from rfl]
  generalize (if neg = true then -(n : Int) else n) = v at hlow hhigh ⊢
  congr 1
  omega

/-! ### The obligation -/

theorem ofF32_infBits (neg : Bool) : ofF32 (infBits neg) = .inf neg := by
  cases neg <;> decide

/-- A code of an IEEE format that is no NaN, converted to FP32 and back: an infinity keeps its sign, a finite code is kept. -/
theorem ieeeFloat_roundTrip {eb mb c maxM : Nat} {bias maxQ : Int} (beyond : Nat) (hc : c < 2 ^ (eb + mb + 1)) (hmb : mb < 24) (hmin : -149 ≤ 1 - bias - mb)
    (htop : maxQ + mb + 1 ≤ 128) (hsub : 1 - bias - mb < maxQ)
    (hmax : c / 2 ^ mb % 2 ^ eb ≠ 2 ^ eb - 1 →
      ((c / 2 ^ mb % 2 ^ eb : Nat) : Int) - bias - mb < maxQ ∨ ((c / 2 ^ mb % 2 ^ eb : Nat) : Int) - bias - mb = maxQ ∧ 2 ^ mb + c % 2 ^ mb ≤ maxM)
    (hnan : ieeeFloat eb mb bias c ≠ .nan) :
    (∃ neg, ofF32 (toF32 (ieeeFloat eb mb bias c)) = .inf neg ∧ b2n neg (eb + mb) + (2 ^ eb - 1) * 2 ^ mb = c) ∨
    ∃ neg n e, ofF32 (toF32 (ieeeFloat eb mb bias c)) = .fin neg n e ∧ narrow rneShift mb (1 - bias - mb) maxM maxQ (eb + mb) beyond neg n e = c := by
  unfold ieeeFloat at hnan ⊢
  split at hnan
  · next hexp =>
    split at hnan
    · next hzero =>
      have hcode := code_eq hc
      rw [hexp, hzero, Nat.add_zero] at hcode
      rw [if_pos hexp, if_pos hzero]
      exact .inl ⟨_, ofF32_infBits _, hcode⟩
    · exact absurd rfl hnan
  · next hexp =>
    rw [if_neg hexp]
    exact .inr (narrow_smallFloat beyond hc hmb hmin htop hsub (hmax hexp))

/-- The canonical NaN stands for every NaN. -/
theorem elemF_of_nan {fmt c : Nat} (h : elemFv fmt c = .nan) : elemF fmt c = 0x7FC00000 := by
  rw [elemF, h]
  rfl

section Formats
variable {c : Nat}

/-- FP8 E4M3. -/
theorem e4m3_roundTrip (hc : c < 2 ^ 8) (hnan : elemFv 0x0 c ≠ .nan) : toElem rneShift 0x0 (elemF 0x0 c) = c := by
  have htop : ¬ c % 128 = 0x7F := fun h => hnan (if_pos h)
  have hvalue : elemFv 0x0 c = smallFloat 4 3 7 c := if_neg htop
  obtain ⟨neg, n, e, hfin, hback⟩ := narrow_smallFloat (eb := 4) (mb := 3) (c := c) (bias := 7) (maxM := 14) (maxQ := 5) 0x7E hc (by decide) (by decide) (by decide)
    (by decide) (by omega)
  rw [elemF, hvalue]
  simp only [toElem, hfin]
  exact hback

/-- FP8 E5M2. -/
theorem e5m2_roundTrip (hc : c < 2 ^ 8) (hnan : elemFv 0x1 c ≠ .nan) : toElem rneShift 0x1 (elemF 0x1 c) = c := by
  obtain ⟨neg, hinf, hback⟩ | ⟨neg, n, e, hfin, hback⟩ := ieeeFloat_roundTrip (eb := 5) (mb := 2) (c := c) (bias := 15) (maxM := 7) (maxQ := 13) 0x7B hc (by decide)
    (by decide) (by decide) (by decide) (by omega) hnan
  · simp only [toElem, elemF, elemFv, hinf]
    exact hback
  · simp only [toElem, elemF, elemFv, hfin]
    exact hback

/-- FP4. -/
theorem fp4_roundTrip (hc : c < 2 ^ 4) : toElem rneShift 0x6 (elemF 0x6 c) = c := by
  obtain ⟨neg, n, e, hfin, hback⟩ := narrow_smallFloat (eb := 2) (mb := 1) (c := c) (bias := 1) (maxM := 3) (maxQ := 1) 0x7 hc (by decide) (by decide) (by decide)
    (by decide) (by omega)
  simp only [toElem, elemF, elemFv, hfin]
  exact hback

/-- BF16. -/
theorem bf16_roundTrip (hc : c < 2 ^ 16) (hnan : elemFv 0xA c ≠ .nan) : toElem rneShift 0xA (elemF 0xA c) = c := by
  obtain ⟨neg, hinf, hback⟩ | ⟨neg, n, e, hfin, hback⟩ := ieeeFloat_roundTrip (eb := 8) (mb := 7) (c := c) (bias := 127) (maxM := 255) (maxQ := 120) 0x7F80 hc (by decide)
    (by decide) (by decide) (by decide) (by omega) hnan
  · simp only [toElem, elemF, elemFv, hinf]
    exact hback
  · simp only [toElem, elemF, elemFv, hfin]
    exact hback

/-- FP16. -/
theorem fp16_roundTrip (hc : c < 2 ^ 16) (hnan : elemFv 0xB c ≠ .nan) : toElem rneShift 0xB (elemF 0xB c) = c := by
  obtain ⟨neg, hinf, hback⟩ | ⟨neg, n, e, hfin, hback⟩ := ieeeFloat_roundTrip (eb := 5) (mb := 10) (c := c) (bias := 15) (maxM := 2047) (maxQ := 5) 0x7C00 hc (by decide)
    (by decide) (by decide) (by decide) (by omega) hnan
  · simp only [toElem, elemF, elemFv, hinf]
    exact hback
  · simp only [toElem, elemF, elemFv, hfin]
    exact hback

/-- INT8. -/
theorem int8_roundTrip (hc : c < 2 ^ 8) : toElem rneShift 0x8 (elemF 0x8 c) = c := by
  obtain ⟨i, hi, hlow, hhigh, hcode⟩ : ∃ i : Int, signed c 8 = i ∧ i < 128 ∧ -128 ≤ i ∧ unsigned i 8 = c := by
    refine ⟨_, rfl, ?_⟩
    unfold signed unsigned
    split <;> omega
  have habs : (if decide (i < 0) = true then -(i.natAbs : Int) else i.natAbs) = i := by
    by_cases hneg : i < 0
    · rw [decide_eq_true hneg, if_pos rfl]
      omega
    · rw [decide_eq_false hneg, if_neg (by decide)]
      omega
  obtain ⟨k, hk⟩ := ofF32_toF32 (decide (i < 0)) (n := i.natAbs) (e := 0) (by omega) (by decide)
    (fun hne => by have : i.natAbs.log2 < 8 := (Nat.log2_lt hne).mpr (by omega); omega)
  have hvalue : elemFv 0x8 c = .fin (decide (i < 0)) i.natAbs 0 := by rw [← hi]; rfl
  rw [elemF, hvalue]
  simp only [toElem, hk]
  rw [narrowInt_shifted _ k (by rw [habs]; exact hlow) (by rw [habs]; exact hhigh), habs, hcode]

end Formats

/-- Settles O58: a code's value is kept by FP32 and has no other code. -/
theorem elementsRoundTrip : Obligations.ElementsRoundTrip := by
  unfold Obligations.ElementsRoundTrip
  intro f hf c hc
  refine ⟨fun hnan => ?_, elemF_of_nan⟩
  simp only [List.mem_cons, List.not_mem_nil, or_false] at hf
  obtain rfl | rfl | rfl | rfl | rfl | rfl := hf
  · exact e4m3_roundTrip hc hnan
  · exact e5m2_roundTrip hc hnan
  · exact fp4_roundTrip hc
  · exact int8_roundTrip hc
  · exact bf16_roundTrip hc hnan
  · exact fp16_roundTrip hc hnan

end Sys2Proof.Machine
end
